-- ==== Sys2Proof/Word.lean ====
section
/-! DEFINITION. Words: the bit-vector types the spec gives its registers, fields and addresses (R3, R10). -/

namespace Sys2Proof

abbrev Byte := BitVec 8
abbrev W16 := BitVec 16
abbrev W32 := BitVec 32
abbrev W64 := BitVec 64

end Sys2Proof
end

