-- ==== Sys2Proof/Syntax.lean ====
section
/-! DEFINITION. Syntax: the instruction word's header and six formats (R11, R15 to R21), the arguments of the device's
events, and Instr, one constructor per row of spec/opcode_table.json. -/

namespace Sys2Proof

/-- The header of every instruction word, bits [63:57] (R11); OP is the constructor. -/
structure Hdr where
  y  : Bool
  ge : Bool
  gn : Bool
  gp : BitVec 4
deriving DecidableEq, Repr

/-- Format R (R16). -/
structure RF where
  d : Byte
  a : Byte
  b : Byte
  c : Byte
  t : BitVec 5
  fn : BitVec 4
  rm : BitVec 2
  md : BitVec 6
deriving DecidableEq, Repr

/-- Format I (R17). -/
structure IF where
  d : Byte
  a : Byte
  imm : W32
  x : Bool
deriving DecidableEq, Repr

/-- Format J (R18). -/
structure JF where
  j : BitVec 4
  a : Byte
  pri : Byte
  off : BitVec 24
deriving DecidableEq, Repr

/-- Format M (R19). -/
structure MF where
  d : Byte
  a : Byte
  b : Byte
  sz : BitVec 3
  sg : Bool
  ord : BitVec 2
  scp : BitVec 3
  ch : BitVec 2
  off : BitVec 14
deriving DecidableEq, Repr

/-- Format X (R20). -/
structure XF where
  acc : BitVec 4
  sh : BitVec 4
  a : Byte
  b : Byte
  s : Byte
  rep : BitVec 3
  bsel : BitVec 2
  neg : Bool
  zero : Bool
  low : BitVec 10
deriving DecidableEq, Repr

/-- Format S (R21). -/
structure SF where
  d : Byte
  a : Byte
  sel : W16
  imm : W16
deriving DecidableEq, Repr

/-- A wave: its group's number in the machine and its index in the group (R71). -/
structure WaveRef where
  gid : Nat
  wi : Nat
deriving DecidableEq, Repr

/-- A frontier entry of a wave, 0 to 7 (R178). -/
structure EntryRef where
  gid : Nat
  wi : Nat
  slot : Nat
deriving DecidableEq, Repr

/-- The kinds of stop (R478). -/
inductive StopKind | lease | manager | migrate | fault | selftest | dispatch
deriving DecidableEq, Repr

/-- The payload of a PRICE flit (R169): prices of class k pool p at 4k + p. -/
structure PriceFlit where
  dev : Nat
  interval : Nat
  number : Nat
  price : List Nat
  unsold : List Nat
deriving DecidableEq, Repr

/-- A step that the unit at a sector's home performs as one on the sector's plaintext (R340, R370, R432, R437). -/
inductive StepKind
  | store
  | atom (opn : Nat) (sg : Bool)
  | acas
  | signal (opn : Nat)
  | ldf
  | ldfe
  | stef
  | stf
  | fest (clear : Bool)
deriving DecidableEq, Repr

/-- A step at another device's home (log entry 38): the page's key slot and the sector's tweak, the bytes of the sector that it reads or writes,
its operands as sectors of ciphertext with the operand at its place, and the poisoned 32-bit words of a store's data. -/
structure HomeStep where
  kind : StepKind
  slot : Nat
  unit : Nat
  bytes : BitVec 32
  data : List Byte
  cmp : List Byte
  bad : Byte
deriving DecidableEq, Repr

/-- What an ACCESS flit asks of the home's memory (R521): ciphertext bytes at a physical address; a write of a sector may
carry the full/empty states of its four 64-bit words; bad marks its poisoned 32-bit words; a step at the home; the withdrawal of a full/empty
step that waits there. -/
inductive AccessOp
  | read (len : Nat)
  | write (data : List Byte) (full : Option (BitVec 4)) (bad : Byte)
  | step (st : HomeStep)
  | withdraw (id : Nat)
deriving DecidableEq, Repr

structure AccessReq where
  dev : Nat
  ctx : Nat
  id : Nat
  pa : Nat
  op : AccessOp
deriving DecidableEq, Repr

/-- The answer a RESPONSE flit carries (R521): data with the full/empty states and the poison of the words of its sector (of a step, as
they stood before it), a full/empty step's wait at the home or its withdrawal (log entry 38), or the home's refusal. -/
inductive Answer
  | data (bytes : List Byte) (full : BitVec 4) (bad : Byte)
  | done
  | waiting
  | withdrawn
  | lost
  | noPage
deriving DecidableEq, Repr

/-- A contribution to a reduction job, or the value or the failure (fail, a code of R528) that a node sends on (R527, R528): the generation of the
key it is sealed under, the sealed elements and the GCM tag (R526). -/
structure Contribution where
  job : Nat
  child : Nat
  kgen : Nat
  fail : Nat
  data : List Byte
  tag : List Byte
deriving DecidableEq, Repr

/-- The payload of a RATLINE flit (R535). -/
structure Ratline where
  epoch : Nat
  base : Nat
  slots : Nat
  width : Nat
deriving DecidableEq, Repr

/-- Thirty-two bytes of a checkpoint shard, from an offset on, sent to the device that writes its row's parity, or at a restore to the one that rebuilds
its row (R529, R531). -/
structure Shard where
  dev : Nat
  row : Nat
  off : Nat
  data : List Byte
deriving DecidableEq, Repr

/-- The units of R473 and R474 that an error names. -/
inductive UnitLoc
  | sramRow (core bank row : Nat)
  | laneSlice (core partition : Nat)
  | wayColumn (die way : Nat)
  | hbmRow (pa : Nat)
  | engine (core quadrant : Nat)
deriving DecidableEq, Repr

/-- The word an ECC error hits, for poisoning (R471). -/
inductive EccWord
  | vector (group wave reg lane : Nat)
  | uniform (group reg : Nat)
  | scratch (group off : Nat)
  | tile (engine tile elem : Nat)
  | drainRow (engine row elem : Nat)
  | memory (pa : Nat)
deriving DecidableEq, Repr

structure EccEvent where
  word : EccWord
  unit : UnitLoc
  corrected : Bool
deriving DecidableEq, Repr

/-- The instructions and the device's events, one constructor per row of spec/opcode_table.json. -/
inductive Instr
  | bra (h : Hdr) (f : JF)   -- BRA, 0x01, R201
  | brx (h : Hdr) (f : JF)   -- BRX, 0x02, R203
  | call (h : Hdr) (f : JF)   -- CALL, 0x03, R204
  | callx (h : Hdr) (f : JF)   -- CALLX, 0x04, R205
  | ret (h : Hdr) (f : JF)   -- RET, 0x05, R206
  | joinJ (h : Hdr) (f : JF)   -- JOIN, 0x06, R207
  | jset (h : Hdr) (f : RF)   -- JSET, 0x07, R208
  | exitL (h : Hdr) (f : RF)   -- EXIT, 0x08, R209
  | nop (h : Hdr) (f : RF)   -- NOP, 0x09, R210
  | yieldE (h : Hdr) (f : RF)   -- YIELD, 0x0a, R211
  | winb (h : Hdr) (f : IF)   -- WINB, 0x0b, R212
  | brk (h : Hdr) (f : SF)   -- BRK, 0x0c, R460
  | trapU (h : Hdr) (f : SF)   -- TRAP, 0x0d, R460
  | rtu (h : Hdr) (f : SF)   -- RTU, 0x0e, R461
  | brs (h : Hdr) (f : JF)   -- BRS, 0x0f, R202
  | add (h : Hdr) (f : RF)   -- ADD, 0x10, R219
  | sub (h : Hdr) (f : RF)   -- SUB, 0x11, R219
  | mul (h : Hdr) (f : RF)   -- MUL, 0x12, R219
  | mulh (h : Hdr) (f : RF)   -- MULH, 0x13, R219
  | mad (h : Hdr) (f : RF)   -- MAD, 0x14, R219
  | divI (h : Hdr) (f : RF)   -- DIV, 0x15, R220
  | remI (h : Hdr) (f : RF)   -- REM, 0x16, R220
  | absI (h : Hdr) (f : RF)   -- ABS, 0x17, R219
  | minI (h : Hdr) (f : RF)   -- MIN, 0x18, R219
  | maxI (h : Hdr) (f : RF)   -- MAX, 0x19, R219
  | andB (h : Hdr) (f : RF)   -- AND, 0x1a, R222
  | orB (h : Hdr) (f : RF)   -- OR, 0x1b, R222
  | xorB (h : Hdr) (f : RF)   -- XOR, 0x1c, R222
  | andn (h : Hdr) (f : RF)   -- ANDN, 0x1d, R222
  | shl (h : Hdr) (f : RF)   -- SHL, 0x1e, R222
  | shr (h : Hdr) (f : RF)   -- SHR, 0x1f, R222
  | sar (h : Hdr) (f : RF)   -- SAR, 0x20, R222
  | rol (h : Hdr) (f : RF)   -- ROL, 0x21, R222
  | popc (h : Hdr) (f : RF)   -- POPC, 0x22, R222
  | clz (h : Hdr) (f : RF)   -- CLZ, 0x23, R222
  | ctz (h : Hdr) (f : RF)   -- CTZ, 0x24, R222
  | brev (h : Hdr) (f : RF)   -- BREV, 0x25, R222
  | bfe (h : Hdr) (f : RF)   -- BFE, 0x26, R223
  | bfi (h : Hdr) (f : RF)   -- BFI, 0x27, R223
  | perm (h : Hdr) (f : RF)   -- PERM, 0x28, R224
  | sel (h : Hdr) (f : RF)   -- SEL, 0x29, R225
  | cmp (h : Hdr) (f : RF)   -- CMP, 0x2a, R226
  | mov (h : Hdr) (f : RF)   -- MOV, 0x2b, R227
  | movi (h : Hdr) (f : IF)   -- MOVI, 0x2c, R228
  | addi (h : Hdr) (f : IF)   -- ADDI, 0x2d, R228
  | lea (h : Hdr) (f : RF)   -- LEA, 0x2e, R229
  | movrGet (h : Hdr) (f : RF)   -- MOVR_GET, 0x2f, R231
  | movrPut (h : Hdr) (f : RF)   -- MOVR_PUT, 0x2f, R231
  | salu (h : Hdr) (f : RF)   -- SALU, 0x30, R233
  | scmp (h : Hdr) (f : RF)   -- SCMP, 0x31, R234
  | smovi (h : Hdr) (f : IF)   -- SMOVI, 0x32, R234
  | smov (h : Hdr) (f : RF)   -- SMOV, 0x33, R234
  | sfrom (h : Hdr) (f : RF)   -- SFROM, 0x34, R235
  | ssel (h : Hdr) (f : RF)   -- SSEL, 0x35, R234
  | slea (h : Hdr) (f : RF)   -- SLEA, 0x36, R234
  | plop (h : Hdr) (f : RF)   -- PLOP, 0x38, R238
  | pfrom (h : Hdr) (f : RF)   -- PFROM, 0x39, R238
  | pto (h : Hdr) (f : RF)   -- PTO, 0x3a, R238
  | pcntPred (h : Hdr) (f : RF)   -- PCNT_PRED, 0x3b, R238
  | fadd (h : Hdr) (f : RF)   -- FADD, 0x40, R279
  | fsub (h : Hdr) (f : RF)   -- FSUB, 0x41, R279
  | fmul (h : Hdr) (f : RF)   -- FMUL, 0x42, R279
  | ffma (h : Hdr) (f : RF)   -- FFMA, 0x43, R279
  | fmin (h : Hdr) (f : RF)   -- FMIN, 0x44, R280
  | fmax (h : Hdr) (f : RF)   -- FMAX, 0x45, R280
  | fcmp (h : Hdr) (f : RF)   -- FCMP, 0x46, R281
  | fclass (h : Hdr) (f : RF)   -- FCLASS, 0x47, R282
  | fdiv (h : Hdr) (f : RF)   -- FDIV, 0x48, R286
  | fsqrt (h : Hdr) (f : RF)   -- FSQRT, 0x49, R286
  | frcp (h : Hdr) (f : RF)   -- FRCP, 0x4a, R286
  | frsq (h : Hdr) (f : RF)   -- FRSQ, 0x4b, R286
  | fex2 (h : Hdr) (f : RF)   -- FEX2, 0x4c, R286
  | flg2 (h : Hdr) (f : RF)   -- FLG2, 0x4d, R286
  | fsinp (h : Hdr) (f : RF)   -- FSINP, 0x4e, R286
  | fcosp (h : Hdr) (f : RF)   -- FCOSP, 0x4f, R286
  | ftanh (h : Hdr) (f : RF)   -- FTANH, 0x50, R286
  | frint (h : Hdr) (f : RF)   -- FRINT, 0x51, R283
  | fscal (h : Hdr) (f : RF)   -- FSCAL, 0x52, R284
  | fdot2 (h : Hdr) (f : RF)   -- FDOT2, 0x53, R285
  | fclamp (h : Hdr) (f : RF)   -- FCLAMP, 0x54, R280
  | fsig (h : Hdr) (f : RF)   -- FSIG, 0x55, R286
  | cvt (h : Hdr) (f : RF)   -- CVT, 0x60, R289
  | cvl6 (h : Hdr) (f : RF)   -- CVL6, 0x61, R291
  | pk6 (h : Hdr) (f : RF)   -- PK6, 0x62, R292
  | upk6 (h : Hdr) (f : RF)   -- UPK6, 0x63, R292
  | bsclFind (h : Hdr) (f : RF)   -- BSCL_FIND, 0x64, R293
  | bsclApply (h : Hdr) (f : RF)   -- BSCL_APPLY, 0x64, R293
  | lmul (h : Hdr) (f : RF)   -- LMUL, 0x65, R294
  | shfl (h : Hdr) (f : RF)   -- SHFL, 0x70, R243
  | shfx (h : Hdr) (f : RF)   -- SHFX, 0x71, R243
  | shfd (h : Hdr) (f : RF)   -- SHFD, 0x72, R243
  | qswp (h : Hdr) (f : RF)   -- QSWP, 0x73, R243
  | qbc (h : Hdr) (f : RF)   -- QBC, 0x74, R243
  | vote (h : Hdr) (f : RF)   -- VOTE, 0x75, R244
  | wred (h : Hdr) (f : RF)   -- WRED, 0x76, R248
  | wscan (h : Hdr) (f : RF)   -- WSCAN, 0x77, R248
  | matchLanes (h : Hdr) (f : RF)   -- MATCH, 0x78, R245
  | firstL (h : Hdr) (f : RF)   -- FIRST, 0x79, R246
  | ld (h : Hdr) (f : MF)   -- LD, 0x80, R365
  | st (h : Hdr) (f : MF)   -- ST, 0x81, R365
  | ldv (h : Hdr) (f : MF)   -- LDV, 0x82, R366
  | stv (h : Hdr) (f : MF)   -- STV, 0x83, R366
  | sld (h : Hdr) (f : MF)   -- SLD, 0x84, R367
  | sst (h : Hdr) (f : MF)   -- SST, 0x85, R367
  | atom (h : Hdr) (f : MF)   -- ATOM, 0x86, R370
  | acas (h : Hdr) (f : MF)   -- ACAS, 0x87, R370
  | fence (h : Hdr) (f : SF)   -- FENCE, 0x88, R373
  | sptest (h : Hdr) (f : RF)   -- SPTEST, 0x89, R374
  | spcast (h : Hdr) (f : RF)   -- SPCAST, 0x8a, R375
  | pref (h : Hdr) (f : MF)   -- PREF, 0x8b, R377
  | cwb (h : Hdr) (f : MF)   -- CWB, 0x8c, R377
  | cinv (h : Hdr) (f : MF)   -- CINV, 0x8d, R377
  | cpy (h : Hdr) (f : SF)   -- CPY, 0xa0, R381
  | cpyt (h : Hdr) (f : SF)   -- CPYT, 0xa1, R381
  | cpyg (h : Hdr) (f : SF)   -- CPYG, 0xa2, R381
  | wtge (h : Hdr) (f : MF)   -- WTGE, 0xa3, R390
  | wteq (h : Hdr) (f : MF)   -- WTEQ, 0xa4, R390
  | poll (h : Hdr) (f : MF)   -- POLL, 0xa5, R392
  | mma (h : Hdr) (f : XF)   -- MMA, 0xb0, R313
  | mmat (h : Hdr) (f : XF)   -- MMAT, 0xb1, R324
  | mzero (h : Hdr) (f : XF)   -- MZERO, 0xb2, R314
  | mdrain (h : Hdr) (f : XF)   -- MDRAIN, 0xb3, R315
  | mdrag (h : Hdr) (f : XF)   -- MDRAG, 0xb4, R325
  | mpop (h : Hdr) (f : XF)   -- MPOP, 0xb5, R316
  | mpush (h : Hdr) (f : XF)   -- MPUSH, 0xb6, R314
  | mtake (h : Hdr) (f : XF)   -- MTAKE, 0xb7, R308
  | mgive (h : Hdr) (f : XF)   -- MGIVE, 0xb8, R309
  | mstat (h : Hdr) (f : XF)   -- MSTAT, 0xb9, R318
  | bar (h : Hdr) (f : SF)   -- BAR, 0xc0, R422
  | barSet (h : Hdr) (f : SF)   -- BAR_SET, 0xc0, R422
  | bara (h : Hdr) (f : SF)   -- BARA, 0xc1, R422
  | baraWait (h : Hdr) (f : SF)   -- BARA_WAIT, 0xc1, R422
  | baraRem (h : Hdr) (f : SF)   -- BARA_REM, 0xc1, R426
  | baraHdl (h : Hdr) (f : SF)   -- BARA_HDL, 0xc1, R422
  | gbar (h : Hdr) (f : SF)   -- GBAR, 0xc2, R428
  | ldf (h : Hdr) (f : MF)   -- LDF, 0xc3, R432
  | ldfe (h : Hdr) (f : MF)   -- LDFE, 0xc4, R432
  | stef (h : Hdr) (f : MF)   -- STEF, 0xc5, R432
  | stf (h : Hdr) (f : MF)   -- STF, 0xc6, R432
  | fest (h : Hdr) (f : MF)   -- FEST, 0xc7, R432
  | sigadd (h : Hdr) (f : MF)   -- SIGADD, 0xc8, R437
  | twpart (h : Hdr) (f : SF)   -- TWPART, 0xc9, R438
  | twstat (h : Hdr) (f : SF)   -- TWSTAT, 0xca, R440
  | enq (h : Hdr) (f : SF)   -- ENQ, 0xd0, R442
  | enqt (h : Hdr) (f : SF)   -- ENQT, 0xd1, R442
  | spawn (h : Hdr) (f : SF)   -- SPAWN, 0xd2, R446
  | scopeNew (h : Hdr) (f : SF)   -- SCOPE, 0xd3, R97
  | cancel (h : Hdr) (f : SF)   -- CANCEL, 0xd4, R500
  | cancelAck (h : Hdr) (f : SF)   -- CANCEL_ACK, 0xd4, R500
  | scack (h : Hdr) (f : SF)   -- SCACK, 0xd5, R506
  | scinfo (h : Hdr) (f : SF)   -- SCINFO, 0xd6, R507
  | sread (h : Hdr) (f : SF)   -- SREAD, 0xe0, R462
  | sreadV (h : Hdr) (f : SF)   -- SREAD_V, 0xe0, R462
  | swrite (h : Hdr) (f : SF)   -- SWRITE, 0xe1, R462
  | bidw (h : Hdr) (f : SF)   -- BIDW, 0xe2, R157
  | bidr (h : Hdr) (f : SF)   -- BIDR, 0xe3, R157
  | priceR (h : Hdr) (f : SF)   -- PRICE, 0xe4, R157
  | leaseR (h : Hdr) (f : SF)   -- LEASE, 0xe5, R157
  | pcnt (h : Hdr) (f : SF)   -- PCNT, 0xe6, R157
  | clockR (h : Hdr) (f : SF)   -- CLOCK, 0xe7, R463
  | keyz (h : Hdr) (f : SF)   -- KEYZ, 0xe8, R513
  | keyzCtx (h : Hdr) (f : SF)   -- KEYZ_CTX, 0xe8, R513
  | scrub (h : Hdr) (f : SF)   -- SCRUB, 0xe9, R514
  | scrubStat (h : Hdr) (f : SF)   -- SCRUB_STAT, 0xe9, R514
  | sleep (h : Hdr) (f : SF)   -- SLEEP, 0xea, R464
  | sleepUntil (h : Hdr) (f : SF)   -- SLEEP_UNTIL, 0xea, R464
  | fencePerformed (at_ : EntryRef)   -- FENCE_PERFORMED, R406
  | varLatencyWriteback (wave : WaveRef) (seq : Nat)   -- VAR_LATENCY_WRITEBACK, R191
  | copyChunk (copy : Nat)   -- COPY_CHUNK, R383
  | memoryWaitSatisfied (at_ : EntryRef) (lane : Nat)   -- MEMORY_WAIT_SATISFIED, R391
  | matrixKstep (engine : Nat)   -- MATRIX_KSTEP, R298
  | drainRowPush (engine : Nat)   -- DRAIN_ROW_PUSH, R315
  | feWaiterServed (word : Nat)   -- FE_WAITER_SERVED, R434
  | enqRetry (at_ : EntryRef)   -- ENQ_RETRY, R442
  | queueStall (at_ : EntryRef)   -- QUEUE_STALL, R444
  | taskExamine (task : Nat)   -- TASK_EXAMINE, R447
  | cancelledWaveStop (wave : WaveRef)   -- CANCELLED_WAVE_STOP, R501
  | subtreeQuiet (handle : W32)   -- SUBTREE_QUIET, R505
  | sleepWake (at_ : EntryRef)   -- SLEEP_WAKE, R464
  | instructionFetch (at_ : EntryRef)   -- INSTRUCTION_FETCH, R173
  | trapDelivery (at_ : EntryRef)   -- TRAP_DELIVERY, R458
  | faultDump (group : Nat)   -- FAULT_DUMP, R466
  | doorbellWrite (func off size : Nat) (value : W64)   -- DOORBELL_WRITE, R115
  | doorbellRead (func off size : Nat)   -- DOORBELL_READ, R115
  | qcbWrite (func off size : Nat) (value : W64)   -- QCB_WRITE, R111
  | enable (func queue : Nat)   -- ENABLE, R110
  | disable (func queue : Nat)   -- DISABLE, R111
  | queueResume (func queue : Nat)   -- QUEUE_RESUME, R111
  | queueRelease (func queue : Nat)   -- QUEUE_RELEASE, R111
  | packetConsume (queue : Nat)   -- PACKET_CONSUME, R117
  | barrierPass (queue : Nat)   -- BARRIER_PASS, R129
  | launchComplete (launch : Nat)   -- LAUNCH_COMPLETE, R496
  | dispatchPlace (cluster : Nat)   -- DISPATCH_PLACE, R164
  | defCharge   -- DEF_CHARGE, R164
  | clusterReserve (queue : Nat)   -- CLUSTER_RESERVE, R165
  | dispatchSave (group : Nat)   -- DISPATCH_SAVE, R417
  | gangStop (group : Nat) (kind : StopKind)   -- GANG_STOP, R479
  | bidFreeze   -- BID_FREEZE, R146
  | publication   -- PUBLICATION, R150
  | intervalStart   -- INTERVAL_START, R150
  | spinnaker (ctx : Nat)   -- SPINNAKER, R171
  | migrationOffer (image : Nat)   -- MIGRATION_OFFER, R172
  | migrationAccepted (ctx dev : Nat)   -- MIGRATION_ACCEPTED, R172
  | priceFlitReceive (flit : PriceFlit)   -- PRICE_FLIT_RECEIVE, R170
  | timeFlitSend   -- TIME_FLIT_SEND, R522
  | timeFlitReceive (time delay : Nat)   -- TIME_FLIT_RECEIVE, R522
  | access (req : AccessReq)   -- ACCESS, R521
  | response (id : Nat) (answer : Answer)   -- RESPONSE, R521
  | responseTimeout (id : Nat)   -- RESPONSE_TIMEOUT, R521
  | reduceContribution (c : Contribution)   -- REDUCE_CONTRIBUTION, R527
  | keygenHoldTimeout (job child : Nat)   -- KEYGEN_HOLD_TIMEOUT, R528
  | ratlineFlit (r : Ratline)   -- RATLINE_FLIT, R535
  | ratlineHoldEnd   -- RATLINE_HOLD_END, R536
  | shard (sh : Shard)   -- SHARD, R529
  | flitUnknownType (ty : Byte)   -- FLIT_UNKNOWN_TYPE, R519
  | linkTraining (port : Nat) (versions : List Nat) (peer : Nat)   -- LINK_TRAINING, R520
  | laneWithdraw (lane : Nat)   -- LANE_WITHDRAW, R518
  | bar4Read (func off size : Nat)   -- BAR4_READ, R103
  | bar4Write (func off : Nat) (data : List Byte)   -- BAR4_WRITE, R103
  | hostAccessFail (write : Bool)   -- HOST_ACCESS_FAIL, R104
  | registerWrite (func off size : Nat) (value : W64)   -- REGISTER_WRITE, R540
  | violationLogRead (func off size : Nat)   -- VIOLATION_LOG_READ, R108
  | tlbinv (func : Nat) (value : W64)   -- TLBINV, R344
  | tlbInvalidateDone   -- TLB_INVALIDATE_DONE, R344
  | kmatWrite (func slot off size : Nat) (value : W64)   -- KMAT_WRITE, R343
  | kstatWrite (func slot off size : Nat) (value : W64)   -- KSTAT_WRITE, R516
  | scrubcmd (func : Nat) (value : W64)   -- SCRUBCMD, R510
  | scrubPhase (units : Nat)   -- SCRUB_PHASE, R515
  | create (func ctx : Nat)   -- CREATE, R511
  | reset (func ctx : Nat)   -- RESET, R511
  | ctxResetReroot (ctx : Nat)   -- CTX_RESET_REROOT, R511
  | tdcancel (func size : Nat) (value : W64)   -- TDCANCEL, R510
  | powerWindow (watts luff : Nat)   -- POWER_WINDOW, R533
  | eccError (e : EccEvent)   -- ECC_ERROR, R471
  | selfTestDone (unit : UnitLoc) (passed spare : Bool)   -- SELF_TEST_DONE, R473
  | powerOn   -- POWER_ON, R537
  | deviceReset   -- DEVICE_RESET, R517
  | boot (func : Nat) (block : W64)   -- BOOT, R537
  | faults (func : Nat) (block : W64)   -- FAULTS, R524
  | policy (func : Nat) (block : W64)   -- POLICY, R468
  | discard (func : Nat) (block : W64)   -- DISCARD, R469
  | resume (func : Nat) (block : W64)   -- RESUME, R470
  | stop (func : Nat) (block : W64)   -- STOP, R478
  | release (func : Nat) (block : W64)   -- RELEASE, R478
  | stall (func : Nat) (block : W64)   -- STALL, R444
  | ckptSave (func : Nat) (block : W64)   -- CKPT_SAVE, R529
  | ckptRestore (func : Nat) (block : W64)   -- CKPT_RESTORE, R531
  | reduce (func : Nat) (block : W64)   -- REDUCE, R527
  | keygen (func : Nat) (block : W64)   -- KEYGEN, R526
  | ratline (func : Nat) (block : W64)   -- RATLINE, R535
  | attest (func : Nat) (block : W64)   -- ATTEST, R539
  | errlog (func : Nat) (block : W64)   -- ERRLOG, R477
  | podidx (func : Nat) (block : W64)   -- PODIDX, R542
  | migrationRefused (ctx dev : Nat)   -- MIGRATION_REFUSED, R172
  | peerLost (dev : Nat)   -- PEER_LOST, R528
  | corePowerGate (core : Nat)   -- CORE_POWER_GATE, R481
  | coreWake (core : Nat)   -- CORE_WAKE, R482
  | thermalTrip (on : Bool)   -- THERMAL_TRIP, R533
  | eventMessageHoldoff   -- EVENT_MESSAGE_HOLDOFF, R477
deriving DecidableEq, Repr

end Sys2Proof
end

