-- ==== Sys2Proof/WellFormed.lean ====
section
/-! DEFINITION. WellFormed: the static checks of R42, items 3 and 4, one row per instruction, and the ranges of the events'
arguments. Checks that need the wave (its level, its tiles) are made when the instruction executes (R41, R82). -/

namespace Sys2Proof

/-- The operand types of R30. -/
inductive Ty | b32 | i32 | n32 | i64 | n64 | i16x2 | n16x2 | f32 | f64 | f16 | bf16 | f16x2 | bf16x2 | l6
deriving DecidableEq, Repr

/-- Type codes (R30); the codes not listed are reserved. -/
def Ty.ofBits (t : BitVec 5) : Option Ty :=
  match t.toNat with
  | 0x00 => some .b32 | 0x01 => some .i32 | 0x02 => some .n32 | 0x03 => some .i64 | 0x04 => some .n64
  | 0x05 => some .i16x2 | 0x06 => some .n16x2 | 0x08 => some .f32 | 0x09 => some .f64 | 0x0A => some .f16
  | 0x0B => some .bf16 | 0x0C => some .f16x2 | 0x0D => some .bf16x2 | 0x0E => some .l6
  | _ => none

/-- A type held in a register pair (R37). -/
def Ty.is64 : Ty → Bool
  | .i64 | .n64 | .f64 => true
  | _ => false

/-- The signed integer types (R34). -/
def Ty.isSigned : Ty → Bool
  | .i32 | .i64 | .i16x2 => true
  | _ => false

def Ty.isFloat : Ty → Bool
  | .f32 | .f64 | .f16 | .bf16 | .f16x2 | .bf16x2 => true
  | _ => false

namespace WF

def arithTys : List Ty := [.i32, .n32, .i64, .n64, .i16x2, .n16x2]
def plainTys : List Ty := [.i32, .n32, .i64, .n64]
def bitTys : List Ty := [.b32, .i32, .n32, .i64, .n64]
def shiftTys : List Ty := [.b32, .i32, .n32, .i64, .n64, .i16x2, .n16x2]
def moveTys : List Ty := [.b32, .i32, .n32, .f32, .i64, .n64, .f64]
def floatTys : List Ty := [.f32, .f64, .f16, .bf16, .f16x2, .bf16x2]
def scalarFloatTys : List Ty := [.f32, .f64, .f16, .bf16]
def shortFloatTys : List Ty := [.f32, .f16, .bf16]
def halfTys : List Ty := [.f16, .bf16]
def cvtTys : List Ty := [.i32, .n32, .i64, .n64, .f64, .f32, .f16, .bf16]

/-- The type of an R-format word when its code is one of the row's (R31). -/
def tyIn (f : RF) (tys : List Ty) : Bool :=
  match Ty.ofBits f.t with
  | some t => decide (t ∈ tys)
  | none => false

/-- The row's type; b32 where the code is reserved, which tyIn refuses. -/
def ty (f : RF) : Ty := (Ty.ofBits f.t).getD .b32

def even (x : Byte) : Bool := !x.getLsbD 0

/-- A vector, operand or last-result register of the type's width (R23, R37). -/
def reg (t : Ty) (x : Byte) : Bool :=
  (decide (x.toNat < 0x88) && (!t.is64 || even x)) || decide (x = 0x88) || decide (x = 0x89)

/-- A code of the broadcast s-registers (R23). -/
def sCode (x : Byte) : Bool := decide (0xC0 ≤ x.toNat)

def sEven (x : Byte) : Bool := sCode x && even x

/-- A constant code (R24). -/
def cCode (x : Byte) : Bool := decide (0xA0 ≤ x.toNat) && decide (x.toNat < 0xC0)

/-- A source operand of a type under R23 to R26 and R37. -/
def src (t : Ty) (x : Byte) : Bool :=
  if t = .l6 then reg t x
  else reg t x || decide (x = 0x90) || cCode x || (sCode x && (!t.is64 || even x)) ||
    (decide (0x91 ≤ x.toNat) && decide (x.toNat ≤ 0x97) && decide (t ∈ bitTys))

/-- A source that admits registers, s codes and constants but no % selector (R368, R388, R436). -/
def srcNoSel (t : Ty) (x : Byte) : Bool :=
  src t x && !(decide (0x91 ≤ x.toNat) && decide (x.toNat ≤ 0x97))

/-- A destination under R28 and R37. -/
def dst (t : Ty) (x : Byte) : Bool :=
  (decide (x.toNat < 0x88) && (!t.is64 || even x)) || decide (x = 0xFF)

/-- A predicate field (R29). -/
def pred (x : Byte) : Bool := decide (x.toNat < 16)

/-- Only the modifier bits of the mask are set (R34). -/
def md (f : RF) (allowed : BitVec 6) : Bool := decide (f.md &&& ~~~allowed = 0)

def mA : BitVec 6 := 0b000011
def mAB : BitVec 6 := 0b001111
def mC : BitVec 6 := 0b010000
def mSat : BitVec 6 := 0b100000

def onSigned (t : Ty) (m : BitVec 6) : BitVec 6 := if t.isSigned then m else 0

def noRm (f : RF) : Bool := decide (f.rm = 0)
def fnIs (f : RF) (n : Nat) : Bool := decide (f.fn.toNat = n)
def z (x : Byte) : Bool := decide (x = 0)

/-- An integer row with sources A and B (R219). -/
def int2 (f : RF) (tys : List Ty) (m : BitVec 6) : Bool :=
  tyIn f tys && dst (ty f) f.d && src (ty f) f.a && src (ty f) f.b && z f.c && fnIs f 0 && noRm f && md f m

def int1 (f : RF) (tys : List Ty) (m : BitVec 6) : Bool :=
  tyIn f tys && dst (ty f) f.d && src (ty f) f.a && z f.b && z f.c && fnIs f 0 && noRm f && md f m

/-- The type of a count operand: a single 32-bit register beside a 64-bit type (R217, R222). -/
def countTy (t : Ty) : Ty := if t.is64 then .n32 else t

def shift (f : RF) (tys : List Ty) : Bool :=
  tyIn f tys && dst (ty f) f.d && src (ty f) f.a && src (countTy (ty f)) f.b && z f.c && fnIs f 0 && noRm f && md f 0

/-- A floating-point row with sources A and B (R271). -/
def fl2 (f : RF) (tys : List Ty) (m : BitVec 6) (rnd : Bool) : Bool :=
  tyIn f tys && dst (ty f) f.d && src (ty f) f.a && src (ty f) f.b && z f.c && fnIs f 0 && (rnd || noRm f) && md f m

def fl1 (f : RF) (tys : List Ty) (m : BitVec 6) (rnd : Bool) : Bool :=
  tyIn f tys && dst (ty f) f.d && src (ty f) f.a && z f.b && z f.c && fnIs f 0 && (rnd || noRm f) && md f m

def fl3 (f : RF) (tys : List Ty) (m : BitVec 6) (rnd : Bool) : Bool :=
  tyIn f tys && dst (ty f) f.d && src (ty f) f.a && src (ty f) f.b && src (ty f) f.c && fnIs f 0 && (rnd || noRm f) && md f m

/-- The optional AND predicate of cmp and fcmp (R226, R281). -/
def andPred (f : RF) : Bool := if f.fn.getLsbD 3 then pred f.c else z f.c

/-- An s-register number of a uniform row: even for a pair (R232). -/
def sNum (t : Ty) (x : Byte) : Bool := !t.is64 || even x

/-- The member mask of a lane exchange (R239). -/
def member (f : RF) : Bool := sCode f.c || decide (f.c = 0xBF)

def exch (f : RF) : Bool := member f && md f 0

/-- No field but the header (R22). -/
def noFields (f : RF) : Bool := decide (f = ⟨0, 0, 0, 0, 0, 0, 0, 0⟩)

/-- An even code of the vector or operand file (R199). -/
def pairVO (x : Byte) : Bool := decide (x.toNat < 0x88) && even x

def rejoin (j : BitVec 4) : Bool := decide (j.toNat < 8) || decide (j = 15)

/-- Registers of an access of size code SZ (R358): one, an even pair or an aligned block of four. -/
def block (sz : BitVec 3) (x : Byte) : Bool :=
  decide (x.toNat < 0x88) && decide (x.toNat % (if sz.toNat = 3 then 2 else if sz.toNat = 4 then 4 else 1) = 0)

/-- A address base and its index field (R19): a vector pair with no index, or an s pair with a 32-bit index. -/
def base (f : MF) : Bool :=
  (decide (f.a.toNat < 0x80) && even f.a && decide (f.b = 0x90)) || (sEven f.a && src .n32 f.b)

def vbase (f : MF) : Bool := decide (f.a.toNat < 0x80) && even f.a

def scpOk (f : MF) : Bool := decide (f.scp.toNat ≤ 5)

/-- ORD plain or acquire, or plain or release, with SCP 0 when plain (R361). -/
def ordering (f : MF) (o : BitVec 2) (plainScp : Bool) : Bool :=
  scpOk f && (decide (f.ord = o) || (decide (f.ord = 0) && (plainScp || decide (f.scp = 0))))

def szIn (f : MF) (lo hi : Nat) : Bool := decide (lo ≤ f.sz.toNat) && decide (f.sz.toNat ≤ hi)

/-- OFF[13:10] of atom and sigadd (R368, R436). -/
def opn (f : MF) : Nat := f.off.toNat / 1024

def szTy (f : MF) : Ty := if f.sz.toNat = 3 then .n64 else .b32

/-- A line instruction (R377). -/
def line (f : MF) (ch : Nat) : Bool :=
  z f.d && base f && decide (f.sz = 0) && !f.sg && decide (f.ord = 0) && decide (f.scp = 0) && decide (f.ch.toNat ≤ ch)

/-- The wait and poll rows of R388. -/
def waitRow (f : MF) : Bool :=
  vbase f && szIn f 2 3 && decide (f.ch = 0) && ordering f 1 false && srcNoSel (szTy f) f.b

def feRow (f : MF) (o : BitVec 2) : Bool :=
  base f && decide (f.sz.toNat = 3) && ordering f o true

/-- Operand blocks and scales of mma and mmat (R305). -/
def mmaRow (f : XF) : Bool :=
  let steps := f.rep.toNat + 1
  let len := (if f.sh.toNat = 2 then 12 else 8) * steps
  let top := f.bsel.toNat + f.rep.toNat
  decide (f.sh.toNat ≤ 2) && decide (f.a.toNat < 0x80) && decide (f.b.toNat < 0x80) && decide (f.a.toNat + len ≤ 128) &&
  decide (f.b.toNat + len ≤ 128) && decide (f.low = 0) &&
  (if f.sh.toNat = 2 then
     if f.s = 0xFF then decide (f.bsel = 0)
     else decide (f.s.toNat < 0x80) && even f.s && decide (f.s.toNat + 2 * (top / 2) + 1 ≤ 127)
   else decide (f.s = 0xFF) && decide (f.bsel = 0))

/-- The X-format rows that use none of SH, B, S, REP, BSEL, NEG and ZERO (R304). -/
def xPlain (f : XF) : Bool :=
  decide (f.sh = 0) && z f.b && z f.s && decide (f.rep = 0) && decide (f.bsel = 0) && !f.neg && !f.zero

def vReg (x : Byte) : Bool := decide (x.toNat < 0x80)

/-- Bits lo and up of a selector or immediate are zero. -/
def selTop (x : W16) (lo : Nat) : Bool := decide (x.toNat < 2 ^ lo)

def marketClass (x : Nat) : Bool := decide (x ≤ 4)

/-- Selectors of R453. -/
def readable : List Nat := [0x10, 0x11, 0x12, 0x13, 0x14, 0x16, 0x17, 0x18, 0x20, 0x21, 0x40, 0x41, 0x50, 0x60]
def writable : List Nat := [0x11, 0x12, 0x16, 0x17, 0x18, 0x20, 0x21, 0x40, 0x41]

end WF

/-- The guard fields are zero when there is no guard (R12). -/
def Hdr.wf (h : Hdr) : Bool := h.ge || (!h.gn && decide (h.gp = 0))

open WF in
/-- The checks of an instruction's own fields (R42 item 4), row by row. R229 calls B of `lea` a 32-bit register and R223 writes A of `bfe` and A and
B of `bfi` as vector registers without naming other codes reserved: this model reads them as the source operands of R20 to R24 of their width, so
constants, s codes and selectors are admitted there (DEDUCED, log entry 91). -/
def Instr.fieldsWf : Instr → Bool
  | .bra _ f => rejoin f.j && z f.a
  | .brx _ f => rejoin f.j && (pairVO f.a || sEven f.a) && decide (f.off = 0)
  | .call _ f => rejoin f.j && pairVO f.a
  | .callx _ f => rejoin f.j && pairVO f.a && decide (f.off = 0)
  | .ret _ f => rejoin f.j && (pairVO f.a || sEven f.a) && z f.pri && decide (f.off = 0)
  | .joinJ h f => !h.ge && decide (f.j.toNat < 8) && z f.a && z f.pri && decide (f.off = 0)
  | .jset _ f => decide (f.d.toNat < 8) && decide (f.fn.toNat ≤ 3) && (if f.fn.toNat = 1 then sCode f.a || decide (f.a = 0x90) else z f.a) && z f.b && z f.c && decide (f.t = 0) && noRm f && md f 0
  | .exitL _ f => noFields f
  | .nop _ f => noFields f
  | .yieldE _ f => noFields f
  | .winb _ f => decide (f.d.toNat ≤ 1) && (decide (f.a = 0x90) || sCode f.a) && !f.x
  | .brk _ f => z f.d && z f.a && decide (f.sel = 0)
  | .trapU _ f => z f.d && z f.a && decide (f.sel = 0)
  | .rtu h f => !h.ge && z f.d && z f.a && decide (f.sel = 0) && decide (f.imm = 0)
  | .brs h f => !h.ge && decide (f.j = 15) && sCode f.a
  | .add _ f => int2 f arithTys (onSigned (ty f) mAB ||| mSat)
  | .sub _ f => int2 f arithTys (onSigned (ty f) mAB ||| mSat)
  | .mul _ f => int2 f arithTys (onSigned (ty f) mAB ||| mSat)
  | .mulh _ f => int2 f plainTys (onSigned (ty f) mAB)
  | .mad _ f => tyIn f arithTys && dst (ty f) f.d && src (ty f) f.a && src (ty f) f.b && src (ty f) f.c && fnIs f 0 && noRm f && md f (onSigned (ty f) (mAB ||| mC) ||| mSat)
  | .divI _ f => int2 f plainTys (onSigned (ty f) mAB)
  | .remI _ f => int2 f plainTys (onSigned (ty f) mAB)
  | .absI _ f => int1 f [.i32, .i64, .i16x2] mSat
  | .minI _ f => int2 f arithTys (onSigned (ty f) mAB)
  | .maxI _ f => int2 f arithTys (onSigned (ty f) mAB)
  | .andB _ f => int2 f bitTys 0
  | .orB _ f => int2 f bitTys 0
  | .xorB _ f => int2 f bitTys 0
  | .andn _ f => int2 f bitTys 0
  | .shl _ f => shift f shiftTys
  | .shr _ f => shift f shiftTys
  | .sar _ f => shift f shiftTys
  | .rol _ f => shift f bitTys
  | .popc _ f => int1 f bitTys 0
  | .clz _ f => int1 f bitTys 0
  | .ctz _ f => int1 f bitTys 0
  | .brev _ f => int1 f bitTys 0
  | .bfe _ f => tyIn f plainTys && dst (ty f) f.d && src (ty f) f.a && src .n32 f.b && src .n32 f.c && fnIs f 0 && noRm f && md f 0
  | .bfi _ f => tyIn f bitTys && dst (ty f) f.d && src (ty f) f.a && src (ty f) f.b && src .n32 f.c && fnIs f 0 && noRm f && md f 0
  | .perm _ f => tyIn f [.b32] && dst .b32 f.d && src .b32 f.a && src .b32 f.b && src .b32 f.c && fnIs f 0 && noRm f && md f 0
  | .sel _ f => tyIn f moveTys && dst (ty f) f.d && src (ty f) f.a && src (ty f) f.b && pred f.c && decide (f.fn.toNat ≤ 1) && noRm f && md f 0
  | .cmp _ f => tyIn f bitTys && pred f.d && src (ty f) f.a && src (ty f) f.b && decide (f.fn.toNat % 8 ≤ 5) && andPred f && noRm f && md f (onSigned (ty f) mAB)
  | .mov _ f => int1 f moveTys 0
  | .movi _ f => dst (if f.x then .n64 else .b32) f.d && z f.a
  | .addi _ f => dst (if f.x then .n64 else .b32) f.d && src (if f.x then .n64 else .b32) f.a
  | .lea _ f => tyIn f [.i32, .n32] && dst .n64 f.d && src .n64 f.a && src (ty f) f.b && z f.c && decide (f.fn.toNat < 8) && noRm f && md f 0
  | .movrGet _ f => tyIn f [.b32, .n64] && fnIs f 0 && dst (ty f) f.d && sCode f.a && z f.b && z f.c && noRm f && md f 0
  | .movrPut _ f => tyIn f [.b32, .n64] && fnIs f 1 && z f.d && src (ty f) f.a && sCode f.b && z f.c && noRm f && md f 0
  | .salu _ f => tyIn f bitTys && decide (f.fn.toNat ≤ 12) && !(decide (ty f = .b32) && decide (f.fn.toNat ∈ [3, 11, 12])) && sNum (ty f) f.d && sNum (ty f) f.a && (decide (f.fn.toNat ∈ [8, 9, 10]) || sNum (ty f) f.b) && z f.c && noRm f && md f 0
  | .scmp _ f => tyIn f bitTys && decide (f.fn.toNat ≤ 5) && sNum (ty f) f.d && sNum (ty f) f.a && sNum (ty f) f.b && z f.c && noRm f && md f 0
  | .smovi _ f => z f.a && (!f.x || even f.d)
  | .smov _ f => tyIn f [.b32, .n64] && fnIs f 0 && sNum (ty f) f.d && sNum (ty f) f.a && z f.b && z f.c && noRm f && md f 0
  | .sfrom _ f => tyIn f [.b32, .n64] && sNum (ty f) f.d && reg (ty f) f.a && (fnIs f 0 || (fnIs f 1 && decide (f.b.toNat < 32))) && z f.c && noRm f && md f 0
  | .ssel _ f => tyIn f [.b32, .n64] && fnIs f 0 && sNum (ty f) f.d && sNum (ty f) f.a && sNum (ty f) f.b && noRm f && md f 0
  | .slea _ f => tyIn f [.i32, .n32] && even f.d && even f.a && z f.c && decide (f.fn.toNat < 8) && noRm f && md f 0
  | .plop _ f => pred f.d && pred f.a && pred f.b && pred f.c && !f.t.getLsbD 4
  | .pfrom _ f => pred f.d && ((fnIs f 0 && tyIn f [.b32] && (sCode f.a || cCode f.a || decide (f.a = 0x90))) || (fnIs f 1 && tyIn f [.b32, .n64] && reg (ty f) f.a)) && z f.b && z f.c && noRm f && md f 0
  | .pto _ f => tyIn f [.b32] && decide (f.fn.toNat ≤ 1) && dst .b32 f.d && pred f.a && z f.b && z f.c && noRm f && md f 0
  | .pcntPred _ f => tyIn f [.n32] && decide (f.fn.toNat ≤ 1) && dst .n32 f.d && pred f.a && z f.b && z f.c && noRm f && md f 0
  | .fadd _ f => fl2 f floatTys (mAB ||| mSat) true
  | .fsub _ f => fl2 f floatTys (mAB ||| mSat) true
  | .fmul _ f => fl2 f floatTys (mAB ||| mSat) true
  | .ffma _ f => fl3 f floatTys (mAB ||| mC ||| mSat) true
  | .fmin _ f => fl2 f floatTys mAB false
  | .fmax _ f => fl2 f floatTys mAB false
  | .fcmp _ f => tyIn f scalarFloatTys && pred f.d && src (ty f) f.a && src (ty f) f.b && andPred f && noRm f && md f mAB
  | .fclass _ f => tyIn f scalarFloatTys && pred f.d && src (ty f) f.a && src .b32 f.b && z f.c && fnIs f 0 && noRm f && md f 0
  | .fdiv _ f => fl2 f scalarFloatTys (mAB ||| mSat) true
  | .fsqrt _ f => fl1 f scalarFloatTys (mA ||| mSat) true
  | .frcp _ f => fl1 f scalarFloatTys (mA ||| mSat) true
  | .frsq _ f => fl1 f scalarFloatTys (mA ||| mSat) true
  | .fex2 _ f => fl1 f shortFloatTys (mA ||| mSat) true
  | .flg2 _ f => fl1 f shortFloatTys (mA ||| mSat) true
  | .fsinp _ f => fl1 f shortFloatTys (mA ||| mSat) true
  | .fcosp _ f => fl1 f shortFloatTys (mA ||| mSat) true
  | .ftanh _ f => fl1 f shortFloatTys (mA ||| mSat) true
  | .frint _ f => fl1 f floatTys mA true
  | .fscal _ f => tyIn f scalarFloatTys && dst (ty f) f.d && src (ty f) f.a && src .i32 f.b && z f.c && fnIs f 0 && md f (mA ||| mSat)
  | .fdot2 _ f => tyIn f [.f16x2, .bf16x2] && dst .f32 f.d && src (ty f) f.a && src (ty f) f.b && src .f32 f.c && fnIs f 0 && md f (mAB ||| mC ||| mSat)
  | .fclamp _ f => fl3 f floatTys (mAB ||| mC) false
  | .fsig _ f => fl1 f shortFloatTys (mA ||| mSat) true
  | .cvt _ f => (match Ty.ofBits f.t, Ty.ofBits (f.c.setWidth 5) with
      | some td, some ts =>
        decide (f.c.toNat < 32) && decide (td ≠ ts) && decide (ts ∈ cvtTys) &&
        (decide (td ∈ cvtTys) || (decide (td ∈ [.f16x2, .bf16x2]) && decide (ts = .f32))) &&
        dst td f.d && src ts f.a && (if td ∈ [Ty.f16x2, Ty.bf16x2] then src ts f.b else z f.b) &&
        (fnIs f 0 || (fnIs f 1 && decide (ts ∈ halfTys))) &&
        md f ((if ts.isSigned || ts.isFloat then mA else 0) ||| (if td.isFloat || !ts.isFloat then mSat else 0)) &&
        (td.isFloat || ts.isFloat || noRm f)
      | _, _ => false)
  | .cvl6 _ f => ((fnIs f 0 && tyIn f shortFloatTys && dst .b32 f.d && src (ty f) f.a && z f.b && z f.c && noRm f && md f mA) ||
      (fnIs f 2 && tyIn f shortFloatTys && dst .b32 f.d && src (ty f) f.a && src .n32 f.b && src .n32 f.c && noRm f && md f mA) ||
      (fnIs f 1 && tyIn f scalarFloatTys && dst (ty f) f.d && src .l6 f.a && z f.b && z f.c && (noRm f || decide (ty f ∈ halfTys)) && md f 0))
  | .pk6 _ f => tyIn f shortFloatTys && decide (f.fn.toNat < 4) && decide (f.d.toNat ≤ 0x7D) && decide (f.a.toNat ≤ 0x70) && z f.b && (if f.fn.getLsbD 1 then src .n32 f.c else z f.c) && noRm f && md f mA
  | .upk6 _ f => tyIn f shortFloatTys && fnIs f 0 && decide (f.d.toNat ≤ 0x70) && decide (f.a.toNat ≤ 0x7D) && z f.b && z f.c && (noRm f || decide (ty f ∈ halfTys)) && md f 0
  | .bsclFind _ f => tyIn f shortFloatTys && fnIs f 0 && dst .n32 f.d && src (ty f) f.a && z f.b && z f.c && noRm f && md f mA
  | .bsclApply _ f => tyIn f [.f32] && fnIs f 1 && dst .f32 f.d && src .f32 f.a && src .n32 f.b && z f.c && md f mA
  | .lmul _ f => dst .b32 f.d && src .l6 f.a && src .l6 f.b && noRm f && md f 0 && ((fnIs f 0 && tyIn f [.l6, .f32] && z f.c) || (fnIs f 1 && tyIn f [.l6] && src .n32 f.c))
  | .shfl _ f => exch f && noRm f && tyIn f [.b32, .n64] && dst (ty f) f.d && src (ty f) f.a && src .b32 f.b && decide (f.fn.toNat % 4 = 0)
  | .shfx _ f => exch f && noRm f && tyIn f [.b32, .n64] && dst (ty f) f.d && src (ty f) f.a && src .b32 f.b && fnIs f 0
  | .shfd _ f => exch f && noRm f && tyIn f [.b32, .n64] && dst (ty f) f.d && src (ty f) f.a && src .b32 f.b
  | .qswp _ f => exch f && noRm f && tyIn f [.b32, .n64] && dst (ty f) f.d && src (ty f) f.a && z f.b && decide (f.fn.toNat ≤ 2)
  | .qbc _ f => exch f && noRm f && tyIn f [.b32, .n64] && dst (ty f) f.d && src (ty f) f.a && decide (0xA0 ≤ f.b.toNat) && decide (f.b.toNat ≤ 0xA3) && fnIs f 0
  | .vote _ f => exch f && noRm f && z f.b &&
      ((decide (f.fn.toNat ≤ 2) && decide (f.t = 0) && pred f.a && pred f.d) ||
       (decide (f.fn.toNat = 3 ∨ f.fn.toNat = 4) && decide (f.t = 0) && pred f.a && dst .b32 f.d) ||
       (fnIs f 5 && tyIn f [.b32, .n64] && src (ty f) f.a && pred f.d))
  | .wred _ f => exch f && z f.b && decide (f.fn.toNat < 8) && ((decide (f.fn.toNat % 8 ≤ 2) && tyIn f [.i32, .n32, .i64, .n64, .f32]) || (decide (3 ≤ f.fn.toNat % 8) && decide (f.fn.toNat % 8 ≤ 5) && tyIn f [.b32, .n64])) && dst (ty f) f.d && src (ty f) f.a && (noRm f || decide (ty f = .f32))
  | .wscan _ f => exch f && z f.b && ((decide (f.fn.toNat % 8 ≤ 2) && tyIn f [.i32, .n32, .i64, .n64, .f32]) || (decide (3 ≤ f.fn.toNat % 8) && decide (f.fn.toNat % 8 ≤ 5) && tyIn f [.b32, .n64])) && dst (ty f) f.d && src (ty f) f.a && (noRm f || decide (ty f = .f32))
  | .matchLanes _ f => exch f && noRm f && z f.b && tyIn f [.b32, .n64] && dst .n32 f.d && src (ty f) f.a && decide (f.fn.toNat ≤ 3)
  | .firstL _ f => exch f && noRm f && z f.b && ((fnIs f 0 && tyIn f [.b32, .n64] && dst (ty f) f.d && src (ty f) f.a) ||
      (fnIs f 1 && decide (f.t = 0) && dst .n32 f.d && z f.a))
  | .ld _ f => base f && szIn f 0 4 && (block f.sz f.d || decide (f.d = 0xFF)) && (!f.sg || decide (f.sz.toNat ≤ 1)) && ordering f 1 false
  | .st _ f => base f && szIn f 0 4 && (if f.sz.toNat = 4 then block f.sz f.d else src (szTy f) f.d) && !f.sg && ordering f 2 false
  | .ldv _ f => sEven f.a && decide (f.b = 0x90) && szIn f 2 4 && block f.sz f.d && !f.sg && ordering f 1 false
  | .stv _ f => sEven f.a && decide (f.b = 0x90) && szIn f 2 4 && block f.sz f.d && !f.sg && ordering f 2 false
  | .sld _ f => sEven f.a && decide (f.b = 0x90) && szIn f 2 4 && (sCode f.d && decide (f.d.toNat % (if f.sz.toNat = 3 then 2 else if f.sz.toNat = 4 then 4 else 1) = 0)) && !f.sg && ordering f 1 false
  | .sst _ f => sEven f.a && decide (f.b = 0x90) && szIn f 2 4 && ((sCode f.d && decide (f.d.toNat % (if f.sz.toNat = 3 then 2 else if f.sz.toNat = 4 then 4 else 1) = 0)) || (decide (f.sz.toNat ≤ 3) && (decide (f.d = 0x90) || cCode f.d))) && !f.sg && ordering f 2 false
  | .atom _ f => vbase f && szIn f 2 3 && dst (szTy f) f.d && srcNoSel (szTy f) f.b && decide (f.ch = 0) && scpOk f && decide (opn f ≤ 7) && (!f.sg || decide (opn f = 1 ∨ opn f = 2))
  | .acas _ f => vbase f && szIn f 2 3 && dst (szTy f) f.d && decide (f.b.toNat < 0x88) && decide (f.b.toNat % (if f.sz.toNat = 3 then 4 else 2) = 0) && decide (f.ch = 0) && scpOk f && !f.sg
  | .fence _ f => z f.d && z f.a && decide (f.imm = 0) && selTop f.sel 10 && decide (f.sel.toNat % 8 ≤ 5) && decide (f.sel.toNat / 8 % 4 ≤ 2) && decide (f.sel.toNat / 32 ≠ 0)
  | .sptest _ f => decide (f.t = 0) && fnIs f 0 && dst .b32 f.d && src .n64 f.a && z f.b && z f.c && noRm f && md f 0
  | .spcast _ f => decide (f.t = 0) && decide (f.fn.toNat ≤ 5) && dst (if f.fn.toNat = 3 then .b32 else .n64) f.d && src (if f.fn.toNat = 0 ∨ f.fn.toNat = 4 then .n32 else .n64) f.a && z f.b && z f.c && noRm f && md f 0
  | .pref _ f => line f 2
  | .cwb _ f => line f 0
  | .cinv _ f => line f 1
  | .cpy _ f => even f.a && decide (f.a.toNat ≤ 244) && decide (f.imm = 0) && selTop f.sel 7 && decide (f.sel.toNat / 8 % 8 ≤ 5)
  | .cpyt _ f => even f.a && decide (f.a.toNat ≤ 240) && decide (f.imm = 0) && selTop f.sel 7 && decide (f.sel.toNat / 8 % 8 ≤ 5)
  | .cpyg _ f => even f.a && decide (f.a.toNat ≤ 240) && decide (f.imm = 0) && selTop f.sel 7 && decide (f.sel.toNat / 8 % 8 ≤ 5)
  | .wtge _ f => waitRow f && dst (szTy f) f.d && !f.sg
  | .wteq _ f => waitRow f && dst (szTy f) f.d && !f.sg
  | .poll _ f => waitRow f && pred f.d
  | .mma _ f => mmaRow f
  | .mmat _ f => mmaRow f
  | .mzero _ f => xPlain f && z f.a && decide (f.low.toNat < 16)
  | .mdrain _ f => xPlain f && z f.a && decide (f.low.toNat % 32 + f.low.toNat / 32 + 1 ≤ 32)
  | .mdrag _ f => xPlain f && vReg f.a && decide (f.low.toNat < 16)
  | .mpop _ f => xPlain f && decide (f.acc = 0) && vReg f.a && decide (f.low = 0)
  | .mpush _ f => xPlain f && vReg f.a && decide (f.low.toNat < 32)
  | .mtake _ f => xPlain f && decide (f.acc = 0) && z f.a && decide (f.low = 0)
  | .mgive _ f => xPlain f && decide (f.acc = 0) && z f.a && decide (f.low = 0)
  | .mstat _ f => xPlain f && decide (f.acc = 0) && vReg f.a && decide (f.low.toNat < 2)
  | .bar _ f => z f.d && decide (f.imm = 0) && selTop f.sel 5 && (f.sel.getLsbD 4 || z f.a)
  | .barSet _ f => z f.d && selTop f.sel 6 && f.sel.getLsbD 5 && !f.sel.getLsbD 4
  | .bara _ f => decide (f.imm = 0) && selTop f.sel 7 && !f.sel.getLsbD 4 && !f.sel.getLsbD 5 && (f.sel.getLsbD 6 || z f.a)
  | .baraWait _ f => z f.d && decide (f.imm = 0) && decide (f.sel.toNat / 16 = 1)
  | .baraRem _ f => decide (f.imm = 0) && decide (f.sel.toNat = 32) && even f.a
  | .baraHdl _ f => decide (f.imm = 0) && decide (f.sel.toNat / 16 = 3) && even f.d && z f.a
  | .gbar _ f => pred f.d && z f.a && selTop f.sel 3 && decide (f.imm = 0)
  | .ldf _ f => feRow f 1 && dst .n64 f.d && !f.sg
  | .ldfe _ f => feRow f 1 && dst .n64 f.d && !f.sg
  | .stef _ f => feRow f 2 && src .n64 f.d && !f.sg
  | .stf _ f => feRow f 2 && src .n64 f.d && !f.sg
  | .fest _ f => feRow f 1 && pred f.d && decide (f.ch = 0)
  | .sigadd _ f => vbase f && decide (f.sz.toNat = 3) && !f.sg && decide (f.ch = 0) && scpOk f && dst .n64 f.d && decide (opn f ≤ 5) && (if opn f ∈ [0, 2, 4] then srcNoSel .n64 f.b else decide (f.b = 0x90))
  | .twpart _ f => z f.d && z f.a && decide (f.imm = 0) && selTop f.sel 1
  | .twstat _ f => z f.a && decide (f.sel = 0) && decide (f.imm = 0)
  | .enq _ f => decide (f.a.toNat % 16 = 0) && decide (f.imm = 0) && selTop f.sel 13 && (!f.sel.getLsbD 12 || decide (f.sel.toNat % 4096 < 256))
  | .enqt _ f => pred f.d && decide (f.a.toNat % 16 = 0) && decide (f.imm = 0) && selTop f.sel 13 && (!f.sel.getLsbD 12 || decide (f.sel.toNat % 4096 < 256))
  | .spawn _ f => even f.d && even f.a && decide (f.sel = 0) && decide (f.imm = 0)
  | .scopeNew _ f => even f.d && decide (f.sel = 0) && selTop f.imm 1 && (f.imm.getLsbD 0 || z f.a)
  | .cancel _ f => decide (f.sel = 0) && decide (f.imm = 0)
  | .cancelAck _ f => decide (f.sel = 1) && decide (f.imm = 0) && even f.a && decide (f.a.toNat ≤ 250)
  | .scack _ f => decide (f.sel = 0) && decide (f.imm = 0)
  | .scinfo _ f => even f.d && decide (f.sel = 0) && selTop f.imm 1
  | .sread _ f => z f.a && decide (f.imm = 0) && decide (f.sel.toNat ∈ readable)
  | .sreadV _ f => pairVO f.d && z f.a && decide (f.imm = 1) && decide (f.sel.toNat = 0x15)
  | .swrite _ f => z f.d && decide (f.imm = 0) && decide (f.sel.toNat ∈ writable)
  | .bidw _ f => even f.a && decide (f.imm = 0) && (marketClass f.sel.toNat || decide (f.sel.toNat = 7))
  | .bidr _ f => even f.d && z f.a && selTop f.imm 1 && (marketClass f.sel.toNat || decide (f.sel.toNat = 7))
  | .priceR _ f => even f.d && decide (f.imm = 0) && selTop f.sel 6 && marketClass (f.sel.toNat % 8) && (f.sel.getLsbD 5 || z f.a)
  | .leaseR _ f => even f.d && z f.a && selTop f.imm 1 && marketClass f.sel.toNat
  | .pcnt _ f => even f.d && z f.a && decide (f.imm = 0) && decide (f.sel.toNat < 16)
  | .clockR _ f => even f.d && z f.a && decide (f.imm = 0) && selTop f.sel 1
  | .keyz _ f => decide (f.sel = 0) && decide (f.imm = 0)
  | .keyzCtx _ f => decide (f.sel = 1) && decide (f.imm = 0)
  | .scrub _ f => selTop f.sel 1 && decide (f.imm = 0)
  | .scrubStat _ f => decide (f.sel = 2) && even f.d && z f.a && decide (f.imm = 0)
  | .sleep _ f => z f.d && z f.a && decide (f.sel = 0)
  | .sleepUntil _ f => z f.d && even f.a && decide (f.sel = 1) && decide (f.imm = 0)
  | .fencePerformed .. => true
  | .varLatencyWriteback .. => true
  | .copyChunk .. => true
  | .memoryWaitSatisfied .. => true
  | .matrixKstep .. => true
  | .drainRowPush .. => true
  | .feWaiterServed .. => true
  | .enqRetry .. => true
  | .queueStall .. => true
  | .taskExamine .. => true
  | .cancelledWaveStop .. => true
  | .subtreeQuiet .. => true
  | .sleepWake .. => true
  | .instructionFetch .. => true
  | .trapDelivery .. => true
  | .faultDump .. => true
  | .doorbellWrite func off size _ => decide (func < 256) && decide (off < 2 ^ 24) && decide (size ≤ 8)
  | .doorbellRead func off size => decide (func < 256) && decide (off < 2 ^ 24) && decide (size ≤ 8)
  | .qcbWrite func off size _ => decide (func < 256) && decide (off < 2 ^ 18) && decide (size ≤ 8)
  | .enable func q => decide (func < 256) && decide (q < 4096)
  | .disable func q => decide (func < 256) && decide (q < 4096)
  | .queueResume func q => decide (func < 256) && decide (q < 4096)
  | .queueRelease func q => decide (func < 256) && decide (q < 4096)
  | .packetConsume q => decide (q < 4096)
  | .barrierPass q => decide (q < 4096)
  | .launchComplete .. => true
  | .dispatchPlace k => decide (k < 60)
  | .defCharge .. => true
  | .clusterReserve q => decide (q < 4096)
  | .dispatchSave .. => true
  | .gangStop .. => true
  | .bidFreeze .. => true
  | .publication .. => true
  | .intervalStart .. => true
  | .spinnaker .. => true
  | .migrationOffer .. => true
  | .migrationAccepted .. => true
  | .priceFlitReceive p => decide (p.dev < 1024)
  | .timeFlitSend .. => true
  | .timeFlitReceive .. => true
  | .access .. => true
  | .response .. => true
  | .responseTimeout .. => true
  | .reduceContribution .. => true
  | .keygenHoldTimeout .. => true
  | .ratlineFlit .. => true
  | .ratlineHoldEnd .. => true
  | .shard .. => true
  | .flitUnknownType .. => true
  | .linkTraining port _ peer => decide (port < 18) && decide (peer < 1024)
  | .laneWithdraw lane => decide (lane < 72)
  | .bar4Read .. => true
  | .bar4Write .. => true
  | .hostAccessFail .. => true
  | .registerWrite .. => true
  | .violationLogRead .. => true
  | .tlbinv .. => true
  | .tlbInvalidateDone .. => true
  | .kmatWrite func slot off size _ => decide (func < 256) && decide (slot < 512) && decide (off < 64) && decide (size ≤ 8)
  | .kstatWrite func slot off size _ => decide (func < 256) && decide (slot < 512) && decide (off < 8) && decide (size ≤ 8)
  | .scrubcmd .. => true
  | .scrubPhase .. => true
  | .create func c => decide (func < 256) && decide (c < 1024)
  | .reset func c => decide (func < 256) && decide (c < 1024)
  | .ctxResetReroot .. => true
  | .tdcancel .. => true
  | .powerWindow .. => true
  | .eccError .. => true
  | .selfTestDone .. => true
  | .powerOn .. => true
  | .deviceReset .. => true
  | .boot .. => true
  | .faults .. => true
  | .policy .. => true
  | .discard .. => true
  | .resume .. => true
  | .stop .. => true
  | .release .. => true
  | .stall .. => true
  | .ckptSave .. => true
  | .ckptRestore .. => true
  | .reduce .. => true
  | .keygen .. => true
  | .ratline .. => true
  | .attest .. => true
  | .errlog .. => true
  | .podidx func _ => decide (func < 256)
  | .migrationRefused .. => true
  | .peerLost .. => true
  | .corePowerGate core => decide (core < 240)
  | .coreWake core => decide (core < 240)
  | .thermalTrip .. => true
  | .eventMessageHoldoff .. => true

/-- The header of an instruction word; none for a device event. -/
def Instr.hdr : Instr → Option Hdr
  | .bra h _ => some h
  | .brx h _ => some h
  | .call h _ => some h
  | .callx h _ => some h
  | .ret h _ => some h
  | .joinJ h _ => some h
  | .jset h _ => some h
  | .exitL h _ => some h
  | .nop h _ => some h
  | .yieldE h _ => some h
  | .winb h _ => some h
  | .brk h _ => some h
  | .trapU h _ => some h
  | .rtu h _ => some h
  | .brs h _ => some h
  | .add h _ => some h
  | .sub h _ => some h
  | .mul h _ => some h
  | .mulh h _ => some h
  | .mad h _ => some h
  | .divI h _ => some h
  | .remI h _ => some h
  | .absI h _ => some h
  | .minI h _ => some h
  | .maxI h _ => some h
  | .andB h _ => some h
  | .orB h _ => some h
  | .xorB h _ => some h
  | .andn h _ => some h
  | .shl h _ => some h
  | .shr h _ => some h
  | .sar h _ => some h
  | .rol h _ => some h
  | .popc h _ => some h
  | .clz h _ => some h
  | .ctz h _ => some h
  | .brev h _ => some h
  | .bfe h _ => some h
  | .bfi h _ => some h
  | .perm h _ => some h
  | .sel h _ => some h
  | .cmp h _ => some h
  | .mov h _ => some h
  | .movi h _ => some h
  | .addi h _ => some h
  | .lea h _ => some h
  | .movrGet h _ => some h
  | .movrPut h _ => some h
  | .salu h _ => some h
  | .scmp h _ => some h
  | .smovi h _ => some h
  | .smov h _ => some h
  | .sfrom h _ => some h
  | .ssel h _ => some h
  | .slea h _ => some h
  | .plop h _ => some h
  | .pfrom h _ => some h
  | .pto h _ => some h
  | .pcntPred h _ => some h
  | .fadd h _ => some h
  | .fsub h _ => some h
  | .fmul h _ => some h
  | .ffma h _ => some h
  | .fmin h _ => some h
  | .fmax h _ => some h
  | .fcmp h _ => some h
  | .fclass h _ => some h
  | .fdiv h _ => some h
  | .fsqrt h _ => some h
  | .frcp h _ => some h
  | .frsq h _ => some h
  | .fex2 h _ => some h
  | .flg2 h _ => some h
  | .fsinp h _ => some h
  | .fcosp h _ => some h
  | .ftanh h _ => some h
  | .frint h _ => some h
  | .fscal h _ => some h
  | .fdot2 h _ => some h
  | .fclamp h _ => some h
  | .fsig h _ => some h
  | .cvt h _ => some h
  | .cvl6 h _ => some h
  | .pk6 h _ => some h
  | .upk6 h _ => some h
  | .bsclFind h _ => some h
  | .bsclApply h _ => some h
  | .lmul h _ => some h
  | .shfl h _ => some h
  | .shfx h _ => some h
  | .shfd h _ => some h
  | .qswp h _ => some h
  | .qbc h _ => some h
  | .vote h _ => some h
  | .wred h _ => some h
  | .wscan h _ => some h
  | .matchLanes h _ => some h
  | .firstL h _ => some h
  | .ld h _ => some h
  | .st h _ => some h
  | .ldv h _ => some h
  | .stv h _ => some h
  | .sld h _ => some h
  | .sst h _ => some h
  | .atom h _ => some h
  | .acas h _ => some h
  | .fence h _ => some h
  | .sptest h _ => some h
  | .spcast h _ => some h
  | .pref h _ => some h
  | .cwb h _ => some h
  | .cinv h _ => some h
  | .cpy h _ => some h
  | .cpyt h _ => some h
  | .cpyg h _ => some h
  | .wtge h _ => some h
  | .wteq h _ => some h
  | .poll h _ => some h
  | .mma h _ => some h
  | .mmat h _ => some h
  | .mzero h _ => some h
  | .mdrain h _ => some h
  | .mdrag h _ => some h
  | .mpop h _ => some h
  | .mpush h _ => some h
  | .mtake h _ => some h
  | .mgive h _ => some h
  | .mstat h _ => some h
  | .bar h _ => some h
  | .barSet h _ => some h
  | .bara h _ => some h
  | .baraWait h _ => some h
  | .baraRem h _ => some h
  | .baraHdl h _ => some h
  | .gbar h _ => some h
  | .ldf h _ => some h
  | .ldfe h _ => some h
  | .stef h _ => some h
  | .stf h _ => some h
  | .fest h _ => some h
  | .sigadd h _ => some h
  | .twpart h _ => some h
  | .twstat h _ => some h
  | .enq h _ => some h
  | .enqt h _ => some h
  | .spawn h _ => some h
  | .scopeNew h _ => some h
  | .cancel h _ => some h
  | .cancelAck h _ => some h
  | .scack h _ => some h
  | .scinfo h _ => some h
  | .sread h _ => some h
  | .sreadV h _ => some h
  | .swrite h _ => some h
  | .bidw h _ => some h
  | .bidr h _ => some h
  | .priceR h _ => some h
  | .leaseR h _ => some h
  | .pcnt h _ => some h
  | .clockR h _ => some h
  | .keyz h _ => some h
  | .keyzCtx h _ => some h
  | .scrub h _ => some h
  | .scrubStat h _ => some h
  | .sleep h _ => some h
  | .sleepUntil h _ => some h
  | .fencePerformed .. => none
  | .varLatencyWriteback .. => none
  | .copyChunk .. => none
  | .memoryWaitSatisfied .. => none
  | .matrixKstep .. => none
  | .drainRowPush .. => none
  | .feWaiterServed .. => none
  | .enqRetry .. => none
  | .queueStall .. => none
  | .taskExamine .. => none
  | .cancelledWaveStop .. => none
  | .subtreeQuiet .. => none
  | .sleepWake .. => none
  | .instructionFetch .. => none
  | .trapDelivery .. => none
  | .faultDump .. => none
  | .doorbellWrite .. => none
  | .doorbellRead .. => none
  | .qcbWrite .. => none
  | .enable .. => none
  | .disable .. => none
  | .queueResume .. => none
  | .queueRelease .. => none
  | .packetConsume .. => none
  | .barrierPass .. => none
  | .launchComplete .. => none
  | .dispatchPlace .. => none
  | .defCharge .. => none
  | .clusterReserve .. => none
  | .dispatchSave .. => none
  | .gangStop .. => none
  | .bidFreeze .. => none
  | .publication .. => none
  | .intervalStart .. => none
  | .spinnaker .. => none
  | .migrationOffer .. => none
  | .migrationAccepted .. => none
  | .priceFlitReceive .. => none
  | .timeFlitSend .. => none
  | .timeFlitReceive .. => none
  | .access .. => none
  | .response .. => none
  | .responseTimeout .. => none
  | .reduceContribution .. => none
  | .keygenHoldTimeout .. => none
  | .ratlineFlit .. => none
  | .ratlineHoldEnd .. => none
  | .shard .. => none
  | .flitUnknownType .. => none
  | .linkTraining .. => none
  | .laneWithdraw .. => none
  | .bar4Read .. => none
  | .bar4Write .. => none
  | .hostAccessFail .. => none
  | .registerWrite .. => none
  | .violationLogRead .. => none
  | .tlbinv .. => none
  | .tlbInvalidateDone .. => none
  | .kmatWrite .. => none
  | .kstatWrite .. => none
  | .scrubcmd .. => none
  | .scrubPhase .. => none
  | .create .. => none
  | .reset .. => none
  | .ctxResetReroot .. => none
  | .tdcancel .. => none
  | .powerWindow .. => none
  | .eccError .. => none
  | .selfTestDone .. => none
  | .powerOn .. => none
  | .deviceReset .. => none
  | .boot .. => none
  | .faults .. => none
  | .policy .. => none
  | .discard .. => none
  | .resume .. => none
  | .stop .. => none
  | .release .. => none
  | .stall .. => none
  | .ckptSave .. => none
  | .ckptRestore .. => none
  | .reduce .. => none
  | .keygen .. => none
  | .ratline .. => none
  | .attest .. => none
  | .errlog .. => none
  | .podidx .. => none
  | .migrationRefused .. => none
  | .peerLost .. => none
  | .corePowerGate .. => none
  | .coreWake .. => none
  | .thermalTrip .. => none
  | .eventMessageHoldoff .. => none

/-- Well-formed: the guard fields (R42 item 3) and the instruction's own fields (R42 item 4). -/
def Instr.wf (i : Instr) : Bool :=
  (match i.hdr with | some h => h.wf | none => true) && i.fieldsWf

end Sys2Proof
end

