-- ==== Sys2Proof/Decode.lean ====
section
/-! DEFINITION. Decode: the bits of an instruction word (R10 to R22), the opcode map (R39), decoding with the checks of R42
(items 1, 3 and 4; item 2 needs the wave's level and is made at issue), and after it the encoder. -/

namespace Sys2Proof

/-- Why a word is no instruction (R42): item 1, item 3, item 4. -/
inductive DecodeError | reservedOpcode | guardFields | reservedField
deriving DecidableEq, Repr

namespace Word

/-- Bits [lo+n-1:lo] of a word. -/
abbrev bits (w : W64) (lo n : Nat) : BitVec n := w.extractLsb' lo n

/-- The major opcode (R11). -/
def op (w : W64) : Byte := bits w 49 8

/-- The header fields other than OP (R11). -/
def hdr (w : W64) : Hdr := { y := w.getLsbD 63, ge := w.getLsbD 62, gn := w.getLsbD 61, gp := bits w 57 4 }

/-- Format R (R15, R16). -/
def rFields (w : W64) : RF :=
  { d := bits w 41 8, a := bits w 33 8, b := bits w 25 8, c := bits w 17 8, t := bits w 12 5, fn := bits w 8 4,
    rm := bits w 6 2, md := bits w 0 6 }

/-- Format I (R15, R17). -/
def iFields (w : W64) : IF := { d := bits w 41 8, a := bits w 33 8, imm := bits w 1 32, x := w.getLsbD 0 }

/-- Format J (R15, R18). -/
def jFields (w : W64) : JF := { j := bits w 45 4, a := bits w 33 8, pri := bits w 25 8, off := bits w 1 24 }

/-- Format M (R15, R19). -/
def mFields (w : W64) : MF :=
  { d := bits w 41 8, a := bits w 33 8, b := bits w 25 8, sz := bits w 22 3, sg := w.getLsbD 21, ord := bits w 19 2,
    scp := bits w 16 3, ch := bits w 14 2, off := bits w 0 14 }

/-- Format X (R15, R20). -/
def xFields (w : W64) : XF :=
  { acc := bits w 45 4, sh := bits w 41 4, a := bits w 33 8, b := bits w 25 8, s := bits w 17 8, rep := bits w 14 3,
    bsel := bits w 12 2, neg := w.getLsbD 11, zero := w.getLsbD 10, low := bits w 0 10 }

/-- Format S (R15, R21). -/
def sFields (w : W64) : SF := { d := bits w 41 8, a := bits w 33 8, sel := bits w 17 16, imm := bits w 1 16 }

/-- The must-be-zero bits of format J are not zero (R18). -/
def jBad (w : W64) : Bool := decide (bits w 41 4 ≠ 0) || w.getLsbD 0

/-- The must-be-zero bit of format S is not zero (R21). -/
def sBad (w : W64) : Bool := w.getLsbD 0

end Word

/-- Control flow and traps: opcodes 0x00 to 0x0F (R39). A row that FN, SEL or IMM splits is chosen here. -/
def decode0 (w : W64) (h : Hdr) : Option Instr :=
  match (Word.op w).toNat with
  | 0x01 => some (.bra h (Word.jFields w))
  | 0x02 => some (.brx h (Word.jFields w))
  | 0x03 => some (.call h (Word.jFields w))
  | 0x04 => some (.callx h (Word.jFields w))
  | 0x05 => some (.ret h (Word.jFields w))
  | 0x06 => some (.joinJ h (Word.jFields w))
  | 0x07 => some (.jset h (Word.rFields w))
  | 0x08 => some (.exitL h (Word.rFields w))
  | 0x09 => some (.nop h (Word.rFields w))
  | 0x0A => some (.yieldE h (Word.rFields w))
  | 0x0B => some (.winb h (Word.iFields w))
  | 0x0C => some (.brk h (Word.sFields w))
  | 0x0D => some (.trapU h (Word.sFields w))
  | 0x0E => some (.rtu h (Word.sFields w))
  | 0x0F => some (.brs h (Word.jFields w))
  | _ => none

/-- Integer arithmetic: opcodes 0x10 to 0x1F (R39). A row that FN, SEL or IMM splits is chosen here. -/
def decode1 (w : W64) (h : Hdr) : Option Instr :=
  match (Word.op w).toNat with
  | 0x10 => some (.add h (Word.rFields w))
  | 0x11 => some (.sub h (Word.rFields w))
  | 0x12 => some (.mul h (Word.rFields w))
  | 0x13 => some (.mulh h (Word.rFields w))
  | 0x14 => some (.mad h (Word.rFields w))
  | 0x15 => some (.divI h (Word.rFields w))
  | 0x16 => some (.remI h (Word.rFields w))
  | 0x17 => some (.absI h (Word.rFields w))
  | 0x18 => some (.minI h (Word.rFields w))
  | 0x19 => some (.maxI h (Word.rFields w))
  | 0x1A => some (.andB h (Word.rFields w))
  | 0x1B => some (.orB h (Word.rFields w))
  | 0x1C => some (.xorB h (Word.rFields w))
  | 0x1D => some (.andn h (Word.rFields w))
  | 0x1E => some (.shl h (Word.rFields w))
  | 0x1F => some (.shr h (Word.rFields w))
  | _ => none

/-- Bits, moves: opcodes 0x20 to 0x2F (R39). A row that FN, SEL or IMM splits is chosen here. -/
def decode2 (w : W64) (h : Hdr) : Option Instr :=
  match (Word.op w).toNat with
  | 0x20 => some (.sar h (Word.rFields w))
  | 0x21 => some (.rol h (Word.rFields w))
  | 0x22 => some (.popc h (Word.rFields w))
  | 0x23 => some (.clz h (Word.rFields w))
  | 0x24 => some (.ctz h (Word.rFields w))
  | 0x25 => some (.brev h (Word.rFields w))
  | 0x26 => some (.bfe h (Word.rFields w))
  | 0x27 => some (.bfi h (Word.rFields w))
  | 0x28 => some (.perm h (Word.rFields w))
  | 0x29 => some (.sel h (Word.rFields w))
  | 0x2A => some (.cmp h (Word.rFields w))
  | 0x2B => some (.mov h (Word.rFields w))
  | 0x2C => some (.movi h (Word.iFields w))
  | 0x2D => some (.addi h (Word.iFields w))
  | 0x2E => some (.lea h (Word.rFields w))
  | 0x2F => (let f := Word.rFields w
      some (if f.fn = 1 then .movrPut h f else .movrGet h f))
  | _ => none

/-- Uniform and predicates: opcodes 0x30 to 0x3F (R39). A row that FN, SEL or IMM splits is chosen here. -/
def decode3 (w : W64) (h : Hdr) : Option Instr :=
  match (Word.op w).toNat with
  | 0x30 => some (.salu h (Word.rFields w))
  | 0x31 => some (.scmp h (Word.rFields w))
  | 0x32 => some (.smovi h (Word.iFields w))
  | 0x33 => some (.smov h (Word.rFields w))
  | 0x34 => some (.sfrom h (Word.rFields w))
  | 0x35 => some (.ssel h (Word.rFields w))
  | 0x36 => some (.slea h (Word.rFields w))
  | 0x38 => some (.plop h (Word.rFields w))
  | 0x39 => some (.pfrom h (Word.rFields w))
  | 0x3A => some (.pto h (Word.rFields w))
  | 0x3B => some (.pcntPred h (Word.rFields w))
  | _ => none

/-- Floating point: opcodes 0x40 to 0x4F (R39). A row that FN, SEL or IMM splits is chosen here. -/
def decode4 (w : W64) (h : Hdr) : Option Instr :=
  match (Word.op w).toNat with
  | 0x40 => some (.fadd h (Word.rFields w))
  | 0x41 => some (.fsub h (Word.rFields w))
  | 0x42 => some (.fmul h (Word.rFields w))
  | 0x43 => some (.ffma h (Word.rFields w))
  | 0x44 => some (.fmin h (Word.rFields w))
  | 0x45 => some (.fmax h (Word.rFields w))
  | 0x46 => some (.fcmp h (Word.rFields w))
  | 0x47 => some (.fclass h (Word.rFields w))
  | 0x48 => some (.fdiv h (Word.rFields w))
  | 0x49 => some (.fsqrt h (Word.rFields w))
  | 0x4A => some (.frcp h (Word.rFields w))
  | 0x4B => some (.frsq h (Word.rFields w))
  | 0x4C => some (.fex2 h (Word.rFields w))
  | 0x4D => some (.flg2 h (Word.rFields w))
  | 0x4E => some (.fsinp h (Word.rFields w))
  | 0x4F => some (.fcosp h (Word.rFields w))
  | _ => none

/-- Floating point: opcodes 0x50 to 0x5F (R39). A row that FN, SEL or IMM splits is chosen here. -/
def decode5 (w : W64) (h : Hdr) : Option Instr :=
  match (Word.op w).toNat with
  | 0x50 => some (.ftanh h (Word.rFields w))
  | 0x51 => some (.frint h (Word.rFields w))
  | 0x52 => some (.fscal h (Word.rFields w))
  | 0x53 => some (.fdot2 h (Word.rFields w))
  | 0x54 => some (.fclamp h (Word.rFields w))
  | 0x55 => some (.fsig h (Word.rFields w))
  | _ => none

/-- Conversion: opcodes 0x60 to 0x6F (R39). A row that FN, SEL or IMM splits is chosen here. -/
def decode6 (w : W64) (h : Hdr) : Option Instr :=
  match (Word.op w).toNat with
  | 0x60 => some (.cvt h (Word.rFields w))
  | 0x61 => some (.cvl6 h (Word.rFields w))
  | 0x62 => some (.pk6 h (Word.rFields w))
  | 0x63 => some (.upk6 h (Word.rFields w))
  | 0x64 => (let f := Word.rFields w
      some (if f.fn = 1 then .bsclApply h f else .bsclFind h f))
  | 0x65 => some (.lmul h (Word.rFields w))
  | _ => none

/-- Lane exchanges: opcodes 0x70 to 0x7F (R39). A row that FN, SEL or IMM splits is chosen here. -/
def decode7 (w : W64) (h : Hdr) : Option Instr :=
  match (Word.op w).toNat with
  | 0x70 => some (.shfl h (Word.rFields w))
  | 0x71 => some (.shfx h (Word.rFields w))
  | 0x72 => some (.shfd h (Word.rFields w))
  | 0x73 => some (.qswp h (Word.rFields w))
  | 0x74 => some (.qbc h (Word.rFields w))
  | 0x75 => some (.vote h (Word.rFields w))
  | 0x76 => some (.wred h (Word.rFields w))
  | 0x77 => some (.wscan h (Word.rFields w))
  | 0x78 => some (.matchLanes h (Word.rFields w))
  | 0x79 => some (.firstL h (Word.rFields w))
  | _ => none

/-- Memory: opcodes 0x80 to 0x8F (R39). A row that FN, SEL or IMM splits is chosen here. -/
def decode8 (w : W64) (h : Hdr) : Option Instr :=
  match (Word.op w).toNat with
  | 0x80 => some (.ld h (Word.mFields w))
  | 0x81 => some (.st h (Word.mFields w))
  | 0x82 => some (.ldv h (Word.mFields w))
  | 0x83 => some (.stv h (Word.mFields w))
  | 0x84 => some (.sld h (Word.mFields w))
  | 0x85 => some (.sst h (Word.mFields w))
  | 0x86 => some (.atom h (Word.mFields w))
  | 0x87 => some (.acas h (Word.mFields w))
  | 0x88 => some (.fence h (Word.sFields w))
  | 0x89 => some (.sptest h (Word.rFields w))
  | 0x8A => some (.spcast h (Word.rFields w))
  | 0x8B => some (.pref h (Word.mFields w))
  | 0x8C => some (.cwb h (Word.mFields w))
  | 0x8D => some (.cinv h (Word.mFields w))
  | _ => none

/-- Copies and waits: opcodes 0xA0 to 0xAF (R39). A row that FN, SEL or IMM splits is chosen here. -/
def decodeA (w : W64) (h : Hdr) : Option Instr :=
  match (Word.op w).toNat with
  | 0xA0 => some (.cpy h (Word.sFields w))
  | 0xA1 => some (.cpyt h (Word.sFields w))
  | 0xA2 => some (.cpyg h (Word.sFields w))
  | 0xA3 => some (.wtge h (Word.mFields w))
  | 0xA4 => some (.wteq h (Word.mFields w))
  | 0xA5 => some (.poll h (Word.mFields w))
  | _ => none

/-- Matrix: opcodes 0xB0 to 0xBF (R39). A row that FN, SEL or IMM splits is chosen here. -/
def decodeB (w : W64) (h : Hdr) : Option Instr :=
  match (Word.op w).toNat with
  | 0xB0 => some (.mma h (Word.xFields w))
  | 0xB1 => some (.mmat h (Word.xFields w))
  | 0xB2 => some (.mzero h (Word.xFields w))
  | 0xB3 => some (.mdrain h (Word.xFields w))
  | 0xB4 => some (.mdrag h (Word.xFields w))
  | 0xB5 => some (.mpop h (Word.xFields w))
  | 0xB6 => some (.mpush h (Word.xFields w))
  | 0xB7 => some (.mtake h (Word.xFields w))
  | 0xB8 => some (.mgive h (Word.xFields w))
  | 0xB9 => some (.mstat h (Word.xFields w))
  | _ => none

/-- Synchronisation: opcodes 0xC0 to 0xCF (R39). A row that FN, SEL or IMM splits is chosen here. -/
def decodeC (w : W64) (h : Hdr) : Option Instr :=
  match (Word.op w).toNat with
  | 0xC0 => (let f := Word.sFields w
      some (if f.sel.getLsbD 5 then .barSet h f else .bar h f))
  | 0xC1 => (let f := Word.sFields w
      some (match f.sel.getLsbD 5, f.sel.getLsbD 4 with
        | false, false => .bara h f
        | false, true => .baraWait h f
        | true, false => .baraRem h f
        | true, true => .baraHdl h f))
  | 0xC2 => some (.gbar h (Word.sFields w))
  | 0xC3 => some (.ldf h (Word.mFields w))
  | 0xC4 => some (.ldfe h (Word.mFields w))
  | 0xC5 => some (.stef h (Word.mFields w))
  | 0xC6 => some (.stf h (Word.mFields w))
  | 0xC7 => some (.fest h (Word.mFields w))
  | 0xC8 => some (.sigadd h (Word.mFields w))
  | 0xC9 => some (.twpart h (Word.sFields w))
  | 0xCA => some (.twstat h (Word.sFields w))
  | _ => none

/-- Queues, tasks, scopes: opcodes 0xD0 to 0xDF (R39). A row that FN, SEL or IMM splits is chosen here. -/
def decodeD (w : W64) (h : Hdr) : Option Instr :=
  match (Word.op w).toNat with
  | 0xD0 => some (.enq h (Word.sFields w))
  | 0xD1 => some (.enqt h (Word.sFields w))
  | 0xD2 => some (.spawn h (Word.sFields w))
  | 0xD3 => some (.scopeNew h (Word.sFields w))
  | 0xD4 => (let f := Word.sFields w
      some (if f.sel.getLsbD 0 then .cancelAck h f else .cancel h f))
  | 0xD5 => some (.scack h (Word.sFields w))
  | 0xD6 => some (.scinfo h (Word.sFields w))
  | _ => none

/-- System: opcodes 0xE0 to 0xEF (R39). A row that FN, SEL or IMM splits is chosen here. -/
def decodeE (w : W64) (h : Hdr) : Option Instr :=
  match (Word.op w).toNat with
  | 0xE0 => (let f := Word.sFields w
      some (if f.sel = 0x15 then .sreadV h f else .sread h f))
  | 0xE1 => some (.swrite h (Word.sFields w))
  | 0xE2 => some (.bidw h (Word.sFields w))
  | 0xE3 => some (.bidr h (Word.sFields w))
  | 0xE4 => some (.priceR h (Word.sFields w))
  | 0xE5 => some (.leaseR h (Word.sFields w))
  | 0xE6 => some (.pcnt h (Word.sFields w))
  | 0xE7 => some (.clockR h (Word.sFields w))
  | 0xE8 => (let f := Word.sFields w
      some (if f.sel.getLsbD 0 then .keyzCtx h f else .keyz h f))
  | 0xE9 => (let f := Word.sFields w
      some (if f.sel.getLsbD 1 then .scrubStat h f else .scrub h f))
  | 0xEA => (let f := Word.sFields w
      some (if f.sel.getLsbD 0 then .sleepUntil h f else .sleep h f))
  | _ => none

/-- The instruction a word names, before the checks of its fields. -/
def decodeOp (w : W64) : Option Instr :=
  let h := Word.hdr w
  match (Word.op w).toNat / 16 with
  | 0x0 => decode0 w h
  | 0x1 => decode1 w h
  | 0x2 => decode2 w h
  | 0x3 => decode3 w h
  | 0x4 => decode4 w h
  | 0x5 => decode5 w h
  | 0x6 => decode6 w h
  | 0x7 => decode7 w h
  | 0x8 => decode8 w h
  | 0xA => decodeA w h
  | 0xB => decodeB w h
  | 0xC => decodeC w h
  | 0xD => decodeD w h
  | 0xE => decodeE w h
  | _ => none

/-- Bits no field of the word's format covers and that must be zero (R18, R21). -/
def Instr.padBad (i : Instr) (w : W64) : Bool :=
  match i with
  | .bra .. => Word.jBad w
  | .brx .. => Word.jBad w
  | .call .. => Word.jBad w
  | .callx .. => Word.jBad w
  | .ret .. => Word.jBad w
  | .joinJ .. => Word.jBad w
  | .jset .. => false
  | .exitL .. => false
  | .nop .. => false
  | .yieldE .. => false
  | .winb .. => false
  | .brk .. => Word.sBad w
  | .trapU .. => Word.sBad w
  | .rtu .. => Word.sBad w
  | .brs .. => Word.jBad w
  | .add .. => false
  | .sub .. => false
  | .mul .. => false
  | .mulh .. => false
  | .mad .. => false
  | .divI .. => false
  | .remI .. => false
  | .absI .. => false
  | .minI .. => false
  | .maxI .. => false
  | .andB .. => false
  | .orB .. => false
  | .xorB .. => false
  | .andn .. => false
  | .shl .. => false
  | .shr .. => false
  | .sar .. => false
  | .rol .. => false
  | .popc .. => false
  | .clz .. => false
  | .ctz .. => false
  | .brev .. => false
  | .bfe .. => false
  | .bfi .. => false
  | .perm .. => false
  | .sel .. => false
  | .cmp .. => false
  | .mov .. => false
  | .movi .. => false
  | .addi .. => false
  | .lea .. => false
  | .movrGet .. => false
  | .movrPut .. => false
  | .salu .. => false
  | .scmp .. => false
  | .smovi .. => false
  | .smov .. => false
  | .sfrom .. => false
  | .ssel .. => false
  | .slea .. => false
  | .plop .. => false
  | .pfrom .. => false
  | .pto .. => false
  | .pcntPred .. => false
  | .fadd .. => false
  | .fsub .. => false
  | .fmul .. => false
  | .ffma .. => false
  | .fmin .. => false
  | .fmax .. => false
  | .fcmp .. => false
  | .fclass .. => false
  | .fdiv .. => false
  | .fsqrt .. => false
  | .frcp .. => false
  | .frsq .. => false
  | .fex2 .. => false
  | .flg2 .. => false
  | .fsinp .. => false
  | .fcosp .. => false
  | .ftanh .. => false
  | .frint .. => false
  | .fscal .. => false
  | .fdot2 .. => false
  | .fclamp .. => false
  | .fsig .. => false
  | .cvt .. => false
  | .cvl6 .. => false
  | .pk6 .. => false
  | .upk6 .. => false
  | .bsclFind .. => false
  | .bsclApply .. => false
  | .lmul .. => false
  | .shfl .. => false
  | .shfx .. => false
  | .shfd .. => false
  | .qswp .. => false
  | .qbc .. => false
  | .vote .. => false
  | .wred .. => false
  | .wscan .. => false
  | .matchLanes .. => false
  | .firstL .. => false
  | .ld .. => false
  | .st .. => false
  | .ldv .. => false
  | .stv .. => false
  | .sld .. => false
  | .sst .. => false
  | .atom .. => false
  | .acas .. => false
  | .fence .. => Word.sBad w
  | .sptest .. => false
  | .spcast .. => false
  | .pref .. => false
  | .cwb .. => false
  | .cinv .. => false
  | .cpy .. => Word.sBad w
  | .cpyt .. => Word.sBad w
  | .cpyg .. => Word.sBad w
  | .wtge .. => false
  | .wteq .. => false
  | .poll .. => false
  | .mma .. => false
  | .mmat .. => false
  | .mzero .. => false
  | .mdrain .. => false
  | .mdrag .. => false
  | .mpop .. => false
  | .mpush .. => false
  | .mtake .. => false
  | .mgive .. => false
  | .mstat .. => false
  | .bar .. => Word.sBad w
  | .barSet .. => Word.sBad w
  | .bara .. => Word.sBad w
  | .baraWait .. => Word.sBad w
  | .baraRem .. => Word.sBad w
  | .baraHdl .. => Word.sBad w
  | .gbar .. => Word.sBad w
  | .ldf .. => false
  | .ldfe .. => false
  | .stef .. => false
  | .stf .. => false
  | .fest .. => false
  | .sigadd .. => false
  | .twpart .. => Word.sBad w
  | .twstat .. => Word.sBad w
  | .enq .. => Word.sBad w
  | .enqt .. => Word.sBad w
  | .spawn .. => Word.sBad w
  | .scopeNew .. => Word.sBad w
  | .cancel .. => Word.sBad w
  | .cancelAck .. => Word.sBad w
  | .scack .. => Word.sBad w
  | .scinfo .. => Word.sBad w
  | .sread .. => Word.sBad w
  | .sreadV .. => Word.sBad w
  | .swrite .. => Word.sBad w
  | .bidw .. => Word.sBad w
  | .bidr .. => Word.sBad w
  | .priceR .. => Word.sBad w
  | .leaseR .. => Word.sBad w
  | .pcnt .. => Word.sBad w
  | .clockR .. => Word.sBad w
  | .keyz .. => Word.sBad w
  | .keyzCtx .. => Word.sBad w
  | .scrub .. => Word.sBad w
  | .scrubStat .. => Word.sBad w
  | .sleep .. => Word.sBad w
  | .sleepUntil .. => Word.sBad w
  | .fencePerformed .. => false
  | .varLatencyWriteback .. => false
  | .copyChunk .. => false
  | .memoryWaitSatisfied .. => false
  | .matrixKstep .. => false
  | .drainRowPush .. => false
  | .feWaiterServed .. => false
  | .enqRetry .. => false
  | .queueStall .. => false
  | .taskExamine .. => false
  | .cancelledWaveStop .. => false
  | .subtreeQuiet .. => false
  | .sleepWake .. => false
  | .instructionFetch .. => false
  | .trapDelivery .. => false
  | .faultDump .. => false
  | .doorbellWrite .. => false
  | .doorbellRead .. => false
  | .qcbWrite .. => false
  | .enable .. => false
  | .disable .. => false
  | .queueResume .. => false
  | .queueRelease .. => false
  | .packetConsume .. => false
  | .barrierPass .. => false
  | .launchComplete .. => false
  | .dispatchPlace .. => false
  | .defCharge .. => false
  | .clusterReserve .. => false
  | .dispatchSave .. => false
  | .gangStop .. => false
  | .bidFreeze .. => false
  | .publication .. => false
  | .intervalStart .. => false
  | .spinnaker .. => false
  | .migrationOffer .. => false
  | .migrationAccepted .. => false
  | .priceFlitReceive .. => false
  | .timeFlitSend .. => false
  | .timeFlitReceive .. => false
  | .access .. => false
  | .response .. => false
  | .responseTimeout .. => false
  | .reduceContribution .. => false
  | .keygenHoldTimeout .. => false
  | .ratlineFlit .. => false
  | .ratlineHoldEnd .. => false
  | .shard .. => false
  | .flitUnknownType .. => false
  | .linkTraining .. => false
  | .laneWithdraw .. => false
  | .bar4Read .. => false
  | .bar4Write .. => false
  | .hostAccessFail .. => false
  | .registerWrite .. => false
  | .violationLogRead .. => false
  | .tlbinv .. => false
  | .tlbInvalidateDone .. => false
  | .kmatWrite .. => false
  | .kstatWrite .. => false
  | .scrubcmd .. => false
  | .scrubPhase .. => false
  | .create .. => false
  | .reset .. => false
  | .ctxResetReroot .. => false
  | .tdcancel .. => false
  | .powerWindow .. => false
  | .eccError .. => false
  | .selfTestDone .. => false
  | .powerOn .. => false
  | .deviceReset .. => false
  | .boot .. => false
  | .faults .. => false
  | .policy .. => false
  | .discard .. => false
  | .resume .. => false
  | .stop .. => false
  | .release .. => false
  | .stall .. => false
  | .ckptSave .. => false
  | .ckptRestore .. => false
  | .reduce .. => false
  | .keygen .. => false
  | .ratline .. => false
  | .attest .. => false
  | .errlog .. => false
  | .podidx .. => false
  | .migrationRefused .. => false
  | .peerLost .. => false
  | .corePowerGate .. => false
  | .coreWake .. => false
  | .thermalTrip .. => false
  | .eventMessageHoldoff .. => false

/-- The instruction of a word, or the check of R42 that refuses it. -/
def decode (w : W64) : Except DecodeError Instr :=
  match decodeOp w with
  | none => .error .reservedOpcode
  | some i =>
    if (Word.hdr w).wf = false then .error .guardFields
    else if i.padBad w || !i.fieldsWf then .error .reservedField
    else .ok i

/-- A manager-only opcode (R41). -/
def managerOnly (w : W64) : Bool := decide (Word.op w = 0xE8) || decide (Word.op w = 0xE9)

/-- The word of eight bytes, the first at the lowest address (R3, R10). -/
def wordOfBytes (bs : List Byte) : W64 :=
  BitVec.ofNat 64 (bs.foldr (fun b acc => b.toNat + 256 * acc) 0)

/-- The eight bytes of a word, the lowest-addressed first. -/
def bytesOfWord (w : W64) : List Byte := (List.range 8).map fun i => w.extractLsb' (8 * i) 8

/-- Decoding any bytes: the first eight give the word, the rest is left. -/
def decodeBytes (bs : List Byte) : Option (Except DecodeError Instr × List Byte) :=
  if bs.length < 8 then none else some (decode (wordOfBytes (bs.take 8)), bs.drop 8)

/-- What the decoder reads from the table's bits: bit 0 is the least significant bit of the lowest-addressed byte (R10). -/
def decodeTableWord (nbits w : Nat) : Option Instr :=
  if nbits > 64 then none
  else match decodeBytes (bytesOfWord (BitVec.ofNat 64 (w % 2 ^ nbits))) with
    | some (.ok i, _) => some i
    | _ => none

/-! The encoder. -/

namespace Word

def bit (b : Bool) : BitVec 1 := BitVec.ofBool b

/-- The word of a header, an opcode and 49 bits of fields (R11). -/
def make (h : Hdr) (o : Byte) (low : BitVec 49) : W64 := (bit h.y ++ bit h.ge ++ bit h.gn ++ h.gp ++ o ++ low).cast (by decide)

def rBits (f : RF) : BitVec 49 := (f.d ++ f.a ++ f.b ++ f.c ++ f.t ++ f.fn ++ f.rm ++ f.md).cast (by decide)
def iBits (f : IF) : BitVec 49 := (f.d ++ f.a ++ f.imm ++ bit f.x).cast (by decide)
def jBits (f : JF) : BitVec 49 := (f.j ++ (0 : BitVec 4) ++ f.a ++ f.pri ++ f.off ++ (0 : BitVec 1)).cast (by decide)
def mBits (f : MF) : BitVec 49 :=
  (f.d ++ f.a ++ f.b ++ f.sz ++ bit f.sg ++ f.ord ++ f.scp ++ f.ch ++ f.off).cast (by decide)
def xBits (f : XF) : BitVec 49 :=
  (f.acc ++ f.sh ++ f.a ++ f.b ++ f.s ++ f.rep ++ f.bsel ++ bit f.neg ++ bit f.zero ++ f.low).cast (by decide)
def sBits (f : SF) : BitVec 49 := (f.d ++ f.a ++ f.sel ++ f.imm ++ (0 : BitVec 1)).cast (by decide)

end Word

/-- The word of an instruction; an event of the device has none. -/
def encode : Instr → Option W64
  | .bra h f => some (Word.make h 0x01 (Word.jBits f))
  | .brx h f => some (Word.make h 0x02 (Word.jBits f))
  | .call h f => some (Word.make h 0x03 (Word.jBits f))
  | .callx h f => some (Word.make h 0x04 (Word.jBits f))
  | .ret h f => some (Word.make h 0x05 (Word.jBits f))
  | .joinJ h f => some (Word.make h 0x06 (Word.jBits f))
  | .jset h f => some (Word.make h 0x07 (Word.rBits f))
  | .exitL h f => some (Word.make h 0x08 (Word.rBits f))
  | .nop h f => some (Word.make h 0x09 (Word.rBits f))
  | .yieldE h f => some (Word.make h 0x0A (Word.rBits f))
  | .winb h f => some (Word.make h 0x0B (Word.iBits f))
  | .brk h f => some (Word.make h 0x0C (Word.sBits f))
  | .trapU h f => some (Word.make h 0x0D (Word.sBits f))
  | .rtu h f => some (Word.make h 0x0E (Word.sBits f))
  | .brs h f => some (Word.make h 0x0F (Word.jBits f))
  | .add h f => some (Word.make h 0x10 (Word.rBits f))
  | .sub h f => some (Word.make h 0x11 (Word.rBits f))
  | .mul h f => some (Word.make h 0x12 (Word.rBits f))
  | .mulh h f => some (Word.make h 0x13 (Word.rBits f))
  | .mad h f => some (Word.make h 0x14 (Word.rBits f))
  | .divI h f => some (Word.make h 0x15 (Word.rBits f))
  | .remI h f => some (Word.make h 0x16 (Word.rBits f))
  | .absI h f => some (Word.make h 0x17 (Word.rBits f))
  | .minI h f => some (Word.make h 0x18 (Word.rBits f))
  | .maxI h f => some (Word.make h 0x19 (Word.rBits f))
  | .andB h f => some (Word.make h 0x1A (Word.rBits f))
  | .orB h f => some (Word.make h 0x1B (Word.rBits f))
  | .xorB h f => some (Word.make h 0x1C (Word.rBits f))
  | .andn h f => some (Word.make h 0x1D (Word.rBits f))
  | .shl h f => some (Word.make h 0x1E (Word.rBits f))
  | .shr h f => some (Word.make h 0x1F (Word.rBits f))
  | .sar h f => some (Word.make h 0x20 (Word.rBits f))
  | .rol h f => some (Word.make h 0x21 (Word.rBits f))
  | .popc h f => some (Word.make h 0x22 (Word.rBits f))
  | .clz h f => some (Word.make h 0x23 (Word.rBits f))
  | .ctz h f => some (Word.make h 0x24 (Word.rBits f))
  | .brev h f => some (Word.make h 0x25 (Word.rBits f))
  | .bfe h f => some (Word.make h 0x26 (Word.rBits f))
  | .bfi h f => some (Word.make h 0x27 (Word.rBits f))
  | .perm h f => some (Word.make h 0x28 (Word.rBits f))
  | .sel h f => some (Word.make h 0x29 (Word.rBits f))
  | .cmp h f => some (Word.make h 0x2A (Word.rBits f))
  | .mov h f => some (Word.make h 0x2B (Word.rBits f))
  | .movi h f => some (Word.make h 0x2C (Word.iBits f))
  | .addi h f => some (Word.make h 0x2D (Word.iBits f))
  | .lea h f => some (Word.make h 0x2E (Word.rBits f))
  | .movrGet h f => some (Word.make h 0x2F (Word.rBits f))
  | .movrPut h f => some (Word.make h 0x2F (Word.rBits f))
  | .salu h f => some (Word.make h 0x30 (Word.rBits f))
  | .scmp h f => some (Word.make h 0x31 (Word.rBits f))
  | .smovi h f => some (Word.make h 0x32 (Word.iBits f))
  | .smov h f => some (Word.make h 0x33 (Word.rBits f))
  | .sfrom h f => some (Word.make h 0x34 (Word.rBits f))
  | .ssel h f => some (Word.make h 0x35 (Word.rBits f))
  | .slea h f => some (Word.make h 0x36 (Word.rBits f))
  | .plop h f => some (Word.make h 0x38 (Word.rBits f))
  | .pfrom h f => some (Word.make h 0x39 (Word.rBits f))
  | .pto h f => some (Word.make h 0x3A (Word.rBits f))
  | .pcntPred h f => some (Word.make h 0x3B (Word.rBits f))
  | .fadd h f => some (Word.make h 0x40 (Word.rBits f))
  | .fsub h f => some (Word.make h 0x41 (Word.rBits f))
  | .fmul h f => some (Word.make h 0x42 (Word.rBits f))
  | .ffma h f => some (Word.make h 0x43 (Word.rBits f))
  | .fmin h f => some (Word.make h 0x44 (Word.rBits f))
  | .fmax h f => some (Word.make h 0x45 (Word.rBits f))
  | .fcmp h f => some (Word.make h 0x46 (Word.rBits f))
  | .fclass h f => some (Word.make h 0x47 (Word.rBits f))
  | .fdiv h f => some (Word.make h 0x48 (Word.rBits f))
  | .fsqrt h f => some (Word.make h 0x49 (Word.rBits f))
  | .frcp h f => some (Word.make h 0x4A (Word.rBits f))
  | .frsq h f => some (Word.make h 0x4B (Word.rBits f))
  | .fex2 h f => some (Word.make h 0x4C (Word.rBits f))
  | .flg2 h f => some (Word.make h 0x4D (Word.rBits f))
  | .fsinp h f => some (Word.make h 0x4E (Word.rBits f))
  | .fcosp h f => some (Word.make h 0x4F (Word.rBits f))
  | .ftanh h f => some (Word.make h 0x50 (Word.rBits f))
  | .frint h f => some (Word.make h 0x51 (Word.rBits f))
  | .fscal h f => some (Word.make h 0x52 (Word.rBits f))
  | .fdot2 h f => some (Word.make h 0x53 (Word.rBits f))
  | .fclamp h f => some (Word.make h 0x54 (Word.rBits f))
  | .fsig h f => some (Word.make h 0x55 (Word.rBits f))
  | .cvt h f => some (Word.make h 0x60 (Word.rBits f))
  | .cvl6 h f => some (Word.make h 0x61 (Word.rBits f))
  | .pk6 h f => some (Word.make h 0x62 (Word.rBits f))
  | .upk6 h f => some (Word.make h 0x63 (Word.rBits f))
  | .bsclFind h f => some (Word.make h 0x64 (Word.rBits f))
  | .bsclApply h f => some (Word.make h 0x64 (Word.rBits f))
  | .lmul h f => some (Word.make h 0x65 (Word.rBits f))
  | .shfl h f => some (Word.make h 0x70 (Word.rBits f))
  | .shfx h f => some (Word.make h 0x71 (Word.rBits f))
  | .shfd h f => some (Word.make h 0x72 (Word.rBits f))
  | .qswp h f => some (Word.make h 0x73 (Word.rBits f))
  | .qbc h f => some (Word.make h 0x74 (Word.rBits f))
  | .vote h f => some (Word.make h 0x75 (Word.rBits f))
  | .wred h f => some (Word.make h 0x76 (Word.rBits f))
  | .wscan h f => some (Word.make h 0x77 (Word.rBits f))
  | .matchLanes h f => some (Word.make h 0x78 (Word.rBits f))
  | .firstL h f => some (Word.make h 0x79 (Word.rBits f))
  | .ld h f => some (Word.make h 0x80 (Word.mBits f))
  | .st h f => some (Word.make h 0x81 (Word.mBits f))
  | .ldv h f => some (Word.make h 0x82 (Word.mBits f))
  | .stv h f => some (Word.make h 0x83 (Word.mBits f))
  | .sld h f => some (Word.make h 0x84 (Word.mBits f))
  | .sst h f => some (Word.make h 0x85 (Word.mBits f))
  | .atom h f => some (Word.make h 0x86 (Word.mBits f))
  | .acas h f => some (Word.make h 0x87 (Word.mBits f))
  | .fence h f => some (Word.make h 0x88 (Word.sBits f))
  | .sptest h f => some (Word.make h 0x89 (Word.rBits f))
  | .spcast h f => some (Word.make h 0x8A (Word.rBits f))
  | .pref h f => some (Word.make h 0x8B (Word.mBits f))
  | .cwb h f => some (Word.make h 0x8C (Word.mBits f))
  | .cinv h f => some (Word.make h 0x8D (Word.mBits f))
  | .cpy h f => some (Word.make h 0xA0 (Word.sBits f))
  | .cpyt h f => some (Word.make h 0xA1 (Word.sBits f))
  | .cpyg h f => some (Word.make h 0xA2 (Word.sBits f))
  | .wtge h f => some (Word.make h 0xA3 (Word.mBits f))
  | .wteq h f => some (Word.make h 0xA4 (Word.mBits f))
  | .poll h f => some (Word.make h 0xA5 (Word.mBits f))
  | .mma h f => some (Word.make h 0xB0 (Word.xBits f))
  | .mmat h f => some (Word.make h 0xB1 (Word.xBits f))
  | .mzero h f => some (Word.make h 0xB2 (Word.xBits f))
  | .mdrain h f => some (Word.make h 0xB3 (Word.xBits f))
  | .mdrag h f => some (Word.make h 0xB4 (Word.xBits f))
  | .mpop h f => some (Word.make h 0xB5 (Word.xBits f))
  | .mpush h f => some (Word.make h 0xB6 (Word.xBits f))
  | .mtake h f => some (Word.make h 0xB7 (Word.xBits f))
  | .mgive h f => some (Word.make h 0xB8 (Word.xBits f))
  | .mstat h f => some (Word.make h 0xB9 (Word.xBits f))
  | .bar h f => some (Word.make h 0xC0 (Word.sBits f))
  | .barSet h f => some (Word.make h 0xC0 (Word.sBits f))
  | .bara h f => some (Word.make h 0xC1 (Word.sBits f))
  | .baraWait h f => some (Word.make h 0xC1 (Word.sBits f))
  | .baraRem h f => some (Word.make h 0xC1 (Word.sBits f))
  | .baraHdl h f => some (Word.make h 0xC1 (Word.sBits f))
  | .gbar h f => some (Word.make h 0xC2 (Word.sBits f))
  | .ldf h f => some (Word.make h 0xC3 (Word.mBits f))
  | .ldfe h f => some (Word.make h 0xC4 (Word.mBits f))
  | .stef h f => some (Word.make h 0xC5 (Word.mBits f))
  | .stf h f => some (Word.make h 0xC6 (Word.mBits f))
  | .fest h f => some (Word.make h 0xC7 (Word.mBits f))
  | .sigadd h f => some (Word.make h 0xC8 (Word.mBits f))
  | .twpart h f => some (Word.make h 0xC9 (Word.sBits f))
  | .twstat h f => some (Word.make h 0xCA (Word.sBits f))
  | .enq h f => some (Word.make h 0xD0 (Word.sBits f))
  | .enqt h f => some (Word.make h 0xD1 (Word.sBits f))
  | .spawn h f => some (Word.make h 0xD2 (Word.sBits f))
  | .scopeNew h f => some (Word.make h 0xD3 (Word.sBits f))
  | .cancel h f => some (Word.make h 0xD4 (Word.sBits f))
  | .cancelAck h f => some (Word.make h 0xD4 (Word.sBits f))
  | .scack h f => some (Word.make h 0xD5 (Word.sBits f))
  | .scinfo h f => some (Word.make h 0xD6 (Word.sBits f))
  | .sread h f => some (Word.make h 0xE0 (Word.sBits f))
  | .sreadV h f => some (Word.make h 0xE0 (Word.sBits f))
  | .swrite h f => some (Word.make h 0xE1 (Word.sBits f))
  | .bidw h f => some (Word.make h 0xE2 (Word.sBits f))
  | .bidr h f => some (Word.make h 0xE3 (Word.sBits f))
  | .priceR h f => some (Word.make h 0xE4 (Word.sBits f))
  | .leaseR h f => some (Word.make h 0xE5 (Word.sBits f))
  | .pcnt h f => some (Word.make h 0xE6 (Word.sBits f))
  | .clockR h f => some (Word.make h 0xE7 (Word.sBits f))
  | .keyz h f => some (Word.make h 0xE8 (Word.sBits f))
  | .keyzCtx h f => some (Word.make h 0xE8 (Word.sBits f))
  | .scrub h f => some (Word.make h 0xE9 (Word.sBits f))
  | .scrubStat h f => some (Word.make h 0xE9 (Word.sBits f))
  | .sleep h f => some (Word.make h 0xEA (Word.sBits f))
  | .sleepUntil h f => some (Word.make h 0xEA (Word.sBits f))
  | .fencePerformed .. => none
  | .varLatencyWriteback .. => none
  | .copyChunk .. => none
  | .memoryWaitSatisfied .. => none
  | .matrixKstep .. => none
  | .drainRowPush .. => none
  | .feWaiterServed .. => none
  | .enqRetry .. => none
  | .queueStall .. => none
  | .taskExamine .. => none
  | .cancelledWaveStop .. => none
  | .subtreeQuiet .. => none
  | .sleepWake .. => none
  | .instructionFetch .. => none
  | .trapDelivery .. => none
  | .faultDump .. => none
  | .doorbellWrite .. => none
  | .doorbellRead .. => none
  | .qcbWrite .. => none
  | .enable .. => none
  | .disable .. => none
  | .queueResume .. => none
  | .queueRelease .. => none
  | .packetConsume .. => none
  | .barrierPass .. => none
  | .launchComplete .. => none
  | .dispatchPlace .. => none
  | .defCharge .. => none
  | .clusterReserve .. => none
  | .dispatchSave .. => none
  | .gangStop .. => none
  | .bidFreeze .. => none
  | .publication .. => none
  | .intervalStart .. => none
  | .spinnaker .. => none
  | .migrationOffer .. => none
  | .migrationAccepted .. => none
  | .priceFlitReceive .. => none
  | .timeFlitSend .. => none
  | .timeFlitReceive .. => none
  | .access .. => none
  | .response .. => none
  | .responseTimeout .. => none
  | .reduceContribution .. => none
  | .keygenHoldTimeout .. => none
  | .ratlineFlit .. => none
  | .ratlineHoldEnd .. => none
  | .shard .. => none
  | .flitUnknownType .. => none
  | .linkTraining .. => none
  | .laneWithdraw .. => none
  | .bar4Read .. => none
  | .bar4Write .. => none
  | .hostAccessFail .. => none
  | .registerWrite .. => none
  | .violationLogRead .. => none
  | .tlbinv .. => none
  | .tlbInvalidateDone .. => none
  | .kmatWrite .. => none
  | .kstatWrite .. => none
  | .scrubcmd .. => none
  | .scrubPhase .. => none
  | .create .. => none
  | .reset .. => none
  | .ctxResetReroot .. => none
  | .tdcancel .. => none
  | .powerWindow .. => none
  | .eccError .. => none
  | .selfTestDone .. => none
  | .powerOn .. => none
  | .deviceReset .. => none
  | .boot .. => none
  | .faults .. => none
  | .policy .. => none
  | .discard .. => none
  | .resume .. => none
  | .stop .. => none
  | .release .. => none
  | .stall .. => none
  | .ckptSave .. => none
  | .ckptRestore .. => none
  | .reduce .. => none
  | .keygen .. => none
  | .ratline .. => none
  | .attest .. => none
  | .errlog .. => none
  | .podidx .. => none
  | .migrationRefused .. => none
  | .peerLost .. => none
  | .corePowerGate .. => none
  | .coreWake .. => none
  | .thermalTrip .. => none
  | .eventMessageHoldoff .. => none

end Sys2Proof
end

