-- ==== Sys2Proof/Config.lean ====
section
/-! DEFINITION. Config: what the part fixes and the spec leaves open. Every constant here is opaque: no proof can see its value. -/

namespace Sys2Proof.Config

/-- The free values: the n-th value drawn at a site (log entry 7). -/
opaque freeNat : Nat → Nat → Nat

/-- The set, within its way-column, of a line of the L2 (R350; log entry 8). -/
opaque l2Set : Nat → Nat

/-- Key material of slot 0, loaded by the firmware at boot (R343, R538; log entry 11): DATAKEY in the low 256 bits. -/
opaque slot0Key : BitVec 512

/-- Identity page values that the spec does not give (R541; log entry 14). -/
opaque stepping : W16
opaque romVersion : W32
opaque serial : BitVec 128

/-- The dies of the four clusters, of 16 on each of the four dies, that are not enabled (R2, R541; log entry 14). -/
opaque offDie : Fin 4 → Fin 4

/-- The secret identity key of the device, and the vendor's public key that the ROM holds (R537, R539; log entry 15). -/
opaque idSeed : BitVec 256
opaque vendorKey : BitVec 256

/-- What a firmware image carries (R537): its version, the bytes that are signed, the signature. -/
structure Firmware where
  version : W32
  signed : List Byte
  signature : List Byte
deriving DecidableEq, Repr, Inhabited

/-- How a firmware image is laid out, which the spec does not give (R537; log entry 15): none where its magic or its length is wrong. -/
opaque firmwareParts : List Byte → Option Firmware

/-- The nonce that a device's contribution to a job is sealed with, by device, job and key generation, which the spec does not give (R526; log
entry 15). -/
opaque gcmIv : Nat → Nat → Nat → BitVec 96

/-- The fused minimum firmware version (R537). -/
opaque fusedMinimum : W32

end Sys2Proof.Config
end

