-- ==== Sys2Proof/Machine/Sparse.lean ====
section
/-! DEFINITION. Sparse maps: lists of (key, value) pairs with strictly rising keys and no entry equal to what an unlisted
key reads as, so that equal maps are equal lists; and lane masks, byte strings and list helpers that every layer uses. -/

namespace Sys2Proof.Machine

/-- What a key reads as, d where it is not listed. -/
def sget {α : Type} (d : α) : List (Nat × α) → Nat → α
  | [], _ => d
  | (j, v) :: rest, k => if k = j then v else sget d rest k

/-- Puts a value at a key, in front of the first greater key. -/
def sinsert {α : Type} (k : Nat) (v : α) : List (Nat × α) → List (Nat × α)
  | [] => [(k, v)]
  | (j, w) :: rest =>
    if k = j then (k, v) :: rest else if k < j then (k, v) :: (j, w) :: rest else (j, w) :: sinsert k v rest

/-- Puts a value at a key and keeps the canonical form: the default is not listed. -/
def sput {α : Type} [DecidableEq α] (d : α) (k : Nat) (v : α) (m : List (Nat × α)) : List (Nat × α) :=
  if v = d then m.filter fun e => e.1 != k else sinsert k v m

/-- Keys rise strictly from lo on and no entry is the default. -/
def swfFrom {α : Type} [DecidableEq α] (d : α) : Nat → List (Nat × α) → Bool
  | _, [] => true
  | lo, (j, v) :: rest => decide (lo ≤ j) && decide (v ≠ d) && swfFrom d (j + 1) rest

/-- The canonical form. -/
def swf {α : Type} [DecidableEq α] (d : α) (m : List (Nat × α)) : Bool := swfFrom d 0 m

/-- Changes the value at one key. -/
def smod {α : Type} [DecidableEq α] (d : α) (k : Nat) (f : α → α) (m : List (Nat × α)) : List (Nat × α) :=
  sput d k (f (sget d m k)) m

/-- Drops the keys that fail a test. -/
def skeep {α : Type} (p : Nat → Bool) (m : List (Nat × α)) : List (Nat × α) := m.filter fun e => p e.1

/-! Numbered objects: lists of (number, object) in rising order of number. -/

def aget {α : Type} (m : List (Nat × α)) (k : Nat) : Option α := (m.find? fun e => e.1 == k).map fun e => e.2

def aput {α : Type} (k : Nat) (v : α) : List (Nat × α) → List (Nat × α)
  | [] => [(k, v)]
  | (j, w) :: rest =>
    if k = j then (k, v) :: rest else if k < j then (k, v) :: (j, w) :: rest else (j, w) :: aput k v rest

def amod {α : Type} (k : Nat) (f : α → α) (m : List (Nat × α)) : List (Nat × α) :=
  m.map fun e => if e.1 = k then (e.1, f e.2) else e

def adel {α : Type} (k : Nat) (m : List (Nat × α)) : List (Nat × α) := m.filter fun e => e.1 != k

/-! Sets of numbers: strictly rising lists. -/

def sins (k : Nat) : List Nat → List Nat
  | [] => [k]
  | j :: rest => if k = j then j :: rest else if k < j then k :: j :: rest else j :: sins k rest

def sdel (k : Nat) (m : List Nat) : List Nat := m.filter fun j => j != k

/-! Lane masks (R178): bit L stands for lane L. -/

abbrev Mask := W32

def Mask.has (m : Mask) (l : Nat) : Bool := m.getLsbD l

/-- The lanes of a mask in increasing order. -/
def Mask.lanes (m : Mask) : List Nat := (List.range 32).filter fun l => m.getLsbD l

def Mask.one (l : Nat) : Mask := BitVec.ofNat 32 (2 ^ l)

/-- The mask of the lanes that pass a test. -/
def Mask.of (p : Nat → Bool) : Mask :=
  (List.range 32).foldl (fun m l => if p l then m ||| Mask.one l else m) 0

def Mask.ofList (ls : List Nat) : Mask := ls.foldl (fun m l => m ||| Mask.one l) 0

def Mask.count (m : Mask) : Nat := (Mask.lanes m).length

/-- The lowest lane of a mask, 32 when there is none. -/
def Mask.lowest (m : Mask) : Nat := ((Mask.lanes m).head?).getD 32

/-! Byte strings, the lowest-addressed byte first (R3). -/

/-- The little-endian number of a byte string. -/
def natOfBytes (bs : List Byte) : Nat := bs.foldr (fun b acc => b.toNat + 256 * acc) 0

/-- The n little-endian bytes of a number. -/
def bytesOfNat : Nat → Nat → List Byte
  | 0, _ => []
  | n + 1, x => BitVec.ofNat 8 x :: bytesOfNat n (x / 256)

/-- The field of a little-endian record: n bytes from offset o. -/
def fieldAt (bs : List Byte) (o n : Nat) : Nat := natOfBytes ((bs.drop o).take n)

/-- A list with position i replaced; unchanged when there is none. -/
def setAt {α : Type} (i : Nat) (x : α) (l : List α) : List α := l.set i x

/-- A list with position i changed. -/
def modAt {α : Type} (i : Nat) (f : α → α) : List α → List α
  | [] => []
  | x :: rest => match i with
    | 0 => f x :: rest
    | j + 1 => x :: modAt j f rest

/-- The first n numbers n tests: the least k < n with p k. -/
def firstBelow (n : Nat) (p : Nat → Bool) : Option Nat := (List.range n).find? p

/-- Repeats a list's elements in rising order of a key, stably. -/
def insertBy {α : Type} (lt : α → α → Bool) (x : α) : List α → List α
  | [] => [x]
  | y :: rest => if lt x y then x :: y :: rest else y :: insertBy lt x rest

def sortBy {α : Type} (lt : α → α → Bool) (l : List α) : List α := l.foldl (fun acc x => insertBy lt x acc) []

/-- A 64-bit value of its two halves, the even register low (R37). -/
def pair64 (lo hi : W32) : W64 := hi ++ lo

def lo32 (x : W64) : W32 := x.extractLsb' 0 32

def hi32 (x : W64) : W32 := x.extractLsb' 32 32

/-- The next value of a 16-bit generation: rises by 1 and skips 0 (R89, R425). -/
def nextGen (g : W16) : W16 := if g + 1 = 0 then 1 else g + 1

end Sys2Proof.Machine
end

