-- ==== Sys2Proof/Machine/State.lean ====
section
/-! DEFINITION. State: every piece of state the spec gives the KX960, as plain data, and State.reset. -/

namespace Sys2Proof.Machine

/-- The only stop of a step. -/
inductive Fault
  /-- Raised by the meaning of an instruction word when State.cur names no live entry. Safe: step never runs an
  instruction word without an issuing entry. -/
  | noIssuer
deriving DecidableEq, Repr

/-- Refusals. -/
inductive Refusal
  /-- An instruction with no meaning yet, raised by its arm in Dispatch.lean. Safe. -/
  | notModelled (mnemonic : String)
deriving DecidableEq, Repr

/-- Cause codes (R47). -/
inductive Cause
  | illegalInstr | priv | window | align | addrNoncanon | pageNotPresent | pagePermission | spadForeign | spadRange
  | keyOwner | vaLost | poisonConsumed | frontierOverflow | noBaton | queueStall | fpInvalid | fpDivzero | fpOverflow
  | fpUnderflow | fpInexact | userTrap | breakpoint | feUntagged | scopeDead
deriving DecidableEq, Repr

/-- The code of a cause (R47). -/
def Cause.code : Cause → Byte
  | .illegalInstr => 0x01 | .priv => 0x02 | .window => 0x03 | .align => 0x04 | .addrNoncanon => 0x05
  | .pageNotPresent => 0x06 | .pagePermission => 0x07 | .spadForeign => 0x08 | .spadRange => 0x09 | .keyOwner => 0x0A
  | .vaLost => 0x0B | .poisonConsumed => 0x0C | .frontierOverflow => 0x0D | .noBaton => 0x0E | .queueStall => 0x0F
  | .fpInvalid => 0x10 | .fpDivzero => 0x11 | .fpOverflow => 0x12 | .fpUnderflow => 0x13 | .fpInexact => 0x14
  | .userTrap => 0x15 | .breakpoint => 0x16 | .feUntagged => 0x17 | .scopeDead => 0x18

/-! ## Waves (05, 14) -/

/-- Why an entry is HELD (R178, R240, R405, R506, R521). -/
inductive HeldFor | retry | exchange | fence | remote | scopeFree
deriving DecidableEq, Repr

/-- The scheduler-visible waits (R415). -/
inductive WaitFor
  | bar (b : Nat) (phase : W32)
  | gbar (g : Nat) (phase : W32)
  | mem
  | fe
  | enq (queue : Nat)
  | mtake
  | mpop
  | rendezvous
  | sleep (wake : Nat)
deriving DecidableEq, Repr

/-- The states of a frontier entry (R178). -/
inductive EntrySt
  | ready
  | fetch
  | held (why : HeldFor)
  | yield (upto : Nat)
  | join (j : Nat)
  | wait (why : WaitFor)
  | fault
deriving DecidableEq, Repr

/-- A sector of another device that an access needs, with the answer of its home once it has come; bad marks data that no answer
brought (R521). id is the ACCESS flit's; lane is the lane whose own step at the home it is, none for a sector that every lane shares. -/
structure Answered where
  id : Nat
  dev : Nat
  pa : Nat
  answer : Option Answer
  bad : Bool
  lane : Option Nat := none
deriving DecidableEq, Repr

/-- What a memory instruction does in one lane: the addresses and sizes it accesses, the data it stores, the value it compares
with, and the register word key its first result word goes to (R193, R415). -/
structure LaneOp where
  lane : Nat
  accs : List (W64 × Nat)
  data : List Byte
  cmp : List Byte
  dst : Option Nat
deriving DecidableEq, Repr

/-- A frontier entry (R178); insn, exec, done, vals and since belong to an instruction that keeps the entry HELD or in
WAIT: the instruction, its executing mask, the lanes already performed with their values (R491), what its lanes do (plan), and the clocks of the
wait so far or, while it runs, the clock it counts from (R444). latch is a word fetched ahead with its address (R173, R175); ylow the entries that must issue or leave READY
before this one is chosen again (R211); mark a yield marker still binding (R14). -/
structure Entry where
  pc : W64
  mask : W32
  pri : Byte
  pass : Nat
  st : EntrySt
  mark : Option Nat
  latch : Option (W64 × W64)
  ylow : List Nat
  insn : Option Instr
  exec : W32
  done : W32
  vals : List (Nat × W64)
  since : Int
  stamp : Nat
  plan : List LaneOp
  remote : List Answered
deriving DecidableEq, Repr

/-- A spilled path (R183). -/
structure Path where
  pc : W64
  mask : W32
  pri : Byte
  faulted : Bool
deriving DecidableEq, Repr

/-- A lane's fault record (R465); resume that the manager has resumed its lane and that its path stays parked only until there is room to split
it (R470). -/
structure FaultRec where
  cause : Cause
  skip : Bool
  pc : W64
  value : W64
  resume : Bool := false
deriving DecidableEq, Repr

/-- A user trap awaiting delivery (R276, R277, R457): lanes is the mask of the entry it is delivered to. -/
structure PTrap where
  cause : Cause
  code : W16
  mask : W32
  tdst : W32
  addr : W64
  lanes : W32
  seq : Nat
deriving DecidableEq, Repr

/-- One register word of a pending variable-latency result: key, value, poison (R191, R193). -/
structure RegWrite where
  key : Nat
  val : W32
  poison : Bool
deriving DecidableEq, Repr

/-- A pending variable-latency result with the flags and traps it brings when it lands (R189, R277). -/
structure Pend where
  seq : Nat
  writes : List RegWrite
  flags : W32
  trap : Option PTrap
deriving DecidableEq, Repr

/-- The state of a twin pair, as a wave sees it (R319, R440): none, JOINED, or PARTED with the cause. -/
inductive PairSt | none | joined | parted (cause : Nat)
deriving DecidableEq, Repr

/-- A wave (R176, R178 to R188, R453); a wave that awaits the baton it held when it was saved does not issue (R327). Register words have the key 32 × register + lane; vector registers are 0 to 1023
(physical), operand registers o0 to o7 are 2048 to 2055 (the index form of R230). -/
structure Wave where
  entries : List (Option Entry)
  spill : List (Option Path)
  regs : List (Nat × W32)
  l0 : List (Nat × W64)
  l1 : List (Nat × W64)
  poison : List Nat
  lpoison : List Nat
  preds : List W32
  jm : List W32
  wb : Nat
  nregs : Nat
  real : W32
  live : W32
  pend : List Pend
  nextSeq : Nat
  fpctl : W32
  fpflags : W32
  tcause : W32
  tpc : W64
  tmask : W32
  tdst : W32
  tval : List (Nat × W64)
  tvec : W64
  uten : Bool
  inh : Bool
  brkpark : Bool
  hmask : W32
  ptraps : List PTrap
  faults : List (Nat × FaultRec)
  pslot : Nat
  slot : Nat
  tileBase : Nat
  acct : Nat
  drainEmpty : Bool
  pair : PairSt
  wdefer : List WaveRef
  starve : Nat
  ended : Bool
  stopping : Bool
  awaitBaton : Bool
deriving DecidableEq, Repr

/-! ## Groups, gangs, launches (02, 13) -/

/-- A value of a uniform register that some waves may still see, and whether its writer has released it since (R236). -/
structure SVal where
  val : W32
  bad : Bool
  rel : Bool
deriving DecidableEq, Repr

/-- A uniform register whose last value is not ordered before every wave of its group yet (R236, R237): the wave that wrote it, whether that wave
has released it at a barrier or a fence since, and for each wave that it is not ordered before the older values that this wave may still see, the
first of which it sees now; with none it sees the last. -/
structure Unseen where
  reg : Nat
  owner : Nat
  rel : Bool
  views : List (Nat × List SVal)
deriving DecidableEq, Repr

/-- A group barrier (R419). -/
structure Bar where
  cnt : W32
  wm : W32
  xc : W16
  arr : W32
  pm : W32
  rc : W32
deriving DecidableEq, Repr

def Bar.start : Bar := { cnt := 0, wm := 0, xc := 0, arr := 0, pm := 0, rc := 0 }

/-- Where a group stands (R87, R466, R478). -/
inductive Place
  | resident (core : Nat)
  | saved
  | faulted (core : Nat)
  | dumped
  | ended
deriving DecidableEq, Repr

/-- The fields of a launch record (R66) with the image header's CODEOFF, DATAOFF and SCRATCH (R62). -/
structure LaunchRec where
  image : W64
  args : W64
  gridx : Nat
  gridy : Nat
  gridz : Nat
  waves : Nat
  gang : Nat
  twin : Bool
  vregs : Nat
  acct : Nat
  regbk : Nat
  spadbk : Nat
  l1bk : Nat
  pclass : Nat
  scope : W32
  done : W64
  tvec : W64
  fpctl : W32
  lanes : Nat
  preload : List W32
  codeoff : Nat
  dataoff : Nat
  datasize : Nat
  scratch : Nat
  digest : List Byte
deriving DecidableEq, Repr

/-- A group (R71, R65, R334, R419, R466): stop is the kind of the stop under way (R479), park a manager's wish to hold the gang behind
it (R478), idle the market intervals that began with all its waves waiting since it last issued (R417), left the core it ran on to its end (R494). -/
structure Group where
  launch : Nat
  gang : Nat
  rank : Nat
  ctx : Nat
  scope : W32
  queue : Nat
  gx : W32
  gy : W32
  gz : W32
  follower : Bool
  twin : Bool
  task : Option Nat
  waves : List Wave
  sregs : List (Nat × W32)
  spoison : List Nat
  scratch : List Host.Cell
  scPoison : List Nat
  scSize : Nat
  bars : List Bar
  tag : Nat
  place : Place
  cause : Option Nat
  stop : Option StopKind
  park : Bool
  idle : Nat
  unseen : List Unseen := []
  left : Option Nat := none
deriving DecidableEq, Repr

/-- What has become of a gang (R163, R478, R155). -/
inductive GangSt
  | unplaced
  | placed
  | saved
  | held
  | over
deriving DecidableEq, Repr

/-- A gang (R71, R87, R428); order ranks saved gangs (R163). -/
structure Gang where
  st : GangSt
  groups : List Nat
  cluster : Nat
  gphase : List W32
  garr : List (List (Nat × Nat))
  killed : List (Nat × Nat)
  order : Nat
deriving DecidableEq, Repr

/-- A launch (R66, R123, R495, R496): packet and number are its packet's index and running number. -/
structure Launch where
  ctx : Nat
  queue : Nat
  packet : Nat
  scope : W32
  autoScope : W32
  intr : Bool
  rcd : LaunchRec
  gangs : List Gang
  failed : Bool
  cancelled : Bool
  complete : Bool
  number : Nat := 0
deriving DecidableEq, Repr

/-! ## Matrix engines (09) -/

/-- A matrix operation in the queue: its word's instruction, its wave (the lead of a joined operation), the partner of a joined
operation, physical register numbers with the partner's own, its next step or row (R299, R326), and, when one twin was
cancelled or left alone, the product that is left: true the lead's, false the follower's (R328); of a joined drain whose follower's tile U has
left the engine, that tile, under keys from 0 on, with its poison. -/
structure MatOp where
  insn : Instr
  wave : WaveRef
  partner : Option WaveRef
  ra : Nat
  rb : Nat
  rs : Option Nat
  pra : Nat
  prs : Option Nat
  next : Nat
  only : Option Bool
  held : Option (List (Nat × W32) × List Nat) := none
deriving DecidableEq, Repr

/-- A row of the drain queue, tagged with the wave that will pop it (R315): 32 elements and their poison. -/
structure Row where
  tag : WaveRef
  elems : List (Nat × W32)
  poison : W32
deriving DecidableEq, Repr

/-- A matrix engine (R297). Tile elements have the key 1024 × tile + 32 × i + j. -/
structure Engine where
  tiles : List (Nat × W32)
  tpoison : List Nat
  ops : List MatOp
  drain : List Row
  holder : Option WaveRef
  fifo : List WaveRef
deriving DecidableEq, Repr

def Engine.start : Engine := { tiles := [], tpoison := [], ops := [], drain := [], holder := none, fifo := [] }

/-- A wave's share of its engine as an image holds it (R326, R490): tiles and their poison under keys relative to the wave's own
tile 0. -/
structure SavedEngine where
  gid : Nat
  wi : Nat
  tiles : List (Nat × W32)
  tpoison : List Nat
  ops : List MatOp
  rows : List Row
  baton : Bool
  req : Bool
deriving DecidableEq, Repr

/-! ## Memory (10, 11) -/

/-- Key material of a slot (R343): zero, loaded, or the firmware's own for slot 0. -/
inductive KeyMat
  | zero
  | loaded (bits : BitVec 512)
  | firmware
deriving DecidableEq, Repr

/-- The seal of a 32-byte sector: the key material and the tweak unit under which its bytes were encrypted (R340, R341). -/
structure Seal where
  key : KeyMat
  unit : Nat
deriving DecidableEq, Repr

/-- Device memory: the bytes as they read under their seal, as stored where there is none; full/empty states, poison and
LOST marks (R340, R430, R471, R475). -/
structure Mem where
  cells : List Host.Cell
  seals : List (Nat × Option Seal)
  full : List Nat
  poison : List Nat
  lost : List Nat
deriving DecidableEq, Repr

/-- A sector as HBM holds it while a line of the L2 holds newer bytes of it (R350): its bytes under their seal, the full/empty states of its
words, their poison. -/
structure Under where
  sec : Nat
  bytes : List Byte
  sealed : Option Seal
  full : BitVec 4
  bad : Byte
deriving DecidableEq, Repr

/-- How a line stands in the order of eviction (R362). -/
inductive LineMark | normal | stream | keep
deriving DecidableEq, Repr

/-- A line of the L2 (R350 to R352): the way-column that holds it, its number (physical address ÷ 128), its owner, its mark, its last use, whether
it stands in a pinned bank, and of each sector that is dirty what HBM holds. -/
structure L2Line where
  die : Nat
  way : Nat
  line : Nat
  ctx : Nat
  mark : LineMark
  stamp : Nat
  pinned : Bool
  dirty : List Under
deriving DecidableEq, Repr

/-- The L2 of all dies, a count of its uses, and the pages, by context and first address, that a TLB may hold (R349). -/
structure L2 where
  lines : List L2Line
  clock : Nat
  tlb : List (Nat × Nat)
deriving DecidableEq, Repr

def L2.start : L2 := { lines := [], clock := 0, tlb := [] }

/-- A key slot (R343). -/
structure KeySlot where
  assigned : Bool
  owner : Nat
  key : KeyMat
  loadedBytes : BitVec 64
  isLoaded : Bool
deriving DecidableEq, Repr

/-- The kinds of copy (R381) and who owns the copy. -/
inductive CopyKind | cpy | cpyt | cpyg
deriving DecidableEq, Repr

/-- The packet that a piece of work completes (R121, R124): its queue, its index and its running number there, its completion signal, its INTERRUPT flag,
the child scope made for it, 0 for none, its BARRIER BIT, and its scope. -/
structure PacketRef where
  queue : Nat
  index : Nat
  done : W64
  intr : Bool
  auto : W32
  number : Nat := 0
  hold : Bool := false
  scope : W32 := 0
deriving DecidableEq, Repr

/-- An operation of the dispatcher on a word (R127, R497): the source under which it is logged where it may not be performed, the word's address, its
number in R436 (6 adds), its operand. -/
structure WordStep where
  source : Nat
  addr : W64
  opn : Nat
  val : W64
deriving DecidableEq, Repr

/-- The completion of a packet as far as it has come (R124, R497): the operations on words that are to be performed, one after the other. -/
structure Completion where
  ctx : Nat
  pkt : PacketRef
  steps : List WordStep
deriving DecidableEq, Repr

/-- How a copy ends (R384, R385, R387): the cause, side and address of its record, none where it completes; whether it failed a check; and
how far its end has got: the record, then the operation on its counter. -/
structure CopyFate where
  report : Option (Nat × Nat × W64)
  failed : Bool
  recorded : Bool
  counted : Bool
deriving DecidableEq, Repr

/-- A copy in the engine (R379 to R387): tainted when poisoned data have been moved (R104); core is where it was accepted; rowIdx the
current row's index in a `cpyg`, once read (R382); sending the bytes of a chunk whose stores at other devices are not all answered (R396,
R521). -/
structure Copy where
  kind : CopyKind
  desc : List W32
  mode : Nat
  scp : Nat
  ctx : Nat
  scope : W32
  owner : Option (Nat × Nat)
  launch : Option Nat
  core : Nat
  packet : Option PacketRef
  slice : Nat
  slices : Nat
  row : Nat
  next : Nat
  halted : Bool
  tainted : Bool
  remote : List Answered
  rowIdx : Option Nat := none
  sending : Option Nat := none
  fate : Option CopyFate := none
  ch : Nat := 0
deriving DecidableEq, Repr

/-- A Casmos image (R484 to R491; log entry 13): its offset in the image pool, its LENGTH, and its bytes as the firmware reads them under key
slot 0, with the bodies as they are stored under IKEY. gids are the groups it holds that wait for a restore; of a dump it holds them whole, with
their copies and pending arrivals, while the groups of a saved gang stand in the machine's own list. engines are the waves' shares of their engines,
which the machine keeps nowhere else. -/
structure Image where
  at_ : Nat
  size : Nat
  bytes : List Byte
  kind : StopKind
  ctx : Nat
  cgen : W16
  ikey : Nat
  intno : Nat
  clk : Nat
  time : Nat
  vcl : Option Nat
  launch : Nat
  gang : Nat
  gids : List Nat
  engines : List SavedEngine
  groups : List (Nat × Group)
  copies : List (Nat × Copy)
  pendArr : List (Nat × W32)
  counters : List W64
deriving DecidableEq, Repr

/-- A task (R445 to R450). -/
inductive TaskSt | pending | ready | running
deriving DecidableEq, Repr

structure Task where
  entry : W64
  args : W64
  done : W64
  scope : W32
  autoScope : W32
  awaits : List W64
  st : TaskSt
  ctx : Nat
  queue : Nat
  launch : Nat
  order : Nat
deriving DecidableEq, Repr

/-! ## Scopes (02, 15) -/

inductive ScopeSt | free | live | dead
deriving DecidableEq, Repr

/-- A scope table slot (R89, R90, R94): auto marks a child made for a packet or a task, pkt one made for a packet, cut a scope
that a cancel named. -/
structure ScopeSlot where
  gen : W16
  st : ScopeSt
  ctx : Nat
  depth : Nat
  parent : W32
  auto : Bool
  pkt : Bool
  cut : Bool
deriving DecidableEq, Repr

/-- The state of a slot never used: the first handle has generation 1 (R89). -/
def ScopeSlot.start : ScopeSlot := 
  { gen := 0, st := .free, ctx := 0, depth := 0, parent := 0, auto := false, pkt := false, cut := false }

/-- An acknowledgement kept by the dispatcher (R500, R505): manager marks one asked for through TDCANCEL. -/
structure Ack where
  scope : W32
  addr : W64
  value : W64
  ctx : Nat
  manager : Bool
deriving DecidableEq, Repr

/-! ## Queues and host (03) -/

inductive QueueSt | free | disabled | active | error
deriving DecidableEq, Repr

/-- A BARRIER packet that makes passes: its context, DEPs, packet, effective scope, BARRIER BIT (R129). -/
structure BarrierPkt where
  ctx : Nat
  deps : List W64
  pkt : PacketRef
  scope : W32
  hold : Bool
deriving DecidableEq, Repr

/-- A queue's QCB (R109) with the dispatcher's progress (R111, R117, R123, R129): busy lists the packets dispatched and not
completed, with their BARRIER BIT, by their running numbers; first is the running number of the packet of index 0 since the last ENABLE. -/
structure Queue where
  qbase : W64
  log2size : BitVec 5
  pclass : BitVec 2
  ctx : BitVec 10
  vec : BitVec 11
  func : Byte
  qscope : W32
  qrptra : W64
  qwptra : W64
  st : QueueSt
  cause : BitVec 4
  erridx : BitVec 48
  qdbv : W64
  rindex : Nat
  bar : Option BarrierPkt
  busy : List (Nat × Bool)
  deficit : Int
  charged : Nat
  first : Nat := 0
deriving DecidableEq, Repr

def Queue.start : Queue :=
  { qbase := 0, log2size := 0, pclass := 0, ctx := 0, vec := 0, func := 0, qscope := 0, qrptra := 0, qwptra := 0, st := .free, cause := 0,
    erridx := 0, qdbv := 0, rindex := 0, bar := none, busy := [], deficit := 0, charged := 0 }

/-- An entry of the violation log (R108): BAR 0xFF for none; DIR 0 read, 1 write, 2 neither; context 0xFFFF for none. -/
structure Violation where
  source : Nat
  func : Nat
  bar : Nat
  dir : Nat
  ctx : Nat
  addr : W64
  clk : Nat
  detail : W64
deriving DecidableEq, Repr

/-! ## Market (04) -/

/-- The head of a ready list: a gang of a launch, a READY task, or the group of a saved task. -/
inductive Head
  | gang (launch gang : Nat)
  | task (n : Nat)
  | saved (gid : Nat)
deriving DecidableEq, Repr

/-- A pool's configuration (R142). -/
structure Pool where
  reserve : W32
  quota : W16
deriving DecidableEq, Repr

def Pool.start : Pool := { reserve := 0, quota := 0 }

/-- A tenant's configuration (R142, R162). -/
structure Tenant where
  rate : W64
  cap : W64
  valid : Bool
  floor : Bool
  floorw : Byte
deriving DecidableEq, Repr

def Tenant.start : Tenant := { rate := 0, cap := 0, valid := false, floor := false, floorw := 1 }

/-- A context's market configuration (R142). -/
structure CtxMkt where
  tenant : Byte
  valid : Bool
  pool : BitVec 10
  func : Byte
deriving DecidableEq, Repr

def CtxMkt.start : CtxMkt := { tenant := 0, valid := false, pool := 0, func := 0 }

/-- A tenant's SPINPOL register (R142). -/
structure SpinPol where
  enable : Bool
  streak : Byte
  gap : Byte
  maxage : BitVec 4
deriving DecidableEq, Repr

def SpinPol.start : SpinPol := { enable := false, streak := 8, gap := 25, maxage := 4 }

/-- The market configuration, of which the machine holds what was written and what is in force (R142, R143). Pools have the key
4 × class + pool. -/
structure MktCfg where
  interval : W16
  enable : Bool
  migin : Bool
  pools : List (Nat × Pool)
  wysplit : List (Nat × W32)
  vfceil : List (Nat × BitVec 128)
  tenants : List (Nat × Tenant)
  ctxs : List (Nat × CtxMkt)
  qweight : List (Nat × Byte)
  spin : List (Nat × SpinPol)
deriving DecidableEq, Repr

def MktCfg.start : MktCfg :=
  { interval := 200, enable := false, migin := false, pools := [], wysplit := [], vfceil := [], tenants := [], ctxs := [], qweight := [],
    spin := [] }

/-- A peer price table entry (R170). -/
structure Peer where
  interval : Nat
  age : Nat
  number : Nat
  price : List Nat
  unsold : List Nat
deriving DecidableEq, Repr

/-- A context's lease of one class (R151): UNITS, PAID, the units, FLOOR. -/
structure Lease where
  qty : Nat
  price : Nat
  units : List Nat
  floor : Bool
deriving DecidableEq, Repr

def Lease.none : Lease := { qty := 0, price := 0, units := [], floor := false }

/-- A pool's results: PRICE and SOLD (R142). -/
structure Result where
  price : W32
  sold : W16
deriving DecidableEq, Repr

def Result.start : Result := { price := 0, sold := 0 }

inductive MktPhase | open_ | frozen | published
deriving DecidableEq, Repr

/-- The market's state beside its configuration (04). Bid registers have the key 8 × context + class, leases too; pools' results
4 × class + pool. notFitted counts the interval starts in a row that find a head without a fit; reserved are the clusters kept for such heads (R165), handed
those that waiting gangs give up for a ready one (R417). length is the current interval's INTERVAL, lengthNext the next one's, startTime its T. -/
structure Market where
  cfgW : MktCfg
  cfgA : MktCfg
  length : W16
  lengthNext : W16
  intno : BitVec 48
  startTime : Nat
  phase : MktPhase
  pending : List (Nat × W64)
  frozen : List (Nat × W64)
  awards : List (Nat × Lease)
  outcome : List (Nat × Result)
  current : List (Nat × Lease)
  next : List (Nat × Lease)
  results : List (Nat × Result)
  purses : List (Nat × W64)
  counters : List (Nat × W64)
  floorOf : List (Nat × Nat)
  floorDef : List (Nat × Int)
  floorLast : Nat
  peers : List (Nat × Peer)
  spun : List Nat
  streakOf : List (Nat × Nat)
  excluded : List ((Nat × Nat) × Nat)
  rr : List (Nat × Nat)
  notFitted : List (Head × Nat)
  reserved : List (Nat × Head)
  handed : List (Nat × Head) := []
deriving DecidableEq, Repr

/-! ## Management (14, 15, 16) -/

/-- A fault list entry (R467). -/
structure FaultEntry where
  dumpid : Nat
  kind : Nat
  state : Nat
  cause : Nat
  aux : Nat
  ctx : Nat
  queue : Nat
  origin : Nat
  tag : Nat
  lanes : Nat
  pc : W64
  value : W64
  image : Nat
  time : Nat
  gid : Nat
deriving DecidableEq, Repr

/-- A device error log entry (R477). -/
structure ErrEntry where
  seq : Nat
  kind : Nat
  unit : Nat
  ctx : Nat
  count : Nat
  location : W64
  time : Nat
deriving DecidableEq, Repr

inductive BootSt
  | rom
  | running (version : W32) (digest : List Byte)
deriving DecidableEq, Repr

/-- A migrating context's state as its image carries it (R172, R487; log entry 13): images and groups under the source's numbers, the
PENDING bid registers of classes 0 to 4 with the notify register, counters, scopes, queue control blocks, tasks, launches, copies. -/
structure Migrant where
  ctx : Nat
  tenant : Nat
  dev : Nat
  cgen : W16
  images : List Image
  groups : List (Nat × Group)
  bids : List W64
  counters : List W64
  scopes : List (Nat × ScopeSlot)
  queues : List (Nat × Queue)
  tasks : List (Nat × Task)
  launches : List (Nat × Launch)
  copies : List (Nat × Copy)
  pendArr : List (Nat × W32)
deriving DecidableEq, Repr

/-- A reduction job of this node (R525 to R528): its descriptor, empty until REDUCE names it; the contributions opened, in the clear, those of a newer
generation with the clock of their arrival, and its state: 0 gathering, 1 sum sent on, 2 over; remote what it has asked other devices for, final
the values that it stores there. -/
structure Job where
  id : Nat
  tenant : Nat
  desc : List Byte
  got : List Contribution
  held : List (Nat × Contribution)
  state : Nat
  remote : List Answered := []
  final : Option (List W64) := none
deriving DecidableEq, Repr

/-- A flit or host message the device has sent (R124, R519): outputs, which nothing in the machine reads back. -/
inductive Sent
  | msix (func vec : Nat)
  | access (req : AccessReq)
  | response (dev id : Nat) (answer : Answer)
  | price (flit : PriceFlit)
  | time (value : Nat)
  | ratline (r : Ratline)
  | contribution (dev : Nat) (c : Contribution)
  | shard (dev : Nat) (sh : Shard)
  | offer (ctx dev : Nat)
  | image (dev : Nat) (m : Migrant)
  | accepted (ctx dev : Nat)
  | refused (ctx dev : Nat)
  | keygenStale (job child : Nat)
deriving DecidableEq, Repr

/-- Who waits for a remote access: an entry, a copy, an event of the machine's own, a reduction or a packet's completion that goes on with the answer,
nobody, or nobody but a line of the violation log where the store fails (source, function, BAR, context, address, DETAIL; R108). -/
inductive AccessOwner
  | entry (at_ : EntryRef)
  | copy (n : Nat)
  | event (i : Instr)
  | job (id : Nat)
  | post (source func bar ctx : Nat) (addr detail : W64)
  | completion (c : Completion)
  | nobody
deriving DecidableEq, Repr

/-- An ACCESS flit without its answer (R521), with the launch, the scope and the context of the work that sent it (R495, R504): whether it stores,
and whether its home has answered that its full/empty step waits there. -/
structure OutAccess where
  id : Nat
  owner : AccessOwner
  launch : Option Nat
  scope : W32
  dev : Nat
  pa : Nat
  sentAt : Nat
  stores : Bool := false
  waiting : Bool := false
  ctx : Nat := 0
deriving DecidableEq, Repr

/-- A peer's full/empty step that waits at its word here, with its place among the waiters (R434, R521). -/
structure PeerWait where
  req : AccessReq
  stamp : Nat
deriving DecidableEq, Repr

/-- A sector of another device as its home has answered it, while an access reads it; no line stands between steps. -/
structure CacheLine where
  dev : Nat
  pa : Nat
  bytes : List Byte
  full : BitVec 4
  words : Byte
  bad : Bool
deriving DecidableEq, Repr

/-- A fabric key of a tenant: generation, key (R526). -/
structure FabKey where
  gen : Nat
  key : BitVec 256
  prev : Option (Nat × BitVec 256)
deriving DecidableEq, Repr

/-- Management plane state: teardown page, logs, firmware, power and fabric (14, 15, 16). headers lists the headers of the flits sent, and seqs the next
sequence number of each TYPE (R519). outNext lists the units that leave the market
at the next freeze (R474): clusters (0), way-columns (1, with their die), lanes (2). -/
structure Mgmt where
  boot : BootSt
  mbBusy : Bool
  mbStatus : Byte
  mbCode : W16
  mbVec : BitVec 11
  mbEn : Bool
  podidx : Option (BitVec 10)
  faultList : List (Nat × List FaultEntry)
  faultLost : List (Nat × Nat)
  nextDump : Nat
  policyHold : List Nat
  stallNs : List (Nat × Nat)
  pendArr : List (Nat × W32)
  errlog : List ErrEntry
  errLost : Nat
  evcnt : W64
  holdoff : Option Nat
  evPending : Bool
  scrubPhase : Nat
  scrubCtx : Nat
  scrubUnits : Nat
  scrubTotal : Nat
  scrubTags : Bool
  scrubBusy : Bool
  scrubRestarted : Bool
  ctxLast : W64
  ctxBusy : Option Nat
  tdAckA : W64
  tdAckV : W64
  tdStat : W64
  tdblk : List Nat
  ctxgen : List (Nat × W16)
  links : List (Nat × Nat)
  peersAt : List (Nat × Nat)
  lanesDown : List Nat
  linkErrs : Nat
  fsen : Bool
  bsen : Bool
  fstep : W16
  bsstep : W16
  bsfloor : W16
  pwrnow : W16
  luffe : W64
  ratEpoch : W32
  ratHold : Option Nat
  thermal : Bool
  placeBudget : Bool
  timeSent : Bool
  fabKeys : List (Nat × FabKey)
  jobs : List Job
  outAccess : List OutAccess
  rcache : List CacheLine
  asked : List (Instr × List Answered)
  peerWaits : List PeerWait
  nextAccess : Nat
  dead : List Nat
  withheld : List Nat
  wayDown : List (Nat × Nat)
  fenced : List UnitLoc
  gated : List Nat
  outNext : List (Nat × Nat × Nat)
  images : List Image
  inbound : List Migrant
  migrating : List (Nat × Nat)
  parity : List (Nat × List Byte)
  sent : List Sent
  headers : List (List Byte) := []
  seqs : List (Nat × Nat) := []
deriving DecidableEq, Repr

/-- The host's side (03, 10): memory, configuration space and pages, the violation log; numVFs the VFs that the PF's SR-IOV capability enables (R110),
aer the uncorrectable non-fatal errors that AER has logged (R104). -/
structure HostSide where
  cells : List Host.Cell
  failing : Option Bool
  vlog : List Violation
  vlost : W32
  msix : List (Nat × W64)
  msixPba : List Nat
  numVFs : Nat
  bar4 : List (Nat × Nat)
  ctxtBase : W64
  tlbVa : W64
  tlbBusy : List W64
  readData : List (List Byte)
  aer : Nat := 0
deriving DecidableEq, Repr

/-- What the machine does next (log entry 6): an entry issues, an event of the table happens, clocks pass; the host reads a register (R540), sets the
number of enabled VFs, 0 with VF Enable clear (R110), or resets a function (R102); some words of a pending result land before the others (R192). -/
inductive Action
  | issue (at_ : EntryRef)
  | event (i : Instr)
  | clocks (n : Nat)
  | hostRead (func off size : Nat)
  | enableVFs (n : Nat)
  | resetFunction (func : Nat)
  | writeback (wave : WaveRef) (seq : Nat) (keys : List Nat)
deriving DecidableEq, Repr

/-- The machine. TIME runs from timeBase with the clock, and slews by slew ns from clock slewAt on (R522). What other agents
bring while the HBM row it reaches is under test stands in stalled (R473). -/
structure State where
  clk : Nat
  timeBase : Int
  slew : Int
  slewAt : Nat
  agenda : List Action
  cur : Option EntryRef
  free : Nat
  turn : Nat
  groups : List (Nat × Group)
  nextGid : Nat
  launches : List (Nat × Launch)
  nextLaunch : Nat
  engines : List (Nat × Engine)
  copies : List (Nat × Copy)
  nextCopy : Nat
  tasks : List (Nat × Task)
  nextTask : Nat
  order : Nat
  mem : Mem
  keys : List (Nat × KeySlot)
  scopes : List (Nat × ScopeSlot)
  acks : List Ack
  queues : List (Nat × Queue)
  market : Market
  host : HostSide
  mgmt : Mgmt
  l2 : L2 := L2.start
  stalled : List Action := []
deriving DecidableEq, Repr

def Mem.start : Mem := { cells := [], seals := [], full := [], poison := [], lost := [] }

/-- A key slot at power-on (R343). -/
def KeySlot.start : KeySlot := { assigned := false, owner := 0, key := .zero, loadedBytes := 0, isLoaded := false }

/-- The generations of contexts at power-on (R425). -/
def CtxGen.start : W16 := 1

def Market.start : Market :=
  { cfgW := MktCfg.start, cfgA := MktCfg.start, length := 200, lengthNext := 200, intno := 0, startTime := 0, phase := .open_, pending := [],
    frozen := [], awards := [], outcome := [], current := [], next := [], results := [], purses := [], counters := [], floorOf := [],
    floorDef := [], floorLast := 255, peers := [], spun := [], streakOf := [], excluded := [], rr := [], notFitted := [], reserved := [] }

def Mgmt.start : Mgmt :=
  { boot := .rom, mbBusy := false, mbStatus := 0, mbCode := 0, mbVec := 0, mbEn := false, podidx := none, faultList := [],
    faultLost := [], nextDump := 1, policyHold := [], stallNs := [], pendArr := [], errlog := [], errLost := 0, evcnt := 0,
    holdoff := none, evPending := false, scrubPhase := 0, scrubCtx := 0, scrubUnits := 0, scrubTotal := 0, scrubTags := false, scrubBusy := false, scrubRestarted := false,
    ctxLast := 0, ctxBusy := none, tdAckA := 0, tdAckV := 0, tdStat := 0, tdblk := [], ctxgen := [], links := [], peersAt := [],
    lanesDown := [], linkErrs := 0, fsen := true, bsen := true, fstep := 150, bsstep := 150, bsfloor := 0, pwrnow := 0, luffe := 0,
    ratEpoch := 0, ratHold := none, thermal := false, placeBudget := true, timeSent := false, fabKeys := [], jobs := [], outAccess := [], rcache := [], asked := [], peerWaits := [],
    nextAccess := 0, dead := [], withheld := [], wayDown := [], fenced := [], gated := [], outNext := [], images := [],
    inbound := [], migrating := [], parity := [], sent := [] }

def HostSide.start : HostSide :=
  { cells := [], failing := none, vlog := [], vlost := 0, msix := [], msixPba := [], numVFs := 0, bar4 := [], ctxtBase := 0,
    tlbVa := 0, tlbBusy := [], readData := [] }

/-- The machine right after power-on (R517, R537): the boot ROM waits for BOOT, every register at the value the spec states and,
where it states none, at the value that INVENTORY.md and the assumption log name. -/
def State.reset : State :=
  { clk := 0, timeBase := 0, slew := 0, slewAt := 0, agenda := [], cur := none, free := 0, turn := 0, groups := [], nextGid := 0, launches := [], nextLaunch := 0,
    engines := [], copies := [], nextCopy := 0, tasks := [], nextTask := 0, order := 0, mem := Mem.start, keys := [],
    scopes := [], acks := [], queues := [], market := Market.start, host := HostSide.start, mgmt := Mgmt.start }

end Sys2Proof.Machine
end

