-- ==== Sys2Proof/Machine/Ops.lean ====
section
/-! DEFINITION. Ops: access to waves and entries, the issuing context, the executing mask, register words, paths of a branch,
parking, `join`, and taking a trap with the return from one. -/

namespace Sys2Proof.Machine

/-! ## Access -/

def State.group? (s : State) (g : Nat) : Option Group := aget s.groups g

def State.modGroup (s : State) (g : Nat) (f : Group → Group) : State := { s with groups := amod g f s.groups }

def State.wave? (s : State) (g w : Nat) : Option Wave := (s.group? g).bind fun gr => gr.waves[w]?

def State.setWave (s : State) (g w : Nat) (v : Wave) : State := s.modGroup g fun gr => { gr with waves := setAt w v gr.waves }

def State.modWave (s : State) (g w : Nat) (f : Wave → Wave) : State :=
  s.modGroup g fun gr => { gr with waves := modAt w f gr.waves }

def Wave.entry? (w : Wave) (i : Nat) : Option Entry := (w.entries[i]?).join

def Wave.setEntry (w : Wave) (i : Nat) (e : Option Entry) : Wave := { w with entries := setAt i e w.entries }

def Wave.modEntry (w : Wave) (i : Nat) (f : Entry → Entry) : Wave :=
  { w with entries := modAt i (fun e => e.map f) w.entries }

/-- The issuing wave and entry (State.cur). -/
structure Issue where
  ref : EntryRef
  g : Group
  w : Wave
  e : Entry
deriving DecidableEq, Repr

/-- The entry that State.cur names, when it is live. -/
def State.issuer? (s : State) : Option Issue :=
  match s.cur with
  | none => none
  | some r =>
    match s.group? r.gid with
    | none => none
    | some g =>
      match g.waves[r.wi]? with
      | none => none
      | some w => (w.entry? r.slot).map fun e => { ref := r, g := g, w := w, e := e }

/-- The issue of an entry that is held or waits. -/
def State.issueOf (s : State) (r : EntryRef) : Option Issue := { s with cur := some r }.issuer?

/-- Runs a meaning for the issuing entry. -/
def withIssuer (s : State) (k : Issue → State) : Host.Outcome State Fault Refusal :=
  match s.issuer? with
  | some x => .next (k x)
  | none => .fault .noIssuer

/-- The executing mask (R12). -/
def execMask (h : Hdr) (w : Wave) (e : Entry) : Mask :=
  if h.ge then
    let p := w.preds[h.gp.toNat]?.getD 0
    e.mask &&& (if h.gn then ~~~p else p)
  else e.mask

/-- EXEC of the issuing instruction; an instruction that was held keeps the mask it issued with. -/
def Issue.exec (x : Issue) (h : Hdr) : Mask := if x.e.insn.isSome then x.e.exec else execMask h x.w x.e

/-- EXEC holds a lane that is not a helper lane: an instruction that acts once for its wave takes effect (R13). -/
def Issue.acts (x : Issue) (h : Hdr) : Bool := decide (x.exec h &&& x.w.real ≠ 0)

/-- The helper lanes of a wave that are live (R74). -/
def Wave.helpers (w : Wave) : Mask := w.live &&& ~~~w.real

/-- The wave runs at manager level: its context is 0 (R499). -/
def Group.isManager (g : Group) : Bool := decide (g.ctx = 0)

/-! ## Register words (R35 to R38, R191) -/

/-- Keys of operand registers start at register 2048, the index form of R230; keys of uniform registers at 131072. -/
def oBase : Nat := 2048
def sBase : Nat := 131072

def regKey (reg lane : Nat) : Nat := 32 * reg + lane

/-- The register number a vector or operand code names (R36, R198). -/
def Wave.physOf (w : Wave) (code : Nat) : Nat := if code < 0x80 then w.wb + code else oBase + (code - 0x80)

/-- What a register word holds, pending results aside. -/
def Wave.rawReg (w : Wave) (reg lane : Nat) : W32 := sget 0 w.regs (regKey reg lane)

/-- The values of pending results for a key (R191). -/
def Wave.pendingAt (w : Wave) (key : Nat) : List RegWrite :=
  (w.pend.flatMap fun p => p.writes).filter fun r => r.key == key

/-- A read of a register word: the value before a pending write, or one that a pending write stores; which is free (R191, R192). -/
def Wave.readKey (w : Wave) (free key : Nat) (before : W32 × Bool) : W32 × Bool :=
  match w.pendingAt key with
  | [] => before
  | ps => ((before :: ps.map fun p => (p.val, p.poison))[Config.freeNat free key % (ps.length + 1)]?).getD before

/-- A register word and whether it is poisoned. -/
def Wave.readReg (w : Wave) (free reg lane : Nat) : W32 × Bool :=
  w.readKey free (regKey reg lane) (w.rawReg reg lane, decide (regKey reg lane ∈ w.poison))

/-- Writes a register word; the write clears or sets its poison (R471). -/
def Wave.putReg (w : Wave) (reg lane : Nat) (v : W32) (bad : Bool) : Wave :=
  { w with regs := sput 0 (regKey reg lane) v w.regs,
           poison := if bad then sins (regKey reg lane) w.poison else sdel (regKey reg lane) w.poison }

/-- The last-result update of a fixed-latency result in one lane (R196, R38). -/
def Wave.putLast (w : Wave) (lane : Nat) (v : W64) : Wave :=
  { w with l1 := sput 0 lane (sget 0 w.l0 lane) w.l1, l0 := sput 0 lane v w.l0,
           lpoison := let old := fun (k : Nat) (p : List Nat) => if k ∈ w.lpoison then sins (64 + k) p else sdel (64 + k) p
                      sdel lane (sdel (128 + lane) (old (128 + lane) (old lane w.lpoison))) }

/-- What a wave sees in a uniform register, pending results aside (R236; log entry 5). -/
def Group.seenAt (g : Group) (wi n : Nat) : W32 × Bool :=
  match (g.unseen.find? fun u => u.reg == n).bind fun u => (aget u.views wi).bind List.head? with
  | some v => (v.val, v.bad)
  | none => (sget 0 g.sregs n, decide (n ∈ g.spoison))

/-- A uniform register as the issuing wave reads it, with its poison (R35, R191, R236). -/
def readSreg (x : Issue) (free n : Nat) : W32 × Bool := x.w.readKey free (sBase + n) (x.g.seenAt x.ref.wi n)

/-- A value reaches the group's uniform file. -/
def Group.setSreg (g : Group) (n : Nat) (v : W32) (bad : Bool) : Group :=
  { g with sregs := sput 0 n v g.sregs, spoison := if bad then sins n g.spoison else sdel n g.spoison }

/-- The waves of a group that may still read beside one of them. -/
def Group.otherWaves (g : Group) (wi : Nat) : List Nat :=
  (List.range g.waves.length).filter fun i => i != wi && !(match g.waves[i]? with
    | some w => w.ended
    | none => true)

/-- A wave writes a uniform register. Another wave's value that is not ordered before it may be the later in the order in which they reach the file,
which is a free value (R236, R237; log entry 5); the waves beside the writer may go on seeing the value before. -/
def Group.putSreg (g : Group) (wi free n : Nat) (v : W32) (bad : Bool) : Group :=
  let old : SVal := { val := sget 0 g.sregs n, bad := decide (n ∈ g.spoison), rel := true }
  match g.unseen.find? fun u => u.reg == n with
  | none =>
    let os := g.otherWaves wi
    let g := g.setSreg n v bad
    if os.isEmpty then g else { g with unseen := g.unseen ++ [{ reg := n, owner := wi, rel := false, views := os.map fun i => (i, [old]) }] }
  | some u =>
    let put := fun (u' : Unseen) => g.unseen.map fun w => if w.reg = n then u' else w
    if (aget u.views wi).isSome && decide (Config.freeNat free (460000 + n) % 2 = 1) then
      let v : SVal := { val := v, bad := bad, rel := false }
      { g with unseen := put { u with views := u.views.map fun p =>
          (p.1, if p.1 = wi then [v] else if p.2.isEmpty then [] else p.2 ++ [v]) } }
    else
      let views := (g.otherWaves wi).map fun i => (i, (aget u.views i).getD [] ++ [{ old with rel := u.rel }])
      { (g.setSreg n v bad) with unseen := put { reg := n, owner := wi, rel := false, views := views } }

/-- A wave writes uniform registers n, n + 1, …, each on its own, each clearing its poison. -/
def Group.putSregs (g : Group) (wi free n : Nat) : List W32 → Group
  | [] => g
  | v :: vs => (g.putSreg wi free n v false).putSregs wi free (n + 1) vs

/-- A wave arrives at a barrier or performs a releasing fence: what it has written is ordered before those who acquire it (R236, R424). -/
def Group.releaseSregs (g : Group) (wi : Nat) : Group :=
  { g with unseen := g.unseen.map fun u => { u with rel := u.rel || decide (u.owner = wi) } }

/-- The values from the last released one on. -/
def fromReleased (l : List SVal) : List SVal :=
  l.foldl (fun acc v => if v.rel then [v] else acc ++ [v]) []

/-- A wave acquires at group scope: it sees every value released before (R236, R424). -/
def Group.acquireSregs (g : Group) (wi : Nat) : Group :=
  { g with unseen := (g.unseen.map fun u => { u with
      views := if u.rel then u.views.filter (fun p => p.1 != wi)
        else u.views.map fun p => if p.1 = wi then (p.1, fromReleased p.2) else p }).filter (fun u => !u.views.isEmpty) }

/-- As time passes a wave may come to see later values of a uniform register; how many is a free value (R236). -/
def Group.catchUp (g : Group) (free gid : Nat) : Group :=
  { g with unseen := g.unseen.map fun u => { u with views := u.views.map fun p =>
      (p.1, p.2.drop (Config.freeNat free (2 ^ 20 * (gid + 1) + 32 * u.reg + p.1) % (p.2.length + 1))) } }

/-! ## Leaving an instruction (R14, R178, R179) -/

/-- Some result issued before number n is still pending. -/
def Wave.pendBefore (w : Wave) (n : Nat) : Bool := w.pend.any fun p => decide (p.seq < n)

/-- An entry with its instruction's yield marker armed: it covers the results issued before number n (R14). An instruction that was
held keeps the marker it issued with. -/
def Entry.arm (e : Entry) (h : Hdr) (n : Nat) : Entry :=
  if e.insn.isSome then e else { e with mark := if h.y then some n else none }

/-- An entry that goes on: YIELD while its marker still binds, else READY (R14). -/
def Wave.goOn (w : Wave) (e : Entry) : Entry :=
  let st := match e.mark with
    | some n => if w.pendBefore n then EntrySt.yield n else .ready
    | none => .ready
  { e with st := st, mark := none, latch := none, insn := none, exec := 0, done := 0, vals := [], since := 0, stamp := 0, plan := [], remote := [] }

/-- An entry after an instruction without a branch: the next instruction, then the yield marker. -/
def Issue.next (x : Issue) (h : Hdr) (w : Wave) : Entry :=
  w.goOn { (x.e.arm h x.w.nextSeq) with pc := x.e.pc + 8 }

/-- Ends an instruction without a branch: stores the wave, its entry at the next instruction. -/
def finish (s : State) (x : Issue) (h : Hdr) (w : Wave) : State :=
  s.setWave x.ref.gid x.ref.wi (w.setEntry x.ref.slot (some (x.next h w)))

/-! ## Paths, spill slots and join (R181 to R188) -/

/-- A path on its way into the frontier (R181). -/
structure NewPath where
  mask : Mask
  pc : W64
  pri : Byte
  faulted : Bool
deriving DecidableEq, Repr

def Entry.fresh (p : NewPath) : Entry :=
  { pc := p.pc, mask := p.mask, pri := p.pri, pass := 0, st := if p.faulted then .fault else .ready, mark := none, latch := none, ylow := [],
    insn := none, exec := 0, done := 0, vals := [], since := 0, stamp := 0, plan := [], remote := [] }

/-- The lowest free frontier entry, and the lowest free spill slot. -/
def Wave.freeEntry (w : Wave) : Option Nat := firstBelow 8 fun i => (w.entry? i).isNone
def Wave.freeSpill (w : Wave) : Option Nat := firstBelow 8 fun i => ((w.spill[i]?).join).isNone

/-- How many more paths the wave can hold (R181, R185). -/
def Wave.room (w : Wave) : Nat :=
  ((List.range 8).filter fun i => (w.entry? i).isNone).length + ((List.range 8).filter fun i => ((w.spill[i]?).join).isNone).length

/-- Places a path in a free entry, else in a free spill slot (R181). -/
def Wave.placePath (w : Wave) (p : NewPath) : Wave :=
  match w.freeEntry with
  | some i => w.setEntry i (some (Entry.fresh p))
  | none =>
    match w.freeSpill with
    | some i => { w with spill := setAt i (some { pc := p.pc, mask := p.mask, pri := p.pri, faulted := p.faulted }) w.spill }
    | none => w

/-- The spilled path that a free entry takes: highest priority, then lowest slot (R184). -/
def Wave.bestSpill (w : Wave) : Option (Nat × Path) :=
  (List.range 8).foldl (fun best i =>
    match (w.spill[i]?).join, best with
    | some p, some (j, q) => if q.pri.toNat < p.pri.toNat then some (i, p) else some (j, q)
    | some p, none => some (i, p)
    | none, b => b) none

/-- Fills one free entry from the spill slots. -/
def Wave.fillOne (w : Wave) : Wave :=
  match w.freeEntry, w.bestSpill with
  | some i, some (j, p) =>
    { w.setEntry i (some (Entry.fresh { mask := p.mask, pc := p.pc, pri := p.pri, faulted := p.faulted })) with
      spill := setAt j none w.spill }
  | _, _ => w

/-- Frees the entries without lanes and fills free entries from the spill slots (R184). -/
def Wave.fill (w : Wave) : Wave :=
  let w := { w with entries := w.entries.map fun oe => oe.filter fun e => decide (e.mask ≠ 0) }
  (List.range 8).foldl (fun w _ => w.fillOne) w

/-- The lanes parked in JOIN on register k (R187). -/
def Wave.joined (w : Wave) (k : Nat) : Mask :=
  w.entries.foldl (fun m oe => match oe with
    | some e => if e.st = .join k then m ||| e.mask else m
    | none => m) 0

/-- The release condition of rejoin register k (R187). -/
def Wave.joinReady (w : Wave) (k : Nat) : Bool :=
  decide ((w.jm[k]?.getD 0) &&& w.live &&& ~~~(w.joined k) = 0)

/-- Merges the entries parked in JOIN on k at one address into the first of them (R188). -/
def Wave.mergeAt (w : Wave) (k : Nat) (pc : W64) : Wave :=
  let slots := (List.range 8).filter fun i => match w.entry? i with
    | some e => decide (e.st = .join k) && decide (e.pc = pc)
    | none => false
  match slots with
  | [] => w
  | i :: _ =>
    let es := slots.filterMap w.entry?
    let mask := es.foldl (fun m e => m ||| e.mask) 0
    let pri := es.foldl (fun p e => if p.toNat < e.pri.toNat then e.pri else p) 0
    let mark := es.foldl (fun m e => match m, e.mark with
      | some a, some b => some (max a b)
      | some a, none => some a
      | none, b => b) none
    let w' := slots.foldl (fun w j => w.setEntry j none) w
    let e := (Entry.fresh { mask := mask, pc := pc + 8, pri := pri, faulted := false })
    w'.setEntry i (some (w'.goOn { e with mark := mark }))

/-- Releases register k when its condition holds (R188). -/
def Wave.releaseJoin (w : Wave) (k : Nat) : Wave :=
  if w.joined k ≠ 0 && w.joinReady k then
    (w.entries.filterMap fun oe => oe.bind fun e => if e.st = .join k then some e.pc else none).foldl (fun w pc => w.mergeAt k pc) w
  else w

/-- Adds a lane to the path of its target. -/
def addPath (l : Nat) (pc : W64) (pri : Byte) : List NewPath → List NewPath
  | [] => [{ mask := Mask.one l, pc := pc, pri := pri, faulted := false }]
  | p :: ps =>
    if p.pc = pc ∧ p.pri = pri then { p with mask := p.mask ||| Mask.one l } :: ps else p :: addPath l pc pri ps

/-! ## Paths that go on after a fault (R470) -/

/-- Where a lane of a path parked at an address goes on: at its faulting instruction, or past it with SKIP; a lane without a record goes with the
others where the path stands at that instruction, else on from where the path stands (R360, R470). -/
def Wave.resumeAt (w : Wave) (pc : W64) (m : Mask) (l : Nat) : W64 :=
  match aget w.faults l with
  | some r => if r.skip then r.pc + 8 else r.pc
  | none =>
    let rs := (Mask.lanes m).filterMap fun k => aget w.faults k
    if rs.all (fun r => r.skip) && rs.any (fun r => decide (r.pc = pc)) then pc + 8 else pc

/-- The paths that a path parked in FAULT becomes. -/
def Wave.resumedPaths (w : Wave) (pc : W64) (pri : Byte) (m : Mask) : List NewPath :=
  (Mask.lanes m).foldl (fun ps l => addPath l (w.resumeAt pc m l) pri ps) []

/-- The manager has resumed the lanes of a parked path. -/
def Wave.resuming (w : Wave) (m : Mask) : Bool :=
  let rs := (Mask.lanes m).filterMap fun l => aget w.faults l
  !rs.isEmpty && rs.all fun r => r.resume

/-- The records of the lanes of a mask are gone. -/
def Wave.dropRecords (w : Wave) (m : Mask) : Wave := { w with faults := w.faults.filter fun f => !m.getLsbD f.1 }

/-- A resumed entry goes on, split in two where its lanes differ; it stays parked while there is no room for both. -/
def Wave.resumeSlot (w : Wave) (slot : Nat) : Wave :=
  match w.entry? slot with
  | some e =>
    if e.st = .fault && w.resuming e.mask then
      match w.resumedPaths e.pc e.pri e.mask with
      | [] => w
      | p :: ps =>
        if w.room < ps.length then w
        else (ps.foldl Wave.placePath (w.setEntry slot (some (w.goOn { e with mask := p.mask, pc := p.pc })))).dropRecords e.mask
    else w
  | none => w

/-- A resumed path in a spill slot. -/
def Wave.resumeSpill (w : Wave) (i : Nat) : Wave :=
  match (w.spill[i]?).join with
  | some q =>
    if q.faulted && w.resuming q.mask then
      match w.resumedPaths q.pc q.pri q.mask with
      | [] => w
      | p :: ps =>
        if w.room < ps.length then w
        else (ps.foldl Wave.placePath { w with spill := setAt i (some { q with pc := p.pc, mask := p.mask, faulted := false }) w.spill }).dropRecords q.mask
    else w
  | none => w

/-- Every resumed path of a wave goes on that there is room for. -/
def Wave.resumeParked (w : Wave) : Wave :=
  (List.range 8).foldl Wave.resumeSpill ((List.range 8).foldl Wave.resumeSlot w)

/-- Everything that follows a change of the frontier inside one wave: releases at `join`, freed entries, spilled paths, resumed paths. -/
def Wave.settle (w : Wave) : Wave :=
  let w := ((List.range 8).foldl (fun w k => w.releaseJoin k) w).fill
  if w.faults.any fun f => f.2.resume then w.resumeParked.fill else w

/-! ## Parking (R465) -/

/-- Adds fault records for the real lanes of a mask. -/
def Wave.record (w : Wave) (m : Mask) (r : FaultRec) : Wave :=
  { w with faults := ((m &&& w.real).lanes).foldl (fun fs l => aput l r fs) w.faults }

/-- Ends lanes of an entry: they leave its mask and the live lanes (R209). -/
def Wave.exitLanes (w : Wave) (slot : Nat) (m : Mask) : Wave :=
  { (w.modEntry slot fun e => { e with mask := e.mask &&& ~~~m }) with live := w.live &&& ~~~m }

/-- A lane's own fault (R360). -/
structure LaneFault where
  lane : Nat
  cause : Cause
  value : W64
deriving DecidableEq, Repr

def Wave.recordLanes (w : Wave) (pc : W64) (fs : List LaneFault) : Wave :=
  { w with faults := fs.foldl (fun a f => aput f.lane { cause := f.cause, skip := false, pc := pc, value := f.value } a) w.faults }

def faultMask (fs : List LaneFault) : Mask := Mask.ofList (fs.map fun f => f.lane)

/-- Takes an exception for a whole entry: its lanes are parked in FAULT at the instruction, each real lane with its record
(R43, R465). -/
def Wave.parkEntry (w : Wave) (slot : Nat) (e : Entry) (cause : Cause) (value : W64) : Wave :=
  (w.setEntry slot (some { w.goOn { e with mark := none } with st := .fault, pass := 0, mark := e.mark })).record e.mask
    { cause := cause, skip := false, pc := e.pc, value := value }

/-- Parks the failing lanes of an entry in FAULT at address pc and lets the passing lanes go on as entry e; with no room for
another path the whole entry parks where e stands (R360). mark is the instruction's yield marker, which still binds (R14). -/
def Wave.parkLanes (w : Wave) (slot : Nat) (e : Entry) (pc : W64) (mark : Option Nat) (fs : List LaneFault) : Wave :=
  let f := faultMask fs &&& e.mask
  let w := w.recordLanes pc fs
  if f = 0 then w.setEntry slot (some e)
  else if e.mask &&& ~~~f = 0 then w.setEntry slot (some { e with pc := pc, st := .fault, pass := 0, mark := mark })
  else if w.room = 0 then w.setEntry slot (some { e with st := .fault, pass := 0, mark := mark })
  else (w.setEntry slot (some { e with mask := e.mask &&& ~~~f })).placePath { mask := f, pc := pc, pri := e.pri, faulted := true }

/-! ## Traps (R457, R458, R461) -/

/-- The trap vector's address (R455). R458 gives no check of its bits [2:0]; a program counter is a multiple of 8 (R10), so the model takes them as 0:
DESIGN CHOICE, log entry 82. -/
def Wave.handler (w : Wave) : W64 := w.tvec &&& 0x00FFFFFFFFFFFFF8

/-- A trap that cannot be delivered and is parked as a fault: cases 1 and 2 of R457. Case 2 takes a second trap that awaits delivery to the entry
of the first as one of the running handler's, since its lanes lie in HMASK: DEDUCED, log entry 83. -/
def Wave.trapParks (w : Wave) (e : Entry) (t : PTrap) : Bool :=
  !w.uten || decide (w.tvec = 0) || (decide (t.cause = .breakpoint) && w.brkpark) || (w.inh && decide (e.mask &&& w.hmask ≠ 0))

/-- Taking a user trap in an entry: the trap registers, then the entry at its handler with priority 255 (R276, R458). -/
def Wave.takeTrap (w : Wave) (slot : Nat) (e : Entry) (t : PTrap) : Wave :=
  { w with
    tcause := (t.code.zeroExtend 32 <<< 8) ||| t.cause.code.zeroExtend 32
    tmask := t.mask
    tdst := t.tdst
    tval := (Mask.lanes t.mask).foldl (fun m l => sput 0 l t.addr m) []
    tpc := (e.pri.zeroExtend 64 <<< 56) ||| (e.pc &&& 0x00FFFFFFFFFFFFFF)
    hmask := e.mask
    inh := true
    entries := setAt slot (some { e with pc := w.handler, pri := 255, pass := 0, st := .ready, latch := none }) w.entries }

/-- Decides one trap awaiting delivery for an entry that is READY at an instruction boundary (R457): parked, held, or taken. -/
def Wave.decideTrap (w : Wave) (slot : Nat) (e : Entry) (t : PTrap) : Wave :=
  let rest := w.ptraps.filter fun u => !(decide (u.seq = t.seq) && decide (u.addr = t.addr) && decide (u.lanes &&& e.mask ≠ 0))
  if w.trapParks e t then
    let fs := (Mask.lanes (t.mask &&& e.mask &&& w.real)).map fun l => ({ lane := l, cause := t.cause, value := t.addr } : LaneFault)
    { (w.parkLanes slot e t.addr none fs) with ptraps := rest }
  else if w.inh then w
  else { (w.takeTrap slot e t) with ptraps := rest }

/-- The first trap that awaits delivery to an entry (R277). -/
def Wave.trapFor (w : Wave) (e : Entry) : Option PTrap := w.ptraps.find? fun t => decide (t.lanes &&& e.mask ≠ 0)

/-- Some READY entry waits for a trap that stands before t in the wave's order (R277). -/
def Wave.trapBefore (w : Wave) (t : PTrap) : Bool :=
  (w.ptraps.takeWhile fun u => u != t).any fun u => w.entries.any fun oe => match oe with
    | some e => decide (e.st = .ready) && decide (u.lanes &&& e.mask ≠ 0)
    | none => false

/-- An entry with a trap awaiting delivery does not issue (R277). -/
def Wave.trapWaits (w : Wave) (e : Entry) : Bool := (w.trapFor e).isSome

/-- Decides the trap at the head of an entry's traps when the entry is READY: one that parks at once, any other when no earlier one of the wave
awaits delivery (R277, R457). -/
def Wave.deliver (w : Wave) (slot : Nat) : Wave :=
  match w.entry? slot with
  | none => w
  | some e =>
    if e.st = .ready then
      match w.trapFor e with
      | some t => if w.trapBefore t && !w.trapParks e t then w else w.decideTrap slot e t
      | none => w
    else w

/-- Return from a trap (R461): the entry at TPC with its priority, INH clear. -/
def Wave.returnTrap (w : Wave) (slot : Nat) (e : Entry) : Wave :=
  { (w.setEntry slot (some (w.goOn { e with pc := w.tpc &&& 0x00FFFFFFFFFFFFFF, pri := (w.tpc >>> 56).truncate 8 }))) with
    inh := false }

/-! ## Branches (R181) -/

/-- Where a lane goes: an address and a priority, or a cause with its value. -/
inductive Target
  | go (pc : W64) (pri : Byte)
  | bad (cause : Cause) (value : W64)
deriving DecidableEq, Repr

/-- Priority descending, then lowest lane ascending (R181). -/
def pathBefore (p q : NewPath) : Bool :=
  decide (q.pri.toNat < p.pri.toNat) || (decide (p.pri = q.pri) && decide (p.mask.lowest < q.mask.lowest))

/-- Adds the fall-through lanes: to a path with the same address and priority, else at the end (R181). -/
def addFall (m : Mask) (pc : W64) (pri : Byte) : List NewPath → List NewPath
  | [] => [{ mask := m, pc := pc, pri := pri, faulted := false }]
  | p :: ps =>
    if p.pc = pc ∧ p.pri = pri ∧ p.faulted = false then { p with mask := p.mask ||| m } :: ps else p :: addFall m pc pri ps

/-- The paths of the lanes whose target is good, in order of their lowest lane. -/
def branchGoes (exec : Mask) (tgt : Nat → Target) : List NewPath :=
  exec.lanes.foldl (fun ps l => match tgt l with
    | .go pc pri => addPath l pc pri ps
    | .bad _ _ => ps) []

/-- The lanes whose target faults. -/
def branchBad (exec : Mask) (tgt : Nat → Target) : Mask :=
  Mask.ofList (exec.lanes.filter fun l => match tgt l with
    | .go _ _ => false
    | .bad _ _ => true)

/-- The paths of a branch (R181): target paths in order, the faulting lanes, the lanes that fall through. -/
def branchPaths (e : Entry) (exec : Mask) (tgt : Nat → Target) : List NewPath :=
  let f := branchBad exec tgt
  let ps := sortBy pathBefore (branchGoes exec tgt)
  let ps := if f = 0 then ps else ps ++ [{ mask := f, pc := e.pc, pri := e.pri, faulted := true }]
  if e.mask &&& ~~~exec = 0 then ps else addFall (e.mask &&& ~~~exec) (e.pc + 8) e.pri ps

/-- The fault records of a branch's lanes. -/
def branchFaults (exec : Mask) (tgt : Nat → Target) : List LaneFault :=
  exec.lanes.filterMap fun l => match tgt l with
    | .go _ _ => none
    | .bad c v => some { lane := l, cause := c, value := v }

/-- The cluster of a core (R2). -/
def clusterOf (core : Nat) : Nat := core / 4

end Sys2Proof.Machine
end

