-- ==== Sys2Proof/Machine/Operands.lean ====
section
/-! DEFINITION. Operands: the operand forms of R23 to R38, source modifiers, destinations, poisoned sources (R472), and the
common shape of a per-lane instruction. -/

namespace Sys2Proof.Machine

/-! ## Types (R30, R31) -/

/-- The width of one element of a type. -/
def tyWidth : Ty → Nat
  | .b32 | .i32 | .n32 | .f32 => 32
  | .i64 | .n64 | .f64 => 64
  | .i16x2 | .n16x2 | .f16x2 | .bf16x2 | .f16 | .bf16 => 16
  | .l6 => 6

def tyPacked : Ty → Bool
  | .i16x2 | .n16x2 | .f16x2 | .bf16x2 => true
  | _ => false

/-- The width of a whole operand: both elements of a packed type. -/
def tyBits (t : Ty) : Nat := if tyPacked t then 32 else tyWidth t

/-- The element patterns of an operand, element 0 first. -/
def elems (t : Ty) (v : W64) : List Nat :=
  if tyPacked t then [v.toNat % 65536, v.toNat / 65536 % 65536] else [v.toNat % 2 ^ tyWidth t]

/-- The operand of element patterns. -/
def ofElems (t : Ty) (es : List Nat) : W64 :=
  BitVec.ofNat 64 (es.foldr (fun e acc => e % 2 ^ tyWidth t + 2 ^ tyWidth t * acc) 0)

/-! ## Sources (R23 to R26, R37) -/

/-- A source value, with the VALUE of a POISON_CONSUMED fault when it is poisoned (R472). -/
structure Src where
  val : W64
  bad : Option W64
deriving DecidableEq, Repr

/-- VALUE of a poisoned vector or operand register, and of a poisoned uniform register (R472). -/
def poisonReg (reg : Nat) : W64 := 0xFE00000000000000 + BitVec.ofNat 64 reg
def poisonSreg (n : Nat) : W64 := 0xFE00000000010000 + BitVec.ofNat 64 n

/-- A vector or operand register, or a pair, in one lane. -/
def srcReg (w : Wave) (free : Nat) (is64 : Bool) (reg lane : Nat) : Src :=
  let a := w.readReg free reg lane
  if is64 then
    let b := w.readReg free (reg + 1) lane
    { val := pair64 a.1 b.1, bad := if a.2 then some (poisonReg reg) else if b.2 then some (poisonReg (reg + 1)) else none }
  else { val := a.1.zeroExtend 64, bad := if a.2 then some (poisonReg reg) else none }

/-- A uniform register or pair. -/
def srcSreg (x : Issue) (free : Nat) (is64 : Bool) (n : Nat) : Src :=
  let a := readSreg x free n
  if is64 then
    let b := readSreg x free (n + 1)
    { val := pair64 a.1 b.1, bad := if a.2 then some (poisonSreg n) else if b.2 then some (poisonSreg (n + 1)) else none }
  else { val := a.1.zeroExtend 64, bad := if a.2 then some (poisonSreg n) else none }

/-- l0 or l1 in one lane; VALUE of its poison is a free value, since R472 gives none (log entry 7). -/
def srcLast (w : Wave) (free : Nat) (is64 : Bool) (one : Bool) (lane : Nat) : Src :=
  let v := sget 0 (if one then w.l1 else w.l0) lane
  let k := if one then 64 + lane else lane
  let p := decide (k ∈ w.lpoison) || (is64 && decide (128 + k ∈ w.lpoison))
  { val := if is64 then v else (lo32 v).zeroExtend 64, bad := if p then some (BitVec.ofNat 64 (Config.freeNat free (200000 + lane))) else none }

/-- The integer a constant code delivers: 0 to 15, then −16 to −1 (R23). -/
def constOf (code : Nat) : Int := if code < 0xB0 then (code : Int) - 0xA0 else (code : Int) - 0xC0

/-- The bits of a small integer in a binary format with e exponent bits and f fraction bits; every integer from −16 to 15 is
exact (R24). -/
def floatOfSmall (e f : Nat) (z : Int) : Nat :=
  if z = 0 then 0
  else
    let m := z.natAbs
    let k := Nat.log2 m
    (if z < 0 then 2 ^ (e + f) else 0) + (2 ^ (e - 1) - 1 + k) * 2 ^ f + (m * 2 ^ f / 2 ^ k - 2 ^ f)

/-- A constant in a type (R24). -/
def constIn (t : Ty) (z : Int) : W64 :=
  match t with
  | .f32 => BitVec.ofNat 64 (floatOfSmall 8 23 z)
  | .f64 => BitVec.ofNat 64 (floatOfSmall 11 52 z)
  | .f16 => BitVec.ofNat 64 (floatOfSmall 5 10 z)
  | .bf16 => BitVec.ofNat 64 (floatOfSmall 8 7 z)
  | .f16x2 => BitVec.ofNat 64 (floatOfSmall 5 10 z * 65537)
  | .bf16x2 => BitVec.ofNat 64 (floatOfSmall 8 7 z * 65537)
  | .i16x2 | .n16x2 => BitVec.ofNat 64 ((z % 65536).toNat * 65537)
  | .i64 | .n64 => BitVec.ofInt 64 z
  | _ => BitVec.ofNat 64 (z % 4294967296).toNat

/-- The selectors 0x91 to 0x97 (R23, R25). -/
def selectorOf (x : Issue) (code lane : Nat) : Nat :=
  if code = 0x91 then lane
  else if code = 0x92 then lane / 4
  else if code = 0x93 then x.ref.wi
  else if code = 0x94 then x.g.gx.toNat
  else if code = 0x95 then x.g.gy.toNat
  else if code = 0x96 then x.g.gz.toNat
  else if x.g.twin && x.g.follower then 1 else 0

/-- A source operand of a type in a lane (R23 to R26, R31, R37). -/
def readSrc (s : State) (x : Issue) (t : Ty) (code : Byte) (lane : Nat) : Src :=
  let c := code.toNat
  let r : Src :=
    if c < 0x88 then srcReg x.w s.free t.is64 (x.w.physOf c) lane
    else if c = 0x88 then srcLast x.w s.free t.is64 false lane
    else if c = 0x89 then srcLast x.w s.free t.is64 true lane
    else if c = 0x90 then { val := 0, bad := none }
    else if c < 0xA0 then { val := BitVec.ofNat 64 (selectorOf x c lane), bad := none }
    else if c < 0xC0 then { val := constIn t (constOf c), bad := none }
    else srcSreg x s.free t.is64 (c - 0xC0)
  { r with val := BitVec.ofNat 64 (r.val.toNat % 2 ^ tyBits t) }

/-! ## Modifiers (R33, R34) -/

/-- abs, then neg, of one element of a signed integer or floating-point type. -/
def modElem (t : Ty) (neg abs : Bool) (e : Nat) : Nat :=
  let w := tyWidth t
  let top := 2 ^ (w - 1)
  if t.isFloat then
    let a := if abs then e % top else e
    if neg then (if top ≤ a then a - top else a + top) else a
  else
    let a := if abs && decide (top ≤ e) then (2 ^ w - e) % 2 ^ w else e
    if neg then (2 ^ w - a) % 2 ^ w else a

def modSrc (t : Ty) (neg abs : Bool) (v : W64) : W64 := ofElems t ((elems t v).map (modElem t neg abs))

/-- Sources A, B and C with their MOD bits (R33). -/
def srcA (s : State) (x : Issue) (f : RF) (t : Ty) (l : Nat) : Src :=
  let r := readSrc s x t f.a l
  { r with val := modSrc t (f.md.getLsbD 0) (f.md.getLsbD 1) r.val }
def srcB (s : State) (x : Issue) (f : RF) (t : Ty) (l : Nat) : Src :=
  let r := readSrc s x t f.b l
  { r with val := modSrc t (f.md.getLsbD 2) (f.md.getLsbD 3) r.val }
def srcC (s : State) (x : Issue) (f : RF) (t : Ty) (l : Nat) : Src :=
  let r := readSrc s x t f.c l
  { r with val := modSrc t (f.md.getLsbD 4) false r.val }

/-! ## Destinations (R28, R31, R37, R38) -/

/-- Writes a fixed-latency per-lane result and the last-result file (R190, R196); 0xFF writes l0 and l1 only. -/
def Wave.putDst (w : Wave) (d : Byte) (is64 : Bool) (lane : Nat) (v : W64) : Wave :=
  let w := w.putLast lane v
  if d = 0xFF then w
  else
    let r := w.physOf d.toNat
    let w := w.putReg r lane (lo32 v) false
    if is64 then w.putReg (r + 1) lane (hi32 v) false else w

/-- The register writes of a result for a physical destination (R193). -/
def dstWrites (w : Wave) (d : Byte) (is64 : Bool) (lane : Nat) (v : W64) (bad : Bool) : List RegWrite :=
  if d = 0xFF then []
  else
    let r := w.physOf d.toNat
    { key := regKey r lane, val := lo32 v, poison := bad } ::
      (if is64 then [{ key := regKey (r + 1) lane, val := hi32 v, poison := bad }] else [])

/-- Sets predicate n in one lane. -/
def Wave.putPred (w : Wave) (n lane : Nat) (b : Bool) : Wave :=
  { w with preds := modAt n (fun p => if b then p ||| Mask.one lane else p &&& ~~~(Mask.one lane)) w.preds }

/-- Predicate n in one lane. -/
def Wave.pred (w : Wave) (n lane : Nat) : Bool := (w.preds[n]?.getD 0).getLsbD lane

/-- Adds a pending variable-latency result (R191). -/
def Wave.addPend (w : Wave) (ws : List RegWrite) (flags : W32) (trap : Option PTrap) : Wave :=
  { w with pend := w.pend ++ [{ seq := w.nextSeq, writes := ws, flags := flags, trap := trap }], nextSeq := w.nextSeq + 1 }

/-- Vector registers from a destination field on; an operand register or the discard has none. -/
def Wave.vecRegs (w : Wave) (code : Byte) (n : Nat) : List Nat :=
  if code.toNat < 0x80 then (List.range n).map fun i => w.wb + code.toNat + i else []

/-- The register word a destination code names in a lane, none for the discard (R193). -/
def dstKey (x : Issue) (d : Byte) (l : Nat) : Option Nat := if d = 0xFF then none else some (regKey (x.w.physOf d.toNat) l)

/-! ## The shape of a per-lane instruction -/

/-- Ends an instruction whose lanes fs have faults of their own: they park, the others go on (R360, R465). -/
def finishLanes (s : State) (x : Issue) (h : Hdr) (w : Wave) (fs : List LaneFault) : State :=
  match fs with
  | [] => finish s x h w
  | _ =>
    s.setWave x.ref.gid x.ref.wi
      (w.parkLanes x.ref.slot (x.next h w) x.e.pc (x.e.arm h x.w.nextSeq).mark fs).settle

/-- The POISON_CONSUMED faults of the real lanes of EXEC whose sources are poisoned (R472). -/
def poisonFaults (x : Issue) (h : Hdr) (srcs : Nat → List Src) : List LaneFault :=
  (Mask.lanes (x.exec h &&& x.w.real)).filterMap fun l =>
    ((srcs l).findSome? fun r => r.bad).map fun v => { lane := l, cause := .poisonConsumed, value := v }

/-- The lanes of EXEC without a fault. -/
def goodLanes (x : Issue) (h : Hdr) (fs : List LaneFault) : List Nat := Mask.lanes (x.exec h &&& ~~~(faultMask fs))

/-- A fixed-latency per-lane instruction with a register destination: reads the sources of every lane, then writes the result
of every lane of EXEC (R7, R13, R190, R215). -/
def perLane (s : State) (x : Issue) (h : Hdr) (d : Byte) (is64 : Bool) (srcs : Nat → List Src) (f : Nat → W64) : State :=
  let fs := poisonFaults x h srcs
  finishLanes s x h ((goodLanes x h fs).foldl (fun w l => w.putDst d is64 l (f l)) x.w) fs

/-- A per-lane instruction with a predicate destination (R29). -/
def perLanePred (s : State) (x : Issue) (h : Hdr) (d : Byte) (srcs : Nat → List Src) (f : Nat → Bool) : State :=
  let fs := poisonFaults x h srcs
  finishLanes s x h ((goodLanes x h fs).foldl (fun w l => w.putPred d.toNat l (f l)) x.w) fs

/-- A header without guard and marker. -/
def plainHdr : Hdr := { y := false, ge := false, gn := false, gp := 0 }

/-- Format M fields of a plain access. -/
def plainMF : MF := { d := 0, a := 0, b := 0, sz := 3, sg := false, ord := 0, scp := 0, ch := 0, off := 0 }

/-- Parks the whole issuing entry (R465); an entry that holds only helper lanes exits instead (R44). -/
def parkWhole (s : State) (x : Issue) (h : Hdr) (cause : Cause) (value : W64) : State :=
  s.setWave x.ref.gid x.ref.wi
    (if x.e.mask &&& x.w.real = 0 then x.w.exitLanes x.ref.slot x.e.mask
     else x.w.parkEntry x.ref.slot (x.e.arm h x.w.nextSeq) cause value).settle

/-- ILLEGAL_INSTR or PRIV of an instruction: the whole entry parks with the word as its value, and no yield marker binds
(R42 to R44). -/
def parkDecode (s : State) (x : Issue) (cause : Cause) (i : Instr) : State := parkWhole s x plainHdr cause ((encode i).getD 0)

/-- Stores the group and ends an instruction that acts once for its wave. -/
def finishGroup (s : State) (x : Issue) (h : Hdr) (f : Group → Group) : State :=
  finish (s.modGroup x.ref.gid f) x h x.w

/-- An instruction that acts once for its wave: nothing but the next instruction when EXEC holds no real lane (R13); a fault of
the whole entry when a source is poisoned (R472); else its effect. -/
def oncePerWave (s : State) (x : Issue) (h : Hdr) (srcs : List Src) (k : State) : State :=
  if x.acts h then
    match srcs.findSome? fun r => r.bad with
    | some v => parkWhole s x h .poisonConsumed v
    | none => k
  else finish s x h x.w

/-- The issuing wave writes a 32-bit or 64-bit value to uniform registers. -/
def Group.putS (g : Group) (wi free : Nat) (n : Byte) (is64 : Bool) (v : W64) : Group :=
  g.putSregs wi free n.toNat (if is64 then [lo32 v, hi32 v] else [lo32 v])

/-- A uniform register, or pair, named directly. -/
def readS (s : State) (x : Issue) (is64 : Bool) (n : Byte) : Src := srcSreg x s.free is64 n.toNat

end Sys2Proof.Machine
end

