-- ==== Sys2Proof/Machine/Fp.lean ====
section
/-! DEFINITION. Fp: the binary formats, exact values, rounding and exceptions of chapter 07 and the arithmetic of R279 to R289. -/

namespace Sys2Proof.Machine

/-- A binary format: exponent bits and fraction bits (R250). -/
structure Fmt where
  e : Nat
  f : Nat
deriving DecidableEq, Repr

def fmtOf : Ty → Fmt
  | .f64 => { e := 11, f := 52 }
  | .f16 | .f16x2 => { e := 5, f := 10 }
  | .bf16 | .bf16x2 => { e := 8, f := 7 }
  | _ => { e := 8, f := 23 }

/-- The exponent of the smallest normal value. -/
def Fmt.emin (m : Fmt) : Int := 2 - 2 ^ (m.e - 1)
/-- The pattern of +∞. -/
def Fmt.inf (m : Fmt) : Nat := (2 ^ m.e - 1) * 2 ^ m.f
def Fmt.sign (m : Fmt) : Nat := 2 ^ (m.e + m.f)
/-- The default NaN (R250, R251). -/
def Fmt.nan (m : Fmt) : Nat := m.inf + 2 ^ (m.f - 1)

/-- A value: NaN (signalling or not), infinity, or (−1)^neg × m × 2^x. -/
inductive FV
  | nan (sig : Bool)
  | inf (neg : Bool)
  | fin (neg : Bool) (m : Nat) (x : Int)
deriving DecidableEq, Repr

/-- The value of a pattern (R250, R251, R252). -/
def fvOf (m : Fmt) (b : Nat) : FV :=
  let neg := b.testBit (m.e + m.f)
  let ex := b / 2 ^ m.f % 2 ^ m.e
  let fr := b % 2 ^ m.f
  if ex = 2 ^ m.e - 1 then (if fr = 0 then .inf neg else .nan (!fr.testBit (m.f - 1)))
  else if ex = 0 then .fin neg fr (m.emin - m.f)
  else .fin neg (2 ^ m.f + fr) (m.emin - m.f + (ex - 1 : Nat))

def FV.isNan : FV → Bool
  | .nan _ => true
  | _ => false
def FV.isSig : FV → Bool
  | .nan s => s
  | _ => false
def FV.isInf : FV → Bool
  | .inf _ => true
  | _ => false
def FV.isZero : FV → Bool
  | .fin _ m _ => decide (m = 0)
  | _ => false
def FV.isNeg : FV → Bool
  | .nan _ => false
  | .inf n => n
  | .fin n _ _ => n
def FV.negate : FV → FV
  | .nan s => .nan s
  | .inf n => .inf (!n)
  | .fin n m x => .fin (!n) m x

/-! ## Flags (R273, R274) -/

def flInvalid : Nat := 1
def flDivzero : Nat := 2
def flOverflow : Nat := 4
def flUnderflow : Nat := 8
def flInexact : Nat := 16

/-- A result pattern with the exceptions it signals. -/
structure FRes where
  bits : Nat
  fl : Nat
deriving DecidableEq, Repr

/-! ## Rounding (R253 to R255) -/

/-- An exact real (−1)^neg × (m + δ) × 2^x with 0 < δ < 1 when more is set and δ = 0 otherwise. -/
structure Ex where
  neg : Bool
  m : Nat
  x : Int
  more : Bool
deriving DecidableEq, Repr

/-- The significand of |v| at quantum 2^q under a rounding mode, and whether it is inexact (R253). -/
def roundAt (rm : Nat) (v : Ex) (q : Int) : Nat × Bool :=
  if q ≤ v.x then
    let sig := v.m * 2 ^ (v.x - q).toNat
    (if v.more && ((decide (rm = 2) && v.neg) || (decide (rm = 3) && !v.neg)) then sig + 1 else sig, v.more)
  else
    let d := (q - v.x).toNat
    let sig := v.m / 2 ^ d
    let rem := v.m % 2 ^ d
    let inx := decide (rem ≠ 0) || v.more
    let up := match rm with
      | 0 => decide (2 ^ d < 2 * rem) || (decide (2 * rem = 2 ^ d) && (v.more || decide (sig % 2 = 1)))
      | 1 => false
      | 2 => v.neg && inx
      | _ => !v.neg && inx
    (if up then sig + 1 else sig, inx)

/-- The exponent of the leading bit of a non-zero value. -/
def Ex.lead (v : Ex) : Int := v.x + Nat.log2 v.m

/-- Round (R253, R254, R255) with the exceptions of R273. The significand m is not 0, or the value is an exact zero. -/
def roundTo (fm : Fmt) (rm : Nat) (v : Ex) : FRes :=
  let s := if v.neg then fm.sign else 0
  if v.m = 0 && !v.more then { bits := s, fl := 0 }
  else
    let q0 := fm.emin - fm.f
    let q := max (v.lead - fm.f) q0
    let pack := fun (r : Nat) => (q - q0).toNat * 2 ^ fm.f + r
    let r := roundAt rm v q
    let bits := pack r.1
    if fm.inf ≤ bits || fm.inf ≤ pack (roundAt 0 v q).1 then
      let big := match rm with
        | 0 => true
        | 1 => false
        | 2 => v.neg
        | _ => !v.neg
      { bits := s + (if big then fm.inf else fm.inf - 1), fl := flOverflow + flInexact }
    else
      let tiny := decide (v.lead < fm.emin - 1) ||
        (decide (v.lead = fm.emin - 1) && decide ((roundAt rm v (v.lead - fm.f)).1 < 2 ^ (fm.f + 1)))
      { bits := s + bits, fl := (if r.2 then flInexact else 0) + (if r.2 && tiny then flUnderflow else 0) }

/-- SatF (R256). -/
def satF (fm : Fmt) (b : Nat) : Nat :=
  let one := (2 ^ (fm.e - 1) - 1) * 2 ^ fm.f
  match fvOf fm b with
  | .nan _ => 0
  | .inf n => if n then 0 else one
  | .fin n _ _ => if n then 0 else if one < b then one else b

def withSat (fm : Fmt) (sat : Bool) (r : FRes) : FRes := if sat then { r with bits := satF fm r.bits } else r

/-! ## Sums and products (R255, R267, R279) -/

/-- The product of two values, or none for 0 × ∞. NaNs are handled before. -/
def mulV : FV → FV → Option FV
  | .nan s, _ => some (.nan s)
  | _, .nan s => some (.nan s)
  | .inf a, .inf b => some (.inf (a != b))
  | .inf a, .fin b m _ => if m = 0 then none else some (.inf (a != b))
  | .fin a m _, .inf b => if m = 0 then none else some (.inf (a != b))
  | .fin a m x, .fin b n y => some (.fin (a != b) (m * n) (x + y))

/-- The least exponent of finite terms. -/
def minExp : List FV → Option Int
  | [] => none
  | .fin _ _ x :: ts => match minExp ts with
    | some y => some (min x y)
    | none => some x
  | _ :: ts => minExp ts

/-- The exact sum of finite terms at exponent x. -/
def sumAt (x : Int) : List FV → Int
  | [] => 0
  | .fin n m y :: ts => (if n then -((m : Int) * 2 ^ (y - x).toNat) else (m : Int) * 2 ^ (y - x).toNat) + sumAt x ts
  | _ :: ts => sumAt x ts

/-- A sum of values without NaNs rounded once (R254, R255, R266, R267): none when it holds both infinities. -/
def sumRound (fm : Fmt) (rm : Nat) (ts : List FV) : Option FRes :=
  let pos := ts.any fun t => decide (t = .inf false)
  let neg := ts.any fun t => decide (t = .inf true)
  if pos && neg then none
  else if pos then some { bits := fm.inf, fl := 0 }
  else if neg then some { bits := fm.sign + fm.inf, fl := 0 }
  else
    let x := (minExp ts).getD 0
    let z := sumAt x ts
    if z = 0 then
      let n := if ts.all FV.isNeg then true else if ts.all fun t => !t.isNeg then false else decide (rm = 2)
      some { bits := if n then fm.sign else 0, fl := 0 }
    else some (roundTo fm rm { neg := decide (z < 0), m := z.natAbs, x := x, more := false })

def nanRes (fm : Fmt) (invalid : Bool) : FRes := { bits := fm.nan, fl := if invalid then flInvalid else 0 }

/-- A sum of products plus addends (R279, R285): every NaN and invalid case, then one rounding. -/
def fusedSum (fm : Fmt) (rm : Nat) (prods : List (FV × FV)) (adds : List FV) : FRes :=
  let ps := prods.map fun p => mulV p.1 p.2
  let inputs := prods.flatMap (fun p => [p.1, p.2]) ++ adds
  let bad := ps.any fun p => p.isNone
  if bad || inputs.any FV.isNan then nanRes fm (bad || inputs.any FV.isSig)
  else match sumRound fm rm (ps.filterMap id ++ adds) with
    | some r => r
    | none => nanRes fm true

/-- A product rounded once. -/
def mulRound (fm : Fmt) (rm : Nat) (a b : FV) : FRes :=
  if a.isNan || b.isNan then nanRes fm (a.isSig || b.isSig)
  else match mulV a b with
    | none => nanRes fm true
    | some (.inf n) => { bits := (if n then fm.sign else 0) + fm.inf, fl := 0 }
    | some (.fin n m x) => roundTo fm rm { neg := n, m := m, x := x, more := false }
    | some (.nan _) => nanRes fm false

/-! ## Comparison (R280 to R282) -/

/-- Order of finite and infinite values: −1, 0 or 1; zeros compare equal. -/
def cmpV (a b : FV) : Int :=
  match a, b with
  | .fin na ma xa, .fin nb mb xb =>
    let x := min xa xb
    let za := sumAt x [.fin na ma xa]
    let zb := sumAt x [.fin nb mb xb]
    if za < zb then -1 else if zb < za then 1 else 0
  | .inf na, .inf nb => if na = nb then 0 else if na then -1 else 1
  | .inf na, _ => if na then -1 else 1
  | _, .inf nb => if nb then 1 else -1
  | _, _ => 0

/-- a stands below b, −0 below +0 (R280). -/
def belowV (a b : FV) : Bool :=
  decide (cmpV a b < 0) || (decide (cmpV a b = 0) && a.isNeg && !b.isNeg)

/-- `fmin` and `fmax` of two patterns (R280). -/
def minMax (fm : Fmt) (mx : Bool) (a b : Nat) : FRes :=
  let va := fvOf fm a
  let vb := fvOf fm b
  let fl := if va.isSig || vb.isSig then flInvalid else 0
  if va.isNan && vb.isNan then { bits := fm.nan, fl := fl }
  else if va.isNan then { bits := b, fl := fl }
  else if vb.isNan then { bits := a, fl := fl }
  else if mx then { bits := if belowV va vb then b else a, fl := fl }
  else { bits := if belowV vb va then b else a, fl := fl }

/-- `fcmp` (R281): the relation and whether INVALID is signalled. -/
def fcmpRel (fm : Fmt) (fn : Nat) (a b : Nat) : Bool × Bool :=
  let va := fvOf fm a
  let vb := fvOf fm b
  let un := va.isNan || vb.isNan
  let sig := va.isSig || vb.isSig
  let c := cmpV va vb
  match fn % 8 with
  | 0 => (!un && decide (c = 0), sig)
  | 1 => (un || decide (c ≠ 0), sig)
  | 2 => (!un && decide (c < 0), un)
  | 3 => (!un && decide (c ≤ 0), un)
  | 4 => (!un && decide (0 < c), un)
  | 5 => (!un && decide (0 ≤ c), un)
  | 6 => (un, sig)
  | _ => (!un, sig)

/-- The class number of a pattern (R282). -/
def classOf (fm : Fmt) (b : Nat) : Nat :=
  match fvOf fm b with
  | .nan s => if s then 0 else 1
  | .inf n => if n then 2 else 9
  | .fin n m x =>
    let sub := decide (m < 2 ^ fm.f) && decide (x = fm.emin - fm.f)
    if m = 0 then (if n then 5 else 6)
    else if sub then (if n then 4 else 7)
    else if n then 3 else 8

/-! ## Integral values, scaling, conversion (R283, R284, R289) -/

/-- A finite value rounded to an integer under a mode (R283, R289), with its sign kept apart. -/
def toIntegral (rm : Nat) (n : Bool) (m : Nat) (x : Int) : Nat × Bool :=
  roundAt rm { neg := n, m := m, x := x, more := false } 0

/-- `frint` (R283). -/
def frintOf (fm : Fmt) (rm : Nat) (b : Nat) : FRes :=
  match fvOf fm b with
  | .nan s => nanRes fm s
  | .inf _ => { bits := b, fl := 0 }
  | .fin n m x =>
    if m = 0 || decide (0 ≤ x) then { bits := b, fl := 0 }
    else { bits := (roundTo fm 0 { neg := n, m := (toIntegral rm n m x).1, x := 0, more := false }).bits, fl := 0 }

/-- A × 2^k rounded once (R284); the exponent is kept within what decides the result. -/
def scaleOf (fm : Fmt) (rm : Nat) (b : Nat) (k : Int) : FRes :=
  match fvOf fm b with
  | .nan s => nanRes fm s
  | .inf _ => { bits := b, fl := 0 }
  | .fin n m x => roundTo fm rm { neg := n, m := m, x := x + max (-8192) (min 8192 k), more := false }

/-- A value converted to another format (R289). -/
def cvtFF (fs fd : Fmt) (rm : Nat) (b : Nat) : FRes :=
  match fvOf fs b with
  | .nan s => nanRes fd s
  | .inf n => { bits := (if n then fd.sign else 0) + fd.inf, fl := 0 }
  | .fin n m x => roundTo fd rm { neg := n, m := m, x := x, more := false }

/-! ## Long operations (R286, R287; log entry 19) -/

/-- Integer square root, bit by bit from bit k − 1. -/
def isqrt (n : Nat) : Nat → Nat → Nat
  | 0, r => r
  | k + 1, r => isqrt n k (if (r + 2 ^ k) * (r + 2 ^ k) ≤ n then r + 2 ^ k else r)

def zeroRes (fm : Fmt) (neg : Bool) : FRes := { bits := if neg then fm.sign else 0, fl := 0 }
def infRes (fm : Fmt) (neg : Bool) (fl : Nat) : FRes := { bits := (if neg then fm.sign else 0) + fm.inf, fl := fl }

/-- A ÷ B (R286, R287). -/
def divOf (fm : Fmt) (rm : Nat) (a b : Nat) : FRes :=
  match fvOf fm a, fvOf fm b with
  | .nan s, v => nanRes fm (s || v.isSig)
  | _, .nan s => nanRes fm s
  | .inf _, .inf _ => nanRes fm true
  | .inf n, .fin p _ _ => infRes fm (n != p) 0
  | .fin n _ _, .inf p => zeroRes fm (n != p)
  | .fin n m x, .fin p k y =>
    if k = 0 then (if m = 0 then nanRes fm true else infRes fm (n != p) flDivzero)
    else if m = 0 then zeroRes fm (n != p)
    else roundTo fm rm { neg := n != p, m := m * 2 ^ 128 / k, x := x - y - 128, more := decide (m * 2 ^ 128 % k ≠ 0) }

/-- √A. -/
def sqrtOf (fm : Fmt) (rm : Nat) (a : Nat) : FRes :=
  match fvOf fm a with
  | .nan s => nanRes fm s
  | .inf n => if n then nanRes fm true else infRes fm false 0
  | .fin n m x =>
    if m = 0 then { bits := a, fl := 0 }
    else if n then nanRes fm true
    else
      let k := if x % 2 = 0 then m * 2 ^ 128 else m * 2 ^ 129
      let y := if x % 2 = 0 then x - 128 else x - 129
      let r := isqrt k 96 0
      roundTo fm rm { neg := false, m := r, x := y / 2, more := decide (r * r ≠ k) }

/-- 1 ÷ A. -/
def rcpOf (fm : Fmt) (rm : Nat) (a : Nat) : FRes :=
  match fvOf fm a with
  | .nan s => nanRes fm s
  | .inf n => zeroRes fm n
  | .fin n m x =>
    if m = 0 then infRes fm n flDivzero
    else roundTo fm rm { neg := n, m := 2 ^ 128 / m, x := -x - 128, more := decide (2 ^ 128 % m ≠ 0) }

/-- 1 ÷ √A. -/
def rsqOf (fm : Fmt) (rm : Nat) (a : Nat) : FRes :=
  match fvOf fm a with
  | .nan s => nanRes fm s
  | .inf n => if n then nanRes fm true else zeroRes fm false
  | .fin n m x =>
    if m = 0 then infRes fm n flDivzero
    else if n then nanRes fm true
    else
      let k := if x % 2 = 0 then m else 2 * m
      let y := if x % 2 = 0 then x else x - 1
      let r := isqrt (2 ^ 256 / k) 129 0
      roundTo fm rm { neg := false, m := r, x := -(y / 2) - 128, more := decide (r * r * k ≠ 2 ^ 256) }

/-- Fraction bits of the fixed-point work below. -/
def prec : Nat := 700

/-- π × 2^700, rounded down. -/
def piFix : Nat := 16525204305188294122575967610974940178026148430521517253674428844222689879174614411560235390899801560652737794125520858649187813498260676587492720299944119139547246105762461028318293173887444219654040121887534587

/-- ln 2 × 2^700, rounded down. -/
def ln2Fix : Nat := 3646048369520401155099996961047707357507096331783503843849344245633807666567193540862011325354993176522073248963992540440461234955063439798781282174979321648927961039135097465446362992577109506093562453216683523

/-- e^y − Σ of the terms before k, for a fixed-point y below 1: the terms term, term × y ÷ k, … -/
def expTerms (y : Nat) : Nat → Nat → Nat → Nat
  | 0, _, _ => 0
  | n + 1, k, term => term + expTerms y n (k + 1) (term * y / 2 ^ prec / k)

/-- e^y for 0 ≤ y < 1. -/
def expFix (y : Nat) : Nat := expTerms y 160 1 (2 ^ prec)

/-- e^y for any y ≥ 0 in fixed point: a fixed-point number and a power of two. -/
def expBig (y : Nat) : Nat × Nat := (expFix (y % ln2Fix), y / ln2Fix)

/-- atanh u ÷ u series: Σ u^(2k+1) ÷ (2k + 1). -/
def atanhTerms (u2 : Nat) : Nat → Nat → Nat → Nat
  | 0, _, _ => 0
  | n + 1, k, p => p / (2 * k + 1) + atanhTerms u2 n (k + 1) (p * u2 / 2 ^ prec)

/-- ln(t) for a fixed-point t from 1 to 2. -/
def lnFix (t : Nat) : Nat :=
  let u := (t - 2 ^ prec) * 2 ^ prec / (t + 2 ^ prec)
  2 * atanhTerms (u * u / 2 ^ prec) 230 0 u

/-- Σ (−1)^k y^(2k+1) ÷ (2k+1)!, as the difference of its positive and negative parts. -/
def sinTerms (y2 : Nat) : Nat → Nat → Nat → Int
  | 0, _, _ => 0
  | n + 1, k, p => (p : Int) - sinTerms y2 n (k + 1) (p * y2 / 2 ^ prec / ((2 * k + 2) * (2 * k + 3)))

/-- sin(π r) for a fixed-point r from 0 to 1/2. -/
def sinPiFix (r : Nat) : Nat :=
  let y := piFix * r / 2 ^ prec
  (sinTerms (y * y / 2 ^ prec) 110 0 y).toNat

/-- An irrational value from fixed point, scaled by 2^k; a value too small to hold counts as a half unit of the last place. -/
def fixEx (neg : Bool) (v : Nat) (k : Int) : Ex :=
  if v = 0 then { neg := neg, m := 1, x := k - prec - 1, more := true } else { neg := neg, m := v, x := k - prec, more := true }

/-- The largest value below 1. -/
def underOne (neg : Bool) : Ex := { neg := neg, m := 2 ^ prec - 1, x := -(prec : Int), more := true }

/-- |m × 2^x| in fixed point, rounded down; exact for every x ≥ −prec. -/
def fixOf (m : Nat) (x : Int) : Nat := if 0 ≤ x + prec then m * 2 ^ (x + prec).toNat else m / 2 ^ (-(x + prec)).toNat

/-- |m × 2^x| ≥ 2^k for a non-zero m. -/
def atLeastPow (m : Nat) (x : Int) (k : Int) : Bool := decide (k ≤ x + Nat.log2 m)

/-- 2^A. -/
def ex2Of (fm : Fmt) (rm : Nat) (a : Nat) : FRes :=
  match fvOf fm a with
  | .nan s => nanRes fm s
  | .inf n => if n then zeroRes fm false else infRes fm false 0
  | .fin n m x =>
    if m = 0 then roundTo fm rm { neg := false, m := 1, x := 0, more := false }
    else if atLeastPow m x 12 then
      roundTo fm rm { neg := false, m := 1, x := if n then -4096 else 4096, more := true }
    else
      let y : Int := if n then -(fixOf m x : Int) else fixOf m x
      let k := y / 2 ^ prec
      let r := (y % 2 ^ prec).toNat
      if r = 0 then roundTo fm rm { neg := false, m := 1, x := k, more := false }
      else roundTo fm rm (fixEx false (expFix (r * ln2Fix / 2 ^ prec)) k)

/-- log2 A. -/
def lg2Of (fm : Fmt) (rm : Nat) (a : Nat) : FRes :=
  match fvOf fm a with
  | .nan s => nanRes fm s
  | .inf n => if n then nanRes fm true else infRes fm false 0
  | .fin n m x =>
    if m = 0 then infRes fm true flDivzero
    else if n then nanRes fm true
    else
      let k := Nat.log2 m
      let e : Int := x + k
      if m = 2 ^ k then
        (if e = 0 then zeroRes fm false else roundTo fm rm { neg := decide (e < 0), m := e.natAbs, x := 0, more := false })
      else
        let t := m * 2 ^ (prec - k)
        let v : Int := e * 2 ^ prec + (lnFix t * 2 ^ prec / ln2Fix : Nat)
        roundTo fm rm (fixEx (decide (v < 0)) v.natAbs 0)

/-- sin(π r) of a fraction r = m × 2^x in [0, 2), x < 0: the sign and the angle in [0, 1/2] with the same sine. -/
def foldSin (r one : Nat) : Bool × Nat :=
  let neg := decide (one ≤ r)
  let r := r % one
  (neg, if one < 2 * r then one - r else r)

/-- sin(π A) (R286, R287). -/
def sinpOf (fm : Fmt) (rm : Nat) (a : Nat) : FRes :=
  match fvOf fm a with
  | .nan s => nanRes fm s
  | .inf _ => nanRes fm true
  | .fin n m x =>
    if m = 0 || decide (0 ≤ x) then zeroRes fm n
    else
      let one := 2 ^ (-x).toNat
      let p := foldSin (m % (2 * one)) one
      let neg := n != p.1
      if p.2 = 0 then zeroRes fm n
      else if 2 * p.2 = one then roundTo fm rm { neg := neg, m := 1, x := 0, more := false }
      else roundTo fm rm (fixEx neg (sinPiFix (p.2 * 2 ^ prec / one)) 0)

/-- cos(π A). -/
def cospOf (fm : Fmt) (rm : Nat) (a : Nat) : FRes :=
  match fvOf fm a with
  | .nan s => nanRes fm s
  | .inf _ => nanRes fm true
  | .fin _ m x =>
    if m = 0 then roundTo fm rm { neg := false, m := 1, x := 0, more := false }
    else if 0 ≤ x then
      roundTo fm rm { neg := decide (x = 0) && decide (m % 2 = 1), m := 1, x := 0, more := false }
    else
      let one := 2 ^ (-x).toNat
      let r := m % (2 * one)
      let r := if one < r then 2 * one - r else r
      let neg := decide (one < 2 * r)
      let r := if neg then one - r else r
      if 2 * r = one then zeroRes fm false
      else if r = 0 then roundTo fm rm { neg := neg, m := 1, x := 0, more := false }
      else roundTo fm rm (fixEx neg (sinPiFix ((one - 2 * r) * 2 ^ prec / (2 * one))) 0)

/-- tanh A. -/
def tanhOf (fm : Fmt) (rm : Nat) (a : Nat) : FRes :=
  match fvOf fm a with
  | .nan s => nanRes fm s
  | .inf n => roundTo fm rm { neg := n, m := 1, x := 0, more := false }
  | .fin n m x =>
    if m = 0 then zeroRes fm n
    else if atLeastPow m x 8 then roundTo fm rm (underOne n)
    else
      let e := expBig (2 * fixOf m x)
      let big := e.1 * 2 ^ e.2
      roundTo fm rm (fixEx n ((big - 2 ^ prec) * 2 ^ prec / (big + 2 ^ prec)) 0)

/-- 1 ÷ (1 + e^−A). -/
def sigOf (fm : Fmt) (rm : Nat) (a : Nat) : FRes :=
  match fvOf fm a with
  | .nan s => nanRes fm s
  | .inf n => if n then zeroRes fm false else roundTo fm rm { neg := false, m := 1, x := 0, more := false }
  | .fin n m x =>
    if m = 0 then roundTo fm rm { neg := false, m := 1, x := -1, more := false }
    else if atLeastPow m x 9 then
      roundTo fm rm (if n then { neg := false, m := 1, x := -4096, more := true } else underOne false)
    else
      let e := expBig (fixOf m x)
      let big := e.1 * 2 ^ e.2
      let v := if n then 2 ^ (2 * prec) / (big + 2 ^ prec) else big * 2 ^ prec / (big + 2 ^ prec)
      roundTo fm rm (fixEx false v 0)

end Sys2Proof.Machine
end

