-- ==== Sys2Proof/Machine/Flags.lean ====
section
/-! DEFINITION. Flags: FPFLAGS, FPCTL and the traps they enable (R273 to R277), and the shapes of the instructions that signal. -/

namespace Sys2Proof.Machine

/-- What one lane's operation gives: a value and the exceptions it signals. -/
structure LaneOut where
  val : W64
  fl : Nat
deriving DecidableEq, Repr

/-- FPFLAGS after exceptions (R274). -/
def Wave.orFlags (w : Wave) (fl : W32) : Wave := { w with fpflags := w.fpflags ||| fl }

/-- The exceptions FPCTL enables (R275). -/
def Wave.enabled (w : Wave) (fl : Nat) : Nat := fl &&& (w.fpctl.toNat % 32)

/-- The lowest cause code among enabled exceptions (R276). -/
def fpCause (fl : Nat) : Cause :=
  if fl.testBit 0 then .fpInvalid
  else if fl.testBit 1 then .fpDivzero
  else if fl.testBit 2 then .fpOverflow
  else if fl.testBit 3 then .fpUnderflow
  else .fpInexact

/-- TDST of a destination (R276). -/
def tdstReg (w : Wave) (d : Byte) : W32 := if d = 0xFF then 0xFFFFFFFF else BitVec.ofNat 32 (w.physOf d.toNat)
def tdstPred (d : Byte) : W32 := 0x80000000 + BitVec.ofNat 32 d.toNat

/-- The exceptions that some lanes signalled. -/
def unionFl (ls : List Nat) (fl : Nat → Nat) : Nat := ls.foldl (fun a l => a ||| fl l) 0

/-- The trap that some lanes' exceptions enable (R276). -/
def fpTrap (w : Wave) (ls : List Nat) (fl : Nat → Nat) (tdst : W32) (pc : W64) : Option PTrap :=
  let en := w.enabled (unionFl ls fl)
  if en = 0 then none
  else
    let m := Mask.ofList (ls.filter fun l => decide (w.enabled (fl l) ≠ 0))
    some { cause := fpCause en, code := 0, mask := m, tdst := tdst, addr := pc, lanes := m, seq := w.nextSeq }

/-- Puts a trap behind those of earlier instructions that await delivery (R277). -/
def Wave.raise (w : Wave) (t : PTrap) : Wave := { w with ptraps := insertBy (fun a b => decide (a.seq < b.seq)) t w.ptraps }

/-- Delivers what the issuing entry may take before it issues anything further (R277). -/
def deliverHere (s : State) (x : Issue) : State := s.modWave x.ref.gid x.ref.wi fun w => (w.deliver x.ref.slot).settle

/-- Ends a fixed-latency instruction that signals exceptions in its real lanes: results and flags first, then any trap (R276). -/
def finishFp (s : State) (x : Issue) (h : Hdr) (w : Wave) (fs : List LaneFault) (ls : List Nat) (fl : Nat → Nat) (tdst : W32) : State :=
  let real := ls.filter fun l => x.w.real.getLsbD l
  let w := w.orFlags (BitVec.ofNat 32 (unionFl real fl))
  match fpTrap x.w real fl tdst x.e.pc with
  | none => finishLanes s x h w fs
  | some t => deliverHere (finishLanes s x h (w.raise t) fs) x

/-- A fixed-latency per-lane floating-point instruction. -/
def perLaneFp (s : State) (x : Issue) (h : Hdr) (d : Byte) (is64 : Bool) (srcs : Nat → List Src) (f : Nat → LaneOut) : State :=
  let fs := poisonFaults x h srcs
  let ls := goodLanes x h fs
  finishFp s x h (ls.foldl (fun w l => w.putDst d is64 l (f l).val) x.w) fs ls (fun l => (f l).fl) (tdstReg x.w d)

/-- A fixed-latency floating-point instruction with a predicate destination. -/
def perLaneFpPred (s : State) (x : Issue) (h : Hdr) (d : Byte) (srcs : Nat → List Src) (f : Nat → Bool × Nat) : State :=
  let fs := poisonFaults x h srcs
  let ls := goodLanes x h fs
  finishFp s x h (ls.foldl (fun w l => w.putPred d.toNat l (f l).1) x.w) fs ls (fun l => (f l).2) (tdstPred d)

/-- A variable-latency per-lane result: pending from issue on, with its flags and trap (R191, R276, R277). -/
def perLaneVar (s : State) (x : Issue) (h : Hdr) (d : Byte) (is64 : Bool) (srcs : Nat → List Src) (f : Nat → LaneOut) : State :=
  let fs := poisonFaults x h srcs
  let ls := goodLanes x h fs
  let real := ls.filter fun l => x.w.real.getLsbD l
  let fl := BitVec.ofNat 32 (unionFl real fun l => (f l).fl)
  let w := x.w.addPend (ls.flatMap fun l => dstWrites x.w d is64 l (f l).val false) fl
    (fpTrap x.w real (fun l => (f l).fl) (tdstReg x.w d) x.e.pc)
  finishLanes s x h w fs

end Sys2Proof.Machine
end

