-- ==== Sys2Proof/Machine/Float.lean ====
section
/-! DEFINITION. Float: the floating-point instructions, opcodes 0x40 to 0x55 (R270 to R287). -/

namespace Sys2Proof.Machine

/-- Combines the element results of an operand. -/
def outOf (t : Ty) (rs : List FRes) : LaneOut :=
  { val := ofElems t (rs.map fun r => r.bits), fl := rs.foldl (fun a r => a ||| r.fl) 0 }

/-- An operation on one, two or three sources, element by element, SatF last (R256, R271). -/
def fpMap1 (t : Ty) (sat : Bool) (op : Fmt → Nat → FRes) (a : W64) : LaneOut :=
  outOf t ((elems t a).map fun p => withSat (fmtOf t) sat (op (fmtOf t) p))

def fpMap2 (t : Ty) (sat : Bool) (op : Fmt → Nat → Nat → FRes) (a b : W64) : LaneOut :=
  outOf t (((elems t a).zip (elems t b)).map fun p => withSat (fmtOf t) sat (op (fmtOf t) p.1 p.2))

def fpMap3 (t : Ty) (sat : Bool) (op : Fmt → Nat → Nat → Nat → FRes) (a b c : W64) : LaneOut :=
  outOf t (((elems t a).zip ((elems t b).zip (elems t c))).map fun p => withSat (fmtOf t) sat (op (fmtOf t) p.1 p.2.1 p.2.2))

/-- The operations of R279 and R280 on patterns. -/
def faddOf (rm : Nat) (m : Fmt) (a b : Nat) : FRes := fusedSum m rm [] [fvOf m a, fvOf m b]
def fsubOf (rm : Nat) (m : Fmt) (a b : Nat) : FRes := fusedSum m rm [] [fvOf m a, (fvOf m b).negate]
def fmulOf (rm : Nat) (m : Fmt) (a b : Nat) : FRes := mulRound m rm (fvOf m a) (fvOf m b)
def ffmaOf (rm : Nat) (m : Fmt) (a b c : Nat) : FRes := fusedSum m rm [(fvOf m a, fvOf m b)] [fvOf m c]
def fclampOf (m : Fmt) (a b c : Nat) : FRes :=
  let r := minMax m true a b
  let q := minMax m false r.bits c
  { bits := q.bits, fl := r.fl ||| q.fl }

/-- Shapes of the rows: sources with their modifiers, sat in MOD[5], RM (R270, R271). -/
def laneF1 (s : State) (h : Hdr) (f : RF) (op : Nat → Fmt → Nat → FRes) : Host.Outcome State Fault Refusal :=
  withIssuer s fun x =>
    let t := WF.ty f
    perLaneFp s x h f.d t.is64 (fun l => [srcA s x f t l])
      fun l => fpMap1 t (f.md.getLsbD 5) (op f.rm.toNat) (srcA s x f t l).val

def laneF2 (s : State) (h : Hdr) (f : RF) (op : Nat → Fmt → Nat → Nat → FRes) : Host.Outcome State Fault Refusal :=
  withIssuer s fun x =>
    let t := WF.ty f
    perLaneFp s x h f.d t.is64 (fun l => [srcA s x f t l, srcB s x f t l])
      fun l => fpMap2 t (f.md.getLsbD 5) (op f.rm.toNat) (srcA s x f t l).val (srcB s x f t l).val

def laneF3 (s : State) (h : Hdr) (f : RF) (op : Nat → Fmt → Nat → Nat → Nat → FRes) : Host.Outcome State Fault Refusal :=
  withIssuer s fun x =>
    let t := WF.ty f
    perLaneFp s x h f.d t.is64 (fun l => [srcA s x f t l, srcB s x f t l, srcC s x f t l])
      fun l => fpMap3 t (f.md.getLsbD 5) (op f.rm.toNat) (srcA s x f t l).val (srcB s x f t l).val (srcC s x f t l).val

/-- The long operations (R286): variable-latency. -/
def laneLong (s : State) (h : Hdr) (f : RF) (op : Fmt → Nat → Nat → FRes) : Host.Outcome State Fault Refusal :=
  withIssuer s fun x =>
    let t := WF.ty f
    perLaneVar s x h f.d t.is64 (fun l => [srcA s x f t l])
      fun l => fpMap1 t (f.md.getLsbD 5) (fun m => op m f.rm.toNat) (srcA s x f t l).val

def execFadd (h : Hdr) (f : RF) (s : State) : Host.Outcome State Fault Refusal := laneF2 s h f faddOf
def execFsub (h : Hdr) (f : RF) (s : State) : Host.Outcome State Fault Refusal := laneF2 s h f fsubOf
def execFmul (h : Hdr) (f : RF) (s : State) : Host.Outcome State Fault Refusal := laneF2 s h f fmulOf
def execFfma (h : Hdr) (f : RF) (s : State) : Host.Outcome State Fault Refusal := laneF3 s h f ffmaOf
def execFmin (h : Hdr) (f : RF) (s : State) : Host.Outcome State Fault Refusal := laneF2 s h f fun _ m => minMax m false
def execFmax (h : Hdr) (f : RF) (s : State) : Host.Outcome State Fault Refusal := laneF2 s h f fun _ m => minMax m true
def execFclamp (h : Hdr) (f : RF) (s : State) : Host.Outcome State Fault Refusal := laneF3 s h f fun _ => fclampOf
def execFrint (h : Hdr) (f : RF) (s : State) : Host.Outcome State Fault Refusal := laneF1 s h f fun rm m => frintOf m rm

/-- `fcmp` (R281). -/
def execFcmp (h : Hdr) (f : RF) (s : State) : Host.Outcome State Fault Refusal :=
  withIssuer s fun x =>
    let t := WF.ty f
    perLaneFpPred s x h f.d (fun l => [srcA s x f t l, srcB s x f t l]) fun l =>
      let r := fcmpRel (fmtOf t) f.fn.toNat (srcA s x f t l).val.toNat (srcB s x f t l).val.toNat
      (r.1 && (!f.fn.getLsbD 3 || x.w.pred f.c.toNat l), if r.2 then flInvalid else 0)

/-- `fclass` (R282): bit k of B, k the class of A. -/
def execFclass (h : Hdr) (f : RF) (s : State) : Host.Outcome State Fault Refusal :=
  withIssuer s fun x =>
    let t := WF.ty f
    perLanePred s x h f.d (fun l => [readSrc s x t f.a l, readSrc s x .b32 f.b l]) fun l =>
      (readSrc s x .b32 f.b l).val.getLsbD (classOf (fmtOf t) (readSrc s x t f.a l).val.toNat)

/-- `fscal` (R284): B is an i32 operand. -/
def execFscal (h : Hdr) (f : RF) (s : State) : Host.Outcome State Fault Refusal :=
  withIssuer s fun x =>
    let t := WF.ty f
    perLaneFp s x h f.d t.is64 (fun l => [srcA s x f t l, readSrc s x .i32 f.b l]) fun l =>
      fpMap1 t (f.md.getLsbD 5) (fun m a => scaleOf m f.rm.toNat a (lo32 (readSrc s x .i32 f.b l).val).toInt) (srcA s x f t l).val

/-- `fdot2` (R285): C and D are f32. -/
def execFdot2 (h : Hdr) (f : RF) (s : State) : Host.Outcome State Fault Refusal :=
  withIssuer s fun x =>
    let t := WF.ty f
    let c := fun l => srcC s x f .f32 l
    perLaneFp s x h f.d false (fun l => [srcA s x f t l, srcB s x f t l, c l]) fun l =>
      let m := fmtOf t
      let ps := ((elems t (srcA s x f t l).val).zip (elems t (srcB s x f t l).val)).map fun p => (fvOf m p.1, fvOf m p.2)
      let r := withSat (fmtOf .f32) (f.md.getLsbD 5) (fusedSum (fmtOf .f32) f.rm.toNat ps [fvOf (fmtOf .f32) (c l).val.toNat])
      { val := BitVec.ofNat 64 r.bits, fl := r.fl }

/-- `fdiv` (R286, R287). -/
def execFdiv (h : Hdr) (f : RF) (s : State) : Host.Outcome State Fault Refusal :=
  withIssuer s fun x =>
    let t := WF.ty f
    perLaneVar s x h f.d t.is64 (fun l => [srcA s x f t l, srcB s x f t l]) fun l =>
      fpMap2 t (f.md.getLsbD 5) (fun m => divOf m f.rm.toNat) (srcA s x f t l).val (srcB s x f t l).val

def execFsqrt (h : Hdr) (f : RF) (s : State) : Host.Outcome State Fault Refusal := laneLong s h f sqrtOf
def execFrcp (h : Hdr) (f : RF) (s : State) : Host.Outcome State Fault Refusal := laneLong s h f rcpOf
def execFrsq (h : Hdr) (f : RF) (s : State) : Host.Outcome State Fault Refusal := laneLong s h f rsqOf
def execFex2 (h : Hdr) (f : RF) (s : State) : Host.Outcome State Fault Refusal := laneLong s h f ex2Of
def execFlg2 (h : Hdr) (f : RF) (s : State) : Host.Outcome State Fault Refusal := laneLong s h f lg2Of
def execFsinp (h : Hdr) (f : RF) (s : State) : Host.Outcome State Fault Refusal := laneLong s h f sinpOf
def execFcosp (h : Hdr) (f : RF) (s : State) : Host.Outcome State Fault Refusal := laneLong s h f cospOf
def execFtanh (h : Hdr) (f : RF) (s : State) : Host.Outcome State Fault Refusal := laneLong s h f tanhOf
def execFsig (h : Hdr) (f : RF) (s : State) : Host.Outcome State Fault Refusal := laneLong s h f sigOf

end Sys2Proof.Machine
end

