-- ==== Sys2Proof/Machine/Cipher.lean ====
section
/-! DEFINITION. Cipher: AES-256-XTS over 32-byte data units (R341), AES-256-GCM (R526) and SHA-512 (R62, R485, R530, R539). -/

namespace Sys2Proof.Machine

/-! ## AES-256 -/

/-- Multiplication by x in GF(2^8) modulo x^8 + x^4 + x^3 + x + 1. -/
def gfDouble (a : Byte) : Byte := (a <<< 1) ^^^ (if a.msb then 0x1B else 0)

/-- Product in GF(2^8). -/
def gfMul (a b : Byte) : Byte :=
  ((List.range 8).foldl (fun (p : Byte × Byte) i => (if b.getLsbD i then p.1 ^^^ p.2 else p.1, gfDouble p.2)) (0, a)).1

/-- Inverse in GF(2^8), a^254; 0 for 0. -/
def gfInv (a : Byte) : Byte :=
  ((List.range 7).foldl (fun (p : Byte × Byte) _ => let q := gfMul p.2 p.2; (gfMul p.1 q, q)) (1, a)).1

def aesSub (a : Byte) : Byte :=
  let b := gfInv a
  b ^^^ b.rotateLeft 1 ^^^ b.rotateLeft 2 ^^^ b.rotateLeft 3 ^^^ b.rotateLeft 4 ^^^ 0x63

def aesUnsub (a : Byte) : Byte := gfInv (a.rotateLeft 1 ^^^ a.rotateLeft 3 ^^^ a.rotateLeft 6 ^^^ 0x05)

def xorBytes (a b : List Byte) : List Byte := List.zipWith (fun x y => x ^^^ y) a b

/-- The next word of the key schedule, given the words so far, the last first. -/
def aesNextWord (ws : List (List Byte)) (rcon : Byte) : List Byte × Byte :=
  let i := ws.length
  let t := ws.head?.getD []
  let old := ws[7]?.getD []
  if i % 8 = 0 then
    let r := (t.drop 1 ++ t.take 1).map aesSub
    (xorBytes old (match r with
      | [] => []
      | x :: xs => (x ^^^ rcon) :: xs), gfDouble rcon)
  else if i % 8 = 4 then (xorBytes old (t.map aesSub), rcon)
  else (xorBytes old t, rcon)

/-- The 15 round keys of a 32-byte key. -/
def aesKeys (key : List Byte) : List (List Byte) :=
  let w0 := ((List.range 8).map fun i => (key.drop (4 * i)).take 4).reverse
  let ws := ((List.range 52).foldl (fun (p : List (List Byte) × Byte) _ =>
    let n := aesNextWord p.1 p.2
    (n.1 :: p.1, n.2)) (w0, 1)).1.reverse
  (List.range 15).map fun r => (ws.drop (4 * r)).take 4 |>.flatten

/-- The columns of a state times the circulant matrix of row co. -/
def aesMix (co : List Byte) (st : List Byte) : List Byte :=
  (List.range 16).map fun i =>
    (List.range 4).foldl (fun acc k => acc ^^^ gfMul ((co[(k + 4 - i % 4) % 4]?).getD 0) ((st[4 * (i / 4) + k]?).getD 0)) 0

/-- Rows shift left by their number times d (d = 1 encrypts, d = 3 decrypts). -/
def aesShift (d : Nat) (st : List Byte) : List Byte :=
  (List.range 16).map fun i => st[((i / 4 + d * (i % 4)) % 4) * 4 + i % 4]?.getD 0

def aesEncBlock (ks : List (List Byte)) (b : List Byte) : List Byte :=
  match ks with
  | [] => b
  | k0 :: rest =>
    let r := rest.foldl (fun (p : Nat × List Byte) k =>
      let s := aesShift 1 (p.2.map aesSub)
      (p.1 + 1, xorBytes (if p.1 = 13 then s else aesMix [2, 3, 1, 1] s) k)) (0, xorBytes b k0)
    r.2

def aesDecBlock (ks : List (List Byte)) (b : List Byte) : List Byte :=
  match ks.reverse with
  | [] => b
  | k0 :: rest =>
    let r := rest.foldl (fun (p : Nat × List Byte) k =>
      let s := xorBytes ((aesShift 3 p.2).map aesUnsub) k
      (p.1 + 1, if p.1 = 13 then s else aesMix [14, 11, 13, 9] s)) (0, xorBytes b k0)
    r.2

/-- Multiplication of a 128-bit little-endian tweak by x. -/
def xtsDouble (t : List Byte) : List Byte :=
  let n := natOfBytes t
  bytesOfNat 16 ((2 * n % 2 ^ 128) ^^^ (if 2 ^ 127 ≤ n then 0x87 else 0))

/-- The tweaks of the two blocks of a data unit. -/
def xtsTweaks (twk : List Byte) (unit : Nat) : List Byte × List Byte :=
  let t := aesEncBlock (aesKeys twk) (bytesOfNat 16 unit)
  (t, xtsDouble t)

/-- Data key (bytes 0 to 31) and tweak key (bytes 32 to 63) of key material (R343). -/
def splitKey (key : BitVec 512) : List Byte × List Byte :=
  let bs := bytesOfNat 64 key.toNat
  (bs.take 32, bs.drop 32)

/-- One XTS data unit of 32 bytes through a block function (R341). -/
def xtsUnit (f : List (List Byte) → List Byte → List Byte) (key : BitVec 512) (unit : Nat) (data : List Byte) : List Byte :=
  let k := splitKey key
  let t := xtsTweaks k.2 unit
  let ks := aesKeys k.1
  xorBytes (f ks (xorBytes (data.take 16) t.1)) t.1 ++ xorBytes (f ks (xorBytes (data.drop 16) t.2)) t.2

def xtsEncrypt (key : BitVec 512) (unit : Nat) (data : List Byte) : List Byte := xtsUnit aesEncBlock key unit data
def xtsDecrypt (key : BitVec 512) (unit : Nat) (data : List Byte) : List Byte := xtsUnit aesDecBlock key unit data

/-! ## AES-256-GCM (R526) -/

/-- Multiplication in GF(2^128) of blocks read as numbers whose top bit is bit 0 of the block. -/
def gcmMul (x y : Nat) : Nat :=
  ((List.range 128).foldl (fun (p : Nat × Nat) i =>
    (if x.testBit (127 - i) then p.1 ^^^ p.2 else p.1, if p.2.testBit 0 then (p.2 / 2) ^^^ (0xE1 * 2 ^ 120) else p.2 / 2)) (0, y)).1

/-- A block of up to 16 bytes as a number, with zeros behind. -/
def gcmBlock (bs : List Byte) : Nat := natOfBytes ((bs ++ List.replicate (16 - bs.length) 0).reverse)

/-- The hash of some bytes in whole blocks, going on from h. -/
def gcmHash (key h : Nat) (bs : List Byte) : Nat :=
  (List.range ((bs.length + 15) / 16)).foldl (fun h i => gcmMul (h ^^^ gcmBlock ((bs.drop (16 * i)).take 16)) key) h

/-- The block cipher's stream from counter c on: n bytes. -/
def gcmStream (ks : List (List Byte)) (iv : BitVec 96) (c n : Nat) : List Byte :=
  ((List.range ((n + 15) / 16)).flatMap fun i => aesEncBlock ks ((bytesOfNat 12 iv.toNat) ++ (bytesOfNat 4 (c + i)).reverse)).take n

/-- The tag of some ciphertext with its additional data. -/
def gcmTag (key : BitVec 256) (iv : BitVec 96) (aad data : List Byte) : List Byte :=
  let ks := aesKeys (bytesOfNat 32 key.toNat)
  let h := gcmBlock (aesEncBlock ks (List.replicate 16 0))
  let s := gcmMul (gcmHash h (gcmHash h 0 aad) data ^^^ (8 * aad.length * 2 ^ 64 + 8 * data.length)) h
  xorBytes (bytesOfNat 16 s).reverse (gcmStream ks iv 1 16)

/-- The ciphertext of a text, and the text of a ciphertext. -/
def gcmCrypt (key : BitVec 256) (iv : BitVec 96) (data : List Byte) : List Byte :=
  xorBytes data (gcmStream (aesKeys (bytesOfNat 32 key.toNat)) iv 2 data.length)

/-- The text of a sealed payload; none where its tag fails. -/
def gcmOpen (key : BitVec 256) (iv : BitVec 96) (aad data tag : List Byte) : Option (List Byte) :=
  if gcmTag key iv aad data = tag then some (gcmCrypt key iv data) else none

/-! ## SHA-512 -/

/-- The first n primes: the numbers that no smaller prime divides. -/
def primesBelow (n : Nat) : List Nat :=
  ((List.range n).foldl (fun (ps : List Nat) k => if 2 ≤ k ∧ ps.all (fun p => decide (k % p ≠ 0)) then k :: ps else ps) []).reverse

/-- The greatest r below 2^bits with test r, for a test that holds up to some number. -/
def bitSearch (bits : Nat) (test : Nat → Bool) : Nat :=
  (List.range bits).foldl (fun r i => let c := r + 2 ^ (bits - 1 - i); if test c then c else r) 0

/-- The first 64 bits of the fractional parts of cube roots and square roots of the primes. -/
def shaK : List W64 := ((primesBelow 410).take 80).map fun p => BitVec.ofNat 64 (bitSearch 68 fun r => decide (r * r * r ≤ p * 2 ^ 192))
def shaH0 : List W64 := ((primesBelow 20).take 8).map fun p => BitVec.ofNat 64 (bitSearch 68 fun r => decide (r * r ≤ p * 2 ^ 128))

/-- The padded message: 0x80, zeros, and the length in bits in 16 big-endian bytes. -/
def shaPad (m : List Byte) : List Byte :=
  let z := (128 - (m.length + 17) % 128) % 128
  m ++ [0x80] ++ List.replicate z 0 ++ (bytesOfNat 16 (8 * m.length)).reverse

def shaWord (bs : List Byte) : W64 := BitVec.ofNat 64 (natOfBytes bs.reverse)

/-- The message schedule, the last word first. -/
def shaSchedule (block : List Byte) : List W64 :=
  let w0 := ((List.range 16).map fun i => shaWord ((block.drop (8 * i)).take 8)).reverse
  let g := fun (ws : List W64) (i : Nat) => ws[i]?.getD 0
  ((List.range 64).foldl (fun ws _ =>
    let a := g ws 14
    let b := g ws 1
    let s0 := a.rotateRight 1 ^^^ a.rotateRight 8 ^^^ (a >>> 7)
    let s1 := b.rotateRight 19 ^^^ b.rotateRight 61 ^^^ (b >>> 6)
    (g ws 15 + s0 + g ws 6 + s1) :: ws) w0).reverse

/-- One round on the eight working words. -/
def shaRound (v : List W64) (kw : W64 × W64) : List W64 :=
  match v with
  | [a, b, c, d, e, f, g, h] =>
    let t1 := h + (e.rotateRight 14 ^^^ e.rotateRight 18 ^^^ e.rotateRight 41) + ((e &&& f) ^^^ (~~~e &&& g)) + kw.1 + kw.2
    let t2 := (a.rotateRight 28 ^^^ a.rotateRight 34 ^^^ a.rotateRight 39) + ((a &&& b) ^^^ (a &&& c) ^^^ (b &&& c))
    [t1 + t2, a, b, c, d + t1, e, f, g]
  | _ => v

def shaBlock (k : List W64) (hs : List W64) (block : List Byte) : List W64 :=
  List.zipWith (fun x y => x + y) hs ((k.zip (shaSchedule block)).foldl shaRound hs)

/-- SHA-512 of a byte string: 64 bytes. -/
def sha512 (m : List Byte) : List Byte :=
  let p := shaPad m
  let hs := (List.range (p.length / 128)).foldl (fun hs i => shaBlock shaK hs ((p.drop (128 * i)).take 128)) shaH0
  hs.flatMap fun h => (bytesOfNat 8 h.toNat).reverse

end Sys2Proof.Machine
end

