-- ==== Sys2Proof/Machine/Memory.lean ====
section
/-! DEFINITION. Memory: sectors and their seals (R340, R341), the context table and the walk (R345 to R348), generic addresses
(R332 to R337), and reading and writing the bytes an access names. -/

namespace Sys2Proof.Machine

/-! ## Sectors of device memory (R340, R341) -/

/-- What an unlisted address of device memory reads as (log entry 1). -/
def memDefault : Byte := 0

def KeyMat.bits : KeyMat → BitVec 512
  | .zero => 0
  | .loaded b => b
  | .firmware => Config.slot0Key

/-- The form of device memory: each map canonical. -/
def Mem.wf (m : Mem) : Bool := swf memDefault m.cells && swf none m.seals

/-- One byte as the machine holds it: under its sector's seal, or as stored. -/
def Mem.cell (m : Mem) (pa : Nat) : Byte := sget memDefault m.cells pa

def Mem.cellsAt (m : Mem) (pa n : Nat) : List Byte := (List.range n).map fun i => m.cell (pa + i)

/-- Stores bytes in cells of consecutive addresses. -/
def putCells (cells : List Host.Cell) (pa : Nat) : List Byte → List Host.Cell
  | [] => cells
  | b :: bs => putCells (sput memDefault pa b cells) (pa + 1) bs

/-- The 32 bytes of a sector as memory stores them: ciphertext under its seal. -/
def Mem.stored (m : Mem) (sec : Nat) : List Byte :=
  match sget none m.seals sec with
  | none => m.cellsAt (32 * sec) 32
  | some sl => xtsEncrypt sl.key.bits sl.unit (m.cellsAt (32 * sec) 32)

/-- The 32 bytes of a sector as a reader with a key and a tweak sees them. -/
def Mem.sector (m : Mem) (sec : Nat) (sl : Seal) : List Byte :=
  if sget none m.seals sec = some sl then m.cellsAt (32 * sec) 32 else xtsDecrypt sl.key.bits sl.unit (m.stored sec)

/-- n bytes from an address, all in one sector, read under a seal. -/
def Mem.bytes (m : Mem) (pa n : Nat) (sl : Seal) : List Byte :=
  if sget none m.seals (pa / 32) = some sl then m.cellsAt pa n else ((m.sector (pa / 32) sl).drop (pa % 32)).take n

/-- Writes bytes from an address, all in one sector, under a seal: a read of the sector, a merge and a write of the whole
sector (R340). -/
def Mem.putBytes (m : Mem) (pa : Nat) (bs : List Byte) (sl : Seal) : Mem :=
  if sget none m.seals (pa / 32) = some sl then { m with cells := putCells m.cells pa bs }
  else
    { m with
      cells := putCells (putCells m.cells (32 * (pa / 32)) (m.sector (pa / 32) sl)) pa bs
      seals := sput none (pa / 32) (some sl) m.seals }

/-- Stores a sector's 32 bytes as they stand, without a key. -/
def Mem.putStored (m : Mem) (sec : Nat) (bs : List Byte) : Mem :=
  { m with cells := putCells m.cells (32 * sec) (bs.take 32), seals := sput none sec none m.seals }

/-- A word's full/empty state; the words of a LOST sector read EMPTY (R430, R475). -/
def Mem.isFull (m : Mem) (pa : Nat) : Bool := decide (pa / 8 ∈ m.full) && !decide (pa / 32 ∈ m.lost)

def Mem.setFull (m : Mem) (pa : Nat) (b : Bool) : Mem :=
  { m with full := if b then sins (pa / 8) m.full else sdel (pa / 8) m.full }

/-- The addresses of the 32-bit words, by their first byte, that n bytes from a touch. -/
def wordsOf (a n : Nat) : List Nat := (List.range ((a + n + 3) / 4 - a / 4)).map fun i => a / 4 + i

/-- Poison after a write of n bytes: a word written whole takes the data's poison, a word written in part keeps its own and takes
the data's (R471). -/
def poisonAfter (ps : List Nat) (a n : Nat) (bad : Bool) : List Nat :=
  (wordsOf a n).foldl (fun ps w =>
    if bad then sins w ps else if a ≤ 4 * w ∧ 4 * w + 4 ≤ a + n then sdel w ps else ps) ps

/-- Eight words as bits. -/
def wordBits (ps : List Nat) : Byte := ps.foldl (fun m w => m ||| BitVec.ofNat 8 (2 ^ w)) 0

/-- Per-byte poison of n bytes. -/
def badBytes (ps : List Nat) (a n : Nat) : List Bool := (List.range n).map fun i => decide ((a + i) / 4 ∈ ps)

/-! ## The context table and the page tables (R345 to R348) -/

/-- Device memory ends at 768 GiB (R2; log entry 18). -/
def physLimit : Nat := 768 * 2 ^ 30

/-- A little-endian field in device memory under key slot 0, within one sector; the tweak is the physical address ÷ 32
(log entry 10). -/
def Mem.firmwareField (m : Mem) (pa n : Nat) : Nat := natOfBytes (m.bytes pa n { key := .firmware, unit := pa / 32 })

/-- A field of a context's table entry (R345). -/
def State.ctxField (s : State) (ctx off n : Nat) : Nat := s.mem.firmwareField (s.host.ctxtBase.toNat + 64 * ctx + off) n

def State.ctxRoot (s : State) (ctx : Nat) : Nat := s.ctxField ctx 0x00 8
def State.ctxPbase (s : State) (ctx : Nat) : Nat := s.ctxField ctx 0x08 8
def State.ctxPsize (s : State) (ctx : Nat) : Nat := s.ctxField ctx 0x10 4
def State.ctxPslots (s : State) (ctx : Nat) : Nat := s.ctxField ctx 0x14 4
def State.ctxFlags (s : State) (ctx : Nat) : Nat := s.ctxField ctx 0x20 4
def State.ctxScopeLim (s : State) (ctx : Nat) : Nat := s.ctxField ctx 0x24 4
def State.ctxIkey (s : State) (ctx : Nat) : Nat := s.ctxField ctx 0x28 2

/-- A leaf with the number of its page-offset bits. -/
structure Leaf where
  entry : Nat
  shift : Nat
deriving DecidableEq, Repr

/-- A leaf entry whose reserved bits are zero; a 64 MiB page has PFN[9:0] zero (R347). -/
def leafOk (e shift : Nat) : Bool := !e.testBit 7 && decide (e / 2 ^ 38 % 4 = 0) && (decide (shift = 16) || decide (e / 2 ^ 40 % 1024 = 0))

/-- The walk (R346 to R348): the levels' shifts still to go, and the table. -/
def walkFrom (m : Mem) (va : Nat) : List Nat → Nat → Option Leaf
  | [], _ => none
  | sh :: rest, table =>
    let e := m.firmwareField (table + 8 * (va / 2 ^ sh % 1024)) 8
    if !e.testBit 0 then none
    else if e.testBit 1 then (if sh ≤ 26 && leafOk e sh then some { entry := e, shift := sh } else none)
    else if e / 4 % 2 ^ 35 ≠ 0 then none
    else walkFrom m va rest (e / 2 ^ 37 * 8192)

def State.leaf (s : State) (ctx va : Nat) : Option Leaf :=
  if s.ctxRoot ctx = 0 then none else walkFrom s.mem va [46, 36, 26, 16] (s.ctxRoot ctx)

/-- The permissions an access needs (R347). -/
inductive Perm | r | w | rw | rx
deriving DecidableEq, Repr

def Perm.allows (p : Perm) (e : Nat) : Bool :=
  match p with
  | .r => e.testBit 2
  | .w => e.testBit 3
  | .rw => e.testBit 2 && e.testBit 3
  | .rx => e.testBit 2 && e.testBit 4

/-- Key slots (R343); slot 0 is the manager's. -/
def State.slot (s : State) (n : Nat) : KeySlot :=
  if n = 0 then { assigned := true, owner := 0, key := .firmware, loadedBytes := 0, isLoaded := true } else sget KeySlot.start s.keys n

/-- Where the bytes of an access lie. va is the virtual address that the tweak follows (R341); slot the key slot that the page names, for
the home's own units (R340). -/
inductive Site
  | dev (pa va : Nat) (key : KeyMat) (fe : Bool)
  | host (ba va : Nat) (key : KeyMat)
  | remote (dv pa va : Nat) (key : KeyMat) (fe : Bool) (slot : Nat)
  | scratch (gid off : Nat)
deriving DecidableEq, Repr

/-- The device's own pod index (R542). -/
def State.podIndex (s : State) : Nat := match s.mgmt.podidx with
  | some i => i.toNat
  | none => 0

/-- The site of a byte of a page, with the bytes after it in the page (R347). -/
def siteIn (s : State) (l : Leaf) (va : Nat) : Option Site :=
  let key := (s.slot (l.entry / 256 % 512)).key
  let off := va % 2 ^ l.shift
  let base := l.entry / 2 ^ 40 * 65536
  let home := l.entry / 2 ^ 27 % 1024
  if l.entry.testBit 37 then some (.host (home * 2 ^ 40 + base + off) va key)
  else if home ≠ s.podIndex then some (.remote home (base + off) va key (l.entry.testBit 6) (l.entry / 256 % 512))
  else if physLimit ≤ base + off then none
  else some (.dev (base + off) va key (l.entry.testBit 6))

/-- Translates a global virtual address and checks the leaf (R348). -/
def State.translate (s : State) (ctx : Nat) (perm : Perm) (va : Nat) : Except Cause Site :=
  match s.leaf ctx va with
  | none => .error .pageNotPresent
  | some l =>
    let k := s.slot (l.entry / 256 % 512)
    if !perm.allows l.entry then .error .pagePermission
    else if l.entry / 2 ^ 17 % 1024 ≠ ctx ∨ k.assigned = false ∨ k.owner ≠ ctx ∨ k.isLoaded = false then .error .keyOwner
    else match siteIn s l va with
      | some t => .ok t
      | none => .error .pageNotPresent

/-! ## Generic addresses (R332 to R337) -/

/-- The spaces; none for an address that R332's table rejects. -/
inductive Space | global | spad | clus | priv
deriving DecidableEq, Repr

def spaceOf (a : W64) : Option Space :=
  let n := a.toNat
  match n / 2 ^ 56 with
  | 0x00 => some .global
  | 0xFC => if n / 2 ^ 52 % 16 = 0 then some .clus else none
  | 0xFD => if n / 2 ^ 48 % 256 = 0 then some .spad else none
  | 0xFF => if n / 2 ^ 32 % 2 ^ 24 = 0 then some .priv else none
  | _ => none

/-- The members of a group's gang, by rank; a task is a gang of one (R448). -/
def State.gangMembers (s : State) (gid : Nat) (g : Group) : List Nat :=
  if g.task.isSome then [gid]
  else match (aget s.launches g.launch).bind fun l => l.gangs[g.gang]? with
    | some k => k.groups
    | none => [gid]

/-- The gang tag: the tag of the rank-0 member (R334). -/
def State.gangTag (s : State) (gid : Nat) (g : Group) : Nat :=
  match ((s.gangMembers gid g).head?).bind fun r => s.group? r with
  | some m => m.tag
  | none => g.tag

/-- Who makes an access: its context, its group for the scratchpad windows, its private slot and lane. A party with a group and no
lane is a copy, which still reaches the scratchpad of its own group when that has ended (R376, R387, R494). -/
structure Party where
  ctx : Nat
  gid : Option Nat
  priv : Option (Nat × Nat)
deriving DecidableEq, Repr

/-- A cause with the VALUE of its record. -/
structure MFault where
  cause : Cause
  value : W64
deriving DecidableEq, Repr

/-- A group whose scratchpad a gang member may still reach (R376). -/
def Place.reachable : Place → Bool
  | .resident _ | .saved => true
  | _ => false

/-- The range check of a scratchpad (R336). -/
def scratchSite (a : W64) (n off gid : Nat) (size : Nat) : Except MFault Site :=
  if size < off + n then .error { cause := .spadRange, value := a + BitVec.ofNat 64 (size - off) } else .ok (.scratch gid off)

/-- Checks 3 to 5 of R333 on n bytes that lie in one sector, one scratchpad or one word of private space. -/
def State.site (s : State) (p : Party) (perm : Perm) (a : W64) (n : Nat) : Except MFault Site :=
  let v := a.toNat
  match spaceOf a with
  | none => .error { cause := .addrNoncanon, value := a }
  | some .global =>
    match s.translate p.ctx perm v with
    | .ok t => .ok t
    | .error c => .error { cause := c, value := a }
  | some .spad =>
    match p.gid.bind fun i => (s.group? i).map fun g => (i, g) with
    | none => .error { cause := .spadForeign, value := a }
    | some (i, g) =>
      if v / 2 ^ 24 % 2 ^ 24 ≠ g.tag then .error { cause := .spadForeign, value := a }
      else scratchSite a n (v % 2 ^ 24) i g.scSize
  | some .clus =>
    match p.gid.bind fun i => (s.group? i).map fun g => (i, g) with
    | none => .error { cause := .spadForeign, value := a }
    | some (i, g) =>
      if v / 2 ^ 24 % 2 ^ 24 ≠ s.gangTag i g then .error { cause := .spadForeign, value := a }
      else match (s.gangMembers i g)[v / 2 ^ 48 % 16]? with
        | none => .error { cause := .spadForeign, value := a }
        | some j => match s.group? j with
          | none => .error { cause := .spadForeign, value := a }
          | some m => if m.place.reachable then scratchSite a n (v % 2 ^ 24) j m.scSize else .error { cause := .spadForeign, value := a }
  | some .priv =>
    match p.priv with
    | none => .error { cause := .addrNoncanon, value := a }
    | some (w, lane) =>
      let o := v % 2 ^ 32
      let size := s.ctxPsize p.ctx
      if size < o + n then .error { cause := .addrNoncanon, value := a + BitVec.ofNat 64 (size - o) }
      else
        let va := (s.ctxPbase p.ctx + w * 32 * size + o / 4 * 128 + lane * 4 + o % 4) % 2 ^ 64
        if 2 ^ 56 ≤ va then .error { cause := .addrNoncanon, value := a }
        else match s.translate p.ctx perm va with
          | .ok t => .ok t
          | .error c => .error { cause := c, value := a }

/-- The parts of an access that lie in one sector each: words in private space (R337), 8-byte parts of a record or of an access
not aligned to its size, else the access. -/
def partsOf (a : W64) (n : Nat) : List (W64 × Nat) :=
  let k := if spaceOf a = some .priv then min n 4 else if n ≤ 16 ∧ a.toNat % n = 0 then n else min n 8
  (List.range ((n + k - 1) / k)).map fun i => (a + BitVec.ofNat 64 (k * i), k)

/-- The parts of an access with their sites. -/
abbrev Sites := List (Site × Nat)

/-- Checks one access under R333: form, alignment to al, then each part. -/
def State.access (s : State) (p : Party) (perm : Perm) (a : W64) (n al : Nat) : Except MFault Sites :=
  if spaceOf a = none then .error { cause := .addrNoncanon, value := a }
  else if a.toNat % al ≠ 0 then .error { cause := .align, value := a }
  else (partsOf a n).mapM fun q => (s.site p perm q.1 q.2).map fun t => (t, q.2)

/-! ## Reading and writing at a site -/

/-- Bytes that no device delivered: free values, marked poisoned (R104, R521). -/
def freeBytes (s : State) (site n : Nat) : List Byte := (List.range n).map fun i => BitVec.ofNat 8 (Config.freeNat s.free (site + i))

def State.hostBytes (s : State) (ba n : Nat) : List Byte := (List.range n).map fun i => sget memDefault s.host.cells (ba + i)

def State.putHost (s : State) (ba : Nat) (bs : List Byte) : State :=
  { s with host := { s.host with cells := putCells s.host.cells ba bs } }

/-- The line of another device's sector that the running access reads. -/
def State.line (s : State) (dv pa : Nat) : Option CacheLine := s.mgmt.rcache.find? fun c => c.dev == dv && c.pa == pa / 32 * 32

/-- Reads n bytes of one sector at a site, with their poison. -/
def State.readSite (s : State) (t : Site) (n : Nat) : List (Byte × Bool) :=
  match t with
  | .dev pa va key _ => (s.mem.bytes pa n { key := key, unit := va / 32 }).zip (badBytes s.mem.poison pa n)
  | .host ba va key =>
    if s.host.failing = some false then (freeBytes s 300000 n).map fun b => (b, true)
    else (((xtsDecrypt key.bits (va / 32) (s.hostBytes (ba / 32 * 32) 32)).drop (ba % 32)).take n).map fun b => (b, false)
  | .remote dv pa va key _ _ =>
    match s.line dv pa with
    | some c =>
      if c.bad then (freeBytes s 310000 n).map fun b => (b, true)
      else (((xtsDecrypt key.bits (va / 32) c.bytes).drop (pa % 32)).take n).zip ((List.range n).map fun i => c.words.getLsbD ((pa % 32 + i) / 4))
    | none => (freeBytes s 310000 n).map fun b => (b, true)
  | .scratch gid off =>
    match s.group? gid with
    | some g => (List.range n).map fun i => (sget memDefault g.scratch (off + i), decide ((off + i) / 4 ∈ g.scPoison))
    | none => []

/-- Writes bytes of one sector at a site of this device; a store at another device is a step at its home (R521). -/
def State.writeSite (s : State) (t : Site) (bs : List Byte) (bad : Bool) : State :=
  match t with
  | .dev pa va key _ =>
    { s with mem := { s.mem.putBytes pa bs { key := key, unit := va / 32 } with
      poison := poisonAfter s.mem.poison pa bs.length bad
      lost := if bs.length = 32 then sdel (pa / 32) s.mem.lost else s.mem.lost } }
  | .host ba va key =>
    if s.host.failing = some true then { s with host := { s.host with aer := s.host.aer + 1 } }
    else
      let old := xtsDecrypt key.bits (va / 32) (s.hostBytes (ba / 32 * 32) 32)
      s.putHost (ba / 32 * 32) (xtsEncrypt key.bits (va / 32) (old.take (ba % 32) ++ bs ++ old.drop (ba % 32 + bs.length)))
  | .remote .. => s
  | .scratch gid off =>
    s.modGroup gid fun g => { g with scratch := putCells g.scratch off bs, scPoison := poisonAfter g.scPoison off bs.length bad }

def State.readSites (s : State) (ts : Sites) : List (Byte × Bool) := ts.flatMap fun t => s.readSite t.1 t.2

/-- Writes a byte string over the parts of an access, in rising order. -/
def State.writeSites (s : State) (bad : Bool) : Sites → List Byte → State
  | [], _ => s
  | t :: ts, bs => (s.writeSite t.1 (bs.take t.2) bad).writeSites bad ts (bs.drop t.2)

/-- A word's full/empty state at a site, and its change (R430). -/
def State.fullAt (s : State) (t : Site) : Bool :=
  match t with
  | .dev pa _ _ _ => s.mem.isFull pa
  | .remote dv pa _ _ _ _ => match s.line dv pa with
    | some c => c.full.getLsbD (pa / 8 % 4)
    | none => false
  | _ => false

def State.setFullAt (s : State) (t : Site) (b : Bool) : State :=
  match t with
  | .dev pa _ _ _ => { s with mem := s.mem.setFull pa b }
  | _ => s

/-- The site lies in a LOST sector, here or as its home has answered (R476). -/
def State.lostAt (s : State) (t : Site) : Bool :=
  match t with
  | .dev pa _ _ _ => decide (pa / 32 ∈ s.mem.lost)
  | _ => false

def Site.isHost : Site → Bool
  | .host .. => true
  | _ => false

def Site.taggable : Site → Bool
  | .dev _ _ _ fe => fe
  | .remote _ _ _ _ fe _ => fe
  | _ => false

/-- The failure of the host link takes effect on one access (R104). -/
def State.hostUsed (s : State) (used : Bool) : State := if used then { s with host := { s.host with failing := none } } else s

/-- A host write that fails is dropped and logged as an uncorrectable error (R104). -/
def State.hostDropped (s : State) : State := { s with host := { s.host with failing := none, aer := s.host.aer + 1 } }

/-! ## Whole records, read and written at once by one party

These serve the readers that the rules let fail as one: task records, launch records, rings, signals. Of a page whose HOME is another device
they read the sectors that have been answered and written as steps at the home (log entry 26). -/

def Site.isRemote : Site → Bool
  | .remote .. => true
  | _ => false

/-- The site is here, or its sector has been answered. -/
def State.atHand (s : State) (t : Site) : Bool :=
  match t with
  | .remote dv pa .. => (s.line dv pa).isSome
  | _ => true

/-- Checks an access of n bytes, 8-byte aligned parts, for a party of path C or for a record (R333, R348). A LOST sector fails it
(log entry 78). -/
def State.recordSites (s : State) (p : Party) (perm : Perm) (a : W64) (n al : Nat) : Except MFault Sites :=
  match s.access p perm a n al with
  | .error e => .error e
  | .ok ts =>
    if ts.any fun t => !s.atHand t.1 then .error { cause := .pageNotPresent, value := a }
    else match ts.find? fun t => s.lostAt t.1 with
      | some _ => .error { cause := .vaLost, value := a }
      | none => .ok ts

/-- Reads a record. -/
def State.record (s : State) (p : Party) (a : W64) (n : Nat) : Except MFault (List Byte) :=
  match s.recordSites p .r a n (min n 8) with
  | .error e => .error e
  | .ok ts =>
    let bs := s.readSites ts
    if bs.any fun b => b.2 then .error { cause := .poisonConsumed, value := a } else .ok (bs.map fun b => b.1)

/-- Writes a record; none where it fails its checks or is not all on this device. -/
def State.putRecord (s : State) (p : Party) (a : W64) (bs : List Byte) : Option State :=
  match s.recordSites p .w a bs.length (min bs.length 8) with
  | .error _ => none
  | .ok ts => if ts.any fun t => t.1.isRemote then none else some (s.writeSites false ts bs)

/-- A party of a context without a group: the dispatcher's and the copy engine's own accesses. -/
def Party.ofCtx (ctx : Nat) : Party := { ctx := ctx, gid := none, priv := none }

/-! ## Scopes that handles name (R89) -/

def State.scopeSlot (s : State) (n : Nat) : ScopeSlot := sget ScopeSlot.start s.scopes n

/-- The slot and the generation of a handle (R89). -/
def scopeNum (h : W32) : Nat := h.toNat % 65536
def scopeGen (h : W32) : W16 := h.extractLsb' 16 16

/-- The scope a handle names: none for 0 and for a stale handle (R89). -/
def State.scopeAt (s : State) (h : W32) : Option ScopeSlot :=
  let v := s.scopeSlot (scopeNum h)
  if decide (v.st ≠ .free) && decide (v.gen = scopeGen h) then some v else none

def State.scopeLive (s : State) (h : W32) : Bool := match s.scopeAt h with
  | some v => decide (v.st = .live)
  | none => false

end Sys2Proof.Machine
end

