-- ==== Sys2Proof/Machine/Access.lean ====
section
/-! DEFINITION. Access: how a memory instruction of a wave is formed, checked and performed (R357 to R363), with the accesses that
other devices answer (R521). Every meaning of chapter 11's M format and of R431 and R436 is one call of `memGo`. -/

namespace Sys2Proof.Machine

/-! ## The violation log (R108) -/

/-- Makes an entry of the violation log; a full log drops and counts it. -/
def State.violation (s : State) (source func bar dir ctx : Nat) (addr detail : W64) : State :=
  if s.host.vlog.length < 64 then
    { s with host := { s.host with vlog := s.host.vlog ++
      [{ source := source, func := func, bar := bar, dir := dir, ctx := ctx, addr := addr, clk := s.clk, detail := detail }] } }
  else { s with host := { s.host with vlost := if s.host.vlost = 0xFFFFFFFF then s.host.vlost else s.host.vlost + 1 } }

/-! ## Counters (R159) -/

def counterKey (ctx k : Nat) : Nat := 16 * ctx + k

/-- Counts n events of a context, saturating. -/
def State.count (s : State) (ctx k n : Nat) : State :=
  let cs := smod 0 (counterKey ctx k) (fun v => BitVec.ofNat 64 (min (v.toNat + n) (2 ^ 64 - 1))) s.market.counters
  { s with market := { s.market with counters := cs } }

/-! ## Forming the lanes' accesses (R357, R358) -/

/-- The access size. -/
def mfSize (f : MF) : Nat := 2 ^ f.sz.toNat

/-- The operation in OFF[13:10] of `atom` and `sigadd`. -/
def mfOpn (f : MF) : Nat := f.off.toNat / 1024

/-- The signed offset, whole or narrowed to OFF[9:0]. -/
def mfOffset (f : MF) (narrow : Bool) : W64 :=
  if narrow then (f.off.extractLsb' 0 10).signExtend 64 else f.off.signExtend 64

/-- The address of a lane (R357), with the VALUE of a poisoned address register. -/
def laneAddr (s : State) (x : Issue) (f : MF) (narrow : Bool) (l : Nat) : Src :=
  let a := readSrc s x .n64 f.a l
  if f.a.toNat < 0xC0 then { val := a.val + mfOffset f narrow, bad := a.bad }
  else
    let b := readSrc s x .n32 f.b l
    { val := a.val + b.val + mfOffset f narrow, bad := a.bad.or b.bad }

/-- The type whose operand holds an access of size code sz. -/
def szTy (sz : Nat) : Ty := if sz = 3 then .n64 else .n32

/-- k register words from a register code, low word first. -/
def blockSrc (s : State) (x : Issue) (code : Byte) (k l : Nat) : List Src :=
  (List.range k).map fun r => srcReg x.w s.free false (x.w.physOf code.toNat + r) l

/-- The bytes of a source operand of an access. -/
def dataSrc (s : State) (x : Issue) (code : Byte) (sz l : Nat) : List Src :=
  if sz = 4 then blockSrc s x code 4 l else [readSrc s x (szTy sz) code l]

def dataBytes (sz : Nat) (rs : List Src) : List Byte :=
  if sz = 4 then rs.flatMap fun r => bytesOfNat 4 r.val.toNat
  else bytesOfNat (2 ^ sz) ((rs.head?.map fun r => r.val.toNat).getD 0)

/-- The register words that bytes fill (R365), each with its poison. -/
def wordsOfBytes (sg : Bool) (bs : List (Byte × Bool)) : List (W32 × Bool) :=
  let bad := bs.any fun b => b.2
  match bs.map fun b => b.1 with
  | [b] => [(if sg then b.signExtend 32 else b.zeroExtend 32, bad)]
  | [a, b] =>
    let v : W16 := b ++ a
    [(if sg then v.signExtend 32 else v.zeroExtend 32, bad)]
  | all => (List.range (all.length / 4)).map fun i =>
      (BitVec.ofNat 32 (natOfBytes ((all.drop (4 * i)).take 4)), ((bs.drop (4 * i)).take 4).any fun b => b.2)

/-- The register writes of a lane's result. -/
def resultWrites (op : LaneOp) (ws : List (W32 × Bool)) (stride : Nat) : List RegWrite :=
  match op.dst with
  | none => []
  | some k => ((List.range ws.length).zip ws).map fun p => { key := k + stride * p.1, val := p.2.1, poison := p.2.2 }

/-! ## What each instruction asks of its accesses -/

def memPerm : Instr → Perm
  | .st .. | .stv .. | .sst .. => .w
  | .atom .. | .acas .. | .sigadd .. | .ldf .. | .ldfe .. | .stef .. | .stf .. | .fest .. => .rw
  | _ => .r

/-- The full/empty instructions, whose word must be tagged (R432). -/
def memTagged : Instr → Bool
  | .ldf .. | .ldfe .. | .stef .. | .stf .. | .fest .. => true
  | _ => false

/-- Instructions that do nothing in a helper lane (R75, R435). -/
def memStores : Instr → Bool
  | .st .. | .stv .. | .sst .. | .stef .. | .stf .. | .cwb .. | .cinv .. => true
  | .fest _ f => f.sg
  | _ => false

/-- Once-per-wave accesses (R367). -/
def memUniform : Instr → Bool
  | .sld .. | .sst .. => true
  | _ => false

/-- Plain stores, whose lanes the load/store unit coalesces into sectors (R340). -/
def memPlainStore : Instr → Bool
  | .st .. | .stv .. | .sst .. => true
  | _ => false

/-- The step that the unit at a sector's home performs for a lane of an instruction that is no plain load or store (R370, R432, R437). -/
def stepKind : Instr → Option StepKind
  | .atom _ f => some (.atom (f.off.toNat / 1024) f.sg)
  | .acas .. => some .acas
  | .sigadd _ f => some (.signal (f.off.toNat / 1024))
  | .ldf .. => some .ldf
  | .ldfe .. => some .ldfe
  | .stef .. => some .stef
  | .stf .. => some .stf
  | .fest _ f => if f.sg then some (.fest true) else none
  | _ => none

/-- Instructions that raise POISON_CONSUMED on a poisoned word of memory; loads deliver it marked instead (R363, R472). -/
def memConsumes : Instr → Bool
  | .atom .. | .acas .. | .sigadd .. | .wtge .. | .wteq .. | .poll .. => true
  | _ => false

/-- Plain stores, which may cover a LOST sector together (R476). -/
def memCoalesces : Instr → Bool
  | .st .. | .stv .. => true
  | _ => false

/-! ## The checks (R359, R333, R432, R476) -/

def Issue.party (x : Issue) (lane : Nat) : Party := { ctx := x.g.ctx, gid := some x.ref.gid, priv := some (x.w.pslot, lane) }

/-- The sectors that the stores of all lanes write in full. -/
def fullSectors (tss : List Sites) : List Nat :=
  let bytes := (tss.flatMap fun ts => ts.flatMap fun t => match t.1 with
    | .dev pa _ _ _ => (List.range t.2).map fun i => pa + i
    | _ => []).dedup
  ((bytes.map fun b => b / 32).dedup).filter fun sec => decide ((bytes.filter fun b => b / 32 = sec).length = 32)

/-- The answers that concern a lane: those of its own steps, then those that every lane shares. -/
def answersFor (rs : List Answered) (lane : Nat) : List Answered :=
  (rs.filter fun r => decide (r.lane = some lane)) ++ rs.filter fun r => r.lane.isNone

/-- How another device's home refused a sector (R521). -/
def refusal (rs : List Answered) (t : Site) : Option Cause :=
  match t with
  | .remote dv pa .. =>
    match (rs.find? fun r => r.dev == dv && r.pa == pa / 32 * 32).bind fun r => r.answer with
    | some .lost => some .vaLost
    | some .noPage => some .pageNotPresent
    | _ => none
  | _ => none

/-- The line of an answered sector. -/
def lineOf (r : Answered) : Option CacheLine :=
  if r.bad then some { dev := r.dev, pa := r.pa, bytes := [], full := 0, words := 0, bad := true }
  else match r.answer with
    | some (.data bs full ws) => some { dev := r.dev, pa := r.pa, bytes := bs, full := full, words := ws, bad := false }
    | _ => none

/-- Brings the answered sectors in for one access. -/
def State.loadLines (s : State) (rs : List Answered) : State := { s with mgmt := { s.mgmt with rcache := rs.filterMap lineOf } }

/-- The answers of one lane brought in. -/
def State.forLane (s : State) (rs : List Answered) (lane : Nat) : State := if rs = [] then s else s.loadLines (answersFor rs lane)

/-- The answered sectors are not held after the access. -/
def State.dropLines (s : State) : State := { s with mgmt := { s.mgmt with rcache := [] } }

/-- Poisoned words where an access reads; of another device's sector only once its answer has come. -/
def State.poisonedAt (s : State) (t : Site) (n : Nat) : Bool :=
  (s.readSite t n).any (fun b => b.2) && (match t with
    | .remote dv pa .. => (s.line dv pa).any fun c => !c.bad
    | _ => true)

/-- The address of the first poisoned word of an access from a on (R472). -/
def State.poisonAddr (s : State) (t : Site) (a : W64) (n : Nat) : W64 :=
  BitVec.ofNat 64 ((a.toNat + ((s.readSite t n).findIdx fun b => b.2)) / 4 * 4)

/-- The check of one access after translation: the tag, a LOST sector, a refusal, a poisoned word that the instruction consumes. -/
def siteFault (s : State) (i : Instr) (rs : List Answered) (whole : List Nat) (a : W64) (t : Site) (n : Nat) : Option MFault :=
  if memTagged i && !(t.taggable && decide (spaceOf a = some .global)) then some { cause := .feUntagged, value := a }
  else match refusal rs t with
    | some c => some { cause := c, value := a }
    | none =>
      if s.lostAt t && !(match t with
          | .dev pa _ _ _ => decide (pa / 32 ∈ whole)
          | _ => false) then some { cause := .vaLost, value := a }
      else if memConsumes i && s.poisonedAt t n then some { cause := .poisonConsumed, value := s.poisonAddr t a n }
      else none

/-- The sites of one access. -/
def accessSites (s : State) (p : Party) (i : Instr) (a : W64) (n : Nat) : Except MFault Sites := s.access p (memPerm i) a n n

/-- All sites of a lane's accesses. -/
def laneSites (s : State) (p : Party) (i : Instr) (op : LaneOp) : Except MFault (List (W64 × Sites)) :=
  op.accs.mapM fun q => (accessSites s p i q.1 q.2).map fun ts => (q.1, ts)

/-- A lane's access after its checks. -/
structure Checked where
  op : LaneOp
  res : Except MFault Sites

/-- The checks of every lane (R333, R359). -/
def checkLanes (s : State) (x : Issue) (i : Instr) (ops : List LaneOp) : List Checked :=
  let first := ops.map fun op => (op, laneSites s (x.party op.lane) i op)
  let whole := if memCoalesces i && !s.mem.lost.isEmpty then fullSectors (first.filterMap fun p => match p.2 with
    | .ok as => if x.w.real.getLsbD p.1.lane then some (as.flatMap fun a => a.2) else none
    | .error _ => none) else []
  first.map fun p =>
    let rs := answersFor x.e.remote p.1.lane
    let u := s.forLane x.e.remote p.1.lane
    { op := p.1
      res := match p.2 with
        | .error e => .error e
        | .ok as =>
          match (as.flatMap fun a => ((List.range a.2.length).zip (partsOf a.1 (a.2.foldl (fun k t => k + t.2) 0))).filterMap fun q =>
              (a.2[q.1]?).bind fun t => siteFault u i rs whole q.2.1 t.1 t.2).head? with
          | some e => .error e
          | none => .ok (as.flatMap fun a => a.2) }

/-! ## Accesses that another device answers (R521) -/

/-- A sector as its home stores it that holds bytes at given places and zeros elsewhere (R340). -/
def sealBytes (key : KeyMat) (unit : Nat) (bs : List (Nat × Byte)) : List Byte :=
  xtsEncrypt key.bits unit ((List.range 32).map fun k => ((bs.find? fun b => b.1 == k).map fun b => b.2).getD 0)

/-- The places of a list of bytes from an offset on. -/
def placedAt {α : Type} (off : Nat) (bs : List α) : List (Nat × α) := (List.range bs.length).zip bs |>.map fun p => (off + p.1, p.2)

/-- The bits of a list of byte places. -/
def placeBits (l : List Nat) : BitVec 32 := Mask.ofList l

/-- A store of bytes at their places in a sector of another device, a later byte at a place replacing an earlier one: a write where it covers
the sector, else a step at the home (R340). -/
def homeStore (key : KeyMat) (slot unit : Nat) (bs : List (Nat × (Byte × Bool))) : AccessOp :=
  let last := bs.reverse
  let data := sealBytes key unit (last.map fun b => (b.1, b.2.1))
  let words := wordBits (((last.filter fun b => b.2.2).map fun b => b.1 / 4).dedup)
  if (List.range 32).all fun k => bs.any fun b => b.1 == k then .write data none words
  else .step { kind := .store, slot := slot, unit := unit, bytes := placeBits (bs.map fun b => b.1), data := data, cmp := [], bad := words }

/-- A lane's own step on the bytes from an offset on, with its operands. -/
def laneStep (k : StepKind) (key : KeyMat) (slot unit off n : Nat) (data cmp : List Byte) : AccessOp :=
  .step { kind := k, slot := slot, unit := unit, bytes := placeBits ((List.range n).map fun i => off + i)
          data := sealBytes key unit (placedAt off (data.take n)), cmp := sealBytes key unit (placedAt off (cmp.take n)), bad := 0 }

/-- What an access asks of another device: a sector, the lane whose own step it is, the flit's operation. An access made once for a wave or by
the dispatcher tells its stores and steps from its reads by a number in place of a lane. -/
structure RemoteAsk where
  dev : Nat
  pa : Nat
  lane : Option Nat
  op : AccessOp
deriving DecidableEq

/-- The sectors that a list of sites reads. -/
def readAsks (ts : Sites) : List RemoteAsk :=
  ((ts.filterMap fun t => match t.1 with
    | .remote dv pa .. => some (dv, pa / 32 * 32)
    | _ => none).dedup).map fun q => { dev := q.1, pa := q.2, lane := none, op := .read 32 }

/-- The bytes that an access stores over its parts, sector by sector of another device: the sector with its key, slot and tweak, and the
bytes at their places. -/
def remoteBytes : Sites → List (Byte × Bool) → List ((Nat × Nat) × (KeyMat × Nat × Nat) × List (Nat × (Byte × Bool)))
  | [], _ => []
  | t :: ts, bs =>
    match t.1 with
    | .remote dv pa va key _ slot =>
      ((dv, pa / 32 * 32), (key, slot, va / 32), placedAt (pa % 32) (bs.take t.2)) :: remoteBytes ts (bs.drop t.2)
    | _ => remoteBytes ts (bs.drop t.2)

/-- The stores of a list of such pieces, coalesced by sector (R340). -/
def storeAsks (ps : List ((Nat × Nat) × (KeyMat × Nat × Nat) × List (Nat × (Byte × Bool)))) : List RemoteAsk :=
  ((ps.map fun p => (p.1, p.2.1)).dedup).map fun q =>
    { dev := q.1.1, pa := q.1.2, lane := none
      op := homeStore q.2.1 q.2.2.1 q.2.2.2 ((ps.filter fun p => decide (p.1 = q.1) && decide (p.2.1 = q.2)).flatMap fun p => p.2.2) }

/-- The sites of the lanes that passed their checks. -/
def goodSites (cs : List Checked) : List (LaneOp × Sites) := cs.filterMap fun c => match c.res with
  | .ok ts => some (c.op, ts)
  | .error _ => none

/-- Everything that checked lanes ask of other devices: sectors to read, coalesced stores, and a step of its own for each lane of an atomic or
a full/empty instruction; a helper lane reads at most (R75, R435). -/
def remoteAsks (x : Issue) (i : Instr) (cs : List Checked) : List RemoteAsk :=
  let good := goodSites cs
  if memPlainStore i then
    storeAsks ((good.filter fun p => x.w.real.getLsbD p.1.lane || memUniform i).flatMap fun p => remoteBytes p.2 (p.1.data.map fun b => (b, false)))
  else match stepKind i with
    | some k =>
      ((good.filter fun p => x.w.real.getLsbD p.1.lane).flatMap fun p => p.2.filterMap fun t => match t.1 with
        | .remote dv pa va key _ slot =>
          some { dev := dv, pa := pa / 32 * 32, lane := some p.1.lane, op := laneStep k key slot (va / 32) (pa % 32) t.2 p.1.data p.1.cmp }
        | _ => none) ++
      if memTagged i && !memStores i then readAsks ((good.filter fun p => !x.w.real.getLsbD p.1.lane).flatMap fun p => p.2) else []
    | none => if memStores i then [] else readAsks (good.flatMap fun p => p.2)

/-- The sectors of other devices that checked lanes touch. -/
def touchesRemote (cs : List Checked) : Bool := (goodSites cs).any fun p => p.2.any fun t => t.1.isRemote

/-- The work an access belongs to: its context, its launch (none for a task's and a packet's), its scope. -/
structure Work where
  ctx : Nat
  launch : Option Nat
  scope : W32

/-- The launch whose completion waits for a group's work (R495). -/
def Group.launchOf (g : Group) : Option Nat := if g.task.isSome then none else some g.launch

def Issue.work (x : Issue) : Work := { ctx := x.g.ctx, launch := x.g.launchOf, scope := x.g.scope }

/-- An access that is dropped and logged where no answer comes (R521). -/
def opStores : AccessOp → Bool
  | .write .. => true
  | .step st => (match st.kind with
    | .store | .stef | .stf => true
    | _ => false)
  | _ => false

/-- Sends an ACCESS flit. -/
def State.sendAccess (s : State) (owner : AccessOwner) (by_ : Work) (dv pa : Nat) (op : AccessOp) : State :=
  let id := s.mgmt.nextAccess
  { s with mgmt := { s.mgmt with
      nextAccess := id + 1
      outAccess := s.mgmt.outAccess ++
        [{ id := id, owner := owner, launch := by_.launch, scope := by_.scope, dev := dv, pa := pa, sentAt := s.clk, stores := opStores op, ctx := by_.ctx }]
      sent := s.mgmt.sent ++ [.access { dev := dv, ctx := by_.ctx, id := id, pa := pa, op := op }] } }

/-- Sends what an access asks for. -/
def State.sendAsks (s : State) (owner : AccessOwner) (by_ : Work) (asks : List RemoteAsk) : State :=
  asks.foldl (fun s a => s.sendAccess owner by_ a.dev a.pa a.op) s

/-- What is asked for by flits numbered from id on, not yet answered. -/
def unanswered : Nat → List RemoteAsk → List Answered
  | _, [] => []
  | id, a :: asks => { id := id, dev := a.dev, pa := a.pa, answer := none, bad := false, lane := a.lane } :: unanswered (id + 1) asks

/-- The answer has not come. -/
def Answered.open_ (r : Answered) : Bool := r.answer.isNone && !r.bad

/-- No answer, or a refusal (R521). -/
def Answered.failed (r : Answered) : Bool := r.bad || (match r.answer with
  | some .lost | some .noPage => true
  | _ => false)

/-- The stores under a number have been answered, and none has failed. -/
def sentOk (rs : List Answered) (k : Nat) : Bool :=
  (rs.any fun r => decide (r.lane = some k)) && !(rs.any fun r => decide (r.lane = some k) && r.failed)

/-- Asks under a number. -/
def tagAsks (k : Nat) (asks : List RemoteAsk) : List RemoteAsk := asks.map fun a => { a with lane := some k }

/-- The asks that have not been sent. -/
def newAsks (rs : List Answered) (asks : List RemoteAsk) : List RemoteAsk :=
  asks.filter fun a => !(rs.any fun r => r.dev == a.dev && r.pa == a.pa && r.lane == a.lane)

/-! ## The operations of atomics and signals (R369, R127, R128) -/

/-- New(old, b) of `atom` on size n. -/
def atomNew (opn n : Nat) (sg : Bool) (old b : Nat) : Nat :=
  let w := 2 ^ (8 * n)
  let lt := fun p q : Nat => if sg then decide ((p + w / 2) % w < (q + w / 2) % w) else decide (p < q)
  match opn with
  | 0 => (old + b) % w
  | 1 => if lt b old then b else old
  | 2 => if lt old b then b else old
  | 3 => old &&& b
  | 4 => old ||| b
  | 5 => old ^^^ b
  | 6 => b
  | _ => (faddOf 0 (if n = 4 then fmtOf .f32 else fmtOf .f64) old b).bits

/-- The signal operations (R127). -/
def sigDec (old : W64) : W64 := if old.msb then old else if old = 0 then -1 else old - 1
def sigSub (old v : W64) : W64 := if old.msb then old else old - v

/-- The counter operations (R128). -/
def ctrAdd (old v : W64) : W64 :=
  BitVec.ofNat 64 (old.toNat / 2 ^ 63 * 2 ^ 63 + min (old.toNat % 2 ^ 63 + v.toNat) (2 ^ 63 - 1))
def ctrPoison (old : W64) : W64 := old ||| 0x8000000000000000

/-- The operations of `sigadd` (R436). -/
def sigaddNew (opn : Nat) (old v : W64) : W64 :=
  match opn with
  | 0 => sigSub old v
  | 1 => sigDec old
  | 2 => v
  | 3 => -1
  | 4 => ctrAdd old v
  | _ => ctrPoison old

/-- Changes a 64-bit word of a party's memory on path C; none where it may not be written or does not lie here (R127, R384). Where the word is
poisoned, or the host does not deliver it, the change is computed on the bytes as they read, and the write clears the poison (DESIGN CHOICE,
log entry 79). -/
def State.changeWordOf (s : State) (p : Party) (a : W64) (f : W64 → W64) : Option State :=
  match s.recordSites p .w a 8 8 with
  | .error _ => none
  | .ok ts =>
    let old := BitVec.ofNat 64 (natOfBytes ((s.readSites ts).map fun b => b.1))
    if ts.any fun t => t.1.isRemote then none else some (s.writeSites false ts (bytesOfNat 8 (f old).toNat))

/-- Changes a 64-bit word of a context's memory. -/
def State.changeWord (s : State) (ctx : Nat) (a : W64) (f : W64 → W64) : Option State := s.changeWordOf (Party.ofCtx ctx) a f

/-- Steps on a word of another device, by the operations' numbers of R436 with their operands, in order; its home performs them (R495, R521). -/
def State.stepAsks (s : State) (p : Party) (a : W64) (ops : List (Nat × W64)) : List RemoteAsk :=
  match s.access p .w a 8 8 with
  | .ok [(.remote dv pa va key _ slot, _)] => ops.map fun o =>
      { dev := dv, pa := pa / 32 * 32, lane := none
        op := laneStep (.signal o.1) key slot (va / 32) (pa % 32) 8 (bytesOfNat 8 o.2.toNat) [] }
  | _ => []

/-- A record stored at another device, sector by sector. -/
def State.recordAsks (s : State) (p : Party) (a : W64) (bs : List Byte) : List RemoteAsk :=
  match s.access p .w a bs.length (min bs.length 8) with
  | .error _ => []
  | .ok ts => storeAsks (remoteBytes ts (bs.map fun b => (b, false)))

/-- Work of a context that belongs to no launch and no scope. -/
def Work.ofCtx (ctx : Nat) : Work := { ctx := ctx, launch := none, scope := 0 }

/-- Operations of R127, R128 and R436 on a word, in order. -/
def wordOps (ops : List (Nat × W64)) (old : W64) : W64 := ops.foldl (fun v o => sigaddNew o.1 v o.2) old

/-- Operations on a word of a context's memory, here or at the word's home; dropped and logged, under a source and with a DETAIL (R108), where
they may not be performed. Of those at another device the log learns when its answer comes. -/
def State.changeOrPost (s : State) (by_ : Work) (source : Nat) (a detail : W64) (ops : List (Nat × W64)) : State :=
  match s.changeWord by_.ctx a (wordOps ops) with
  | some t => t
  | none =>
    let asks := s.stepAsks (Party.ofCtx by_.ctx) a ops
    if asks.isEmpty then s.violation source 0 0xFF 1 by_.ctx a detail
    else s.sendAsks (.post source 0 0xFF by_.ctx a detail) by_ asks

/-- A record of a party's memory stored, here or at its home; dropped and logged where it may not be. -/
def State.storeOrPost (s : State) (p : Party) (source : Nat) (a detail : W64) (bs : List Byte) : State :=
  match s.putRecord p a bs with
  | some t => t
  | none =>
    let asks := s.recordAsks p a bs
    if asks.isEmpty then s.violation source 0 0xFF 1 p.ctx a detail
    else s.sendAsks (.post source 0 0xFF p.ctx a detail) (Work.ofCtx p.ctx) asks

/-- A signal operation of the dispatcher, dropped and logged where it may not be performed (R127). opn is the operation's number in R436. -/
def State.signal (s : State) (by_ : Work) (queue : Nat) (a : W64) (opn : Nat) (v : W64) : State :=
  if a = 0 then s else s.changeOrPost by_ 12 a (BitVec.ofNat 64 queue) [(opn, v)]

/-! ## Events of the machine's own on records at other devices (R495, R521) -/

/-- What an event of the machine's own has asked other devices for. -/
def State.askedFor (s : State) (i : Instr) : List Answered := ((s.mgmt.asked.find? fun p => p.1 == i).map fun p => p.2).getD []

def State.putAsked (s : State) (i : Instr) (rs : List Answered) : State :=
  { s with mgmt := { s.mgmt with asked := (s.mgmt.asked.filter fun p => p.1 != i) ++ if rs = [] then [] else [(i, rs)] } }

/-- Nothing that an event asked for is kept any longer. -/
def State.forget (s : State) (i : Instr) : State := if s.askedFor i = [] then s else s.putAsked i []

/-- The sectors of other devices that a record lies in, as far as they have not been answered. -/
def State.wanted (s : State) (p : Party) (perm : Perm) (a : W64) (n al : Nat) : List RemoteAsk :=
  match s.access p perm a n al with
  | .error _ => []
  | .ok ts => readAsks (ts.filter fun t => !s.atHand t.1)

/-- An event that works on records: where they lie at other devices it waits for what these answer, and then goes on with the answers. -/
def State.withSectors (s : State) (i : Instr) (by_ : Work) (needs : State → List RemoteAsk) (run : State → List Answered → State) : State :=
  let rs := s.askedFor i
  if rs.any Answered.open_ then s
  else
    let u := if rs = [] then s else s.loadLines rs
    let asks := (newAsks rs (needs u)).dedup
    if !asks.isEmpty then (s.sendAsks (.event i) by_ asks).putAsked i (rs ++ unanswered s.mgmt.nextAccess asks)
    else if rs = [] then run s [] else ((run u rs).putAsked i []).dropLines

/-! ## Conditions on memory (R389, R432) -/

/-- The condition of `wtge` and `wteq` on a value of n bytes. -/
def waitHolds (ge : Bool) (n x b : Nat) : Bool :=
  if ge then decide (b ≤ x) else decide (x = b) || (decide (n = 8) && decide (b < 2 ^ 63) && decide (x = b + 2 ^ 63))

/-- What a waiting instruction needs before it is performed in a lane. -/
def laneReady (s : State) (i : Instr) (op : LaneOp) (ts : Sites) : Bool :=
  let full := match ts with
    | t :: _ => s.fullAt t.1
    | [] => false
  match i with
  | .wtge _ f => waitHolds true (mfSize f) (natOfBytes ((s.readSites ts).map fun b => b.1)) (natOfBytes op.data)
  | .wteq _ f => waitHolds false (mfSize f) (natOfBytes ((s.readSites ts).map fun b => b.1)) (natOfBytes op.data)
  | .ldf .. | .ldfe .. => full
  | .stef .. => !full
  | _ => true

def memWaits : Instr → Bool
  | .wtge .. | .wteq .. | .ldf .. | .ldfe .. | .stef .. => true
  | _ => false

def waitKind : Instr → WaitFor
  | .ldf .. | .ldfe .. | .stef .. => .fe
  | _ => .mem

/-! ## Performing a lane -/

/-- Performs an instruction in one lane: the state after, and the bytes the lane receives. -/
def performLane (s : State) (i : Instr) (op : LaneOp) (ts : Sites) : State × List (Byte × Bool) :=
  let got := s.readSites ts
  let old := natOfBytes (got.map fun b => b.1)
  let setFull := fun (s : State) b => match ts with
    | t :: _ => s.setFullAt t.1 b
    | [] => s
  match i with
  | .st .. | .stv .. | .sst .. => (s.writeSites false ts op.data, [])
  | .atom _ f => (s.writeSites false ts (bytesOfNat (mfSize f) (atomNew (mfOpn f) (mfSize f) f.sg old (natOfBytes op.data))), got)
  | .acas _ f => (if got.map (fun b => b.1) = op.cmp then s.writeSites false ts (op.data.take (mfSize f)) else s, got)
  | .sigadd _ f =>
    (s.writeSites false ts (bytesOfNat 8 (sigaddNew (mfOpn f) (BitVec.ofNat 64 old) (BitVec.ofNat 64 (natOfBytes op.data))).toNat), got)
  | .ldfe .. => (setFull s false, got)
  | .stef .. | .stf .. => (setFull (s.writeSites false ts op.data) true, [])
  | .fest _ f =>
    let full := match ts with
      | t :: _ => s.fullAt t.1
      | [] => false
    (if f.sg then setFull s false else s, [(if full then 1 else 0, false)])
  | .cwb .. | .cinv .. => (s, [])
  | _ => (s, got)

/-- What a helper lane receives: a load or one read, 0 where it would fault; an atomic's value is 0 (R75, R435). -/
def performHelper (s : State) (i : Instr) (c : Checked) : List (Byte × Bool) :=
  let n := c.op.accs.foldl (fun k a => k + a.2) 0
  match i, c.res with
  | .atom .., _ | .acas .., _ | .sigadd .., _ | _, .error _ => List.replicate n (0, false)
  | .fest .., .ok ts => (performLane s (match i with
      | .fest h f => .fest h { f with sg := false }
      | j => j) c.op ts).2
  | _, .ok ts => s.readSites ts

/-! ## Ending an instruction -/

/-- The results of an instruction's lanes, in increasing lane order. -/
abbrev LaneResults := List (LaneOp × List (Byte × Bool))

def valueOf (bs : List (Byte × Bool)) : Nat := natOfBytes (bs.map fun b => b.1)

/-- What the results of an instruction do to its wave. -/
def applyResults (w : Wave) (i : Instr) (rs : LaneResults) : Wave :=
  let pend := fun (sg : Bool) (stride : Nat) =>
    let ws := rs.flatMap fun r => resultWrites r.1 (wordsOfBytes sg r.2) stride
    if ws = [] then w else w.addPend ws 0 none
  let toPred := fun (d : Byte) (t : LaneOp → Nat → Bool) => rs.foldl (fun w r => w.putPred d.toNat r.1.lane (t r.1 (valueOf r.2))) w
  match i with
  | .ld _ f => pend f.sg 32
  | .ldv .. | .atom .. | .acas .. | .ldf .. | .ldfe .. => pend false 32
  | .sld .. => pend false 1
  | .poll _ f => toPred f.d fun op v => waitHolds (!f.sg) (mfSize f) v (natOfBytes op.data)
  | .fest _ f => toPred f.d fun _ v => decide (v = 1)
  | .sigadd _ f => rs.foldl (fun w r =>
      let w := w.putLast r.1.lane (BitVec.ofNat 64 (valueOf r.2))
      if f.d = 0xFF then w
      else (resultWrites r.1 (wordsOfBytes false r.2) 32).foldl (fun w r => w.putReg (r.key / 32) (r.key % 32) r.val r.poison) w) w
  | .wtge .. | .wteq .. => rs.foldl (fun w r =>
      (resultWrites r.1 (wordsOfBytes false r.2) 32).foldl (fun w r => w.putReg (r.key / 32) (r.key % 32) r.val r.poison) w) w
  | _ => w

/-- The lanes that fail, with their records: helper lanes raise nothing (R360). -/
def laneFaults (x : Issue) (cs : List Checked) : List LaneFault :=
  cs.filterMap fun c => match c.res with
    | .error e => if x.w.real.getLsbD c.op.lane then some { lane := c.op.lane, cause := e.cause, value := e.value } else none
    | .ok _ => none

/-- Performs an instruction that does not wait, in every lane that passed its checks. -/
def performAll (s : State) (x : Issue) (i : Instr) (cs : List Checked) : State × LaneResults :=
  cs.foldl (fun (p : State × LaneResults) c =>
    if !x.w.real.getLsbD c.op.lane && !memUniform i then
      (if memStores i then p else (p.1, p.2 ++ [(c.op, performHelper (p.1.forLane x.e.remote c.op.lane) i c)]))
    else match c.res with
      | .ok ts => let r := performLane (p.1.forLane x.e.remote c.op.lane) i c.op ts; (r.1, p.2 ++ [(c.op, r.2)])
      | .error _ => p) (s, [])

/-! ## Full/empty waiters (R434) and waits on memory (R390, R391, R433) -/

/-- A lane that waits at a full/empty word: its entry, its operation and when it arrived; of a peer's step, its request. -/
structure Waiter where
  ref : EntryRef
  insn : Instr
  op : LaneOp
  stamp : Nat
  site : Site
  peer : Option AccessReq := none

/-- The waiting lanes of an entry, with their sites. A wave under a scope that is not LIVE waits no more (R435). -/
def entryWaiters (s : State) (r : EntryRef) (x : Issue) : List Waiter :=
  match x.e.insn with
  | none => []
  | some i =>
    if x.e.st ≠ .wait .fe || !s.scopeLive x.g.scope then []
    else x.e.plan.filterMap fun op =>
      if x.e.done.getLsbD op.lane then none
      else match laneSites s (x.party op.lane) i op with
        | .ok ((_, (t, _) :: _) :: _) => some { ref := r, insn := i, op := op, stamp := x.e.stamp, site := t }
        | _ => none

/-- Every entry of every wave that is on a core. -/
def State.entryRefs (s : State) : List EntryRef :=
  s.groups.flatMap fun g => match g.2.place with
    | .resident _ => (List.range g.2.waves.length).flatMap fun wi => (List.range 8).map fun sl => { gid := g.1, wi := wi, slot := sl }
    | _ => []

/-- The offset and the number of the bytes that a step names. -/
def stepSpan (st : HomeStep) : Nat × Nat := (Mask.lowest st.bytes, Mask.count st.bytes)

/-- The operand of a step in plaintext, under the key of the slot here (R340). -/
def stepOperand (s : State) (st : HomeStep) (sealed : List Byte) : List Byte :=
  ((xtsDecrypt (s.slot st.slot).key.bits st.unit sealed).drop (stepSpan st).1).take (stepSpan st).2

/-- Where a peer's step acts. -/
def stepSite (s : State) (st : HomeStep) (pa : Nat) : Site :=
  .dev (pa / 32 * 32 + (stepSpan st).1) (32 * st.unit + (stepSpan st).1) (s.slot st.slot).key true

/-- The instruction that acts in a lane as a step does; none for a store. -/
def stepInsn (st : HomeStep) : Option Instr :=
  let f : MF := { plainMF with sz := if (stepSpan st).2 = 4 then 2 else 3 }
  let at_ := fun (opn : Nat) => BitVec.ofNat 14 (1024 * opn)
  match st.kind with
  | .store => none
  | .atom opn sg => some (.atom plainHdr { f with off := at_ opn, sg := sg })
  | .acas => some (.acas plainHdr f)
  | .signal opn => some (.sigadd plainHdr { f with off := at_ opn })
  | .ldf => some (.ldf plainHdr f)
  | .ldfe => some (.ldfe plainHdr f)
  | .stef => some (.stef plainHdr f)
  | .stf => some (.stf plainHdr f)
  | .fest clr => some (.fest plainHdr { f with sg := clr })

/-- What a step does, as the operation of a lane. -/
def stepLane (s : State) (st : HomeStep) : LaneOp :=
  { lane := 0, accs := [(0, (stepSpan st).2)], data := stepOperand s st st.data, cmp := stepOperand s st st.cmp, dst := none }

/-- A peer's waiting step as a waiter at its word. -/
def PeerWait.waiter (s : State) (p : PeerWait) : Option Waiter :=
  match p.req.op with
  | .step st => (stepInsn st).map fun i =>
      { ref := { gid := 0, wi := 0, slot := 0 }, insn := i, op := stepLane s st, stamp := p.stamp, site := stepSite s st p.req.pa, peer := some p.req }
  | _ => none

/-- The waiters at a word of device memory, first come first, those of peers among them (R434). -/
def wordWaiters (s : State) (word : Nat) : List Waiter :=
  sortBy (fun a b => decide (a.stamp < b.stamp)) (((s.entryRefs.flatMap fun r => match s.issueOf r with
    | some x => entryWaiters s r x
    | none => []) ++ s.mgmt.peerWaits.filterMap fun p => p.waiter s).filter fun w => match w.site with
      | .dev pa _ _ _ => decide (pa / 8 = word)
      | _ => false)

/-- The poison marks of a byte string, the first byte's in bit 0, and the byte string with its marks again. -/
def badBits : List (Byte × Bool) → Nat
  | [] => 0
  | b :: bs => (if b.2 then 1 else 0) + 2 * badBits bs

def withBad : Nat → List Byte → List (Byte × Bool)
  | _, [] => []
  | m, b :: bs => (b, decide (m % 2 = 1)) :: withBad (m / 2) bs

/-- Marks a lane of a waiting entry as done with the bytes it received. -/
def Entry.gotLane (e : Entry) (l : Nat) (bs : List (Byte × Bool)) : Entry :=
  { e with
    done := e.done ||| Mask.one l
    vals := aput l (BitVec.ofNat 64 (valueOf bs)) (if badBits bs = 0 then e.vals else aput (32 + l) (BitVec.ofNat 64 (badBits bs)) e.vals) }

/-- A RESPONSE flit to a peer. -/
def State.reply (s : State) (r : AccessReq) (a : Answer) : State :=
  { s with mgmt := { s.mgmt with sent := s.mgmt.sent ++ [.response r.dev r.id a] } }

/-- The full/empty states of the four words of a sector, and the poison of its eight 32-bit words. -/
def sectorFull (m : Mem) (sec : Nat) : BitVec 4 :=
  (List.range 4).foldl (fun f i => if m.isFull (32 * sec + 8 * i) then f ||| BitVec.ofNat 4 (2 ^ i) else f) 0

def sectorBad (m : Mem) (sec : Nat) : Byte := wordBits ((List.range 8).filter fun i => decide (8 * sec + i ∈ m.poison))

/-- A sector as the home answers it: ciphertext, states, poison. -/
def sectorAnswer (m : Mem) (sec : Nat) : Answer := .data (m.stored sec) (sectorFull m sec) (sectorBad m sec)

/-- Serves one waiting lane, or a peer's waiting step. -/
def serveWaiter (s : State) (w : Waiter) : State :=
  let n := w.op.accs.foldl (fun k a => k + a.2) 0
  let r := performLane s w.insn w.op [(w.site, n)]
  match w.peer with
  | some q =>
    let t := r.1.reply q (sectorAnswer s.mem (q.pa / 32))
    { t with mgmt := { t.mgmt with peerWaits := t.mgmt.peerWaits.filter fun p => p.req != q } }
  | none => r.1.modWave w.ref.gid w.ref.wi fun v => v.modEntry w.ref.slot fun e => e.gotLane w.op.lane r.2

/-- Serves the waiters at a word that its state allows, in order (R434): n bounds how many. -/
def serveWord (s : State) (word : Nat) : Nat → State
  | 0 => s
  | n + 1 =>
    match (wordWaiters s word).find? fun w => laneReady s w.insn w.op [(w.site, 8)] with
    | some w => serveWord (serveWaiter s w) word n
    | none => s

/-- The result of a waiting entry's lanes. -/
def waitResults (e : Entry) : LaneResults :=
  e.plan.filterMap fun op => (aget e.vals op.lane).map fun v =>
    let n := op.accs.foldl (fun k a => k + a.2) 0
    (op, withBad ((aget e.vals (32 + op.lane)).getD 0).toNat (bytesOfNat n v.toNat))

/-- A RATLINE hold keeps satisfied waits in WAIT (R536). -/
def State.held (s : State) : Bool := s.mgmt.ratHold.isSome

/-- Every lane of a waiting entry that is not a helper lane has been performed. -/
def waitOver (x : Issue) : Bool := x.e.plan.all fun op => x.e.done.getLsbD op.lane || !x.w.real.getLsbD op.lane

/-- Ends a wait: the results, the next instruction; an entry that still holds failing lanes parks there (R360). -/
def endWait (s : State) (x : Issue) (h : Hdr) (i : Instr) : State :=
  let w := applyResults x.w i (waitResults x.e)
  let e := x.next h w
  let bad := (Mask.lanes e.mask).any fun l => (aget w.faults l).isSome
  s.setWave x.ref.gid x.ref.wi (w.setEntry x.ref.slot (some (if bad then { e with st := .fault } else e)))

/-- Ends a wait whose lanes are all done, unless a RATLINE hold is in force. -/
def tryEndWait (s : State) (r : EntryRef) (h : Hdr) (i : Instr) (atIssue : Bool) : State :=
  match s.issueOf r with
  | none => s
  | some x =>
    match x.e.st with
    | .wait _ => if waitOver x && (atIssue || !s.held) then endWait s x h i else s
    | _ => s

/-- The header of an instruction. -/
def hdrOf (i : Instr) : Hdr := i.hdr.getD plainHdr

/-- Ends every wait of full/empty words that is over. -/
def endFeWaits (s : State) : State :=
  s.entryRefs.foldl (fun s r => match s.issueOf r with
    | some x => match x.e.insn with
      | some i => if x.e.st = .wait .fe then tryEndWait s r (hdrOf i) i false else s
      | none => s
    | none => s) s

/-- Serves the words whose state an instruction may have changed, then ends the waits that are over. -/
def serveWords (s : State) (words : List Nat) : State := endFeWaits (words.foldl (fun s w => serveWord s w 4096) s)

def siteWords (ts : Sites) : List Nat := ts.filterMap fun t => match t.1 with
  | .dev pa _ _ _ => some (pa / 8)
  | _ => none

/-- A full/empty step at another device is done once its home has answered it. -/
def stepDone (s : State) (i : Instr) (op : LaneOp) (ts : Sites) : Bool :=
  match ts with
  | (.remote dv pa .., _) :: _ => if memTagged i then (s.line dv pa).isSome else laneReady s i op ts
  | _ => laneReady s i op ts

/-- Tries the lanes of a waiting entry that read memory on their own: `wtge`, `wteq`, and words of other devices. -/
def waitLane (s : State) (x : Issue) (i : Instr) (c : Checked) (e : Entry) : State × Entry :=
  match c.res with
  | .error _ => (s, e)
  | .ok ts =>
    let u := s.forLane x.e.remote c.op.lane
    if stepDone u i c.op ts then
      let r := performLane u i c.op ts
      (r.1, e.gotLane c.op.lane (if x.w.real.getLsbD c.op.lane then r.2 else performHelper u i c))
    else (s, e)

/-- Puts the failing lanes of an instruction that waits on a path of their own, where there is room (R360). -/
def splitFaults (w : Wave) (slot : Nat) (e : Entry) (pc : W64) (fs : List LaneFault) : Wave :=
  let f := faultMask fs &&& e.mask
  let w := w.recordLanes pc fs
  if f = 0 then w.setEntry slot (some e)
  else if e.mask &&& ~~~f = 0 then w.setEntry slot (some { e with st := .fault, pass := 0 })
  else if w.room = 0 then w.setEntry slot (some e)
  else (w.setEntry slot (some { e with mask := e.mask &&& ~~~f })).placePath { mask := f, pc := pc, pri := e.pri, faulted := true }

/-- The lanes that take part in an instruction that waits: a failing helper lane receives 0. -/
def waitGood (x : Issue) (cs : List Checked) : List Checked :=
  cs.filter fun c => match c.res with
    | .ok _ => true
    | .error _ => !x.w.real.getLsbD c.op.lane

/-- The tagged words an instruction acts on. -/
def waitWords (i : Instr) (good : List Checked) : List Nat :=
  if memTagged i then (good.flatMap fun c => match c.res with
    | .ok ts => siteWords ts
    | .error _ => []).dedup else []

/-- The entry while it waits. -/
def waitEntry (s : State) (x : Issue) (h : Hdr) (i : Instr) (good : List Checked) : Entry :=
  { (x.e.arm h x.w.nextSeq) with
    st := .wait (waitKind i), insn := some i, exec := x.exec h, plan := good.map fun c => c.op, pass := 0
    remote := if memTagged i then x.e.remote else []
    stamp := if decide (x.e.st = .wait (waitKind i)) then x.e.stamp else s.order + 1 }

/-- One lane that is no helper lane: behind the waiters that its word serves first (R434). -/
def waitOne (x : Issue) (i : Instr) (p : State × Entry) (c : Checked) : State × Entry :=
  if p.2.done.getLsbD c.op.lane then p
  else match c.res with
    | .ok ((.dev pa _ _ _, _) :: _) =>
      if memTagged i && (wordWaiters p.1 (pa / 8)).any fun w => laneReady p.1 w.insn w.op [(w.site, 8)] then p
      else waitLane p.1 x i c p.2
    | _ => waitLane p.1 x i c p.2

/-- One helper lane. -/
def waitHelper (s : State) (rs : List Answered) (i : Instr) (e : Entry) (c : Checked) : Entry :=
  if e.done.getLsbD c.op.lane || memStores i then e else e.gotLane c.op.lane (performHelper (s.forLane rs c.op.lane) i c)

/-- What follows for a waiting entry: its end where every lane is done, and the waiters of its words. -/
def waitSettle (s : State) (x : Issue) (h : Hdr) (i : Instr) (e : Entry) (fs : List LaneFault) (words : List Nat) : State :=
  let t := s.setWave x.ref.gid x.ref.wi (splitFaults x.w x.ref.slot e x.e.pc fs)
  let t := (tryEndWait t x.ref h i (!decide (x.e.st = .wait (waitKind i)))).modWave x.ref.gid x.ref.wi fun w => w.settle
  if memTagged i then serveWords t words else t

/-- Starts or goes on with an instruction that waits: every lane whose condition holds is performed, behind the lanes that came
before it; the entry waits for the others (R390, R432 to R434). -/
def waitGo (s : State) (x : Issue) (h : Hdr) (i : Instr) (cs : List Checked) (fs : List LaneFault) : State :=
  let fs := fs ++ laneFaults x cs
  let good := waitGood x cs
  let real := good.filter fun c => x.w.real.getLsbD c.op.lane
  let words := waitWords i good
  let s := words.foldl (fun s w => serveWord s w 4096) s
  let p := real.foldl (waitOne x i) (s, waitEntry s x h i good)
  let e := (good.filter fun c => !x.w.real.getLsbD c.op.lane).foldl (waitHelper p.1 x.e.remote i) p.2
  let s := { p.1 with order := p.1.order + 1 }
  if real = [] && !fs.isEmpty then finishLanes s x h (applyResults x.w i (waitResults e)) fs
  else waitSettle s x h i e fs words

/-! ## One memory instruction (R359, R360) -/

/-- The LOST sectors that the stores of all lanes write in full are rewritten (R476). -/
def clearLost (s : State) (x : Issue) (i : Instr) (cs : List Checked) : State :=
  if memCoalesces i && !s.mem.lost.isEmpty then
    let whole := fullSectors (cs.filterMap fun c => match c.res with
      | .ok ts => if x.w.real.getLsbD c.op.lane then some ts else none
      | .error _ => none)
    { s with mem := { s.mem with lost := whole.foldl (fun l sec => sdel sec l) s.mem.lost } }
  else s

/-- Two accesses of one wave touch a byte in common. -/
def overlap (a b : W64 × Nat) : Bool := decide (a.1.toNat < b.1.toNat + b.2) && decide (b.1.toNat < a.1.toNat + a.2)

/-- Another entry of the wave waits to store where this instruction, itself no full/empty step, would access: it goes first (R399, R400). -/
def behindStore (x : Issue) (i : Instr) (ops : List LaneOp) : Bool :=
  !memTagged i && ((List.range 8).any fun sl => match x.w.entry? sl with
    | some e => decide (sl ≠ x.ref.slot) && decide (e.st = .wait .fe) && (match e.insn with
        | some (.stef ..) => e.plan.any fun o => !e.done.getLsbD o.lane && o.accs.any fun a => ops.any fun p => p.accs.any (overlap a)
        | _ => false)
    | none => false)

/-- The entry does not issue yet (R178). -/
def State.retryEntry (s : State) (r : EntryRef) : State :=
  s.modWave r.gid r.wi fun w => w.modEntry r.slot fun e =>
    { e with st := .held .retry, pass := 0, insn := none, exec := 0, done := 0, vals := [], stamp := 0, plan := [], remote := [] }

/-- The entry while it is HELD for what other devices answer (R521). -/
def awaitEntry (s : State) (x : Issue) (h : Hdr) (i : Instr) (ops : List LaneOp) (asks : List RemoteAsk) : Entry :=
  { (x.e.arm h x.w.nextSeq) with
    st := if memWaits i && decide (x.e.st = .wait (waitKind i)) then x.e.st else .held .remote
    insn := some i, exec := x.exec h, plan := ops, pass := 0, remote := x.e.remote ++ unanswered s.mgmt.nextAccess asks }

/-- Performs an instruction whose sectors are all at hand. -/
def memPerform (s : State) (x : Issue) (h : Hdr) (i : Instr) (cs : List Checked) (fs : List LaneFault) : State :=
  if memWaits i then waitGo s x h i cs fs
  else if memUniform i then
    match cs.head? with
    | some { op := _, res := .error e } => parkWhole s x h e.cause e.value
    | _ => let p := performAll s x i cs; finish p.1 x h (applyResults x.w i p.2)
  else
    let words := (cs.flatMap fun c => match c.res with
      | .ok ts => siteWords ts
      | .error _ => []).dedup
    let s := if memTagged i then serveWords s words else s
    let p := performAll (clearLost s x i cs) x i cs
    let s := finishLanes p.1 x h (applyResults x.w i p.2) (fs ++ laneFaults x cs)
    if memTagged i then serveWords s words else s

/-- The whole of a memory instruction whose lanes' operations are known: it is HELD while another device answers, and performed
in every lane that passes; failing lanes park. -/
def memGo (s : State) (x : Issue) (h : Hdr) (i : Instr) (ops : List LaneOp) (fs : List LaneFault) : State :=
  if behindStore x i ops then s.retryEntry x.ref
  else
    let cs := checkLanes s x i ops
    let asks := if touchesRemote cs then newAsks x.e.remote (remoteAsks x i cs) else []
    if !asks.isEmpty then
      (s.sendAsks (.entry x.ref) x.work asks).setWave x.ref.gid x.ref.wi
        (splitFaults x.w x.ref.slot (awaitEntry s x h i ops asks) x.e.pc fs).settle
    else if x.e.remote.any Answered.open_ then s
    else
      let used := cs.any fun c => match c.res with
        | .ok ts => ts.any fun t => t.1.isHost
        | .error _ => false
      (memPerform s x h i cs fs).dropLines.hostUsed used

/-- A per-lane memory instruction: no effect with an empty EXEC (R393); lanes with poisoned sources park. -/
def memLanes (s : State) (h : Hdr) (i : Instr) (srcs : Issue → Nat → List Src) (op : Issue → Nat → LaneOp) :
    Host.Outcome State Fault Refusal :=
  withIssuer s fun x =>
    if x.exec h = 0 then finish s x h x.w
    else
      let fs := poisonFaults x h (srcs x)
      memGo s x h i ((goodLanes x h fs).map (op x)) fs

/-- The lanes of an entry whose fault records are held with it (R360). -/
def heldFaults (x : Issue) : List LaneFault :=
  (Mask.lanes x.e.mask).filterMap fun l => (aget x.w.faults l).map fun r => { lane := l, cause := r.cause, value := r.value }

/-- Asks the homes to give up the full/empty steps of some entries that wait there, before those entries stop (R414, R435). -/
def State.withdrawWaits (s : State) (p : EntryRef → Bool) : State :=
  let mine := fun (o : OutAccess) => o.waiting && (match o.owner with
    | .entry r => p r
    | _ => false)
  (s.mgmt.outAccess.filter mine).foldl (fun s o =>
    let s := { s with mgmt := { s.mgmt with
      outAccess := s.mgmt.outAccess.map fun (q : OutAccess) => if q.id = o.id then { q with waiting := false, sentAt := s.clk } else q } }
    s.sendAccess .nobody { ctx := o.ctx, launch := o.launch, scope := o.scope } o.dev o.pa (.withdraw o.id)) s

/-- Goes on with an instruction that waits for another device or for a condition. -/
def memResume (s : State) (r : EntryRef) : State :=
  match s.issueOf r with
  | none => s
  | some x =>
    match x.e.insn with
    | some i => memGo s x (hdrOf i) i x.e.plan (heldFaults x)
    | none => s

/-- A lane of a waiting entry whose word may no longer be read parks with its record, and the other lanes wait on (R360, R472). -/
def failWaiting (s : State) (x : Issue) (lane : Nat) (f : MFault) : State :=
  let e := { x.e with plan := x.e.plan.filter fun op => op.lane != lane }
  let r : LaneFault := { lane := lane, cause := f.cause, value := f.value }
  s.setWave x.ref.gid x.ref.wi (splitFaults x.w x.ref.slot e x.e.pc [r]).settle

/-- One waiting lane is read again (R391). -/
def waitEvent (s : State) (r : EntryRef) (lane : Nat) : State :=
  match s.issueOf r with
  | none => s
  | some x =>
    match x.e.st, x.e.insn, x.e.plan.find? fun op => op.lane == lane with
    | .wait k, some i, some op =>
      if decide (k ≠ waitKind i) || !memWaits i || x.e.done.getLsbD lane then s
      else
        let cs := checkLanes s x i [op]
        if touchesRemote cs then memResume s r
        else match cs with
          | [{ op := _, res := .error f }] =>
            if x.w.real.getLsbD lane then tryEndWait (failWaiting s x lane f) r (hdrOf i) i false else s
          | [c] =>
            let p := waitLane s x i c x.e
            let s := (p.1.setWave r.gid r.wi (x.w.setEntry r.slot (some p.2))).hostUsed (match c.res with
              | .ok ts => ts.any fun t => t.1.isHost
              | .error _ => false)
            tryEndWait s r (hdrOf i) i false
          | _ => s
    | _, _, _ => s

end Sys2Proof.Machine
end

