-- ==== Sys2Proof/Machine/Integer.lean ====
section
/-! DEFINITION. Integer: the per-lane integer instructions and moves of opcodes 0x10 to 0x2F (R215 to R231). -/

namespace Sys2Proof.Machine

/-! ## Values and fitting (R216) -/

/-- The value of an element pattern in a type: two's complement for signed types (R30). -/
def intOf (t : Ty) (e : Nat) : Int :=
  if t.isSigned && decide (2 ^ (tyWidth t - 1) ≤ e) then (e : Int) - 2 ^ tyWidth t else e

def typeMin (t : Ty) : Int := if t.isSigned then -(2 ^ (tyWidth t - 1) : Int) else 0
def typeMax (t : Ty) : Int := if t.isSigned then 2 ^ (tyWidth t - 1) - 1 else 2 ^ tyWidth t - 1

/-- Fits an exact result to an element pattern (R216). -/
def fit (t : Ty) (sat : Bool) (z : Int) : Nat :=
  let v := if sat then max (typeMin t) (min (typeMax t) z) else z
  (v % 2 ^ tyWidth t).toNat

def zip2 (f : Nat → Nat → Nat) : List Nat → List Nat → List Nat
  | a :: as, b :: bs => f a b :: zip2 f as bs
  | _, _ => []

/-- An operation on two operands, element by element, its exact value fitted. -/
def intOp2 (t : Ty) (sat : Bool) (f : Int → Int → Int) (a b : W64) : W64 :=
  ofElems t (zip2 (fun p q => fit t sat (f (intOf t p) (intOf t q))) (elems t a) (elems t b))

/-! ## Exact operations -/

/-- Quotient (R220). -/
def quot (t : Ty) (a b : Int) : Int :=
  if b = 0 then (if t.isSigned then (if 0 ≤ a then typeMax t else typeMin t) else typeMax t)
  else Int.tdiv a b

/-- Remainder (R220). -/
def remZ (a b : Int) : Int := if b = 0 then a else Int.tmod a b

/-- The high half of the product (R219). -/
def mulHigh (t : Ty) (a b : Int) : Int := a * b / 2 ^ tyWidth t

/-! ## Bits (R222 to R224) -/

/-- A left shift of an element by s, 0 from the width on. -/
def shlE (w a s : Nat) : Nat := if w ≤ s then 0 else a * 2 ^ s % 2 ^ w

def shrE (w a s : Nat) : Nat := if w ≤ s then 0 else a / 2 ^ s

/-- A right shift that copies the top bit. -/
def sarE (w a s : Nat) : Nat :=
  let z : Int := if 2 ^ (w - 1) ≤ a then (a : Int) - 2 ^ w else a
  ((z / 2 ^ (min s w)) % 2 ^ w).toNat

def rolE (w a s : Nat) : Nat :=
  let k := s % w
  (a * 2 ^ k % 2 ^ w) ||| (a / 2 ^ (w - k))

/-- A shift of every element; the count of each is the low 8 bits of B, of B's element for a packed type (R222). -/
def shiftOp (f : Nat → Nat → Nat → Nat) (t : Ty) (a b : W64) : W64 :=
  if tyPacked t then ofElems t (zip2 (fun p q => f 16 p (q % 256)) (elems t a) (elems t b))
  else BitVec.ofNat 64 (f (tyWidth t) (a.toNat % 2 ^ tyWidth t) (b.toNat % 256))

def popE (w a : Nat) : Nat := ((List.range w).filter fun i => a.testBit i).length

def clzE (w a : Nat) : Nat := if a = 0 then w else w - 1 - Nat.log2 a

def ctzE (w a : Nat) : Nat := ((List.range w).find? fun i => a.testBit i).getD w

def brevE (w a : Nat) : Nat := (List.range w).foldl (fun r i => if a.testBit i then r + 2 ^ (w - 1 - i) else r) 0

def bitOp1 (f : Nat → Nat → Nat) (t : Ty) (a : W64) : W64 := BitVec.ofNat 64 (f (tyWidth t) (a.toNat % 2 ^ tyWidth t))

/-- Field extract (R223): position p, length n. -/
def bfeE (t : Ty) (a p n : Nat) : Nat :=
  let w := tyWidth t
  let n := min n w
  if n = 0 then 0
  else
    let f := ((intOf t a / 2 ^ p) % 2 ^ n).toNat
    if t.isSigned && decide (2 ^ (n - 1) ≤ f) then f + 2 ^ w - 2 ^ n else f

/-- Field insert (R223). -/
def bfiE (w a b p n : Nat) : Nat :=
  let n := min n w
  let m := ((2 ^ n - 1) * 2 ^ p) % 2 ^ w
  (a &&& (2 ^ w - 1 - m)) ||| ((b * 2 ^ p) &&& m)

/-- One byte of `perm` under its selector (R224). -/
def permByte (y : Nat) (c : Nat) : Nat :=
  let b := y / 256 ^ (c % 8) % 256
  match c / 8 % 4 with
  | 0 => b
  | 1 => 0
  | 2 => if 128 ≤ b then 255 else 0
  | _ => brevE 8 b

def permE (a b c : W64) : W64 :=
  let y := a.toNat % 2 ^ 32 + 2 ^ 32 * (b.toNat % 2 ^ 32)
  BitVec.ofNat 64 ((List.range 4).foldl (fun r i => r + 256 ^ i * permByte y (c.toNat / 256 ^ i % 256)) 0)

/-- The relations of `cmp` (R226). -/
def relHolds (fn : Nat) (a b : Int) : Bool :=
  match fn % 8 with
  | 0 => decide (a = b)
  | 1 => decide (a ≠ b)
  | 2 => decide (a < b)
  | 3 => decide (a ≤ b)
  | 4 => decide (b < a)
  | 5 => decide (b ≤ a)
  | _ => false

/-! ## Shapes -/

/-- Two sources in the row's type, the result fitted (R215, R216). -/
def laneInt2 (s : State) (h : Hdr) (f : RF) (op : Ty → Int → Int → Int) : Host.Outcome State Fault Refusal :=
  withIssuer s fun x =>
    let t := WF.ty f
    perLane s x h f.d t.is64 (fun l => [srcA s x f t l, srcB s x f t l])
      fun l => intOp2 t (f.md.getLsbD 5) (op t) (srcA s x f t l).val (srcB s x f t l).val

/-- Two sources in the row's type, a bit pattern. -/
def laneBit2 (s : State) (h : Hdr) (f : RF) (op : W64 → W64 → W64) : Host.Outcome State Fault Refusal :=
  withIssuer s fun x =>
    let t := WF.ty f
    perLane s x h f.d t.is64 (fun l => [srcA s x f t l, srcB s x f t l])
      fun l => BitVec.ofNat 64 ((op (srcA s x f t l).val (srcB s x f t l).val).toNat % 2 ^ tyBits t)

/-- A source and a count (R217, R222). -/
def laneShift (s : State) (h : Hdr) (f : RF) (op : Nat → Nat → Nat → Nat) : Host.Outcome State Fault Refusal :=
  withIssuer s fun x =>
    let t := WF.ty f
    perLane s x h f.d t.is64 (fun l => [srcA s x f t l, srcB s x f (WF.countTy t) l])
      fun l => shiftOp op t (srcA s x f t l).val (srcB s x f (WF.countTy t) l).val

def laneBit1 (s : State) (h : Hdr) (f : RF) (op : Nat → Nat → Nat) : Host.Outcome State Fault Refusal :=
  withIssuer s fun x =>
    let t := WF.ty f
    perLane s x h f.d t.is64 (fun l => [srcA s x f t l]) fun l => bitOp1 op t (srcA s x f t l).val

/-! ## Meanings -/

def execAdd (h : Hdr) (f : RF) (s : State) : Host.Outcome State Fault Refusal := laneInt2 s h f fun _ a b => a + b
def execSub (h : Hdr) (f : RF) (s : State) : Host.Outcome State Fault Refusal := laneInt2 s h f fun _ a b => a - b
def execMul (h : Hdr) (f : RF) (s : State) : Host.Outcome State Fault Refusal := laneInt2 s h f fun _ a b => a * b
def execMulh (h : Hdr) (f : RF) (s : State) : Host.Outcome State Fault Refusal := laneInt2 s h f mulHigh
def execDivI (h : Hdr) (f : RF) (s : State) : Host.Outcome State Fault Refusal := laneInt2 s h f quot
def execRemI (h : Hdr) (f : RF) (s : State) : Host.Outcome State Fault Refusal := laneInt2 s h f fun _ => remZ
def execMinI (h : Hdr) (f : RF) (s : State) : Host.Outcome State Fault Refusal := laneInt2 s h f fun _ a b => min a b
def execMaxI (h : Hdr) (f : RF) (s : State) : Host.Outcome State Fault Refusal := laneInt2 s h f fun _ a b => max a b

/-- `mad` (R219): the exact A × B + C, fitted once. -/
def execMad (h : Hdr) (f : RF) (s : State) : Host.Outcome State Fault Refusal :=
  withIssuer s fun x =>
    let t := WF.ty f
    perLane s x h f.d t.is64 (fun l => [srcA s x f t l, srcB s x f t l, srcC s x f t l]) fun l =>
      let ab := zip2 (fun p q => p * 2 ^ 64 + q) (elems t (srcA s x f t l).val) (elems t (srcB s x f t l).val)
      ofElems t (zip2 (fun pq r => fit t (f.md.getLsbD 5) (intOf t (pq / 2 ^ 64) * intOf t (pq % 2 ^ 64) + intOf t r)) ab
        (elems t (srcC s x f t l).val))

/-- `abs` (R219, R221). -/
def execAbsI (h : Hdr) (f : RF) (s : State) : Host.Outcome State Fault Refusal :=
  withIssuer s fun x =>
    let t := WF.ty f
    perLane s x h f.d t.is64 (fun l => [srcA s x f t l]) fun l =>
      ofElems t ((elems t (srcA s x f t l).val).map fun e => fit t (f.md.getLsbD 5) ((intOf t e).natAbs : Int))

def execAndB (h : Hdr) (f : RF) (s : State) : Host.Outcome State Fault Refusal := laneBit2 s h f fun a b => a &&& b
def execOrB (h : Hdr) (f : RF) (s : State) : Host.Outcome State Fault Refusal := laneBit2 s h f fun a b => a ||| b
def execXorB (h : Hdr) (f : RF) (s : State) : Host.Outcome State Fault Refusal := laneBit2 s h f fun a b => a ^^^ b
def execAndn (h : Hdr) (f : RF) (s : State) : Host.Outcome State Fault Refusal := laneBit2 s h f fun a b => a &&& ~~~b
def execShl (h : Hdr) (f : RF) (s : State) : Host.Outcome State Fault Refusal := laneShift s h f shlE
def execShr (h : Hdr) (f : RF) (s : State) : Host.Outcome State Fault Refusal := laneShift s h f shrE
def execSar (h : Hdr) (f : RF) (s : State) : Host.Outcome State Fault Refusal := laneShift s h f sarE
def execRol (h : Hdr) (f : RF) (s : State) : Host.Outcome State Fault Refusal := laneShift s h f rolE
def execPopc (h : Hdr) (f : RF) (s : State) : Host.Outcome State Fault Refusal := laneBit1 s h f popE
def execClz (h : Hdr) (f : RF) (s : State) : Host.Outcome State Fault Refusal := laneBit1 s h f clzE
def execCtz (h : Hdr) (f : RF) (s : State) : Host.Outcome State Fault Refusal := laneBit1 s h f ctzE
def execBrev (h : Hdr) (f : RF) (s : State) : Host.Outcome State Fault Refusal := laneBit1 s h f brevE

/-- `bfe` (R223): B and C are single registers. -/
def execBfe (h : Hdr) (f : RF) (s : State) : Host.Outcome State Fault Refusal :=
  withIssuer s fun x =>
    let t := WF.ty f
    let b := fun l => readSrc s x .n32 f.b l
    let c := fun l => readSrc s x .n32 f.c l
    perLane s x h f.d t.is64 (fun l => [srcA s x f t l, b l, c l]) fun l =>
      BitVec.ofNat 64 (bfeE t ((srcA s x f t l).val.toNat % 2 ^ tyWidth t) ((b l).val.toNat % 256) ((c l).val.toNat % 256))

/-- `bfi` (R223): C holds the position in [7:0] and the length in [15:8]. -/
def execBfi (h : Hdr) (f : RF) (s : State) : Host.Outcome State Fault Refusal :=
  withIssuer s fun x =>
    let t := WF.ty f
    let c := fun l => readSrc s x .n32 f.c l
    perLane s x h f.d t.is64 (fun l => [srcA s x f t l, srcB s x f t l, c l]) fun l =>
      BitVec.ofNat 64 (bfiE (tyWidth t) ((srcA s x f t l).val.toNat % 2 ^ tyWidth t) (srcB s x f t l).val.toNat
        ((c l).val.toNat % 256) ((c l).val.toNat / 256 % 256))

def execPerm (h : Hdr) (f : RF) (s : State) : Host.Outcome State Fault Refusal :=
  withIssuer s fun x =>
    perLane s x h f.d false (fun l => [srcA s x f .b32 l, srcB s x f .b32 l, srcC s x f .b32 l])
      fun l => permE (srcA s x f .b32 l).val (srcB s x f .b32 l).val (srcC s x f .b32 l).val

/-- `sel` (R225). -/
def execSel (h : Hdr) (f : RF) (s : State) : Host.Outcome State Fault Refusal :=
  withIssuer s fun x =>
    let t := WF.ty f
    perLane s x h f.d t.is64 (fun l => [readSrc s x t f.a l, readSrc s x t f.b l]) fun l =>
      if (x.w.pred f.c.toNat l) != f.fn.getLsbD 0 then (readSrc s x t f.a l).val else (readSrc s x t f.b l).val

/-- `cmp` (R226). -/
def execCmp (h : Hdr) (f : RF) (s : State) : Host.Outcome State Fault Refusal :=
  withIssuer s fun x =>
    let t := WF.ty f
    perLanePred s x h f.d (fun l => [srcA s x f t l, srcB s x f t l]) fun l =>
      let w := 2 ^ tyWidth t
      relHolds f.fn.toNat (intOf t ((srcA s x f t l).val.toNat % w)) (intOf t ((srcB s x f t l).val.toNat % w)) &&
        (!f.fn.getLsbD 3 || x.w.pred f.c.toNat l)

def execMov (h : Hdr) (f : RF) (s : State) : Host.Outcome State Fault Refusal :=
  withIssuer s fun x =>
    let t := WF.ty f
    perLane s x h f.d t.is64 (fun l => [readSrc s x t f.a l]) fun l => (readSrc s x t f.a l).val

/-- The immediate of format I (R17). -/
def immI (f : IF) : W64 := if f.x then f.imm.signExtend 64 else f.imm.zeroExtend 64

def execMovi (h : Hdr) (f : IF) (s : State) : Host.Outcome State Fault Refusal :=
  withIssuer s fun x => perLane s x h f.d f.x (fun _ => []) fun _ => immI f

/-- `addi` (R228). -/
def execAddi (h : Hdr) (f : IF) (s : State) : Host.Outcome State Fault Refusal :=
  withIssuer s fun x =>
    let t := if f.x then Ty.n64 else Ty.b32
    perLane s x h f.d f.x (fun l => [readSrc s x t f.a l]) fun l =>
      BitVec.ofNat 64 (((readSrc s x t f.a l).val + immI f).toNat % 2 ^ tyWidth t)

/-- `lea` (R229). -/
def leaE (t : Ty) (k : Nat) (a b : W64) : W64 :=
  a + (if t.isSigned then (lo32 b).signExtend 64 else (lo32 b).zeroExtend 64) <<< k

def execLea (h : Hdr) (f : RF) (s : State) : Host.Outcome State Fault Refusal :=
  withIssuer s fun x =>
    let t := WF.ty f
    perLane s x h f.d true (fun l => [readSrc s x .n64 f.a l, readSrc s x t f.b l]) fun l =>
      leaE t (f.fn.toNat % 8) (readSrc s x .n64 f.a l).val (readSrc s x t f.b l).val

/-! ## Indirect registers (R230, R231) -/

/-- The register an index names, or none when it is out of range. -/
def movrReg (w : Wave) (is64 : Bool) (i : W32) : Option Nat :=
  let n := i.toNat
  if 4096 ≤ n || (is64 && decide (n % 2 = 1)) then none
  else if 2048 ≤ n then (if n % 2048 < 8 then some n else none)
  else if n < w.nregs then some n
  else none

/-- The index: an s-register read for the whole entry. -/
def movrIndex (s : State) (x : Issue) (c : Byte) : Src := srcSreg x s.free false (c.toNat - 0xC0)

def execMovrGet (h : Hdr) (f : RF) (s : State) : Host.Outcome State Fault Refusal :=
  withIssuer s fun x =>
    let t := WF.ty f
    let i := movrIndex s x f.a
    match movrReg x.w t.is64 (lo32 i.val) with
    | none => if x.acts h then parkWhole s x h .window i.val else finish s x h x.w
    | some r => perLane s x h f.d t.is64 (fun l => [i, srcReg x.w s.free t.is64 r l]) fun l => (srcReg x.w s.free t.is64 r l).val

def execMovrPut (h : Hdr) (f : RF) (s : State) : Host.Outcome State Fault Refusal :=
  withIssuer s fun x =>
    let t := WF.ty f
    let i := movrIndex s x f.b
    match movrReg x.w t.is64 (lo32 i.val) with
    | none => if x.acts h then parkWhole s x h .window i.val else finish s x h x.w
    | some r =>
      let fs := poisonFaults x h fun l => [i, readSrc s x t f.a l]
      finishLanes s x h ((goodLanes x h fs).foldl (fun w l =>
        let v := (readSrc s x t f.a l).val
        let w := (w.putLast l v).putReg r l (lo32 v) false
        if t.is64 then w.putReg (r + 1) l (hi32 v) false else w) x.w) fs

end Sys2Proof.Machine
end

