-- ==== Sys2Proof/Machine/Uniform.lean ====
section
/-! DEFINITION. Uniform: the uniform-register and predicate instructions, opcodes 0x30 to 0x3B (R232 to R238). -/

namespace Sys2Proof.Machine

/-- b32 counts as n32 in the uniform arithmetic (R233, R234). -/
def uniTy : Ty → Ty
  | .b32 => .n32
  | t => t

/-- The functions of `salu` (R233): each as the vector instruction of its name computes one lane. -/
def saluFn (fn : Nat) (t : Ty) (a b : W64) : W64 :=
  let w := tyWidth t
  let m := fun v : W64 => BitVec.ofNat 64 (v.toNat % 2 ^ w)
  match fn with
  | 0 => intOp2 t false (fun p q => p + q) a b
  | 1 => intOp2 t false (fun p q => p - q) a b
  | 2 => intOp2 t false (fun p q => p * q) a b
  | 3 => intOp2 t false (mulHigh t) a b
  | 4 => m (a &&& b)
  | 5 => m (a ||| b)
  | 6 => m (a ^^^ b)
  | 7 => m (a &&& ~~~b)
  | 8 => shiftOp shlE t a b
  | 9 => shiftOp shrE t a b
  | 10 => shiftOp sarE t a b
  | 11 => intOp2 t false (fun p q => min p q) a b
  | _ => intOp2 t false (fun p q => max p q) a b

def execSalu (h : Hdr) (f : RF) (s : State) : Host.Outcome State Fault Refusal :=
  withIssuer s fun x =>
    let t := uniTy (WF.ty f)
    let a := readS s x t.is64 f.a
    let b := readS s x (t.is64 && !decide (f.fn.toNat ∈ [8, 9, 10])) f.b
    oncePerWave s x h [a, b] (finishGroup s x h fun g => g.putS x.ref.wi s.free f.d t.is64 (saluFn f.fn.toNat t a.val b.val))

def execScmp (h : Hdr) (f : RF) (s : State) : Host.Outcome State Fault Refusal :=
  withIssuer s fun x =>
    let t := uniTy (WF.ty f)
    let a := readS s x t.is64 f.a
    let b := readS s x t.is64 f.b
    oncePerWave s x h [a, b] (finishGroup s x h fun g =>
      g.putS x.ref.wi s.free f.d t.is64 (if relHolds f.fn.toNat (intOf t a.val.toNat) (intOf t b.val.toNat) then 1 else 0))

def execSmovi (h : Hdr) (f : IF) (s : State) : Host.Outcome State Fault Refusal :=
  withIssuer s fun x => oncePerWave s x h [] (finishGroup s x h fun g => g.putS x.ref.wi s.free f.d f.x (immI f))

def execSmov (h : Hdr) (f : RF) (s : State) : Host.Outcome State Fault Refusal :=
  withIssuer s fun x =>
    let t := WF.ty f
    let a := readS s x t.is64 f.a
    oncePerWave s x h [a] (finishGroup s x h fun g => g.putS x.ref.wi s.free f.d t.is64 a.val)

/-- `sfrom` (R235): the value of A in one lane, whatever that lane's state; a poisoned word is consumed only in a real lane of
EXEC (R471, R472). -/
def execSfrom (h : Hdr) (f : RF) (s : State) : Host.Outcome State Fault Refusal :=
  withIssuer s fun x =>
    let t := WF.ty f
    let b := readS s x false f.b
    let lane := if f.fn = 0 then b.val.toNat % 32 else f.b.toNat % 32
    let a := readSrc s x t f.a lane
    let consumed := (x.exec h &&& x.w.real).getLsbD lane
    oncePerWave s x h ((if f.fn = 0 then [b] else []) ++ (if consumed then [a] else []))
      (finishGroup s x h fun g => g.putS x.ref.wi s.free f.d t.is64 a.val)

def execSsel (h : Hdr) (f : RF) (s : State) : Host.Outcome State Fault Refusal :=
  withIssuer s fun x =>
    let t := WF.ty f
    let a := readS s x t.is64 f.a
    let b := readS s x t.is64 f.b
    let c := readS s x false f.c
    oncePerWave s x h [a, b, c] (finishGroup s x h fun g => g.putS x.ref.wi s.free f.d t.is64 (if c.val ≠ 0 then a.val else b.val))

def execSlea (h : Hdr) (f : RF) (s : State) : Host.Outcome State Fault Refusal :=
  withIssuer s fun x =>
    let a := readS s x true f.a
    let b := readS s x false f.b
    oncePerWave s x h [a, b] (finishGroup s x h fun g => g.putS x.ref.wi s.free f.d true (leaE (WF.ty f) (f.fn.toNat % 8) a.val b.val))

/-! ## Predicates (R238) -/

/-- The 16-bit table of `plop`, in the bits of T, FN, RM and MOD. -/
def plopTable (f : RF) : Nat := f.t.toNat % 16 * 4096 + f.fn.toNat * 256 + f.rm.toNat * 64 + f.md.toNat

def execPlop (h : Hdr) (f : RF) (s : State) : Host.Outcome State Fault Refusal :=
  withIssuer s fun x =>
    let p := fun (c : Byte) l => if x.w.pred c.toNat l then 1 else 0
    perLanePred s x h f.d (fun _ => []) fun l =>
      (plopTable f).testBit (8 * p f.d l + 4 * p f.a l + 2 * p f.b l + p f.c l)

def execPfrom (h : Hdr) (f : RF) (s : State) : Host.Outcome State Fault Refusal :=
  withIssuer s fun x =>
    let t := WF.ty f
    perLanePred s x h f.d (fun l => [readSrc s x t f.a l]) fun l =>
      let a := (readSrc s x t f.a l).val
      if f.fn = 0 then a.getLsbD l else decide (a ≠ 0)

/-- `pto` (R238): absent lanes' bits of the mask read 0. -/
def execPto (h : Hdr) (f : RF) (s : State) : Host.Outcome State Fault Refusal :=
  withIssuer s fun x =>
    let p := x.w.preds[f.a.toNat]?.getD 0
    perLane s x h f.d false (fun _ => []) fun l =>
      if f.fn = 0 then (if p.getLsbD l then 1 else 0) else p.zeroExtend 64

def execPcntPred (h : Hdr) (f : RF) (s : State) : Host.Outcome State Fault Refusal :=
  withIssuer s fun x =>
    let c := x.exec h &&& x.w.real &&& (x.w.preds[f.a.toNat]?.getD 0)
    perLane s x h f.d false (fun _ => []) fun l =>
      BitVec.ofNat 64 ((Mask.lanes c).filter fun i => f.fn = 0 || decide (i < l)).length

end Sys2Proof.Machine
end

