-- ==== Sys2Proof/Machine/Convert.lean ====
section
/-! DEFINITION. Convert: L6 and block scales (R257 to R265) and the conversions of opcodes 0x60 to 0x65 (R288 to R295). -/

namespace Sys2Proof.Machine

/-! ## L6 (R257 to R263) -/

/-- T[f] of R258. -/
def l6T (f : Nat) : Nat := match f with
  | 0 => 0x8000
  | 1 => 0x9838
  | 2 => 0xB505
  | _ => 0xD745

/-- V(k) = T[f] × 2^(e − 15) with k − 16 = 4e + f: the integer and the exponent (R258). -/
def l6V (k : Int) : Nat × Int := (l6T (((k - 16) % 4).toNat), (k - 16) / 4 - 15)

/-- The value of a code: none for NaR (R257). -/
def l6Val (c : Nat) : Option FV :=
  let c := c % 64
  if c = 32 then none
  else if c = 0 then some (.fin false 0 0)
  else some (.fin (decide (32 ≤ c)) (l6V (c % 32 : Nat)).1 (l6V (c % 32 : Nat)).2)

/-- The log-domain product of two codes (R259): none for NaR, +0 for zero. -/
def l6Mul (a b : Nat) : Option FV :=
  let a := a % 64
  let b := b % 64
  if a = 32 || b = 32 then none
  else if a = 0 || b = 0 then some (.fin false 0 0)
  else
    let v := l6V ((a % 32 : Nat) + (b % 32 : Nat) - 16)
    some (.fin (decide (32 ≤ a) != decide (32 ≤ b)) v.1 v.2)

/-- V'(m) in units of 2^−20 (R261); every V(m) with m below 32 is a multiple. -/
def l6Grid (m : Nat) : Nat := if m = 0 then 0 else (l6V m).1 * 2 ^ ((l6V m).2 + 20).toNat

/-- The largest m ≤ n with V'(m) ≤ |a| for a value in units of 2^x. -/
def l6Below (le : Nat → Bool) : Nat → Nat
  | 0 => 0
  | n + 1 => if le (n + 1) then n + 1 else l6Below le n

/-- ToL6 of a value with the threshold th ÷ 64 (R261, R262). -/
def toL6 (th : Nat) (v : FV) : Nat :=
  match v with
  | .nan _ => 32
  | .inf _ => 32
  | .fin n m x =>
    -- everything in units of 2^y, y below both grids
    let y : Int := min x (-20)
    let a := m * 2 ^ (x - y).toNat
    let g := fun k => l6Grid k * 2 ^ (-20 - y).toNat
    let mag :=
      if 31 ≤ l6Below (fun k => decide (g k ≤ a)) 31 then 31
      else
        let m0 := l6Below (fun k => decide (g k ≤ a)) 30
        let t := (a - g m0) * 64
        let c := th * (g (m0 + 1) - g m0)
        if c < t then m0 + 1 else if t < c then m0 else if m0 % 2 = 0 then m0 else m0 + 1
    if mag = 0 then 0 else (if n then 32 else 0) + mag

/-- θ = (BitRev5(p mod 32) + 1/2) ÷ 32 in units of 1/64 (R262). -/
def ditherTh (p : Nat) : Nat := 2 * brevE 5 (p % 32) + 1

/-- The plain threshold 1/2 in units of 1/64. -/
def plainTh : Nat := 32

/-- An L6 value in a binary format (R263). -/
def fromL6 (m : Fmt) (rm : Nat) (v : Option FV) : Nat :=
  match v with
  | some (.fin n k x) => (roundTo m rm { neg := n, m := k, x := x, more := false }).bits
  | _ => m.nan

/-! ## cvt (R288, R289) -/

/-- A floating-point pattern to an integer type (R289). -/
def cvtFI (fs : Fmt) (td : Ty) (rm : Nat) (a : Nat) : Nat × Nat :=
  let inv := fun (z : Int) => ((z % 2 ^ tyWidth td).toNat, flInvalid)
  match fvOf fs a with
  | .nan _ => (0, flInvalid)
  | .inf n => inv (if n then typeMin td else typeMax td)
  | .fin n m x =>
    let r := toIntegral rm n m x
    let z : Int := if n then -(r.1 : Int) else r.1
    if z < typeMin td then inv (typeMin td)
    else if typeMax td < z then inv (typeMax td)
    else ((z % 2 ^ tyWidth td).toNat, if r.2 then flInexact else 0)

/-- One element of `cvt`. -/
def cvtElem (td ts : Ty) (rm : Nat) (sat : Bool) (a : Nat) : Nat × Nat :=
  if td.isFloat then
    let r := if ts.isFloat then cvtFF (fmtOf ts) (fmtOf td) rm a
      else
        let z := intOf ts a
        roundTo (fmtOf td) rm { neg := decide (z < 0), m := z.natAbs, x := 0, more := false }
    let r := withSat (fmtOf td) sat r
    (r.bits, r.fl)
  else if ts.isFloat then cvtFI (fmtOf ts) td rm a
  else (fit td sat (intOf ts a), 0)

def execCvt (h : Hdr) (f : RF) (s : State) : Host.Outcome State Fault Refusal :=
  withIssuer s fun x =>
    let td := WF.ty f
    let ts := (Ty.ofBits (f.c.truncate 5)).getD .b32
    -- FN[0] reads a 16-bit source from the high half; a constant code stands there for its 32-bit integer (DESIGN CHOICE, log entry 92)
    let hi := f.fn.getLsbD 0
    let rd := fun (c : Byte) (neg abs : Bool) l =>
      let r := if hi then
          let q := readSrc s x .b32 c l
          { q with val := q.val >>> 16 }
        else readSrc s x ts c l
      { r with val := modSrc ts neg abs r.val }
    let a := rd f.a (f.md.getLsbD 0) (f.md.getLsbD 1)
    let b := rd f.b (f.md.getLsbD 2) (f.md.getLsbD 3)
    let one := fun (v : W64) => cvtElem td ts f.rm.toNat (f.md.getLsbD 5) (v.toNat % 2 ^ tyWidth ts)
    if tyPacked td then
      perLaneFp s x h f.d false (fun l => [a l, b l]) fun l =>
        { val := ofElems td [(one (a l).val).1, (one (b l).val).1], fl := (one (a l).val).2 ||| (one (b l).val).2 }
    else
      perLaneFp s x h f.d td.is64 (fun l => [a l]) fun l => { val := BitVec.ofNat 64 (one (a l).val).1, fl := (one (a l).val).2 }

/-! ## cvl6, lmul, bscl (R291, R293, R294) -/

def execCvl6 (h : Hdr) (f : RF) (s : State) : Host.Outcome State Fault Refusal :=
  withIssuer s fun x =>
    let t := WF.ty f
    let j := fun l => readSrc s x .n32 f.b l
    let p := fun l => readSrc s x .n32 f.c l
    match f.fn.toNat with
    | 0 =>
      perLane s x h f.d false (fun l => [srcA s x f t l])
        fun l => BitVec.ofNat 64 (toL6 plainTh (fvOf (fmtOf t) (srcA s x f t l).val.toNat))
    | 1 =>
      perLane s x h f.d t.is64 (fun l => [readSrc s x .l6 f.a l])
        fun l => BitVec.ofNat 64 (fromL6 (fmtOf t) f.rm.toNat (l6Val (readSrc s x .l6 f.a l).val.toNat))
    | _ =>
      perLane s x h f.d false (fun l => [srcA s x f t l, j l, p l]) fun l =>
        BitVec.ofNat 64 (toL6 (ditherTh ((j l).val.toNat % 32 + (p l).val.toNat % 32)) (fvOf (fmtOf t) (srcA s x f t l).val.toNat))

def execLmul (h : Hdr) (f : RF) (s : State) : Host.Outcome State Fault Refusal :=
  withIssuer s fun x =>
    let a := fun l => readSrc s x .l6 f.a l
    let b := fun l => readSrc s x .l6 f.b l
    let c := fun l => readSrc s x .n32 f.c l
    let srcs := fun l => if f.fn = 0 then [a l, b l] else [a l, b l, c l]
    perLane s x h f.d false srcs fun l =>
      let v := l6Mul (a l).val.toNat (b l).val.toNat
      BitVec.ofNat 64 (if WF.ty f = .l6 then
          (match v with
            | none => 32
            | some v => toL6 (if f.fn = 0 then plainTh else ditherTh ((c l).val.toNat % 32)) v)
        else fromL6 (fmtOf .f32) 0 v)

/-- The least e ≤ 254 with a ≤ V(31) × 2^(e − 127), or 254 (R293). -/
def bsclE (v : FV) : Nat :=
  match v with
  | .fin _ m x =>
    (firstBelow 255 fun e =>
      let q := (l6V 31).2 + (e : Int) - 127
      let y := min x q
      decide (m * 2 ^ (x - y).toNat ≤ (l6V 31).1 * 2 ^ (q - y).toNat)).getD 254
  | _ => 255

def execBsclFind (h : Hdr) (f : RF) (s : State) : Host.Outcome State Fault Refusal :=
  withIssuer s fun x =>
    let t := WF.ty f
    perLane s x h f.d false (fun l => [srcA s x f t l]) fun l => BitVec.ofNat 64 (bsclE (fvOf (fmtOf t) (srcA s x f t l).val.toNat))

def execBsclApply (h : Hdr) (f : RF) (s : State) : Host.Outcome State Fault Refusal :=
  withIssuer s fun x =>
    let b := fun l => readSrc s x .n32 f.b l
    perLaneFp s x h f.d false (fun l => [srcA s x f .f32 l, b l]) fun l =>
      let a := (srcA s x f .f32 l).val.toNat
      let e := (b l).val.toNat % 256
      let m := fmtOf .f32
      let r := if e = 255 then nanRes m (fvOf m a).isSig else scaleOf m f.rm.toNat a (127 - (e : Int))
      { val := BitVec.ofNat 64 r.bits, fl := r.fl }

/-! ## pk6 and upk6 (R292, R295) -/

/-- Writes a block of registers in one lane; the last-result file is updated once, with the last of them (R295). -/
def Wave.putBlock (w : Wave) (r lane : Nat) (vs : List W32) : Wave :=
  let w := w.putLast lane ((vs.getLast?.getD 0).zeroExtend 64)
  ((List.range vs.length).zip vs).foldl (fun w p => w.putReg (r + p.1) lane p.2 false) w

/-- A per-lane instruction that writes a block of vector registers. -/
def perLaneBlock (s : State) (x : Issue) (h : Hdr) (d : Byte) (srcs : Nat → List Src) (f : Nat → List W32) : State :=
  let fs := poisonFaults x h srcs
  finishLanes s x h ((goodLanes x h fs).foldl (fun w l => w.putBlock (x.w.physOf d.toNat) l (f l)) x.w) fs

def execPk6 (h : Hdr) (f : RF) (s : State) : Host.Outcome State Fault Refusal :=
  withIssuer s fun x =>
    let t := WF.ty f
    let v := fun i l =>
      let r := srcReg x.w s.free false (x.w.physOf f.a.toNat + i) l
      { r with val := modSrc t (f.md.getLsbD 0) (f.md.getLsbD 1) (BitVec.ofNat 64 (r.val.toNat % 2 ^ tyWidth t)) }
    let c := fun l => readSrc s x .n32 f.c l
    let dith := f.fn.getLsbD 1
    perLaneBlock s x h f.d (fun l => (List.range 16).map (fun i => v i l) ++ (if dith then [c l] else [])) fun l =>
      let g := (List.range 16).foldl (fun g i =>
        let j := (if f.fn.getLsbD 0 then 16 else 0) + i
        let th := if dith then ditherTh (j + (c l).val.toNat % 32) else plainTh
        g + toL6 th (fvOf (fmtOf t) (v i l).val.toNat) * 2 ^ (6 * i)) 0
      [BitVec.ofNat 32 g, BitVec.ofNat 32 (g / 2 ^ 32), BitVec.ofNat 32 (g / 2 ^ 64)]

def execUpk6 (h : Hdr) (f : RF) (s : State) : Host.Outcome State Fault Refusal :=
  withIssuer s fun x =>
    let t := WF.ty f
    let v := fun i l => srcReg x.w s.free false (x.w.physOf f.a.toNat + i) l
    perLaneBlock s x h f.d (fun l => [v 0 l, v 1 l, v 2 l]) fun l =>
      let g := (v 0 l).val.toNat + (v 1 l).val.toNat * 2 ^ 32 + (v 2 l).val.toNat * 2 ^ 64
      (List.range 16).map fun i => BitVec.ofNat 32 (fromL6 (fmtOf t) f.rm.toNat (l6Val (g / 2 ^ (6 * i) % 64)))

end Sys2Proof.Machine
end

