-- ==== Sys2Proof/Machine/Engine.lean ====
section
/-! DEFINITION. Engine: the matrix engines (R297 to R303), the halyard (R307 to R310), the rendezvous of twins (R319 to R325), the
scoreboard (R311) and what an engine does with the operation at the head of its queue (R266, R313 to R315, R325). -/

namespace Sys2Proof.Machine

/-! ## Engines and waves -/

def State.engine (s : State) (n : Nat) : Engine := sget Engine.start s.engines n

def State.modEngine (s : State) (n : Nat) (f : Engine → Engine) : State := { s with engines := smod Engine.start n f s.engines }

/-- The core of a group that holds its core's resources. -/
def Place.core? : Place → Option Nat
  | .resident c => some c
  | .faulted c => some c
  | _ => none

def State.waveOf (s : State) (r : WaveRef) : Option Wave := s.wave? r.gid r.wi

/-- The engine of a wave: four quadrants to a core, four partitions of eight wave slots to a quadrant (R2, R177, R297). -/
def State.engineOf (s : State) (r : WaveRef) : Option Nat :=
  match s.group? r.gid, s.waveOf r with
  | some g, some w => g.place.core?.map fun c => 4 * c + w.slot / 32
  | _, _ => none

/-- The twin of a wave: the wave of its index in the other group of the pair (R84, R319). -/
def State.partner (s : State) (r : WaveRef) : Option WaveRef :=
  match s.group? r.gid with
  | some g =>
    if g.twin then ((s.gangMembers r.gid g)[g.rank ^^^ 1]?).map fun p => { gid := p, wi := r.wi } else none
  | none => none

/-- The partner of a wave whose pair is JOINED. -/
def State.joinedWith (s : State) (r : WaveRef) : Option WaveRef :=
  match s.waveOf r with
  | some w => if w.pair = .joined then s.partner r else none
  | none => none

/-- A wave holds the baton, alone or as a JOINED twin (R307, R323). -/
def State.holds (s : State) (r : WaveRef) : Bool :=
  match s.engineOf r with
  | none => false
  | some n =>
    let h := (s.engine n).holder
    decide (h = some r) || (match s.joinedWith r with
      | some p => decide (h = some p)
      | none => false)

/-! ## The halyard (R308 to R310, R323) -/

/-- Ends the waits of one wave that pass a test, at the next instruction. -/
def State.releaseWave (s : State) (r : WaveRef) (p : WaitFor → Bool) : State :=
  s.modWave r.gid r.wi fun w => (List.range 8).foldl (fun w i => w.modEntry i fun e => match e.st with
    | .wait k => if p k then w.goOn { e with pc := e.pc + 8 } else e
    | _ => e) w

/-- Releases the entries of a wave that wait in `mtake`, unless a RATLINE hold is in force. -/
def State.releaseMtake (s : State) (r : WaveRef) : State :=
  if s.holds r && !s.held then s.releaseWave r fun k => decide (k = .mtake) else s

/-- Grant (R308): the baton to a wave; the twin of a JOINED pair holds it with it. -/
def State.grant (s : State) (n : Nat) (r : WaveRef) : State :=
  let twin := s.joinedWith r
  let s := s.modEngine n fun e => { e with holder := some r, fifo := e.fifo.filter fun q => decide (q ≠ r) && decide (some q ≠ twin) }
  let own := fun (s : State) (q : WaveRef) => (s.modWave q.gid q.wi fun w => { w with awaitBaton := false }).releaseMtake q
  let s := own s r
  match twin with
  | some p => own s p
  | none => s

/-- Frees the baton and grants it to the head of the FIFO (R309). -/
def State.giveBaton (s : State) (n : Nat) : State :=
  match (s.engine n).fifo with
  | [] => s.modEngine n fun e => { e with holder := none }
  | r :: _ => s.grant n r

/-- A wave that ends or is cancelled gives up its baton and its place in the FIFO (R310). -/
def State.dropBaton (s : State) (r : WaveRef) : State :=
  match s.engineOf r with
  | none => s
  | some n =>
    let s := s.modEngine n fun e => { e with fifo := e.fifo.filter fun q => q != r }
    if (s.engine n).holder = some r then s.giveBaton n else s

/-- The waves of groups that leave their cores together leave every FIFO, so that none of them is granted a baton meanwhile (R326). -/
def State.leaveFifos (s : State) (gids : List Nat) : State :=
  (s.engines.map fun e => e.1).foldl (fun s n => s.modEngine n fun e => { e with fifo := e.fifo.filter fun q => !gids.contains q.gid }) s

/-! ## The operation queue -/

/-- A physical vector register, fixed at issue (R303). -/
def vecReg (w : Wave) (code : Byte) : Nat := w.wb + code.toNat

/-- The format X fields of a matrix instruction. -/
def xfOf : Instr → Option XF
  | .mma _ f | .mmat _ f | .mzero _ f | .mdrain _ f | .mdrag _ f | .mpop _ f | .mpush _ f | .mtake _ f | .mgive _ f | .mstat _ f => some f
  | _ => none

/-- The operation of an instruction issued by one wave. -/
def soloOp (i : Instr) (r : WaveRef) (w : Wave) : Option MatOp :=
  (xfOf i).map fun f =>
    let rs := if f.s = 0xFF then none else some (vecReg w f.s)
    { insn := i, wave := r, partner := none, ra := vecReg w f.a, rb := vecReg w f.b, rs := rs, pra := 0, prs := none, next := 0, only := none }

def opsLimit : Nat := 16
def rowsLimit : Nat := 64

def State.opsFull (s : State) (n : Nat) : Bool := decide (opsLimit ≤ (s.engine n).ops.length)

def State.enqueue (s : State) (n : Nat) (op : MatOp) : State := s.modEngine n fun e => { e with ops := e.ops ++ [op] }

/-- An entry goes on behind a matrix instruction. -/
def State.passEntry (s : State) (r : EntryRef) : State :=
  s.modWave r.gid r.wi fun w => w.modEntry r.slot fun e => w.goOn { e with pc := e.pc + 8 }

/-- Parks the entry of a tile instruction without the baton (R307). -/
def State.noBaton (s : State) (r : EntryRef) : State :=
  s.modWave r.gid r.wi fun w => match w.entry? r.slot with
    | some e => (w.parkEntry r.slot e .noBaton 0).settle
    | none => w

/-- A tile instruction is performed solo for an entry: the baton, then the queue (R307, R300). -/
def State.soloIssue (s : State) (r : EntryRef) (i : Instr) (op : MatOp) : State :=
  let wr : WaveRef := { gid := r.gid, wi := r.wi }
  if !s.holds wr then s.noBaton r
  else match s.engineOf wr with
    | none => s
    | some n => if s.opsFull n then s.retryEntry r else (s.enqueue n { op with insn := i }).passEntry r

/-! ## The rendezvous (R320, R321) -/

/-- An issue that waits at the rendezvous: its instruction and registers, and when it came. -/
structure Arrival where
  ref : EntryRef
  pc : W64
  op : MatOp
  stamp : Nat

/-- The registers of a waiting issue, kept in its entry. -/
def arrivalVals (op : MatOp) : List (Nat × W64) :=
  [(0, BitVec.ofNat 64 op.ra), (1, BitVec.ofNat 64 op.rb)] ++ (match op.rs with
    | some r => [(2, BitVec.ofNat 64 r)]
    | none => [])

/-- The issues of a wave that wait at the rendezvous, oldest first. -/
def State.arrivals (s : State) (r : WaveRef) : List Arrival :=
  match s.waveOf r with
  | none => []
  | some w =>
    sortBy (fun a b => decide (a.stamp < b.stamp)) ((List.range 8).filterMap fun sl =>
      match w.entry? sl with
      | some e => match e.st, e.insn with
        | .wait .rendezvous, some i =>
          let v := fun k => (aget e.vals k).map fun x => x.toNat
          some { ref := { gid := r.gid, wi := r.wi, slot := sl }, pc := e.pc, stamp := e.stamp
                 op := { insn := i, wave := r, partner := none, ra := (v 0).getD 0, rb := (v 1).getD 0, rs := v 2, pra := 0, prs := none
                         next := 0, only := none } }
        | _, _ => none
      | none => none)

/-- A waiting issue is performed solo: without the baton it parks, at a full queue it keeps its place and its registers until there is room. -/
def State.soloArrival (s : State) (a : Arrival) : State :=
  if !s.holds a.op.wave then s.noBaton a.ref
  else match s.engineOf a.op.wave with
    | none => s
    | some n => if s.opsFull n then s else (s.enqueue n a.op).passEntry a.ref

/-- Every issue that waits on either side is performed solo, in the order of issue (R320, R321). -/
def State.soloArrivals (s : State) (as : List Arrival) : State :=
  (sortBy (fun a b => decide (a.stamp < b.stamp)) as).foldl State.soloArrival s

/-- A wave that holds its place in the FIFO goes on waiting for the baton; its twin, whose holding came only through the pair, does not (R323). -/
def State.awaitsAlone (s : State) (r : WaveRef) : State :=
  let waits := match s.engineOf r with
    | some n => (s.engine n).fifo.contains r
    | none => false
  s.modWave r.gid r.wi fun w => { w with awaitBaton := w.awaitBaton && waits }

/-- Parts the pair of a wave: the causes that each side records, then the waiting issues solo (R321, R440). -/
def State.part (s : State) (r : WaveRef) (own other : Nat) : State :=
  match s.joinedWith r with
  | none => s
  | some p =>
    let as := s.arrivals r ++ s.arrivals p
    let s := s.modWave r.gid r.wi fun w => { w with pair := .parted own }
    let s := s.modWave p.gid p.wi fun w => { w with pair := .parted other }
    let s := (s.awaitsAlone r).awaitsAlone p
    if s.held then s else s.soloArrivals as

/-- The issues that a full queue keeps waiting behind a parting enter it as it has room, in the order of issue (R320). -/
def State.serveParted (s : State) : State :=
  if s.held then s
  else
    let as := s.groups.flatMap fun g => match g.2.place with
      | .resident _ => ((List.range g.2.waves.length).zip g.2.waves).flatMap fun p =>
          match p.2.pair with
          | .parted _ => if p.2.stopping then [] else s.arrivals { gid := g.1, wi := p.1 }
          | _ => []
      | _ => []
    (sortBy (fun a b => decide (a.stamp < b.stamp)) as).foldl (fun s a => match s.engineOf a.op.wave with
      | some n => if s.opsFull n then s else (s.enqueue n a.op).passEntry a.ref
      | none => s) s

/-- The lead of two twins comes first. -/
def State.leadFirst (s : State) (a b : Arrival) : Arrival × Arrival :=
  match s.group? a.ref.gid with
  | some g => if g.follower then (b, a) else (a, b)
  | none => (a, b)

/-- A meeting of two issues at one address: one joined operation (R320, R323, R324). -/
def State.meet (s : State) (a b : Arrival) : State :=
  let p := s.leadFirst a b
  let wr : WaveRef := { gid := p.1.ref.gid, wi := p.1.ref.wi }
  if !s.holds wr then (s.noBaton a.ref).noBaton b.ref
  else match s.engineOf wr with
    | none => s
    | some n =>
      let op := { p.1.op with
        partner := some { gid := p.2.ref.gid, wi := p.2.ref.wi }
        pra := p.2.op.ra, prs := p.2.op.rs }
      ((s.enqueue n op).passEntry a.ref).passEntry b.ref

/-- An issue of a twin instruction by a wave of a JOINED pair arrives (R320). A RATLINE hold keeps a met rendezvous waiting (R536). -/
def State.arrive (s : State) (x : Issue) (h : Hdr) (i : Instr) (op : MatOp) (p : WaveRef) : State :=
  let e := { (x.e.arm h x.w.nextSeq) with
    st := .wait .rendezvous, insn := some i, exec := x.exec h, vals := arrivalVals op, stamp := s.order + 1, pass := 0 }
  let wait := fun (s : State) => { s.setWave x.ref.gid x.ref.wi (x.w.setEntry x.ref.slot (some e)) with order := s.order + 1 }
  match if s.held then [] else s.arrivals p with
  | [] => wait s
  | q :: _ =>
    if q.pc = x.e.pc then
      (match s.engineOf op.wave with
        | some n =>
          if s.opsFull n && s.holds op.wave then s.retryEntry x.ref
          else (wait s).meet q { ref := x.ref, pc := x.e.pc, op := op, stamp := s.order + 1 }
        | none => s)
    else (wait s).part op.wave 1 1

/-! ## The scoreboard (R311, R195) -/

/-- The registers of the K-steps t to REP of a block of k registers a step. -/
def stepRegs (base k t rep : Nat) : List Nat := (List.range (k * (rep + 1 - t))).map fun j => base + k * t + j

/-- Registers per step of a shape. -/
def shapeRegs (sh : Nat) : Nat := if sh = 2 then 12 else 8

/-- The scale registers that steps t to REP read, even (A) or odd (B). -/
def scaleRegs (rs : Option Nat) (sh bsel t rep odd : Nat) : List Nat :=
  match rs with
  | some r => if sh = 2 then (List.range (rep + 1 - t)).map fun k => r + 2 * ((bsel + t + k) / 2) + odd else []
  | none => []

/-- The registers of a wave that an operation protects from its step t on (R311). -/
def opProtects (op : MatOp) (r : WaveRef) : List Nat :=
  match op.insn with
  | .mma _ f | .mmat _ f =>
    let sh := f.sh.toNat
    let rep := f.rep.toNat
    let k := shapeRegs sh
    let b := f.bsel.toNat
    (if op.wave = r then
      (if op.only = some false then [] else stepRegs op.ra k op.next rep ++ scaleRegs op.rs sh b op.next rep 0) ++
        stepRegs op.rb k op.next rep ++ scaleRegs op.rs sh b op.next rep 1 else []) ++
    (if op.partner = some r && decide (op.only ≠ some true) then stepRegs op.pra k op.next rep ++ scaleRegs op.prs sh b op.next rep 0 else [])
  | .mdrag .. | .mpush .. => if op.wave = r then [op.ra] else []
  | _ => []

/-- Every vector register of a wave that the engine has still to read. -/
def State.protectedRegs (s : State) (r : WaveRef) : List Nat :=
  (s.engines.flatMap fun e => e.2.ops.flatMap fun op => opProtects op r) ++ (s.arrivals r).flatMap fun a => opProtects a.op r

/-! ## Tiles -/

def tileKey (t i j : Nat) : Nat := 1024 * t + 32 * i + j

def Engine.elem (e : Engine) (t i j : Nat) : W32 := sget 0 e.tiles (tileKey t i j)
def Engine.elemBad (e : Engine) (t i j : Nat) : Bool := decide (tileKey t i j ∈ e.tpoison)

/-- Replaces a tile: 32 rows of 32 elements with their poison. -/
def Engine.putTile (e : Engine) (t : Nat) (rows : List (List (W32 × Bool))) : Engine :=
  let flat := (List.range 1024).zip rows.flatten
  { e with
    tiles := (e.tiles.filter fun p => decide (p.1 < 1024 * t)) ++ (flat.filterMap fun p => if p.2.1 = 0 then none else some (1024 * t + p.1, p.2.1)) ++
      e.tiles.filter fun p => decide (1024 * (t + 1) ≤ p.1)
    tpoison := (e.tpoison.filter fun k => decide (k < 1024 * t)) ++ (flat.filterMap fun p => if p.2.2 then some (1024 * t + p.1) else none) ++
      e.tpoison.filter fun k => decide (1024 * (t + 1) ≤ k) }

/-- Replaces a row of a tile. -/
def Engine.putRow (e : Engine) (t i : Nat) (row : List (W32 × Bool)) : Engine :=
  ((List.range 32).zip row).foldl (fun e p =>
    { e with
      tiles := sput 0 (tileKey t i p.1) p.2.1 e.tiles
      tpoison := if p.2.2 then sins (tileKey t i p.1) e.tpoison else sdel (tileKey t i p.1) e.tpoison }) e

/-! ## One K-step (R301, R302, R266, R267, R313) -/

/-- One side of a step in one lane: the elements' values or codes, block scales, poison. -/
structure Side where
  vals : List FV
  codes : List Nat
  scale : List Nat
  bad : Bool

/-- The register words of a block in a lane (R312). -/
def blockWords (w : Wave) (free base k lane : Nat) : List (W32 × Bool) := (List.range k).map fun j => w.readReg free (base + j) lane

/-- The two scales of a K-step in a lane (R265). -/
def scalesOf (w : Wave) (free : Nat) (rs : Option Nat) (q odd lane : Nat) : List Nat × Bool :=
  match rs with
  | none => ([127, 127], false)
  | some r =>
    let v := w.readReg free (r + 2 * (q / 2) + odd) lane
    let x := v.1.toNat / 2 ^ (16 * (q % 2))
    ([x % 256, x / 256 % 256], v.2)

def sideOf (w : Wave) (free sh base : Nat) (rs : Option Nat) (q t odd lane : Nat) : Side :=
  let k := shapeRegs sh
  let ws := blockWords w free (base + k * t) k lane
  let bad := ws.any fun v => v.2
  if sh = 2 then
    let sc := scalesOf w free rs q odd lane
    { vals := []
      codes := (List.range 4).flatMap fun g =>
        let n := natOfBytes (((ws.drop (3 * g)).take 3).flatMap fun v => bytesOfNat 4 v.1.toNat)
        (List.range 16).map fun c => n / 2 ^ (6 * c) % 64
      scale := sc.1, bad := bad || sc.2 }
  else
    let fm := if sh = 0 then fmtOf .bf16 else fmtOf .f16
    { vals := ws.flatMap fun v => [fvOf fm (v.1.toNat % 65536), fvOf fm (v.1.toNat / 65536)], codes := [], scale := [], bad := bad }

/-- The products of an element; none for a product that makes it NaN. -/
def products (sh : Nat) (a b : Side) : List (Option FV) :=
  if sh = 2 then
    ((List.range 64).zip (a.codes.zip b.codes)).map fun p =>
      let ea : Nat := (a.scale[p.1 / 32]?).getD 127
      let eb : Nat := (b.scale[p.1 / 32]?).getD 127
      if ea = 255 || eb = 255 then none
      else match l6Mul p.2.1 p.2.2 with
        | some (.fin n m x) => some (.fin n m (x + (ea : Int) + (eb : Int) - 254))
        | _ => none
  else (a.vals.zip b.vals).map fun p => match mulV p.1 p.2 with
    | some (.nan _) => none
    | r => r

/-- One element of a step (R266, R267). -/
def stepElem (sh : Nat) (neg : Bool) (acc : FV) (a b : Side) : W32 :=
  let ps := products sh a b
  let nan : W32 := BitVec.ofNat 32 (fmtOf .f32).nan
  if ps.any (fun p => p.isNone) || acc.isNan then nan
  else match sumRound (fmtOf .f32) 0 (acc :: (ps.filterMap id).map fun v => if neg then v.negate else v) with
    | some r => BitVec.ofNat 32 r.bits
    | none => nan

/-- One K-step of a product into tile t: A of wave wa, B of wave wb. -/
def kstep (e : Engine) (free : Nat) (f : XF) (step t : Nat) (wa : Wave) (ra : Nat) (rsa : Option Nat) (wb : Wave) (rb : Nat) (rsb : Option Nat) : Engine :=
  let sh := f.sh.toNat
  let q := f.bsel.toNat + step
  let as := (List.range 32).map fun i => sideOf wa free sh ra rsa q step 0 i
  let bs := (List.range 32).map fun j => sideOf wb free sh rb rsb q step 1 j
  let zero := f.zero && decide (step = 0)
  e.putTile t (((List.range 32).zip as).map fun a => ((List.range 32).zip bs).map fun b =>
    (stepElem sh f.neg (if zero then .fin false 0 0 else fvOf (fmtOf .f32) (e.elem t a.1 b.1).toNat) a.2 b.2,
     a.2.bad || b.2.bad || (!zero && e.elemBad t a.1 b.1)))

/-! ## Rows (R315, R325) -/

/-- A row of `mdrag` (R325). -/
def dragElem (c u g : W32) : W32 :=
  let fm := fmtOf .f32
  let d := (fusedSum fm 0 [] [fvOf fm c.toNat, (fvOf fm u.toNat).negate]).bits
  BitVec.ofNat 32 (fusedSum fm 0 [(fvOf fm g.toNat, fvOf fm d)] [fvOf fm u.toNat]).bits

/-- The tile base of a wave. -/
def State.tileBaseOf (s : State) (r : WaveRef) : Nat := match s.waveOf r with
  | some w => w.tileBase
  | none => 0

/-- The elements of the row that an operation pushes next. -/
def rowOf (s : State) (e : Engine) (op : MatOp) : List (W32 × Bool) :=
  let w := s.waveOf op.wave
  match op.insn with
  | .mdrain _ f =>
    let t := s.tileBaseOf op.wave + f.acc.toNat
    let i := f.low.toNat % 32 + op.next
    (List.range 32).map fun j => (e.elem t i j, e.elemBad t i j)
  | .mdrag _ f =>
    let c := s.tileBaseOf op.wave + f.acc.toNat
    let u := s.tileBaseOf (op.partner.getD op.wave) + f.low.toNat % 16
    (List.range 32).map fun j =>
      let g := match w with
        | some w => w.readReg s.free op.ra j
        | none => (0, false)
      let v := match op.held with
        | some h => (sget 0 h.1 (tileKey 0 op.next j), decide (tileKey 0 op.next j ∈ h.2))
        | none => (e.elem u op.next j, e.elemBad u op.next j)
      (dragElem (e.elem c op.next j) v.1 g.1, e.elemBad c op.next j || v.2 || g.2)
  | _ => []

/-- Rows that an operation pushes in all. -/
def opRows (i : Instr) : Nat :=
  match i with
  | .mdrain _ f => f.low.toNat / 32 + 1
  | .mdrag .. => 32
  | _ => 0

def mkRow (tag : WaveRef) (xs : List (W32 × Bool)) : Row :=
  { tag := tag
    elems := ((List.range 32).zip xs).filterMap fun p => if p.2.1 = 0 then none else some (p.1, p.2.1)
    poison := Mask.of fun l => match xs[l]? with
      | some p => p.2
      | none => false }

/-- The oldest row of a wave with the queue without it. -/
def takeRow (r : WaveRef) : List Row → Option (Row × List Row)
  | [] => none
  | q :: qs => if q.tag = r then some (q, qs) else (takeRow r qs).map fun p => (p.1, q :: p.2)

/-- Writes a row to a register of a wave in the lanes of a mask, as a variable-latency result (R316, R472). -/
def Wave.popTo (w : Wave) (reg : Nat) (m : Mask) (row : Row) : Wave :=
  w.addPend ((Mask.lanes m).map fun l => { key := regKey reg l, val := sget 0 row.elems l, poison := row.poison.getLsbD l }) 0 none

/-- An `mpop` that waits takes a row that has come, the first that came first (R316). -/
def State.serveMpop (s : State) (n : Nat) (r : WaveRef) : State :=
  if s.held then s
  else match s.waveOf r with
    | none => s
    | some w =>
      let ws := sortBy (fun (a b : Nat × Entry) => decide (a.2.stamp < b.2.stamp)) ((List.range 8).filterMap fun i => match w.entry? i with
        | some e => if e.st = .wait .mpop then some (i, e) else none
        | none => none)
      match ws, takeRow r (s.engine n).drain with
      | (i, e) :: _, some (row, rest) =>
        let w := w.popTo (((aget e.vals 0).getD 0).toNat) e.exec row
        (s.modEngine n fun en => { en with drain := rest }).setWave r.gid r.wi (w.setEntry i (some (w.goOn { e with pc := e.pc + 8 })))
      | _, _ => s

/-- The head of an engine's queue is finished. -/
def State.popOp (s : State) (n : Nat) : State := s.modEngine n fun e => { e with ops := e.ops.drop 1 }

/-- The head of an engine's queue moves to its next step or row, and leaves the queue after the last. -/
def State.advanceOp (s : State) (n last : Nat) : State :=
  s.modEngine n fun e => { e with ops := match e.ops with
    | op :: rest => if op.next + 1 ≤ last then { op with next := op.next + 1 } :: rest else rest
    | [] => [] }

/-- The engine performs the next K-step, or the whole of a `mzero` or `mpush`, of the operation at its head (R298, R313, R314, R324). -/
def engineStep (s : State) (n : Nat) : State :=
  let e := s.engine n
  match e.ops with
  | [] => s
  | op :: _ =>
    match s.waveOf op.wave with
    | none => s.popOp n
    | some w =>
      match op.insn with
      | .mma _ f | .mmat _ f =>
        let t := w.tileBase + f.acc.toNat
        let e := if op.only = some false then e else kstep e s.free f op.next t w op.ra op.rs w op.rb op.rs
        let e := match (op.partner.bind fun p => (s.waveOf p)) with
          | some v => if op.only = some true then e else kstep e s.free f op.next (v.tileBase + f.acc.toNat) v op.pra op.prs w op.rb op.rs
          | none => e
        ((s.modEngine n fun _ => e).advanceOp n f.rep.toNat).count (match s.group? op.wave.gid with
          | some g => g.ctx
          | none => 0) 2 1
      | .mzero _ f =>
        (s.modEngine n fun _ => (List.range (f.low.toNat % 16 + 1)).foldl
          (fun e k => e.putTile (w.tileBase + f.acc.toNat + k) (List.replicate 32 (List.replicate 32 (0, false)))) e).popOp n
      | .mpush _ f =>
        (s.modEngine n fun _ => e.putRow (w.tileBase + f.acc.toNat) (f.low.toNat % 32)
          ((List.range 32).map fun l => w.readReg s.free op.ra l)).popOp n
      | _ => s

/-- The engine pushes the next row of the drain at its head when there is room; rows of a wave that has ended are discarded (R315, R317). -/
def enginePush (s : State) (n : Nat) : State :=
  let e := s.engine n
  match e.ops with
  | [] => s
  | op :: _ =>
    let k := opRows op.insn
    let gone := match s.waveOf op.wave with
      | some w => w.ended
      | none => true
    if k = 0 then s
    else if gone then s.advanceOp n (k - 1)
    else if rowsLimit ≤ e.drain.length then s
    else
      ((s.modEngine n fun e => { e with drain := e.drain ++ [mkRow op.wave (rowOf s e op)] }).advanceOp n (k - 1)).serveMpop n op.wave

/-- Discards the rows of a wave (R317). -/
def State.dropRows (s : State) (r : WaveRef) : State :=
  match s.engineOf r with
  | some n => s.modEngine n fun e => { e with drain := e.drain.filter fun q => q.tag != r }
  | none => s

/-! ## Operations of waves that leave (R326 to R330) -/

/-- The side of an operation that a wave still has a part in: true the lead's or its own. -/
def opSide (op : MatOp) (r : WaveRef) : Option Bool :=
  if op.wave = r then (if op.only = some false then none else some true)
  else if op.partner = some r ∧ op.only ≠ some true then some false
  else none

/-- The other twin of a joined operation that both still have a part in. -/
def opOther (op : MatOp) (side : Bool) : Option WaveRef := if op.only.isSome then none else if side then op.partner else some op.wave

/-- The tile U of a joined drain, taken out of its engine. -/
def State.takeTileU (s : State) (e : Engine) (op : MatOp) : MatOp :=
  match op.insn, op.held with
  | .mdrag _ f, none =>
    let lo := 1024 * (s.tileBaseOf (op.partner.getD op.wave) + f.low.toNat % 16)
    let inside := fun k => decide (lo ≤ k) && decide (k < lo + 1024)
    { op with held := some ((e.tiles.filter fun p => inside p.1).map fun p => (p.1 - lo, p.2), (e.tpoison.filter inside).map fun k => k - lo) }
  | _, _ => op

/-- A twin that stays behind, or has left, when the groups of a list leave together: its group is not among them, or its wave has ended. -/
def State.staysBehind (s : State) (gids : List Nat) (r : WaveRef) : Bool :=
  !gids.contains r.gid || (match s.waveOf r with
    | some w => w.ended
    | none => true)

/-- The operations that a wave takes with it (R326). A joined operation goes with the lead; where one twin stays behind, the product of the one
that leaves goes alone, and a joined drain with the tile U that it reads (log entry 81). -/
def State.opsWith (s : State) (gids : List Nat) (e : Engine) (r : WaveRef) : List MatOp :=
  e.ops.filterMap fun op => match opSide op r with
    | none => none
    | some side =>
      match opOther op side with
      | none => some op
      | some o =>
        if !s.staysBehind gids o then (if side then some op else none)
        else match op.insn with
          | .mmat .. => some { op with only := some side }
          | _ => if side then some (s.takeTileU e op) else none

/-- What a leaving wave leaves in the queue: the product of a twin that stays behind and has not ended. -/
def State.opsWithout (s : State) (gids : List Nat) (e : Engine) (r : WaveRef) : List MatOp :=
  e.ops.filterMap fun op => match opSide op r with
    | none => some op
    | some side =>
      match opOther op side with
      | none => none
      | some o =>
        if !s.staysBehind gids o then (if side then none else some op)
        else
          let ended := match s.waveOf o with
            | some w => w.ended
            | none => true
          if ended then none
          else match op.insn with
            | .mmat .. => some { op with only := some !side }
            | _ => if side then none else some (s.takeTileU e op)

/-- A cancelled wave's operations: its own are discarded, a joined product goes on for the partner alone, a joined drain is
performed for a cancelled follower and discarded with a cancelled lead (R328). -/
def cancelOp (r : WaveRef) (op : MatOp) : Option MatOp :=
  if op.wave = r then
    (match op.insn, op.partner with
      | .mmat .., some _ => if op.only = some true then none else some { op with only := some false }
      | _, _ => none)
  else if op.partner = some r then
    (match op.insn with
      | .mmat .. => if op.only = some false then none else some { op with only := some true }
      | _ => some op)
  else some op

def State.cancelOps (s : State) (r : WaveRef) : State :=
  match s.engineOf r with
  | some n => s.modEngine n fun e => { e with ops := e.ops.filterMap (cancelOp r) }
  | none => s

end Sys2Proof.Machine
end

