-- ==== Sys2Proof/Machine/Matrix.lean ====
section
/-! DEFINITION. Matrix: the matrix instructions, opcodes 0xB0 to 0xB9 (R304 to R331), and the engine's own events. -/

namespace Sys2Proof.Machine

/-- The shape shared by the matrix instructions: the tiles they name are checked first (R305), then they act once for their wave,
with a lane of EXEC that is not a helper lane (R306). -/
def matrixInstr (s : State) (h : Hdr) (i : Instr) (last : XF → Nat) (k : Issue → WaveRef → State) : Host.Outcome State Fault Refusal :=
  withIssuer s fun x =>
    match xfOf i with
    | none => s
    | some f =>
      if x.w.acct < last f then parkDecode s x .illegalInstr i
      else if x.acts h then k x { gid := x.ref.gid, wi := x.ref.wi }
      else finish s x h x.w

/-- Arms the yield marker of the issuing entry, for the operations that move the entry on themselves. -/
def State.armed (s : State) (x : Issue) (h : Hdr) : State :=
  s.setWave x.ref.gid x.ref.wi (x.w.setEntry x.ref.slot (some (x.e.arm h x.w.nextSeq)))

/-- A tile instruction of one wave enters the operation queue (R299, R307). -/
def tileInstr (s : State) (h : Hdr) (i : Instr) (last : XF → Nat) : Host.Outcome State Fault Refusal :=
  matrixInstr s h i last fun x r =>
    match soloOp i r x.w with
    | some op => (s.armed x h).soloIssue x.ref i op
    | none => s

/-- A twin instruction: at the rendezvous while the pair is JOINED, else of its wave alone (R319, R320). -/
def twinInstr (s : State) (h : Hdr) (i : Instr) (last : XF → Nat) : Host.Outcome State Fault Refusal :=
  matrixInstr s h i last fun x r =>
    match soloOp i r x.w with
    | none => s
    | some op =>
      match s.joinedWith r with
      | some p => s.arrive x h i op p
      | none => (s.armed x h).soloIssue x.ref i op

/-- One more than the tile that ACC names. -/
def accEnd (f : XF) : Nat := f.acc.toNat + 1

def execMma (h : Hdr) (f : XF) (s : State) : Host.Outcome State Fault Refusal := tileInstr s h (.mma h f) accEnd
def execMmat (h : Hdr) (f : XF) (s : State) : Host.Outcome State Fault Refusal := twinInstr s h (.mmat h f) accEnd
def execMzero (h : Hdr) (f : XF) (s : State) : Host.Outcome State Fault Refusal :=
  tileInstr s h (.mzero h f) fun f => f.acc.toNat + f.low.toNat % 16 + 1
def execMdrain (h : Hdr) (f : XF) (s : State) : Host.Outcome State Fault Refusal := tileInstr s h (.mdrain h f) accEnd
def execMdrag (h : Hdr) (f : XF) (s : State) : Host.Outcome State Fault Refusal :=
  twinInstr s h (.mdrag h f) fun f => max (accEnd f) (f.low.toNat % 16 + 1)
def execMpush (h : Hdr) (f : XF) (s : State) : Host.Outcome State Fault Refusal := tileInstr s h (.mpush h f) accEnd

/-- Some queued operation will push rows with a wave's tag (R316). -/
def Engine.rowsToCome (e : Engine) (r : WaveRef) : Bool := e.ops.any fun op => decide (op.wave = r) && decide (opRows op.insn ≠ 0)

/-- `mpop` (R316). -/
def execMpop (h : Hdr) (f : XF) (s : State) : Host.Outcome State Fault Refusal :=
  matrixInstr s h (.mpop h f) (fun _ => 0) fun x r =>
    match s.engineOf r with
    | none => s
    | some n =>
      let e := s.engine n
      let reg := vecReg x.w f.a
      match takeRow r e.drain with
      | some (row, rest) => finish (s.modEngine n fun en => { en with drain := rest }) x h (x.w.popTo reg (x.exec h) row)
      | none =>
        if e.rowsToCome r then
          { s.setWave x.ref.gid x.ref.wi (x.w.setEntry x.ref.slot (some { (x.e.arm h x.w.nextSeq) with
              st := .wait .mpop, insn := some (.mpop h f), exec := x.exec h, vals := [(0, BitVec.ofNat 64 reg)], stamp := s.order + 1
              pass := 0 })) with order := s.order + 1 }
        else finish s x h { x.w.popTo reg (x.exec h) { tag := r, elems := [], poison := 0 } with drainEmpty := true }

/-- `mtake` (R308, R323). -/
def execMtake (h : Hdr) (f : XF) (s : State) : Host.Outcome State Fault Refusal :=
  matrixInstr s h (.mtake h f) (fun _ => 0) fun x r =>
    match s.engineOf r with
    | none => s
    | some n =>
      let e := s.engine n
      if s.holds r then finish s x h x.w
      else if decide (e.holder = none) && e.fifo.isEmpty then finish (s.grant n r) x h x.w
      else
        (s.modEngine n fun e => if e.fifo.contains r then e else { e with fifo := e.fifo ++ [r] }).setWave x.ref.gid x.ref.wi
          (x.w.setEntry x.ref.slot (some { (x.e.arm h x.w.nextSeq) with st := .wait .mtake, insn := some (.mtake h f), exec := x.exec h, pass := 0 }))

/-- `mgive` (R309). -/
def execMgive (h : Hdr) (f : XF) (s : State) : Host.Outcome State Fault Refusal :=
  matrixInstr s h (.mgive h f) (fun _ => 0) fun x r =>
    match s.engineOf r with
    | none => s
    | some n =>
      let s' := finish s x h x.w
      if s.holds r then s'.giveBaton n else s'

/-- The engine status of a wave (R318). -/
def mstatWord (s : State) (g : Group) (w : Wave) (r : WaveRef) : Nat :=
  let e := match s.engineOf r with
    | some n => s.engine n
    | none => Engine.start
  let b := fun (c : Bool) (k : Nat) => if c then 2 ^ k else 0
  b (s.holds r) 0 + b (e.fifo.contains r) 1 + b (decide (w.pair = .joined)) 2 + b (match w.pair with
    | .parted _ => true
    | _ => false) 3 + b (g.twin && g.follower) 4 + b w.drainEmpty 5 +
  (e.drain.filter fun q => decide (q.tag = r)).length * 2 ^ 8 + w.acct * 2 ^ 15 +
  (e.ops.filter fun op => decide (op.wave = r) || decide (op.partner = some r)).length * 2 ^ 20

def execMstat (h : Hdr) (f : XF) (s : State) : Host.Outcome State Fault Refusal :=
  matrixInstr s h (.mstat h f) (fun _ => 0) fun x r =>
    let v := BitVec.ofNat 64 (mstatWord s x.g x.w r)
    let w := (Mask.lanes (x.exec h)).foldl (fun w l => w.putDst f.a false l v) x.w
    finish s x h (if f.low.getLsbD 0 then { w with drainEmpty := false } else w)

/-- The engines of a power-gated core stand still (R481). -/
def State.engineOn (s : State) (n : Nat) : Bool := !s.mgmt.gated.contains (n / 4)

/-- An engine performs the K-step or the operation at the head of its queue (R298). -/
def execMatrixKstep (engine : Nat) (s : State) : Host.Outcome State Fault Refusal := .next (if s.engineOn engine then engineStep s engine else s)

/-- An engine pushes the next row of the drain at the head of its queue (R315). -/
def execDrainRowPush (engine : Nat) (s : State) : Host.Outcome State Fault Refusal := .next (if s.engineOn engine then enginePush s engine else s)

end Sys2Proof.Machine
end

