-- ==== Sys2Proof/Machine/L2.lean ====
section
/-! DEFINITION. L2: the L2 and its pinned banks (R350 to R353, R362, R377), what becomes of their lines when ways change hands, are tested, scrubbed
or reset (R153, R473, R515, R517), and the counts of cache, HBM and walker events (R159, R160, R349). Device memory (State.mem) holds the bytes as
every party reads them; a dirty line holds what HBM has in their place, which comes back where the line is lost. -/

namespace Sys2Proof.Machine

/-! ## Where a physical address lies (R350) -/

def stackOf (pa : Nat) : Nat := pa / 8192 % 12

def channelOf (pa : Nat) : Nat := pa / 256 % 32

def dieOfPa (pa : Nat) : Nat := stackOf pa / 3

/-- The set of a line within its way-column; the spec does not give the function. -/
def setOf (line : Nat) : Nat := Config.l2Set line % 32768

/-! ## Who may use which way-column (R134, R135, R351, R352) -/

/-- WYMASK of a die in force; all ones at reset. -/
def wyMask (c : MktCfg) (d : Nat) : W32 := sget 0xFFFFFFFF c.wysplit d

/-- A way-column that is still in service. -/
def State.wayUp (s : State) (d k : Nat) : Bool := !(s.mgmt.wayDown.contains (d, k))

/-- A way-column that serves accesses: in service and not under test (R473). -/
def State.wayServes (s : State) (d k : Nat) : Bool := s.wayUp d k && !(s.mgmt.fenced.contains (.wayColumn d k))

def leaseKey (c cls : Nat) : Nat := 8 * c + cls

def leaseAt (m : List (Nat × Lease)) (c cls : Nat) : Lease := sget Lease.none m (leaseKey c cls)

/-- The tenant of a context that takes part in the market (R139). -/
def State.tenantOf (s : State) (c : Nat) : Option Nat :=
  let m := sget CtxMkt.start s.market.cfgA.ctxs c
  if m.valid && (sget Tenant.start s.market.cfgA.tenants m.tenant.toNat).valid then some m.tenant.toNat else none

/-- The context that leases a unit of a class. -/
def leaseHolder (m : List (Nat × Lease)) (cls u : Nat) : Option Nat :=
  (m.find? fun l => decide (l.1 % 8 = cls) && l.2.units.contains u).map fun l => l.1 / 8

/-- The ways of a die into which a context allocates (R351). -/
def State.allocWays (s : State) (c d : Nat) : List Nat :=
  let serves := (List.range 32).filter fun k => (wyMask s.market.cfgA d).getLsbD k && s.wayServes d k
  let own := serves.filter fun k => (leaseAt s.market.current c 2).units.contains (32 * d + k)
  if !own.isEmpty then own
  else if (s.tenantOf c).any fun t => (sget Tenant.start s.market.cfgA.tenants t).floor then
    serves.filter fun k => (leaseHolder s.market.current 2 (32 * d + k)).isNone
  else []

/-- The pinned bank that serves a virtual address of a context: its BK units, in increasing number, follow one another from BKBASE on (R352). -/
def State.bankOf (s : State) (c va : Nat) : Option Nat :=
  let base := s.ctxField c 0x18 8
  if va < base then none
  else ((leaseAt s.market.current c 1).units[(va - base) / 0x400000]?).filter fun u => s.wayServes (u / 32) (u % 32)

/-! ## Counts (R159, R160) -/

/-- A count that the spec leaves open, up to n: how often accesses of one instruction share one of the L2, what an L1 or a TLB still holds, how
many bytes a transfer of a line takes, with its compression (R349, R353; log entry 8). -/
def openCount (s : State) (k n : Nat) : Nat := Config.freeNat s.free (800000 + k) % (n + 1)

/-- Bytes read from HBM for a context, or written to it, by the transfers of one line. -/
def State.countRead (s : State) (k ctx : Nat) : State := s.count ctx 5 (openCount s k 128)
def State.countWrite (s : State) (k ctx : Nat) : State := s.count ctx 6 (openCount s k 128)

/-! ## Dirty sectors -/

/-- What HBM holds of a sector that is about to become dirty. -/
def Mem.under (m : Mem) (sec : Nat) : Under :=
  { sec := sec, bytes := m.cellsAt (32 * sec) 32, sealed := sget none m.seals sec
    full := (List.range 4).foldl (fun f i => if m.full.contains (4 * sec + i) then f ||| BitVec.ofNat 4 (2 ^ i) else f) 0
    bad := wordBits ((List.range 8).filter fun i => m.poison.contains (8 * sec + i)) }

/-- A sector reads again as HBM holds it. -/
def Mem.revert (m : Mem) (u : Under) : Mem :=
  { m with
    cells := putCells m.cells (32 * u.sec) u.bytes, seals := sput none u.sec u.sealed m.seals
    full := (List.range 4).foldl (fun l i => if u.full.getLsbD i then sins (4 * u.sec + i) l else sdel (4 * u.sec + i) l) m.full
    poison := (List.range 8).foldl (fun l i => if u.bad.getLsbD i then sins (8 * u.sec + i) l else sdel (8 * u.sec + i) l) m.poison }

/-- A write reaches a line; m is memory before it. -/
def L2Line.write (l : L2Line) (m : Mem) (sec : Nat) : L2Line :=
  if l.dirty.any fun u => decide (u.sec = sec) then l else { l with dirty := m.under sec :: l.dirty }

/-- Writes the dirty lines among those with p back, for their owners; they stay, or leave the L2. -/
def State.writeBack (s : State) (p : L2Line → Bool) (drop : Bool) : State :=
  let s := ((s.l2.lines.filter fun l => p l && !l.dirty.isEmpty).foldl (fun (q : State × Nat) l => (q.1.countWrite q.2 l.ctx, q.2 + 1)) (s, 4096)).1
  { s with l2 := { s.l2 with
    lines := if drop then s.l2.lines.filter fun l => !p l else s.l2.lines.map fun l => if p l then { l with dirty := [] } else l } }

/-- Lines with p are invalidated without writeback (R515, R517): what they hold is lost. -/
def State.loseLines (s : State) (p : L2Line → Bool) : State :=
  { s with
    mem := (s.l2.lines.filter p).foldl (fun m l => l.dirty.foldl Mem.revert m) s.mem
    l2 := { s.l2 with lines := s.l2.lines.filter fun l => !p l } }

/-- The ways that contexts lose at the start of an interval (R153, R352), and lines in ways that are cache ways no longer; old is the leases before. -/
def State.vacateWays (s : State) (old : List (Nat × Lease)) : State :=
  s.writeBack (fun l =>
    let u := 32 * l.die + l.way
    if l.pinned then decide (leaseHolder s.market.current 1 u ≠ some l.ctx)
    else !(wyMask s.market.cfgA l.die).getLsbD l.way ||
      ((leaseHolder old 2 u).isSome && decide (leaseHolder s.market.current 2 u ≠ leaseHolder old 2 u))) true

/-! ## Accesses -/

/-- What an access asks of the L2. -/
inductive TouchKind | read | write | writeBack | drop
deriving DecidableEq, Repr

/-- One access of a context: the virtual address that it translates here, the physical address where it lies in this device's memory, its CH code,
whether an L1 may serve it. -/
structure Touch where
  ctx : Nat
  va : Option Nat
  pa : Option Nat
  kind : TouchKind
  ch : Nat
  l1 : Bool
deriving DecidableEq, Repr

/-- The page lets its accesses use L1 and L2 (R347). -/
def State.cachedAt (s : State) (t : Touch) : Bool :=
  match t.va with
  | some va => (s.leaf t.ctx va).any fun l => l.entry.testBit 5
  | none => true

/-- The lines with p are used: the time, the mark that CH gives, the write. -/
def State.useLine (s : State) (m : Mem) (t : Touch) (sec : Nat) (p : L2Line → Bool) : State :=
  { s with l2 := { s.l2 with
    clock := s.l2.clock + 1
    lines := s.l2.lines.map fun l =>
      if p l then
        let l := { l with stamp := s.l2.clock, mark := if t.ch = 1 then .stream else if t.ch = 2 then .keep else l.mark }
        if t.kind = .write then l.write m sec else l
      else l } }

/-- A line comes in. -/
def State.fillLine (s : State) (m : Mem) (t : Touch) (sec die way : Nat) (pinned : Bool) : State :=
  let l : L2Line := { die := die, way := way, line := sec / 4, ctx := t.ctx, mark := .normal, stamp := 0, pinned := pinned, dirty := [] }
  ({ s with l2 := { s.l2 with lines := s.l2.lines ++ [l] } }).useLine m t sec fun q =>
    decide (q.line = sec / 4) && decide (q.way = way) && q.pinned == pinned

/-- Place of a line in the order of eviction for a context: lines that stream first, and its lines to keep last, each by its last use. -/
def evictRank (c : Nat) (l : L2Line) : Nat := if l.mark = .stream then 0 else if l.mark = .keep ∧ l.ctx = c then 2 else 1

/-- The line that makes room in a set. -/
def victim (c : Nat) (ls : List L2Line) : Option L2Line :=
  ls.foldl (fun (best : Option L2Line) l => match best with
    | some b => if evictRank c l < evictRank c b ∨ (evictRank c l = evictRank c b ∧ l.stamp < b.stamp) then some l else some b
    | none => some l) none

/-- Allocates a line in one of some ways of a die (R351). -/
def State.allocate (s : State) (m : Mem) (t : Touch) (sec die : Nat) (ways : List Nat) : State :=
  let here := s.l2.lines.filter fun l => !l.pinned && decide (l.die = die) && ways.contains l.way && decide (setOf l.line = setOf (sec / 4))
  match ways.find? fun k => !here.any fun l => decide (l.way = k) with
  | some k => s.fillLine m t sec die k false
  | none => match victim t.ctx here with
    | some v => (s.writeBack (fun l => decide (l = v)) true).fillLine m t sec die v.way false
    | none => s

/-- An access that the L2 does not hold goes to HBM. -/
def State.countHbm (s : State) (k : Nat) (t : Touch) : State := if t.kind = .write then s.countWrite k t.ctx else s.countRead k t.ctx

/-- One access reaches the L2: n is how many it is counted as. -/
def State.l2Access (s : State) (m : Mem) (k n : Nat) (t : Touch) (pa : Nat) : State :=
  let sec := pa / 32
  let cached := s.cachedAt t
  match if cached then (t.va.bind fun va => s.bankOf t.ctx va) else none with
  | some u =>
    let p := fun l : L2Line => l.pinned && decide (l.line = sec / 4) && decide (l.die = u / 32) && decide (l.way = u % 32)
    if s.l2.lines.any p then (s.count t.ctx 3 n).useLine m t sec p
    else ((s.count t.ctx 4 n).countRead k t.ctx).fillLine m t sec (u / 32) (u % 32) true
  | none =>
    let p := fun l : L2Line => !l.pinned && decide (l.line = sec / 4)
    if s.l2.lines.any p then (s.count t.ctx 3 n).useLine m t sec p
    else
      let s := s.count t.ctx 4 n
      let ways := if cached && decide (t.ch ≠ 3) then s.allocWays t.ctx (dieOfPa pa) else []
      if ways.isEmpty then s.countHbm k t
      else (s.countRead k t.ctx).allocate m t sec (dieOfPa pa) ways

/-- A walk, unless a TLB holds the page (R349): it does not before the first walk after an invalidation, and a walk that fails leaves nothing. -/
def State.countWalk (s : State) (k ctx va : Nat) : State :=
  match s.leaf ctx va with
  | none => s.count ctx 10 1
  | some l =>
    let page := (ctx, va / 2 ^ l.shift * 2 ^ l.shift)
    if s.l2.tlb.contains page then s.count ctx 10 (openCount s (20000 + k) 1)
    else ({ s with l2 := { s.l2 with tlb := page :: s.l2.tlb } }).count ctx 10 1

/-- Serves one access; first says that it is its instruction's first to the line. -/
def State.serveTouch (s : State) (m : Mem) (k : Nat) (first : Bool) (t : Touch) : State :=
  match t.pa with
  | none => s
  | some pa =>
    let ours := fun l : L2Line => decide (l.line = pa / 128)
    match t.kind with
    | .writeBack => if s.cachedAt t then s.writeBack ours false else s
    | .drop => if s.cachedAt t then (s.writeBack ours false).writeBack (fun l => ours l && !l.pinned) true else s
    | _ =>
      let hit := t.l1 && decide (t.kind = .read) && decide (t.ch ≠ 3) && s.cachedAt t && decide (openCount s (40000 + k) 1 = 1)
      if hit then s else s.l2Access m k (if first then 1 else openCount s (60000 + k) 1) t pa

/-- Serves the accesses of one action in order; m is memory before it. -/
def State.serveTouches (s : State) (m : Mem) (seen : List Nat) (k : Nat) : List Touch → State
  | [] => s
  | t :: ts =>
    let line := (t.pa.map fun a => a / 128).toList
    (s.serveTouch m k (!(line.any fun a => seen.contains a)) t).serveTouches m (line ++ seen) (k + 1) ts

/-- The accesses of one action: a walk for each page that they translate, then the L2's work, each sector once for each kind. -/
def State.serveTraffic (s : State) (m : Mem) (ts : List Touch) : State :=
  let pages := (ts.filterMap fun t => t.va.map fun va => (t.ctx, va / 65536 * 65536)).dedup
  let s := ((List.range pages.length).zip pages).foldl (fun s p => s.countWalk p.1 p.2.1 p.2.2) s
  s.serveTouches m [] 0 ((ts.filter fun t => t.pa.isSome).map fun t => { t with pa := t.pa.map fun a => a / 32 * 32 }).dedup

/-- Entries that TLBs drop. -/
def State.dropTlb (s : State) (p : Nat × Nat → Bool) : State := { s with l2 := { s.l2 with tlb := s.l2.tlb.filter fun e => !p e } }

end Sys2Proof.Machine
end

