-- ==== Sys2Proof/Machine/Scope.lean ====
section
/-! DEFINITION. Scope: the scope table (R89 to R101) and the `scope` instruction. -/

namespace Sys2Proof.Machine

/-! ## The table -/

def scopeTableSize : Nat := 65536
def maxDepth : Nat := 16

def State.putScope (s : State) (n : Nat) (v : ScopeSlot) : State := { s with scopes := sput ScopeSlot.start n v s.scopes }

/-- The handle of a slot and a generation (R89). -/
def scopeHandle (n : Nat) (gen : W16) : W32 := gen ++ BitVec.ofNat 16 n

def State.scopeDead (s : State) (h : W32) : Bool := match s.scopeAt h with
  | some v => decide (v.st = .dead)
  | none => false

/-- x is y or a descendant of y within n levels. -/
def State.climbs (s : State) (y : W32) : Nat → W32 → Bool
  | 0, x => decide (x = y)
  | n + 1, x => decide (x = y) || (match s.scopeAt x with
    | some v => s.climbs y n v.parent
    | none => false)

/-- InSubtree (R97). -/
def State.inSubtree (s : State) (x y : W32) : Bool := (s.scopeAt x).isSome && s.climbs y maxDepth x

/-- The handles of the scopes that are not FREE. -/
def State.scopesInUse (s : State) : List (W32 × ScopeSlot) :=
  s.scopes.filterMap fun p => if p.2.st = .free then none else some (scopeHandle p.1 p.2.gen, p.2)

/-- The handles of a subtree. -/
def State.subtree (s : State) (h : W32) : List W32 := (s.scopesInUse.filter fun p => s.inSubtree p.1 h).map fun p => p.1

/-- The lowest FREE slot among the given number of slots from n on. -/
def State.firstFree (s : State) : Nat → Nat → Option Nat
  | 0, _ => none
  | left + 1, n => if (s.scopeSlot n).st = .free then some n else s.firstFree left (n + 1)

/-- The lowest FREE slot of the table. -/
def State.freeScope (s : State) : Option Nat := s.firstFree scopeTableSize 0

/-- SCOPELIM of a context: 0 stands for the whole table (R91). -/
def State.scopeLimit (s : State) (ctx : Nat) : Nat :=
  let n := s.ctxScopeLim ctx
  if n = 0 then scopeTableSize else min n scopeTableSize

/-- A slot for a new scope of a context (R91). -/
def State.scopeRoom (s : State) (ctx : Nat) : Option Nat :=
  if (s.scopesInUse.filter fun p => decide (p.2.ctx = ctx)).length < s.scopeLimit ctx then s.freeScope else none

/-- A new scope in a slot, with its next generation (R89). -/
def State.openScope (s : State) (n ctx depth : Nat) (parent : W32) (auto pkt : Bool) : State × W32 :=
  let gen := nextGen (s.scopeSlot n).gen
  (s.putScope n { gen := gen, st := .live, ctx := ctx, depth := depth, parent := parent, auto := auto, pkt := pkt, cut := false }, scopeHandle n gen)

/-- A slot returns to FREE and keeps its generation. -/
def State.freeScopeSlot (s : State) (n : Nat) : State := s.putScope n { ScopeSlot.start with gen := (s.scopeSlot n).gen }

/-- Creates a child of a LIVE scope of a context: the statuses TABLE_FULL 1 and DEPTH 2 of R97. -/
def State.createChild (s : State) (ctx : Nat) (parent : W32) (auto pkt : Bool) : Except Nat (State × W32) :=
  let d := match s.scopeAt parent with
    | some v => v.depth
    | none => 0
  if d = maxDepth then .error 2
  else match s.scopeRoom ctx with
    | none => .error 1
    | some n => .ok (s.openScope n ctx (d + 1) parent auto pkt)

/-- Marks a whole subtree DEAD (R95, R500); the scope the cancel names is cut. -/
def State.killSubtree (s : State) (h : W32) : State :=
  let s := (s.subtree h).foldl (fun (s : State) x => s.putScope (scopeNum x) { s.scopeSlot (scopeNum x) with st := .dead }) s
  s.putScope (scopeNum h) { s.scopeSlot (scopeNum h) with cut := true }

/-- A wave, group or launch of this scope is stopped: its scope is DEAD, or its handle no longer names a scope. -/
def State.scopeGone (s : State) (h : W32) : Bool := !s.scopeLive h

/-! ## `scope` (R96 to R98) -/

/-- The outcome of `scope`: the state, the handle, the status (R97). -/
def scopeNewOf (s : State) (g : Group) (parent : W32) : State × W32 × Nat :=
  match s.scopeAt parent with
  | none => (s, 0, 3)
  | some v =>
    if v.st ≠ .live then (s, 0, 3)
    else if v.ctx ≠ g.ctx || !s.inSubtree parent g.scope then (s, 0, 4)
    else match s.createChild g.ctx parent false false with
      | .error n => (s, 0, n)
      | .ok (t, h) => (t, h, 0)

def execScopeNew (h : Hdr) (f : SF) (s : State) : Host.Outcome State Fault Refusal :=
  withIssuer s fun x =>
    let named := f.imm.getLsbD 0
    let a := readS s x false f.a
    oncePerWave s x h (if named then [a] else [])
      (let r := scopeNewOf s x.g (if named then lo32 a.val else x.g.scope)
       finishGroup r.1 x h fun g => g.putSregs x.ref.wi s.free f.d.toNat [r.2.1, BitVec.ofNat 32 r.2.2])

end Sys2Proof.Machine
end

