-- ==== Sys2Proof/Machine/Packet.lean ====
section
/-! DEFINITION. Packet: the completion of packets with its signal and interrupt (R124, R127), fault lists (R467), and the work that
keeps a subtree from being quiet (R94, R504). -/

namespace Sys2Proof.Machine

/-! ## Interrupts -/

/-- The PF or an enabled VF (R110). -/
def State.funcOn (s : State) (func : Nat) : Bool := decide (func ≤ s.host.numVFs)

def State.send (s : State) (m : Sent) : State := { s with mgmt := { s.mgmt with sent := s.mgmt.sent ++ [m] } }

/-- One MSI-X message; none for a VF that is disabled (R110, R124). -/
def State.interrupt (s : State) (func vec : Nat) : State := if s.funcOn func then s.send (.msix func vec) else s

def State.queue (s : State) (q : Nat) : Queue := sget Queue.start s.queues q

def State.modQueue (s : State) (q : Nat) (f : Queue → Queue) : State := { s with queues := smod Queue.start q f s.queues }

def State.queueInterrupt (s : State) (q : Nat) : State := s.interrupt (s.queue q).func.toNat (s.queue q).vec.toNat

/-! ## Completion (R124) -/

/-- The completion operations of R127. -/
inductive DoneOp | dec | fail
deriving DecidableEq, Repr

/-- The operation's number in R436. -/
def DoneOp.code : DoneOp → Nat
  | .dec => 1
  | .fail => 3

/-- What the operation of a step does to its word. -/
def WordStep.apply (w : WordStep) (old : W64) : W64 := if w.opn = 6 then old + w.val else sigaddNew w.opn old w.val

/-- A step on a word of another device, which its home performs (R495, R521). -/
def State.wordAsks (s : State) (ctx : Nat) (w : WordStep) : List RemoteAsk :=
  if w.opn ≠ 6 then s.stepAsks (Party.ofCtx ctx) w.addr [(w.opn, w.val)]
  else match s.access (Party.ofCtx ctx) .w w.addr 8 8 with
    | .ok [(.remote dv pa va key _ slot, _)] =>
      [{ dev := dv, pa := pa / 32 * 32, lane := none, op := laneStep (.atom 0 false) key slot (va / 32) (pa % 32) 8 (bytesOfNat 8 w.val.toNat) [] }]
    | _ => []

/-- The operations on a packet's words have been performed: the interrupt, and its place among the packets of its queue. -/
def State.packetOver (s : State) (p : PacketRef) : State :=
  let s := if p.intr then s.queueInterrupt p.queue else s
  s.modQueue p.queue fun q => { q with busy := q.busy.filter fun b => b.1 != p.number }

/-- A completion waits for the home of its next word; until then the packet has not completed. -/
def State.sendCompletion (s : State) (c : Completion) (asks : List RemoteAsk) : State :=
  (s.sendAsks (.completion c) { ctx := c.ctx, launch := none, scope := c.pkt.scope } asks).modQueue c.pkt.queue fun q =>
    if q.busy.any fun b => b.1 == c.pkt.number then q else { q with busy := q.busy ++ [(c.pkt.number, c.pkt.hold)] }

/-- Performs the operations of a packet's completion in order, here or at their homes, and then completes it (R124, R127, R497). One that may not be
performed is dropped and logged. -/
def State.runSteps (ctx : Nat) (p : PacketRef) : List WordStep → State → State
  | [], s => s.packetOver p
  | w :: ws, s =>
    match s.changeWord ctx w.addr w.apply with
    | some t => State.runSteps ctx p ws t
    | none =>
      let asks := s.wordAsks ctx w
      if asks.isEmpty then State.runSteps ctx p ws (s.violation w.source 0 0xFF 1 ctx w.addr (BitVec.ofNat 64 p.queue))
      else s.sendCompletion { ctx := ctx, pkt := p, steps := w :: ws } asks

/-- The completion signal's operation; address 0 names none. -/
def PacketRef.doneStep (p : PacketRef) (op : DoneOp) : List WordStep :=
  if p.done = 0 then [] else [{ source := 12, addr := p.done, opn := op.code, val := 0 }]

/-- A packet completes: the operation on its signal, the interrupt, and its place among the packets of its queue. -/
def State.completePacket (s : State) (ctx : Nat) (p : PacketRef) (op : DoneOp) : State := State.runSteps ctx p (p.doneStep op) s

/-- The addition to CANCNT of a queue (R497). -/
def State.cancntStep (s : State) (q : Nat) : WordStep := { source := 11, addr := (s.queue q).qrptra + 8, opn := 6, val := 1 }

/-! ## TIME (R463, R522) -/

/-- How far a slew has got n clocks after it began, in 1/27,000 ns: at most 100 parts per million of that time. -/
def slewed (slew : Int) (n : Nat) : Int := max (-(n : Int)) (min (27000 * slew) n)

/-- TIME in nanoseconds at a clock: it never decreases. -/
def State.timeAt (s : State) (c : Nat) : Nat := (s.timeBase + ((c : Int) * 10000 + slewed s.slew (c - s.slewAt)) / 27000).toNat

def State.time (s : State) : Nat := s.timeAt s.clk

/-! ## Fault lists (R467) -/

def faultListLimit : Nat := 256

/-- Makes an entry of a context's fault list; a full list drops and counts it. -/
def State.addFault (s : State) (e : FaultEntry) : State :=
  let l := (aget s.mgmt.faultList e.ctx).getD []
  if l.length < faultListLimit then
    { s with mgmt := { s.mgmt with
        faultList := aput e.ctx (l ++ [{ e with dumpid := s.mgmt.nextDump, time := s.time }]) s.mgmt.faultList
        nextDump := s.mgmt.nextDump + 1 } }
  else { s with mgmt := { s.mgmt with faultLost := smod 0 e.ctx (fun n => n + 1) s.mgmt.faultLost } }

/-! ## Work in a subtree -/

/-- A group that still counts as work of its scope. -/
def Group.isWork (g : Group) : Bool := decide (g.place ≠ .ended)

/-- The launches of a subtree without their completion. -/
def State.launchesIn (s : State) (h : W32) : List (Nat × Launch) :=
  s.launches.filter fun l => !l.2.complete && s.inSubtree l.2.scope h

/-- Groups of launches that have not been placed, in a gang that is still to come. -/
def unplacedGroups (l : Launch) : Nat := (l.gangs.filter fun g => decide (g.st = .unplaced)).length * l.rcd.gang

def State.groupsIn (s : State) (h : W32) : List (Nat × Group) := s.groups.filter fun g => g.2.isWork && s.inSubtree g.2.scope h

def State.tasksIn (s : State) (h : W32) : List (Nat × Task) := s.tasks.filter fun t => s.inSubtree t.2.scope h

def State.copiesIn (s : State) (h : W32) : List (Nat × Copy) := s.copies.filter fun c => s.inSubtree c.2.scope h

/-- BARRIER packets that make passes under a scope of the subtree. -/
def State.barriersIn (s : State) (h : W32) : List Nat :=
  s.queues.filterMap fun q => match q.2.bar with
    | some b => if s.inSubtree b.scope h then some q.1 else none
    | none => none

/-- Quiet (R504). -/
def State.quiet (s : State) (h : W32) : Bool :=
  (s.launchesIn h).isEmpty && (s.groupsIn h).isEmpty && (s.tasksIn h).isEmpty && (s.copiesIn h).isEmpty && (s.barriersIn h).isEmpty &&
  !(s.mgmt.outAccess.any fun a => s.inSubtree a.scope h)

/-- Some scope that is not FREE stands below h. -/
def State.hasChildren (s : State) (h : W32) : Bool := s.scopesInUse.any fun p => decide (p.2.parent = h)

/-- The packet or task that a scope was made for is still at work. -/
def State.autoHeld (s : State) (h : W32) : Bool :=
  (s.launches.any fun l => !l.2.complete && decide (l.2.autoScope = h)) ||
  (s.tasks.any fun t => decide (t.2.autoScope = h)) ||
  (s.copies.any fun c => match c.2.packet with
    | some p => decide (p.auto = h)
    | none => false) ||
  (s.queues.any fun q => match q.2.bar with
    | some b => decide (b.pkt.auto = h)
    | none => false)

/-- Frees the scopes made for packets and tasks once nothing is left in them, deepest first (R94). -/
def State.sweepScopes (s : State) : State :=
  (sortBy (fun (a b : W32 × ScopeSlot) => decide (b.2.depth < a.2.depth)) (s.scopesInUse.filter fun p => p.2.auto && decide (p.2.st = .live))).foldl
    (fun (s : State) p => if !s.autoHeld p.1 && s.quiet p.1 && !s.hasChildren p.1 then s.freeScopeSlot (scopeNum p.1) else s) s

end Sys2Proof.Machine
end

