-- ==== Sys2Proof/Machine/Barrier.lean ====
section
/-! DEFINITION. Barrier: group barriers, remote arrivals and gang barriers (R419 to R429), twin control (R438 to R440). -/

namespace Sys2Proof.Machine

/-! ## Group barriers (R421) -/

def Group.bar (g : Group) (k : Nat) : Bar := g.bars[k]?.getD Bar.start

def Group.modBar (g : Group) (k : Nat) (f : Bar → Bar) : Group := { g with bars := modAt k f g.bars }

/-- Waves 0 to WAVES − 1. -/
def Group.allWaves (g : Group) : W32 := BitVec.ofNat 32 (2 ^ g.waves.length - 1)

/-- The waves that have ended. -/
def Group.endedWaves (g : Group) : W32 :=
  Mask.of fun i => match g.waves[i]? with
    | some w => w.ended
    | none => false

/-- Members (R421). -/
def Group.barMembers (g : Group) (b : Bar) : W32 := (if b.pm ≠ 0 then b.pm else if b.wm ≠ 0 then b.wm else g.allWaves) ||| b.arr

/-- Complete (R421). A mask names waves 0 to WAVES − 1; a bit above them names no wave. -/
def Group.barComplete (g : Group) (b : Bar) : Bool :=
  decide (g.barMembers b &&& g.allWaves &&& ~~~b.arr &&& ~~~g.endedWaves = 0) && decide (b.xc.toNat ≤ b.rc.toNat)

/-- The effect of completion. -/
def Bar.complete (b : Bar) : Bar := { b with cnt := b.cnt + 1, rc := b.rc - b.xc.zeroExtend 32, arr := 0, pm := 0 }

/-- A phase has completed (R422). -/
def phaseDone (cnt phase : W32) : Bool :=
  let d := (cnt - phase).toNat
  decide (1 ≤ d) && decide (d ≤ 2 ^ 31)

/-- Releases the entries of a wave that wait for a completed phase of barrier k. -/
def Wave.releaseBar (w : Wave) (k : Nat) (cnt : W32) : Wave :=
  (List.range 8).foldl (fun w i => w.modEntry i fun e => match e.st with
    | .wait (.bar b p) => if b = k ∧ phaseDone cnt p then w.goOn { e with pc := e.pc + 8 } else e
    | _ => e) w

/-- Releases the entries of a group that wait for a completed phase of barrier k, unless a RATLINE hold is in force. -/
def State.releaseBar (s : State) (gid k : Nat) : State :=
  if s.held then s else s.modGroup gid fun g => { g with waves := g.waves.map fun w => w.releaseBar k (g.bar k).cnt }

/-- A phase that every wave of the group passes orders the uniform registers (R236, R424). -/
def Group.orderSregs (g : Group) (b : Bar) : Group :=
  if g.allWaves &&& ~~~(b.arr ||| g.endedWaves) = 0 then (List.range g.waves.length).foldl Group.acquireSregs g else g

/-- Evaluates a barrier at one of its events (R421). -/
def State.evalBar (s : State) (gid k : Nat) : State :=
  match s.group? gid with
  | none => s
  | some g =>
    if g.barComplete (g.bar k) then
      (s.modGroup gid fun g => (g.orderSregs (g.bar k)).modBar k Bar.complete).releaseBar gid k
    else s

/-- Every barrier of a group is evaluated. -/
def State.evalBars (s : State) (gid : Nat) : State := (List.range 16).foldl (fun s k => s.evalBar gid k) s

/-- An arrival: the wave, and the union of the masks. -/
def Bar.arrive (b : Bar) (wi : Nat) (mask : Option W32) : Bar :=
  { b with arr := b.arr ||| Mask.one wi, pm := match mask with
    | some m => b.pm ||| m
    | none => b.pm }

/-- The mask that applies to a phase does not name the wave (R422). -/
def Group.widens (g : Group) (b : Bar) (wi : Nat) : Bool :=
  !(if b.pm ≠ 0 then b.pm else if b.wm ≠ 0 then b.wm else g.allWaves).getLsbD wi

/-- A wave arrives at a barrier, once a phase (R421, R423). -/
def State.arriveBar (s : State) (r : WaveRef) (k : Nat) (mask : Option W32) : State :=
  match s.group? r.gid with
  | none => s
  | some g =>
    let b := (g.bar k).arrive r.wi mask
    let s := s.modGroup r.gid fun g => (g.releaseSregs r.wi).modBar k fun _ => b
    if g.widens b r.wi then s.modWave r.gid r.wi fun w => w.orFlags 0x10000 else s

/-- K and the mask of `bar` and `bara`. -/
def barK (f : SF) : Nat := f.sel.toNat % 16
def barMask (s : State) (x : Issue) (f : SF) (bit : Nat) : Option Src := if f.sel.getLsbD bit then some (readS s x false f.a) else none

/-- `bar`: arrive, then wait (R422). -/
def execBar (h : Hdr) (f : SF) (s : State) : Host.Outcome State Fault Refusal :=
  withIssuer s fun x =>
    let m := barMask s x f 4
    oncePerWave s x h m.toList (
      let k := barK f
      let b := x.g.bar k
      let wait := s.setWave x.ref.gid x.ref.wi (x.w.setEntry x.ref.slot (some
        { (x.e.arm h x.w.nextSeq) with st := .wait (.bar k b.cnt), insn := some (.bar h f), exec := x.exec h, pass := 0 }))
      if b.arr.getLsbD x.ref.wi then wait
      else (wait.arriveBar { gid := x.ref.gid, wi := x.ref.wi } k (m.map fun r => lo32 r.val)).evalBar x.ref.gid k)

def execBarSet (h : Hdr) (f : SF) (s : State) : Host.Outcome State Fault Refusal :=
  withIssuer s fun x =>
    let m := readS s x false f.a
    oncePerWave s x h [m]
      ((finishGroup s x h fun g => g.modBar (barK f) fun b => { b with wm := lo32 m.val, xc := f.imm }).evalBar x.ref.gid (barK f))

def execBara (h : Hdr) (f : SF) (s : State) : Host.Outcome State Fault Refusal :=
  withIssuer s fun x =>
    let m := barMask s x f 6
    let k := barK f
    oncePerWave s x h m.toList
      (((finishGroup s x h fun g => g.putSregs x.ref.wi s.free f.d.toNat [(x.g.bar k).cnt]).arriveBar { gid := x.ref.gid, wi := x.ref.wi } k
        (m.map fun r => lo32 r.val)).evalBar x.ref.gid k)

def execBaraWait (h : Hdr) (f : SF) (s : State) : Host.Outcome State Fault Refusal :=
  withIssuer s fun x =>
    let p := readS s x false f.a
    let k := barK f
    oncePerWave s x h [p]
      (if phaseDone (x.g.bar k).cnt (lo32 p.val) then finish s x h x.w
       else s.setWave x.ref.gid x.ref.wi (x.w.setEntry x.ref.slot (some
         { (x.e.arm h x.w.nextSeq) with
           st := .wait (.bar k (lo32 p.val)), insn := some (.baraWait h f), exec := x.exec h, pass := 0 })))

/-! ## Remote arrivals (R425, R426, R481) -/

/-- The generation of a context (R425). -/
def State.ctxGen (s : State) (ctx : Nat) : W16 := sget CtxGen.start s.mgmt.ctxgen ctx

/-- The handle of barrier k of a group (R425). -/
def barHandle (s : State) (g : Group) (k : Nat) : W64 :=
  BitVec.ofNat 64 (k + 2 ^ 8 * g.tag + 2 ^ 32 * g.ctx + 2 ^ 48 * (s.ctxGen g.ctx).toNat)

def execBaraHdl (h : Hdr) (f : SF) (s : State) : Host.Outcome State Fault Refusal :=
  withIssuer s fun x =>
    oncePerWave s x h [] (
      let v := barHandle s x.g (barK f)
      finishGroup s x h fun g => g.putSregs x.ref.wi s.free f.d.toNat [lo32 v, hi32 v])

/-- SameTenant (R426). -/
def State.sameTenant (s : State) (t c : Nat) : Bool :=
  let a := sget CtxMkt.start s.market.cfgA.ctxs t
  let b := sget CtxMkt.start s.market.cfgA.ctxs c
  decide (t = c) || (a.valid && b.valid && decide (a.tenant = b.tenant))

/-- The group of a context that holds a tag and is resident, saved or migrating (R426). -/
def State.taggedGroup (s : State) (ctx tag : Nat) : Option (Nat × Group) :=
  s.groups.find? fun g => decide (g.2.ctx = ctx) && decide (g.2.tag = tag) && g.2.place.reachable

/-- The key of a barrier in the pending-arrival log. -/
def arrKey (gid k : Nat) : Nat := 16 * gid + k

/-- A group whose core is powered and that is not being stopped (R480, R481). -/
def State.present (s : State) (g : Group) : Bool :=
  match g.place with
  | .resident c => decide (c ∉ s.mgmt.gated) && !(g.waves.any fun w => w.stopping)
  | _ => false

/-- A remote arrival: the state and the status (R426). An arrival at a group of a DEAD scope has no effect (R501). -/
def remoteArrive (s : State) (ctx : Nat) (v : W64) : State × Nat :=
  let n := v.toNat
  let t := n / 2 ^ 32 % 1024
  if decide (n / 16 % 16 ≠ 0) || decide (n / 2 ^ 42 % 64 ≠ 0) || !s.sameTenant t ctx then (s, 3)
  else if (s.ctxGen t).toNat ≠ n / 2 ^ 48 then (s, 1)
  else match s.taggedGroup t (n / 2 ^ 8 % 2 ^ 24) with
    | none => (s, 2)
    | some (gid, g) =>
      let k := n % 16
      if s.scopeGone g.scope then (s, 0)
      else if s.present g then ((s.modGroup gid fun g => g.modBar k fun b => { b with rc := b.rc + 1 }).evalBar gid k, 0)
      else
        let bump := fun (c : W32) => if c = 0xFFFFFFFF then c else c + 1
        ({ s with mgmt := { s.mgmt with pendArr := smod 0 (arrKey gid k) bump s.mgmt.pendArr } }, 0)

def execBaraRem (h : Hdr) (f : SF) (s : State) : Host.Outcome State Fault Refusal :=
  withIssuer s fun x =>
    let a := readS s x true f.a
    oncePerWave s x h [a] (
      let status := (remoteArrive s x.g.ctx a.val).2
      (remoteArrive (finishGroup s x h fun g => g.putSregs x.ref.wi s.free f.d.toNat [BitVec.ofNat 32 status]) x.g.ctx a.val).1)

/-- Folds the pending arrivals of a group in (R482). -/
def State.foldArrivals (s : State) (gid : Nat) : State :=
  let s := s.modGroup gid fun g => (List.range 16).foldl (fun g k =>
    g.modBar k fun b => { b with rc := b.rc + sget 0 s.mgmt.pendArr (arrKey gid k) }) g
  { s.evalBars gid with mgmt := { s.mgmt with pendArr := s.mgmt.pendArr.filter fun p => p.1 / 16 != gid } }

/-! ## Gang barriers (R428) -/

/-- The gang of a group, none for a task, which is a gang of one wave. -/
def State.gangOf (s : State) (g : Group) : Option Gang :=
  if g.task.isSome then none else (aget s.launches g.launch).bind fun l => l.gangs[g.gang]?

def State.modGang (s : State) (launch gang : Nat) (f : Gang → Gang) : State :=
  { s with launches := amod launch (fun l => { l with gangs := modAt gang f l.gangs }) s.launches }

/-- Every wave of every member that has to arrive itself: neither ended nor killed. -/
def State.gangParties (s : State) (k : Gang) : List (Nat × Nat) :=
  k.groups.flatMap fun gid => match s.group? gid with
    | some g => ((List.range g.waves.length).zip g.waves).filterMap fun p =>
        if p.2.ended || k.killed.contains (gid, p.1) || decide (g.place = .ended) then none else some (gid, p.1)
    | none => []

/-- Releases the entries of a wave whose gang phase has completed: pD in every lane of EXEC. The value stands in the entry
since the phase completed. -/
def Wave.releaseGbar (w : Wave) (n : Nat) (cnt : W32) : Wave :=
  (List.range 8).foldl (fun w i => match w.entry? i with
    | some e => (match e.st, e.insn with
      | .wait (.gbar b p), some (.gbar _ f) =>
        if b = n ∧ phaseDone cnt p then
          let v := decide ((aget e.vals 0).getD 0 ≠ 0)
          let w := (Mask.lanes e.exec).foldl (fun w l => w.putPred f.d.toNat l v) w
          w.setEntry i (some (w.goOn { e with pc := e.pc + 8 }))
        else w
      | _, _ => w)
    | none => w) w

def State.releaseGbar (s : State) (k : Gang) (n : Nat) : State :=
  if s.held then s
  else k.groups.foldl (fun s gid => s.modGroup gid fun g => { g with waves := g.waves.map fun w => w.releaseGbar n (k.gphase[n]?.getD 0) }) s

/-- Marks the entries that wait for phase p of gang barrier n with the CANCELLED value. -/
def Wave.markGbar (w : Wave) (n : Nat) (p : W32) (v : Bool) : Wave :=
  (List.range 8).foldl (fun w i => w.modEntry i fun e =>
    if e.st = .wait (.gbar n p) then { e with vals := [(0, if v then 1 else 0)] } else e) w

/-- Evaluates a gang barrier. -/
def State.evalGbar (s : State) (launch gang n : Nat) : State :=
  match (aget s.launches launch).bind fun l => l.gangs[gang]? with
  | none => s
  | some k =>
    let arr := k.garr[n]?.getD []
    if arr ≠ [] && (s.gangParties k).all fun p => arr.contains p then
      let p := k.gphase[n]?.getD 0
      let s := k.groups.foldl (fun s gid => s.modGroup gid fun g => { g with waves := g.waves.map fun w => w.markGbar n p !k.killed.isEmpty }) s
      let k' := { k with gphase := setAt n (p + 1) k.gphase, garr := setAt n [] k.garr }
      (s.modGang launch gang fun _ => k').releaseGbar k' n
    else s

def State.evalGbars (s : State) (launch gang : Nat) : State := (List.range 8).foldl (fun s n => s.evalGbar launch gang n) s

/-- `gbar` (R428). -/
def execGbar (h : Hdr) (f : SF) (s : State) : Host.Outcome State Fault Refusal :=
  withIssuer s fun x =>
    let n := f.sel.toNat % 8
    oncePerWave s x h [] (
      match s.gangOf x.g with
      | none => finish s x h ((Mask.lanes (x.exec h)).foldl (fun w l => w.putPred f.d.toNat l false) x.w)
      | some k =>
        let p := k.gphase[n]?.getD 0
        let me := (x.ref.gid, x.ref.wi)
        let s := s.setWave x.ref.gid x.ref.wi (x.w.setEntry x.ref.slot (some
          { (x.e.arm h x.w.nextSeq) with st := .wait (.gbar n p), insn := some (.gbar h f), exec := x.exec h, pass := 0 }))
        let add := fun (l : List (Nat × Nat)) => if l.contains me then l else l ++ [me]
        (s.modGang x.g.launch x.g.gang fun k => { k with garr := modAt n add k.garr }).evalGbar x.g.launch x.g.gang n)

/-- Every wave of a group counts as a killed party of its gang (R428). -/
def State.killParties (s : State) (gid : Nat) : State :=
  match s.group? gid with
  | none => s
  | some g =>
    if g.task.isSome then s
    else
      let ps := ((List.range g.waves.length).zip g.waves).filterMap fun p => if p.2.ended then none else some (gid, p.1)
      (s.modGang g.launch g.gang fun k => { k with killed := k.killed ++ ps.filter fun p => !k.killed.contains p }).evalGbars g.launch g.gang

/-! ## Twin control (R438 to R440) -/

/-- `twpart` parts the pair of the wave, or of every wave of its group. -/
def execTwpart (h : Hdr) (f : SF) (s : State) : Host.Outcome State Fault Refusal :=
  withIssuer s fun x =>
    oncePerWave s x h [] (
      let s' := finish s x h x.w
      if f.sel.getLsbD 0 then (List.range x.g.waves.length).foldl (fun s wi => s.part { gid := x.ref.gid, wi := wi } 2 3) s'
      else s'.part { gid := x.ref.gid, wi := x.ref.wi } 2 3)

/-- The word of `twstat` (R440). -/
def twstatWord (s : State) (g : Group) (w : Wave) (r : WaveRef) : Nat :=
  let b := fun (c : Bool) (k : Nat) => if c then 2 ^ k else 0
  if !g.twin then 0
  else
    1 + b (decide (w.pair = .joined)) 1 + (match w.pair with
      | .parted c => 4 + 16 * c
      | _ => 0) + b g.follower 3 + b (match s.joinedWith r with
        | some p => !(s.arrivals p).isEmpty
        | none => false) 7

def execTwstat (h : Hdr) (f : SF) (s : State) : Host.Outcome State Fault Refusal :=
  withIssuer s fun x =>
    oncePerWave s x h [] (finishGroup s x h fun g =>
      g.putSregs x.ref.wi s.free f.d.toNat [BitVec.ofNat 32 (twstatWord s x.g x.w { gid := x.ref.gid, wi := x.ref.wi })])

end Sys2Proof.Machine
end

