-- ==== Sys2Proof/Machine/Copy.lean ====
section
/-! DEFINITION. Copy: the copy engine: `cpy`, `cpyt`, `cpyg`, COPY packets and their chunks (R355, R356, R379 to R387). -/

namespace Sys2Proof.Machine

/-! ## Descriptors (R379) -/

def Copy.word (c : Copy) (i : Nat) : W32 := c.desc[i]?.getD 0
def Copy.pair (c : Copy) (i : Nat) : W64 := pair64 (c.word i) (c.word (i + 1))
def Copy.src (c : Copy) : W64 := c.pair 0
def Copy.dst (c : Copy) : W64 := c.pair 2
def Copy.len (c : Copy) : Nat := (c.pair 4).toNat
def Copy.rowb (c : Copy) : Nat := (c.word 4).toNat
def Copy.rowCount (c : Copy) : Nat := (c.word 5).toNat
def Copy.ctr (c : Copy) : W64 := c.pair 6
def Copy.cval (c : Copy) : W64 := c.pair 8
def Copy.frec (c : Copy) : W64 := c.pair 10
def Copy.spitch (c : Copy) : Nat := (c.word 12).toNat
def Copy.dpitch (c : Copy) : Nat := (c.word 13).toNat
def Copy.idx (c : Copy) : W64 := c.pair 14

/-- The slice a copy covers, as a range: bytes of a `cpy`, rows otherwise (R386). -/
def Copy.range (c : Copy) : Nat × Nat :=
  match c.kind with
  | .cpy =>
    if c.slices = 0 then (0, c.len)
    else
      let sz := 128 * ((c.len + 128 * c.slices - 1) / (128 * c.slices))
      (min (c.slice * sz) c.len, min ((c.slice + 1) * sz) c.len)
  | _ =>
    if c.slices = 0 then (0, c.rowCount)
    else
      let q := (c.rowCount + c.slices - 1) / c.slices
      (min (c.slice * q) c.rowCount, min ((c.slice + 1) * q) c.rowCount)

/-- Bytes of a row; a `cpy` is one row. -/
def Copy.rowBytes (c : Copy) : Nat :=
  match c.kind with
  | .cpy => c.range.2 - c.range.1
  | _ => c.rowb

/-- The row behind the last. -/
def Copy.rowEnd (c : Copy) : Nat :=
  match c.kind with
  | .cpy => 1
  | _ => c.range.2

def Copy.rowStart (c : Copy) : Nat :=
  match c.kind with
  | .cpy => 0
  | _ => c.range.1

/-- Every byte has been written. -/
def Copy.finished (c : Copy) : Bool := decide (c.rowBytes = 0) || decide (c.rowEnd ≤ c.row)

/-- The next destination address (R382); behind the last byte of a `cpy` that has written all. -/
def Copy.dstNow (c : Copy) : W64 :=
  match c.kind with
  | .cpy => c.dst + BitVec.ofNat 64 (c.range.1 + (if c.row = 0 then c.next else c.rowBytes))
  | _ => c.dst + BitVec.ofNat 64 (c.row * c.dpitch + c.next)

/-- The next source address; i is the row's index in a `cpyg`. -/
def Copy.srcNow (c : Copy) (i : Nat) : W64 :=
  match c.kind with
  | .cpy => c.src + BitVec.ofNat 64 (c.range.1 + c.next)
  | .cpyt => c.src + BitVec.ofNat 64 (c.row * c.spitch + c.next)
  | .cpyg => c.src + BitVec.ofNat 64 (i * c.spitch + c.next)

/-- Whoever a copy acts for: its context, and its group for the scratchpad windows. -/
def Copy.party (c : Copy) : Party := { ctx := c.ctx, gid := c.owner.map fun o => o.1, priv := none }

def Copy.work (c : Copy) : Work := { ctx := c.ctx, launch := c.launch, scope := c.scope }

/-! ## Ends of a copy (R384, R385, R387) -/

/-- DETAIL of a copy's violations: its issuing wave, as group tag × 256 + wave; 0 for a packet (R108). -/
def copyDetail (s : State) (c : Copy) : W64 :=
  match c.owner with
  | some o => match s.group? o.1 with
    | some g => BitVec.ofNat 64 (256 * g.tag + o.2)
    | none => 0
  | none => 0

def State.dropCopy (s : State) (n : Nat) : State := { s with copies := adel n s.copies }
def State.putCopy (s : State) (n : Nat) (c : Copy) : State := { s with copies := aput n c s.copies }

/-- A copy waits for what other devices answer. -/
def State.copySends (s : State) (n : Nat) (c : Copy) (asks : List RemoteAsk) : State :=
  (s.sendAsks (.copy n) c.work asks).putCopy n { c with remote := c.remote ++ unanswered s.mgmt.nextAccess asks }

/-- The operations on a copy's counter, as R436 numbers them: those of its completion (R384), where moved poison poisons the counter with it
(R104); the poisoning of R385 in place of them. An ADD keeps the poison that stands before it (R128). -/
def counterOps (c : Copy) (f : CopyFate) : List (Nat × W64) :=
  if c.mode = 1 then [(2, if f.report.isSome || c.tainted then ctrPoison c.cval else c.cval)]
  else if f.report.isSome then [(5, 0)]
  else (if c.tainted then [(5, 0)] else []) ++ [(4, c.cval)]

/-- The fault record of a copy (R385). -/
def copyReport (r : Nat × Nat × W64) : List Byte := bytesOfNat 8 (r.1 + 256 * r.2.1) ++ bytesOfNat 8 r.2.2.toNat

/-- A copy leaves the engine: for a COPY packet that failed the entry of the fault list, then its packet's completion (R122, R385). -/
def copyLeave (s : State) (n : Nat) (c : Copy) (f : CopyFate) : State :=
  let s := s.dropCopy n
  match c.packet with
  | some p =>
    (match f.failed, f.report with
      | true, some (cause, side, addr) =>
        (s.addFault { dumpid := 0, kind := 3, state := 3, cause := cause, aux := side, ctx := c.ctx, queue := p.queue, origin := p.index, tag := 0,
                      lanes := 0, pc := addr, value := 0, image := 0, time := 0, gid := 0 }).completePacket c.ctx p .fail
      | _, _ => s.completePacket c.ctx p .dec)
  | none => s

/-- The operation on a copy's counter, dropped and logged where it may not be performed (R384, R385); behind one at another device the copy
waits for its answer. -/
def copyCount (s : State) (n : Nat) (c : Copy) (f : CopyFate) : State :=
  if c.ctr = 0 then copyLeave s n c f
  else match s.changeWordOf c.party c.ctr (wordOps (counterOps c f)) with
    | some t => copyLeave t n c f
    | none =>
      let asks := s.stepAsks c.party c.ctr (counterOps c f)
      if asks.isEmpty then copyLeave (s.violation 10 0 0xFF 1 c.ctx c.ctr (copyDetail s c)) n c f
      else s.copySends n { c with fate := some { f with recorded := true, counted := true }, remote := [] } asks

/-- The end of a copy: its record where it failed or was stopped, then the operation on its counter (R384, R385, R387), each ordered after the
one before. -/
def copyEnd (s : State) (n : Nat) (c : Copy) (f : CopyFate) : State :=
  match f.report with
  | none => copyCount s n c f
  | some r =>
    if c.frec = 0 then copyCount s n c f
    else match s.putRecord c.party c.frec (copyReport r) with
      | some t => copyCount t n c f
      | none =>
        let asks := s.recordAsks c.party c.frec (copyReport r)
        if asks.isEmpty then copyCount (s.violation 7 0 0xFF 1 c.ctx c.frec (copyDetail s c)) n c f
        else s.copySends n { c with fate := some { f with recorded := true }, remote := [] } asks

/-- A copy's end goes on once other devices have answered: a store that failed is dropped and logged. -/
def copyEndOn (s : State) (n : Nat) (c : Copy) (f : CopyFate) : State :=
  let failed := c.remote.any Answered.failed
  let c' := { c with remote := [] }
  if f.counted then copyLeave (if failed then s.violation 10 0 0xFF 1 c.ctx c.ctr (copyDetail s c) else s) n c' f
  else if f.recorded then copyCount (if failed then s.violation 7 0 0xFF 1 c.ctx c.frec (copyDetail s c) else s) n c' f
  else copyEnd s n c' f

/-- A copy completes (R384). -/
def copyComplete (s : State) (n : Nat) (c : Copy) : State := copyEnd s n c { report := none, failed := false, recorded := false, counted := false }

/-- A copy ends by a failing check (R385). -/
def copyFail (s : State) (n : Nat) (c : Copy) (cause side : Nat) (addr : W64) : State :=
  copyEnd s n c { report := some (cause, side, addr), failed := true, recorded := false, counted := false }

/-- A copy moves past a chunk. -/
def Copy.advance (c : Copy) (n : Nat) (bad : Bool) : Copy :=
  let c := { c with remote := [], sending := none, tainted := c.tainted || bad }
  if c.next + n < c.rowBytes then { c with next := c.next + n } else { c with next := 0, row := c.row + 1, rowIdx := none }

/-- A copy stops because its scope is DEAD or its group ends as failed: a chunk on its way completes, and the record names the first
destination address not written (R387, R468). -/
def copyStop (s : State) (n : Nat) (cause : Nat) : State :=
  match aget s.copies n with
  | none => s
  | some c =>
    if c.fate.isSome then s
    else
      let f := fun (c : Copy) => ({ report := some (cause, 1, c.dstNow), failed := false, recorded := false, counted := false } : CopyFate)
      match c.sending with
      | some k =>
        if c.remote.any Answered.open_ then s.putCopy n { c with fate := some (f (c.advance k false)) }
        else let c := c.advance k false; copyEnd s n c (f c)
      | none => copyEnd s n { c with remote := [] } (f c)

/-! ## Chunks (R355, R356, R382, R383) -/

/-- Bytes from an address to the end of its page; n where it lies in no page. -/
def State.pageLeft (s : State) (ctx : Nat) (a : W64) (n : Nat) : Nat :=
  if spaceOf a = some .global then
    match s.leaf ctx a.toNat with
    | some l => 2 ^ l.shift - a.toNat % 2 ^ l.shift
    | none => n
  else n

/-- An address begins a page. -/
def State.pageStarts (s : State) (ctx : Nat) (a : W64) : Bool :=
  if spaceOf a = some .global then
    match s.leaf ctx a.toNat with
    | some l => decide (a.toNat % 2 ^ l.shift = 0)
    | none => true
  else false

/-- The parts of n bytes that lie in one sector each. -/
def sectorParts (a : W64) (n : Nat) : List (W64 × Nat) :=
  let lead := min n (32 - a.toNat % 32)
  (if lead = 0 then [] else [(a, lead)]) ++
    (List.range ((n - lead + 31) / 32)).map fun i => (a + BitVec.ofNat 64 (lead + 32 * i), min 32 (n - lead - 32 * i))

/-- The LOST sector of a part that the part meets: any for a read, one not written whole for a write (R476). -/
def lostPart (s : State) (rs : List Answered) (write : Bool) (t : Site) (n : Nat) : Option Cause :=
  if write && decide (n = 32) then (match refusal rs t with
    | some .pageNotPresent => some .pageNotPresent
    | _ => none)
  else if s.lostAt t then some .vaLost
  else refusal rs t

/-- One side of a piece or chunk: its parts with their sites, after its checks. -/
def sideSites (s : State) (c : Copy) (write : Bool) (a : W64) (n : Nat) : Except MFault Sites :=
  let p := if write then Perm.w else Perm.r
  match spaceOf a with
  | some .global =>
    (sectorParts a n).mapM fun q =>
      match s.site c.party p q.1 q.2 with
      | .error e => .error e
      | .ok t => match lostPart s c.remote write t q.2 with
        | some cause => .error { cause := cause, value := q.1 }
        | none => .ok (t, q.2)
  | _ => (s.site c.party p a n).map fun t => match t with
    | .scratch gid off => (sectorParts a n).map fun q => (.scratch gid (off + (q.1 - a).toNat), q.2)
    | t => [(t, n)]

/-- Runs of bytes with equal poison. -/
def badRuns : List (Byte × Bool) → List (List Byte × Bool)
  | [] => []
  | (b, p) :: rest =>
    match badRuns rest with
    | (bs, q) :: more => if p = q then (b :: bs, q) :: more else ([b], p) :: (bs, q) :: more
    | [] => [([b], p)]

/-- The site of a byte further on in the same sector. -/
def Site.shift (t : Site) (k : Nat) : Site :=
  match t with
  | .dev pa va key fe => .dev (pa + k) (va + k) key fe
  | .host ba va key => .host (ba + k) (va + k) key
  | .remote dv pa va key fe slot => .remote dv (pa + k) (va + k) key fe slot
  | .scratch gid off => .scratch gid (off + k)

/-- A sector that is written whole is LOST no longer (R476). -/
def State.rewritten (s : State) (t : Site) (n : Nat) : State :=
  match t with
  | .dev pa _ _ _ => if n = 32 then { s with mem := { s.mem with lost := sdel (pa / 32) s.mem.lost } } else s
  | _ => s

/-- Writes bytes of one sector with their poison. -/
def State.writeMarked (s : State) (t : Site) (bs : List (Byte × Bool)) : State :=
  match badRuns bs with
  | [(run, bad)] => s.writeSite t run bad
  | runs => (runs.foldl (fun (p : State × Nat) r => (p.1.writeSite (t.shift p.2) r.1 r.2, p.2 + r.1.length)) (s, 0)).1.rewritten t bs.length

/-- Writes bytes over the parts of a side. -/
def State.writeParts (s : State) : Sites → List (Byte × Bool) → State
  | [], _ => s
  | t :: ts, bs => (s.writeMarked t.1 (bs.take t.2)).writeParts ts (bs.drop t.2)

/-- What stands in the way of a copy's next chunk, or the chunk. -/
inductive ChunkPlan
  | fail (cause side : Nat) (addr : W64)
  | need (asks : List RemoteAsk)
  | move (src dst : Sites) (n : Nat)

/-- The row index of a `cpyg`, read once for its row on path C (R382). -/
def rowIndex (s : State) (c : Copy) : Except ChunkPlan Nat :=
  match c.kind, c.rowIdx with
  | .cpyg, none =>
    let a := c.idx + BitVec.ofNat 64 (4 * c.row)
    match sideSites s c false a 4 with
    | .error e => .error (.fail e.cause.code.toNat 2 e.value)
    | .ok ts =>
      let asks := newAsks c.remote (readAsks ts)
      if !asks.isEmpty then .error (.need asks)
      else
        let bs := (if c.remote = [] then s else s.loadLines c.remote).readSites ts
        if bs.any fun b => b.2 then .error (.fail Cause.poisonConsumed.code.toNat 2 a) else .ok (natOfBytes (bs.map fun b => b.1))
  | _, i => .ok (i.getD 0)

/-- The next chunk of a copy: a piece is checked whole when it starts, its source before its destination, and each chunk again when it
starts; a chunk that fails names its first address on the failing side (R356). -/
def chunkPlan (s : State) (c : Copy) (i : Nat) : ChunkPlan :=
  let a := c.srcNow i
  let d := c.dstNow
  let rest := c.rowBytes - c.next
  let piece := min rest (min (s.pageLeft c.ctx a rest) (s.pageLeft c.ctx d rest))
  let n := min piece (4096 - d.toNat % 4096)
  let first := decide (c.remote = []) && (decide (c.next = 0) || s.pageStarts c.ctx a || s.pageStarts c.ctx d)
  let starts := if first then (match sideSites s c false a piece, sideSites s c true d piece with
    | .error e, _ => some (ChunkPlan.fail e.cause.code.toNat 0 e.value)
    | _, .error e => some (.fail e.cause.code.toNat 1 e.value)
    | .ok _, .ok _ => none) else none
  match starts with
  | some p => p
  | none =>
    match sideSites s c false a n, sideSites s c true d n with
    | .error e, _ => .fail e.cause.code.toNat 0 a
    | _, .error e => .fail e.cause.code.toNat 1 d
    | .ok ts, .ok td =>
      let asks := newAsks c.remote (readAsks ts)
      if asks.isEmpty then .move ts td n else .need asks

/-- A chunk lands: here at once; at other devices with their answers. -/
def chunkMove (s : State) (n : Nat) (c : Copy) (ts td : Sites) (k : Nat) : State :=
  let s := if c.remote = [] then s else s.loadLines c.remote
  let bs := s.readSites ts
  let bad := bs.any fun b => b.2
  let s := ((s.writeParts td bs).dropLines).hostUsed ((ts ++ td).any fun t => t.1.isHost)
  let asks := storeAsks (remoteBytes td bs)
  if asks.isEmpty then (s.putCopy n (c.advance k bad)).count c.ctx 9 k
  else s.copySends n { c with tainted := c.tainted || bad, sending := some k, remote := [] } asks

/-- The answers to a chunk's stores have come: the copy moves past it, or fails where a home refused (R356, R521). -/
def chunkSent (s : State) (n : Nat) (c : Copy) (k : Nat) : State :=
  match c.remote.findSome? fun r => match r.answer with
    | some .lost => some Cause.vaLost
    | some .noPage => some .pageNotPresent
    | _ => none with
  | some cause => copyFail s n { c with sending := none, remote := [] } cause.code.toNat 1 c.dstNow
  | none => (s.putCopy n (c.advance k false)).count c.ctx 9 k

/-- The next chunk of a copy, or its completion once every chunk has landed (R382 to R385). -/
def copyStep (s : State) (n : Nat) : State :=
  match aget s.copies n with
  | none => s
  | some c =>
    if c.remote.any Answered.open_ then s
    else match c.fate, c.sending with
      | some f, _ => copyEndOn s n c f
      | none, some k => chunkSent s n c k
      | none, none =>
        if c.halted then s
        else if s.scopeGone c.scope then copyStop s n Cause.scopeDead.code.toNat
        else if c.finished then copyComplete s n c
        else match rowIndex s c with
          | .error (.fail cause side addr) => copyFail s n c cause side addr
          | .error (.need asks) => s.copySends n c asks
          | .error (.move ..) => s
          | .ok i =>
            let c := if c.kind = .cpyg && c.rowIdx.isNone then { c with rowIdx := some i, remote := [] } else c
            match chunkPlan s c i with
            | .fail cause side addr => copyFail s n c cause side addr
            | .need asks => s.copySends n c asks
            | .move ts td k => chunkMove s n c ts td k

/-! ## Accepting a copy (R381) -/

def copyLimit : Nat := 256

/-- The status of a descriptor. -/
def copyStatus (c : Copy) : Nat :=
  if (match c.kind with
      | .cpy => decide (2 ^ 48 ≤ c.len)
      | _ => decide (2 ^ 24 < c.rowb) || decide (2 ^ 24 < c.rowCount)) then 1
  else if decide (c.ctr.toNat % 8 ≠ 0) || decide (c.frec.toNat % 8 ≠ 0) || (decide (c.kind = .cpyg) && decide (c.idx.toNat % 4 ≠ 0)) then 2
  else if 2 ^ 63 ≤ c.cval.toNat then 3
  else 0

/-- Hands a copy to the engine. -/
def State.acceptCopy (s : State) (c : Copy) : State :=
  { s.putCopy s.nextCopy { c with row := c.rowStart } with nextCopy := s.nextCopy + 1 }

/-- The registers a copy instruction reads. -/
def copySrcs (s : State) (x : Issue) (f : SF) (kind : CopyKind) : List Src :=
  (List.range (if kind = .cpy then 12 else if kind = .cpyt then 14 else 16)).map fun i => readS s x false (f.a + BitVec.ofNat 8 i)

/-- A copy instruction: its status, and the accepted copy. -/
def copyInstr (s : State) (h : Hdr) (f : SF) (kind : CopyKind) : Host.Outcome State Fault Refusal :=
  withIssuer s fun x =>
    let srcs := copySrcs s x f kind
    let core := (x.g.place.core?).getD 0
    oncePerWave s x h srcs (
      let c : Copy :=
        { kind := kind, desc := srcs.map fun r => lo32 r.val, mode := f.sel.toNat % 2, scp := f.sel.toNat / 8 % 8, ctx := x.g.ctx
          scope := x.g.scope, owner := some (x.ref.gid, x.ref.wi), launch := x.g.launchOf, core := core, packet := none
          slice := if f.sel.getLsbD 6 then x.ref.wi else 0, slices := if f.sel.getLsbD 6 then x.g.waves.length else 0
          row := 0, next := 0, halted := false, tainted := false, remote := [], ch := f.sel.toNat / 2 % 4 }
      let st := copyStatus c
      if st ≠ 0 then finishGroup s x h fun g => g.putSregs x.ref.wi s.free f.d.toNat [BitVec.ofNat 32 st]
      else if copyLimit ≤ (s.copies.filter fun p => p.2.owner.isSome && decide (p.2.core = core)).length then s.retryEntry x.ref
      else finishGroup (s.acceptCopy c) x h fun g => g.putSregs x.ref.wi s.free f.d.toNat [0])

def execCpy (h : Hdr) (f : SF) (s : State) : Host.Outcome State Fault Refusal := copyInstr s h f .cpy
def execCpyt (h : Hdr) (f : SF) (s : State) : Host.Outcome State Fault Refusal := copyInstr s h f .cpyt
def execCpyg (h : Hdr) (f : SF) (s : State) : Host.Outcome State Fault Refusal := copyInstr s h f .cpyg

/-- The copy engine starts and completes the next chunk of a copy (R383). -/
def execCopyChunk (copy : Nat) (s : State) : Host.Outcome State Fault Refusal := .next (copyStep s copy)

/-- Stops the copies of a group at a chunk boundary (R387, R479), or lets them go on. -/
def State.haltCopies (s : State) (gid : Nat) (b : Bool) : State :=
  let f := fun c : Copy => match c.owner with
    | some o => if o.1 = gid then { c with halted := b } else c
    | none => c
  { s with copies := s.copies.map fun p => (p.1, f p.2) }

/-- The copies of a group. -/
def State.copiesOf (s : State) (gid : Nat) : List Nat :=
  s.copies.filterMap fun p => match p.2.owner with
    | some o => if o.1 = gid then some p.1 else none
    | none => none

end Sys2Proof.Machine
end

