-- ==== Sys2Proof/Machine/ImageBytes.lean ====
section
/-! DEFINITION. ImageBytes: the bytes of a Casmos image: header, section table, bodies, their encryption and digests (R484 to R491), and what a
restore checks of them (R492). -/

namespace Sys2Proof.Machine

/-! ## Sections (R486, R487) -/

/-- A section: its TYPE, its INDEX, its LENGTH and its body in plaintext. -/
structure Section where
  type : Nat
  index : Nat
  size : Nat
  body : List Byte

/-- A byte string cut or filled up with zeros to n bytes. -/
def padTo (n : Nat) (bs : List Byte) : List Byte := bs.take n ++ List.replicate (n - bs.length) 0

/-- INDEX of a wave's or a group's section, and of a context-wide one. -/
def sectIndex (rank wi : Nat) : Nat := wi + 256 * rank
def ctxIndex : Nat := 0xFFFFFFFF

def mkSection (type index size : Nat) (body : List Byte) : Section := { type := type, index := index, size := size, body := padTo size body }

/-- Bits packed into bytes, the first in bit 0 of the first. -/
def packBits (n : Nat) (f : Nat → Bool) : List Byte :=
  (List.range ((n + 7) / 8)).map fun i => wordBits ((List.range 8).filter fun k => decide (8 * i + k < n) && f (8 * i + k))

/-- Words of a sparse map from a key on. -/
def wordBytes (m : List (Nat × W32)) (k n : Nat) : List Byte := (List.range n).flatMap fun i => bytesOfNat 4 (sget 0 m (k + i)).toNat

/-! ## The per-gang sections -/

/-- The launch record that a group runs under. -/
def State.rcdOf (s : State) (g : Group) : Option LaunchRec := (aget s.launches g.launch).map fun l => l.rcd

/-- STATE of a group: FAULTED, a task, or running. -/
def Group.stateCode (g : Group) : Nat :=
  match g.place with
  | .faulted _ | .dumped => 1
  | _ => if g.task.isSome then 2 else 0

/-- GROUP (R488). -/
def groupBody (s : State) (g : Group) : List Byte :=
  let t := g.task.bind fun n => aget s.tasks n
  let field := fun (f : LaunchRec → Nat) => ((s.rcdOf g).map f).getD 0
  let args := (t.map fun t => t.args.toNat).getD (field fun r => r.args.toNat)
  let done := (t.map fun t => t.done.toNat).getD (field fun r => r.done.toNat)
  let one := fun (f : LaunchRec → Nat) => bytesOfNat 1 (field f)
  bytesOfNat 8 (field fun r => r.image.toNat) ++ bytesOfNat 8 args ++ bytesOfNat 8 done ++
  bytesOfNat 4 g.gx.toNat ++ bytesOfNat 2 g.gy.toNat ++ bytesOfNat 2 g.gz.toNat ++
  bytesOfNat 4 (field fun r => r.gridx) ++ bytesOfNat 2 (field fun r => r.gridy) ++ bytesOfNat 2 (field fun r => r.gridz) ++
  one (fun r => r.waves) ++ one (fun r => r.gang) ++ bytesOfNat 2 (field fun r => if r.twin then 1 else 0) ++
  one (fun r => r.vregs) ++ one (fun r => r.acct) ++ one (fun r => r.regbk) ++ one (fun r => r.spadbk) ++ one (fun r => r.l1bk) ++
  one (fun r => r.pclass) ++ bytesOfNat 2 0 ++ bytesOfNat 4 (field fun r => r.lanes) ++ bytesOfNat 4 g.scope.toNat ++ bytesOfNat 4 g.tag ++
  bytesOfNat 4 (field fun r => r.scratch) ++ bytesOfNat 1 g.rank ++ bytesOfNat 1 g.stateCode ++ bytesOfNat 2 g.queue ++ bytesOfNat 8 g.launch ++
  List.replicate 176 0 ++ wordBytes g.sregs 0 256 ++ packBits 256 fun i => decide (i ∈ g.spoison)

/-- The state byte of an entry and its join register. -/
def entryCode (e : Entry) : Nat × Nat :=
  match e.st with
  | .join j => (1, j)
  | .wait _ => (2, 0)
  | .fault => (3, 0)
  | _ => (0, 0)

def entryBytes : Option Entry → List Byte
  | some e => bytesOfNat 8 e.pc.toNat ++ bytesOfNat 4 e.mask.toNat ++ bytesOfNat 1 e.pri.toNat ++ bytesOfNat 1 (entryCode e).1 ++
      bytesOfNat 1 e.pass ++ bytesOfNat 1 (entryCode e).2
  | none => List.replicate 13 0 ++ [0xFF, 0, 0]

/-- A spill slot (R183). -/
def spillBytes : Option Path → List Byte
  | some p => bytesOfNat 8 p.pc.toNat ++ bytesOfNat 4 p.mask.toNat ++ bytesOfNat 1 p.pri.toNat ++ bytesOfNat 1 (if p.faulted then 1 else 0) ++
      List.replicate 50 0
  | none => List.replicate 64 0

/-- The kind of a wait and its argument (R491). -/
def waitCode (i : Option Instr) : WaitFor → Nat × Nat
  | .bar _ phase => (match i with
    | some (.baraWait ..) => 2
    | _ => 1, phase.toNat)
  | .gbar _ phase => (3, phase.toNat)
  | .mem => (match i with
    | some (.wteq ..) => 5
    | _ => 4, 0)
  | .fe => (match i with
    | some (.ldfe ..) => 7
    | some (.stef ..) => 8
    | _ => 6, 0)
  | .enq _ => (9, 0)
  | .mtake => (10, 0)
  | .mpop => (11, 0)
  | .rendezvous => (12, 0)
  | .sleep wake => (13, wake)

/-- A wait record (R491). -/
def waitRecord : Option Entry → List Byte
  | some e => (match e.st with
    | .wait w =>
      let c := waitCode e.insn w
      bytesOfNat 1 c.1 ++ bytesOfNat 3 0 ++ bytesOfNat 4 e.done.toNat ++ bytesOfNat 8 e.pc.toNat ++ bytesOfNat 8 c.2 ++ List.replicate 40 0 ++
        (List.range 32).flatMap fun l => bytesOfNat 8 (if e.done.getLsbD l then ((aget e.vals l).getD 0).toNat else 0)
    | _ => List.replicate 320 0)
  | none => List.replicate 320 0

/-- A fault record (R465). -/
def recordBytes : Option FaultRec → List Byte
  | some f => bytesOfNat 1 f.cause.code.toNat ++ bytesOfNat 1 (if f.skip then 3 else 1) ++ bytesOfNat 6 0 ++ bytesOfNat 8 f.pc.toNat ++
      bytesOfNat 8 f.value.toNat ++ bytesOfNat 8 0
  | none => List.replicate 32 0

/-- PTRAP: the trap that is delivered first, with the address at which the path that takes it goes on. -/
def ptrapBytes (w : Wave) : List Byte :=
  match w.ptraps with
  | [] => List.replicate 32 0
  | t :: _ =>
    let at_ := (w.entries.findSome? fun oe => oe.bind fun e => if e.mask &&& t.lanes = 0 then none else some e.pc).getD 0
    bytesOfNat 1 t.cause.code.toNat ++ bytesOfNat 1 1 ++ bytesOfNat 2 0 ++ bytesOfNat 4 t.mask.toNat ++ bytesOfNat 4 t.tdst.toNat ++ bytesOfNat 4 0 ++
      bytesOfNat 8 t.addr.toNat ++ bytesOfNat 8 at_.toNat

/-- TEN of a wave, as `sread` reads it. -/
def tenBits (w : Wave) : Nat := (if w.uten then 1 else 0) + (if w.inh then 2 else 0) + (if w.brkpark then 4 else 0)

/-- The poison masks of a wave: registers, operand registers, l0 and l1 as two words each. -/
def poisonMasks (w : Wave) : List Byte :=
  let mask := fun (k : Nat) (ps : List Nat) => bytesOfNat 4 (Mask.ofList ((List.range 32).filter fun l => decide (k + l ∈ ps))).toNat
  ((List.range w.nregs).flatMap fun r => mask (32 * r) w.poison) ++ ((List.range 8).flatMap fun r => mask (32 * (2048 + r)) w.poison) ++
    mask 0 w.lpoison ++ mask 128 w.lpoison ++ mask 64 w.lpoison ++ mask 192 w.lpoison

/-- WAVE (R489). -/
def waveBody (wi : Nat) (w : Wave) : List Byte :=
  let words := fun (l : List W32) (n : Nat) => (List.range n).flatMap fun i => bytesOfNat 4 ((l[i]?.getD 0)).toNat
  let lanes := fun (m : List (Nat × W64)) => (List.range 32).flatMap fun l => bytesOfNat 8 (sget 0 m l).toNat
  let one := fun (v : W32) => bytesOfNat 4 v.toNat
  let slots := fun {α : Type} (l : List (Option α)) (f : Option α → List Byte) => (List.range 8).flatMap fun i => f ((l[i]?).join)
  padTo 8 (bytesOfNat 2 wi ++ bytesOfNat 2 w.pslot ++ bytesOfNat 2 w.wb) ++ slots w.entries entryBytes ++ slots w.spill spillBytes ++
  words w.jm 8 ++ words w.preds 16 ++ one w.fpctl ++ one w.fpflags ++ bytesOfNat 4 (tenBits w) ++ one w.tcause ++
  bytesOfNat 8 w.tpc.toNat ++ bytesOfNat 8 w.tvec.toNat ++ one w.tmask ++ one w.tdst ++ one w.hmask ++ List.replicate 12 0 ++
  ptrapBytes w ++ lanes w.tval ++ slots w.entries waitRecord ++ ((List.range 32).flatMap fun l => recordBytes (aget w.faults l)) ++
  List.replicate 448 0 ++ wordBytes w.regs 0 (32 * w.nregs) ++ wordBytes w.regs 65536 256 ++ lanes w.l0 ++ lanes w.l1 ++ poisonMasks w

def waveSize (w : Wave) : Nat := 0x1400 + 128 * w.nregs + 1024 + 512 + 4 * (w.nregs + 12)

/-- An operation of an ENGINE body. -/
def opBytes (o : MatOp) : List Byte :=
  bytesOfNat 8 ((encode o.insn).getD 0).toNat ++ bytesOfNat 2 o.ra ++ bytesOfNat 2 o.rb ++ bytesOfNat 2 (o.rs.getD 0xFFFF) ++ bytesOfNat 1 o.next ++
    bytesOfNat 1 (if o.partner.isSome then 1 else 0) ++ List.replicate 16 0

/-- ENGINE (R490): a wave's share of its engine. -/
def engineBody (w : Wave) (e : SavedEngine) : List Byte :=
  let bit := fun (b : Bool) (k : Nat) => if b then 2 ^ k else 0
  let meet := w.entries.findSome? fun oe => oe.bind fun e => if e.st = .wait .rendezvous then some e.pc else none
  let parted := match w.pair with
    | .parted c => some c
    | _ => none
  bytesOfNat 1 w.acct ++
  bytesOfNat 1 (bit e.baton 0 + bit e.req 1 + bit (decide (w.pair = .joined)) 2 + bit parted.isSome 3 + bit w.drainEmpty 4 + bit meet.isSome 5) ++
  bytesOfNat 1 (parted.getD 0) ++ bytesOfNat 1 e.ops.length ++ bytesOfNat 4 e.rows.length ++ bytesOfNat 8 (meet.getD 0).toNat ++
  padTo 512 (e.ops.flatMap opBytes) ++ List.replicate 496 0 ++ wordBytes e.tiles 0 (1024 * w.acct) ++
  (e.rows.flatMap fun r => wordBytes r.elems 0 32) ++ packBits (1024 * w.acct) fun k => decide (k ∈ e.tpoison)

def engineSize (w : Wave) (e : SavedEngine) : Nat := 0x400 + w.acct * 4096 + 128 * e.rows.length + 128 * w.acct

/-- SCRATCH: the group's scratchpad, then its poison. -/
def scratchBody (g : Group) : List Byte :=
  ((List.range g.scSize).map fun a => sget memDefault g.scratch a) ++ packBits (g.scSize / 4) fun i => decide (i ∈ g.scPoison)

def barBytes (b : Bar) : List Byte :=
  bytesOfNat 4 b.cnt.toNat ++ bytesOfNat 4 b.wm.toNat ++ bytesOfNat 4 b.xc.toNat ++ bytesOfNat 4 b.arr.toNat ++ bytesOfNat 4 b.pm.toNat ++
    bytesOfNat 4 b.rc.toNat ++ bytesOfNat 8 0

/-- GANG: tags, killed parties, gang barriers; of a task, the gang that its one group is (R448). -/
def gangBody (s : State) (gid : Nat) (g : Group) : List Byte :=
  let ms := s.gangMembers gid g
  let k : Option Gang := if g.task.isSome then none else (aget s.launches g.launch).bind fun l => l.gangs[g.gang]?
  let tag := fun r => ((ms[r]?).bind fun m => (s.group? m).map fun v => v.tag).getD 0
  let rankOf := fun m => ms.findIdx fun i => i == m
  let killed := packBits 16 fun r => (k.map fun (k : Gang) => k.killed.any fun p => decide (rankOf p.1 = r)).getD false
  bytesOfNat 4 (s.gangTag gid g) ++ bytesOfNat 4 0 ++ ((List.range 16).flatMap fun r => bytesOfNat 4 (tag r)) ++ killed ++ List.replicate 6 0 ++
  (List.range 8).flatMap fun b =>
    let arr := ((k.map fun (k : Gang) => k.garr[b]?.getD []).getD []).map fun p => 32 * rankOf p.1 + p.2
    bytesOfNat 4 ((k.map fun (k : Gang) => k.gphase[b]?.getD 0).getD 0).toNat ++ bytesOfNat 4 0 ++ packBits 512 fun i => decide (i ∈ arr)

/-- SEL of a copy instruction (R380). -/
def Copy.sel (c : Copy) : Nat := c.mode + 2 * c.ch + 8 * c.scp + (if c.slices = 0 then 0 else 64)

/-- A saved copy. -/
def copyBytes (c : Copy) : List Byte :=
  let op := match c.kind with
    | .cpy => 0xA0
    | .cpyt => 0xA1
    | .cpyg => 0xA2
  let at_ := match c.kind with
    | .cpy => (c.range.1 + (if c.row = 0 then c.next else c.rowBytes), 0)
    | _ => (c.row, c.next)
  padTo 64 (c.desc.flatMap fun w => bytesOfNat 4 w.toNat) ++ bytesOfNat 1 op ++ bytesOfNat 1 ((c.owner.map fun o => o.2).getD 0) ++
    bytesOfNat 2 c.sel ++ bytesOfNat 4 c.scope.toNat ++ bytesOfNat 8 at_.1 ++ bytesOfNat 8 at_.2 ++ List.replicate 40 0

def countersSection (cs : List W64) : Section := mkSection 0x000A ctxIndex 128 (cs.flatMap fun c => bytesOfNat 8 c.toNat)

/-- The sections of a group and of its waves. -/
def groupSections (s : State) (engines : List SavedEngine) (gid : Nat) (g : Group) : List Section :=
  let copies := s.copies.filter fun c => decide ((c.2.owner.map fun o => o.1) = some gid)
  let sect := fun type size body => mkSection type (sectIndex g.rank 0) size body
  let waves := (List.range g.waves.length).zip g.waves
  [sect 0x0001 0x520 (groupBody s g), sect 0x0004 (g.scSize + (g.scSize / 4 + 7) / 8) (scratchBody g), sect 0x0005 512 (g.bars.flatMap barBytes),
   sect 0x0007 64 ((List.range 16).flatMap fun b => bytesOfNat 4 (sget 0 s.mgmt.pendArr (16 * gid + b)).toNat),
   sect 0x0008 (128 * copies.length) (copies.flatMap fun c => copyBytes c.2)] ++
  (if g.rank = 0 then [sect 0x0006 656 (gangBody s gid g)] else []) ++
  (waves.map fun p => mkSection 0x0002 (sectIndex g.rank p.1) (waveSize p.2) (waveBody p.1 p.2)) ++
  waves.filterMap fun p => (engines.find? fun e => decide (e.gid = gid) && decide (e.wi = p.1)).map fun e =>
    mkSection 0x0003 (sectIndex g.rank p.1) (engineSize p.2 e) (engineBody p.2 e)

/-! ## The image (R484 to R486) -/

def roundUp (n k : Nat) : Nat := (n + k - 1) / k * k

/-- Offsets of bodies from a place on, each at a multiple of 256; the place behind the last. -/
def placeSections : Nat → List Section → List (Nat × Section) × Nat
  | o, [] => ([], o)
  | o, x :: xs => let r := placeSections (roundUp (o + x.size) 256) xs; ((o, x) :: r.1, r.2)

/-- A body as it is stored from an offset of the image on: whole units of 32 bytes under IKEY, the tweak of each its offset ÷ 32. -/
def sealBody (key : BitVec 512) (o : Nat) (x : Section) : List Byte :=
  (List.range ((x.size + 31) / 32)).flatMap fun k => xtsEncrypt key (o / 32 + k) (padTo 32 ((x.body.drop (32 * k)).take 32))

/-- A section table entry. -/
def tableEntry (key : BitVec 512) (p : Nat × Section) : List Byte :=
  bytesOfNat 2 p.2.type ++ bytesOfNat 2 1 ++ bytesOfNat 4 p.2.index ++ bytesOfNat 4 1 ++ bytesOfNat 4 0 ++ bytesOfNat 8 p.1 ++ bytesOfNat 8 p.2.size ++
    sha512 ((sealBody key p.1 p.2).take p.2.size)

/-- KIND of a stop (R478). -/
def stopCode : StopKind → Nat
  | .lease => 1
  | .manager => 2
  | .migrate => 3
  | .fault => 4
  | .selftest => 5
  | .dispatch => 6

/-- MAGIC of an image, the bytes `CASMOSIM`. -/
def casmosMagic : List Byte := [0x43, 0x41, 0x53, 0x4D, 0x4F, 0x53, 0x49, 0x4D]

/-- The header's fields that an image does not hold itself: the writing device, the gang's size, its queue, the kernel's digest. -/
structure HdrArgs where
  device : Nat
  gang : Nat
  queue : Nat
  digest : List Byte

/-- The first 192 bytes of a header (R485). -/
def imageHead (i : Image) (h : HdrArgs) (size n : Nat) : List Byte :=
  let wide := decide (i.kind = .migrate) && i.vcl.isNone
  casmosMagic ++ bytesOfNat 2 1 ++ bytesOfNat 2 0 ++ bytesOfNat 4 256 ++ bytesOfNat 8 size ++ bytesOfNat 4 n ++ bytesOfNat 1 (stopCode i.kind) ++
  bytesOfNat 1 ((if i.ikey = 0 then 0 else 1) + (if wide then 2 else 0)) ++ bytesOfNat 2 i.gids.length ++ bytesOfNat 2 i.ctx ++ bytesOfNat 2 i.cgen.toNat ++
  bytesOfNat 2 h.device ++ bytesOfNat 2 i.ikey ++ bytesOfNat 8 i.intno ++ bytesOfNat 8 i.clk ++ bytesOfNat 8 i.time ++
  bytesOfNat 1 (i.vcl.getD 0xFF) ++ bytesOfNat 1 h.gang ++ bytesOfNat 2 h.queue ++ List.replicate 60 0 ++ padTo 64 h.digest

/-- LENGTH of an image with some sections: whole units of 256 bytes. -/
def imageSize (xs : List Section) : Nat := (placeSections (roundUp (256 + 96 * xs.length) 256) xs).2

/-- The bytes of an image. -/
def imageBytes (key : BitVec 512) (i : Image) (h : HdrArgs) (xs : List Section) : List Byte :=
  let start := roundUp (256 + 96 * xs.length) 256
  let ps := (placeSections start xs).1
  let table := ps.flatMap (tableEntry key)
  let head := imageHead i h (imageSize xs) xs.length
  padTo start (head ++ sha512 (head ++ table) ++ table) ++ ps.flatMap fun p => padTo (roundUp p.2.size 256) (sealBody key p.1 p.2)

/-! ## The image pool -/

/-- The fault lists stand at the start of the pool: 256 entries of 64 bytes for each of 1,024 contexts (R467; DESIGN CHOICE, log entry 13). -/
def poolStart : Nat := 1024 * 256 * 64

/-- Where the next image goes: behind those that are kept. -/
def State.poolNext (s : State) : Nat := s.mgmt.images.foldl (fun n i => max n (roundUp (i.at_ + i.size) 256)) poolStart

/-- Writes an image with some sections to the pool. -/
def State.storeImage (s : State) (i : Image) (h : HdrArgs) (xs : List Section) : State :=
  let i := { i with at_ := s.poolNext, size := imageSize xs, bytes := imageBytes (s.slot i.ikey).key.bits i h xs }
  { s with mgmt := { s.mgmt with images := s.mgmt.images ++ [i] } }

/-- The sections of the groups of an image. -/
def State.imageSections (s : State) (i : Image) : List Section :=
  i.gids.flatMap fun gid => match s.group? gid with
    | some g => groupSections s i.engines gid g
    | none => []

/-- The header's arguments for a group. -/
def State.hdrArgs (s : State) (g : Group) : HdrArgs :=
  { device := s.podIndex, gang := if g.task.isSome then 1 else ((s.rcdOf g).map fun r => r.gang).getD 1, queue := g.queue
    digest := ((s.rcdOf g).map fun r => r.digest).getD [] }

/-- Writes the image of a gang, with its counters. -/
def State.addImage (s : State) (i : Image) : State :=
  match (i.gids.head?).bind s.group? with
  | some g => s.storeImage i (s.hdrArgs g) (s.imageSections i ++ [countersSection i.counters])
  | none => s

/-! ## What a restore reads (R492) -/

/-- An entry of a section table. -/
structure SectEntry where
  type : Nat
  version : Nat
  index : Nat
  required : Bool
  offset : Nat
  size : Nat
  digest : List Byte

def sectEntry (bs : List Byte) : SectEntry :=
  { type := fieldAt bs 0 2, version := fieldAt bs 2 2, index := fieldAt bs 4 4, required := (fieldAt bs 8 4).testBit 0, offset := fieldAt bs 16 8
    size := fieldAt bs 24 8, digest := (bs.drop 32).take 64 }

/-- The section table. -/
def sectTable (bs : List Byte) : List SectEntry :=
  (List.range (fieldAt bs 0x18 4)).map fun k => sectEntry ((bs.drop (256 + 96 * k)).take 96)

/-- A body in plaintext. -/
def sectBody (key : BitVec 512) (bs : List Byte) (e : SectEntry) : List Byte :=
  ((List.range ((e.size + 31) / 32)).flatMap fun k => xtsDecrypt key (e.offset / 32 + k) ((bs.drop (e.offset + 32 * k)).take 32)).take e.size

/-- TYPEs that the device knows. -/
def knownSection (t : Nat) : Bool := decide (1 ≤ t) && decide (t ≤ 13)

/-- The fields of a GROUP body within their limits (R66, R488). -/
def groupFieldsOk (b : List Byte) : Bool :=
  let f := fieldAt b
  decide (1 ≤ f 0x28 1) && decide (f 0x28 1 ≤ 32) && decide (1 ≤ f 0x29 1) && decide (f 0x29 1 ≤ 16) && decide (f 0x2A 2 ≤ 1) &&
  decide (4 ≤ f 0x2C 1) && decide (f 0x2C 1 ≤ 32) && decide (f 0x2D 1 ≤ 16) && decide (f 0x2E 1 + f 0x2F 1 + f 0x30 1 = 48) && decide (f 0x31 1 ≤ 3) &&
  decide (f 0x44 1 < f 0x29 1) && decide (f 0x45 1 ≤ 2) &&
  (decide (f 0x45 1 = 2) || (decide (f 0x18 4 < f 0x20 4) && decide (f 0x1C 2 < f 0x24 2) && decide (f 0x1E 2 < f 0x26 2)))

/-- Two GROUP bodies of one launch that are no task's agree in what the launch gives them. -/
def groupsAgree (a b : List Byte) : Bool :=
  let same := fun o n => decide ((a.drop o).take n = (b.drop o).take n)
  !same 0x48 8 || decide (fieldAt a 0x45 1 = 2) || decide (fieldAt b 0x45 1 = 2) ||
    (same 0x00 24 && same 0x20 18 && same 0x34 8 && same 0x40 4 && same 0x46 2)

/-- The GROUP fields against one another (log entry 88): limits, one launch's fields, GROUPS, and a WAVE for each wave. -/
def groupsOk (key : BitVec 512) (bs : List Byte) : Bool :=
  let table := sectTable bs
  let groups := (table.filter fun e => decide (e.type = 1)).map fun e => sectBody key bs e
  let waves := groups.foldl (fun n b => n + fieldAt b 0x28 1) 0
  decide (groups.length = fieldAt bs 0x1E 2) && decide ((table.filter fun e => decide (e.type = 2)).length = waves) &&
  (groups.all groupFieldsOk) && groups.all fun a => groups.all fun b => groupsAgree a b

/-- The number of the first check of R492 that an image's bytes fail, 0 for none; gen is the context's generation, key that of IKEY, digest what
the image header at IMAGE holds, none where it is not to be read. A section is ignored for its TYPE or VERSION only where REQUIRED is clear. -/
def checkBytes (bs : List Byte) (ctx : Nat) (gen : W16) (key : BitVec 512) (digest : Option (List Byte)) : Nat :=
  let table := sectTable bs
  if !(decide (bs.take 8 = casmosMagic) && decide (fieldAt bs 8 2 = 1) && decide (fieldAt bs 0x0C 4 = 256)) then 1
  else if (bs.drop 0xC0).take 64 ≠ sha512 (bs.take 0xC0 ++ (bs.drop 0x100).take (96 * fieldAt bs 0x18 4)) then 2
  else if fieldAt bs 0x20 2 ≠ ctx ∨ fieldAt bs 0x22 2 ≠ gen.toNat then 3
  else if !(table.all fun e => decide (sha512 ((bs.drop e.offset).take e.size) = e.digest)) then 4
  else if table.any fun e => e.required && (!knownSection e.type || decide (1 < e.version)) then 5
  else if !groupsOk key bs || decide (digest ≠ some ((bs.drop 0x80).take 64)) then 6 else 0

end Sys2Proof.Machine
end

