-- ==== Sys2Proof/Machine/Life.lean ====
section
/-! DEFINITION. Life: how waves, groups, gangs and launches end: `exit` (R209, R329), groups that become FAULTED with their dumps
(R466 to R469), cancelled work (R501, R502), and the completion of launches (R494 to R498). -/

namespace Sys2Proof.Machine

/-! ## Groups and gangs -/

/-- A gang is over when each of its groups has ended (R77). -/
def State.checkGang (s : State) (g : Group) : State :=
  if g.task.isSome then s
  else s.modGang g.launch g.gang fun k =>
    if k.groups.all fun i => match s.group? i with
      | some m => decide (m.place = .ended)
      | none => true then { k with st := .over } else k

/-- A task leaves the machine with an operation on its DONE (R450). -/
def State.endTask (s : State) (n : Nat) (op : DoneOp) : State :=
  match aget s.tasks n with
  | none => s
  | some t => ({ s with tasks := adel n s.tasks }).signal { ctx := t.ctx, launch := none, scope := t.scope } t.queue t.done op.code 0

/-- A group has ended (R494): its place, tag and pending arrivals are free, its task or gang is told. -/
def State.endGroup (s : State) (gid : Nat) (op : DoneOp) : State :=
  match s.group? gid with
  | none => s
  | some g =>
    let s := s.modGroup gid fun g => { g with place := .ended, left := g.place.core? }
    let s := { s with mgmt := { s.mgmt with pendArr := s.mgmt.pendArr.filter fun p => p.1 / 16 != gid } }
    match g.task with
    | some n => s.endTask n op
    | none => s.checkGang g

def State.setLaunch (s : State) (n : Nat) (f : Launch → Launch) : State := { s with launches := amod n f s.launches }

/-- Every wave of a group has ended. -/
def Group.allEnded (g : Group) : Bool := g.waves.all fun w => w.ended

/-- The end of a wave's own state. -/
def Wave.close (w : Wave) : Wave :=
  { w with ended := true, live := 0, entries := List.replicate 8 none, spill := List.replicate 8 none, pend := [], ptraps := [], wdefer := []
           stopping := false, awaitBaton := false }

/-- A wave gives up what it holds of its engine: its pair parts, its baton, its rows (R310, R317, R321). -/
def State.leaveEngine (s : State) (r : WaveRef) (cause : Nat) : State := ((s.part r cause cause).dropBaton r).dropRows r

/-- Every gang barrier of a group's gang is evaluated. -/
def State.evalGangOf (s : State) (gid : Nat) : State :=
  match s.group? gid with
  | some g => if g.task.isSome then s else s.evalGbars g.launch g.gang
  | none => s

/-- A wave ends (R209, R329): barriers count it as arrived, and with the last wave its group ends. -/
def State.endWave (s : State) (r : WaveRef) : State :=
  let s := (s.modWave r.gid r.wi Wave.close).leaveEngine r 4
  let s := (s.evalBars r.gid).evalGangOf r.gid
  match s.group? r.gid with
  | some g => if g.allEnded then s.endGroup r.gid .dec else s
  | none => s

/-- `exit` (R209): the lanes of EXEC leave; with the last real lane the wave ends. -/
def execExitL (h : Hdr) (_f : RF) (s : State) : Host.Outcome State Fault Refusal :=
  withIssuer s fun x =>
    let m := x.exec h
    let w := { x.w with live := x.w.live &&& ~~~m }
    let rest := x.e.mask &&& ~~~m
    let e := if rest = 0 then none else some { x.next h w with mask := rest }
    let s := s.setWave x.ref.gid x.ref.wi (w.setEntry x.ref.slot e).settle
    if w.live &&& w.real = 0 then s.endWave { gid := x.ref.gid, wi := x.ref.wi } else s

/-! ## FAULTED groups (R466 to R469) -/

/-- Some lanes of the wave are parked in FAULT. -/
def Wave.hasFault (w : Wave) : Bool :=
  (w.entries.any fun oe => match oe with
    | some e => decide (e.st = .fault)
    | none => false) ||
  (w.spill.any fun op => match op with
    | some p => p.faulted
    | none => false)

/-- Some entry of the wave is READY, HELD, FETCH or YIELD. -/
def Wave.hasActive (w : Wave) : Bool :=
  w.entries.any fun oe => match oe with
    | some e => (match e.st with
      | .ready | .fetch | .held _ | .yield _ => true
      | _ => false)
    | none => false

def Group.isFaulted (g : Group) : Bool := (g.waves.any Wave.hasFault) && !(g.waves.any Wave.hasActive)

/-- The lanes parked in FAULT. -/
def Wave.faultLanes (w : Wave) : Mask :=
  let a := w.entries.foldl (fun m oe => match oe with
    | some e => if e.st = .fault then m ||| e.mask else m
    | none => m) 0
  w.spill.foldl (fun m op => match op with
    | some p => if p.faulted then m ||| p.mask else m
    | none => m) a

/-- The lowest-addressed fault record of a group: lowest wave, then lowest lane (R489). -/
def Group.firstFault (g : Group) : Option FaultRec := g.waves.findSome? fun w => (w.faults.head?).map fun p => p.2

/-- A group becomes FAULTED (R466): a killed party of its gang, its pairs part, its copies stop; a stop under way of its gang goes on without it
(R480). -/
def State.becomeFaulted (s : State) (gid core : Nat) : State :=
  let s := s.modGroup gid fun g => { g with
    place := .faulted core, cause := g.firstFault.map fun r => r.cause.code.toNat, stop := none, park := false
    waves := g.waves.map fun w => { w with stopping := false } }
  let s := (s.killParties gid).haltCopies gid true
  match s.group? gid with
  | some g => (List.range g.waves.length).foldl (fun s wi => s.part { gid := gid, wi := wi } 6 6) s
  | none => s

/-- Groups that have become FAULTED with the step. -/
def State.noteFaulted (s : State) : State :=
  s.groups.foldl (fun s p => match p.2.place with
    | .resident core => (match s.group? p.1 with
      | some g => if g.place = .resident core && g.isFaulted && s.scopeLive g.scope then s.becomeFaulted p.1 core else s
      | none => s)
    | _ => s) s

/-- The cause in the records of a failed group's copies: that of its lowest-addressed fault record. A rejected group may hold none; the spec
states no cause for it, and it is a free value (log entry 89). -/
def Group.failCause (g : Group) (free : Nat) : Nat :=
  (g.cause.or (g.firstFault.map fun r => r.cause.code.toNat)).getD (Config.freeNat free 950000 % 256)

/-- A FAULTED or rejected group ends as failed (R468). -/
def State.failGroup (s : State) (gid : Nat) : State :=
  match s.group? gid with
  | none => s
  | some g =>
    let s := (s.copiesOf gid).foldl (fun s n => copyStop s n (g.failCause s.free)) s
    let s := s.modGroup gid fun g => { g with waves := g.waves.map Wave.close }
    let s := if g.task.isSome then s else s.setLaunch g.launch fun l => { l with failed := true }
    s.endGroup gid .fail

/-- A group ends as cancelled. -/
def State.cancelGroup (s : State) (gid : Nat) : State :=
  match s.group? gid with
  | none => s
  | some g =>
    let s := (s.copiesOf gid).foldl (fun s n => copyStop s n Cause.scopeDead.code.toNat) s
    let s := s.modGroup gid fun g => { g with waves := g.waves.map Wave.close }
    let s := if g.task.isSome then s else s.setLaunch g.launch fun l => { l with cancelled := true }
    s.endGroup gid .dec

/-- A wave's share of its engine, where the groups of a list leave together (R326, R490). -/
def saveEngine (s : State) (gids : List Nat) (gid wi : Nat) (w : Wave) : Option SavedEngine :=
  let r : WaveRef := { gid := gid, wi := wi }
  (s.engineOf r).map fun n =>
    let e := s.engine n
    let lo := 1024 * w.tileBase
    let hi := 1024 * (w.tileBase + w.acct)
    { gid := gid, wi := wi
      tiles := (e.tiles.filter fun p => decide (lo ≤ p.1) && decide (p.1 < hi)).map fun p => (p.1 - lo, p.2)
      tpoison := (e.tpoison.filter fun k => decide (lo ≤ k) && decide (k < hi)).map fun k => k - lo
      ops := s.opsWith gids e r
      rows := e.drain.filter fun q => decide (q.tag = r)
      baton := decide (e.holder = some r)
      req := e.fifo.contains r }

def saveEngines (s : State) (gids : List Nat) (gid : Nat) (g : Group) : List SavedEngine :=
  ((List.range g.waves.length).zip g.waves).filterMap fun p => saveEngine s gids gid p.1 p.2

/-- The image header's fields at a stop (R485). -/
def State.newImage (s : State) (kind : StopKind) (g : Group) (gids : List Nat) : Image :=
  let key := s.ctxIkey g.ctx
  let k := s.slot key
  { at_ := 0, size := 0, bytes := [], kind := kind, ctx := g.ctx, cgen := s.ctxGen g.ctx
    ikey := if k.assigned && k.isLoaded && decide (k.owner = g.ctx) then key else 0
    intno := s.market.intno.toNat, clk := s.clk, time := s.time, vcl := none, launch := g.launch, gang := g.gang, gids := gids, engines := []
    groups := [], copies := [], pendArr := [], counters := (List.range 16).map fun k => sget 0 s.market.counters (counterKey g.ctx k) }

/-- Operations of the group's waves that its engines have still to perform. -/
def State.opsOf (s : State) (gid : Nat) : Bool :=
  s.engines.any fun e => e.2.ops.any fun op => decide (op.wave.gid = gid) || (match op.partner with
    | some p => decide (p.gid = gid)
    | none => false)

/-- Accesses of the entries and copies of some groups that other devices have still to answer (R414). -/
def State.awaitsRemote (s : State) (gids : List Nat) : Bool :=
  s.mgmt.outAccess.any fun o => match o.owner with
    | .entry r => gids.contains r.gid
    | .copy n => (match (aget s.copies n).bind fun c => c.owner with
      | some w => gids.contains w.1
      | none => false)
    | _ => false

/-- Lanes and address of each path that holds a lane of a mask, in increasing order of address. -/
def Wave.pathsIn (w : Wave) (m : Mask) : List (Mask × W64) :=
  let es := w.entries.filterMap fun oe => oe.map fun e => (e.mask &&& m, e.pc)
  let ps := w.spill.filterMap fun op => op.map fun p => (p.mask &&& m, p.pc)
  sortBy (fun a b => decide (a.2.toNat < b.2.toNat)) ((es ++ ps).filter fun p => decide (p.1 ≠ 0))

/-- A landed trap awaits delivery in every path that holds one of its lanes, behind the traps of earlier instructions (R277). -/
def Wave.await (w : Wave) (t : PTrap) : Wave :=
  { w with ptraps := (w.pathsIn t.mask).foldl (fun ts p =>
      insertBy (fun a b => decide (a.seq < b.seq)) { t with lanes := p.1 } ts) w.ptraps }

/-- Entries whose yield marker no longer binds are READY (R14). -/
def Wave.endYields (w : Wave) : Wave :=
  (List.range 8).foldl (fun w i => w.modEntry i fun e => match e.st with
    | .yield n => if w.pendBefore n then e else { e with st := .ready }
    | _ => e) w

/-- One register word of a landing result, in the wave or among its group's uniform registers. -/
def landWord (g : Group) (wi free : Nat) (r : RegWrite) : Group :=
  if sBase ≤ r.key then g.putSreg wi free (r.key - sBase) r.val r.poison
  else { g with waves := modAt wi (fun w => w.putReg (r.key / 32) (r.key % 32) r.val r.poison) g.waves }

/-- Words of a pending result land, those with the given keys or all that are left: each word on its own (R192); its flags and its trap with the
last of them (R191, R276). -/
def landPend (s : State) (r : WaveRef) (seq : Nat) (keys : Option (List Nat)) : State :=
  match (s.waveOf r).bind fun w => w.pend.find? fun p => p.seq == seq with
  | none => s
  | some p =>
    let now := fun (q : RegWrite) => match keys with
      | some ks => ks.contains q.key
      | none => true
    let rest := p.writes.filter fun q => !now q
    let s := s.modGroup r.gid fun g => (p.writes.filter now).foldl (fun g q => landWord g r.wi s.free q) g
    s.modWave r.gid r.wi fun w =>
      if rest.isEmpty then
        let w := { (w.orFlags p.flags) with pend := w.pend.filter fun q => q.seq != seq }
        (match p.trap with
          | some t => w.await t
          | none => w).endYields
      else { w with pend := w.pend.map fun q => if q.seq = seq then { q with writes := rest } else q }

/-- Every pending result of a wave lands, in order (R194). -/
def landAll (s : State) (r : WaveRef) : State :=
  match s.waveOf r with
  | some w => w.pend.foldl (fun s p => landPend s r p.seq none) s
  | none => s

/-- Every pending result of a group is written (R194). -/
def State.landGroup (s : State) (gid : Nat) : State :=
  match s.group? gid with
  | some g => (List.range g.waves.length).foldl (fun s wi => landAll s { gid := gid, wi := wi }) s
  | none => s

/-- Writes the fault dump of a group whose accesses and operations have been performed: its image and entry, the interrupt, its core's resources,
then its policy (R466 to R468). -/
def writeDump (s : State) (gid core : Nat) (g : Group) : State :=
  let i := { s.newImage .fault g [gid] with
    vcl := some (clusterOf core), engines := saveEngines s [gid] gid g, groups := [(gid, g)]
    copies := s.copies.filter fun c => (c.2.owner.map fun o => o.1) = some gid
    pendArr := s.mgmt.pendArr.filter fun p => p.1 / 16 == gid }
  let hold := decide (g.ctx ∈ s.mgmt.policyHold) && s.scopeLive g.scope
  let r := g.firstFault
  let entry : FaultEntry :=
    { dumpid := 0, kind := 1, state := if hold then 0 else 1, cause := g.cause.getD 0, aux := g.rank, ctx := g.ctx, queue := g.queue
      origin := g.launch, tag := g.tag, lanes := g.waves.foldl (fun n w => n + (Mask.lanes w.faultLanes).length) 0
      pc := (r.map fun f => f.pc).getD 0, value := (r.map fun f => f.value).getD 0, image := s.poolNext, time := 0, gid := gid }
  let s := ((s.addImage i).addFault entry).queueInterrupt g.queue
  let s := (List.range g.waves.length).foldl (fun s wi => (s.dropBaton { gid := gid, wi := wi }).dropRows { gid := gid, wi := wi })
    (s.leaveFifos [gid])
  let s := s.modGroup gid fun g => { g with place := .dumped, unseen := [] }
  if hold then s else if s.scopeLive g.scope then s.failGroup gid else s.cancelGroup gid

/-- The fault dump of a group, once the engines have performed its operations (R330) and other devices its accesses; its pending results are
written first (R194). -/
def faultDump (s : State) (gid : Nat) : State :=
  match s.group? gid with
  | none => s
  | some g =>
    match g.place with
    | .faulted core =>
      if s.opsOf gid then s
      else if s.awaitsRemote [gid] then s.withdrawWaits fun r => r.gid == gid
      else
        let s := s.landGroup gid
        match s.group? gid with
        | some g => writeDump s gid core g
        | none => s
    | _ => s

def execFaultDump (group : Nat) (s : State) : Host.Outcome State Fault Refusal := .next (faultDump s group)

/-! ## Cancelled work (R501, R502) -/

/-- A change that a RATLINE hold does not keep back: a cancel releases party waits during a hold (R536). -/
def State.unheld (s : State) (f : State → State) : State :=
  let t := f { s with mgmt := { s.mgmt with ratHold := none } }
  { t with mgmt := { t.mgmt with ratHold := s.mgmt.ratHold } }

/-- The party waits of the waves of a group are released before any of its entries stops (R502), and its waves leave their engines. -/
def State.releaseParties (s : State) (gid : Nat) : State :=
  match s.group? gid with
  | none => s
  | some g =>
    let waves := (List.range g.waves.length).filter fun wi => match g.waves[wi]? with
      | some w => !w.ended
      | none => false
    s.unheld fun s => waves.foldl (fun s wi => let r : WaveRef := { gid := gid, wi := wi }
      ((s.leaveEngine r 5).cancelOps r)) (s.killParties gid)

/-- Drops the BARRIER packet that a queue's scope leaves behind (R125). -/
def dropBarrier (s : State) (q : Nat) : State :=
  match (s.queue q).bar with
  | some b => (s.modQueue q fun v => { v with bar := none }).completePacket b.ctx b.pkt .dec
  | none => s

/-- The fates of R501 that fall at the cancel itself; running waves stop with CANCELLED_WAVE_STOP. -/
def State.cancelFates (s : State) (h : W32) : State :=
  let gs := s.groupsIn h
  let s := gs.foldl (fun s p => match p.2.place with
    | .resident _ => s.releaseParties p.1
    | _ => s) s
  let s := (s.launchesIn h).foldl (fun s l =>
    let open_ := l.2.gangs.any fun k => decide (k.st ≠ .over)
    s.setLaunch l.1 fun l => { l with
      cancelled := l.cancelled || open_
      gangs := l.gangs.map fun k => if k.st = .unplaced then { k with st := .over } else k }) s
  let s := gs.foldl (fun s p => match p.2.place with
    | .saved | .dumped => s.cancelGroup p.1
    | _ => s) s
  let s := (s.tasksIn h).foldl (fun s t => if t.2.st = .running then s else s.endTask t.1 .dec) s
  let s := (s.copiesIn h).foldl (fun s c => copyStop s c.1 Cause.scopeDead.code.toNat) s
  let s := (s.barriersIn h).foldl dropBarrier s
  let gone := fun i : Image => i.gids.any fun gid => gs.any fun p => decide (p.1 = gid) && decide (p.2.place = .saved)
  { s with mgmt := { s.mgmt with images := s.mgmt.images.filter fun i => !gone i } }

/-- A wave of a DEAD scope stops (R501). An entry that waits for another device keeps its instruction until it has been performed. -/
def cancelledStop (s : State) (r : WaveRef) : State :=
  match s.group? r.gid, s.waveOf r with
  | some g, some w =>
    (match g.place with
      | .resident _ =>
        if w.ended || !s.scopeGone g.scope then s
        else
          let s := s.withdrawWaits fun q => decide (q.gid = r.gid) && decide (q.wi = r.wi)
          let busy := fun e : Entry => decide (e.st = .held .remote)
          let keep := w.entries.map fun oe => oe.filter busy
          if keep.any fun oe => oe.isSome then
            s.setWave r.gid r.wi { w with entries := keep, spill := List.replicate 8 none, ptraps := [] }
          else
            let s := s.unheld fun s => ((s.modWave r.gid r.wi Wave.close).leaveEngine r 5).cancelOps r
            match s.group? r.gid with
            | some g => if g.allEnded then s.cancelGroup r.gid else s
            | none => s
      | _ => s)
  | _, _ => s

def execCancelledWaveStop (wave : WaveRef) (s : State) : Host.Outcome State Fault Refusal := .next (cancelledStop s wave)

/-! ## Completion of launches (R495 to R498) -/

/-- Every condition of R495 holds. -/
def launchDone (s : State) (n : Nat) (l : Launch) : Bool :=
  !l.complete && (l.gangs.all fun k => decide (k.st = .over)) && !(s.copies.any fun c => decide (c.2.launch = some n)) &&
  !(s.mgmt.outAccess.any fun a => decide (a.launch = some n))

/-- The completion of a launch (R496, R497): CANCNT, its signal, its interrupt; its groups leave the machine unless tasks hold it. -/
def launchComplete (s : State) (n : Nat) : State :=
  match aget s.launches n with
  | none => s
  | some l =>
    if !launchDone s n l then s
    else
      let p : PacketRef :=
        { queue := l.queue, index := l.packet, done := l.rcd.done, intr := l.intr, auto := l.autoScope, number := l.number, scope := l.scope }
      (State.runSteps l.ctx p ((if l.cancelled then [s.cancntStep l.queue] else []) ++ p.doneStep (if l.failed then .fail else .dec)) s).setLaunch n
        fun l => { l with complete := true }

def execLaunchComplete (launch : Nat) (s : State) : Host.Outcome State Fault Refusal := .next (launchComplete s launch)

end Sys2Proof.Machine
end

