-- ==== Sys2Proof/Machine/Cancel.lean ====
section
/-! DEFINITION. Cancel: `cancel`, `scack` and `scinfo` (R499 to R508), and the quiet point of a subtree with its acknowledgements
(R504, R505). -/

namespace Sys2Proof.Machine

/-! ## The cancel (R500) -/

def ackLimit : Nat := 4096

/-- The acknowledgement a cancel asks for: address, value, and the context whose space the address is in. -/
structure AckReq where
  addr : W64
  value : W64
  ctx : Nat
  manager : Bool
deriving DecidableEq, Repr

def State.addAck (s : State) (h : W32) (a : Option AckReq) : State :=
  match a with
  | none => s
  | some a => { s with acks := s.acks ++ [{ scope := h, addr := a.addr, value := a.value, ctx := a.ctx, manager := a.manager }] }

/-- An acknowledgement address that cannot be used (R500). -/
def badAck (s : State) (p : Party) (a : AckReq) : Bool :=
  decide (a.addr.toNat / 2 ^ 56 ≠ 0) || decide (a.addr.toNat % 8 ≠ 0) || (match s.access p .w a.addr 8 8 with
    | .ok ts => ts.any fun t => s.lostAt t.1
    | .error _ => true)

/-- The outcome of a cancel: the state and its status. who is none at manager level, else the context and the current scope. -/
def cancelOf (s : State) (who : Option (Nat × W32)) (p : Party) (h : W32) (a : Option AckReq) : State × Nat :=
  match s.scopeAt h with
  | none => (s, 1)
  | some v =>
    if (match who with
        | some (ctx, cur) => decide (v.ctx ≠ ctx) || decide (v.depth = 1) || !s.inSubtree h cur
        | none => false) then (s, 2)
    else if (match a with
        | some a => badAck s p a
        | none => false) then (s, 4)
    else if a.isSome && decide (ackLimit ≤ s.acks.length) then (s, 5)
    else if v.st = .dead then (s.addAck h a, 3)
    else (((s.killSubtree h).addAck h a).cancelFates h, 0)

/-- Whoever issues a cancel. -/
def Issue.canceller (x : Issue) : Option (Nat × W32) := if x.g.isManager then none else some (x.g.ctx, x.g.scope)

/-- `cancel` and `cancel.ack`: the status is written first, since the cancel may stop the issuing wave itself. -/
def cancelInstr (s : State) (h : Hdr) (f : SF) (a : Issue → Option AckReq) (srcs : Issue → List Src) : Host.Outcome State Fault Refusal :=
  withIssuer s fun x =>
    let t := readS s x false f.a
    oncePerWave s x h (t :: srcs x) (
      let p := x.party 0
      let status := (cancelOf s x.canceller p (lo32 t.val) (a x)).2
      (cancelOf (finishGroup s x h fun g => g.putSregs x.ref.wi s.free f.d.toNat [BitVec.ofNat 32 status]) x.canceller p (lo32 t.val) (a x)).1)

def execCancel (h : Hdr) (f : SF) (s : State) : Host.Outcome State Fault Refusal :=
  cancelInstr s h f (fun _ => none) fun _ => []

def execCancelAck (h : Hdr) (f : SF) (s : State) : Host.Outcome State Fault Refusal :=
  let r := fun (x : Issue) n => readS s x true (f.a + BitVec.ofNat 8 n)
  cancelInstr s h f (fun x => some { addr := (r x 2).val, value := (r x 4).val, ctx := x.g.ctx, manager := x.g.isManager })
    fun x => [r x 2, r x 4]

/-! ## Quiet and acknowledgement (R504 to R506) -/

/-- The acknowledgements recorded for the scopes of a list, in the order of their cancels. -/
def acksDue (s : State) (hs : List W32) : List Ack := s.acks.filter fun a => hs.contains a.scope

/-- What one acknowledgement asks of another device. -/
def ackAsk (s : State) (a : Ack) : List RemoteAsk := tagAsks 1001 (s.recordAsks (Party.ofCtx a.ctx) a.addr (bytesOfNat 8 a.value.toNat))

/-- Stores the acknowledgements of a list in its order, up to the first that another device has still to store; rs is that device's answer to the
first of them. What is left is answered with the state. One that may not be stored is dropped and logged (R505). -/
def storeAcks : List Ack → List Answered → State → State × List Ack
  | [], _, s => (s, [])
  | a :: as, rs, s =>
    let lost := s.violation 6 0 0xFF 1 a.ctx a.addr (a.scope.zeroExtend 64)
    match s.putRecord (Party.ofCtx a.ctx) a.addr (bytesOfNat 8 a.value.toNat) with
    | some t => storeAcks as [] t
    | none =>
      if rs.isEmpty && !(ackAsk s a).isEmpty then (s, a :: as)
      else storeAcks as [] (if sentOk rs 1001 then s else lost)

/-- Of the acknowledgements for the scopes of a list those are left that have still to be stored. -/
def State.keepAcks (s : State) (hs : List W32) (left : List Ack) : State :=
  { s with acks := s.acks.filter fun a => !hs.contains a.scope || left.contains a }

/-- `scack` entries whose scope's slot is FREE go on with status 0 (R506). -/
def releaseScack (s : State) : State :=
  s.entryRefs.foldl (fun s r => match s.issueOf r with
    | some x =>
      if x.e.st = .held .scopeFree && (s.scopeAt (lo32 ((aget x.e.vals 0).getD 0))).isNone then
        match x.e.insn with
        | some (.scack h f) => finishGroup s x h fun g => g.putSregs x.ref.wi s.free f.d.toNat [0]
        | _ => s
      else s
    | none => s) s

/-- The root scope of a context. -/
def State.rootOf (s : State) (ctx : Nat) : Option W32 :=
  (s.scopesInUse.find? fun p => decide (p.2.ctx = ctx) && decide (p.2.depth = 1)).map fun p => p.1

/-- A root whose slot a RESET holds (R511). -/
def State.rootHeld (s : State) (h : W32) : Bool :=
  match s.mgmt.ctxBusy with
  | some c => decide (s.rootOf c = some h)
  | none => false

/-- What the quiet point of a subtree brings: its acknowledgements are stored, and with the last of them its DEAD scopes become FREE (R505). -/
def quietPoint (s : State) (hs : List W32) (rs : List Answered) : State :=
  let r := storeAcks (acksDue s hs) rs s
  let t := r.1.keepAcks hs r.2
  if r.2.isEmpty then releaseScack ((hs.filter fun x => t.scopeDead x && !t.rootHeld x).foldl (fun s x => s.freeScopeSlot (scopeNum x)) t) else t

/-- What the next acknowledgement of the scopes of a list asks of another device. -/
def nextAckAsk (s : State) (hs : List W32) : List RemoteAsk := ((acksDue s hs).head?.map fun a => ackAsk s a).getD []

/-- Another subtree's acknowledgement is on its way. -/
def otherAckSent (s : State) (h : W32) : Bool := s.mgmt.asked.any fun p => match p.1 with
  | .subtreeQuiet k => decide (k ≠ h)
  | _ => false

/-- The subtree of a cancelled scope is quiet. -/
def subtreeQuiet (s : State) (h : W32) : State :=
  let due := match s.scopeAt h with
    | some v => decide (v.st = .dead) && (v.cut || s.acks.any fun a => decide (a.scope = h))
    | none => false
  let hs := s.subtree h
  if !(due && s.quiet h) then s
  else if !(nextAckAsk s hs).isEmpty then
    if otherAckSent s h then s else s.withSectors (.subtreeQuiet h) (Work.ofCtx 0) (fun u => nextAckAsk u hs) fun u rs => quietPoint u hs rs
  else quietPoint s hs []

def execSubtreeQuiet (handle : W32) (s : State) : Host.Outcome State Fault Refusal := .next (subtreeQuiet s handle)

/-- `scack` (R506). -/
def execScack (h : Hdr) (f : SF) (s : State) : Host.Outcome State Fault Refusal :=
  withIssuer s fun x =>
    let a := readS s x false f.a
    oncePerWave s x h [a] (
      let done := fun (n : Nat) => finishGroup s x h fun g => g.putSregs x.ref.wi s.free f.d.toNat [BitVec.ofNat 32 n]
      match s.scopeAt (lo32 a.val) with
      | none => done 1
      | some v =>
        if !x.g.isManager && decide (v.ctx ≠ x.g.ctx) then done 2
        else if v.st = .live then done 3
        else s.setWave x.ref.gid x.ref.wi (x.w.setEntry x.ref.slot (some
          { (x.e.arm h x.w.nextSeq) with
            st := .held .scopeFree, insn := some (.scack h f), exec := x.exec h, vals := [(0, a.val)], pass := 0 })))

/-! ## `scinfo` (R507) -/

/-- The words of `scinfo`. -/
def scinfoWords (s : State) (h : W32) (v : ScopeSlot) : List W32 :=
  let b := fun (c : Bool) (k : Nat) => if c then 2 ^ k else 0
  let children := (s.scopesInUse.filter fun p => decide (p.2.parent = h)).length
  [BitVec.ofNat 32 ((if v.st = .live then 1 else 2) + 4 * v.depth + b v.pkt 7 +
      b (decide (v.st = .dead) && s.acks.any fun a => decide (a.scope = h)) 8 + 65536 * min children 65535),
   v.parent]

/-- The words of `scinfo.busy`: groups and tasks that block quiet, and copies. -/
def scinfoBusy (s : State) (h : W32) : List W32 :=
  let unplaced := (s.launchesIn h).foldl (fun n l => n + unplacedGroups l.2) 0
  let groups := ((s.groupsIn h).filter fun g => g.2.task.isNone).length
  [BitVec.ofNat 32 (min (unplaced + groups + (s.tasksIn h).length) (2 ^ 32 - 1)), BitVec.ofNat 32 (min (s.copiesIn h).length (2 ^ 32 - 1))]

def execScinfo (h : Hdr) (f : SF) (s : State) : Host.Outcome State Fault Refusal :=
  withIssuer s fun x =>
    let a := readS s x false f.a
    oncePerWave s x h [a] (finishGroup s x h fun g => g.putSregs x.ref.wi s.free f.d.toNat
      (match s.scopeAt (lo32 a.val) with
      | none => [0, 0]
      | some v =>
        if !x.g.isManager && decide (v.ctx ≠ x.g.ctx) then [0, 0]
        else if f.imm.getLsbD 0 then scinfoBusy s (lo32 a.val) else scinfoWords s (lo32 a.val) v))

end Sys2Proof.Machine
end

