-- ==== Sys2Proof/Machine/Control.lean ====
section
/-! DEFINITION. Control: the control instructions of chapter 05 but `exit` (R199 to R212), and `brk`, `trap` and `rtu` (R459 to R461). -/

namespace Sys2Proof.Machine

/-! ## Branches (R181, R213) -/

/-- Helper lanes whose target faults: they exit (R213). -/
def badHelpers (w : Wave) (exec : Mask) (tgt : Nat → Target) : Mask :=
  Mask.ofList ((Mask.lanes (exec &&& ~~~w.real)).filter fun l => match tgt l with
    | .bad _ _ => true
    | .go _ _ => false)

/-- The divergence procedure (R181): the paths, FRONTIER_OVERFLOW, the rejoin mask, the side effects of the instruction, then
the first path in the issuing entry and the others placed in order. -/
def branch (s : State) (x : Issue) (h : Hdr) (j : Nat) (tgt : Nat → Target) (side : Wave → Wave) : State :=
  let out := badHelpers x.w (x.exec h) tgt
  let exec := x.exec h &&& ~~~out
  let e := { x.e with mask := x.e.mask &&& ~~~out }
  let ps := branchPaths e exec tgt
  if x.w.room + 1 < ps.length then parkWhole s x h .frontierOverflow (BitVec.ofNat 64 ps.length)
  else
    let w := if j = 15 then x.w else { x.w with jm := setAt j x.e.mask x.w.jm }
    let w := (side w).recordLanes x.e.pc (branchFaults exec tgt)
    let w := { w with live := w.live &&& ~~~out }
    match ps with
    | [] => s.setWave x.ref.gid x.ref.wi (w.setEntry x.ref.slot none).settle
    | p :: rest =>
      let e' := { (e.arm h x.w.nextSeq) with mask := p.mask, pc := p.pc, pri := p.pri }
      let e' := if p.faulted then { e' with st := .fault, pass := 0 } else w.goOn e'
      let w := rest.foldl (fun w p => w.placePath p) (w.setEntry x.ref.slot (some e'))
      s.setWave x.ref.gid x.ref.wi (if out = 0 then w else w.settle)

/-- pc + 8 + 8 × OFF (R18). -/
def targetJ (pc : W64) (f : JF) : W64 := pc + 8 + 8 * f.off.signExtend 64

def execBra (h : Hdr) (f : JF) (s : State) : Host.Outcome State Fault Refusal :=
  withIssuer s fun x => branch s x h f.j.toNat (fun _ => .go (targetJ x.e.pc f) f.pri) id

/-- `brs` (R202): the whole entry moves, or goes on. -/
def execBrs (h : Hdr) (f : JF) (s : State) : Host.Outcome State Fault Refusal :=
  withIssuer s fun x =>
    let a := readSrc s x .n32 f.a 0
    match (if x.e.mask &&& x.w.real = 0 then none else a.bad) with
    | some v => parkWhole s x h .poisonConsumed v
    | none =>
      let e := x.e.arm h x.w.nextSeq
      let e := if a.val ≠ 0 then { e with pc := targetJ x.e.pc f, pri := f.pri } else { e with pc := x.e.pc + 8 }
      s.setWave x.ref.gid x.ref.wi (x.w.setEntry x.ref.slot (some (x.w.goOn e)))

/-- The target of `brx` and `callx` (R203); the value of a target's fault record is the target. -/
def pairTarget (t : W64) (pri : Byte) : Target :=
  if t.extractLsb' 56 8 ≠ 0 then .bad .addrNoncanon t
  else if t.extractLsb' 0 3 ≠ 0 then .bad .align t
  else .go t pri

/-- The target of `ret` (R206). -/
def linkTarget (k : W64) : Target :=
  if k.extractLsb' 0 3 ≠ 0 then .bad .align k else .go (k &&& 0x00FFFFFFFFFFFFFF) (k.extractLsb' 56 8)

/-- A target read from a pair, a poisoned pair being consumed (R472). -/
def srcTarget (w : Wave) (l : Nat) (r : Src) (tgt : W64 → Target) : Target :=
  match r.bad with
  | some v => if w.real.getLsbD l then .bad .poisonConsumed v else tgt r.val
  | none => tgt r.val

/-- The link of a call (R200). -/
def linkOf (x : Issue) : W64 := (x.e.pri.zeroExtend 64 <<< 56) ||| ((x.e.pc + 8) &&& 0x00FFFFFFFFFFFFFF)

def execBrx (h : Hdr) (f : JF) (s : State) : Host.Outcome State Fault Refusal :=
  withIssuer s fun x =>
    branch s x h f.j.toNat (fun l => srcTarget x.w l (readSrc s x .n64 f.a l) fun t => pairTarget t f.pri) id

/-- `call` (R204): a `bra` that writes the link in the lanes of EXEC. -/
def execCall (h : Hdr) (f : JF) (s : State) : Host.Outcome State Fault Refusal :=
  withIssuer s fun x =>
    branch s x h f.j.toNat (fun _ => .go (targetJ x.e.pc f) f.pri)
      fun w => (Mask.lanes (x.exec h)).foldl (fun w l => w.putDst f.a true l (linkOf x)) w

/-- `callx` (R205): the link is written to the same pair, in the lanes whose target did not fault. -/
def execCallx (h : Hdr) (f : JF) (s : State) : Host.Outcome State Fault Refusal :=
  withIssuer s fun x =>
    let tgt := fun l => srcTarget x.w l (readSrc s x .n64 f.a l) fun t => pairTarget t f.pri
    branch s x h f.j.toNat tgt fun w =>
      (Mask.lanes (x.exec h)).foldl (fun w l => match tgt l with
        | .go _ _ => w.putDst f.a true l (linkOf x)
        | .bad _ _ => w) w

def execRet (h : Hdr) (f : JF) (s : State) : Host.Outcome State Fault Refusal :=
  withIssuer s fun x =>
    branch s x h f.j.toNat (fun l => srcTarget x.w l (readSrc s x .n64 f.a l) linkTarget) id

/-- `join` (R207): parks the whole entry in JOIN at its address; releases follow at once (R187, R188). -/
def execJoinJ (h : Hdr) (f : JF) (s : State) : Host.Outcome State Fault Refusal :=
  withIssuer s fun x =>
    s.setWave x.ref.gid x.ref.wi
      (x.w.setEntry x.ref.slot (some { (x.e.arm h x.w.nextSeq) with st := .join f.j.toNat, pass := 0 })).settle

/-- `jset` (R208): acts even when EXEC is empty. -/
def execJset (h : Hdr) (f : RF) (s : State) : Host.Outcome State Fault Refusal :=
  withIssuer s fun x =>
    let k := f.d.toNat
    let old := x.w.jm[k]?.getD 0
    let a := readSrc s x .n32 f.a 0
    match (if f.fn = 1 && x.acts h then a.bad else none) with
    | some v => parkWhole s x h .poisonConsumed v
    | none =>
      let new : Mask := match f.fn.toNat with
        | 0 => x.exec h
        | 1 => lo32 a.val
        | 2 => old ||| x.exec h
        | _ => old &&& ~~~(x.exec h)
      let w := { x.w with jm := setAt k new x.w.jm }
      s.setWave x.ref.gid x.ref.wi (w.setEntry x.ref.slot (some (x.next h w))).settle

def execNop (h : Hdr) (_f : RF) (s : State) : Host.Outcome State Fault Refusal := withIssuer s fun x => finish s x h x.w

/-- The partition of a wave: 8 wave slots each (R177). -/
def Wave.partition (w : Wave) : Nat := w.slot / 8

def Wave.hasReady (w : Wave) : Bool := w.entries.any fun oe => match oe with
  | some e => decide (e.st = .ready)
  | none => false

/-- The waves resident on a core, with their numbers. -/
def State.wavesOn (s : State) (core : Nat) : List (WaveRef × Wave) :=
  s.groups.flatMap fun g => if g.2.place = .resident core then
    ((List.range g.2.waves.length).zip g.2.waves).map fun p => ({ gid := g.1, wi := p.1 }, p.2) else []

/-- The other waves of the partition that hold a READY entry (R211). -/
def partitionReady (s : State) (x : Issue) : List WaveRef :=
  match x.g.place with
  | .resident core =>
    ((s.wavesOn core).filter fun p =>
      decide (p.1 ≠ { gid := x.ref.gid, wi := x.ref.wi }) && decide (p.2.partition = x.w.partition) && p.2.hasReady).map fun p => p.1
  | _ => []

/-- `yield` (R211): the entry stands back for the READY entries of its wave, the wave for the READY waves of its partition. -/
def execYieldE (h : Hdr) (_f : RF) (s : State) : Host.Outcome State Fault Refusal :=
  withIssuer s fun x =>
    let others := (List.range 8).filter fun i => i != x.ref.slot && match x.w.entry? i with
      | some e => decide (e.st = .ready)
      | none => false
    let w := { x.w with wdefer := partitionReady s x }
    s.setWave x.ref.gid x.ref.wi (w.setEntry x.ref.slot (some { (x.next h w) with ylow := others }))

/-- `winb` (R212). -/
def execWinb (h : Hdr) (f : IF) (s : State) : Host.Outcome State Fault Refusal :=
  withIssuer s fun x =>
    let a := readSrc s x .n32 f.a 0
    oncePerWave s x h [a] (
      let n : Int := (if f.d = 1 then (x.w.wb : Int) else 0) + a.val.toNat + f.imm.toInt
      if n < 0 ∨ n % 32 ≠ 0 ∨ (x.w.nregs : Int) < n + 128 then parkWhole s x h .window (BitVec.ofInt 64 (n % 4294967296))
      else finish s x h { x.w with wb := n.toNat })

/-! ## Traps (R460, R461) -/

/-- `brk` and `trap` raise their cause in the real lanes of EXEC, and the trap is taken before the entry issues anything more. -/
def softTrap (s : State) (h : Hdr) (cause : Cause) (n : W16) : Host.Outcome State Fault Refusal :=
  withIssuer s fun x =>
    let m := x.exec h &&& x.w.real
    if m = 0 then finish s x h x.w
    else
      deliverHere (finish s x h (x.w.raise
        { cause := cause, code := n, mask := m, tdst := 0xFFFFFFFF, addr := x.e.pc, lanes := m, seq := x.w.nextSeq })) x

def execBrk (h : Hdr) (f : SF) (s : State) : Host.Outcome State Fault Refusal := softTrap s h .breakpoint f.imm
def execTrapU (h : Hdr) (f : SF) (s : State) : Host.Outcome State Fault Refusal := softTrap s h .userTrap f.imm

/-- Decides the traps of every entry, lowest slot first. -/
def Wave.deliverAll (w : Wave) : Wave := (List.range 8).foldl (fun w i => w.deliver i) w

/-- `rtu` (R461): held traps are decided again once INH is clear (R457). -/
def execRtu (h : Hdr) (_f : SF) (s : State) : Host.Outcome State Fault Refusal :=
  withIssuer s fun x =>
    if x.w.tpc.extractLsb' 0 3 ≠ 0 then parkWhole s x h .align x.w.tpc
    else s.setWave x.ref.gid x.ref.wi ((x.w.returnTrap x.ref.slot (x.e.arm h x.w.nextSeq)).deliverAll).settle

end Sys2Proof.Machine
end

