-- ==== Sys2Proof/Machine/Record.lean ====
section
/-! DEFINITION. Record: launch records and kernel images, their checks at dispatch (R62 to R70, R74, R78, R79, R93), and the
launch that an accepted record makes (R71, R72). -/

namespace Sys2Proof.Machine

/-! ## Kernel images (R62 to R64) -/

/-- The fields of an image header. -/
structure ImageHdr where
  codeoff : Nat
  codesize : Nat
  dataoff : Nat
  datasize : Nat
  vregs : Nat
  acc : Nat
  waves : Nat
  gang : Nat
  twin : Bool
  split : List Nat
  scratch : Nat
  digest : List Byte
  minor : Nat
  formOk : Bool
  reservedOk : Bool
deriving DecidableEq, Repr

def allZero (bs : List Byte) (o n : Nat) : Bool := ((bs.drop o).take n).all fun b => decide (b = 0)

/-- MAGIC, the bytes `PSIUNIMG`. -/
def imageMagic : List Byte := [0x50, 0x53, 0x49, 0x55, 0x4E, 0x49, 0x4D, 0x47]

def imageHdr (bs : List Byte) : ImageHdr :=
  { codeoff := fieldAt bs 0x10 8, codesize := fieldAt bs 0x18 8, dataoff := fieldAt bs 0x20 8, datasize := fieldAt bs 0x28 8
    vregs := fieldAt bs 0x30 1, acc := fieldAt bs 0x31 1, waves := fieldAt bs 0x32 1, gang := fieldAt bs 0x33 1
    twin := (fieldAt bs 0x34 2).testBit 0, split := (List.range 3).map fun i => fieldAt bs (0x36 + i) 1
    scratch := fieldAt bs 0x40 4, digest := (bs.drop 0xC0).take 64, minor := fieldAt bs 0x0A 2
    formOk := decide (bs.take 8 = imageMagic) && decide (fieldAt bs 0x08 2 = 1) && decide (fieldAt bs 0x0C 4 = 256)
    reservedOk := decide (fieldAt bs 0x34 2 / 2 = 0) && allZero bs 0x39 7 && allZero bs 0x48 8 && allZero bs 0x70 80 }

/-! ## Launch records (R66) -/

/-- The fields of a record that the launch record does not keep. -/
structure RawRecord where
  rcd : LaunchRec
  version : Nat
  preloadAt : W64
  precount : Nat
  reservedOk : Bool
deriving DecidableEq, Repr

def w64At (bs : List Byte) (o : Nat) : W64 := BitVec.ofNat 64 (fieldAt bs o 8)
def w32At (bs : List Byte) (o : Nat) : W32 := BitVec.ofNat 32 (fieldAt bs o 4)

def rawRecord (bs : List Byte) : RawRecord :=
  let f := fieldAt bs
  { rcd :=
      { image := w64At bs 0x00, args := w64At bs 0x08, gridx := f 0x10 4, gridy := f 0x14 2, gridz := f 0x16 2, waves := f 0x18 1
        gang := f 0x19 1, twin := (f 0x1A 2).testBit 0, vregs := f 0x1C 1, acct := f 0x1D 1, regbk := f 0x1E 1, spadbk := f 0x1F 1
        l1bk := f 0x20 1, pclass := f 0x22 1, scope := w32At bs 0x24, done := w64At bs 0x28, tvec := w64At bs 0x30
        fpctl := w32At bs 0x38, lanes := f 0x3C 4, preload := [], codeoff := 0, dataoff := 0, datasize := 0, scratch := 0, digest := [] }
    version := f 0x21 1, preloadAt := w64At bs 0x40, precount := f 0x48 2
    reservedOk := decide (f 0x1A 2 / 2 = 0) && decide (f 0x23 1 = 0) && allZero bs 0x4A 54 }

/-- Groups of a record. -/
def LaunchRec.groups (r : LaunchRec) : Nat := r.gridx * r.gridy * r.gridz

/-- The limits of the record table (R66, R67, R74, R275). -/
def RawRecord.limitsOk (r : RawRecord) : Bool :=
  let c := r.rcd
  decide (r.version = 1) && r.reservedOk &&
  decide (c.image.toNat % 256 = 0) && decide (c.args.toNat % 8 = 0) &&
  decide (1 ≤ c.waves) && decide (c.waves ≤ 32) && decide (1 ≤ c.gang) && decide (c.gang ≤ 16) &&
  decide (4 ≤ c.vregs) && decide (c.vregs ≤ 32) && decide (c.acct ≤ 16) &&
  decide (1 ≤ c.regbk) && decide (c.regbk ≤ 46) && decide (1 ≤ c.spadbk) && decide (c.spadbk ≤ 46) &&
  decide (1 ≤ c.l1bk) && decide (c.l1bk ≤ 46) && decide (c.pclass ≤ 3) &&
  decide (c.done.toNat % 8 = 0) && decide (c.tvec.toNat % 8 = 0) && decide (c.fpctl.toNat < 32) &&
  (decide (c.lanes = 0) || (decide ((c.waves - 1) * 32 < c.lanes) && decide (c.lanes ≤ c.waves * 32))) &&
  decide (r.preloadAt.toNat % 4 = 0) && decide (r.precount ≤ 252) && (decide (r.precount = 0) || decide (r.preloadAt ≠ 0)) &&
  decide (c.regbk + c.spadbk + c.l1bk = 48) && decide (c.groups % c.gang = 0) && (!c.twin || decide (c.gang % 2 = 0))

/-! ## Fitting (R78, R79, R81, R84) -/

/-- Waves that one quadrant can hold: 32 wave slots, and tiles for each (R81). -/
def wavesPerQuadrant (acct : Nat) : Nat := if acct = 0 then 32 else 16 / acct

/-- Groups, or twin pairs, that one empty core can hold under a record's split. -/
def unitsPerCore (r : LaunchRec) (scratch : Nat) : Nat :=
  let k := if r.twin then 2 else 1
  let byRegs := r.regbk * 32768 / (k * r.waves * r.vregs * 4096)
  let bySpad := r.spadbk * 32768 / (k * (scratch + 512 * r.waves))
  let byWaves := 4 * (wavesPerQuadrant r.acct / k) / r.waves
  min byRegs (min bySpad byWaves)

/-- One group fits on one core (R78). -/
def groupFits (r : LaunchRec) (scratch : Nat) : Bool := decide (1 ≤ unitsPerCore { r with twin := false } scratch)

/-- A gang fits on one empty cluster (R79). -/
def gangFits (r : LaunchRec) (scratch : Nat) : Bool :=
  let k := if r.twin then 2 else 1
  decide (r.gang / k ≤ 4 * unitsPerCore r scratch)

/-! ## The checks (R63, R64, R67) -/

/-- The header's checks against the record. -/
def headerOk (h : ImageHdr) (r : LaunchRec) : Bool :=
  h.formOk && decide (h.codeoff % 256 = 0) && decide (0x100 ≤ h.codeoff) && decide (h.codesize ≠ 0) && decide (h.codesize % 8 = 0) &&
  (decide (h.minor ≠ 0) || h.reservedOk) && decide (h.vregs ≤ r.vregs) && decide (h.acc ≤ r.acct) && decide (h.waves = r.waves) &&
  decide (h.gang = r.gang) && decide (h.twin = r.twin) &&
  (decide (h.split = [0, 0, 0]) || decide (h.split = [r.regbk, r.spadbk, r.l1bk]))

/-- A record read on path C, none where it does not translate or is poisoned. -/
def State.recordOf (s : State) (ctx : Nat) (a : W64) (n : Nat) : Option (List Byte) :=
  match s.record (Party.ofCtx ctx) a n with
  | .ok bs => some bs
  | .error _ => none

/-- The image-verification policy (R64, R345): the digest of the code, where the policy is on. -/
def digestOk (s : State) (ctx : Nat) (image : W64) (h : ImageHdr) : Bool :=
  if (s.ctxFlags ctx).testBit 1 then
    decide (image.toNat + h.codeoff + h.codesize ≤ 2 ^ 56) &&
    (match s.recordOf ctx (image + BitVec.ofNat 64 h.codeoff) h.codesize with
      | some code => decide (sha512 code = h.digest)
      | none => false)
  else true

/-- The preload words. -/
def preloadWords (s : State) (ctx : Nat) (a : W64) (n : Nat) : Option (List W32) :=
  (List.range n).mapM fun i => (s.recordOf ctx (a + BitVec.ofNat 64 (4 * i)) 4).map fun bs => w32At bs 0

/-- A record's scope is admitted (R93): the packet's effective scope or a descendant. -/
def scopeAdmitted (s : State) (ctx : Nat) (h eff : W32) : Bool :=
  decide (h = 0) || (match s.scopeAt h with
    | some v => decide (v.ctx = ctx) && s.inSubtree h eff
    | none => false)

/-- The launch record at an address, after all checks; none where it is rejected (R67). -/
def readRecord (s : State) (ctx : Nat) (a : W64) (eff : W32) : Option LaunchRec := do
  let bs ← s.recordOf ctx a 128
  let r := rawRecord bs
  if !r.limitsOk then none
  else
    let h := imageHdr (← s.recordOf ctx r.rcd.image 256)
    let pre ← preloadWords s ctx r.preloadAt r.precount
    if headerOk h r.rcd && digestOk s ctx r.rcd.image h && groupFits r.rcd h.scratch && gangFits r.rcd h.scratch &&
        scopeAdmitted s ctx r.rcd.scope eff then
      some { r.rcd with
        preload := pre, codeoff := h.codeoff, dataoff := h.dataoff, datasize := h.datasize, scratch := h.scratch, digest := h.digest }
    else none

/-! ## Launches (R71, R72, R428) -/

/-- A gang not yet placed. -/
def Gang.start : Gang :=
  { st := .unplaced, groups := [], cluster := 0, gphase := List.replicate 8 0, garr := List.replicate 8 [], killed := []
    order := 0 }

/-- The launch that an accepted record makes. -/
def State.addLaunch (s : State) (l : Launch) : State :=
  { s with launches := aput s.nextLaunch l s.launches, nextLaunch := s.nextLaunch + 1 }

end Sys2Proof.Machine
end

