-- ==== Sys2Proof/Machine/Teardown.lean ====
section
/-! DEFINITION. Teardown: key slots, `keyz`, `scrub`, the scrub's phases, and the scrub and teardown page with the key slot page
(R342 to R344, R509 to R516); the device error log (R477). -/

namespace Sys2Proof.Machine

/-! ## The device error log (R477) -/

def errlogLimit : Nat := 1024

/-- One message on the vector of MBEVT, at most once per 100 µs. -/
def State.eventMessage (s : State) : State :=
  if !s.mgmt.mbEn then s
  else match s.mgmt.holdoff with
    | none => { (s.interrupt 0 s.mgmt.mbVec.toNat) with mgmt := { (s.interrupt 0 s.mgmt.mbVec.toNat).mgmt with holdoff := some (s.clk + 270000) } }
    | some _ => { s with mgmt := { s.mgmt with evPending := true } }

/-- Makes an entry of the device error log; a full log drops its oldest. -/
def State.logError (s : State) (kind unit ctx count : Nat) (loc : W64) : State :=
  let e : ErrEntry := { seq := s.mgmt.evcnt.toNat + 1, kind := kind, unit := unit, ctx := ctx, count := count, location := loc, time := s.time }
  let full := decide (errlogLimit ≤ s.mgmt.errlog.length)
  let s := { s with mgmt := { s.mgmt with
    errlog := (if full then s.mgmt.errlog.drop 1 else s.mgmt.errlog) ++ [e]
    errLost := if full then s.mgmt.errLost + 1 else s.mgmt.errLost
    evcnt := s.mgmt.evcnt + 1 } }
  if 4 ≤ kind then s.eventMessage else s

/-- The hold-off on event messages expires: one message for the entries made in between. -/
def eventHoldoff (s : State) : State :=
  match s.mgmt.holdoff with
  | none => s
  | some due =>
    if s.clk < due then s
    else
      let s := { s with mgmt := { s.mgmt with holdoff := none } }
      if s.mgmt.evPending then ({ s with mgmt := { s.mgmt with evPending := false } }).eventMessage else s

def execEventMessageHoldoff (s : State) : Host.Outcome State Fault Refusal := .next (eventHoldoff s)

/-! ## Host accesses to registers (R105, R106, R540) -/

/-- An access through function func to a PRIVATE page of BAR0: only the PF's is trusted; any other is dropped and logged. -/
def State.privatePage (s : State) (func off dir : Nat) (k : State) : State :=
  if func = 0 then k else s.violation 1 func 0 dir 0xFFFF (BitVec.ofNat 64 off) 0

/-- An access of a legal size and alignment. -/
def accessOk (off size : Nat) : Bool := (size == 1 || size == 2 || size == 4 || size == 8) && decide (off % size = 0)

/-- A register after a write of the bytes a host access covers; off is its offset in the register. -/
def mergeReg (old : W64) (off size : Nat) (v : W64) : W64 :=
  let b := bytesOfNat 8 old.toNat
  BitVec.ofNat 64 (natOfBytes (b.take off ++ bytesOfNat size v.toNat ++ b.drop (off + size)))

/-- The fields of a register that may be written, with the rest as it stood. -/
def keepFields (mask old new : W64) : W64 := (new &&& mask) ||| (old &&& ~~~mask)

/-! ## Key slots (R343, R516) -/

def State.blocked (s : State) (c : Nat) : Bool := decide (c ∈ s.mgmt.tdblk)

def State.putSlot (s : State) (n : Nat) (k : KeySlot) : State := { s with keys := sput KeySlot.start n k s.keys }

def kstatWord (k : KeySlot) : W64 := BitVec.ofNat 64 ((if k.assigned then 1 else 0) + 2 * k.owner + (if k.isLoaded then 2048 else 0))

/-- A write to KSTAT: ignored for slot 0, and for a slot whose owner is blocked, which is logged. -/
def kstatWrite (s : State) (slot off size : Nat) (v : W64) : State :=
  if slot = 0 ∨ 511 < slot ∨ !accessOk off size then s
  else
    let k := s.slot slot
    if s.blocked k.owner then s.violation 4 0 0 1 k.owner (BitVec.ofNat 64 (0x300100 + 8 * slot + off)) 0
    else
      let n := (mergeReg (kstatWord k) off size v).toNat
      s.putSlot slot { k with assigned := decide (n % 2 = 1), owner := n / 2 % 1024 }

def execKstatWrite (func slot off size : Nat) (value : W64) (s : State) : Host.Outcome State Fault Refusal :=
  .next (s.privatePage func (0x300100 + 8 * slot + off) 1 (kstatWrite s slot off size value))

/-- A write of key material: the bytes it covers; LOADED once bytes 56 to 63 have been written. -/
def kmatWrite (s : State) (slot off size : Nat) (v : W64) : State :=
  if slot = 0 ∨ 511 < slot ∨ 63 < off ∨ !accessOk off size then s
  else
    let k := s.slot slot
    let bs := bytesOfNat 64 k.key.bits.toNat
    let new := bs.take off ++ bytesOfNat size v.toNat ++ bs.drop (off + size)
    let written := k.loadedBytes ||| BitVec.ofNat 64 ((2 ^ size - 1) * 2 ^ off)
    s.putSlot slot { k with
      key := .loaded (BitVec.ofNat 512 (natOfBytes new)), loadedBytes := written
      isLoaded := k.isLoaded || (decide (56 ≤ off) && decide (written.extractLsb' 56 8 = 0xFF)) }

def execKmatWrite (func slot off size : Nat) (value : W64) (s : State) : Host.Outcome State Fault Refusal :=
  .next (s.privatePage func (0x308000 + 64 * slot + off) 1 (kmatWrite s slot off size value))

/-- Zeroisation of a slot (R513): OWNER stays. -/
def State.zeroise (s : State) (n : Nat) : State := s.putSlot n { KeySlot.start with owner := (s.slot n).owner }

/-- TLBINV (R344): the command, with the page that TLBVA names, waits behind those before it. -/
def State.queueInvalidation (s : State) (v : W64) : State :=
  { s with host := { s.host with tlbBusy := s.host.tlbBusy ++ [(v &&& 0xFFF) ||| s.host.tlbVa] } }

def execTlbinv (func : Nat) (value : W64) (s : State) : Host.Outcome State Fault Refusal :=
  .next (s.privatePage func 0x300010 1 (s.queueInvalidation value))

/-- The contexts that an invalidation selects. -/
def invSelects (v : W64) (ctx : Nat) : Bool := v.getLsbD 10 || decide (v.toNat % 1024 = ctx)

/-- The entries that an invalidation selects: a page by its context and its first address, of 64 KiB or of 64 MiB. -/
def invDrops (v : W64) (e : Nat × Nat) : Bool :=
  let va := v.toNat / 65536 * 65536
  invSelects v e.1 && (v.getLsbD 11 || decide (e.2 = va) || decide (e.2 = va / 2 ^ 26 * 2 ^ 26))

/-- The TLBs drop the entries that the oldest invalidation selects. No translation is held back from the page tables (log entry 16), so only an
access that another device has still to answer can have used one: BUSY waits for those of the selected contexts. -/
def tlbInvalidateDone (s : State) : State :=
  match s.host.tlbBusy with
  | [] => s
  | v :: rest =>
    let s := s.dropTlb (invDrops v)
    if s.mgmt.outAccess.any fun a => invSelects v a.ctx then s else { s with host := { s.host with tlbBusy := rest } }

def execTlbInvalidateDone (s : State) : Host.Outcome State Fault Refusal := .next (tlbInvalidateDone s)

/-! ## `keyz` (R512, R513) -/

/-- The generation of a context rises and its pending arrivals are discarded (R425, R483). -/
def State.bumpGen (s : State) (c : Nat) : State :=
  let mine := fun gid => match s.group? gid with
    | some g => decide (g.ctx = c)
    | none => false
  { s with mgmt := { s.mgmt with
    ctxgen := smod CtxGen.start c nextGen s.mgmt.ctxgen, pendArr := s.mgmt.pendArr.filter fun p => !mine (p.1 / 16) } }

/-- The slots of the range form, and of the context form. -/
def keyzRange (v : Nat) : List Nat :=
  let first := v % 512
  let n := v / 65536 % 1024
  (List.range (min n (512 - first))).filterMap fun i => if first + i = 0 then none else some (first + i)

def keyzSlots (s : State) (c : Nat) : List Nat :=
  (s.keys.map fun p => p.1).dedup.filter fun n => decide (n ≠ 0) && (s.slot n).assigned && decide ((s.slot n).owner = c)

/-- What `keyz.ctx` does beside its slots. -/
def blockContext (s : State) (c : Nat) : State :=
  if c = 0 then s
  else
    let s := s.bumpGen c
    let s := { s with mgmt := { s.mgmt with tdblk := sins c s.mgmt.tdblk } }
    let cfg := { s.market.cfgW with ctxs := smod CtxMkt.start c (fun m => { m with valid := false }) s.market.cfgW.ctxs }
    { s with market := { s.market with
      pending := s.market.pending.filter fun p => !(decide (p.1 / 8 = c) && decide (p.1 % 8 ≤ 4)), cfgW := cfg } }

/-- A manager-only instruction: PRIV at user level, whatever EXEC holds (R41 to R43). -/
def managed (s : State) (i : Instr) (k : Issue → State) : Host.Outcome State Fault Refusal :=
  withIssuer s fun x => if x.g.isManager then k x else parkDecode s x .priv i

/-- `keyz`: the slots it zeroises, and what it does beside them. -/
def keyzGo (s : State) (x : Issue) (h : Hdr) (f : SF) (slots : Nat → List Nat) (post : State → Nat → State) : State :=
  let a := readS s x false f.a
  oncePerWave s x h [a] (
    let v := (lo32 a.val).toNat
    let ns := slots v
    finishGroup (post (ns.foldl State.zeroise s) v) x h fun g => g.putSregs x.ref.wi s.free f.d.toNat [BitVec.ofNat 32 ns.length])

def execKeyz (h : Hdr) (f : SF) (s : State) : Host.Outcome State Fault Refusal :=
  managed s (.keyz h f) fun x => keyzGo s x h f keyzRange fun s _ => s

def execKeyzCtx (h : Hdr) (f : SF) (s : State) : Host.Outcome State Fault Refusal :=
  managed s (.keyzCtx h f) fun x => keyzGo s x h f (fun v => keyzSlots s (v % 1024)) fun s v => blockContext s (v % 1024)

/-! ## `scrub` (R514, R515) -/

/-- The leaves of a table and the tables below it, with the pages' sizes. -/
def leavesFrom (m : Mem) : List Nat → Nat → List Leaf
  | [], _ => []
  | sh :: rest, table =>
    (List.range 1024).flatMap fun i =>
      let e := m.firmwareField (table + 8 * i) 8
      if !e.testBit 0 then []
      else if e.testBit 1 then (if sh ≤ 26 && leafOk e sh then [{ entry := e, shift := sh }] else [])
      else if e / 4 % 2 ^ 35 ≠ 0 then []
      else leavesFrom m rest (e / 2 ^ 37 * 8192)

/-- The leaves under a context's root that it owns. -/
def ownLeaves (s : State) (c : Nat) : List Leaf :=
  if s.ctxRoot c = 0 then []
  else (leavesFrom s.mem [46, 36, 26, 16] (s.ctxRoot c)).filter fun l => decide (l.entry / 2 ^ 17 % 1024 = c)

/-- TOTAL of a phase (R515). -/
def scrubTotal (s : State) (phase c : Nat) : Nat :=
  match phase with
  | 1 => 240
  | 2 => 128
  | 3 => 4
  | 4 => (ownLeaves s c).foldl (fun n l => n + 2 ^ (l.shift - 16)) 0
  | 5 => 1
  | _ => 0

/-- The full/empty states and LOST marks of a page of this device's memory are cleared. -/
def clearPage (s : State) (l : Leaf) : State :=
  if l.entry.testBit 37 || decide (l.entry / 2 ^ 27 % 1024 ≠ s.podIndex) then s
  else
    let lo := l.entry / 2 ^ 40 * 65536
    let hi := lo + 2 ^ l.shift
    { s with mem := { s.mem with
      full := s.mem.full.filter fun w => !(decide (lo ≤ 8 * w) && decide (8 * w < hi))
      lost := s.mem.lost.filter fun q => !(decide (lo ≤ 32 * q) && decide (32 * q < hi)) } }

/-- The work of a phase, done with its last unit; an L1 holds nothing that memory does not. -/
def scrubWork (s : State) (phase c : Nat) : State :=
  match phase with
  | 1 => { s with
      groups := s.groups.filter fun g => !(decide (g.2.ctx = c) && decide (g.2.place = .ended))
      launches := s.launches.filter fun l => !(decide (l.2.ctx = c) && l.2.complete) }
  | 2 => s.loseLines fun l => decide (l.ctx = c)
  | 3 => s.dropTlb fun e => decide (e.1 = c)
  | 4 => (ownLeaves s c).foldl clearPage s
  | 5 =>
    let mine := fun gid => match s.group? gid with
      | some g => decide (g.ctx = c)
      | none => false
    { s with
      market := { s.market with
        counters := s.market.counters.filter fun p => p.1 / 16 != c
        cfgW := { s.market.cfgW with ctxs := sput CtxMkt.start c CtxMkt.start s.market.cfgW.ctxs }
        cfgA := { s.market.cfgA with ctxs := sput CtxMkt.start c CtxMkt.start s.market.cfgA.ctxs } }
      queues := s.queues.filter fun q => decide (q.2.ctx.toNat ≠ c)
      mgmt := { s.mgmt with
        errlog := s.mgmt.errlog.filter fun e => e.ctx != c
        faultList := adel c s.mgmt.faultList
        faultLost := s.mgmt.faultLost.filter fun p => p.1 != c
        pendArr := s.mgmt.pendArr.filter fun p => !mine (p.1 / 16)
        images := s.mgmt.images.filter fun i => i.ctx != c } }
  | _ => s

/-- Enters a phase. -/
def State.enterPhase (s : State) (phase : Nat) : State :=
  { s with mgmt := { s.mgmt with scrubPhase := phase, scrubUnits := 0, scrubTotal := scrubTotal s phase s.mgmt.scrubCtx } }

/-- The scrub has ended (R515). -/
def State.endScrub (s : State) : State :=
  let c := s.mgmt.scrubCtx
  ({ s with mgmt := { s.mgmt with tdblk := sdel c s.mgmt.tdblk, scrubPhase := 6, scrubBusy := false, scrubUnits := 0, scrubTotal := 0 } }).logError
    9 0 c 0 0

/-- The scrub does up to n units of its phase, and moves on when the phase is done. -/
def scrubStep (s : State) (n : Nat) : State :=
  if !s.mgmt.scrubBusy then s
  else
    let done := min (s.mgmt.scrubUnits + n) s.mgmt.scrubTotal
    if done < s.mgmt.scrubTotal then { s with mgmt := { s.mgmt with scrubUnits := done } }
    else
      let p := s.mgmt.scrubPhase
      let s := scrubWork s p s.mgmt.scrubCtx
      if p = 5 then s.endScrub else s.enterPhase (if p = 3 && !s.mgmt.scrubTags then 5 else p + 1)

def execScrubPhase (units : Nat) (s : State) : Host.Outcome State Fault Refusal := .next (scrubStep s units)

/-- Nothing of a context is left (R514). -/
def State.ctxQuiet (s : State) (c : Nat) : Bool :=
  !(s.scopesInUse.any fun p => decide (p.2.ctx = c)) && !(s.groups.any fun g => decide (g.2.ctx = c) && g.2.isWork) &&
  !(s.tasks.any fun t => decide (t.2.ctx = c)) && !(s.copies.any fun k => decide (k.2.ctx = c))

/-- The start of a scrub: the state and the status (R514). -/
def scrubStart (s : State) (c : Nat) (tags : Bool) : State × Nat :=
  if s.mgmt.scrubBusy && decide (s.mgmt.scrubCtx = c) then (s, 4)
  else if s.mgmt.scrubBusy then (s, 1)
  else if c = 0 || !s.blocked c then (s, 2)
  else if !s.ctxQuiet c then (s, 3)
  else
    (({ s with mgmt := { s.mgmt with scrubCtx := c, scrubTags := tags, scrubRestarted := false, scrubBusy := true } }).enterPhase 1, 0)

/-- SCRUBPROG (R510). -/
def scrubProg (m : Mgmt) : W64 :=
  let b := fun (c : Bool) (k : Nat) => if c then 2 ^ k else 0
  BitVec.ofNat 64 (m.scrubPhase + b m.scrubBusy 4 + b m.scrubRestarted 5 + m.scrubCtx * 2 ^ 8 + b m.scrubTags 18 +
    min m.scrubUnits 65535 * 2 ^ 32 + min m.scrubTotal 65535 * 2 ^ 48)

def execScrub (h : Hdr) (f : SF) (s : State) : Host.Outcome State Fault Refusal :=
  managed s (.scrub h f) fun x =>
    let a := readS s x false f.a
    oncePerWave s x h [a] (
      let r := scrubStart s (a.val.toNat % 1024) (f.sel.getLsbD 0)
      finishGroup r.1 x h fun g => g.putSregs x.ref.wi s.free f.d.toNat [BitVec.ofNat 32 r.2])

def execScrubStat (h : Hdr) (f : SF) (s : State) : Host.Outcome State Fault Refusal :=
  managed s (.scrubStat h f) fun x =>
    oncePerWave s x h [] (finishGroup s x h fun g => g.putSregs x.ref.wi s.free f.d.toNat [lo32 (scrubProg s.mgmt), hi32 (scrubProg s.mgmt)])

/-! ## The scrub and teardown page (R510, R511) -/

/-- SCRUBCMD: GO starts a scrub; TDSTAT holds its status. -/
def execScrubcmd (func : Nat) (value : W64) (s : State) : Host.Outcome State Fault Refusal :=
  let n := value.toNat
  let r := scrubStart s (n % 1024) (n.testBit 10)
  .next (s.privatePage func 0x400008 1
    (if n.testBit 11 then
      { r.1 with mgmt := { r.1.mgmt with tdStat := keepFields 0xF0 r.1.mgmt.tdStat (BitVec.ofNat 64 (16 * r.2)) } } else s))

/-- TDCANCEL: a manager's cancel by a write of 8 bytes. -/
def tdcancelWrite (s : State) (value : W64) : State :=
  let a : AckReq := { addr := s.mgmt.tdAckA, value := s.mgmt.tdAckV, ctx := 0, manager := true }
  let r := cancelOf s none (Party.ofCtx 0) (lo32 value) (if value.getLsbD 32 then some a else none)
  { r.1 with mgmt := { r.1.mgmt with tdStat := keepFields 0xF r.1.mgmt.tdStat (BitVec.ofNat 64 r.2) } }

def execTdcancel (func size : Nat) (value : W64) (s : State) : Host.Outcome State Fault Refusal :=
  .next (s.privatePage func 0x400020 1 (if size = 8 then tdcancelWrite s value else s))

/-- CTXLAST when a command ends. -/
def ctxDone (s : State) (root : W32) (refused : Bool) : State :=
  { s with mgmt := { s.mgmt with
    ctxBusy := none, ctxLast := BitVec.ofNat 64 (root.toNat + 2 ^ 32 + (if refused then 2 ^ 33 else 0)) } }

/-- CTXCMD CREATE. A context starts with its counters at zero (R159) and its fault policy at DISCARD (R468). -/
def ctxCreate (s : State) (c : Nat) : State :=
  if s.blocked c then (ctxDone s 0 true).violation 4 0 0 1 c 0x400010 0
  else if s.scopesInUse.any fun p => decide (p.2.ctx = c) then ctxDone s 0 true
  else match s.freeScope with
    | none => ctxDone s 0 true
    | some n =>
      let r := s.openScope n c 1 0 false false
      let s := r.1
      ctxDone { s with
        market := { s.market with counters := s.market.counters.filter fun p => p.1 / 16 != c }
        mgmt := { s.mgmt with policyHold := sdel c s.mgmt.policyHold } } r.2 false

def execCreate (func ctx : Nat) (s : State) : Host.Outcome State Fault Refusal :=
  .next (s.privatePage func 0x400010 1 (if s.mgmt.ctxBusy.isSome then s else ctxCreate s (ctx % 1024)))

/-- CTXCMD RESET, up to the quiet point of its root's subtree. -/
def ctxReset (s : State) (c : Nat) : State :=
  if s.blocked c then ctxDone s 0 true
  else match s.rootOf c with
    | none => ctxDone s 0 true
    | some root =>
      let s := { (s.bumpGen c) with mgmt := { (s.bumpGen c).mgmt with ctxBusy := some c, ctxLast := s.mgmt.ctxLast &&& 0xFFFFFFFF } }
      (cancelOf s none (Party.ofCtx 0) root none).1

def execReset (func ctx : Nat) (s : State) : Host.Outcome State Fault Refusal :=
  .next (s.privatePage func 0x400010 1 (if s.mgmt.ctxBusy.isSome then s else ctxReset s (ctx % 1024)))

/-- The subtree of a context under RESET is quiet: a new root in the old one's slot (R511). -/
def ctxReroot (s : State) (c : Nat) : State :=
  match s.mgmt.ctxBusy, s.rootOf c with
  | some d, some root =>
    if decide (d = c) && s.scopeDead root && s.quiet root && !(s.acks.any fun a => decide (a.scope = root)) &&
        (s.subtree root).length = 1 then
      let r := s.openScope (scopeNum root) c 1 0 false false
      releaseScack (ctxDone r.1 r.2 false)
    else s
  | _, _ => s

def execCtxResetReroot (ctx : Nat) (s : State) : Host.Outcome State Fault Refusal := .next (ctxReroot s ctx)

end Sys2Proof.Machine
end

