-- ==== Sys2Proof/Machine/Market.lean ====
section
/-! DEFINITION. Market: supply and pools (R133 to R138), bids, clearing and the interval timeline (R143 to R155), floor supply
(R162), the market instructions (R156 to R158), Spinnaker's choice (R171). -/

namespace Sys2Proof.Machine

/-! ## The clock -/

/-- Some live entry of the wave is in WAIT and none can run: the wave is descheduled in a scheduler-visible wait (R159). -/
def Wave.descheduled (w : Wave) : Bool :=
  !w.hasActive && w.entries.any fun oe => match oe with
    | some e => (match e.st with
      | .wait _ => true
      | _ => false)
    | none => false

/-- What n clocks cost a resident group: GCYCLES, WAITCYC, the deficit of its queue, the floor deficit of its tenant. -/
def chargeGroup (s : State) (n : Nat) (g : Group) (core : Nat) : State :=
  let s := (s.count g.ctx 0 n).count g.ctx 13 (n * (g.waves.filter fun w => !w.ended && w.descheduled).length)
  let s := s.modQueue g.queue fun q => { q with charged := q.charged + n }
  if (aget s.market.floorOf (clusterOf core)).isSome then
    match s.tenantOf g.ctx with
    | some t => { s with market := { s.market with floorDef := smod 0 t (fun d => d - n) s.market.floorDef } }
    | none => s
  else s

/-- The context that a cluster serves (R161). -/
def State.servedBy (s : State) (cl : Nat) : Option Nat :=
  match s.market.current.find? fun l => decide (l.1 % 8 = 0) && l.2.units.contains cl with
  | some l => some (l.1 / 8)
  | none => aget s.market.floorOf cl

/-- The clusters on which groups of a context stand that the clusters do not serve: FAULTED ones too, until their dumps are written. -/
def State.foreignClusters (s : State) : List Nat :=
  (s.groups.filterMap fun g => (g.2.place.core?).bind fun core =>
    if s.servedBy (clusterOf core) = some g.2.ctx then none else some (clusterOf core)).dedup

/-- The hand-over of a cluster is delayed for the context that it serves (R154). -/
def countHandovers (s : State) (n : Nat) : State :=
  s.foreignClusters.foldl (fun s cl => match s.servedBy cl with
    | some c => s.count c 15 n
    | none => s) s

/-- n core clocks pass. -/
def State.tick (s : State) (n : Nat) : State :=
  let s' := s.groups.foldl (fun s g => match g.2.place with
    | .resident core => chargeGroup s n g.2 core
    | _ => s) (countHandovers s n)
  { s' with clk := s.clk + n }

/-- The least number from lo up to hi with p, by halving n times; hi where p fails up to there. -/
def leastFrom (p : Nat → Bool) : Nat → Nat → Nat → Nat
  | 0, _, hi => hi
  | n + 1, lo, hi =>
    if hi ≤ lo then hi
    else if p ((lo + hi) / 2) then leastFrom p n lo ((lo + hi) / 2) else leastFrom p n ((lo + hi) / 2 + 1) hi

/-- The first clock at which TIME has reached t. -/
def State.clkAt (s : State) (t : Nat) : Nat := leastFrom (fun c => decide (t ≤ s.timeAt c)) 80 0 (3 * (t - s.timeBase).toNat + 30)

/-- Time passes up to a clock, if it lies ahead. -/
def State.advanceTo (s : State) (c : Nat) : State := if s.clk < c then s.tick (c - s.clk) else s

/-! ## Units, pools and dies (R133 to R138) -/

/-- The enabled clusters of a die. -/
def dieCount (d : Nat) : Nat :=
  16 - ([Config.offDie 0, Config.offDie 1, Config.offDie 2, Config.offDie 3].filter fun x => decide (x.val = d)).length

/-- The first virtual cluster of a die (R541). -/
def dieBase (d : Nat) : Nat := (List.range d).foldl (fun n i => n + dieCount i) 0

def dieOfCluster (v : Nat) : Nat := ((List.range 4).find? fun d => decide (v < dieBase d + dieCount d)).getD 3

/-- The supply groups of a class (R134): BK and WY units are 32 × die + way-column, HS units 512 × stack + slot. -/
def supplyGroups (s : State) (cls : Nat) : List (List Nat) :=
  let c := s.market.cfgA
  let ways := fun b => (List.range 4).map fun d =>
    ((List.range 32).filter fun k => (wyMask c d).getLsbD k == b && s.wayUp d k).map fun k => 32 * d + k
  match cls with
  | 0 => [(List.range 60).filter fun v => !s.mgmt.withheld.contains v]
  | 1 => ways false
  | 2 => ways true
  | 3 => (List.range 12).map fun k => (List.range 512).map fun i => 512 * k + i
  | 4 => [(List.range 72).filter fun k => !s.mgmt.lanesDown.contains k]
  | _ => []

def poolOf (c : MktCfg) (cls p : Nat) : Pool := sget Pool.start c.pools (4 * cls + p)

/-- The units of a pool in one supply group (R136). -/
def poolUnits (c : MktCfg) (cls p : Nat) (g : List Nat) : List Nat :=
  let q := fun i => (poolOf c cls i).quota.toNat
  let r1 := g.take (g.length - q 1)
  let r2 := r1.take (r1.length - q 2)
  match p with
  | 1 => g.drop (g.length - q 1)
  | 2 => r1.drop (r1.length - q 2)
  | 3 => r2.drop (r2.length - q 3)
  | _ => r2.take (r2.length - q 3)

def poolSupply (s : State) (cls p : Nat) : List Nat := (supplyGroups s cls).flatMap fun g => poolUnits s.market.cfgA cls p g

/-- The die of a unit; none for a link lane. -/
def unitDie (cls u : Nat) : Option Nat :=
  match cls with
  | 0 => some (dieOfCluster u)
  | 1 | 2 => some (u / 32)
  | 3 => some (u / 512 / 3)
  | _ => none

/-- The pool of a context in a class (R138). -/
def ctxPool (s : State) (c cls : Nat) : Nat := (sget CtxMkt.start s.market.cfgA.ctxs c).pool.toNat / 4 ^ cls % 4

/-! ## Clearing (R146 to R149) -/

/-- A unit entry. -/
structure BidUnit where
  ctx : Nat
  tenant : Nat
  pool : Nat
  i : Nat
  price : Nat
  inc : Bool
  rate : Nat
deriving DecidableEq, Repr

/-- The ordering key (R147). -/
def unitBefore (a b : BidUnit) : Bool :=
  if a.price ≠ b.price then decide (b.price < a.price)
  else if a.inc ≠ b.inc then a.inc
  else if a.rate ≠ b.rate then decide (b.rate < a.rate)
  else if a.tenant ≠ b.tenant then decide (a.tenant < b.tenant)
  else if a.ctx ≠ b.ctx then decide (a.ctx < b.ctx)
  else decide (a.i < b.i)

/-- The fields of a bid register (R144). -/
def bidPrice (b : W64) : Nat := b.toNat % 2 ^ 32
def bidQty (b : W64) : Nat := b.toNat / 2 ^ 32 % 2 ^ 16
def bidDies (b : W64) : Nat := if b.toNat / 2 ^ 48 % 16 = 0 then 15 else b.toNat / 2 ^ 48 % 16

def frozenBid (s : State) (c cls : Nat) : W64 := sget 0 s.market.frozen (leaseKey c cls)

/-- The contexts that take part, in increasing number. -/
def marketCtxs (s : State) : List Nat := (List.range 1024).filter fun c => (s.tenantOf c).isSome

/-- Clips the bids of a class and lists their unit entries; avail is the tenants' remaining coins. -/
def clipBids (s : State) (cls : Nat) (avail : List (Nat × Nat)) : List BidUnit :=
  ((marketCtxs s).foldl (fun (p : List BidUnit × List (Nat × Nat)) c =>
    let b := frozenBid s c cls
    let t := (s.tenantOf c).getD 0
    let q := bidQty b
    let a := (aget p.2 t).getD 0
    let price := min (bidPrice b) (a / q)
    let pool := ctxPool s c cls
    if q = 0 ∨ price < (poolOf s.market.cfgA cls pool).reserve.toNat then p
    else
      let inc := (leaseAt s.market.current c cls).qty
      (p.1 ++ (List.range q).map fun i =>
        { ctx := c, tenant := t, pool := pool, i := i, price := price, inc := decide (i < inc)
          rate := (sget Tenant.start s.market.cfgA.tenants t).rate.toNat },
       aput t (a - price * q) p.2)) ([], avail)).1

/-- A unit that a context's bid admits (R148). -/
def admits (s : State) (c cls u : Nat) : Bool :=
  let b := frozenBid s c cls
  let f := (sget CtxMkt.start s.market.cfgA.ctxs c).func.toNat
  (match unitDie cls u with
    | some d => (bidDies b).testBit d
    | none => true) &&
  (if cls = 1 ∨ cls = 2 then (sget (BitVec.allOnes 128) s.market.cfgA.vfceil f).getLsbD u else true)

/-- Allot (R148): from the units of the pool that are left. -/
def allot (s : State) (cls : Nat) (left : List Nat) (u : BidUnit) : Option Nat :=
  let ok := left.filter fun x => admits s u.ctx cls x
  match ok.find? fun x => (leaseAt s.market.current u.ctx cls).units.contains x with
  | some x => some x
  | none => ok.head?

/-- The allotment of a pool: who is given which unit, and the highest rejected price. -/
def allotAll (s : State) (cls : Nat) : List Nat → List BidUnit → List (BidUnit × Nat) × Option Nat
  | _, [] => ([], none)
  | left, u :: us =>
    match allot s cls left u with
    | some x =>
      let r := allotAll s cls (left.filter fun y => y != x) us
      ((u, x) :: r.1, r.2)
    | none =>
      let r := allotAll s cls left us
      (r.1, some (match r.2 with
        | some p => max p u.price
        | none => u.price))

/-- What a pool's clearing gives: each context's units with what it pays for one, the price, the units sold. -/
structure PoolOutcome where
  won : List (BidUnit × Nat)
  cp : Nat

def clearPool (s : State) (cls p : Nat) (units : List BidUnit) : PoolOutcome :=
  let list := sortBy unitBefore (units.filter fun u => decide (u.pool = p))
  let r := allotAll s cls (poolSupply s cls p) list
  let reserve := (poolOf s.market.cfgA cls p).reserve.toNat
  { won := r.1, cp := match r.2 with
    | some x => max reserve x
    | none => reserve }

/-- The leases that the units won give. -/
def leasesOf (cls : Nat) (outs : List PoolOutcome) : List (Nat × Lease) :=
  outs.foldl (fun m o => o.won.foldl (fun m w =>
    smod Lease.none (leaseKey w.1.ctx cls)
      (fun l => { qty := l.qty + 1, price := min o.cp w.1.price, units := sins w.2 l.units, floor := false }) m) m) []

/-- Charges of the leases of a class to a tenant. -/
def chargeOf (s : State) (ls : List (Nat × Lease)) (t : Nat) : Nat :=
  ls.foldl (fun n l => if s.tenantOf (l.1 / 8) = some t then n + l.2.qty * l.2.price else n) 0

/-- Everything the clearing decides, class by class (R146). -/
def clearAll (s : State) : List (Nat × Lease) × List (Nat × Result) :=
  let tenants := (s.market.cfgA.tenants.filter fun t => t.2.valid).map fun t => t.1
  let avail := tenants.map fun t => (t, (sget 0 s.market.purses t).toNat)
  let r := (List.range 5).foldl (fun (p : List (Nat × Nat) × List (Nat × Lease) × List (Nat × Result)) cls =>
    let units := clipBids s cls p.1
    let outs := (List.range 4).map fun q => clearPool s cls q units
    let ls := leasesOf cls outs
    let rs := ((List.range 4).zip outs).foldl (fun m o =>
      sput Result.start (4 * cls + o.1) { price := BitVec.ofNat 32 o.2.cp, sold := BitVec.ofNat 16 o.2.won.length } m) p.2.2
    (p.1.map fun a => (a.1, a.2 - chargeOf s ls a.1), ls.foldl (fun m l => sput Lease.none l.1 l.2 m) p.2.1, rs)) (avail, [], [])
  (r.2.1, r.2.2)

/-! ## The interval timeline (R143, R150 to R152) -/

/-- T of the next interval. -/
def State.nextStart (s : State) : Nat := s.market.startTime + s.market.length.toNat * 1000

def State.running (s : State) : Bool := match s.mgmt.boot with
  | .running _ _ => true
  | .rom => false

/-- What a freeze brings in force (R143). -/
def freezeCfg (w a : MktCfg) : MktCfg :=
  { a with pools := w.pools, wysplit := w.wysplit, vfceil := w.vfceil, tenants := w.tenants, ctxs := w.ctxs }

/-- The retired units leave the market (R474). -/
def State.withholdUnits (s : State) : State :=
  let of := fun k => s.mgmt.outNext.filter fun (u : Nat × Nat × Nat) => decide (u.1 = k)
  { s with mgmt := { s.mgmt with
    outNext := []
    withheld := (of 0).foldl (fun l u => sins u.2.1 l) s.mgmt.withheld
    wayDown := s.mgmt.wayDown ++ (of 1).map fun u => u.2
    lanesDown := (of 2).foldl (fun l u => sins u.2.1 l) s.mgmt.lanesDown } }

/-- The bid freeze with the clearing (R145, R146). -/
def bidFreeze (s : State) : State :=
  if !s.running || decide (s.market.phase ≠ .open_) then s
  else
    let s := (s.advanceTo (s.clkAt (s.nextStart - 8000))).withholdUnits
    let s := { s with market := { s.market with
      phase := .frozen, frozen := s.market.pending, lengthNext := s.market.cfgW.interval, cfgA := freezeCfg s.market.cfgW s.market.cfgA } }
    let r := if s.market.cfgA.enable then clearAll s else ([], [])
    { s with market := { s.market with awards := r.1, outcome := r.2 } }

def execBidFreeze (s : State) : Host.Outcome State Fault Refusal := .next (bidFreeze s)

/-- The coins of all classes that a tenant is charged. -/
def State.chargeTenant (s : State) (t : Nat) : State :=
  let n := chargeOf s s.market.awards t
  { s with market := { s.market with purses := smod 0 t (fun v => BitVec.ofNat 64 (v.toNat - n)) s.market.purses } }

/-- Units of a class that nobody bought. -/
def unsold (s : State) (rs : List (Nat × Result)) (cls : Nat) : Nat :=
  ((supplyGroups s cls).foldl (fun n g => n + g.length) 0) -
    (List.range 4).foldl (fun n p => n + (sget Result.start rs (4 * cls + p)).sold.toNat) 0

/-- The lease-change word of a context (R152). The notify register that counts is the FROZEN copy, as for NOTIFY (DESIGN CHOICE, log entry 85). -/
def leaseChange (s : State) (c n : Nat) : State :=
  let a := frozenBid s c 7
  let told := (List.range 5).any fun cls =>
    (frozenBid s c cls).getLsbD 56 && decide ((leaseAt s.market.next c cls).qty ≠ (leaseAt s.market.current c cls).qty)
  if a = 0 || !told then s
  else s.storeOrPost (Party.ofCtx c) 5 a 0 (bytesOfNat 8 n)

/-- The payload of the PRICE flit (R169). Its interval length is that of the interval that runs (DESIGN CHOICE, log entry 86). -/
def priceFlit (s : State) (n : Nat) : PriceFlit :=
  { dev := s.podIndex, interval := s.market.length.toNat, number := n
    price := (List.range 20).map fun i => (sget Result.start s.market.results i).price.toNat
    unsold := (List.range 5).map fun cls => unsold s s.market.results cls }

/-- NEXT of an interval at its publication: its awards, each with the FLOOR that NEXT shows until the interval starts (R151). -/
def nextLeases (old awards : List (Nat × Lease)) : List (Nat × Lease) :=
  old.foldl (fun m l => if l.2.floor then smod Lease.none l.1 (fun x => { x with floor := true }) m else m) awards

/-- Publication (R150): charges, NEXT leases and prices, then the lease-change words and the PRICE flit. -/
def publication (s : State) : State :=
  if !s.running || decide (s.market.phase ≠ .frozen) then s
  else
    let s := s.advanceTo (s.clkAt (s.nextStart - 4000))
    let n := (s.market.intno.toNat + 1) % 2 ^ 48
    let s := (s.market.cfgA.tenants.map fun t => t.1).dedup.foldl State.chargeTenant s
    let s := s.market.awards.foldl (fun s l => s.count (l.1 / 8) 14 (l.2.qty * l.2.price)) s
    let s := { s with market := { s.market with phase := .published, next := nextLeases s.market.next s.market.awards, results := s.market.outcome } }
    let s := (List.range 1024).foldl (fun s c => if frozenBid s c 7 = 0 then s else leaseChange s c n) s
    s.send (.price (priceFlit s n))

def execPublication (s : State) : Host.Outcome State Fault Refusal := .next (publication s)

/-! ## Floor supply (R162) -/

/-- A context has ready groups (R163). -/
def State.ctxReady (s : State) (c : Nat) : Bool :=
  (s.launches.any fun l => decide (l.2.ctx = c) && l.2.gangs.any fun k => decide (k.st = .unplaced) || decide (k.st = .saved)) ||
  (s.tasks.any fun t => decide (t.2.ctx = c) && decide (t.2.st = .ready)) ||
  (s.groups.any fun g => decide (g.2.ctx = c) && g.2.task.isSome && decide (g.2.place = .saved) && !g.2.park)

/-- The contexts with groups resident on a cluster. -/
def State.residents (s : State) (cl : Nat) : List Nat :=
  (s.groups.filterMap fun g => match g.2.place with
    | .resident core => if clusterOf core = cl then some g.2.ctx else none
    | .faulted core => if clusterOf core = cl then some g.2.ctx else none
    | _ => none).dedup

/-- The clusters of a context in the current interval: leased, or given as floor supply. -/
def State.clustersOf (s : State) (c : Nat) : List Nat :=
  ((leaseAt s.market.current c 0).units ++ (s.market.floorOf.filterMap fun p => if p.2 = c then some p.1 else none)).dedup

/-- Contexts of a tenant. -/
def State.ctxsOf (s : State) (t : Nat) : List Nat := (marketCtxs s).filter fun c => decide (s.tenantOf c = some t)

/-- A tenant is eligible for a cluster; old is who held it as floor supply in the interval that ends. -/
def floorEligible (s : State) (old : Option Nat) (cl t : Nat) : Bool :=
  let v := sget Tenant.start s.market.cfgA.tenants t
  v.valid && v.floor && (s.ctxsOf t).any fun c => s.ctxReady c || (decide (old = some c) && (s.residents cl).contains c)

/-- The context of a tenant that a cluster goes to. -/
def floorCtx (s : State) (cl t : Nat) : Option Nat :=
  let cs := s.ctxsOf t
  match cs.find? fun c => (s.residents cl).contains c with
  | some c => some c
  | none => (sortBy (fun a b => decide ((s.clustersOf a).length < (s.clustersOf b).length)) (cs.filter fun c => s.ctxReady c)).head?

/-- Goes round the eligible tenants until one has a positive deficit: n bounds the visits. -/
def floorRound (s : State) : Nat → List Nat → State × Option Nat
  | 0, _ => (s, none)
  | _ + 1, [] => (s, none)
  | n + 1, t :: ts =>
    let w := (sget Tenant.start s.market.cfgA.tenants t).floorw.toNat
    let d := sget 0 s.market.floorDef t
    let d' := if d ≤ 0 then d + (max w 1 : Nat) * 1048576 else d
    let s := { s with market := { s.market with floorDef := sput 0 t d' s.market.floorDef } }
    if 0 < d' then (s, some t) else floorRound s n (ts ++ [t])

/-- Gives one unsold cluster (R162). -/
def floorAssign (olds : List (Nat × Nat)) (s : State) (cl : Nat) : State :=
  let all := (List.range 256).filter fun t => floorEligible s (aget olds cl) cl t
  let ts := (all.filter fun t => decide (s.market.floorLast < t)) ++ all.filter fun t => decide (t ≤ s.market.floorLast)
  let worst := ts.foldl (fun n t => max n ((- sget 0 s.market.floorDef t).toNat / 1048576)) 0
  match floorRound s ((worst + 2) * (ts.length + 1)) ts with
  | (s, some t) =>
    (match floorCtx s cl t with
      | some c => { s with market := { s.market with floorOf := aput cl c s.market.floorOf, floorLast := t } }
      | none => s)
  | (s, none) => s

/-- Floor supply of an interval. -/
def floorAll (s : State) : State :=
  let olds := s.market.floorOf
  let sold := (s.market.current.filter fun l => decide (l.1 % 8 = 0)).flatMap fun l => l.2.units
  let s := { s with market := { s.market with floorOf := [] } }
  let s := (((supplyGroups s 0).flatMap id).filter fun v => !sold.contains v).foldl (floorAssign olds) s
  let idle := fun t => !(s.ctxsOf t).any fun c =>
    s.ctxReady c || olds.any fun p => decide (p.2 = c) && (s.residents p.1).contains c
  { s with market := { s.market with
    floorDef := s.market.floorDef.filter fun d => !(idle d.1 && decide (0 < d.2)) } }

/-- FLOOR of a context and class (R151). -/
def floorBit (s : State) (c cls : Nat) : Bool :=
  let t := (s.tenantOf c).map fun t => (sget Tenant.start s.market.cfgA.tenants t).floor
  match cls with
  | 0 => s.market.floorOf.any fun p => decide (p.2 = c)
  | 2 | 3 | 4 => decide (t = some true) && decide (0 < unsold s s.market.results cls)
  | _ => false

/-! ## The start of an interval (R150) -/

/-- A refill (R140). -/
def refill (t : Tenant) (purse : W64) : W64 :=
  if t.cap.toNat ≤ purse.toNat then purse else BitVec.ofNat 64 (min (purse.toNat + t.rate.toNat) t.cap.toNat)

def refillAll (s : State) : State :=
  let tenant := sget Tenant.start s.market.cfgA.tenants
  let ps := ((s.market.cfgA.tenants.map fun t => t.1).dedup.filter fun t => (tenant t).valid).foldl (fun m t => smod 0 t (refill (tenant t)) m)
    s.market.purses
  { s with market := { s.market with purses := ps } }

/-- Leases without their FLOOR bits. -/
def clearFloors (m : List (Nat × Lease)) : List (Nat × Lease) := m.foldr (fun l m => sput Lease.none l.1 { l.2 with floor := false } m) []

/-- FLOOR of an interval, decided anew at its start (R151). -/
def State.setFloors (s : State) : State :=
  let ls := (List.range 1024).foldl (fun m c => (List.range 5).foldl (fun m cls =>
    if floorBit s c cls then smod Lease.none (leaseKey c cls) (fun l => { l with floor := true }) m else m) m) (clearFloors s.market.current)
  { s with market := { s.market with current := ls, next := ls } }

/-- The start of an interval: leases switch, INTNO, refills, floor supply. Gangs on clusters that their context has lost stop with
GANG_STOP. -/
def intervalStart (s : State) : State :=
  if !s.running || decide (s.market.phase ≠ .published) then s
  else
    let t := s.nextStart
    let s := s.advanceTo (s.clkAt t)
    let old := s.market.current
    let s : State := { s with market := { s.market with
      phase := .open_, intno := s.market.intno + 1, startTime := t, length := s.market.lengthNext, current := s.market.next
      cfgA := { s.market.cfgA with enable := s.market.cfgW.enable, interval := s.market.lengthNext }
      peers := s.market.peers.map fun p => (p.1, { p.2 with age := p.2.age + 1 })
      excluded := (s.market.excluded.map fun e => (e.1, e.2 - 1)).filter fun e => e.2 != 0
      spun := [] } }
    let s := { (s.vacateWays old) with mgmt := { (s.vacateWays old).mgmt with timeSent := false } }
    (floorAll (if s.market.cfgA.enable then refillAll s else s)).setFloors


/-! ## The market instructions (R156 to R158) -/

/-- A LEASE register (R151). -/
def leaseWord (cls : Nat) (l : Lease) : W64 :=
  let dies := l.units.foldl (fun m u => match unitDie cls u with
    | some d => m ||| 2 ^ d
    | none => m) 0
  BitVec.ofNat 64 (l.qty % 65536 + dies * 2 ^ 16 + (if l.floor then 2 ^ 20 else 0) + l.price % 2 ^ 32 * 2 ^ 32)

/-- An instruction that reads a 64-bit value into a pair of uniform registers. -/
def readPair (s : State) (h : Hdr) (f : SF) (v : Issue → W64) : Host.Outcome State Fault Refusal :=
  withIssuer s fun x => oncePerWave s x h [] (finishGroup s x h fun g => g.putSregs x.ref.wi s.free f.d.toNat [lo32 (v x), hi32 (v x)])

def bidStatus (s : State) (c cls : Nat) (v : W64) : Nat :=
  let n := v.toNat
  if (s.tenantOf c).isNone then 2
  else if cls ≤ 4 ∧ (n / 2 ^ 52 % 16 ≠ 0 ∨ n / 2 ^ 57 ≠ 0) then 1
  else if cls = 7 ∧ (n % 8 ≠ 0 ∨ n / 2 ^ 56 ≠ 0) then 1
  else 0

def execBidw (h : Hdr) (f : SF) (s : State) : Host.Outcome State Fault Refusal :=
  withIssuer s fun x =>
    let a := readS s x true f.a
    oncePerWave s x h [a] (
      let cls := f.sel.toNat % 8
      let st := bidStatus s x.g.ctx cls a.val
      let s' := if st = 0 then { s with market := { s.market with pending := sput 0 (leaseKey x.g.ctx cls) a.val s.market.pending } } else s
      finishGroup s' x h fun g => g.putSregs x.ref.wi s.free f.d.toNat [BitVec.ofNat 32 st])

def execBidr (h : Hdr) (f : SF) (s : State) : Host.Outcome State Fault Refusal :=
  readPair s h f fun x => sget 0 (if f.imm.getLsbD 0 then s.market.frozen else s.market.pending) (leaseKey x.g.ctx (f.sel.toNat % 8))

def execPriceR (h : Hdr) (f : SF) (s : State) : Host.Outcome State Fault Refusal :=
  withIssuer s fun x =>
    let named := f.sel.getLsbD 5
    let a := readS s x false f.a
    oncePerWave s x h (if named then [a] else []) (
      let i := f.sel.toNat % 8 * 4 + f.sel.toNat / 8 % 4
      let d := a.val.toNat
      let ws : List W32 :=
        if !named || decide (d = s.podIndex) then [(sget Result.start s.market.results i).price, 0x80000000]
        else match (if d < 1024 then aget s.market.peers d else none) with
          | some p => [BitVec.ofNat 32 (p.price[i]?.getD 0), BitVec.ofNat 32 (2 ^ 31 + min p.age 65535)]
          | none => [0, 0]
      finishGroup s x h fun g => g.putSregs x.ref.wi s.free f.d.toNat ws)

def execLeaseR (h : Hdr) (f : SF) (s : State) : Host.Outcome State Fault Refusal :=
  readPair s h f fun x =>
    let cls := f.sel.toNat % 8
    leaseWord cls (leaseAt (if f.imm.getLsbD 0 then s.market.next else s.market.current) x.g.ctx cls)

/-- `pcnt` (R157, R159). -/
def execPcnt (h : Hdr) (f : SF) (s : State) : Host.Outcome State Fault Refusal :=
  readPair s h f fun x => sget 0 s.market.counters (counterKey x.g.ctx f.sel.toNat)

/-! ## Spinnaker (R170, R171) -/

/-- The units of class k in the NEXT lease of a context. -/
def nextUnits (s : State) (c k : Nat) : Nat := (leaseAt s.market.next c k).qty

/-- What a context's leases cost at prices. -/
def costAt (s : State) (c : Nat) (price : Nat → Nat → Nat) : Nat :=
  (List.range 5).foldl (fun n k => n + nextUnits s c k * price k (ctxPool s c k)) 0

/-- The cheapest peer that has enough unsold (R171). -/
def bestPeer (s : State) (c : Nat) (pol : SpinPol) : Option (Nat × Nat) :=
  s.market.peers.foldl (fun best p =>
    let ok := decide (p.2.age ≤ pol.maxage.toNat) && !(s.market.excluded.any fun e => decide (e.1 = (c, p.1))) &&
      (List.range 5).all fun k => decide (nextUnits s c k ≤ p.2.unsold[k]?.getD 0)
    let cost := costAt s c fun k q => p.2.price[4 * k + q]?.getD 0
    if !ok then best
    else match best with
      | some b => if cost < b.2 then some (p.1, cost) else best
      | none => some (p.1, cost)) none

/-- One context's pass of Spinnaker; the context to migrate with its destination. -/
def spinPass (s : State) (c : Nat) : State × Option Nat :=
  match s.tenantOf c with
  | none => (s, none)
  | some t =>
    let pol := sget SpinPol.start s.market.cfgW.spin t
    if !s.running || decide (s.market.phase ≠ .published) || !pol.enable || s.market.spun.contains c then (s, none)
    else
      let here := costAt s c fun k q => (sget Result.start s.market.results (4 * k + q)).price.toNat
      let best := bestPeer s c pol
      let n := match best with
        | some b => if b.2 * (100 + pol.gap.toNat) < here * 100 then sget 0 s.market.streakOf c + 1 else 0
        | none => 0
      let go := decide (max 1 pol.streak.toNat ≤ n)
      let s := { s with market := { s.market with
        spun := sins c s.market.spun, streakOf := sput 0 c (if go then 0 else n) s.market.streakOf } }
      (s, if go then best.map fun b => b.1 else none)

end Sys2Proof.Machine
end

