-- ==== Sys2Proof/Machine/System.lean ====
section
/-! DEFINITION. System: `sread` and `swrite` (R453 to R456, R462), `clock` and `sleep` (R463, R464), the delivery of traps
(R277, R457, R458) and the landing of variable-latency results (R191, R192). -/

namespace Sys2Proof.Machine

/-! ## System registers (R453) -/

/-- TEN (R456). -/
def Wave.ten (w : Wave) : W32 :=
  BitVec.ofNat 32 ((if w.uten then 1 else 0) + (if w.inh then 2 else 0) + (if w.brkpark then 4 else 0))

/-- The tenant's purse; a context without a tenant has none, and what is read is a free value (R140; log entry 7). -/
def readPurse (s : State) (c : Nat) : W64 :=
  match s.tenantOf c with
  | some t => sget 0 s.market.purses t
  | none => BitVec.ofNat 64 (Config.freeNat s.free 420000)

/-- A system register of 32 bits. -/
def sysRead (s : State) (g : Group) (w : Wave) (sel : Nat) : W32 :=
  match sel with
  | 0x10 => w.tcause
  | 0x11 => lo32 w.tpc
  | 0x12 => hi32 w.tpc
  | 0x13 => w.tmask
  | 0x14 => w.tdst
  | 0x16 => lo32 w.tvec
  | 0x17 => hi32 w.tvec
  | 0x18 => w.ten
  | 0x20 => w.fpctl
  | 0x21 => w.fpflags
  | 0x40 => lo32 (readPurse s g.ctx)
  | 0x41 => hi32 (readPurse s g.ctx)
  | 0x50 => BitVec.ofNat 32 (s.market.intno.toNat % 2 ^ 32)
  | _ => g.scope

def execSread (h : Hdr) (f : SF) (s : State) : Host.Outcome State Fault Refusal :=
  withIssuer s fun x =>
    oncePerWave s x h [] (finishGroup s x h fun g => g.putSregs x.ref.wi s.free f.d.toNat [sysRead s x.g x.w f.sel.toNat])

/-- `sread.v`: TVAL in each lane of EXEC, variable-latency. -/
def execSreadV (h : Hdr) (f : SF) (s : State) : Host.Outcome State Fault Refusal :=
  withIssuer s fun x =>
    let ws := (Mask.lanes (x.exec h)).flatMap fun l => dstWrites x.w f.d true l (sget 0 x.w.tval l) false
    oncePerWave s x h [] (finish s x h (if ws = [] then x.w else x.w.addPend ws 0 none))

/-- A 64-bit register with one half replaced. -/
def withHalf (old : W64) (high : Bool) (v : W32) : W64 := if high then pair64 (lo32 old) v else pair64 v (hi32 old)

/-- A wave's own register after `swrite`; reserved bits and INH are not written. -/
def Wave.sysWrite (w : Wave) (sel : Nat) (v : W32) : Wave :=
  match sel with
  | 0x11 => { w with tpc := withHalf w.tpc false v }
  | 0x12 => { w with tpc := withHalf w.tpc true v }
  | 0x16 => { w with tvec := withHalf w.tvec false v }
  | 0x17 => { w with tvec := withHalf w.tvec true v }
  | 0x18 => { w with uten := v.getLsbD 0, brkpark := v.getLsbD 2 }
  | 0x20 => { w with fpctl := v &&& 0x1F }
  | 0x21 => { w with fpflags := v &&& 0x3001F }
  | _ => w

/-- A manager write of one half of its tenant's PURSE (R140). -/
def purseWrite (s : State) (c : Nat) (high : Bool) (v : W32) : State :=
  match s.tenantOf c with
  | none => s
  | some t => { s with market := { s.market with purses := smod 0 t (fun p => withHalf p high v) s.market.purses } }

def isPurse (f : SF) : Bool := decide (f.sel = 0x40) || decide (f.sel = 0x41)

def execSwrite (h : Hdr) (f : SF) (s : State) : Host.Outcome State Fault Refusal :=
  withIssuer s fun x =>
    let a := readS s x false f.a
    if isPurse f && !x.g.isManager then parkDecode s x .priv (.swrite h f)
    else oncePerWave s x h [a] (
      if isPurse f then finish (purseWrite s x.g.ctx (decide (f.sel = 0x41)) (lo32 a.val)) x h x.w
      else finish s x h (x.w.sysWrite f.sel.toNat (lo32 a.val)))

/-! ## Time -/

/-- `clock`: CLK or TIME (R463). -/
def execClockR (h : Hdr) (f : SF) (s : State) : Host.Outcome State Fault Refusal :=
  readPair s h f fun _ => BitVec.ofNat 64 (if f.sel.getLsbD 0 then s.time else s.clk)

/-- An entry goes to sleep until a wake time; one already passed lets it go on at once (R464). -/
def sleepFor (s : State) (x : Issue) (h : Hdr) (i : Instr) (wake : Nat) : State :=
  if wake ≤ s.time then finish s x h x.w
  else s.setWave x.ref.gid x.ref.wi (x.w.setEntry x.ref.slot (some
    { (x.e.arm h x.w.nextSeq) with st := .wait (.sleep wake), insn := some i, exec := x.exec h, pass := 0 }))

def execSleep (h : Hdr) (f : SF) (s : State) : Host.Outcome State Fault Refusal :=
  withIssuer s fun x => oncePerWave s x h [] (sleepFor s x h (.sleep h f) (s.time + 1000 * f.imm.toNat))

def execSleepUntil (h : Hdr) (f : SF) (s : State) : Host.Outcome State Fault Refusal :=
  withIssuer s fun x =>
    let a := readS s x true f.a
    oncePerWave s x h [a] (sleepFor s x h (.sleepUntil h f) a.val.toNat)

/-- A sleeping entry wakes: time passes up to its wake time. A RATLINE hold keeps it in WAIT (R536). -/
def sleepWake (s : State) (r : EntryRef) : State :=
  match s.issueOf r with
  | none => s
  | some x =>
    match x.e.st, x.g.place with
    | .wait (.sleep wake), .resident _ =>
      let s := s.advanceTo (s.clkAt wake)
      if s.held then s
      else s.setWave r.gid r.wi (x.w.setEntry r.slot (some (x.w.goOn { x.e with pc := x.e.pc + 8 })))
    | _, _ => s

def execSleepWake (at_ : EntryRef) (s : State) : Host.Outcome State Fault Refusal := .next (sleepWake s at_)

/-! ## Traps and landing results -/

/-- The trap of an entry is delivered, held or parked (R457). -/
def execTrapDelivery (at_ : EntryRef) (s : State) : Host.Outcome State Fault Refusal :=
  .next (s.modWave at_.gid at_.wi fun w => if w.ended then w else (w.deliver at_.slot).settle)

/-- What is left of a pending result is written. -/
def execVarLatencyWriteback (wave : WaveRef) (seq : Nat) (s : State) : Host.Outcome State Fault Refusal := .next (landPend s wave seq none)

end Sys2Proof.Machine
end

