-- ==== Sys2Proof/Machine/Queues.lean ====
section
/-! DEFINITION. Queues: queue control blocks and doorbells (R109 to R116), the consumption of packets (R117 to R125), BARRIER passes
and abort (R129 to R131), `enq` and `enqt` (R441 to R444). -/

namespace Sys2Proof.Machine

/-! ## Queue states (R111, R116) -/

def queueCount : Nat := 4096

def ringSize (v : Queue) : Nat := 2 ^ v.log2size.toNat

/-- The slot of the packet of index w. -/
def slotAt (v : Queue) (w : Nat) : W64 := v.qbase + BitVec.ofNat 64 (64 * (w % ringSize v))

/-- ERROR causes (R109). -/
def causeAbort : BitVec 4 := 1
def causeOverrun : BitVec 4 := 2
def causeRing : BitVec 4 := 3

def Queue.toError (v : Queue) (cause : BitVec 4) (idx : Nat) : Queue :=
  { v with st := .error, cause := cause, erridx := BitVec.ofNat 48 idx }

/-- A doorbell that runs ahead of the ring (R116). -/
def Queue.checkOverrun (v : Queue) : Queue :=
  if v.st = .active ∧ v.rindex + ringSize v < v.qdbv.toNat then v.toError causeOverrun v.rindex else v

/-! ## Doorbells (R115) -/

/-- A value written to a doorbell by a function that may. -/
def Queue.ring (v : Queue) (n : W64) : Queue :=
  if v.st = .free then v else ({ v with qdbv := if v.qdbv.toNat < n.toNat then n else v.qdbv }).checkOverrun

/-- The context that a violation on a queue concerns. -/
def Queue.ctxOf (v : Queue) : Nat := if v.st = .free then 0xFFFF else v.ctx.toNat

/-- A function that may use a queue's doorbell: the PF, or the enabled VF of FUNC. -/
def State.rings (s : State) (func q : Nat) : Bool := decide (func = 0) || (decide (func = (s.queue q).func.toNat) && s.funcOn func)

def doorbellWrite (s : State) (func off size : Nat) (value : W64) : State :=
  let q := off / 4096
  if queueCount ≤ q ∨ 8 ≤ off % 4096 then s
  else if !s.rings func q || decide (size ≠ 8) || decide (off % 4096 ≠ 0) then
    s.violation 2 func 2 1 (s.queue q).ctxOf (BitVec.ofNat 64 off) (BitVec.ofNat 64 q)
  else s.modQueue q fun v => v.ring value

def execDoorbellWrite (func off size : Nat) (value : W64) (s : State) : Host.Outcome State Fault Refusal :=
  .next (doorbellWrite s func off size value)

/-- Data returned to the host. -/
def State.answer (s : State) (bs : List Byte) : State := { s with host := { s.host with readData := s.host.readData ++ [bs] } }

def doorbellRead (s : State) (func off size : Nat) : State :=
  let q := off / 4096
  let zero := bytesOfNat size 0
  if queueCount ≤ q ∨ 8 ≤ off % 4096 then s.answer zero
  else if !s.rings func q then
    (s.violation 13 func 2 0 (s.queue q).ctxOf (BitVec.ofNat 64 off) (BitVec.ofNat 64 q)).answer zero
  else s.answer (if size = 8 ∧ off % 4096 = 0 then bytesOfNat 8 (s.queue q).qdbv.toNat else zero)

def execDoorbellRead (func off size : Nat) (s : State) : Host.Outcome State Fault Refusal := .next (doorbellRead s func off size)

/-! ## Actions (R110, R111) -/

/-- MSI-X vectors of a function (R102). -/
def vectorsOf (func : Nat) : Nat := if func = 0 then 2048 else 64

/-- The checks of ENABLE (R110). -/
def enableOk (s : State) (v : Queue) : Bool :=
  decide (6 ≤ v.log2size.toNat) && decide (v.log2size.toNat ≤ 24) &&
  decide (v.qbase ≠ 0) && decide (v.qbase.toNat % 64 = 0) &&
  decide (v.qrptra ≠ 0) && decide (v.qrptra.toNat % 8 = 0) && decide (v.qwptra ≠ 0) && decide (v.qwptra.toNat % 8 = 0) &&
  (match s.scopeAt v.qscope with
    | some z => decide (z.st = .live) && decide (z.ctx = v.ctx.toNat)
    | none => false) &&
  s.funcOn v.func.toNat && decide (v.vec.toNat < vectorsOf v.func.toNat)

/-- BAR0 offset of a queue's ACT register. -/
def actOffset (q : Nat) : W64 := BitVec.ofNat 64 (0x100028 + 64 * q)

def enableQueue (s : State) (q : Nat) : State :=
  let v := s.queue q
  let c := v.ctx.toNat
  if v.st ≠ .disabled then s
  else if s.blocked c then s.violation 4 0 0 1 c (actOffset q) 0
  else if !enableOk s v then s.violation 3 0 0 1 c (actOffset q) (BitVec.ofNat 64 q)
  else
    let on : Queue := { v with st := .active, cause := 0, qdbv := 0, rindex := 0, first := v.first + v.rindex }
    let p := Party.ofCtx c
    (s.forget (.packetConsume q)).withSectors (.enable 0 q) (Work.ofCtx c) (fun s => tagAsks 1001 (s.recordAsks p v.qrptra (bytesOfNat 8 0))) fun s rs =>
      match s.changeWord c v.qrptra fun _ => 0 with
      | some t => t.modQueue q fun _ => on
      | none => s.modQueue q fun _ => if sentOk rs 1001 then on else on.toError causeRing 0

def disableQueue (s : State) (q : Nat) : State :=
  let v := s.queue q
  if v.st = .active ∨ v.st = .error then s.modQueue q fun v => { v with st := .disabled, cause := 0 } else s

def resumeQueue (s : State) (q : Nat) : State :=
  if (s.queue q).st = .error then s.modQueue q fun v => ({ v with st := .active, cause := 0 }).checkOverrun else s

/-- RELEASE waits for dispatched packets and for a BARRIER packet's passes. -/
def releaseQueue (s : State) (q : Nat) : State :=
  let v := s.queue q
  if v.st = .disabled && v.busy.isEmpty && v.bar.isNone then s.modQueue q fun _ => Queue.start else s

/-- An action on a queue through a function's BAR0. -/
def queueAction (s : State) (func q : Nat) (k : State → Nat → State) : State :=
  s.privatePage func (0x100028 + 64 * q) 1 (if q < queueCount then k s q else s)

def execEnable (func queue : Nat) (s : State) : Host.Outcome State Fault Refusal := .next (queueAction s func queue enableQueue)
def execDisable (func queue : Nat) (s : State) : Host.Outcome State Fault Refusal := .next (queueAction s func queue disableQueue)
def execQueueResume (func queue : Nat) (s : State) : Host.Outcome State Fault Refusal := .next (queueAction s func queue resumeQueue)
def execQueueRelease (func queue : Nat) (s : State) : Host.Outcome State Fault Refusal := .next (queueAction s func queue releaseQueue)

/-! ## Queue control blocks (R109) -/

/-- The word of a QCB at an offset. -/
def qstCode : QueueSt → Nat
  | .free => 0
  | .disabled => 1
  | .active => 2
  | .error => 3

def qcbWord (v : Queue) (off : Nat) : W64 :=
  match off with
  | 0x00 => v.qbase
  | 0x08 => BitVec.ofNat 64 (v.log2size.toNat + 2 ^ 8 * v.pclass.toNat + 2 ^ 10 * v.ctx.toNat + 2 ^ 20 * v.vec.toNat + 2 ^ 32 * v.func.toNat)
  | 0x10 => v.qscope.zeroExtend 64
  | 0x18 => v.qrptra
  | 0x20 => v.qwptra
  | 0x30 => BitVec.ofNat 64 (qstCode v.st + 16 * v.cause.toNat + 2 ^ 16 * v.erridx.toNat)
  | 0x38 => v.qdbv
  | _ => 0

def Queue.putWord (v : Queue) (off : Nat) (n : W64) : Queue :=
  match off with
  | 0x00 => { v with qbase := n }
  | 0x08 =>
    { v with
      log2size := n.extractLsb' 0 5, pclass := n.extractLsb' 8 2, ctx := n.extractLsb' 10 10, vec := n.extractLsb' 20 11
      func := n.extractLsb' 32 8 }
  | 0x10 => { v with qscope := n.extractLsb' 0 32 }
  | 0x18 => { v with qrptra := n }
  | 0x20 => { v with qwptra := n }
  | _ => v

/-- A write to the QCB region; off is the offset in the region. A write to ACT takes the bytes it does not cover as 0 (R540). -/
def qcbWrite (s : State) (off size : Nat) (value : W64) : State :=
  let q := off / 64
  let r := off % 64 / 8 * 8
  let v := s.queue q
  if queueCount ≤ q ∨ !accessOk off size then s
  else if r = 0x28 then
    (match if off % 8 = 0 then value.toNat % 16 else 0 with
      | 1 => enableQueue s q
      | 2 => disableQueue s q
      | 3 => resumeQueue s q
      | 4 => releaseQueue s q
      | _ => s)
  else if 0x28 ≤ r then s
  else if v.st = .free ∨ v.st = .disabled then
    s.modQueue q fun v => { (v.putWord r (mergeReg (qcbWord v r) (off % 8) size value)) with st := .disabled }
  else s

def execQcbWrite (func off size : Nat) (value : W64) (s : State) : Host.Outcome State Fault Refusal :=
  .next (s.privatePage func (0x100000 + off) 1 (qcbWrite s off size value))

/-! ## Packets (R118 to R120) -/

/-- The completion signal of a packet; of a LAUNCH the record's DONE word, which may not be readable (R119, R120). -/
def doneOf (s : State) (ctx : Nat) (pkt : List Byte) : W64 :=
  let t := fieldAt pkt 0 1
  let a := if t = 1 then
      (if (w64At pkt 8).toNat % 8 ≠ 0 then 0 else ((s.recordOf ctx (w64At pkt 8 + 0x28) 8).map fun b => w64At b 0).getD 0)
    else if 2 ≤ t ∧ t ≤ 5 then w64At pkt 0x30 else 0
  if a.toNat % 8 = 0 then a else 0

/-- The format checks of R120. -/
def packetOk (pkt : List Byte) : Bool :=
  let z := allZero pkt
  let al := fun o => decide ((w64At pkt o).toNat % 8 = 0)
  decide (fieldAt pkt 1 1 < 8) && decide (fieldAt pkt 2 2 = 1) &&
  (match fieldAt pkt 0 1 with
    | 1 => al 0x08 && z 0x10 48
    | 2 => al 0x20 && al 0x30 && decide (fieldAt pkt 0x18 8 < 2 ^ 48) && decide (fieldAt pkt 0x28 8 < 2 ^ 63) &&
        decide (fieldAt pkt 0x38 1 < 8) && z 0x39 7
    | 3 => al 0x08 && al 0x10 && al 0x18 && al 0x20 && al 0x30 && z 0x28 8 && z 0x38 8
    | 4 => al 0x08 && al 0x30 && decide (fieldAt pkt 0x18 1 ≤ 1) && z 0x19 23 && z 0x38 8
    | 5 => al 0x30 && z 0x08 40 && z 0x38 8
    | _ => false)

/-- A packet's place: its queue, its index and its running number there, and its flags. -/
structure PacketAt where
  queue : Nat
  index : Nat
  ctx : Nat
  intr : Bool
  hold : Bool
  number : Nat
deriving DecidableEq, Repr

def PacketAt.ref (p : PacketAt) (done : W64) (auto scope : W32) : PacketRef :=
  { queue := p.queue, index := p.index, done := done, intr := p.intr, auto := auto, number := p.number, hold := p.hold, scope := scope }

/-- A packet of a scope that ends at once, after the operations of a list. -/
def State.endPacket (s : State) (p : PacketAt) (scope : W32) (before : List WordStep) (done : W64) (op : DoneOp) : State :=
  let r := p.ref done 0 scope
  State.runSteps p.ctx r (before ++ r.doneStep op) s

/-- A dispatched packet that has yet to complete. -/
def State.beginPacket (s : State) (p : PacketAt) : State := s.modQueue p.queue fun v => { v with busy := v.busy ++ [(p.number, p.hold)] }

/-- A SIGNAL packet's operation (R127). -/
def signalStep (a : W64) (store : Bool) (v : W64) : WordStep := { source := 12, addr := a, opn := if store then 2 else 0, val := v }

/-- A LAUNCH packet under its effective scope (R67, R69, R93, R101): rejected, dropped, empty, or handed to placement. -/
def launchPacket (s : State) (p : PacketAt) (pkt : List Byte) (eff auto : W32) : State :=
  match readRecord s p.ctx (w64At pkt 8) eff with
  | none => s.endPacket p eff [] (doneOf s p.ctx pkt) .fail
  | some r =>
    let scope := if r.scope = 0 then eff else r.scope
    if !s.scopeLive scope then s.endPacket p scope [s.cancntStep p.queue] r.done .dec
    else if r.groups = 0 then s.endPacket p scope [] r.done .dec
    else
      (s.addLaunch
        { ctx := p.ctx, queue := p.queue, packet := p.index, scope := scope, autoScope := auto, intr := p.intr, rcd := r
          gangs := List.replicate (r.groups / r.gang) Gang.start, failed := false, cancelled := false, complete := false, number := p.number }).beginPacket p

/-- The copy of a COPY packet (R122). -/
def packetCopy (p : PacketAt) (pkt : List Byte) (eff auto : W32) : Copy :=
  let words := fun o => [w32At pkt o, w32At pkt (o + 4)]
  { kind := .cpy, desc := words 0x08 ++ words 0x10 ++ words 0x18 ++ words 0x20 ++ words 0x28 ++ [0, 0], mode := fieldAt pkt 0x38 1 % 2
    scp := 4, ctx := p.ctx, scope := eff, owner := none, launch := none, core := 0, packet := some (p.ref (w64At pkt 0x30) auto eff)
    slice := 0, slices := 0, row := 0, next := 0, halted := false, tainted := false, remote := [] }

/-- A packet that has passed R120, under its effective scope; auto is the child made for it, or 0 (R121). -/
def runPacket (s : State) (p : PacketAt) (pkt : List Byte) (eff auto : W32) : State :=
  let done := w64At pkt 0x30
  match fieldAt pkt 0 1 with
  | 1 => launchPacket s p pkt eff auto
  | 2 => (s.acceptCopy (packetCopy p pkt eff auto)).beginPacket p
  | 3 =>
    let deps := ([0x08, 0x10, 0x18, 0x20].map fun o => w64At pkt o).filter fun a => decide (a ≠ 0)
    s.modQueue p.queue fun v => { v with
      bar := some { ctx := p.ctx, deps := deps, pkt := p.ref done auto eff, scope := eff, hold := p.hold } }
  | 4 => s.endPacket p eff [signalStep (w64At pkt 0x08) (decide (fieldAt pkt 0x18 1 = 1)) (w64At pkt 0x10)] done .dec
  | _ => s.endPacket p eff [] done .dec

/-- A packet of a DEAD scope is dropped (R125, R497). -/
def dropPacket (s : State) (p : PacketAt) (pkt : List Byte) (base : W32) : State :=
  s.endPacket p base (if fieldAt pkt 0 1 = 1 then [s.cancntStep p.queue] else []) (doneOf s p.ctx pkt) .dec

/-- The processing of a consumed packet: its checks, its scope (R92, R503), its effect. -/
def processPacket (s : State) (p : PacketAt) (pkt : List Byte) : State :=
  let field := w32At pkt 4
  let qs := (s.queue p.queue).qscope
  let base := if field = 0 then qs else field
  if !packetOk pkt || (decide (field ≠ 0) && !s.inSubtree field qs) then s.endPacket p 0 [] (doneOf s p.ctx pkt) .fail
  else if !s.scopeLive base then dropPacket s p pkt base
  else if (fieldAt pkt 1 1).testBit 2 then
    (match s.createChild p.ctx base true true with
      | .error _ => s.endPacket p base [] (doneOf s p.ctx pkt) .fail
      | .ok (t, h) => runPacket t p pkt h h)
  else runPacket s p pkt base 0

/-! ## Consumption (R117, R123, R130) -/

/-- The queue consumes: it is ACTIVE, or in ERROR ABORT where it aborts what it consumes. -/
def Queue.consumes (v : Queue) : Bool := decide (v.st = .active) || (decide (v.st = .error) && decide (v.cause = causeAbort))

/-- A packet that waits for others holds the queue (R123). -/
def Queue.heldBack (v : Queue) : Bool := v.bar.isSome || v.busy.any fun b => b.2

/-- The sectors of other devices that a LAUNCH packet's record, image, preload and code lie in, as far as its checks come (R67). -/
def launchAsks (s : State) (c : Nat) (a : W64) : List RemoteAsk :=
  let p := Party.ofCtx c
  let done := s.wanted p .r (a + 0x28) 8 8
  match s.wanted p .r a 128 8 ++ done, s.recordOf c a 128 with
  | [], some bs =>
    let r := rawRecord bs
    if !r.limitsOk then []
    else
      match s.wanted p .r r.rcd.image 256 8 ++ (List.range r.precount).flatMap (fun i => s.wanted p .r (r.preloadAt + BitVec.ofNat 64 (4 * i)) 4 4),
          s.recordOf c r.rcd.image 256 with
      | [], some hb =>
        let h := imageHdr hb
        if (s.ctxFlags c).testBit 1 && headerOk h r.rcd && decide (r.rcd.image.toNat + h.codeoff + h.codesize ≤ 2 ^ 56) then
          s.wanted p .r (r.rcd.image + BitVec.ofNat 64 h.codeoff) h.codesize 8
        else []
      | asks, _ => asks
  | asks, _ => asks

/-- What consuming the packet at index i of a queue asks of other devices: its slot; the byte of the slot that it clears and the read index;
the record of a LAUNCH. -/
def consumeAsks (s : State) (v : Queue) (i : Nat) (slot : W64) : List RemoteAsk :=
  let c := v.ctx.toNat
  let p := Party.ofCtx c
  match s.wanted p .r slot 64 8, s.recordOf c slot 64 with
  | [], some pkt =>
    if fieldAt pkt 0 1 = 0 then []
    else tagAsks 1001 (s.recordAsks p slot [0]) ++ tagAsks 1002 (s.recordAsks p v.qrptra (bytesOfNat 8 (i + 1))) ++
      if fieldAt pkt 0 1 = 1 ∧ (w64At pkt 8).toNat % 8 = 0 then launchAsks s c (w64At pkt 8) else []
  | asks, _ => asks

/-- A store of a record, here or as a home has answered it. -/
def storedOr (t : Option State) (s : State) (rs : List Answered) (k : Nat) : Option State :=
  match t with
  | some t => some t
  | none => if sentOk rs k then some s else none

/-- The dispatcher consumes the packet at the read index i, with what other devices have answered. A failing access to the ring makes the
queue's ERROR RINGFAULT, in ERROR ABORT too (DESIGN CHOICE, log entry 80). -/
def takePacket (s : State) (q i : Nat) (slot : W64) (rs : List Answered) : State :=
  let v := s.queue q
  let c := v.ctx.toNat
  let ringFault := fun (s : State) => s.modQueue q fun v => v.toError causeRing i
  match s.recordOf c slot 64 with
  | none => ringFault s
  | some pkt =>
    if fieldAt pkt 0 1 = 0 then s
    else match storedOr (s.putRecord (Party.ofCtx c) slot [0]) s rs 1001 with
      | none => ringFault s
      | some s => match storedOr (s.changeWord c v.qrptra fun _ => BitVec.ofNat 64 (i + 1)) s rs 1002 with
        | none => ringFault s
        | some s =>
          let s := s.modQueue q fun v => { v with rindex := i + 1 }
          let p : PacketAt :=
            { queue := q, index := i, ctx := c, intr := (fieldAt pkt 1 1).testBit 1, hold := (fieldAt pkt 1 1).testBit 0, number := v.first + i }
          if v.st = .active then processPacket s p pkt else s.endPacket p 0 [] (doneOf s c pkt) .fail

/-- The dispatcher consumes the packet at the read index, if it is there. -/
def consume (s : State) (q : Nat) : State :=
  let v := s.queue q
  let i := v.rindex
  let slot := slotAt v i
  if !v.consumes || v.heldBack || decide (v.qdbv.toNat ≤ i) then s.forget (.packetConsume q)
  else s.withSectors (.packetConsume q) (Work.ofCtx v.ctx.toNat) (fun s => consumeAsks s v i slot) fun s rs => takePacket s q i slot rs

def execPacketConsume (queue : Nat) (s : State) : Host.Outcome State Fault Refusal := .next (consume s queue)

/-! ## BARRIER passes (R129, R130) -/

/-- What a pass finds. -/
inductive PassEnd | abort | ready | again
deriving DecidableEq, Repr

def barrierLook (s : State) (b : BarrierPkt) : PassEnd :=
  let vs := b.deps.map fun a => (s.recordOf b.ctx a 8).map fun bs => w64At bs 0
  if vs.any fun v => match v with
    | some x => x.msb
    | none => true
  then .abort
  else if vs.all fun v => decide (v = some 0) then .ready else .again

/-- The end of a pass. -/
def passEnds (s : State) (q : Nat) (b : BarrierPkt) : State :=
  let gone := s.modQueue q fun v => { v with bar := none }
  match barrierLook s b with
  | .ready => gone.completePacket b.ctx b.pkt .dec
  | .again => s
  | .abort => (gone.completePacket b.ctx b.pkt .fail).modQueue q fun v =>
      if v.st = .active then v.toError causeAbort b.pkt.index else v

/-- A pass reads every DEPn, here or at its home (R129). -/
def barrierPass (s : State) (q : Nat) : State :=
  match (s.queue q).bar with
  | none => s.forget (.barrierPass q)
  | some b =>
    if s.scopeGone b.scope then
      ((s.forget (.barrierPass q)).modQueue q fun v => { v with bar := none }).completePacket b.ctx b.pkt .dec
    else s.withSectors (.barrierPass q) { ctx := b.ctx, launch := none, scope := b.scope }
      (fun s => b.deps.flatMap fun a => s.wanted (Party.ofCtx b.ctx) .r a 8 8) fun s _ => passEnds s q b

def execBarrierPass (queue : Nat) (s : State) : Host.Outcome State Fault Refusal := .next (barrierPass s queue)

/-! ## `enq` and `enqt` (R441 to R444) -/

/-- The queue an `enq` names. -/
def enqQueue (s : State) (x : Issue) (f : SF) : Src :=
  if f.sel.getLsbD 12 then
    let r := readS s x false (BitVec.ofNat 8 (f.sel.toNat % 256))
    { r with val := BitVec.ofNat 64 (r.val.toNat % 4096) }
  else { val := BitVec.ofNat 64 (f.sel.toNat % 4096), bad := none }

/-- A wave's own party for accesses made once for the wave. -/
def Issue.waveParty (x : Issue) : Party := { ctx := x.g.ctx, gid := some x.ref.gid, priv := none }

def State.wordOf (s : State) (p : Party) (a : W64) : Option Nat :=
  match s.record p a 8 with
  | .ok bs => some (natOfBytes bs)
  | .error _ => none

/-- How one round of the loop of R442 ends: with a status, at a full ring, with accesses that other devices have still to perform (won is the
index taken, once the swap has been made there), or with a swap that another producer forestalled. -/
inductive EnqEnd
  | status (n : Nat)
  | full
  | ask (asks : List RemoteAsk) (won : Option Nat)
  | again

/-- The doorbell of an `enq`, as a write through FUNC (R115). -/
def enqRing (s : State) (q w : Nat) : State := doorbellWrite s (s.queue q).func.toNat (4096 * q) 8 (BitVec.ofNat 64 (w + 1))

/-- The packet goes into the slot taken, here or at its home: bytes 8 to 63, then bytes 0 to 7, then the doorbell. -/
def enqStore (s : State) (p : Party) (q : Nat) (pkt : List Byte) (w : Nat) (rs : List Answered) : State × EnqEnd :=
  let slot := slotAt (s.queue q) w
  match s.putRecord p slot pkt with
  | some t => (enqRing t q w, .status 0)
  | none =>
    let body := newAsks rs (tagAsks 1002 (s.recordAsks p (slot + 8) (pkt.drop 8)))
    let head := newAsks rs (tagAsks 1003 (s.recordAsks p slot (pkt.take 8)))
    if !body.isEmpty then (s, .ask body (some w))
    else if !head.isEmpty then (s, .ask head (some w))
    else (enqRing s q w, .status 0)

/-- CompareSwap64 of the write index at its home, and the value it found there. -/
def swapAsk (s : State) (p : Party) (a : W64) (w : Nat) : List RemoteAsk :=
  match s.access p .rw a 8 8 with
  | .ok [(.remote dv pa va key _ slot, _)] =>
    [{ dev := dv, pa := pa / 32 * 32, lane := some 1001
       op := laneStep .acas key slot (va / 32) (pa % 32) 8 (bytesOfNat 8 (w + 1)) (bytesOfNat 8 w) }]
  | _ => []

def swapFound (s : State) (p : Party) (a : W64) (rs : List Answered) : Option Nat :=
  ((s.loadLines (rs.filter fun r => decide (r.lane = some 1001))).wordOf p a)

/-- The round of the loop with room for the packet behind w others. -/
def enqTake (s : State) (p : Party) (q : Nat) (pkt : List Byte) (w : Nat) (rs : List Answered) : State × EnqEnd :=
  let v := s.queue q
  match s.putRecord p (slotAt v w) pkt, s.changeWordOf p v.qwptra fun _ => BitVec.ofNat 64 (w + 1) with
  | some t, some _ =>
    (match t.changeWordOf p v.qwptra fun _ => BitVec.ofNat 64 (w + 1) with
      | none => (s, .status 3)
      | some t => (enqRing t q w, .status 0))
  | slot, here =>
    if slot.isNone && (s.recordAsks p (slotAt v w) pkt).isEmpty then (s, .status 3)
    else match here with
      | some t => enqStore t p q pkt w rs
      | none =>
        if rs.any fun r => decide (r.lane = some 1001) then
          (if swapFound s p v.qwptra rs = some w then enqStore s p q pkt w rs else (s, .again))
        else if (swapAsk s p v.qwptra w).isEmpty then (s, .status 3)
        else (s, .ask (swapAsk s p v.qwptra w) none)

/-- One round of the loop of R442, with the answers of other devices so far. Differences of indices are exact (R6). -/
def enqRound (s : State) (p : Party) (q : Nat) (pkt : List Byte) (rs : List Answered) : State × EnqEnd :=
  let v := s.queue q
  let u := if rs = [] then s else s.loadLines (rs.filter fun r => r.lane.isNone)
  let asks := (newAsks rs (u.wanted p .rw v.qwptra 8 8 ++ u.wanted p .r v.qrptra 8 8)).dedup
  if !asks.isEmpty then (s, .ask asks none)
  else match u.recordSites p .rw v.qwptra 8 8, u.wordOf p v.qwptra, u.wordOf p v.qrptra with
    | .ok _, some w, some rd => if ringSize v ≤ w - rd then (s, .full) else enqTake s p q pkt w rs
    | _, _, _ => (s, .status 3)

/-- A round, from the start where another producer came first; or the end of one whose index has been taken. -/
def enqNext (s : State) (p : Party) (q : Nat) (pkt : List Byte) (rs : List Answered) (won : Option Nat) : State × EnqEnd × List Answered :=
  match won with
  | some w => let r := enqStore s p q pkt w rs; (r.1, r.2, rs)
  | none => match enqRound s p q pkt rs with
    | (_, .again) => let r := enqRound s p q pkt []; (r.1, r.2, [])
    | r => (r.1, r.2, rs)

/-- The registers of the packet, and its bytes. -/
def enqSrcs (s : State) (x : Issue) (f : SF) : List Src := (List.range 16).map fun i => readS s x false (f.a + BitVec.ofNat 8 i)
def packetBytes (rs : List Src) : List Byte := rs.flatMap fun r => bytesOfNat 4 r.val.toNat

/-- The packet an `enq` keeps while it waits, as eight 64-bit words; its queue, and the index it has taken, while other devices answer. -/
def keepPacket (pkt : List Byte) : List (Nat × W64) := (List.range 8).map fun i => (i, w64At pkt (8 * i))
def keptPacket (e : Entry) : List Byte := (List.range 8).flatMap fun i => bytesOfNat 8 ((aget e.vals i).getD 0).toNat
def keepQueue (q : Nat) (won : Option Nat) : List (Nat × W64) :=
  (8, BitVec.ofNat 64 q) :: (match won with
    | some w => [(9, BitVec.ofNat 64 w)]
    | none => [])
def keptQueue (e : Entry) : Nat := ((aget e.vals 8).getD 0).toNat
def keptIndex (e : Entry) : Option Nat := (aget e.vals 9).map fun w => w.toNat

/-- The end of an `enq` or `enqt` with its status. -/
def enqFinish (s : State) (x : Issue) (i : Instr) (st : Nat) : State :=
  match i with
  | .enqt h f => finish s x h ((Mask.lanes (x.exec h)).foldl (fun w l => w.putPred f.d.toNat l (decide (st = 0))) x.w)
  | .enq h f => finishGroup s x h fun g => g.putSregs x.ref.wi s.free f.d.toNat [BitVec.ofNat 32 st]
  | _ => s

/-- What a round leaves: the end of the instruction, an `enq` that waits at a full ring, an entry HELD while other devices answer. -/
def enqLeaves (s : State) (x : Issue) (i : Instr) (q : Nat) (pkt : List Byte) (r : State × EnqEnd × List Answered) : State :=
  let h := hdrOf i
  let waiting := decide (x.e.st = .wait (.enq q))
  match r with
  | (t, .status st, _) => enqFinish t x i st
  | (_, .full, _) =>
    if waiting then s.setWave x.ref.gid x.ref.wi (x.w.setEntry x.ref.slot (some { x.e with remote := [] }))
    else (match i with
      | .enqt .. => enqFinish s x i 4
      | _ => s.setWave x.ref.gid x.ref.wi (x.w.setEntry x.ref.slot (some
          { (x.e.arm h x.w.nextSeq) with
            st := .wait (.enq q), insn := some i, exec := x.exec h, vals := keepPacket pkt, since := s.clk, pass := 0 })))
  | (t, .ask asks won, rs) =>
    (t.sendAsks (.entry x.ref) x.work asks).setWave x.ref.gid x.ref.wi (x.w.setEntry x.ref.slot (some
      { (x.e.arm h x.w.nextSeq) with
        st := if waiting then x.e.st else .held .remote, insn := some i, exec := x.exec h, vals := keepPacket pkt ++ keepQueue q won
        remote := rs ++ unanswered t.mgmt.nextAccess asks, pass := 0 }))
  | (t, .again, _) => t

/-- The first checks of R442, then a round. -/
def enqGo (s : State) (x : Issue) (i : Instr) (q : Nat) (pkt : List Byte) : State :=
  let v := s.queue q
  let t := fieldAt pkt 0 1
  if v.ctx.toNat ≠ x.g.ctx ∨ v.st ≠ .active then enqFinish s x i 1
  else if t = 0 ∨ 6 ≤ t then enqFinish s x i 2
  else enqLeaves s x i q pkt (enqNext s x.waveParty q pkt [] none)

def execEnq (h : Hdr) (f : SF) (s : State) : Host.Outcome State Fault Refusal :=
  withIssuer s fun x =>
    let rs := enqSrcs s x f
    let qr := enqQueue s x f
    oncePerWave s x h (qr :: rs) (enqGo s x (.enq h f) qr.val.toNat (packetBytes rs))

def execEnqt (h : Hdr) (f : SF) (s : State) : Host.Outcome State Fault Refusal :=
  withIssuer s fun x =>
    let rs := enqSrcs s x f
    let qr := enqQueue s x f
    oncePerWave s x h (qr :: rs) (enqGo s x (.enqt h f) qr.val.toNat (packetBytes rs))

/-- An `enq` or `enqt` goes on once other devices have answered. -/
def enqResume (s : State) (x : Issue) (i : Instr) : State :=
  let q := keptQueue x.e
  let pkt := keptPacket x.e
  enqLeaves s x i q pkt (enqNext s x.waveParty q pkt x.e.remote (keptIndex x.e))

/-- A waiting `enq` tries again. A RATLINE hold keeps it in WAIT (R536). -/
def enqRetry (s : State) (r : EntryRef) : State :=
  match s.issueOf r with
  | none => s
  | some x =>
    match x.e.st, x.e.insn, x.g.place with
    | .wait (.enq q), some (.enq h f), .resident _ =>
      if s.held || x.e.remote.any Answered.open_ then s
      else if (s.queue q).st ≠ .active then enqFinish s x (.enq h f) 1
      else match enqRound s x.waveParty q (keptPacket x.e) [] with
        | (_, .full) => s
        | r => enqLeaves s x (.enq h f) q (keptPacket x.e) (r.1, r.2, [])
    | _, _, _ => s

def execEnqRetry (at_ : EntryRef) (s : State) : Host.Outcome State Fault Refusal := .next (enqRetry s at_)

/-! ## The stall (R444) -/

/-- The stall time of a context's tenant in clocks: 100 ms where the manager has set none. -/
def State.stallClocks (s : State) (ctx : Nat) : Nat :=
  let ns := match s.tenantOf ctx with
    | some t => (aget s.mgmt.stallNs t).getD 100000000
    | none => 100000000
  (ns * 27 + 9) / 10

/-- VALUE of QUEUE_STALL. -/
def stallValue (q : Nat) (g : Group) : W64 := BitVec.ofNat 64 (q + 2 ^ 16 * g.queue)

/-- A wave that has waited in one `enq` for the stall time: time passes up to then, and if the ring is still full its entry parks. -/
def queueStall (s : State) (r : EntryRef) : State :=
  match s.issueOf r with
  | none => s
  | some x =>
    match x.e.st, x.g.place with
    | .wait (.enq q), .resident _ =>
      let full := decide ((s.queue q).st = .active) && (match (enqRound s x.waveParty q (keptPacket x.e) []).2 with
        | .full | .ask .. => true
        | _ => false)
      if !full || s.held || x.e.remote.any Answered.open_ then s
      else (s.advanceTo (x.e.since + s.stallClocks x.g.ctx).toNat).setWave r.gid r.wi
        (x.w.parkEntry r.slot x.e .queueStall (stallValue q x.g)).settle
    | _, _ => s

def execQueueStall (at_ : EntryRef) (s : State) : Host.Outcome State Fault Refusal := .next (queueStall s at_)

end Sys2Proof.Machine
end

