-- ==== Sys2Proof/Machine/Tasks.lean ====
section
/-! DEFINITION. Tasks: task records, `spawn` and the examination of tasks (R445 to R448). -/

namespace Sys2Proof.Machine

def taskPool : Nat := 65536

/-- A task record's fields within their limits (R445). -/
def taskRecordOk (bs : List Byte) : Bool :=
  let al := fun o => decide ((w64At bs o).toNat % 8 = 0)
  let n := fieldAt bs 0x1C 1
  al 0x00 && al 0x08 && al 0x10 && decide (n ≤ 4) && decide (fieldAt bs 0x1D 1 < 2) && decide (fieldAt bs 0x1E 1 = 1) &&
  decide (fieldAt bs 0x1F 1 = 0) &&
  ((List.range 4).all fun i => al (0x20 + 8 * i) && (decide (i < n) || decide (w64At bs (0x20 + 8 * i) = 0)))

/-- The await words of a record. -/
def awaitWords (bs : List Byte) : List W64 := (List.range (fieldAt bs 0x1C 1)).map fun i => w64At bs (0x20 + 8 * i)

/-- The tagged word that an await address names (R446). -/
def State.awaitAt (s : State) (ctx : Nat) (a : W64) : Option Site :=
  if spaceOf a = some .global then
    match s.translate ctx .r a.toNat with
    | .ok t => if t.taggable then some t else none
    | .error _ => none
  else none

/-- Every await word reads FULL (R447). -/
def State.awaitsFull (s : State) (t : Task) : Bool :=
  t.awaits.all fun a => match s.awaitAt t.ctx a with
    | some t => s.fullAt t
    | none => false

/-- The await words at other devices, whose homes are asked for their states. -/
def awaitAsks (s : State) (t : Task) : List RemoteAsk :=
  t.awaits.flatMap fun a => match s.awaitAt t.ctx a with
    | some t => readAsks [(t, 8)]
    | none => []

/-- The examination of a PENDING task (R447). -/
def taskExamine (s : State) (n : Nat) : State :=
  match aget s.tasks n with
  | none => s.forget (.taskExamine n)
  | some t =>
    if decide (t.st = .pending) then
      s.withSectors (.taskExamine n) { ctx := t.ctx, launch := none, scope := t.scope } (fun u => awaitAsks u t) fun s _ =>
        if s.awaitsFull t then { s with tasks := aput n { t with st := .ready, order := s.order } s.tasks, order := s.order + 1 } else s
    else s.forget (.taskExamine n)

def execTaskExamine (task : Nat) (s : State) : Host.Outcome State Fault Refusal := .next (taskExamine s task)

/-- Creates a task and examines it. -/
def State.addTask (s : State) (t : Task) : State :=
  taskExamine { s with tasks := aput s.nextTask t s.tasks, nextTask := s.nextTask + 1 } s.nextTask

/-- `spawn` on a record (R446): the state and the status. -/
def spawnRecord (s : State) (x : Issue) (bs : List Byte) : State × Nat :=
  let sc := if w32At bs 0x18 = 0 then x.g.scope else w32At bs 0x18
  let full := decide (taskPool ≤ s.tasks.length)
  let child := (fieldAt bs 0x1D 1).testBit 0
  let task := fun (scope auto : W32) =>
    { entry := w64At bs 0, args := w64At bs 8, done := w64At bs 0x10, scope := scope, autoScope := auto, awaits := awaitWords bs
      st := TaskSt.pending, ctx := x.g.ctx, queue := x.g.queue, launch := x.g.launch, order := 0 : Task }
  if !s.inSubtree sc x.g.scope then (s, 4)
  else if !s.scopeLive sc then (s, 1)
  else if (awaitWords bs).any fun a => (s.awaitAt x.g.ctx a).isNone then (s, 2)
  else if full then (s, 3)
  else if child then
    (match s.createChild x.g.ctx sc true false with
      | .error _ => (s, 3)
      | .ok (t, h) => (t.addTask (task h h), 0))
  else (s.addTask (task sc 0), 0)

/-- The end of a `spawn` with its status. -/
def spawnEnds (x : Issue) (h : Hdr) (f : SF) (r : State × Nat) : State :=
  finishGroup r.1 x h fun g => g.putSregs x.ref.wi r.1.free f.d.toNat [if r.2 = 0 then 1 else 0, BitVec.ofNat 32 r.2]

/-- `spawn`: reads the record as one plain load, here or from its home, then creates the task. -/
def spawnAt (s : State) (x : Issue) (a : W64) : State × Nat :=
  match s.record x.waveParty a 64 with
  | .error _ => (s, 2)
  | .ok bs => if taskRecordOk bs then spawnRecord s x bs else (s, 2)

/-- `spawn` on a record's address, with what other devices have answered. -/
def spawnGo (s : State) (x : Issue) (h : Hdr) (f : SF) (a : W64) (rs : List Answered) : State :=
  let asks := newAsks rs (s.wanted x.waveParty .r a 64 8)
  if !asks.isEmpty then
    (s.sendAsks (.entry x.ref) x.work asks).setWave x.ref.gid x.ref.wi (x.w.setEntry x.ref.slot (some
      { (x.e.arm h x.w.nextSeq) with
        st := .held .remote, insn := some (.spawn h f), exec := x.exec h, vals := [(0, a)], pass := 0
        remote := rs ++ unanswered s.mgmt.nextAccess asks }))
  else spawnEnds x h f (spawnAt s x a)

def execSpawn (h : Hdr) (f : SF) (s : State) : Host.Outcome State Fault Refusal :=
  withIssuer s fun x =>
    let a := readS s x true f.a
    oncePerWave s x h [a] (spawnGo s x h f a.val [])

/-- A `spawn` goes on once the record's home has answered. -/
def spawnResume (s : State) (x : Issue) (h : Hdr) (f : SF) : State :=
  let a := (aget x.e.vals 0).getD 0
  let r := spawnAt (s.loadLines x.e.remote) x a
  (spawnEnds x h f r).dropLines

end Sys2Proof.Machine
end

