-- ==== Sys2Proof/Machine/Place.lean ====
section
/-! DEFINITION. Place: ready lists (R163), the dispatcher's round (R164, R165), fitting (R166, R167), and the start of groups on
their cores (R65, R83, R87, R176, R334, R337). -/

namespace Sys2Proof.Machine

/-! ## Ready lists (R163, R448) -/

/-- Saved gangs and tasks of a queue, with their order. -/
def savedHeads (s : State) (ctx q : Nat) : List (Nat × Head) :=
  let gs := s.launches.flatMap fun l =>
    if l.2.queue = q ∧ l.2.ctx = ctx ∧ !l.2.complete then
      ((List.range l.2.gangs.length).zip l.2.gangs).filterMap fun k => if k.2.st = .saved then some (k.2.order, Head.gang l.1 k.1) else none
    else []
  let ts := s.groups.filterMap fun g =>
    match g.2.task.bind fun n => aget s.tasks n with
    | some t => if g.2.place = .saved ∧ g.2.queue = q ∧ g.2.ctx = ctx ∧ !g.2.park then some (t.order, Head.saved g.1) else none
    | none => none
  gs ++ ts

def firstBy (l : List (Nat × Head)) : Option Head := ((sortBy (fun a b => decide (a.1 < b.1)) l).head?).map fun p => p.2

def readyTasks (s : State) (ctx q : Nat) : List (Nat × Head) :=
  s.tasks.filterMap fun t => if t.2.st = .ready ∧ t.2.queue = q ∧ t.2.ctx = ctx then some (t.2.order, Head.task t.1) else none

/-- The lowest-numbered unplaced gang of the oldest launch that has one. -/
def unplacedHead (s : State) (ctx q : Nat) : Option Head :=
  s.launches.findSome? fun l =>
    if l.2.queue = q ∧ l.2.ctx = ctx ∧ !l.2.complete then
      (((List.range l.2.gangs.length).zip l.2.gangs).find? fun k => decide (k.2.st = .unplaced)).map fun k => Head.gang l.1 k.1
    else none

/-- The head of a queue's ready list: saved gangs, then tasks, then unplaced gangs. -/
def State.headOf (s : State) (ctx q : Nat) : Option Head :=
  (firstBy (savedHeads s ctx q)).or ((firstBy (readyTasks s ctx q)).or (unplacedHead s ctx q))

/-- The launch whose record a head runs under. -/
def State.headLaunch (s : State) (h : Head) : Option (Nat × Launch) :=
  let n : Option Nat := match h with
    | .gang l _ => some l
    | .task t => (aget s.tasks t).map fun t => t.launch
    | .saved g => (s.group? g).map fun g => g.launch
  n.bind fun n => (aget s.launches n).map fun l => (n, l)

/-- The class of a head: the lesser of its queue's and its record's. -/
def State.headClass (s : State) (q : Nat) (h : Head) : Nat :=
  match s.headLaunch h with
  | some l => min (s.queue q).pclass.toNat l.2.rcd.pclass
  | none => 0

/-- The queues of a context with something ready, in increasing number. -/
def State.readyQueues (s : State) (ctx : Nat) : List Nat :=
  let ls := s.launches.filterMap fun l => if l.2.ctx = ctx then some l.2.queue else none
  let ts := s.tasks.filterMap fun t => if t.2.ctx = ctx then some t.2.queue else none
  ((ls ++ ts).foldl (fun m q => sins q m) []).filter fun q => (s.headOf ctx q).isSome

/-! ## Loads of cores (R78, R166, R167) -/

/-- What the groups of a core take: wave slots, tiles by quadrant, register and scratchpad bytes, and the split they share. -/
structure CoreLoad where
  slots : List Nat
  tiles : List (Nat × Nat)
  regs : Nat
  spad : Nat
  split : Option (Nat × Nat × Nat)
deriving DecidableEq, Repr

def LaunchRec.split (r : LaunchRec) : Nat × Nat × Nat := (r.regbk, r.spadbk, r.l1bk)

def tilesOf (slot base acct : Nat) : List (Nat × Nat) := (List.range acct).map fun i => (slot / 32, base + i)

/-- Tiles that queued operations of ended waves still use (R329). -/
def State.busyTiles (s : State) (core : Nat) : List (Nat × Nat) :=
  (List.range 4).flatMap fun q =>
    (s.engine (4 * core + q)).ops.flatMap fun op =>
      (op.wave :: op.partner.toList).flatMap fun r => match s.group? r.gid, s.waveOf r with
        | some g, some w => if g.place = .ended then (List.range w.acct).map fun i => (q, w.tileBase + i) else []
        | _, _ => []

/-- A running copy touches the scratchpad of the group that it was accepted from (R387). -/
def Copy.touches (c : Copy) (gid : Nat) : Bool :=
  decide ((c.owner.map fun o => o.1) = some gid) &&
    [c.src, c.dst, c.idx, c.ctr, c.frec].any fun a => decide (spaceOf a = some .spad)

/-- The record a group runs under. -/
def State.recordFor (s : State) (g : Group) : Option LaunchRec := (aget s.launches g.launch).map fun l => l.rcd

/-- What a group that has ended leaves on its core for a time: the scratchpad that copies touch (R387, R494), and the registers that queued
matrix operations read (R328, R329); with either the split stays (R80). -/
def CoreLoad.residue (c : CoreLoad) (s : State) (gid : Nat) (g : Group) (r : LaunchRec) : CoreLoad :=
  let spad := s.copies.any fun k => k.2.touches gid
  let regs := s.opsOf gid
  { c with
    regs := if regs then c.regs + g.waves.length * r.vregs * 4096 else c.regs
    spad := if spad then c.spad + g.scSize + 512 * g.waves.length else c.spad
    split := if regs || spad then some r.split else c.split }

def State.coreLoad (s : State) (core : Nat) : CoreLoad :=
  s.groups.foldl (fun c g =>
    if g.2.place.core? = some core then
      match s.recordFor g.2 with
      | some r =>
        { slots := c.slots ++ g.2.waves.map fun w => w.slot
          tiles := c.tiles ++ g.2.waves.flatMap fun w => tilesOf w.slot w.tileBase w.acct
          regs := c.regs + g.2.waves.length * r.vregs * 4096
          spad := c.spad + g.2.scSize + 512 * g.2.waves.length
          split := some r.split }
      | none => c
    else if g.2.place = .ended ∧ g.2.left = some core then
      match s.recordFor g.2 with
      | some r => c.residue s g.1 g.2 r
      | none => c
    else c) { slots := [], tiles := s.busyTiles core, regs := 0, spad := 0, split := none }

/-- The lowest run of free tiles in a quadrant (R81). -/
def freeRun (c : CoreLoad) (q acct : Nat) : Option Nat :=
  if acct = 0 then some 0
  else (List.range (17 - acct)).find? fun b => (List.range acct).all fun i => !c.tiles.contains (q, b + i)

def freeSlot (c : CoreLoad) (q : Nat) : Option Nat := ((List.range 32).map fun i => 32 * q + i).find? fun n => !c.slots.contains n

/-- One wave takes a slot and tiles in a quadrant. -/
def takeWave (c : CoreLoad) (q acct : Nat) : Option (CoreLoad × (Nat × Nat)) :=
  match freeSlot c q, freeRun c q acct with
  | some n, some b => some ({ c with slots := n :: c.slots, tiles := tilesOf n b acct ++ c.tiles }, (n, b))
  | _, _ => none

/-- Waves of one index of k groups take places in one quadrant (R84). -/
def takeTogether (c : CoreLoad) (q acct : Nat) : Nat → Option (CoreLoad × List (Nat × Nat))
  | 0 => some (c, [])
  | k + 1 => (takeWave c q acct).bind fun p => (takeTogether p.1 q acct k).map fun r => (r.1, p.2 :: r.2)

/-- Places for the waves of k groups: the lowest quadrant that holds each index. -/
def takeWaves (c : CoreLoad) (acct k : Nat) : Nat → Option (CoreLoad × List (List (Nat × Nat)))
  | 0 => some (c, [])
  | n + 1 =>
    (takeWaves c acct k n).bind fun p =>
      ((List.range 4).findSome? fun q => takeTogether p.1 q acct k).map fun r => (r.1, p.2 ++ [r.2])

/-- One unit, a group or a twin pair of k = 2, on one core: places by wave index, then by member. -/
def takeUnit (c : CoreLoad) (r : LaunchRec) (waves scratch k : Nat) : Option (CoreLoad × List (List (Nat × Nat))) :=
  let regs := c.regs + k * waves * r.vregs * 4096
  let spad := c.spad + k * (scratch + 512 * waves)
  if c.split.all (fun x => decide (x = r.split)) && decide (regs ≤ r.regbk * 32768) && decide (spad ≤ r.spadbk * 32768) then
    (takeWaves c r.acct k waves).map fun p => ({ p.1 with regs := regs, spad := spad, split := some r.split }, p.2)
  else none

/-- A core that may take work: not fenced off. One without power wakes for it (R482). -/
def State.coreUsable (s : State) (core : Nat) : Bool :=
  !s.mgmt.fenced.any fun u => match u with
    | .sramRow c _ _ => decide (c = core)
    | .laneSlice c _ => decide (c = core)
    | .engine c _ => decide (c = core)
    | _ => false

/-- The cores of a cluster with their loads, those whose split matches first. -/
def clusterLoads (s : State) (cl : Nat) (r : LaunchRec) : List (Nat × CoreLoad) :=
  let all := ((List.range 4).map fun i => 4 * cl + i).filter s.coreUsable
  let cs := all.map fun c => (c, s.coreLoad c)
  (cs.filter fun c => decide (c.2.split = some r.split)) ++ cs.filter fun c => decide (c.2.split = none)

/-- A place found for a unit: its core, and the places of its waves. -/
abbrev UnitPlace := Nat × List (List (Nat × Nat))

/-- The first core that takes a unit. -/
def takeOn (r : LaunchRec) (waves scratch k : Nat) : List (Nat × CoreLoad) → Option (List (Nat × CoreLoad) × UnitPlace)
  | [] => none
  | (core, c) :: rest =>
    match takeUnit c r waves scratch k with
    | some p => some ((core, p.1) :: rest, (core, p.2))
    | none => (takeOn r waves scratch k rest).map fun q => ((core, c) :: q.1, q.2)

/-- Places for units of the same kind, given by their sizes, with what is left. -/
def takeAll (r : LaunchRec) (waves scratch : Nat) : List Nat → List (Nat × CoreLoad) → Option (List UnitPlace × List (Nat × CoreLoad))
  | [], cs => some ([], cs)
  | k :: ks, cs => (takeOn r waves scratch k cs).bind fun p => (takeAll r waves scratch ks p.1).map fun us => (p.2 :: us.1, us.2)

/-- The places of pairs and of single groups in the order of their units. -/
def inUnitOrder : List Nat → List UnitPlace → List UnitPlace → List UnitPlace
  | [], _, _ => []
  | k :: ks, ps, ls =>
    if k = 2 then (ps.head?).toList ++ inUnitOrder ks ps.tail ls else (ls.head?).toList ++ inUnitOrder ks ps ls.tail

/-- Places for the units of a gang (R166): pairs first, since single groups fit in whatever room is left of them wherever they stand. -/
def takeUnits (r : LaunchRec) (waves scratch : Nat) (ks : List Nat) (cs : List (Nat × CoreLoad)) : Option (List UnitPlace) :=
  (takeAll r waves scratch (ks.filter fun k => decide (k = 2)) cs).bind fun ps =>
    (takeAll r waves scratch (ks.filter fun k => decide (k ≠ 2)) ps.2).map fun ls => inUnitOrder ks ps.1 ls.1

/-! ## What a head asks for -/

/-- Members of a saved gang that come back, by pairs where both twins do (R84, R87). -/
def unitsOf (s : State) (twin : Bool) : List Nat → List (List Nat)
  | [] => []
  | [a] => if (s.group? a).any fun g => decide (g.place = .saved) then [[a]] else []
  | a :: b :: rest =>
    let ok := fun i => (s.group? i).any fun g => decide (g.place = .saved)
    if twin then (let u := [a, b].filter ok
      (if u = [] then [] else [u]) ++ unitsOf s twin rest)
    else (if ok a then [[a]] else []) ++ unitsOf s twin (b :: rest)

/-- The sizes of the units of a head, its waves per group and its scratchpad. -/
structure Ask where
  rcd : LaunchRec
  waves : Nat
  units : List Nat
  ctx : Nat
  slots : Nat
deriving DecidableEq, Repr

def State.askOf (s : State) (h : Head) : Option Ask :=
  (s.headLaunch h).bind fun l =>
    let r := l.2.rcd
    match h with
    | .task _ => some { rcd := r, waves := 1, units := [1], ctx := l.2.ctx, slots := 1 }
    | .saved _ => some { rcd := r, waves := 1, units := [1], ctx := l.2.ctx, slots := 0 }
    | .gang _ k => (l.2.gangs[k]?).map fun g =>
      if g.st = .saved then
        { rcd := r, waves := r.waves, units := (unitsOf s r.twin g.groups).map fun u => u.length, ctx := l.2.ctx, slots := 0 }
      else
        { rcd := r, waves := r.waves, units := if r.twin then List.replicate (r.gang / 2) 2 else List.replicate r.gang 1
          ctx := l.2.ctx, slots := r.gang * r.waves }

/-- Private slots in use by a context (R337). -/
def State.pslotsUsed (s : State) (ctx : Nat) : List Nat :=
  s.groups.flatMap fun g => if g.2.ctx = ctx ∧ g.2.isWork then (g.2.waves.filter fun w => !w.ended).map fun w => w.pslot else []

/-- The n lowest numbers from a bound on that are not in use, below a limit. -/
def freshNumbers (used : List Nat) (lo limit n : Nat) : Option (List Nat) :=
  let free := ((List.range (min (used.length + n) (limit - lo))).map fun i => lo + i).filter fun i => !used.contains i
  if free.length < n then none else some (free.take n)

/-- Private slots for a head's waves: zeros where the context has no private space. -/
def State.pslotsFor (s : State) (ctx n : Nat) : Option (List Nat) :=
  if s.ctxPsize ctx = 0 then some (List.replicate n 0) else freshNumbers (s.pslotsUsed ctx) 0 (s.ctxPslots ctx) n

/-- FitsNow (R166), with the places. -/
def State.fitsNow (s : State) (cl : Nat) (h : Head) : Option (Ask × List UnitPlace × List Nat) :=
  match s.askOf h with
  | none => none
  | some a =>
    match takeUnits a.rcd a.waves a.rcd.scratch a.units (clusterLoads s cl a.rcd), s.pslotsFor a.ctx a.slots with
    | some us, some ps => some (a, us, ps)
    | _, _ => none

/-- A head fits on a cluster when that is empty (R79, R165). -/
def State.fitsEmpty (s : State) (cl : Nat) (h : Head) : Bool :=
  (s.askOf h).any fun a =>
    let cores := (((List.range 4).map fun i => 4 * cl + i).filter s.coreUsable).map fun c =>
      (c, ({ slots := [], tiles := [], regs := 0, spad := 0, split := none } : CoreLoad))
    (takeUnits a.rcd a.waves a.rcd.scratch a.units cores).isSome

/-! ## New waves and groups (R65, R74, R83, R176) -/

/-- The real lanes of wave i, and its real and helper lanes (R74). -/
def laneCount (r : LaunchRec) (i : Nat) : Nat :=
  let lanes := if r.lanes = 0 then r.waves * 32 else r.lanes
  if i + 1 < r.waves then 32 else lanes - (r.waves - 1) * 32

def lowMask (n : Nat) : Mask := BitVec.ofNat 32 (2 ^ n - 1)

/-- A wave as it starts (R176, R456). -/
def Wave.start (r : LaunchRec) (pc : W64) (real live : Mask) (pslot slot base : Nat) (twin : Bool) : Wave :=
  { entries := some (Entry.fresh { mask := live, pc := pc, pri := 128, faulted := false }) :: List.replicate 7 none
    spill := List.replicate 8 none, regs := [], l0 := [], l1 := [], poison := [], lpoison := [], preds := List.replicate 16 0
    jm := List.replicate 8 0, wb := 0, nregs := 32 * r.vregs, real := real, live := live, pend := [], nextSeq := 0, fpctl := r.fpctl
    fpflags := 0, tcause := 0, tpc := 0, tmask := 0, tdst := 0, tval := [], tvec := r.tvec, uten := decide (r.tvec ≠ 0), inh := false
    brkpark := false, hmask := 0, ptraps := [], faults := [], pslot := pslot, slot := slot, tileBase := base, acct := r.acct
    drainEmpty := false, pair := if twin then .joined else .none, wdefer := [], starve := 0, ended := false, stopping := false
    awaitBaton := false }

/-- The uniform registers of a starting group (R65, R449). -/
def startSregs (preload : List W32) (data args : W64) : List (Nat × W32) :=
  let m := ((List.range preload.length).zip preload).foldl (fun m p => sput 0 p.1 p.2 m) []
  [(252, lo32 data), (253, hi32 data), (254, lo32 args), (255, hi32 args)].foldl (fun m p => sput 0 p.1 p.2 m) m

def LaunchRec.dataAddr (r : LaunchRec) : W64 := if r.datasize = 0 then 0 else r.image + BitVec.ofNat 64 r.dataoff

/-- Tags in use by a context (R334). -/
def State.tagsUsed (s : State) (ctx : Nat) : List Nat := s.groups.filterMap fun g => if g.2.ctx = ctx ∧ g.2.isWork then some g.2.tag else none

def Bar.all : List Bar := List.replicate 16 Bar.start

/-- Group lin of a launch as it starts. -/
def newGroup (ln : Nat) (l : Launch) (lin tag core : Nat) (waves : List Wave) : Group :=
  let r := l.rcd
  { launch := ln, gang := lin / r.gang, rank := lin % r.gang, ctx := l.ctx, scope := l.scope, queue := l.queue
    gx := BitVec.ofNat 32 (lin % r.gridx), gy := BitVec.ofNat 32 (lin / r.gridx % r.gridy), gz := BitVec.ofNat 32 (lin / r.gridx / r.gridy)
    follower := r.twin && decide (lin % 2 = 1), twin := r.twin, task := none, waves := waves
    sregs := startSregs r.preload r.dataAddr r.args, spoison := [], scratch := [], scPoison := [], scSize := r.scratch, bars := Bar.all
    tag := tag, place := .resident core, cause := none, stop := none, park := false, idle := 0 }

/-- The group of a task (R449). -/
def taskGroup (t : Task) (n : Nat) (r : LaunchRec) (tag core : Nat) (wave : Wave) : Group :=
  { launch := t.launch, gang := 0, rank := 0, ctx := t.ctx, scope := t.scope, queue := t.queue, gx := 0, gy := 0, gz := 0, follower := false
    twin := false, task := some n, waves := [wave], sregs := startSregs [] r.dataAddr t.args, spoison := [], scratch := [], scPoison := []
    scSize := r.scratch, bars := Bar.all, tag := tag, place := .resident core, cause := none, stop := none, park := false, idle := 0 }

/-- Tiles read +0 when a wave starts (R83). -/
def State.clearTiles (s : State) (core slot base acct : Nat) : State :=
  s.modEngine (4 * core + slot / 32) fun e => { e with
    tiles := e.tiles.filter fun p => !(decide (1024 * base ≤ p.1) && decide (p.1 < 1024 * (base + acct)))
    tpoison := e.tpoison.filter fun k => !(decide (1024 * base ≤ k) && decide (k < 1024 * (base + acct))) }

def State.addGroup (s : State) (g : Group) : State :=
  let core := (g.place.core?).getD 0
  let s := { s with groups := aput s.nextGid g s.groups, nextGid := s.nextGid + 1 }
  g.waves.foldl (fun s w => s.clearTiles core w.slot w.tileBase w.acct) s

/-- The places of the members of all units, in rank order: the core and the places by wave index. -/
def memberPlaces (us : List UnitPlace) (sizes : List Nat) : List (Nat × List (Nat × Nat)) :=
  (us.zip sizes).flatMap fun u => (List.range u.2).map fun m => (u.1.1, u.1.2.map fun w => w[m]?.getD (0, 0))

/-- A gang starts: every member at once (R87). -/
def startGang (s : State) (ln k : Nat) (l : Launch) (us : List UnitPlace) (a : Ask) (ps : List Nat) (cl : Nat) : State :=
  let r := l.rcd
  let places := memberPlaces us a.units
  let tags := (freshNumbers (s.tagsUsed l.ctx) 1 (2 ^ 24) r.gang).getD []
  let pc := r.image + BitVec.ofNat 64 r.codeoff
  let first := s.nextGid
  let s := ((List.range r.gang).zip places).foldl (fun s m =>
    let waves := ((List.range r.waves).zip m.2.2).map fun w =>
      let n := laneCount r w.1
      Wave.start r pc (lowMask n) (lowMask (4 * ((n + 3) / 4))) (ps[m.1 * r.waves + w.1]?.getD 0) w.2.1 w.2.2 r.twin
    s.addGroup (newGroup ln l (k * r.gang + m.1) (tags[m.1]?.getD 0) m.2.1 waves)) s
  s.modGang ln k fun g => { g with st := .placed, groups := (List.range r.gang).map fun i => first + i, cluster := cl }

/-- A task starts (R449). -/
def startTask (s : State) (n : Nat) (t : Task) (r : LaunchRec) (us : List UnitPlace) (ps : List Nat) : State :=
  match memberPlaces us [1] with
  | (core, (slot, base) :: _) :: _ =>
    let tag := ((freshNumbers (s.tagsUsed t.ctx) 1 (2 ^ 24) 1).getD []).head?.getD 0
    let w := Wave.start r t.entry (BitVec.allOnes 32) (BitVec.allOnes 32) (ps.head?.getD 0) slot base false
    let s := s.addGroup (taskGroup t n r tag core w)
    { s with tasks := aput n { t with st := .running } s.tasks }
  | _ => s

end Sys2Proof.Machine
end

