-- ==== Sys2Proof/Machine/Stops.lean ====
section
/-! DEFINITION. Stops: stopping and saving gangs (R153, R326, R417, R478 to R480), their restore (R327, R482, R492, R493), and the
dispatcher's events (R164, R165). -/

namespace Sys2Proof.Machine

/-! ## Starting a stop (R479) -/

/-- A core wakes: the pending arrivals of its groups are added before any wave issues (R482). -/
def State.wakeCore (s : State) (core : Nat) : State :=
  if s.mgmt.gated.contains core then
    let s := { s with mgmt := { s.mgmt with gated := sdel core s.mgmt.gated } }
    s.groups.foldl (fun s g => if g.2.place = .resident core then s.foldArrivals g.1 else s) s
  else s

/-- The members of a group's gang that run on a core. -/
def State.runningMembers (s : State) (gid : Nat) : List Nat :=
  match s.group? gid with
  | some g => (s.gangMembers gid g).filter fun i => match s.group? i with
    | some m => (match m.place with
      | .resident _ => true
      | _ => false)
    | none => false
  | none => []

/-- Marks a gang for a stop; one under way keeps its kind (R480). -/
def State.startStop (s : State) (gid : Nat) (kind : StopKind) (park : Bool) : State :=
  (s.runningMembers gid).foldl (fun s i =>
    match s.group? i with
    | some g =>
      if g.stop.isSome then s
      else
        let s := match g.place with
          | .resident core => s.wakeCore core
          | _ => s
        (s.haltCopies i true).modGroup i fun g => { g with stop := some kind, park := park, waves := g.waves.map fun w => { w with stopping := !w.ended } }
    | none => s) s

/-! ## Saving (R326, R479, R480) -/

/-- An entry as it is saved: before its instruction when it was HELD, FETCH or YIELD; without words fetched ahead and answers of other devices
(R414); the clocks of an `enq` wait so far. -/
def Entry.saved (e : Entry) (clk : Nat) : Entry :=
  let e := { e with latch := none, remote := [] }
  match e.st with
  | .held _ | .fetch | .yield _ =>
    { e with st := .ready, mark := none, insn := none, exec := 0, done := 0, vals := [], stamp := 0, plan := [] }
  | .wait (.enq _) => { e with since := clk - e.since }
  | _ => e

/-- The machine with the waves of a group at their kill points at a clock: results written, entries saved (R194). -/
def State.haltGroup (s : State) (clk gid : Nat) : State :=
  match s.group? gid with
  | none => s
  | some _ =>
    ((s.landGroup gid).modGroup gid fun g => { g with
      waves := g.waves.map fun w => { w with entries := w.entries.map fun oe => oe.map fun e => e.saved clk, stopping := false } }).haltCopies
      gid true

/-- A wave's share leaves its engine, with the groups of a list. -/
def State.unloadWave (s : State) (gids : List Nat) (r : WaveRef) (w : Wave) : State :=
  match s.engineOf r with
  | none => s
  | some n =>
    let lo := 1024 * w.tileBase
    let hi := 1024 * (w.tileBase + w.acct)
    let inside := fun k => decide (lo ≤ k) && decide (k < hi)
    let s := s.modEngine n fun e => { e with
      tiles := e.tiles.filter fun p => !inside p.1
      tpoison := e.tpoison.filter fun k => !inside k
      ops := s.opsWithout gids e r
      drain := e.drain.filter fun q => decide (q.tag ≠ r) }
    s.dropBaton r

def State.unloadGroup (gids : List Nat) (s : State) (gid : Nat) : State :=
  match s.group? gid with
  | none => s
  | some g => ((List.range g.waves.length).zip g.waves).foldl (fun s p => s.unloadWave gids { gid := gid, wi := p.1 } p.2) s

/-- A stop is counted as a pre-emption (R478). -/
def countedStop : StopKind → Bool
  | .lease | .manager => true
  | _ => false

/-- Saves the gang of a group whose waves have been marked: the image, the freed cores, the ready list (R163, R478, R479). -/
def saveGang (s : State) (gid : Nat) : State :=
  match s.group? gid with
  | none => s
  | some g =>
    match g.stop with
    | none => s
    | some kind =>
      let ms := (s.gangMembers gid g).filter fun i => match s.group? i with
        | some m => m.stop.isSome && (match m.place with
          | .resident _ => true
          | _ => false)
        | none => false
      if s.awaitsRemote ms then s.withdrawWaits fun r => ms.contains r.gid
      else
        let s := ms.foldl (fun s i => s.haltGroup s.clk i) s
        let engines := ms.flatMap fun i => match s.group? i with
          | some m => saveEngines s ms i m
          | none => []
        let cl := g.place.core?.map clusterOf
        let pend := s.mgmt.pendArr.filter fun p => ms.contains (p.1 / 16)
        let s := s.addImage { s.newImage kind g ms with vcl := cl, engines := engines, pendArr := pend }
        let s := ms.foldl (State.unloadGroup ms) (s.leaveFifos ms)
        let s := ms.foldl (fun s i => s.modGroup i fun g => { g with place := .saved, stop := none, idle := 0, unseen := [] }) s
        let s := match g.task with
          | some n => { s with tasks := amod n (fun t => { t with order := s.order }) s.tasks }
          | none => s.modGang g.launch g.gang fun k => { k with st := if g.park then .held else .saved, order := s.order }
        let s := { s with order := s.order + 1 }
        if countedStop kind then s.count g.ctx 11 1 else s

/-- A cluster that the group's context has lost (R153, R168). -/
def State.lostCluster (s : State) (g : Group) : Bool :=
  match g.place with
  | .resident core => decide (s.servedBy (clusterOf core) ≠ some g.ctx)
  | _ => false

/-- GANG_STOP: a lease loss starts here; every stop under way ends here once its accesses have been performed. -/
def gangStop (s : State) (gid : Nat) (kind : StopKind) : State :=
  match s.group? gid with
  | none => s
  | some g =>
    if s.scopeGone g.scope then s
    else
      let s := if kind = .lease && g.stop.isNone && s.lostCluster g then s.startStop gid .lease false else s
      match s.group? gid with
      | some g => if g.stop = some kind then saveGang s gid else s
      | none => s

def execGangStop (group : Nat) (kind : StopKind) (s : State) : Host.Outcome State Fault Refusal := .next (gangStop s group kind)

/-- Every live wave of the group waits (R417). -/
def Group.allWaiting (g : Group) : Bool := g.waves.all fun w => w.ended || w.descheduled

/-- A cluster of a context on which a head fits now. -/
def State.fitsSomewhere (s : State) (ctx : Nat) (h : Head) : Bool := (s.clustersOf ctx).any fun cl => (s.fitsNow cl h).isSome

/-- Every ready gang of a context: those never placed, then tasks and saved gangs as they became READY or were saved. -/
def State.readyHeads (s : State) (ctx : Nat) : List Head :=
  let new := s.launches.flatMap fun l =>
    if l.2.ctx = ctx ∧ !l.2.complete then
      ((List.range l.2.gangs.length).zip l.2.gangs).filterMap fun k => if k.2.st = .unplaced then some (Head.gang l.1 k.1) else none
    else []
  let old := (s.readyQueues ctx).flatMap fun q => savedHeads s ctx q ++ readyTasks s ctx q
  new ++ (sortBy (fun (a b : Nat × Head) => decide (a.1 < b.1)) old).map fun p => p.2

/-- A group that has waited for a whole interval (R417), on a cluster. -/
def State.waitsOn (s : State) (cl gid : Nat) : Bool :=
  match s.group? gid with
  | some g => (match g.place with
    | .resident core => decide (clusterOf core = cl) && decide (2 ≤ g.idle) && g.allWaiting && g.stop.isNone && s.scopeLive g.scope
    | _ => false)
  | none => false

/-- The machine without the gang of a group on its cores. -/
def State.without (s : State) (gid : Nat) : State := (s.runningMembers gid).foldl (fun s i => s.modGroup i fun g => { g with place := .saved }) s

/-- The first of a list of waiting groups whose gangs make room for a head on a cluster when they go one after the other; none where all of them
do not. -/
def State.makeRoom (s : State) (cl : Nat) (h : Head) : List Nat → Option (List Nat)
  | [] => none
  | gid :: rest =>
    if ((s.without gid).fitsNow cl h).isSome then some [gid] else ((s.without gid).makeRoom cl h rest).map fun l => gid :: l

/-- The ready gang that a waiting group's gang gives way to, and the groups whose gangs go: that group's and, if need be, others that wait on its
cluster (R417). The gang is the first ready one of the context that fits on none of its clusters and would then fit there. -/
def State.givesWay (s : State) (gid : Nat) : Option (Nat × Head × List Nat) :=
  match s.group? gid with
  | none => none
  | some g => match g.place with
    | .resident core =>
      let cl := clusterOf core
      if !s.waitsOn cl gid then none
      else
        let others := (s.groups.map fun p => p.1).filter fun i => i != gid && s.waitsOn cl i &&
          (match s.group? i with
            | some m => decide (m.ctx = g.ctx)
            | none => false)
        ((s.readyHeads g.ctx).filter fun h => !s.fitsSomewhere g.ctx h).findSome? fun h =>
          (s.makeRoom cl h (gid :: others)).map fun l => (cl, h, l)
    | _ => none

/-- A gang starts to stop for the dispatcher and is saved, at once where it does not wait for another device. -/
def giveWay (s : State) (gid : Nat) : State :=
  let t := s.startStop gid .dispatch false
  match t.group? gid with
  | some g => if g.stop = some .dispatch then saveGang t gid else t
  | none => t

/-- DISPATCH_SAVE (R417): the gangs of groups that have waited for a whole interval give way to a ready gang, to which their cluster is handed. -/
def dispatchSave (s : State) (gid : Nat) : State :=
  match s.givesWay gid with
  | none => s
  | some (cl, h, gids) =>
    let s := gids.foldl giveWay s
    { s with market := { s.market with handed := aput cl h s.market.handed } }

def execDispatchSave (group : Nat) (s : State) : Host.Outcome State Fault Refusal := .next (dispatchSave s group)

/-! ## Restore (R327, R482, R492, R493) -/

/-- The image that holds a saved group. -/
def State.imageOf (s : State) (gid : Nat) : Option Image :=
  s.mgmt.images.find? fun i => i.gids.contains gid && i.groups.isEmpty

/-- The number of the first check of R492 that fails, 0 for none. -/
def imageCheck (s : State) (i : Image) (r : LaunchRec) : Nat :=
  checkBytes i.bytes i.ctx (s.ctxGen i.ctx) (s.slot i.ikey).key.bits ((s.recordOf i.ctx r.image 256).map fun bs => (imageHdr bs).digest)

/-- A rejected image: its entry, and each of its groups ends as failed (R467, R492). -/
def rejectImage (s : State) (i : Image) (check : Nat) : State :=
  let q := match (i.gids.head?).bind s.group? with
    | some g => g.queue
    | none => 0
  let s := s.addFault
    { dumpid := 0, kind := 2, state := 3, cause := 0, aux := check, ctx := i.ctx, queue := q, origin := i.launch, tag := 0, lanes := 0
      pc := 0, value := 0, image := i.at_, time := 0, gid := 0 }
  i.gids.foldl (fun s gid => s.failGroup gid) s

/-- A wave's saved share enters its new engine (R327). -/
def State.loadShare (s : State) (se : SavedEngine) : State :=
  let r : WaveRef := { gid := se.gid, wi := se.wi }
  match s.engineOf r, s.waveOf r with
  | some n, some w =>
    let off := 1024 * w.tileBase
    s.modEngine n fun e => { e with
      tiles := se.tiles.foldl (fun m p => sput 0 (off + p.1) p.2 m) e.tiles
      tpoison := se.tpoison.foldl (fun m k => sins (off + k) m) e.tpoison
      ops := e.ops ++ se.ops, drain := e.drain ++ se.rows }
  | _, _ => s

/-- The baton of a wave that held it: at once where it is free, else at the head of the FIFO. -/
def State.regainBaton (s : State) (se : SavedEngine) : State :=
  let r : WaveRef := { gid := se.gid, wi := se.wi }
  match s.engineOf r with
  | none => s
  | some n =>
    if !se.baton then s
    else if (s.engine n).holder.isNone then s.grant n r
    else
      let wait := fun (s : State) (q : WaveRef) => s.modWave q.gid q.wi fun w => { w with awaitBaton := true }
      let s := wait (s.modEngine n fun e => { e with fifo := r :: e.fifo }) r
      match s.joinedWith r with
      | some p => wait s p
      | none => s

def State.rejoinFifo (s : State) (se : SavedEngine) : State :=
  let r : WaveRef := { gid := se.gid, wi := se.wi }
  match s.engineOf r with
  | none => s
  | some n =>
    if !se.req then s
    else if (s.engine n).holder.isNone then s.grant n r
    else s.modEngine n fun e => { e with fifo := e.fifo ++ [r] }

/-- A saved group stands on its core again. -/
def State.seatGroup (s : State) (gid core : Nat) (places : List (Nat × Nat)) : State :=
  let s := s.modGroup gid fun g => { g with
    place := .resident core, idle := 0, cause := none
    waves := (g.waves.zip places).map fun p => { p.1 with slot := p.2.1, tileBase := p.2.2 } }
  match s.group? gid with
  | some g => g.waves.foldl (fun s w => s.clearTiles core w.slot w.tileBase w.acct) s
  | none => s

/-- An entry's waits that the clock satisfies, and the clock an `enq` wait counts from. -/
def Entry.resumed (w : Wave) (e : Entry) (clk time : Nat) (held : Bool) : Entry :=
  match e.st with
  | .wait (.enq _) => { e with since := clk - e.since }
  | .wait (.sleep wake) => if wake ≤ time && !held then w.goOn { e with pc := e.pc + 8 } else e
  | _ => e

/-- A wait on a full/empty word is evaluated again, here or at the word's home. -/
def State.reviseWord (s : State) (r : EntryRef) : State :=
  match s.issueOf r with
  | some x => if x.e.st = .wait .fe then memResume s r else s
  | none => s

/-- The waits of a restored group are evaluated again (R415, R482). -/
def State.reviseWaits (s : State) (gid : Nat) : State :=
  let s := s.modGroup gid fun g => { g with
    waves := g.waves.map fun w => { w with entries := w.entries.map fun oe => oe.map fun e => e.resumed w s.clk s.time s.held } }
  let s := s.foldArrivals gid
  let s := (List.range 16).foldl (fun (s : State) k => s.releaseBar gid k) s
  let s := match (s.group? gid).bind s.gangOf with
    | some k => (List.range 8).foldl (fun (s : State) n => s.releaseGbar k n) s
    | none => s
  match s.group? gid with
  | some g => (List.range g.waves.length).foldl (fun s wi =>
      let r : WaveRef := { gid := gid, wi := wi }
      let s := match s.engineOf r with
        | some n => s.serveMpop n r
        | none => s
      (List.range 8).foldl (fun s sl => s.reviseWord { gid := gid, wi := wi, slot := sl }) s) s
  | none => s

/-- Restores groups at their places (R493); the image goes with the last of its groups. -/
def restoreGroups (s : State) (i : Image) (seats : List (Nat × (Nat × List (Nat × Nat)))) : State :=
  let s := seats.foldl (fun s p => s.seatGroup p.1 p.2.1 p.2.2) s
  let mine := i.engines.filter fun e => seats.any fun p => decide (p.1 = e.gid)
  let s := mine.foldl State.loadShare s
  let s := mine.foldl State.regainBaton s
  let s := mine.foldl State.rejoinFifo s
  let s := seats.foldl (fun s p => (s.reviseWaits p.1).haltCopies p.1 false) s
  { s with mgmt := { s.mgmt with images := ((s.mgmt.images.map fun j =>
      if j.at_ = i.at_ then { j with gids := j.gids.filter fun gid => !seats.any fun p => decide (p.1 = gid) } else j).filter fun j =>
    !(decide (j.at_ = i.at_) && j.gids.isEmpty)) } }

/-- A saved gang, or a saved task's group, comes back at its places, if its image passes its checks. -/
def restoreHead (s : State) (gids : List Nat) (r : LaunchRec) (places : List (Nat × List (Nat × Nat))) : State :=
  match (gids.head?).bind s.imageOf with
  | none => s
  | some i =>
    let c := imageCheck s i r
    if c ≠ 0 then rejectImage s i c else restoreGroups s i (gids.zip places)

/-! ## The dispatcher's round (R164) -/

/-- WEIGHT of a queue; 0 is read as 1. -/
def State.weight (s : State) (q : Nat) : Nat := max 1 (sget 16 s.market.cfgW.qweight q).toNat

/-- Places a head that fits, on cores that wake for it (R482). -/
def placeHead (s : State) (cl : Nat) (h : Head) (f : Ask × List UnitPlace × List Nat) : State :=
  let s := f.2.1.foldl (fun s u => s.wakeCore u.1) s
  match h with
  | .task n =>
    (match aget s.tasks n with
      | some t => startTask s n t f.1.rcd f.2.1 f.2.2
      | none => s)
  | .saved gid => restoreHead s [gid] f.1.rcd (memberPlaces f.2.1 f.1.units)
  | .gang ln k =>
    match aget s.launches ln with
    | none => s
    | some l =>
      match l.gangs[k]? with
      | none => s
      | some g =>
        if g.st = .saved then
          let us := unitsOf s l.rcd.twin g.groups
          let s := restoreHead s us.flatten l.rcd (memberPlaces f.2.1 f.1.units)
          s.modGang ln k fun g => if g.st = .saved then { g with st := .placed, cluster := cl } else g
        else startGang s ln k l f.2.1 f.1 f.2.2 cl

/-- A cluster that is reserved takes only the gang it is reserved for (R165). -/
def State.admitsHead (s : State) (cl : Nat) (h : Head) : Bool :=
  match aget s.market.reserved cl with
  | none => true
  | some r => decide (h = r)

/-- What the placement of a head ends: its reservation and its count of intervals without a fit. -/
def State.clearFit (s : State) (h : Head) : State :=
  { s with market := { s.market with
    notFitted := s.market.notFitted.filter fun p => decide (p.1 ≠ h)
    reserved := s.market.reserved.filter fun p => decide (p.2 ≠ h) } }

/-- One queue's turn of the round: the state, and whether it placed. -/
def tryQueue (s : State) (cl ctx cls q : Nat) : State × Bool :=
  let w := s.weight q
  let s := s.modQueue q fun v =>
    let d := if v.deficit ≤ 0 then v.deficit + (w * 65536 : Nat) else v.deficit
    { v with deficit := min d ((4 * w * 65536 : Nat) : Int) }
  match s.headOf ctx q with
  | none => (s, false)
  | some h =>
    if (s.queue q).deficit ≤ 0 || !s.admitsHead cl h then (s, false)
    else match s.fitsNow cl h with
      | none => (s, false)
      | some f =>
        let s := (placeHead s cl h f).clearFit h
        ({ s with market := { s.market with rr := sput 0 (8 * ctx + cls) (q + 1) s.market.rr } }, true)

/-- The turns of a ring of queues until one places. -/
def tryRing (s : State) (cl ctx cls : Nat) : List Nat → State × Bool
  | [] => (s, false)
  | q :: qs =>
    let r := tryQueue s cl ctx cls q
    if r.2 then r else tryRing r.1 cl ctx cls qs

/-- The queues of a class from the round's place on. -/
def State.ring (s : State) (ctx cls : Nat) : List Nat :=
  let qs := (s.readyQueues ctx).filter fun q => match s.headOf ctx q with
    | some h => decide (s.headClass q h = cls)
    | none => false
  let at_ := sget 0 s.market.rr (8 * ctx + cls)
  (qs.filter fun q => decide (at_ ≤ q)) ++ qs.filter fun q => decide (q < at_)

/-- The classes from the highest on. -/
def tryClasses (s : State) (cl ctx : Nat) : List Nat → State
  | [] => s
  | cls :: rest =>
    let r := tryRing s cl ctx cls (s.ring ctx cls)
    if r.2 then r.1 else tryClasses r.1 cl ctx rest

/-- A gang of the cluster is stopping. -/
def State.stopsOn (s : State) (cl : Nat) : Bool :=
  s.groups.any fun g => g.2.stop.isSome && decide (g.2.place.core?.map clusterOf = some cl)

/-- A handed cluster takes the gang that it was handed to, once those that gave way have been saved (R417); where that gang no longer waits or
fits, the cluster is free again. -/
def placeHanded (s : State) (cl c : Nat) (h : Head) : State :=
  if s.stopsOn cl then s
  else
    let s := { s with market := { s.market with handed := adel cl s.market.handed } }
    if !(s.readyHeads c).contains h then s
    else match s.fitsNow cl h with
      | some f => (placeHead s cl h f).clearFit h
      | none => s

/-- The sectors of other devices that the image headers of saved gangs at the head of their lists lie in (R492). -/
def headAsks (s : State) (c : Nat) : List RemoteAsk :=
  ((s.readyQueues c).filterMap fun q => s.headOf c q).flatMap fun h =>
    let saved := match h with
      | .saved _ => true
      | .gang ln k => (((aget s.launches ln).bind fun (l : Launch) => l.gangs[k]?).any fun (g : Gang) => decide (g.st = GangSt.saved))
      | .task _ => false
    if saved then ((s.headLaunch h).map fun (l : Nat × Launch) => s.wanted (Party.ofCtx c) .r l.2.rcd.image 256 8).getD [] else []

/-- DISPATCH_PLACE (R154, R164): a cluster that serves a context and holds no other context's groups takes work, unless a RATLINE hold or the
power controller defers it (R533, R536). -/
def dispatchPlace (s : State) (cl : Nat) : State :=
  match if s.held || !s.mgmt.placeBudget then none else s.servedBy cl with
  | none => s.forget (.dispatchPlace cl)
  | some c =>
    if (s.residents cl).any fun d => decide (d ≠ c) then s.forget (.dispatchPlace cl)
    else s.withSectors (.dispatchPlace cl) (Work.ofCtx c) (fun u => headAsks u c) fun s _ =>
      match aget s.market.handed cl with
      | some h => placeHanded s cl c h
      | none => tryClasses s cl c [3, 2, 1, 0]

def execDispatchPlace (cluster : Nat) (s : State) : Host.Outcome State Fault Refusal := .next (dispatchPlace s cluster)

/-- Every queue is charged the group-resident clocks of its groups (R164). -/
def State.chargeQueues (s : State) : State :=
  (s.queues.map fun q => q.1).foldl (fun s q => s.modQueue q fun v => { v with deficit := v.deficit - v.charged, charged := 0 }) s

def execDefCharge (s : State) : Host.Outcome State Fault Refusal := .next s.chargeQueues

/-- A queue with an empty ready list keeps no positive deficit (R164). -/
def State.clampDeficits (s : State) : State :=
  s.queues.foldl (fun s q =>
    if 0 < q.2.deficit && (s.headOf q.2.ctx.toNat q.1).isNone then s.modQueue q.1 fun v => { v with deficit := 0 } else s) s

/-- CLUSTER_RESERVE (R165). A cluster that is reserved for another gang is passed over (DESIGN CHOICE, log entry 87). -/
def clusterReserve (s : State) (q : Nat) : State :=
  let c := (s.queue q).ctx.toNat
  match s.headOf c q with
  | some h =>
    let waited := s.market.notFitted.any fun p => decide (p.1 = h) && decide (2 ≤ p.2)
    let taken := s.market.reserved.any fun p => decide (p.2 = h)
    if waited && !taken && decide (0 < (s.queue q).deficit) && !s.fitsSomewhere c h then
      let free := (s.clustersOf c).filter fun v => (aget s.market.reserved v).isNone && s.fitsEmpty v h
      (match (sortBy (fun a b => decide (a < b)) free).head? with
        | some v => { s with market := { s.market with reserved := aput v h s.market.reserved } }
        | none => s)
    else s
  | none => s

def execClusterReserve (queue : Nat) (s : State) : Host.Outcome State Fault Refusal := .next (clusterReserve s queue)

/-! ## What an interval start records -/

/-- Heads that fit nowhere at this interval start, with the number of such starts since they last fitted (R165). -/
def unfitHeads (s : State) : List (Head × Nat) :=
  let ctxs := (s.launches.map fun l => l.2.ctx).dedup
  ctxs.flatMap fun c => (s.readyQueues c).filterMap fun q => match s.headOf c q with
    | some h =>
      if s.fitsSomewhere c h then none
      else
        let n := match s.market.notFitted.find? fun p => decide (p.1 = h) with
          | some p => p.2
          | none => 0
        some (h, n + 1)
    | none => none

/-- The context of a head. -/
def State.headCtx (s : State) (h : Head) : Option Nat := (s.headLaunch h).map fun l => l.2.ctx

/-- A head is still ready. -/
def State.headReady (s : State) (h : Head) : Bool := (s.headCtx h).any fun c => (s.readyHeads c).contains h

/-- Heads that have come to fit meanwhile begin their count anew, and reservations end with their gangs or when their cluster leaves the
context (R165). -/
def State.refit (s : State) : State :=
  if s.market.notFitted.isEmpty && s.market.reserved.isEmpty then s
  else { s with market := { s.market with
    notFitted := s.market.notFitted.filter fun p => (s.headCtx p.1).any fun c => !s.fitsSomewhere c p.1
    reserved := s.market.reserved.filter fun p => s.headReady p.2 && (s.headCtx p.2).any fun c => (s.clustersOf c).contains p.1 } }

/-- A group's count of interval starts that find all its waves waiting. -/
def Group.countIdle (g : Nat × Group) : Nat × Group := (g.1, { g.2 with idle := if g.2.allWaiting then g.2.idle + 1 else 0 })

/-- Waiting groups and heads without a fit are counted. -/
def trackInterval (s : State) : State :=
  let s := { s with groups := s.groups.map Group.countIdle }
  { s with market := { s.market with notFitted := unfitHeads s } }

def execIntervalStart (s : State) : Host.Outcome State Fault Refusal :=
  .next (if s.running && decide (s.market.phase = .published) then trackInterval (intervalStart s).chargeQueues else s)

end Sys2Proof.Machine
end

