-- ==== Sys2Proof/Machine/Errors.lean ====
section
/-! DEFINITION. Errors: ECC errors and poison (R471), self-test and retirement (R473 to R475), the power controller (R532 to R534), and
power-gated cores (R481, R482). -/

namespace Sys2Proof.Machine

/-! ## Units (R477) -/

/-- UNIT and LOCATION of an entry of the device error log. -/
def unitCode : UnitLoc → Nat
  | .sramRow .. => 1
  | .laneSlice .. => 2
  | .wayColumn .. => 4
  | .hbmRow _ => 5
  | .engine .. => 7

def coreLocation (core part row : Nat) : W64 :=
  BitVec.ofNat 64 (dieOfCluster (clusterOf core) + 2 ^ 8 * core + 2 ^ 16 * part + 2 ^ 24 * row)

/-- The 8 KiB span of a physical address (R474). -/
def spanOf (pa : Nat) : Nat := pa / 8192

def unitLocation : UnitLoc → W64
  | .sramRow core bank row => coreLocation core bank row
  | .laneSlice core part => coreLocation core part 0
  | .wayColumn die way => BitVec.ofNat 64 (die + 2 ^ 8 * way)
  | .hbmRow pa => BitVec.ofNat 64 (8192 * spanOf pa)
  | .engine core quadrant => coreLocation core quadrant 0

/-- The core of a core unit. -/
def unitCore : UnitLoc → Option Nat
  | .sramRow core _ _ => some core
  | .laneSlice core _ => some core
  | .engine core _ => some core
  | _ => none

/-! ## ECC errors (R471) -/

/-- Registers 2056 to 2059 of a vector error name the words of the last-result file: l0 and l1, then their high words. -/
def poisonVector (w : Wave) (reg lane : Nat) : Wave :=
  if 2056 ≤ reg ∧ reg < 2060 then { w with lpoison := sins (64 * (reg - 2056) + lane) w.lpoison }
  else { w with poison := sins (regKey reg lane) w.poison }

def poisonRow (i elem : Nat) (rows : List Row) : List Row := modAt i (fun r => { r with poison := r.poison ||| Mask.one elem }) rows

/-- Marks a word poisoned. -/
def poisonWord (s : State) (e : EccWord) : State :=
  match e with
  | .vector group wave reg lane => s.modWave group wave fun w => poisonVector w reg lane
  | .uniform group reg => s.modGroup group fun g => { g with spoison := sins reg g.spoison }
  | .scratch group off => s.modGroup group fun g => { g with scPoison := sins (off / 4) g.scPoison }
  | .tile engine tile elem => s.modEngine engine fun e => { e with tpoison := sins (1024 * tile + elem) e.tpoison }
  | .drainRow engine row elem => s.modEngine engine fun e => { e with drain := poisonRow row elem e.drain }
  | .memory pa => { s with mem := { s.mem with poison := sins (pa / 4) s.mem.poison } }

/-- The context under whose key slot the first written one of some sectors was written; 0xFFFF where none holds any (log entry 90). -/
def sectorsCtx (s : State) (secs : List Nat) : Nat :=
  (secs.findSome? fun sec => (sget none s.mem.seals sec).bind fun sl =>
    (s.keys.find? fun k => k.2.assigned && decide (k.2.key = sl.key)).map fun k => k.2.owner).getD 0xFFFF

/-- The context whose data a span of HBM holds: an 8 KiB span lies in one page (R347). -/
def spanCtx (s : State) (span : Nat) : Nat := sectorsCtx s ((List.range 256).map fun i => 256 * span + i)

/-- The context whose data an error affects; 0xFFFF where none is known. -/
def wordCtx (s : State) (e : EccWord) : Nat :=
  let ofGroup := fun gid => ((s.group? gid).map fun g => g.ctx).getD 0xFFFF
  match e with
  | .vector group _ _ _ | .uniform group _ | .scratch group _ => ofGroup group
  | .tile engine tile _ =>
    let has := fun g : Group => g.place.core? = some (engine / 4) && g.waves.any fun w =>
      decide (w.slot / 32 = engine % 4) && decide (w.tileBase ≤ tile) && decide (tile < w.tileBase + w.acct)
    ((s.groups.find? fun g => has g.2).map fun g => g.2.ctx).getD 0xFFFF
  | .drainRow engine row _ => (((s.engine engine).drain[row]?).map fun r => ofGroup r.tag.gid).getD 0xFFFF
  | .memory pa => sectorsCtx s [pa / 32]

/-- The groups that hold a core's resources. -/
def State.groupsOn (s : State) (core : Nat) : List Nat := s.groups.filterMap fun g => if g.2.place.core? = some core then some g.1 else none

/-- A unit is fenced off (R473): the groups of a core unit's core are stopped, a way-column's dirty lines are written back. -/
def fenceUnit (s : State) (u : UnitLoc) : State :=
  let s := { s with mgmt := { s.mgmt with fenced := if s.mgmt.fenced.contains u then s.mgmt.fenced else s.mgmt.fenced ++ [u] } }
  match u, unitCore u with
  | _, some core => (s.groupsOn core).foldl (fun (s : State) g => s.startStop g .selftest false) s
  | .wayColumn die way, _ => s.writeBack (fun l => decide (l.die = die) && decide (l.way = way)) true
  | _, _ => s

/-- ECC_ERROR. -/
def eccError (s : State) (e : EccEvent) : State :=
  let ctx := wordCtx s e.word
  let s := if e.corrected then s else poisonWord s e.word
  fenceUnit (s.logError (if e.corrected then 1 else 2) (unitCode e.unit) ctx 1 (unitLocation e.unit)) e.unit

def execEccError (e : EccEvent) (s : State) : Host.Outcome State Fault Refusal := .next (eccError s e)

/-! ## Self-test (R473 to R475) -/

/-- A unit leaves the market at the next freeze (R474). -/
def State.retireUnit (s : State) (u : Nat × Nat × Nat) : State :=
  { s with mgmt := { s.mgmt with outNext := if s.mgmt.outNext.contains u then s.mgmt.outNext else s.mgmt.outNext ++ [u] } }

/-- Sectors of a span with a poisoned word. -/
def badSectors (m : Mem) (span : Nat) : List Nat :=
  (List.range 256).filterMap fun i =>
    let sec := 256 * span + i
    if m.poison.any fun w => decide (w / 8 = sec) then some sec else none

/-- Marks sectors LOST and tells the manager. -/
def markLost (s : State) (span : Nat) (secs : List Nat) : State :=
  if secs = [] then s
  else
    let s := { s with mem := { s.mem with lost := secs.foldl (fun l x => sins x l) s.mem.lost } }
    s.logError 6 5 (spanCtx s span) secs.length (BitVec.ofNat 64 (8192 * span))

/-- The physical number of a cluster, which the spec does not give (log entry 14). -/
def physCluster (v : Nat) : Nat := Config.freeNat 0 (430000 + v) % 256

/-- A unit fails its test (R474, R475); spare says whether a spare is left. -/
def failUnit (s : State) (u : UnitLoc) (spare : Bool) : State :=
  let unfence := fun (s : State) => { s with mgmt := { s.mgmt with fenced := s.mgmt.fenced.filter fun v => decide (v ≠ u) } }
  match u with
  | .wayColumn die way => (s.retireUnit (1, die, way)).logError 5 4 0xFFFF 1 (unitLocation u)
  | .hbmRow pa =>
    let n := spanOf pa
    if spare then markLost ((unfence s).logError 4 5 (spanCtx s n) 1 (unitLocation u)) n (badSectors s.mem n)
    else
      let s := ((unfence s).logError 5 5 (spanCtx s n) 1 (unitLocation u)).logError 7 5 0xFFFF 1 (unitLocation u)
      markLost s n ((List.range 256).map fun i => 256 * n + i)
  | _ =>
    if spare then (unfence s).logError 4 (unitCode u) 0xFFFF 1 (unitLocation u)
    else
      let v := ((unitCore u).map clusterOf).getD 0
      (s.retireUnit (0, v, 0)).logError 5 3 0xFFFF 1 (BitVec.ofNat 64 (v + 2 ^ 8 * physCluster v))

/-- SELF_TEST_DONE: the test of a fenced unit ends, once no group stands on its core. -/
def selfTestDone (s : State) (u : UnitLoc) (passed spare : Bool) : State :=
  if !s.mgmt.fenced.contains u || (unitCore u).any fun core => !(s.groupsOn core).isEmpty then s
  else if passed then
    ({ s with mgmt := { s.mgmt with fenced := s.mgmt.fenced.filter fun v => decide (v ≠ u) } }).logError 3 (unitCode u) 0xFFFF 1 (unitLocation u)
  else failUnit s u spare

def execSelfTestDone (unit : UnitLoc) (passed spare : Bool) (s : State) : Host.Outcome State Fault Refusal :=
  .next (selfTestDone s unit passed spare)

/-! ## Power (R532 to R534) -/

/-- P(w + 1) within what the controller keeps (R533): offered is what the module would draw. -/
def keptPower (m : Mgmt) (offered : Nat) : Nat :=
  let p := m.pwrnow.toNat
  let low := min p (max m.bsfloor.toNat (p - m.bsstep.toNat))
  let a := if m.fsen && !m.thermal then min offered (p + m.fstep.toNat) else offered
  let b := if m.bsen && !m.thermal then max a low else a
  min b 65535

/-- POWER_WINDOW: the mean power of the window and the energy its luffing took; a rise that is limited defers placement. -/
def powerWindow (s : State) (watts luff : Nat) : State :=
  let p := keptPower s.mgmt watts
  { s with mgmt := { s.mgmt with
    pwrnow := BitVec.ofNat 16 p, luffe := s.mgmt.luffe + BitVec.ofNat 64 luff, placeBudget := decide (watts ≤ p) } }

def execPowerWindow (watts luff : Nat) (s : State) : Host.Outcome State Fault Refusal := .next (powerWindow s watts luff)

def execThermalTrip (on : Bool) (s : State) : Host.Outcome State Fault Refusal :=
  .next { s with mgmt := { s.mgmt with thermal := on, placeBudget := s.mgmt.placeBudget || on } }

/-- CORE_POWER_GATE (R481). -/
def gateCore (s : State) (core : Nat) : State :=
  if core < 240 then { s with mgmt := { s.mgmt with gated := sins core s.mgmt.gated } } else s

def execCorePowerGate (core : Nat) (s : State) : Host.Outcome State Fault Refusal := .next (gateCore s core)

def execCoreWake (core : Nat) (s : State) : Host.Outcome State Fault Refusal := .next (s.wakeCore core)

end Sys2Proof.Machine
end

