-- ==== Sys2Proof/Machine/Exchange.lean ====
section
/-! DEFINITION. Exchange: the lane-exchange instructions, opcodes 0x70 to 0x79: waiting for the named lanes (R239 to R242) and what
the participants compute (R243 to R248). -/

namespace Sys2Proof.Machine

/-! ## Values among the participants -/

/-- A source lane of a shuffle within its segment (R243), none when there is no source. -/
def shfdSrc (fn : Nat) (b l : Nat) : Option Nat :=
  let w := 32 / 2 ^ (fn / 4 % 4)
  let sb := w * (l / w)
  let d := b % 256
  let x : Int := if fn % 2 = 0 then ((l - sb : Nat) : Int) + d else ((l - sb : Nat) : Int) - d
  if fn / 2 % 2 = 1 then some (sb + (x % w).toNat)
  else if 0 ≤ x ∧ x < w then some (sb + x.toNat) else none

def shflSrc (fn : Nat) (b l : Nat) : Option Nat :=
  let w := 32 / 2 ^ (fn / 4 % 4)
  some (w * (l / w) + b % 32 % w)

/-- Writes D, or keeps it: a lane that keeps its D updates l0 and l1 with that value, and with its own l0 for the discard (R243). -/
def keepDst (s : State) (x : Issue) (t : Ty) (d : Byte) (l : Nat) (w : Wave) : Wave :=
  if d = 0xFF then w.putLast l (sget 0 x.w.l0 l) else w.putLast l (srcReg x.w s.free t.is64 (x.w.physOf d.toNat) l).val

/-- A shuffle over the participants q (R243). -/
def shufflePerform (s : State) (x : Issue) (f : RF) (q : Mask) (src : Nat → Option Nat) : Wave :=
  let t := WF.ty f
  (Mask.lanes q).foldl (fun w l =>
    match src l with
    | some k => if q.getLsbD k then w.putDst f.d t.is64 l (readSrc s x t f.a k).val else keepDst s x t f.d l w
    | none => keepDst s x t f.d l w) x.w

/-- `vote` (R244); c is the counted participants. -/
def votePerform (s : State) (x : Issue) (f : RF) (q c : Mask) : Wave :=
  let p := c &&& (x.w.preds[f.a.toNat]?.getD 0)
  let toPred := fun b => (Mask.lanes q).foldl (fun w l => w.putPred f.d.toNat l b) x.w
  let toReg := fun v => (Mask.lanes q).foldl (fun w l => w.putDst f.d false l v) x.w
  match f.fn.toNat with
  | 0 => toPred (decide (p = c))
  | 1 => toPred (decide (p ≠ 0))
  | 2 => toPred (decide (Mask.count p % 2 = 1))
  | 3 => toReg (p.zeroExtend 64)
  | 4 => toReg (BitVec.ofNat 64 (Mask.count p))
  | _ =>
    let vs := (Mask.lanes c).map fun l => (readSrc s x (WF.ty f) f.a l).val
    toPred (vs.all fun v => decide (some v = vs.head?))

/-- The result of `match` in lane l (R245). -/
def matchVal (fn : Nat) (c : List Nat) (a : Nat → W64) (l : Nat) : Nat :=
  let same := c.filter fun i => decide (a i = a l)
  match fn with
  | 0 => (Mask.ofList same).toNat
  | 1 => same.head?.getD 32
  | 2 => (same.filter fun i => decide (i < l)).length
  | _ => (c.map a).dedup.length

def matchPerform (s : State) (x : Issue) (f : RF) (q c : Mask) : Wave :=
  (Mask.lanes q).foldl (fun w l =>
    w.putDst f.d false l (BitVec.ofNat 64 (matchVal f.fn.toNat (Mask.lanes c) (fun i => (readSrc s x (WF.ty f) f.a i).val) l))) x.w

/-- `first` (R246). -/
def firstPerform (s : State) (x : Issue) (f : RF) (q c : Mask) : Wave :=
  let t := WF.ty f
  let fl := (Mask.lanes c).head?.getD 32
  (Mask.lanes q).foldl (fun w l =>
    if f.fn = 1 then w.putDst f.d false l (BitVec.ofNat 64 fl)
    else w.putDst f.d t.is64 l (readSrc s x t f.a (if fl = 32 then l else fl)).val) x.w

/-! ## Reductions and scans (R247, R248) -/

/-- The identity of an operation on a type. -/
def redId (fn : Nat) (t : Ty) : Nat :=
  match fn % 8 with
  | 0 => if t = .f32 then 0x80000000 else 0
  | 1 => if t = .f32 then 0x7F800000 else ((typeMax t) % 2 ^ tyWidth t).toNat
  | 2 => if t = .f32 then 0xFF800000 else ((typeMin t) % 2 ^ tyWidth t).toNat
  | 3 => 2 ^ tyWidth t - 1
  | _ => 0

/-- One combining step with the exceptions it signals. -/
def redOp (fn : Nat) (t : Ty) (rm : Nat) (a b : Nat) : FRes :=
  let w := 2 ^ tyWidth t
  match fn % 8 with
  | 0 => if t = .f32 then faddOf rm (fmtOf .f32) a b else { bits := (a + b) % w, fl := 0 }
  | 1 => if t = .f32 then minMax (fmtOf .f32) false a b
    else { bits := if intOf t b < intOf t a then b else a, fl := 0 }
  | 2 => if t = .f32 then minMax (fmtOf .f32) true a b
    else { bits := if intOf t a < intOf t b then b else a, fl := 0 }
  | 3 => { bits := a &&& b, fl := 0 }
  | 4 => { bits := a ||| b, fl := 0 }
  | _ => { bits := a ^^^ b, fl := 0 }

/-- One level of the reduction: lanes that differ in bit k. -/
def redLevel (fn : Nat) (t : Ty) (rm : Nat) (k : Nat) (p : List Nat × Nat) : List Nat × Nat :=
  let rs := (List.range 32).map fun i =>
    if i.testBit k then ({ bits := p.1[i]?.getD 0, fl := 0 } : FRes)
    else redOp fn t rm (p.1[i]?.getD 0) (p.1[i + 2 ^ k]?.getD 0)
  (rs.map fun r => r.bits, rs.foldl (fun a r => a ||| r.fl) p.2)

def redAll (fn : Nat) (t : Ty) (rm : Nat) (xs : List Nat) : Nat × Nat :=
  let r := (List.range 5).foldl (fun p k => redLevel fn t rm k p) (xs, 0)
  (r.1.head?.getD 0, r.2)

/-- The scan: y of every lane, with the exceptions. -/
def scanAll (fn : Nat) (t : Ty) (rm : Nat) : Nat → List Nat → List Nat × Nat
  | _, [] => ([], 0)
  | acc, x :: xs =>
    let r := redOp fn t rm acc x
    let q := scanAll fn t rm r.bits xs
    ((if fn / 8 = 1 then acc else r.bits) :: q.1, r.fl ||| q.2)

def Entry.atExchange (e : Entry) : Bool := decide (e.st = .held .exchange)

/-- The register word that a lane's result of a waiting `wred` or `wscan` goes to, fixed when its entry issued it (R193). -/
def Wave.exchangeKey (w : Wave) (l : Nat) : Option Nat :=
  w.entries.findSome? fun oe => oe.bind fun e =>
    if e.atExchange then (e.plan.find? fun op => op.lane == l).bind fun op => op.dst else none

/-- The writes of a result to a register word fixed at issue. -/
def keyWrites (k : Option Nat) (is64 : Bool) (v : W64) : List RegWrite :=
  match k with
  | none => []
  | some k => { key := k, val := lo32 v, poison := false } :: (if is64 then [{ key := k + 32, val := hi32 v, poison := false }] else [])

/-- TDST of the trap of a result whose register word was fixed at issue. -/
def tdstKey : Option Nat → W32
  | some k => BitVec.ofNat 32 (k / 32)
  | none => 0xFFFFFFFF

/-- `wred` and `wscan`: one pending result for the wave (R189, R248). FPCTL is the wave's when the exchange is performed: R275 does not say which
value an exchange that waited uses, DESIGN CHOICE, log entry 84. -/
def redPerform (s : State) (x : Issue) (f : RF) (scan : Bool) (q c : Mask) : Wave :=
  let t := WF.ty f
  let fn := f.fn.toNat
  let xs := (List.range 32).map fun i => if c.getLsbD i then (readSrc s x t f.a i).val.toNat else redId fn t
  let ys := if scan then scanAll fn t f.rm.toNat (redId fn t) xs
    else
      let r := redAll fn t f.rm.toNat xs
      (List.replicate 32 r.1, r.2)
  let ws := (Mask.lanes q).flatMap fun l => keyWrites (x.w.exchangeKey l) t.is64 (BitVec.ofNat 64 (ys.1[l]?.getD 0))
  let real := Mask.lanes c
  let fl := if real = [] then 0 else ys.2
  x.w.addPend ws (BitVec.ofNat 32 fl) (fpTrap x.w real (fun _ => fl) (tdstKey ((x.e.plan.head?).bind fun op => op.dst)) x.e.pc)

/-- What the participants q of a lane exchange do; c is the counted ones, helper lanes excluded (R241). -/
def exchangePerform (s : State) (x : Issue) (i : Instr) (q : Mask) : Wave :=
  let c := q &&& x.w.real
  let b := fun (f : RF) l => (readSrc s x .b32 f.b l).val.toNat
  match i with
  | .shfl _ f => shufflePerform s x f q fun l => shflSrc f.fn.toNat (b f l) l
  | .shfx _ f => shufflePerform s x f q fun l => some (l ^^^ (b f l % 32))
  | .shfd _ f => shufflePerform s x f q fun l => shfdSrc f.fn.toNat (b f l) l
  | .qswp _ f => shufflePerform s x f q fun l => some (l ^^^ (f.fn.toNat + 1))
  | .qbc _ f => shufflePerform s x f q fun l => some (4 * (l / 4) + f.b.toNat % 4)
  | .vote _ f => votePerform s x f q c
  | .wred _ f => redPerform s x f false q c
  | .wscan _ f => redPerform s x f true q c
  | .matchLanes _ f => matchPerform s x f q c
  | .firstL _ f => firstPerform s x f q c
  | _ => x.w

/-! ## Waiting and release (R240 to R242) -/

/-- The lanes that a member mask counts: all, but for the wave operations, which take helper lanes as exited (R75, R241). -/
def Wave.exchangeCounts (w : Wave) : Instr → Mask
  | .vote .. | .wred .. | .wscan .. | .matchLanes .. | .firstL .. => w.real
  | _ => 0xFFFFFFFF

/-- The member mask of an entry that waits at an exchange. -/
def Issue.members (x : Issue) (i : Instr) : Mask := x.e.done &&& x.w.exchangeCounts i

/-- The lanes of the other frontier entries that the entry in a slot may still wait for. -/
def Wave.exchangeOthers (w : Wave) (slot : Nat) : Mask :=
  (List.range 8).foldl (fun m i => match w.entry? i with
    | some e => if i = slot || e.atExchange || decide (e.st = .fault) then m else m ||| e.mask
    | none => m) 0

/-- The slots of the entries that wait at a lane exchange at an address. -/
def Wave.exchangeAt (w : Wave) (pc : W64) : List Nat :=
  (List.range 8).filter fun i => match w.entry? i with
    | some e => e.atExchange && decide (e.pc = pc)
    | none => false

/-- The lanes of those entries. -/
def Wave.exchangeHeld (w : Wave) (pc : W64) : Mask :=
  (w.exchangeAt pc).foldl (fun m i => match w.entry? i with
    | some e => m ||| e.mask
    | none => m) 0

/-- Some entry that waits nowhere may still reach the address. -/
def Wave.exchangeLate (w : Wave) : Bool :=
  w.entries.any fun oe => match oe with
    | some e => (match e.st with
      | .ready | .fetch | .yield _ => true
      | .held why => why != .exchange
      | _ => false)
    | none => false

/-- The vector registers that the entries waiting at an address write. -/
def exchangeRegs (x : Issue) (i : Instr) : List Nat :=
  let typed := fun (f : RF) => x.w.vecRegs f.d (if (WF.ty f).is64 then 2 else 1)
  match i with
  | .shfl _ f | .shfx _ f | .shfd _ f | .qswp _ f | .qbc _ f => typed f
  | .matchLanes _ f => x.w.vecRegs f.d 1
  | .firstL _ f => if f.fn = 0 then typed f else x.w.vecRegs f.d 1
  | .vote _ f => if f.fn = 3 ∨ f.fn = 4 then x.w.vecRegs f.d 1 else []
  | .wred _ f | .wscan _ f =>
    (x.w.exchangeAt x.e.pc).flatMap fun j => match x.w.entry? j with
      | some e => e.plan.flatMap fun op => match op.dst with
        | some k => if (WF.ty f).is64 then [k / 32, k / 32 + 1] else [k / 32]
        | none => []
      | none => []
  | _ => []

/-- Performs the exchange at which the entry in a slot waits, for all entries that wait at its address (R240, R241). -/
def exchangeRelease (s : State) (x : Issue) (i : Instr) : State :=
  let m := x.members i
  let slots := x.w.exchangeAt x.e.pc
  let q := slots.foldl (fun q j => match x.w.entry? j with
    | some e => q ||| e.exec
    | none => q) 0
  let widen : W32 := if q &&& x.w.exchangeCounts i &&& ~~~m ≠ 0 then 0x10000 else 0
  let short : W32 := if m &&& x.w.live &&& ~~~(x.w.exchangeHeld x.e.pc) ≠ 0 then 0x20000 else 0
  let w := (exchangePerform s x i q).orFlags (widen ||| short)
  s.setWave x.ref.gid x.ref.wi
    (slots.foldl (fun w j => w.modEntry j fun e => w.goOn { e with pc := e.pc + 8 }) w)

/-- The exchange at which an entry waits can be performed: every named lane's wait has ended, and the engine has read the registers that it writes
(R195, R240). R240 does not say how soon the entries are released then; case 3 of the example of R248 takes in lanes that arrive after the last
named lane has parked, so a release that would leave named lanes short may be put off while other entries may still arrive (log entry 25). -/
def exchangeReady (s : State) (x : Issue) (i : Instr) : Bool :=
  let m := x.members i
  let late := decide (m &&& x.w.live &&& ~~~(x.w.exchangeHeld x.e.pc) ≠ 0) && x.w.exchangeLate
  let ps := s.protectedRegs { gid := x.ref.gid, wi := x.ref.wi }
  x.e.atExchange && decide (m &&& x.w.exchangeOthers x.ref.slot = 0) && !(late && decide (Config.freeNat s.free (450000 + x.ref.slot) % 2 = 0)) &&
    !(!ps.isEmpty && (exchangeRegs x i).any fun r => ps.contains r)

/-- The exchange at which the entry in a slot waits, when it can be performed. -/
def exchangeDue (s : State) (r : EntryRef) : Bool :=
  match s.issueOf r with
  | some x => (match x.e.insn with
    | some i => exchangeReady s x i
    | none => false)
  | none => false

/-- Performs the exchange of the entry in a slot, if it waits still. -/
def exchangeGo (s : State) (r : EntryRef) : State :=
  match s.issueOf r with
  | some x => (match x.e.insn with
    | some i => if x.e.atExchange then exchangeRelease s x i else s
    | none => s)
  | none => s

/-- Releases every lane exchange of a wave whose wait has ended: those whose waits ended together, together (R240). -/
def exchangeWave (s : State) (gid wi : Nat) : State :=
  ((List.range 8).filter fun slot => exchangeDue s { gid := gid, wi := wi, slot := slot }).foldl
    (fun s slot => exchangeGo s { gid := gid, wi := wi, slot := slot }) s

/-- The member mask a word names (R239). -/
def memberMask (s : State) (x : Issue) (c : Byte) : Src :=
  if c = 0xBF then { val := 0xFFFFFFFF, bad := none } else srcSreg x s.free false (c.toNat - 0xC0)

/-- The destinations of a variable-latency exchange, fixed at issue (R193). -/
def exchangePlan (x : Issue) (i : Instr) (q : Mask) : List LaneOp :=
  match i with
  | .wred _ f | .wscan _ f => (Mask.lanes q).map fun l => { lane := l, accs := [], data := [], cmp := [], dst := dstKey x f.d l }
  | _ => []

/-- A lane exchange: with an empty EXEC nothing (R249); else lanes with poisoned sources park, the entry waits for the named
lanes, and the exchange is performed at once when every wait has ended. -/
def laneExchange (s : State) (h : Hdr) (f : RF) (i : Instr) (srcs : Issue → Nat → List Src) : Host.Outcome State Fault Refusal :=
  withIssuer s fun x =>
    if x.exec h = 0 then finish s x h x.w
    else
      let m := memberMask s x f.c
      let fs := poisonFaults x h fun l => m :: srcs x l
      let bad := faultMask fs
      let e := { (x.e.arm h x.w.nextSeq) with
        st := .held .exchange, insn := some i, exec := x.exec h &&& ~~~bad, done := lo32 m.val, stamp := 0, pass := 0
        plan := exchangePlan x i (x.exec h &&& ~~~bad) }
      if x.e.mask &&& ~~~bad = 0 || decide (x.exec h &&& ~~~bad = 0) then finishLanes s x h x.w fs
      else
        let w := x.w.parkLanes x.ref.slot e x.e.pc e.mark fs
        exchangeWave (s.setWave x.ref.gid x.ref.wi (if fs = [] then w else w.settle)) x.ref.gid x.ref.wi

/-- The sources a shuffle reads in a lane. -/
def srcsAB (s : State) (f : RF) (x : Issue) (l : Nat) : List Src := [readSrc s x (WF.ty f) f.a l, readSrc s x .b32 f.b l]
def srcsA (s : State) (f : RF) (x : Issue) (l : Nat) : List Src := [readSrc s x (WF.ty f) f.a l]

def execShfl (h : Hdr) (f : RF) (s : State) : Host.Outcome State Fault Refusal := laneExchange s h f (.shfl h f) (srcsAB s f)
def execShfx (h : Hdr) (f : RF) (s : State) : Host.Outcome State Fault Refusal := laneExchange s h f (.shfx h f) (srcsAB s f)
def execShfd (h : Hdr) (f : RF) (s : State) : Host.Outcome State Fault Refusal := laneExchange s h f (.shfd h f) (srcsAB s f)
def execQswp (h : Hdr) (f : RF) (s : State) : Host.Outcome State Fault Refusal := laneExchange s h f (.qswp h f) (srcsA s f)
def execQbc (h : Hdr) (f : RF) (s : State) : Host.Outcome State Fault Refusal := laneExchange s h f (.qbc h f) (srcsA s f)
def execVote (h : Hdr) (f : RF) (s : State) : Host.Outcome State Fault Refusal :=
  laneExchange s h f (.vote h f) fun x l => if f.fn = 5 then srcsA s f x l else []
def execWred (h : Hdr) (f : RF) (s : State) : Host.Outcome State Fault Refusal := laneExchange s h f (.wred h f) (srcsA s f)
def execWscan (h : Hdr) (f : RF) (s : State) : Host.Outcome State Fault Refusal := laneExchange s h f (.wscan h f) (srcsA s f)
def execMatchLanes (h : Hdr) (f : RF) (s : State) : Host.Outcome State Fault Refusal := laneExchange s h f (.matchLanes h f) (srcsA s f)
def execFirstL (h : Hdr) (f : RF) (s : State) : Host.Outcome State Fault Refusal :=
  laneExchange s h f (.firstL h f) fun x l => if f.fn = 0 then srcsA s f x l else []

end Sys2Proof.Machine
end

