-- ==== Sys2Proof/Machine/Migrate.lean ====
section
/-! DEFINITION. Migrate: PRICE flits from peers (R169, R170), Spinnaker's offers (R171), and the migration of a context at both ends
(R172, R487, R493). -/

namespace Sys2Proof.Machine

/-! ## The peer price table (R170) -/

def peerCount : Nat := 1024

/-- A received PRICE flit. -/
def priceReceive (s : State) (f : PriceFlit) : State :=
  let stale := match aget s.market.peers f.dev with
    | some p => decide (f.number < p.number)
    | none => false
  if decide (peerCount ≤ f.dev) || stale then s
  else { s with market := { s.market with
    peers := aput f.dev { interval := f.interval, age := 0, number := f.number, price := f.price, unsold := f.unsold } s.market.peers } }

def execPriceFlitReceive (flit : PriceFlit) (s : State) : Host.Outcome State Fault Refusal := .next (priceReceive s flit)

/-! ## Spinnaker (R171) -/

/-- Spinnaker's pass on one context; Migrate offers the context to the peer it has chosen. -/
def spinnaker (s : State) (c : Nat) : State :=
  let r := spinPass s c
  match r.2 with
  | some d => { (r.1.send (.offer c d)) with mgmt := { (r.1.send (.offer c d)).mgmt with migrating := aput c d r.1.mgmt.migrating } }
  | none => r.1

def execSpinnaker (ctx : Nat) (s : State) : Host.Outcome State Fault Refusal := .next (spinnaker s ctx)

/-- An offer of a context to a device is open. -/
def State.offered (s : State) (c d : Nat) : Bool := decide (aget s.mgmt.migrating c = some d)

def State.endOffer (s : State) (c : Nat) : State := { s with mgmt := { s.mgmt with migrating := adel c s.mgmt.migrating } }

/-- A refused offer: the device is left out for the next STREAK intervals. -/
def migrationRefused (s : State) (c d : Nat) : State :=
  if !s.offered c d then s
  else
    let streak := match s.tenantOf c with
      | some t => (sget SpinPol.start s.market.cfgW.spin t).streak.toNat
      | none => 1
    let rest := s.market.excluded.filter fun e => decide (e.1 ≠ (c, d))
    let s := { s with market := { s.market with excluded := rest ++ [((c, d), max 1 streak + 1)] } }
    s.endOffer c

def execMigrationRefused (ctx dev : Nat) (s : State) : Host.Outcome State Fault Refusal := .next (migrationRefused s ctx dev)

/-! ## The source (R172) -/

/-- The groups of a context that run on cores. -/
def State.runningOf (s : State) (c : Nat) : List Nat :=
  s.groups.filterMap fun g => match g.2.place with
    | .resident _ => if g.2.ctx = c then some g.1 else none
    | _ => none

/-- Stops and saves what runs. -/
def stopContext (s : State) (c : Nat) (kind : StopKind) : State :=
  let gs := s.runningOf c
  let s := gs.foldl (fun (s : State) g => s.startStop g kind false) s
  gs.foldl (fun s g => match s.group? g with
    | some v => if v.stop.isSome then saveGang s g else s
    | none => s) s

/-- Nothing of a context stands on a core, and no other device has an access of it to answer. -/
def State.offCores (s : State) (c : Nat) : Bool :=
  !(s.groups.any fun g => decide (g.2.ctx = c) && g.2.place.core?.isSome) && !s.mgmt.outAccess.any fun a => decide (a.ctx = c)

/-! ### The image of a context (R487) -/

/-- An entry of SCOPES; the state is coded as `scinfo` codes it (R507). -/
def scopeEntry (p : Nat × ScopeSlot) : List Byte :=
  bytesOfNat 4 (p.1 + 65536 * p.2.gen.toNat) ++ bytesOfNat 4 p.2.parent.toNat ++ bytesOfNat 1 (if p.2.st = .live then 1 else 2) ++
    bytesOfNat 1 p.2.depth ++ bytesOfNat 1 (if p.2.pkt then 1 else 0) ++ bytesOfNat 5 0

/-- The bytes of a QCB (R109). -/
def qcbBytes (v : Queue) : List Byte := (List.range 8).flatMap fun i => bytesOfNat 8 (qcbWord v (8 * i)).toNat

/-- An entry of TASKS: the record, the scope, the state (0 PENDING, 1 READY). -/
def taskEntry (t : Task) : List Byte :=
  bytesOfNat 8 t.entry.toNat ++ bytesOfNat 8 t.args.toNat ++ bytesOfNat 8 t.done.toNat ++ bytesOfNat 4 t.scope.toNat ++ bytesOfNat 1 t.awaits.length ++
    bytesOfNat 1 (if t.autoScope = 0 then 0 else 1) ++ bytesOfNat 1 1 ++ bytesOfNat 1 0 ++ padTo 32 (t.awaits.flatMap fun a => bytesOfNat 8 a.toNat) ++
    bytesOfNat 4 t.scope.toNat ++ bytesOfNat 1 (if t.st = .pending then 0 else 1) ++ bytesOfNat 11 0

/-- The context-wide sections. -/
def ctxSections (m : Migrant) : List Section :=
  let scopes := sortBy (fun (a b : Nat × ScopeSlot) => decide (a.2.depth < b.2.depth)) m.scopes
  let tasks := m.tasks.filter fun t => decide (t.2.st ≠ .running)
  [mkSection 0x0009 ctxIndex 48 (m.bids.flatMap fun b => bytesOfNat 8 b.toNat), countersSection m.counters,
   mkSection 0x000B ctxIndex (16 * scopes.length) (scopes.flatMap scopeEntry),
   mkSection 0x000C ctxIndex (66 * m.queues.length) ((m.queues.flatMap fun q => bytesOfNat 2 q.1) ++ m.queues.flatMap fun q => qcbBytes q.2),
   mkSection 0x000D ctxIndex (80 * tasks.length) (tasks.flatMap fun t => taskEntry t.2)]

/-- The one image of kind MIGRATE that holds every saved gang of a context, with what the context's own sections hold; dumps go beside it. -/
def ctxImage (s : State) (m : Migrant) : Image :=
  let saved := m.images.filter fun i => i.groups.isEmpty
  let gids := (saved.flatMap fun i => i.gids).filter fun gid => (s.group? gid).any fun g => decide (g.place = .saved)
  let key := s.ctxIkey m.ctx
  let k := s.slot key
  let first := (gids.head?).bind s.group?
  let xs := fun (i : Image) => s.imageSections i ++ ctxSections m
  let i : Image :=
    { at_ := 0, size := 0, bytes := [], kind := .migrate, ctx := m.ctx, cgen := m.cgen
      ikey := if k.assigned && k.isLoaded && decide (k.owner = m.ctx) then key else 0
      intno := s.market.intno.toNat, clk := s.clk, time := s.time, vcl := none, launch := (first.map fun g => g.launch).getD 0
      gang := (first.map fun g => g.gang).getD 0, gids := gids, engines := saved.flatMap fun i => i.engines, groups := [], copies := []
      pendArr := m.pendArr, counters := m.counters }
  let h := (first.map s.hdrArgs).getD { device := s.podIndex, gang := 0, queue := 0, digest := [] }
  { i with size := imageSize (xs i), bytes := imageBytes (s.slot i.ikey).key.bits i h (xs i) }

/-- What a context is made of. -/
def contextOf (s : State) (c : Nat) : Migrant :=
  let groups := s.groups.filter fun g => decide (g.2.ctx = c)
  let mine := fun gid => groups.any fun g => decide (g.1 = gid)
  { ctx := c, tenant := (sget CtxMkt.start s.market.cfgA.ctxs c).tenant.toNat, dev := s.podIndex, cgen := s.ctxGen c
    images := s.mgmt.images.filter fun i => decide (i.ctx = c), groups := groups
    bids := ([0, 1, 2, 3, 4, 7] : List Nat).map fun k => sget 0 s.market.pending (leaseKey c k)
    counters := (List.range 16).map fun k => sget 0 s.market.counters (counterKey c k)
    scopes := s.scopes.filter fun p => decide (p.2.st ≠ .free) && decide (p.2.ctx = c)
    queues := s.queues.filter fun q => decide (q.2.st ≠ .free) && decide (q.2.ctx.toNat = c)
    tasks := s.tasks.filter fun t => decide (t.2.ctx = c)
    launches := s.launches.filter fun l => decide (l.2.ctx = c) && !l.2.complete
    copies := s.copies.filter fun k => decide (k.2.ctx = c), pendArr := s.mgmt.pendArr.filter fun p => mine (p.1 / 16) }

/-- A context as it travels: under its one image. -/
def migrantOf (s : State) (c : Nat) : Migrant :=
  let m := contextOf s c
  { m with images := ctxImage s m :: m.images.filter fun i => !i.groups.isEmpty }

/-- The function of a context, and the queue that R172 calls its queue 0: the first whose FUNC names the function. -/
def State.firstQueueOf (s : State) (func : Nat) : Option Queue :=
  (s.queues.find? fun q => decide (q.2.st ≠ .free) && decide (q.2.func.toNat = func)).map fun q => q.2

def State.tellMigration (s : State) (c : Nat) : State :=
  let f := (sget CtxMkt.start s.market.cfgA.ctxs c).func.toNat
  match s.firstQueueOf f with
  | some q => s.interrupt f q.vec.toNat
  | none => s

/-- A queue whose packets have gone with its context. -/
def Queue.left (q : Queue) : Queue := { q with st := .disabled, cause := 0, bar := none, busy := [] }

/-- What the source keeps of a context that has left (steps 3 and 8): its queues DISABLED, its scopes FREE, its generation risen. -/
def dropContext (s : State) (c : Nat) : State :=
  let s := s.bumpGen c
  let s := (s.scopes.filter fun p => decide (p.2.st ≠ .free) && decide (p.2.ctx = c)).foldl (fun s p => s.freeScopeSlot p.1) s
  { s with
    groups := s.groups.filter fun g => decide (g.2.ctx ≠ c)
    tasks := s.tasks.filter fun t => decide (t.2.ctx ≠ c)
    launches := s.launches.filter fun l => decide (l.2.ctx ≠ c)
    copies := s.copies.filter fun k => decide (k.2.ctx ≠ c)
    queues := s.queues.map fun q => if q.2.st ≠ .free ∧ q.2.ctx.toNat = c then (q.1, q.2.left) else q
    market := { s.market with pending := s.market.pending.filter fun p => !(decide (p.1 / 8 = c) && decide (p.1 % 8 ≤ 4)) }
    mgmt := { s.mgmt with images := s.mgmt.images.filter fun i => decide (i.ctx ≠ c) } }

/-- A peer has accepted: the gangs stop and are saved, the image travels, the context leaves. A gang that waits for another device, or
a group whose dump is to come, holds the migration until a later event. -/
def migrationAccepted (s : State) (c d : Nat) : State :=
  if !s.offered c d then s
  else
    let s := stopContext s c .migrate
    if !s.offCores c then s
    else ((dropContext ((s.send (.image d (migrantOf s c))).tellMigration c) c).endOffer c)

def execMigrationAccepted (ctx dev : Nat) (s : State) : Host.Outcome State Fault Refusal := .next (migrationAccepted s ctx dev)

/-! ## The destination (R172, R493) -/

/-- What is added to the numbers of an arriving context's groups, launches, copies and tasks; the numbers of its queues. -/
structure Renumber where
  g : Nat
  l : Nat
  c : Nat
  t : Nat
  q : List (Nat × Nat)
deriving DecidableEq, Repr

/-- The number here of a queue that had a number at the source. -/
def Renumber.queue (n : Renumber) (q : Nat) : Nat := (aget n.q q).getD q

def movedPacket (n : Renumber) (p : PacketRef) : PacketRef := { p with queue := n.queue p.queue }

def movedRef (n : Renumber) (r : WaveRef) : WaveRef := { r with gid := r.gid + n.g }

def Wave.moved (n : Renumber) (w : Wave) : Wave := { w with wdefer := w.wdefer.map (movedRef n) }

def Group.moved (n : Renumber) (g : Group) : Group :=
  { g with launch := g.launch + n.l, queue := n.queue g.queue, task := g.task.map (· + n.t), waves := g.waves.map (Wave.moved n) }

def MatOp.moved (n : Renumber) (o : MatOp) : MatOp := { o with wave := movedRef n o.wave, partner := o.partner.map (movedRef n) }

def SavedEngine.moved (n : Renumber) (e : SavedEngine) : SavedEngine :=
  { e with gid := e.gid + n.g, ops := e.ops.map (MatOp.moved n), rows := e.rows.map fun r => { r with tag := movedRef n r.tag } }

def Copy.moved (n : Renumber) (c : Copy) : Copy :=
  { c with owner := c.owner.map fun o => (o.1 + n.g, o.2), launch := c.launch.map (· + n.l), packet := c.packet.map (movedPacket n) }

def movedArr (n : Renumber) (p : List (Nat × W32)) : List (Nat × W32) := p.map fun a => (a.1 + 16 * n.g, a.2)

def Image.moved (n : Renumber) (i : Image) : Image :=
  { i with
    launch := i.launch + n.l, gids := i.gids.map (· + n.g), engines := i.engines.map (SavedEngine.moved n)
    groups := i.groups.map fun g => (g.1 + n.g, g.2.moved n), copies := i.copies.map fun c => (c.1 + n.c, c.2.moved n)
    pendArr := movedArr n i.pendArr }

def Gang.moved (n : Renumber) (k : Gang) : Gang :=
  let at_ := fun l : List (Nat × Nat) => l.map fun p => (p.1 + n.g, p.2)
  { k with groups := k.groups.map (· + n.g), garr := k.garr.map at_, killed := at_ k.killed }

def movedTask (n : Renumber) (t : Task) : Task := { t with launch := t.launch + n.l, queue := n.queue t.queue }

def Launch.moved (n : Renumber) (l : Launch) : Launch := { l with queue := n.queue l.queue, gangs := l.gangs.map (Gang.moved n) }

/-- Numbers after the last of a list of numbered objects. -/
def nextAfter {α : Type} (l : List (Nat × α)) : Nat := l.foldl (fun n p => max n (p.1 + 1)) 0

/-- The context's number and its scope slots are free here (R493, R516). -/
def slotsFree (s : State) (m : Migrant) : Bool :=
  !s.blocked m.ctx && !(s.scopesInUse.any fun p => decide (p.2.ctx = m.ctx)) &&
  (m.scopes.all fun p => decide ((s.scopeSlot p.1).st = .free))

/-- The numbers that an arriving context's queues get: their own where those are FREE here and no other's, else the lowest FREE ones left (DESIGN
CHOICE, log entry 54). -/
def queueNumbers (s : State) (own : List Nat) : List Nat → List (Nat × Nat) → List (Nat × Nat)
  | [], m => m
  | q :: qs, m =>
    if (s.queue q).st = .free then queueNumbers s own qs (m ++ [(q, q)])
    else match (List.range queueCount).find? fun k =>
        decide ((s.queue k).st = .free) && !own.contains k && !(m.any fun p => decide (p.2 = k)) with
      | some k => queueNumbers s own qs (m ++ [(q, k)])
      | none => m

/-- The queue numbers of a migrant. -/
def Migrant.renumbered (m : Migrant) (s : State) : List (Nat × Nat) := let own := m.queues.map fun q => q.1; queueNumbers s own own []

/-- The device takes the offer (R172): MIGIN, a VALID entry of the context's tenant, and a free context slot with queues enough. -/
def takesOffer (s : State) (m : Migrant) : Bool :=
  s.market.cfgW.migin && (sget Tenant.start s.market.cfgA.tenants m.tenant).valid && slotsFree s m &&
  decide ((m.renumbered s).length = m.queues.length)

/-- Installs an accepted context: it holds no lease here and is not incumbent until the next clearing (R172). -/
def installMigrant (s : State) (m : Migrant) : State :=
  let n : Renumber := { g := s.nextGid, l := s.nextLaunch, c := s.nextCopy, t := s.nextTask, q := m.renumbered s }
  let others := fun (ls : List (Nat × Lease)) => ls.filter fun l => decide (l.1 / 8 ≠ m.ctx)
  let bids := (([0, 1, 2, 3, 4, 7] : List Nat).zip m.bids).foldl (fun b p => sput 0 (leaseKey m.ctx p.1) p.2 b) s.market.pending
  let counters := ((List.range 16).zip m.counters).foldl (fun b p => sput 0 (counterKey m.ctx p.1) p.2 b) s.market.counters
  let s := m.scopes.foldl (fun s p => s.putScope p.1 p.2) s
  let s := m.queues.foldl (fun (s : State) q => s.modQueue (n.queue q.1) fun _ =>
    { q.2 with bar := q.2.bar.map fun b => { b with pkt := movedPacket n b.pkt } }) s
  let groups : List (Nat × Group) := m.groups.map fun g => (g.1 + n.g, g.2.moved n)
  let launches : List (Nat × Launch) := m.launches.map fun l => (l.1 + n.l, l.2.moved n)
  let copies : List (Nat × Copy) := m.copies.map fun k => (k.1 + n.c, k.2.moved n)
  let tasks : List (Nat × Task) := m.tasks.map fun t => (t.1 + n.t, movedTask n t.2)
  let images := m.images.foldl (fun (l : List Image) i =>
    l ++ [{ (i.moved n) with at_ := ({ s with mgmt := { s.mgmt with images := l } } : State).poolNext }]) s.mgmt.images
  let s := { s with
    groups := s.groups ++ groups, nextGid := s.nextGid + nextAfter m.groups
    launches := s.launches ++ launches, nextLaunch := s.nextLaunch + nextAfter m.launches
    copies := s.copies ++ copies, nextCopy := s.nextCopy + nextAfter m.copies
    tasks := s.tasks ++ tasks, nextTask := s.nextTask + nextAfter m.tasks
    market := { s.market with
      pending := bids, counters := counters, current := others s.market.current, next := others s.market.next, awards := others s.market.awards }
    mgmt := { s.mgmt with
      ctxgen := sput CtxGen.start m.ctx m.cgen s.mgmt.ctxgen, images := images
      pendArr := s.mgmt.pendArr ++ movedArr n m.pendArr } }
  s.count m.ctx 12 1

/-- A migrating context arrives: refused, or accepted and installed. -/
def migrationOffer (s : State) (k : Nat) : State :=
  match s.mgmt.inbound[k]? with
  | none => s
  | some m =>
    let s := { s with mgmt := { s.mgmt with inbound := s.mgmt.inbound.eraseIdx k } }
    if takesOffer s m then (installMigrant s m).send (.accepted m.ctx m.dev)
    else
      let s := if s.blocked m.ctx then s.violation 4 0 0xFF 2 m.ctx 0 0 else s
      s.send (.refused m.ctx m.dev)

def execMigrationOffer (image : Nat) (s : State) : Host.Outcome State Fault Refusal := .next (migrationOffer s image)

end Sys2Proof.Machine
end

