-- ==== Sys2Proof/Machine/Fabric.lean ====
section
/-! DEFINITION. Fabric: links (R518 to R520, R542), accesses between devices (R521), pod time (R522), reductions (R525 to R528), and
RATLINE holds (R535, R536). -/

namespace Sys2Proof.Machine

/-! ## Links -/

def State.countLinkError (s : State) : State := { s with mgmt := { s.mgmt with linkErrs := s.mgmt.linkErrs + 1 } }

/-- A flit of an unknown TYPE is dropped and counted (R519). -/
def execFlitUnknownType (ty : Byte) (s : State) : Host.Outcome State Fault Refusal :=
  .next (if 1 ≤ ty.toNat ∧ ty.toNat ≤ 8 then s else s.countLinkError)

/-- A peer's index that this pod has no device of yet (R542). -/
def State.newPeer (s : State) (port peer : Nat) : Bool :=
  decide (peer < 1024) && decide (peer ≠ s.podIndex) && !s.mgmt.peersAt.any fun p => decide (p.2 = peer) && decide (p.1 ≠ port)

/-- A link trains (R520, R542): at version 1 where both ends offer it, else it stays down and is logged. -/
def linkTraining (s : State) (port : Nat) (versions : List Nat) (peer : Nat) : State :=
  if !s.running || s.mgmt.podidx.isNone || decide (18 ≤ port) then s
  else if versions.contains 1 && s.newPeer port peer then
    { s with mgmt := { s.mgmt with links := aput port 1 s.mgmt.links, peersAt := aput port peer s.mgmt.peersAt, dead := sdel peer s.mgmt.dead } }
  else { s with mgmt := { s.mgmt with links := adel port s.mgmt.links, peersAt := adel port s.mgmt.peersAt, linkErrs := s.mgmt.linkErrs + 1 } }

def execLinkTraining (port : Nat) (versions : List Nat) (peer : Nat) (s : State) : Host.Outcome State Fault Refusal :=
  .next (linkTraining s port versions peer)

/-- A lane that fails retraining is withdrawn (R518, R474, R477). -/
def laneWithdraw (s : State) (lane : Nat) : State :=
  if 72 ≤ lane then s else (s.retireUnit (2, lane, 0)).logError 8 6 0xFFFF 1 (BitVec.ofNat 64 lane)

def execLaneWithdraw (lane : Nat) (s : State) : Host.Outcome State Fault Refusal := .next (laneWithdraw s lane)

/-! ## Accesses for peers (R521) -/

/-- A peer's write of stored bytes: ciphertext, states, poison. -/
def peerWrite (m : Mem) (pa : Nat) (bs : List Byte) (full : Option (BitVec 4)) (bad : Byte) : Mem :=
  let sec := pa / 32
  let old := m.stored sec
  let m := m.putStored sec (old.take (pa % 32) ++ bs ++ old.drop (pa % 32 + bs.length))
  let words := wordsOf pa (min bs.length (32 - pa % 32))
  { m with
    full := match full with
      | some f => (List.range 4).foldl (fun l i => if f.getLsbD i then sins (4 * sec + i) l else sdel (4 * sec + i) l) m.full
      | none => m.full
    poison := words.foldl (fun l w => if bad.getLsbD (w % 8) then sins w l else sdel w l) m.poison }

/-- The runs of neighbouring places in a list of bytes by rising place. -/
def runsOf {α : Type} : List (Nat × α) → List (Nat × List α)
  | [] => []
  | (i, b) :: rest =>
    match runsOf rest with
    | (j, bs) :: more => if j = i + 1 then (i, b :: bs) :: more else (i, [b]) :: (j, bs) :: more
    | [] => [(i, [b])]

/-- The store of a step: its bytes at their places, each with the poison of its word (R340, R471). -/
def stepStore (s : State) (st : HomeStep) (pa : Nat) : State :=
  let plain := xtsDecrypt (s.slot st.slot).key.bits st.unit st.data
  let bytes := ((List.range 32).filter fun k => st.bytes.getLsbD k).map fun k => (k, (plain[k]?.getD 0, st.bad.getLsbD (k / 4)))
  (runsOf bytes).foldl (fun s r =>
    s.writeMarked (.dev (pa / 32 * 32 + r.1) (32 * st.unit + r.1) (s.slot st.slot).key true) r.2) s

/-- The home performs a peer's step on a sector as one (R370, R432, R437; log entry 38). A step of a word in its turn waits behind the waiters
that stand there (R434); one that would consume poison changes nothing, and its issuer finds the poison in the answer (R472). -/
def homeStep (s : State) (r : AccessReq) (st : HomeStep) : State :=
  let words := (List.range 4).map fun i => 4 * (r.pa / 32) + i
  let old := sectorAnswer s.mem (r.pa / 32)
  match stepInsn st with
  | none => serveWords ((stepStore s st r.pa).reply r .done) words
  | some i =>
    let t := stepSite s st r.pa
    if memConsumes i && s.poisonedAt t (stepSpan st).2 then s.reply r old
    else if memWaits i then
      let s := { s with order := s.order + 1, mgmt := { s.mgmt with peerWaits := s.mgmt.peerWaits ++ [{ req := r, stamp := s.order + 1 }] } }
      let s := serveWords s words
      if s.mgmt.peerWaits.any fun p => p.req == r then s.reply r .waiting else s
    else
      let s := if memTagged i then serveWords s words else s
      let a := sectorAnswer s.mem (r.pa / 32)
      serveWords ((performLane s i (stepLane s st) [(t, (stepSpan st).2)]).1.reply r a) words

/-- A peer gives up a step that waits here: that step is answered as withdrawn, unless it has been performed. -/
def withdrawStep (s : State) (r : AccessReq) (id : Nat) : State :=
  let mine := fun (p : PeerWait) => decide (p.req.dev = r.dev) && decide (p.req.id = id)
  let t := (s.mgmt.peerWaits.filter mine).foldl (fun (s : State) p => s.reply p.req .withdrawn) s
  ({ t with mgmt := { t.mgmt with peerWaits := t.mgmt.peerWaits.filter fun p => !mine p } }).reply r .done

/-- The home performs a peer's access on path F and answers. -/
def access (s : State) (r : AccessReq) : State :=
  let sec := r.pa / 32
  match r.op with
  | .withdraw id => withdrawStep s r id
  | op =>
    if physLimit ≤ r.pa then s.reply r .noPage
    else if sec ∈ s.mem.lost then s.reply r .lost
    else match op with
      | .read len => s.reply r (.data (((s.mem.stored sec).drop (r.pa % 32)).take len) (sectorFull s.mem sec) (sectorBad s.mem sec))
      | .write data full bad =>
        serveWords (({ s with mem := peerWrite s.mem r.pa data full bad }).reply r .done) ((List.range 4).map fun i => 4 * sec + i)
      | .step st => homeStep s r st
      | .withdraw _ => s

def execAccess (req : AccessReq) (s : State) : Host.Outcome State Fault Refusal := .next (access s req)

/-! ## Pod time (R522) -/

/-- This device is the live device of lowest pod index. -/
def State.isTimeSource (s : State) : Bool := s.mgmt.peersAt.all fun p => decide (p.2 ∈ s.mgmt.dead) || decide (s.podIndex < p.2)

def execTimeFlitSend (s : State) : Host.Outcome State Fault Refusal :=
  .next (if s.running && s.isTimeSource && !s.mgmt.timeSent then
    { s with mgmt := { (s.send (.time s.time)).mgmt with timeSent := true } } else s)

/-- TIME slews from now on towards the received value plus the link delay. -/
def slewTo (s : State) (t : Nat) : State :=
  { s with timeBase := (s.time : Int) - (s.clk * 10 / 27 : Nat), slew := (t : Int) - s.time, slewAt := s.clk }

def execTimeFlitReceive (time delay : Nat) (s : State) : Host.Outcome State Fault Refusal :=
  .next (if s.running && !s.isTimeSource then slewTo s (time + delay) else s)

/-! ## RATLINE (R535, R536) -/

/-- A flit's values within their limits. -/
def ratlineOk (r : Ratline) : Bool := decide (1 ≤ r.slots) && decide (r.slots ≤ 1024) && decide (1 ≤ r.width) && decide (r.width ≤ 1000000)

def resumeTime (s : State) (r : Ratline) : Nat := r.base + s.podIndex % r.slots * r.width

/-- A RATLINE is received. -/
def ratlineReceive (s : State) (r : Ratline) : State :=
  let rz := resumeTime s r
  if !ratlineOk r || decide (r.epoch ≤ s.mgmt.ratEpoch.toNat) || decide (s.time + 100000000 < rz) then s.violation 9 0 0xFF 2 0xFFFF 0 0
  else { s with mgmt := { s.mgmt with
    ratEpoch := BitVec.ofNat 32 r.epoch
    ratHold := if s.time < rz ∨ s.mgmt.ratHold.isSome then some rz else none } }

def execRatlineFlit (r : Ratline) (s : State) : Host.Outcome State Fault Refusal := .next (ratlineReceive s r)

/-- The rendezvous of a wave after a hold: meetings of waiting issues, or solo issues of a pair that has parted (R320, R321). -/
def State.reviseMeet (s : State) (r : WaveRef) : Nat → State
  | 0 => s
  | n + 1 =>
    match s.arrivals r, s.joinedWith r with
    | [], _ => s
    | as, none => s.soloArrivals as
    | a :: _, some p =>
      match s.arrivals p, s.engineOf r with
      | q :: _, some k =>
        if q.pc ≠ a.pc then s.part r 1 1
        else if s.opsFull k && s.holds r then s.retryEntry (if a.stamp < q.stamp then q.ref else a.ref)
        else (s.meet q a).reviseMeet r n
      | _, _ => s

/-- What a hold kept back in one group. -/
def State.releaseGroup (s : State) (gid : Nat) (g : Group) : State :=
  let s := (List.range 16).foldl (fun (s : State) k => s.releaseBar gid k) s
  (List.range g.waves.length).foldl (fun (s : State) wi =>
    let r : WaveRef := { gid := gid, wi := wi }
    let s := (s.releaseMtake r).reviseMeet r 16
    match s.engineOf r with
    | some n => s.serveMpop n r
    | none => s) s

/-- Ends the waits on memory that are over. -/
def endMemWaits (s : State) : State :=
  s.entryRefs.foldl (fun s r => match s.issueOf r with
    | some x => match x.e.insn with
      | some i => if x.e.st = .wait .mem ∨ x.e.st = .wait .fe then tryEndWait s r (hdrOf i) i false else s
      | none => s
    | none => s) s

/-- Every satisfied wait is released. Sleeps and waits in `enq` follow with their own events. -/
def releaseHeld (s : State) : State :=
  let s := s.groups.foldl (fun s g => match g.2.place with
    | .resident _ => s.releaseGroup g.1 g.2
    | _ => s) s
  let s := s.launches.foldl (fun s l => l.2.gangs.foldl (fun s k => (List.range 8).foldl (fun (s : State) n => s.releaseGbar k n) s) s) s
  endMemWaits s

/-- TIME reaches Rz. -/
def holdEnd (s : State) : State :=
  match s.mgmt.ratHold with
  | none => s
  | some rz =>
    let s := s.advanceTo (s.clkAt rz)
    releaseHeld { s with mgmt := { s.mgmt with ratHold := none } }

def execRatlineHoldEnd (s : State) : Host.Outcome State Fault Refusal := .next (holdEnd s)

/-! ## Reductions (R525 to R528) -/

/-- The fields of a job descriptor. -/
structure JobDesc where
  tenant : Nat
  op : Nat
  ctx : Nat
  parent : Nat
  count : Nat
  src : W64
  dst : W64
  ctr : W64
  cval : W64
  frec : W64
  id : Nat
  children : List Nat
deriving DecidableEq, Repr

def jobDesc (bs : List Byte) : JobDesc :=
  { tenant := fieldAt bs 0 1, op := fieldAt bs 1 1, ctx := fieldAt bs 4 2, parent := fieldAt bs 6 2, count := fieldAt bs 8 8
    src := w64At bs 0x10, dst := w64At bs 0x18, ctr := w64At bs 0x20, cval := w64At bs 0x28, frec := w64At bs 0x30
    id := fieldAt bs 0x38 4, children := (List.range (fieldAt bs 2 1)).map fun i => fieldAt bs (0x40 + 2 * i) 2 }

def JobDesc.size (d : JobDesc) : Nat := if d.op = 0 then 4 else 8
def JobDesc.isRoot (d : JobDesc) : Bool := decide (d.parent = 0xFFFF)

def rising : List Nat → Bool
  | a :: b :: rest => decide (a < b) && rising (b :: rest)
  | _ => true

/-- The limits of R525. -/
def jobDescOk (bs : List Byte) : Bool :=
  let d := jobDesc bs
  decide (d.op ≤ 1) && decide (fieldAt bs 2 1 ≤ 18) && allZero bs 3 1 && decide (d.ctx < 1024) &&
  (d.isRoot || decide (d.parent < 1024)) && decide (d.src.toNat % d.size = 0) && decide (d.dst.toNat % d.size = 0) &&
  decide (d.ctr.toNat % 8 = 0) && decide (d.cval.toNat < 2 ^ 63) && decide (d.frec.toNat % 8 = 0) && allZero bs 0x3C 4 &&
  rising d.children && (d.children.all fun c => decide (c < 1024)) && allZero bs 0x64 28

def State.job? (s : State) (id : Nat) : Option Job := s.mgmt.jobs.find? fun j => j.id == id

def State.putJob (s : State) (j : Job) : State :=
  { s with mgmt := { s.mgmt with jobs := (s.mgmt.jobs.filter fun k => k.id != j.id) ++ [j] } }

/-- CTR's operation, dropped and logged where it fails (R384). -/
def jobCounter (s : State) (d : JobDesc) (ops : List (Nat × W64)) : State :=
  if d.ctr = 0 then s else s.changeOrPost (Work.ofCtx d.ctx) 10 d.ctr 0 ops

/-- A job fails here: the record, then the poisoned counter (R385, R528). -/
def failHere (s : State) (j : Job) (rec : List Byte) : State :=
  let d := jobDesc j.desc
  let s := s.putJob { j with state := 2, got := [], held := [], remote := [], final := none }
  let s := if d.frec = 0 then s else s.storeOrPost (Party.ofCtx d.ctx) 7 d.frec 0 rec
  jobCounter s d [(5, 0)]

/-- The nonce and the additional data of a contribution (log entry 15). -/
def sealIv (child job kgen : Nat) : BitVec 96 := Config.gcmIv child job kgen
def sealAad (job fail : Nat) : List Byte := bytesOfNat 4 job ++ bytesOfNat 1 fail

/-- A flit of a job from this node, sealed under its tenant's current generation; in the clear, without a tag, where the tenant has no key. -/
def jobFlit (s : State) (d : JobDesc) (fail : Nat) (elems : List W64) : Contribution :=
  let plain := elems.flatMap fun v => bytesOfNat d.size v.toNat
  match aget s.mgmt.fabKeys d.tenant with
  | none => { job := d.id, child := s.podIndex, kgen := 0, fail := fail, data := plain, tag := [] }
  | some k =>
    let iv := sealIv s.podIndex d.id k.gen
    let data := gcmCrypt k.key iv plain
    { job := d.id, child := s.podIndex, kgen := k.gen, fail := fail, data := data, tag := gcmTag k.key iv (sealAad d.id fail) data }

/-- The failure of a job travels to every device: up to the root, which broadcasts it. -/
def failJob (s : State) (j : Job) (code : Nat) (rec : List Byte) (fromAbove : Bool) : State :=
  let d := jobDesc j.desc
  let s := failHere s j rec
  if fromAbove then s else s.send (.contribution d.parent (jobFlit s d code []))

/-- A fault record of 16 bytes. -/
def failRecord (code side : Nat) (addr : W64) : List Byte := bytesOfNat 2 (code + 256 * side) ++ bytesOfNat 6 0 ++ bytesOfNat 8 addr.toNat

/-- Fails with a code of R528. -/
def failCode (s : State) (j : Job) (code : Nat) (fromAbove : Bool) : State := failJob s j code (failRecord code 0 0) fromAbove

/-- Add of a job (R527). -/
def jobAdd (op : Nat) (x y : W64) : W64 :=
  if op = 0 then BitVec.ofNat 64 (faddOf 0 (fmtOf .f32) (x.toNat % 2 ^ 32) (y.toNat % 2 ^ 32)).bits else x + y

/-- Element e of a text. -/
def JobDesc.elem (d : JobDesc) (bs : List Byte) (e : Nat) : W64 := BitVec.ofNat 64 (natOfBytes ((bs.drop (d.size * e)).take d.size))

/-- Element e of the node: the local source, then the children in increasing order. -/
def jobElem (s : State) (d : JobDesc) (got : List Contribution) (e : Nat) : Except MFault W64 :=
  match s.record (Party.ofCtx d.ctx) (d.src + BitVec.ofNat 64 (d.size * e)) d.size with
  | .error f => .error f
  | .ok bs => .ok (d.children.foldl (fun x c => match got.find? fun g => g.child == c with
      | some g => jobAdd d.op x (d.elem g.data e)
      | none => x) (BitVec.ofNat 64 (natOfBytes bs)))

def jobSum (s : State) (d : JobDesc) (got : List Contribution) : Except MFault (List W64) := (List.range d.count).mapM (jobElem s d got)

/-- The job's own work at other devices. -/
def jobWork (d : JobDesc) : Work := Work.ofCtx d.ctx

/-- A job waits for what other devices answer. -/
def State.jobSends (s : State) (j : Job) (asks : List RemoteAsk) : State :=
  (s.sendAsks (.job j.id) (jobWork (jobDesc j.desc)) asks).putJob { j with remote := j.remote ++ unanswered s.mgmt.nextAccess asks }

/-- The address of element e at the destination. -/
def JobDesc.dstAt (d : JobDesc) (e : Nat) : W64 := d.dst + BitVec.ofNat 64 (d.size * e)

/-- The values that lie at other devices, each element under its number. -/
def dstAsks (s : State) (d : JobDesc) (vs : List W64) : List RemoteAsk :=
  ((List.range vs.length).zip vs).flatMap fun p => tagAsks p.1 (s.recordAsks (Party.ofCtx d.ctx) (d.dstAt p.1) (bytesOfNat d.size p.2.toNat))

/-- The job is over here: CTR's operation. -/
def jobOver (s : State) (j : Job) : State :=
  let d := jobDesc j.desc
  jobCounter (s.putJob { j with state := 2, got := [], held := [], remote := [], final := none }) d [(4, d.cval)]

/-- The final value is written to DST, here or at its homes, then CTR's operation is performed. -/
def jobStore (s : State) (j : Job) (vs : List W64) : State :=
  let d := jobDesc j.desc
  let asks := dstAsks s d vs
  let r := ((List.range vs.length).zip vs).foldl (fun (r : Option State) p =>
    r.bind fun s => match s.putRecord (Party.ofCtx d.ctx) (d.dstAt p.1) (bytesOfNat d.size p.2.toNat) with
      | some t => some t
      | none => if asks.any fun a => decide (a.lane = some p.1) then some s else none) (some s)
  match r with
  | some t => if asks.isEmpty then jobOver t j else t.jobSends { j with got := [], remote := [], final := some vs } asks
  | none =>
    let bad := (List.range vs.length).findSome? fun e =>
      match s.access (Party.ofCtx d.ctx) .w (d.dstAt e) d.size d.size with
      | .error f => some f
      | .ok _ => none
    failHere s j (match bad with
      | some f => failRecord f.cause.code.toNat 1 f.value
      | none => failRecord 0 1 d.dst)

/-- The homes of the final value have answered. -/
def jobStored (s : State) (j : Job) : State :=
  let refused := j.remote.findSome? fun r => match r.answer with
    | some .lost => some (Cause.vaLost, r.lane.getD 0)
    | some .noPage => some (.pageNotPresent, r.lane.getD 0)
    | _ => none
  match refused with
  | some (c, e) => failHere s { j with remote := [], final := none } (failRecord c.code.toNat 1 ((jobDesc j.desc).dstAt e))
  | none => jobOver s j

/-- The sectors of other devices that the local source lies in. -/
def srcAsks (s : State) (d : JobDesc) : List RemoteAsk :=
  (List.range d.count).flatMap fun e => s.wanted (Party.ofCtx d.ctx) .r (d.src + BitVec.ofNat 64 (d.size * e)) d.size d.size

/-- The node's sum goes on to its parent, or to DST at the root. -/
def jobPass (s : State) (j : Job) (vs : List W64) : State :=
  let d := jobDesc j.desc
  if d.isRoot && d.children.isEmpty then jobStore s j vs
  else if (aget s.mgmt.fabKeys d.tenant).isNone then failCode s j 1 false
  else
    let s := s.send (.contribution d.parent (jobFlit s d 0 vs))
    if d.isRoot then jobStore s j vs else s.putJob { j with state := 1, got := [], remote := [] }

/-- The node adds and passes on once every child's contribution is open and its own source is at hand. -/
def jobTry (s : State) (j : Job) : State :=
  let d := jobDesc j.desc
  if j.state ≠ 0 || j.desc.isEmpty || !(d.children.all fun c => j.got.any fun g => g.child == c) || j.remote.any Answered.open_ then s.putJob j
  else
    let u := if j.remote = [] then s else s.loadLines j.remote
    let asks := (newAsks j.remote (srcAsks u d)).dedup
    if !asks.isEmpty then s.jobSends j asks
    else match jobSum u d j.got with
      | .error f => failJob s j f.cause.code.toNat (failRecord f.cause.code.toNat 0 f.value) false
      | .ok vs => jobPass s j vs

/-- How a generation stands to a node's keys (R526, R528). -/
inductive GenSt | held | opens | stale
deriving DecidableEq, Repr

def State.genOf (s : State) (tenant gen : Nat) : GenSt :=
  match aget s.mgmt.fabKeys tenant with
  | none => .held
  | some k =>
    if gen = k.gen then .opens
    else if k.prev.any fun p => decide (p.1 = gen) then .opens
    else if k.gen < gen then .held else .stale

/-- The key of a generation that the node holds. -/
def State.fabKey (s : State) (tenant gen : Nat) : Option (BitVec 256) :=
  (aget s.mgmt.fabKeys tenant).bind fun k => if gen = k.gen then some k.key else (k.prev.filter fun p => decide (p.1 = gen)).map fun p => p.2

/-- The text of a contribution; none where its tag fails. -/
def State.opened (s : State) (tenant : Nat) (c : Contribution) : Option (List Byte) :=
  (s.fabKey tenant c.kgen).bind fun k => gcmOpen k (sealIv c.child c.job c.kgen) (sealAad c.job c.fail) c.data c.tag

/-- A contribution to an accepted job is opened, held for a KEYGEN, or fails the job; what comes from a device that is no child is the
final value. -/
def openContribution (s : State) (j : Job) (c : Contribution) : State :=
  let d := jobDesc j.desc
  let child := d.children.contains c.child
  if j.state = 2 || (child && decide (j.state ≠ 0)) || (!child && decide (j.state ≠ 1) && decide (c.fail = 0)) ||
      (child && j.got.any fun g => g.child == c.child) then s
  else match s.genOf d.tenant c.kgen with
    | .held => s.putJob { j with held := j.held ++ [(s.clk, c)] }
    | .stale => failCode s j 1 (!child)
    | .opens =>
      match s.opened d.tenant c with
      | none => failCode s j 2 (!child)
      | some text =>
        if c.fail ≠ 0 then failCode s j c.fail (!child)
        else if text.length ≠ d.size * d.count then failCode s j 2 (!child)
        else if child then jobTry s { j with got := j.got ++ [{ c with data := text, tag := [] }] }
        else jobStore s j ((List.range d.count).map (d.elem text))

/-- A contribution arrives; one for a job that no REDUCE has named yet waits for it. -/
def contribution (s : State) (c : Contribution) : State :=
  match s.job? c.job with
  | none => s.putJob { id := c.job, tenant := 0, desc := [], got := [c], held := [], state := 0 }
  | some j => if j.desc.isEmpty then s.putJob { j with got := j.got ++ [c] } else openContribution s j c

def execReduceContribution (c : Contribution) (s : State) : Host.Outcome State Fault Refusal := .next (contribution s c)

/-- A REDUCE command's job: the code of an immediate failure, 0 for none, and none where a job of this number is at work. -/
def acceptJob (s : State) (bs : List Byte) : State × Option Nat :=
  let d := jobDesc bs
  let start := fun (got : List Contribution) =>
    let j : Job := { id := d.id, tenant := d.tenant, desc := bs, got := [], held := [], state := 0 }
    if (d.parent :: d.children).any fun p => decide (p ∈ s.mgmt.dead) then (failCode s j 3 false, some 3)
    else
      let t := jobTry s j
      (got.foldl (fun s c => contribution s c) t, some 0)
  match s.job? d.id with
  | none => start []
  | some j => if j.desc.isEmpty then start j.got else if j.state = 2 then start [] else (s, none)

/-- The contributions of a job that were held are opened again after a KEYGEN. -/
def reopen (s : State) (id : Nat) : State :=
  match s.job? id with
  | none => s
  | some j => j.held.foldl (fun s p => match s.job? id with
      | some k => openContribution s k p.2
      | none => s) (s.putJob { j with held := [] })

/-- KEYGEN (R526): the tenant's new generation, where it is admitted. -/
def installKey (s : State) (tenant gen : Nat) (key : BitVec 256) : Option State :=
  let put := fun prev => ((s.mgmt.jobs.filter fun j => j.tenant = tenant && !j.held.isEmpty).map fun j => j.id).foldl reopen
    { s with mgmt := { s.mgmt with fabKeys := aput tenant { gen := gen, key := key, prev := prev } s.mgmt.fabKeys } }
  match aget s.mgmt.fabKeys tenant with
  | none => some (put none)
  | some k => if gen = k.gen + 1 then some (put (some (k.gen, k.key))) else none

/-- A contribution held for 1 ms fails as KEYGEN_STALE (R528). -/
def holdTimeout (s : State) (job child : Nat) : State :=
  match s.job? job with
  | none => s
  | some j => match j.held.find? fun p => p.2.child == child with
    | some p => failCode (s.advanceTo (p.1 + 2700000)) j 1 (!(jobDesc j.desc).children.contains child)
    | none => s

def execKeygenHoldTimeout (job child : Nat) (s : State) : Host.Outcome State Fault Refusal := .next (holdTimeout s job child)

/-- A peer is lost: the jobs that involve it fail with code 3 (R528). -/
def peerLost (s : State) (dev : Nat) : State :=
  let s := { s with mgmt := { s.mgmt with dead := sins dev s.mgmt.dead } }
  let hit := fun j : Job => decide (j.state ≠ 2) && !j.desc.isEmpty &&
    (decide ((jobDesc j.desc).parent = dev) || (jobDesc j.desc).children.contains dev)
  (s.mgmt.jobs.filter hit).foldl (fun s j => failCode s j 3 false) s

def execPeerLost (dev : Nat) (s : State) : Host.Outcome State Fault Refusal := .next (peerLost s dev)

/-! ## Answers (R521) -/

/-- The answer to a flit put beside what was asked for. -/
def settleAnswer (id : Nat) (a : Option Answer) (l : List Answered) : List Answered :=
  l.map fun r => if r.id = id then { r with answer := a, bad := a.isNone } else r

/-- An entry goes on once everything it asked for has been settled. A fetch stands in the latch, and the entry is READY. -/
def resumeEntry (s : State) (r : EntryRef) : State :=
  match s.issueOf r with
  | none => s
  | some x =>
    match x.g.place with
    | .resident _ =>
      if x.e.remote.any Answered.open_ then s
      else if x.e.st = .fetch then s.setWave r.gid r.wi (x.w.setEntry r.slot (some { x.e with st := .ready }))
      else match x.e.insn with
        | some (.enq h f) => enqResume s x (.enq h f)
        | some (.enqt h f) => enqResume s x (.enqt h f)
        | some (.spawn h f) => spawnResume s x h f
        | _ => memResume s r
    | _ => s

/-- An access is answered for good, or never will be. -/
def State.endAccess (s : State) (id : Nat) : State :=
  { s with mgmt := { s.mgmt with outAccess := s.mgmt.outAccess.filter fun p => p.id != id } }

/-- A full/empty step waits at its home; there is no time limit on it. -/
def State.markWaiting (s : State) (id : Nat) : State :=
  { s with mgmt := { s.mgmt with outAccess := s.mgmt.outAccess.map fun p => if p.id = id then { p with waiting := true } else p } }

/-- An entry's access has been answered. -/
def settleEntry (s : State) (o : OutAccess) (r : EntryRef) (a : Option Answer) : State :=
  let put := fun (s : State) (f : List Answered → List Answered) => s.modWave r.gid r.wi fun w => w.modEntry r.slot fun e => { e with remote := f e.remote }
  let fetch := (s.issueOf r).any fun x => decide (x.e.st = .fetch)
  match a, fetch with
  | some .waiting, false => resumeEntry (put (s.markWaiting o.id) (settleAnswer o.id a)) r
  | some .withdrawn, false => put (s.endAccess o.id) fun l => l.filter fun q => q.id != o.id
  | _, _ => resumeEntry (put (s.endAccess o.id) (settleAnswer o.id a)) r

/-- The home of a completion's word has answered; one that it could not perform is logged. The completion goes on. -/
def stepAnswered (s : State) (c : Completion) (a : Option Answer) : State :=
  match c.steps with
  | [] => s
  | w :: ws =>
    State.runSteps c.ctx c.pkt ws (match a with
      | none | some .lost | some .noPage => s.violation w.source 0 0xFF 1 c.ctx w.addr (BitVec.ofNat 64 c.pkt.queue)
      | _ => s)

/-- A remote access has ended: with its answer, or without one. -/
def settleAccess (s : State) (o : OutAccess) (a : Option Answer) : State :=
  match o.owner with
  | .nobody => s.endAccess o.id
  | .copy n =>
    let s := s.endAccess o.id
    { s with copies := amod n (fun c => { c with remote := settleAnswer o.id a c.remote }) s.copies }
  | .entry r => settleEntry s o r a
  | .event i =>
    let s := s.endAccess o.id
    { s with mgmt := { s.mgmt with asked := s.mgmt.asked.map fun p => if p.1 = i then (p.1, settleAnswer o.id a p.2) else p } }
  | .job id =>
    let s := s.endAccess o.id
    (match s.job? id with
      | none => s
      | some j =>
        let j := { j with remote := settleAnswer o.id a j.remote }
        if j.remote.any Answered.open_ then s.putJob j
        else if j.final.isSome then jobStored s j
        else jobTry s j)
  | .post source func bar ctx addr detail =>
    let s := s.endAccess o.id
    match a with
    | none | some .lost | some .noPage => s.violation source func bar 1 ctx addr detail
    | _ => s
  | .completion c => stepAnswered (s.endAccess o.id) c a

def State.outAccess? (s : State) (id : Nat) : Option OutAccess := s.mgmt.outAccess.find? fun o => o.id == id

def response (s : State) (id : Nat) (a : Answer) : State :=
  match s.outAccess? id with
  | some o => settleAccess s o (some a)
  | none => s

def execResponse (id : Nat) (answer : Answer) (s : State) : Host.Outcome State Fault Refusal := .next (response s id answer)

/-- The unanswered access was a store, which is dropped and logged. -/
def dropsStore (o : OutAccess) : Bool := o.stores || decide (o.owner = .nobody)

/-- No answer within 10 ms; a step that waits at its home has been answered. -/
def responseTimeout (s : State) (id : Nat) : State :=
  match s.outAccess? id with
  | some o =>
    if o.waiting then s
    else
      let s := s.advanceTo (o.sentAt + 27000000)
      settleAccess (if dropsStore o then s.countLinkError else s) o none
  | none => s

def execResponseTimeout (id : Nat) (s : State) : Host.Outcome State Fault Refusal := .next (responseTimeout s id)

/-! ## Shards (R529) -/

/-- The planes of a shard (log entry 94): ciphertext, a bit for each 64-bit word that is FULL, one for each LOST sector, one for each poisoned 32-bit word. -/
def planeFull : Nat := 2 ^ 26
def planeLost : Nat := planeFull + 2 ^ 20
def planePoison : Nat := planeLost + 2 ^ 18
def shardLen : Nat := planePoison + 2 ^ 21

/-- Thirty-two bytes of another device's shard enter the sum of their row, under the key 2²² × row + their place in the shard. -/
def addParity (s : State) (row off : Nat) (data : List Byte) : State :=
  { s with mgmt := { s.mgmt with
    parity := smod (List.replicate 32 0) (2 ^ 22 * row + off / 32) (fun p => xorBytes p data) s.mgmt.parity } }

def execShard (sh : Shard) (s : State) : Host.Outcome State Fault Refusal :=
  .next (if sh.data.length = 32 ∧ sh.off % 32 = 0 ∧ sh.off < shardLen ∧ sh.row < 12288 then addParity s sh.row sh.off sh.data else s)

end Sys2Proof.Machine
end

