-- ==== Sys2Proof/Machine/Fetch.lean ====
section
/-! DEFINITION. Fetch: instruction words on path I (R173 to R175). -/

namespace Sys2Proof.Machine

/-- What a fetch finds: a word, a cause, or a sector of another device to ask for. -/
inductive Fetched
  | word (w : W64)
  | fault (cause : Cause)
  | ask (dev pa : Nat)
deriving DecidableEq, Repr

/-- The eight bytes at a site, little-endian; poison and LOST sectors fail (R174, R476). -/
def fetchSite (s : State) (rs : List Answered) (t : Site) : Fetched :=
  let word := fun (bs : List (Byte × Bool)) =>
    if bs.any fun b => b.2 then Fetched.fault .poisonConsumed else .word (BitVec.ofNat 64 (natOfBytes (bs.map fun b => b.1)))
  match t with
  | .remote dv pa .. =>
    (match rs.find? fun r => r.dev == dv && r.pa == pa / 32 * 32 with
      | none => .ask dv (pa / 32 * 32)
      | some r => match r.answer with
        | some .noPage => .fault .pageNotPresent
        | some (.data ..) => word ((s.loadLines rs).readSite t 8)
        | _ => .fault .poisonConsumed)
  | _ => if s.lostAt t then .fault .poisonConsumed else word (s.readSite t 8)

/-- The word at an entry's program counter: the latched one, else the one in memory (log entry 4). -/
def fetchWord (s : State) (x : Issue) : Fetched :=
  match x.e.latch with
  | some (pc, w) => if pc = x.e.pc then .word w else fetchMem
  | none => fetchMem
where
  fetchMem : Fetched :=
    if x.e.pc.toNat / 2 ^ 56 ≠ 0 then .fault .addrNoncanon
    else match s.translate x.g.ctx .rx x.e.pc.toNat with
      | .error c => .fault c
      | .ok t => fetchSite s x.e.remote t

/-- Asks another device for the sector of an entry's next word; the entry is in FETCH (R178). -/
def askWord (s : State) (x : Issue) (dev pa : Nat) : State :=
  (s.sendAccess (.entry x.ref) x.work dev pa (.read 32)).setWave x.ref.gid x.ref.wi (x.w.setEntry x.ref.slot
    (some { x.e with st := .fetch, pass := 0, remote := [{ id := s.mgmt.nextAccess, dev := dev, pa := pa, answer := none, bad := false }] }))

/-- A wave that may issue: on a powered core of a cluster that serves its context or whose stop is still to begin, neither ended nor
stopping nor waiting for its baton, under a scope that is LIVE. -/
def State.waveRuns (s : State) (g : Group) (w : Wave) : Bool :=
  (match g.place with
    | .resident core => !s.mgmt.gated.contains core
    | _ => false) && !w.ended && !w.stopping && !w.awaitBaton && s.scopeLive g.scope

/-- A word is fetched ahead for a READY entry. -/
def instructionFetch (s : State) (r : EntryRef) : State :=
  match s.issueOf r with
  | none => s
  | some x =>
    if x.e.st ≠ .ready || !s.waveRuns x.g x.w then s
    else match fetchWord s x with
      | .word w => s.setWave r.gid r.wi (x.w.setEntry r.slot (some { x.e with latch := some (x.e.pc, w) }))
      | .fault _ => s
      | .ask dev pa => askWord s x dev pa

def execInstructionFetch (at_ : EntryRef) (s : State) : Host.Outcome State Fault Refusal := .next (instructionFetch s at_)

end Sys2Proof.Machine
end

