-- ==== Sys2Proof/Machine/Ed25519.lean ====
section
/-! DEFINITION. Ed25519 with SHA-512 (R2): keys, signatures and their check (R530, R531, R537, R539). The signed message is the SHA-512 of what the rules
name (log entry 15). -/

namespace Sys2Proof.Machine

/-! ## The field and the group -/

/-- The prime of the field, the order of the base point, and the curve's constant. -/
def edP : Nat := 2 ^ 255 - 19
def edL : Nat := 2 ^ 252 + 27742317777372353535851937790883648493

/-- b^e mod the prime, for e below 2^bits. -/
def edPow (bits b e : Nat) : Nat :=
  (List.range bits).foldl (fun r i => let q := r * r % edP; if e.testBit (bits - 1 - i) then q * b % edP else q) 1

def edInv (a : Nat) : Nat := edPow 255 a (edP - 2)
def edD : Nat := (edP - 121665) * edInv 121666 % edP

/-- A point as X : Y : Z : T with x = X/Z, y = Y/Z, xy = T/Z. -/
structure EdPoint where
  x : Nat
  y : Nat
  z : Nat
  t : Nat
deriving DecidableEq, Repr

def EdPoint.zero : EdPoint := { x := 0, y := 1, z := 1, t := 0 }

/-- The sum of two points, complete on this curve; d2 is twice the curve's constant. -/
def EdPoint.add (d2 : Nat) (p q : EdPoint) : EdPoint :=
  let a := (p.y + edP - p.x) * (q.y + edP - q.x) % edP
  let b := (p.y + p.x) * (q.y + q.x) % edP
  let c := p.t * q.t % edP * d2 % edP
  let d := 2 * p.z * q.z % edP
  let e := b + edP - a
  let f := d + edP - c
  let g := d + c
  let h := b + a
  { x := e * f % edP, y := g * h % edP, z := f * g % edP, t := e * h % edP }

/-- The multiple of a point by a number below 2^256. -/
def EdPoint.times (n : Nat) (p : EdPoint) : EdPoint :=
  let d2 := 2 * edD % edP
  (List.range 256).foldl (fun r i => let q := r.add d2 r; if n.testBit (255 - i) then q.add d2 p else q) EdPoint.zero

/-- The point with a y and the low bit of x, where there is one. -/
def edLift (y : Nat) (odd : Bool) : Option EdPoint :=
  let u := (y * y + edP - 1) % edP
  let x2 := u * edInv ((edD * (y * y % edP) + 1) % edP) % edP
  let r := edPow 255 x2 ((edP + 3) / 8)
  let x := if r * r % edP = x2 then r else r * edPow 255 2 ((edP - 1) / 4) % edP
  if edP ≤ y ∨ x * x % edP ≠ x2 ∨ (x = 0 ∧ odd) then none
  else
    let x := if x.testBit 0 == odd then x else edP - x
    some { x := x, y := y, z := 1, t := x * y % edP }

/-- The base point: y = 4/5, x even. -/
def edBase : EdPoint := (edLift (4 * edInv 5 % edP) false).getD EdPoint.zero

/-! ## Encoding -/

/-- 32 bytes: y, and the low bit of x at bit 255. -/
def EdPoint.bytes (p : EdPoint) : List Byte :=
  let k := edInv p.z
  bytesOfNat 32 (p.y * k % edP + 2 ^ 255 * (p.x * k % edP % 2))

def edPoint (bs : List Byte) : Option EdPoint :=
  let n := natOfBytes (bs.take 32)
  edLift (n % 2 ^ 255) (n.testBit 255)

/-! ## Keys and signatures -/

/-- The scalar and the prefix of a secret key of 32 bytes. -/
def edSecret (seed : List Byte) : Nat × List Byte :=
  let h := sha512 seed
  (natOfBytes (h.take 32) % 2 ^ 254 / 8 * 8 + 2 ^ 254, h.drop 32)

def edPublic (seed : List Byte) : List Byte := (edBase.times (edSecret seed).1).bytes

/-- A hash as a scalar. -/
def edScalar (bs : List Byte) : Nat := natOfBytes (sha512 bs) % edL

/-- The 64 bytes of a signature. -/
def edSign (seed msg : List Byte) : List Byte :=
  let k := edSecret seed
  let a := edPublic seed
  let r := edScalar (k.2 ++ msg)
  let rb := (edBase.times r).bytes
  rb ++ bytesOfNat 32 ((r + edScalar (rb ++ a ++ msg) * k.1) % edL)

/-- A signature verifies under a public key. -/
def edVerify (pub msg sig : List Byte) : Bool :=
  match edPoint pub, edPoint sig with
  | some a, some r =>
    let s := natOfBytes ((sig.drop 32).take 32)
    let k := edScalar (sig.take 32 ++ pub.take 32 ++ msg)
    decide (s < edL) &&
      decide (((edBase.times s).times 8).bytes = ((r.add (2 * edD % edP) (a.times k)).times 8).bytes)
  | _, _ => false

/-! ## The device's key and the vendor's -/

/-- The public half of the identity key (R539, R541). -/
def identityKey : List Byte := edPublic (bytesOfNat 32 Config.idSeed.toNat)

/-- The signature by the identity key over the SHA-512 of a message (R530, R539). -/
def identitySign (msg : List Byte) : List Byte := edSign (bytesOfNat 32 Config.idSeed.toNat) (sha512 msg)

/-- The boot ROM's check of a firmware image (R537): its version where the vendor's signature verifies. -/
def vendorCheck (image : List Byte) : Option W32 :=
  match Config.firmwareParts image with
  | some p => if edVerify (bytesOfNat 32 Config.vendorKey.toNat) (sha512 p.signed) p.signature then some p.version else none
  | none => none

end Sys2Proof.Machine
end

