-- ==== Sys2Proof/Machine/Checkpoint.lean ====
section
/-! DEFINITION. Checkpoint: shards, parity and manifests of device memory in the safe tier (R529 to R531). The rules give the manifest's bytes; how a shard
lays out its states and marks, and where the shards lie in a device's range, they do not (log entry 94). -/

namespace Sys2Proof.Machine

/-! ## Shards -/

/-- The 64 MiB units of the device, and the rows whose parity it holds. -/
def unitCount : Nat := 12288
def parityRows (n self : Nat) : List Nat := (List.range unitCount).filter fun r => decide (r % n = self)
def shardCount (n self : Nat) : Nat := unitCount + (parityRows n self).length

/-- Memory as its shards hold it: LOST sectors are zeros. -/
def shardMem (m : Mem) : Mem := m.lost.foldl (fun m sec => m.putStored sec (List.replicate 32 0)) m

/-- The sectors that are not all zeros. -/
def shardSectors (m : Mem) : List Nat :=
  ((m.cells.map fun (p : Host.Cell) => p.1 / 32) ++ m.seals.map fun (p : Nat × Option Seal) => p.1).dedup

/-- Thirty-two bytes of a row's shard from an offset on. -/
structure Piece where
  row : Nat
  off : Nat
  data : List Byte
deriving DecidableEq, Repr

/-- The pieces of a plane of bits: the numbers of a list, 2^k to a unit. -/
def bitPieces (k plane : Nat) (l : List Nat) : List Piece :=
  ((l.map fun w => w / 256).dedup).map fun q =>
    { row := 256 * q / 2 ^ k, off := plane + 256 * q % 2 ^ k / 8
      data := (List.range 32).map fun i => (List.range 8).foldl (fun b j => if 256 * q + 8 * i + j ∈ l then b ||| BitVec.ofNat 8 (2 ^ j) else b) 0 }

/-- Every piece of the device's data shards that is not all zeros. -/
def unitPieces (m : Mem) : List Piece :=
  ((shardSectors m).map fun sec => { row := sec / 2 ^ 21, off := sec % 2 ^ 21 * 32, data := m.stored sec }) ++
  bitPieces 23 planeFull m.full ++ bitPieces 21 planeLost m.lost ++ bitPieces 24 planePoison m.poison

/-- A piece goes to the device that writes its row's parity. -/
def sendPiece (n self : Nat) (devs : List Nat) (s : State) (p : Piece) : State :=
  if p.row % n = self then addParity s p.row p.off p.data
  else s.send (.shard (devs[p.row % n]?.getD 0) { dev := s.podIndex, row := p.row, off := p.off, data := p.data })

/-- The parity pieces of the device's own rows, as far as they have come. -/
def parityPieces (s : State) : List Piece := s.mgmt.parity.map fun p => { row := p.1 / 2 ^ 22, off := p.1 % 2 ^ 22 * 32, data := p.2 }

/-! ## The range of a device -/

/-- The place of a row's data shard in the range, and of a parity shard of the device: data shards first, parity shards behind. -/
def dataAt (range row : Nat) : Nat := range + shardLen * row
def parityAt (range n self row : Nat) : Nat := range + shardLen * (unitCount + (parityRows n self).findIdx fun r => r == row)
def manifestAt (range n self : Nat) : Nat := range + shardLen * shardCount n self
def manifestLen (n self : Nat) : Nat := 0x40 + 96 * shardCount n self + 64

/-- Host memory with a stretch cleared. -/
def State.clearHost (s : State) (a n : Nat) : State :=
  { s with host := { s.host with cells := s.host.cells.filter fun c => !(decide (a ≤ c.1) && decide (c.1 < a + n)) } }

/-- The shards of the range. -/
def writeShards (s : State) (range n self : Nat) (data parity : List Piece) : State :=
  let s := s.clearHost range (manifestAt range n self + manifestLen n self - range)
  let s := data.foldl (fun (s : State) p => s.putHost (dataAt range p.row + p.off) p.data) s
  parity.foldl (fun (s : State) p => s.putHost (parityAt range n self p.row + p.off) p.data) s

/-- A shard's entry of the manifest (R530): LOST sectors are counted in a data shard. -/
def shardEntry (s : State) (lost : List Nat) (row kind at_ : Nat) : List Byte :=
  bytesOfNat 4 row ++ bytesOfNat 1 kind ++ bytesOfNat 3 0 ++ bytesOfNat 8 at_ ++ bytesOfNat 8 shardLen ++
  bytesOfNat 8 (if kind = 0 then (lost.filter fun sec => decide (sec / 2 ^ 21 = row)).length else 0) ++ sha512 (s.hostBytes at_ shardLen)

/-- The first 64 bytes of a manifest. -/
def manifestHead (dev n epoch count : Nat) : List Byte :=
  [0x4B, 0x58, 0x43, 0x4B, 0x4D, 0x41, 0x4E, 0x49] ++ bytesOfNat 2 1 ++ bytesOfNat 2 dev ++ bytesOfNat 2 n ++ bytesOfNat 2 0 ++ bytesOfNat 8 epoch ++
  bytesOfNat 4 count ++ bytesOfNat 36 0

/-- The manifest of the shards in the range (R530). -/
def manifestBytes (s : State) (lost : List Nat) (range n self epoch : Nat) : List Byte :=
  let body := manifestHead s.podIndex n epoch (shardCount n self) ++
    ((List.range unitCount).flatMap fun r => shardEntry s lost r 0 (dataAt range r)) ++
    (parityRows n self).flatMap fun r => shardEntry s lost r 1 (parityAt range n self r)
  body ++ identitySign body

/-! ## Checks at a restore (R531) -/

/-- The manifest at its place in the range. -/
def manifestIn (s : State) (range n self : Nat) : List Byte := s.hostBytes (manifestAt range n self) (manifestLen n self)

/-- A manifest of this device and of the epoch, whose signature verifies. -/
def manifestOk (s : State) (range n self epoch : Nat) : Bool :=
  let b := manifestIn s range n self
  let body := b.take (b.length - 64)
  decide (b.take 0x40 = manifestHead s.podIndex n epoch (shardCount n self)) && edVerify identityKey (sha512 body) (b.drop (b.length - 64))

/-- Shard i of the range fails its digest. -/
def shardFails (s : State) (range n self i : Nat) : Bool :=
  let e := ((manifestIn s range n self).drop (0x40 + 96 * i)).take 96
  !decide (e.drop 32 = sha512 (s.hostBytes (fieldAt e 8 8) (fieldAt e 16 8)))

/-- The rows of the device's own data shards that fail, and of its own parity shards. -/
def badRows (s : State) (range n self : Nat) : List Nat := (List.range unitCount).filter fun r => shardFails s range n self r
def badParity (s : State) (range n self : Nat) : List Nat :=
  (parityRows n self).filter fun r => shardFails s range n self (unitCount + (parityRows n self).findIdx fun q => q == r)

/-- How many shards of a row fail at other devices: what they find, the device does not see (log entry 94). -/
def othersFail (s : State) (row : Nat) : Nat := Config.freeNat s.free (1000000 + row)

/-- A row with two failing shards. -/
def rowLost (s : State) (bad parity : List Nat) (row : Nat) : Bool :=
  decide (2 ≤ (if bad.contains row then 1 else 0) + (if parity.contains row then 1 else 0) + othersFail s row)

/-! ## The memory of the epoch -/

/-- One byte of a row's shard put back into memory. -/
def Mem.putShard (m : Mem) (row off : Nat) (b : Byte) : Mem :=
  let bits := fun (base : Nat) (l : List Nat) => (List.range 8).foldl (fun l i => if b.getLsbD i then sins (base + i) l else l) l
  if off < planeFull then { m with cells := sput memDefault (2 ^ 26 * row + off) b m.cells }
  else if off < planeLost then { m with full := bits (2 ^ 23 * row + 8 * (off - planeFull)) m.full }
  else if off < planePoison then { m with lost := bits (2 ^ 21 * row + 8 * (off - planeLost)) m.lost }
  else { m with poison := bits (2 ^ 24 * row + 8 * (off - planePoison)) m.poison }

/-- The bytes of a shard that are not zero, by their offsets. -/
def shardCells (s : State) (at_ : Nat) : List (Nat × Byte) :=
  s.host.cells.filterMap fun c => if at_ ≤ c.1 ∧ c.1 < at_ + shardLen then some (c.1 - at_, c.2) else none

/-- The other shards of a row, added up: what other devices have sent, and this device's own parity shard. -/
def rebuiltCells (s : State) (range n self row : Nat) : List (Nat × Byte) :=
  let own := if row % n = self then shardCells s (parityAt range n self row) else []
  let t := ((own.map fun c => c.1 / 32).dedup).foldl (fun (t : State) q =>
    addParity t row (32 * q) (s.hostBytes (parityAt range n self row + 32 * q) 32)) s
  (parityPieces t).flatMap fun p => if p.row = row then (List.range 32).map fun i => (p.off + i, p.data[i]?.getD 0) else []

/-- Memory from the shards; a row whose data shard fails is rebuilt. -/
def restoredMem (s : State) (range n self : Nat) (bad : List Nat) : Mem :=
  (List.range unitCount).foldl (fun m row =>
    (if bad.contains row then rebuiltCells s range n self row else shardCells s (dataAt range row)).foldl (fun m c => m.putShard row c.1 c.2) m) Mem.start

end Sys2Proof.Machine
end

