-- ==== Sys2Proof/Machine/Mailbox.lean ====
section
/-! DEFINITION. Mailbox: the management mailbox (R523, R524) with its commands: boot (R537, R538), fault lists and dumps (R467 to R470),
stops (R478), stall times (R444), checkpoints (R529 to R531), reductions, keys and RATLINE, attestation (R539), the error log. -/

namespace Sys2Proof.Machine

/-! ## Command blocks (R524) -/

/-- What a command does: the state, the block as it is written back, STATUS. -/
structure Reply where
  s : State
  block : List Byte
  status : Nat

/-- A record with a field replaced. -/
def setField (bs : List Byte) (o n v : Nat) : List Byte := bs.take o ++ bytesOfNat n v ++ bs.drop (o + n)

def refuse (s : State) (b : List Byte) (status : Nat) : Reply := { s := s, block := b, status := status }

/-! ## Boot (R537, R538) -/

/-- The scrub that a reset interrupted starts again (R517). -/
def restartScrub (s : State) : State :=
  if s.mgmt.scrubBusy then ({ s with mgmt := { s.mgmt with scrubRestarted := true } }).enterPhase 1 else s

/-- The verified firmware starts: the scrub again, MKTCTL at its reset values, with which interval 0 begins (R150, R538). -/
def firmwareStart (s : State) (version : W32) (digest : List Byte) : State :=
  let cfg := { s.market.cfgW with interval := MktCfg.start.interval, enable := false, migin := false }
  restartScrub { s with mgmt := { s.mgmt with boot := .running version digest }, market := { s.market with cfgW := cfg, startTime := s.time } }

def cmdBoot (s : State) (b : List Byte) : Reply :=
  let addr := fieldAt b 0x08 8
  let len := fieldAt b 0x10 8
  if addr % 4096 ≠ 0 ∨ len = 0 ∨ 64 * 2 ^ 20 < len then refuse s b 2
  else if s.running then refuse s b 1
  else
    let image := s.hostBytes addr len
    match vendorCheck image with
    | some v =>
      if v.toNat < Config.fusedMinimum.toNat then refuse s b 3
      else { s := firmwareStart s v (sha512 image), block := setField b 0x18 4 v.toNat, status := 0 }
    | none => refuse s b 3

/-! ## Fault lists (R467, R524) -/

/-- The 64 bytes of an entry. -/
def faultBytes (e : FaultEntry) : List Byte :=
  bytesOfNat 8 e.dumpid ++ bytesOfNat 1 e.kind ++ bytesOfNat 1 e.state ++ bytesOfNat 1 e.cause ++ bytesOfNat 1 e.aux ++ bytesOfNat 2 e.ctx ++
  bytesOfNat 2 e.queue ++ bytesOfNat 8 e.origin ++ bytesOfNat 4 e.tag ++ bytesOfNat 4 e.lanes ++ bytesOfNat 8 e.pc.toNat ++
  bytesOfNat 8 e.value.toNat ++ bytesOfNat 8 e.image ++ bytesOfNat 8 e.time

/-- Writes records of 64 bytes to a host buffer. -/
def State.putRecords (s : State) (buf : Nat) (rs : List (List Byte)) : State :=
  ((List.range rs.length).zip rs).foldl (fun s r => s.putHost (buf + 64 * r.1) r.2) s

def cmdFaults (s : State) (b : List Byte) : Reply :=
  let ctx := fieldAt b 0x08 2
  let buf := fieldAt b 0x10 8
  if (1024 ≤ ctx ∧ ctx ≠ 0xFFFF) ∨ buf % 64 ≠ 0 then refuse s b 2
  else
    let mine := fun c : Nat => decide (ctx = 0xFFFF) || decide (c = ctx)
    let all := sortBy (fun (p q : FaultEntry) => decide (p.dumpid < q.dumpid)) ((s.mgmt.faultList.filter fun p => mine p.1).flatMap fun p => p.2)
    let out := all.take (fieldAt b 0x18 4)
    let gone := fun e : FaultEntry => decide (e.kind ≠ 1) && out.any fun o => decide (o.dumpid = e.dumpid)
    let lost := (s.mgmt.faultLost.filter fun p => mine p.1).foldl (fun n p => n + p.2) 0
    let s := s.putRecords buf (out.map faultBytes)
    let lists := s.mgmt.faultList.map fun p => (p.1, p.2.filter fun e => !gone e)
    { s := { s with mgmt := { s.mgmt with faultList := lists, faultLost := s.mgmt.faultLost.filter fun p => !mine p.1 } }
      block := setField (setField (setField b 0x1C 4 out.length) 0x20 4 all.length) 0x24 4 (min lost (2 ^ 32 - 1)), status := 0 }

def cmdPolicy (s : State) (b : List Byte) : Reply :=
  let ctx := fieldAt b 0x08 2
  let pol := fieldAt b 0x0A 1
  if 1024 ≤ ctx ∨ 1 < pol then refuse s b 2
  else
    { s := { s with mgmt := { s.mgmt with policyHold := if pol = 1 then sins ctx s.mgmt.policyHold else sdel ctx s.mgmt.policyHold } }
      block := setField b 0x0B 1 (if ctx ∈ s.mgmt.policyHold then 1 else 0), status := 0 }

/-- The entry of a dump that is HELD. -/
def heldDump (s : State) (id : Nat) : Option FaultEntry :=
  s.mgmt.faultList.findSome? fun p => p.2.find? fun e => decide (e.dumpid = id) && decide (e.kind = 1) && decide (e.state = 0)

/-- An entry leaves its list. -/
def dropEntry (s : State) (id : Nat) : State :=
  { s with mgmt := { s.mgmt with faultList := s.mgmt.faultList.map fun p => (p.1, p.2.filter fun e => decide (e.dumpid ≠ id)) } }

def dropImage (s : State) (at_ : Nat) : State := { s with mgmt := { s.mgmt with images := s.mgmt.images.filter fun i => decide (i.at_ ≠ at_) } }

/-- DISCARD (R469). -/
def cmdDiscard (s : State) (b : List Byte) : Reply :=
  match heldDump s (fieldAt b 0x08 8) with
  | none => refuse s b 1
  | some e => { s := (dropImage (dropEntry s e.dumpid) e.image).failGroup e.gid, block := b, status := 0 }

/-! ## RESUME (R470) -/

/-- The manager sets SKIP in the records of some lanes and resumes every parked path of a wave. -/
def resumeWave (skip : Mask) (w : Wave) : Wave :=
  ({ w with faults := w.faults.map fun (f : Nat × FaultRec) => (f.1, { f.2 with skip := skip.getLsbD f.1, resume := w.faultLanes.getLsbD f.1 }) }).settle

/-- The group of a dump goes to its ready list, to be restored as any saved gang is (R470). -/
def resumeGroup (s : State) (e : FaultEntry) (skips : List Mask) : State :=
  let at_ := ((s.mgmt.images.find? fun i => decide (i.at_ = e.image)).map fun i => i.clk).getD s.clk
  let s := (s.haltGroup at_ e.gid).modGroup e.gid fun g => { g with
    place := .saved, cause := none
    waves := ((List.range g.waves.length).zip g.waves).map fun p => resumeWave (skips[p.1]?.getD 0) p.2 }
  let images := s.mgmt.images.map fun i => if i.at_ = e.image then { i with groups := [], copies := [] } else i
  let s := { s with mgmt := { s.mgmt with images := images } }
  match s.group? e.gid with
  | none => s
  | some g =>
    let s := match g.task with
      | some n => { s with tasks := amod n (fun t => { t with order := s.order }) s.tasks }
      | none => s.modGang g.launch g.gang fun k =>
          { k with st := .saved, order := s.order, killed := k.killed.filter fun p => decide (p.1 ≠ e.gid) }
    { s with order := s.order + 1 }

/-- R470 admits the group: its launch has GANG 1 and no TWIN. -/
def resumable (s : State) (gid : Nat) : Bool :=
  match (s.group? gid).bind s.recordFor with
  | some r => decide (r.gang = 1) && !r.twin
  | none => false

def cmdResume (s : State) (b : List Byte) : Reply :=
  let skip := fieldAt b 0x10 8
  if skip % 4 ≠ 0 then refuse s b 2
  else match heldDump s (fieldAt b 0x08 8) with
    | none => refuse s b 1
    | some e =>
      if !resumable s e.gid then refuse s b 1
      else
        let n := ((s.group? e.gid).map fun g => g.waves.length).getD 0
        let masks : List Mask := if skip = 0 then [] else (List.range n).map fun i => BitVec.ofNat 32 (natOfBytes (s.hostBytes (skip + 4 * i) 4))
        { s := resumeGroup (dropEntry s e.dumpid) e masks, block := b, status := 0 }

/-! ## STOP and RELEASE (R478) -/

/-- What a STOP or RELEASE names: a context, or one of its gangs. -/
structure StopArg where
  ctx : Nat
  hold : Bool
  one : Option (Nat × Nat)

def stopArg (b : List Byte) : StopArg :=
  let f := fieldAt b 0x0A 1
  { ctx := fieldAt b 0x08 2, hold := f.testBit 0, one := if f.testBit 1 then some (fieldAt b 0x10 8, fieldAt b 0x18 4) else none }

def StopArg.names (a : StopArg) (g : Group) : Bool :=
  decide (g.ctx = a.ctx) && (match a.one with
    | none => true
    | some p => g.task.isNone && decide (g.launch = p.1) && decide (g.gang = p.2))

/-- One group for each gang of a list of groups. -/
def gangHeads (l : List (Nat × Group)) : List (Nat × Group) :=
  l.foldl (fun acc g => if g.2.task.isNone && acc.any (fun h => h.2.task.isNone && decide (h.2.launch = g.2.launch) && decide (h.2.gang = g.2.gang))
    then acc else acc ++ [g]) []

/-- The saved gangs that a STOP holds or a RELEASE lets go. -/
def setHeld (s : State) (a : StopArg) (hold : Bool) : State :=
  let pick := fun g : Nat × Group => a.names g.2
  let hs := gangHeads (s.groups.filter pick)
  let s := hs.foldl (fun s g => if g.2.task.isSome then s
    else s.modGang g.2.launch g.2.gang fun k => if hold then (if k.st = .saved then { k with st := .held } else k)
      else if k.st = .held then { k with st := .saved } else k) s
  { s with groups := s.groups.map fun g => if pick g then (g.1, { g.2 with park := hold }) else g }

/-- A gang that a RELEASE finds held, or stopping to be held. -/
def isHeld (s : State) (g : Group) : Bool :=
  g.park && (g.place = .saved || g.stop.isSome) || (match s.gangOf g with
    | some k => decide (k.st = .held)
    | none => false)

def State.isResident (g : Group) : Bool := match g.place with
  | .resident _ => true
  | _ => false

/-- Stops the gangs named. -/
def stopGangs (s : State) (a : StopArg) : State × Nat :=
  let pick := s.groups.filter fun g => a.names g.2
  let run := gangHeads (pick.filter fun g => State.isResident g.2)
  let saved := if a.hold then (gangHeads (pick.filter fun g => decide (g.2.place = .saved) && !isHeld s g.2)).filter fun g =>
      !run.any fun r => decide (r.2.launch = g.2.launch) && decide (r.2.gang = g.2.gang) && g.2.task.isNone && r.2.task.isNone
    else []
  let s := run.foldl (fun (s : State) g => s.startStop g.1 .manager a.hold) s
  let s := if a.hold then setHeld s a true else s
  (run.foldl (fun s g => saveGang s g.1) s, run.length + saved.length)

def cmdStop (s : State) (b : List Byte) : Reply :=
  let a := stopArg b
  if 1024 ≤ a.ctx ∨ 3 < fieldAt b 0x0A 1 then refuse s b 2
  else
    let r := stopGangs s a
    { s := r.1, block := setField b 0x1C 4 r.2, status := 0 }

def cmdRelease (s : State) (b : List Byte) : Reply :=
  let a := stopArg b
  if 1024 ≤ a.ctx ∨ 3 < fieldAt b 0x0A 1 ∨ a.hold then refuse s b 2
  else
    let n := (gangHeads (s.groups.filter fun g => a.names g.2 && isHeld s g.2)).length
    { s := setHeld s a false, block := setField b 0x1C 4 n, status := 0 }

def cmdStall (s : State) (b : List Byte) : Reply :=
  let t := fieldAt b 0x08 1
  let us := fieldAt b 0x0C 4
  if us < 1000 ∨ 10000000 < us then refuse s b 2
  else
    { s := { s with mgmt := { s.mgmt with stallNs := aput t (1000 * us) s.mgmt.stallNs } }
      block := setField b 0x10 4 ((aget s.mgmt.stallNs t).getD 100000000 / 1000), status := 0 }

/-! ## Checkpoints (R529 to R531) -/

/-- Every gang of every context is stopped, to be held. -/
def stopAll (s : State) : State :=
  ((s.groups.map fun g => g.2.ctx).dedup).foldl (fun s c => (stopGangs s { ctx := c, hold := true, one := none }).1) s

def releaseAll (s : State) : State :=
  ((s.groups.map fun g => g.2.ctx).dedup).foldl (fun s c => setHeld s { ctx := c, hold := false, one := none } false) s

/-- The arguments of CKPT within their limits; a range that the shards and the manifest do not fit in is none (log entry 94). -/
def ckptOk (b : List Byte) : Bool :=
  let n := fieldAt b 0x0A 2
  let self := fieldAt b 0x0C 2
  decide (2 ≤ n) && decide (n ≤ 1024) && decide (self < n) && decide (fieldAt b 0x18 8 % 8 = 0) && decide (fieldAt b 0x20 8 % 64 = 0) &&
  decide (shardLen * shardCount n self + manifestLen n self ≤ fieldAt b 0x28 8)

def ckptList (s : State) (b : List Byte) : List Nat :=
  (List.range (fieldAt b 0x0A 2)).map fun i => natOfBytes (s.hostBytes (fieldAt b 0x18 8 + 2 * i) 2)

/-- CKPT SAVE: stops, writes its shards with its part of the parity and the manifest, then releases. Not admitted while a gang cannot stop yet. -/
def cmdCkptSave (s : State) (b : List Byte) : Reply :=
  if !ckptOk b then refuse s b 2
  else
    let t := stopAll s
    if t.groups.any fun g => State.isResident g.2 then refuse s b 1
    else
      let n := fieldAt b 0x0A 2
      let self := fieldAt b 0x0C 2
      let range := fieldAt b 0x20 8
      let data := unitPieces (shardMem t.mem)
      let t := data.foldl (sendPiece n self (ckptList s b)) t
      let t := writeShards t range n self data (parityPieces t)
      let t := t.putHost (manifestAt range n self) (manifestBytes t t.mem.lost range n self (fieldAt b 0x10 8))
      { s := releaseAll { t with mgmt := { t.mgmt with parity := [] } }, block := setField b 0x30 4 (shardCount n self), status := 0 }

/-- CKPT RESTORE: the signature, then every digest, then the memory of the epoch (R531). -/
def cmdCkptRestore (s : State) (b : List Byte) : Reply :=
  if !ckptOk b then refuse s b 2
  else
    let n := fieldAt b 0x0A 2
    let self := fieldAt b 0x0C 2
    let range := fieldAt b 0x20 8
    let bad := badRows s range n self
    if !manifestOk s range n self (fieldAt b 0x10 8) || (List.range unitCount).any (rowLost s bad (badParity s range n self)) then refuse s b 3
    else
      { s := { s with mem := restoredMem s range n self bad, mgmt := { s.mgmt with parity := [] } }
        block := setField (setField b 0x30 4 (shardCount n self)) 0x34 4 bad.length, status := 0 }

/-! ## Fabric commands -/

def cmdReduce (s : State) (b : List Byte) : Reply :=
  let at_ := fieldAt b 0x08 8
  let bs := s.hostBytes at_ 128
  if at_ % 64 ≠ 0 || !jobDescOk bs then refuse s b 2
  else match acceptJob s bs with
    | (_, none) => refuse s b 1
    | (t, some code) => { s := t, block := setField b 0x10 4 code, status := if code = 0 then 0 else 3 }

def cmdKeygen (s : State) (b : List Byte) : Reply :=
  let out := setField b 0x10 32 0
  match installKey s (fieldAt b 0x08 1) (fieldAt b 0x0A 2) (BitVec.ofNat 256 (fieldAt b 0x10 32)) with
  | some t => { s := t, block := out, status := 0 }
  | none => refuse s out 1

/-- RATLINE: the flit goes to every device of the pod, this one included. -/
def cmdRatline (s : State) (b : List Byte) : Reply :=
  let r : Ratline := { epoch := fieldAt b 0x08 4, base := fieldAt b 0x10 8, slots := fieldAt b 0x0C 2, width := fieldAt b 0x18 4 }
  if !ratlineOk r then refuse s b 2 else { s := ratlineReceive (s.send (.ratline r)) r, block := b, status := 0 }

/-! ## Attestation, the error log, the pod index -/

/-- Version and digest of the running firmware. -/
def firmware (s : State) : W32 × List Byte :=
  match s.mgmt.boot with
  | .running v d => (v, d)
  | .rom => (0, List.replicate 64 0)

/-- The attestation report (R539). -/
def report (s : State) (nonce : List Byte) : List Byte :=
  let f := firmware s
  let body := [0x4B, 0x58, 0x41, 0x54, 0x54, 0x45, 0x53, 0x54] ++ bytesOfNat 4 Config.romVersion.toNat ++ bytesOfNat 4 f.1.toNat ++ f.2 ++
    bytesOfNat 16 Config.serial.toNat ++ bytesOfNat 2 60 ++ bytesOfNat 2 s.podIndex ++ bytesOfNat 28 0 ++ nonce
  body ++ identitySign body

def cmdAttest (s : State) (b : List Byte) : Reply :=
  let buf := fieldAt b 0x28 8
  if buf % 64 ≠ 0 then refuse s b 2
  else { s := s.putHost buf (report s ((b.drop 8).take 32)), block := setField b 0x30 4 224, status := 0 }

/-- The 64 bytes of an entry of the device error log (R477). -/
def errBytes (e : ErrEntry) : List Byte :=
  bytesOfNat 8 e.seq ++ bytesOfNat 1 e.kind ++ bytesOfNat 1 e.unit ++ bytesOfNat 2 e.ctx ++ bytesOfNat 4 e.count ++
  bytesOfNat 8 e.location.toNat ++ bytesOfNat 8 e.time ++ bytesOfNat 32 0

def cmdErrlog (s : State) (b : List Byte) : Reply :=
  let after := fieldAt b 0x08 8
  let buf := fieldAt b 0x10 8
  if buf % 64 ≠ 0 then refuse s b 2
  else
    let out := (s.mgmt.errlog.filter fun e => decide (after < e.seq)).take (fieldAt b 0x18 4)
    let last := ((out.getLast?).map fun e => e.seq).getD after
    { s := s.putRecords buf (out.map errBytes)
      block := setField (setField (setField b 0x1C 4 out.length) 0x20 8 last) 0x28 4 (min s.mgmt.errLost (2 ^ 32 - 1)), status := 0 }

/-- PODIDX (R542). -/
def cmdPodidx (s : State) (b : List Byte) : Reply :=
  let i := fieldAt b 0x08 2
  if 1024 ≤ i then refuse s b 2
  else if s.mgmt.podidx.isSome then refuse s b 1
  else { s := { s with mgmt := { s.mgmt with podidx := some (BitVec.ofNat 10 i) } }, block := setField b 0x0A 2 s.podIndex, status := 0 }

/-! ## The mailbox (R523) -/

/-- The command of a block; none for an unknown code. CKPT's OP chooses between its two. -/
def command (b : List Byte) : Option (State → List Byte → Reply) :=
  match fieldAt b 0 1 with
  | 0x00 => some cmdBoot
  | 0x01 => some cmdFaults
  | 0x02 => some cmdPolicy
  | 0x03 => some cmdDiscard
  | 0x04 => some cmdResume
  | 0x05 => some cmdStop
  | 0x06 => some cmdRelease
  | 0x07 => some cmdStall
  | 0x08 => if fieldAt b 8 1 = 0 then some cmdCkptSave else if fieldAt b 8 1 = 1 then some cmdCkptRestore else none
  | 0x09 => some cmdReduce
  | 0x0A => some cmdKeygen
  | 0x0B => some cmdRatline
  | 0x0C => some cmdAttest
  | 0x0D => some cmdErrlog
  | 0x0E => some cmdPodidx
  | _ => none

def mailDone (s : State) (status code : Nat) : State :=
  { s with mgmt := { s.mgmt with mbBusy := false, mbStatus := BitVec.ofNat 8 status, mbCode := BitVec.ofNat 16 code } }

/-- Runs the command of a block: its checks, its effect, its results written back. Before the firmware runs only BOOT is admitted. -/
def mailRun (s : State) (block : W64) (cmd : Option (State → List Byte → Reply)) : State :=
  let a := block.toNat
  if s.mgmt.mbBusy then s
  else if a % 64 ≠ 0 then mailDone s 2 0
  else if s.host.failing = some false then mailDone (s.hostUsed true) 3 0
  else
    let b := s.hostBytes a 64
    let code := fieldAt b 0 1
    match if allZero b 1 7 then cmd else none with
    | none => mailDone s 2 code
    | some f =>
      if !s.running && decide (code ≠ 0) then mailDone s 1 code
      else
        let r := f s b
        let t := if r.status = 0 ∨ r.block ≠ b then (if r.s.host.failing = some true then r.s.hostDropped else r.s.putHost a r.block) else r.s
        mailDone t r.status code

/-- A write of all 8 bytes of MBCMD. -/
def mailWrite (s : State) (block : W64) : State := mailRun s block (command (s.hostBytes block.toNat 64))

/-- A command's own event: a write to MBCMD through a function whose block holds the command's code, and its OP. -/
def mailRow (s : State) (func : Nat) (block : W64) (code : Nat) (op : Option Nat) (cmd : State → List Byte → Reply) : State :=
  let b := s.hostBytes block.toNat 64
  if fieldAt b 0 1 = code ∧ op.all (fun o => decide (fieldAt b 8 1 = o)) then s.privatePage func 0x800000 1 (mailRun s block (some cmd)) else s

def execBoot (func : Nat) (block : W64) (s : State) : Host.Outcome State Fault Refusal := .next (mailRow s func block 0x00 none cmdBoot)
def execFaults (func : Nat) (block : W64) (s : State) : Host.Outcome State Fault Refusal := .next (mailRow s func block 0x01 none cmdFaults)
def execPolicy (func : Nat) (block : W64) (s : State) : Host.Outcome State Fault Refusal := .next (mailRow s func block 0x02 none cmdPolicy)
def execDiscard (func : Nat) (block : W64) (s : State) : Host.Outcome State Fault Refusal := .next (mailRow s func block 0x03 none cmdDiscard)
def execResume (func : Nat) (block : W64) (s : State) : Host.Outcome State Fault Refusal := .next (mailRow s func block 0x04 none cmdResume)
def execStop (func : Nat) (block : W64) (s : State) : Host.Outcome State Fault Refusal := .next (mailRow s func block 0x05 none cmdStop)
def execRelease (func : Nat) (block : W64) (s : State) : Host.Outcome State Fault Refusal := .next (mailRow s func block 0x06 none cmdRelease)
def execStall (func : Nat) (block : W64) (s : State) : Host.Outcome State Fault Refusal := .next (mailRow s func block 0x07 none cmdStall)
def execCkptSave (func : Nat) (block : W64) (s : State) : Host.Outcome State Fault Refusal :=
  .next (mailRow s func block 0x08 (some 0) cmdCkptSave)
def execCkptRestore (func : Nat) (block : W64) (s : State) : Host.Outcome State Fault Refusal :=
  .next (mailRow s func block 0x08 (some 1) cmdCkptRestore)
def execReduce (func : Nat) (block : W64) (s : State) : Host.Outcome State Fault Refusal := .next (mailRow s func block 0x09 none cmdReduce)
def execKeygen (func : Nat) (block : W64) (s : State) : Host.Outcome State Fault Refusal := .next (mailRow s func block 0x0A none cmdKeygen)
def execRatline (func : Nat) (block : W64) (s : State) : Host.Outcome State Fault Refusal := .next (mailRow s func block 0x0B none cmdRatline)
def execAttest (func : Nat) (block : W64) (s : State) : Host.Outcome State Fault Refusal := .next (mailRow s func block 0x0C none cmdAttest)
def execErrlog (func : Nat) (block : W64) (s : State) : Host.Outcome State Fault Refusal := .next (mailRow s func block 0x0D none cmdErrlog)
def execPodidx (func : Nat) (block : W64) (s : State) : Host.Outcome State Fault Refusal := .next (mailRow s func block 0x0E none cmdPodidx)

end Sys2Proof.Machine
end

