-- ==== Sys2Proof/Machine/MemInstr.lean ====
section
/-! DEFINITION. MemInstr: the memory instructions of chapter 11 but the copies (R364 to R378, R388 to R392), the full/empty
instructions (R430 to R435) and `sigadd` (R436, R437). -/

namespace Sys2Proof.Machine

/-- One access of a lane at the address of R357. -/
def oneAcc (s : State) (x : Issue) (f : MF) (narrow : Bool) (l : Nat) : List (W64 × Nat) := [((laneAddr s x f narrow l).val, mfSize f)]

/-- The operation of a load in a lane. -/
def loadOp (s : State) (f : MF) (x : Issue) (l : Nat) : LaneOp :=
  { lane := l, accs := oneAcc s x f false l, data := [], cmp := [], dst := dstKey x f.d l }

/-- The operation of a store in a lane. -/
def storeOp (s : State) (f : MF) (x : Issue) (l : Nat) : LaneOp :=
  { lane := l, accs := oneAcc s x f false l, data := dataBytes f.sz.toNat (dataSrc s x f.d f.sz.toNat l), cmp := [], dst := none }

def loadSrcs (s : State) (f : MF) (x : Issue) (l : Nat) : List Src := [laneAddr s x f false l]
def storeSrcs (s : State) (f : MF) (x : Issue) (l : Nat) : List Src := laneAddr s x f false l :: dataSrc s x f.d f.sz.toNat l

def execLd (h : Hdr) (f : MF) (s : State) : Host.Outcome State Fault Refusal := memLanes s h (.ld h f) (loadSrcs s f) (loadOp s f)
def execSt (h : Hdr) (f : MF) (s : State) : Host.Outcome State Fault Refusal := memLanes s h (.st h f) (storeSrcs s f) (storeOp s f)

/-! ## Line blocks (R366) -/

/-- The words of a lane in a block of k lines. -/
def blockAccs (s : State) (x : Issue) (f : MF) (l : Nat) : List (W64 × Nat) :=
  let base := (readSrc s x .n64 f.a l).val + mfOffset f false + BitVec.ofNat 64 (4 * l)
  (List.range (mfSize f / 4)).map fun r => (base + BitVec.ofNat 64 (128 * r), 4)

def ldvSrcs (s : State) (f : MF) (x : Issue) (l : Nat) : List Src := [readSrc s x .n64 f.a l]
def ldvOp (s : State) (f : MF) (x : Issue) (l : Nat) : LaneOp :=
  { lane := l, accs := blockAccs s x f l, data := [], cmp := [], dst := dstKey x f.d l }

def execLdv (h : Hdr) (f : MF) (s : State) : Host.Outcome State Fault Refusal := memLanes s h (.ldv h f) (ldvSrcs s f) (ldvOp s f)

/-- The registers that a lane stores to a block. -/
def stvBlock (s : State) (f : MF) (x : Issue) (l : Nat) : List Src := blockSrc s x f.d (mfSize f / 4) l
def stvSrcs (s : State) (f : MF) (x : Issue) (l : Nat) : List Src := readSrc s x .n64 f.a l :: stvBlock s f x l
def stvOp (s : State) (f : MF) (x : Issue) (l : Nat) : LaneOp :=
  { lane := l, accs := blockAccs s x f l, data := (stvBlock s f x l).flatMap fun r => bytesOfNat 4 r.val.toNat, cmp := [], dst := none }

def execStv (h : Hdr) (f : MF) (s : State) : Host.Outcome State Fault Refusal := memLanes s h (.stv h f) (stvSrcs s f) (stvOp s f)

/-! ## Uniform accesses (R367) -/

/-- The operation of a uniform access, at the address of the uniform base. -/
def uniformOp (s : State) (f : MF) (x : Issue) (data : List Src) (dst : Option Nat) : LaneOp :=
  { lane := 0, accs := [((readSrc s x .n64 f.a 0).val + mfOffset f false, mfSize f)], data := dataBytes f.sz.toNat data, cmp := [], dst := dst }

/-- A once-per-wave access at the address of the uniform base. -/
def uniformAccess (s : State) (h : Hdr) (f : MF) (i : Instr) (data : Issue → List Src) (dst : Option Nat) : Host.Outcome State Fault Refusal :=
  withIssuer s fun x =>
    oncePerWave s x h (readSrc s x .n64 f.a 0 :: data x) (memGo s x h i [uniformOp s f x (data x) dst] [])

def execSld (h : Hdr) (f : MF) (s : State) : Host.Outcome State Fault Refusal :=
  uniformAccess s h f (.sld h f) (fun _ => []) (some (sBase + (f.d.toNat - 0xC0)))

/-- The data of `sst`: s-registers, zero or a constant. -/
def sstData (s : State) (f : MF) (x : Issue) : List Src :=
  if f.sz = 4 then (List.range 4).map fun r => srcSreg x s.free false (f.d.toNat - 0xC0 + r) else [readSrc s x (szTy f.sz.toNat) f.d 0]

def execSst (h : Hdr) (f : MF) (s : State) : Host.Outcome State Fault Refusal := uniformAccess s h f (.sst h f) (sstData s f) none

/-! ## Atomics (R368 to R371) -/

/-- The type of an atomic's data operand: a constant of `.fadd` delivers a floating-point value (R369). -/
def atomTy (f : MF) : Ty := if mfOpn f = 7 then (if f.sz = 3 then .f64 else .f32) else szTy f.sz.toNat

def atomSrcs (s : State) (f : MF) (x : Issue) (l : Nat) : List Src := [laneAddr s x f true l, readSrc s x (atomTy f) f.b l]
def atomOp (s : State) (f : MF) (x : Issue) (l : Nat) : LaneOp :=
  { lane := l, accs := oneAcc s x f true l, data := bytesOfNat (mfSize f) (readSrc s x (atomTy f) f.b l).val.toNat, cmp := [], dst := dstKey x f.d l }

def execAtom (h : Hdr) (f : MF) (s : State) : Host.Outcome State Fault Refusal := memLanes s h (.atom h f) (atomSrcs s f) (atomOp s f)

/-- The compare value, then the new value, of `acas`. -/
def acasBlock (s : State) (f : MF) (x : Issue) (l : Nat) : List Src := blockSrc s x f.b (mfSize f / 2) l

def acasSrcs (s : State) (f : MF) (x : Issue) (l : Nat) : List Src := laneAddr s x f false l :: acasBlock s f x l
def acasOp (s : State) (f : MF) (x : Issue) (l : Nat) : LaneOp :=
  let bs := (acasBlock s f x l).flatMap fun r => bytesOfNat 4 r.val.toNat
  { lane := l, accs := oneAcc s x f false l, data := bs.drop (mfSize f), cmp := bs.take (mfSize f), dst := dstKey x f.d l }

def execAcas (h : Hdr) (f : MF) (s : State) : Host.Outcome State Fault Refusal := memLanes s h (.acas h f) (acasSrcs s f) (acasOp s f)

/-! ## Space tests and casts (R374, R375) -/

def spaceCode (a : W64) : Nat :=
  match spaceOf a with
  | some .global => 0
  | some .spad => 1
  | some .clus => 2
  | some .priv => 3
  | none => 7

def execSptest (h : Hdr) (f : RF) (s : State) : Host.Outcome State Fault Refusal :=
  withIssuer s fun x =>
    perLane s x h f.d false (fun l => [readSrc s x .n64 f.a l]) fun l => BitVec.ofNat 64 (spaceCode (readSrc s x .n64 f.a l).val)

/-- The marker INV (R375). -/
def invPtr : W64 := 0xFE00000000000000

def spadPtr (tag off : Nat) : W64 := BitVec.ofNat 64 (0xFD * 2 ^ 56 + tag * 2 ^ 24 + off)
def clusPtr (rank tag off : Nat) : W64 := BitVec.ofNat 64 (0xFC * 2 ^ 56 + rank * 2 ^ 48 + tag * 2 ^ 24 + off)

/-- A member of the gang that `spcast` still finds: one that has not ended. -/
def Place.current : Place → Bool
  | .ended => false
  | _ => true

/-- The conversions of `spcast` (R375). -/
def spcastOf (s : State) (x : Issue) (fn l : Nat) (a : W64) : W64 :=
  let v := a.toNat
  let ms := s.gangMembers x.ref.gid x.g
  let gtag := s.gangTag x.ref.gid x.g
  let tag := v / 2 ^ 24 % 2 ^ 24
  let off := v % 2 ^ 24
  let rank := v / 2 ^ 48 % 16
  match fn, spaceOf a with
  | 0, _ => if v < 2 ^ 24 then spadPtr x.g.tag v else invPtr
  | 1, some .spad =>
    match (List.range ms.length).find? fun r => match (ms[r]?).bind s.group? with
      | some m => m.place.current && decide (m.tag = tag)
      | none => false with
    | some r => clusPtr r gtag off
    | none => invPtr
  | 1, some .clus => if tag = gtag ∧ rank < ms.length then a else invPtr
  | 2, some .clus => if tag = gtag ∧ rank = x.g.rank then spadPtr x.g.tag off else invPtr
  | 2, some .spad => if tag = x.g.tag then a else invPtr
  | 3, some .spad | 3, some .clus => BitVec.ofNat 64 off
  | 3, some .priv => BitVec.ofNat 64 (v % 2 ^ 32)
  | 3, _ => 0xFFFFFFFF
  | 4, _ => 0xFF00000000000000 + a
  | 5, some .global => a
  | 5, some .priv =>
    let size := s.ctxPsize x.g.ctx
    let o := v % 2 ^ 32
    if o < size then BitVec.ofNat 64 (s.ctxPbase x.g.ctx + x.w.pslot * 32 * size + o / 4 * 128 + l * 4 + o % 4) else invPtr
  | _, _ => invPtr

def execSpcast (h : Hdr) (f : RF) (s : State) : Host.Outcome State Fault Refusal :=
  withIssuer s fun x =>
    let fn := f.fn.toNat
    let t : Ty := if fn = 0 ∨ fn = 4 then .n32 else .n64
    perLane s x h f.d (decide (fn ≠ 3)) (fun l => [readSrc s x t f.a l]) fun l => spcastOf s x fn l (readSrc s x t f.a l).val

/-! ## Prefetch and cache maintenance (R377, R378) -/

/-- `pref` changes no architectural state and never faults (R378). -/
def execPref (h : Hdr) (_f : MF) (s : State) : Host.Outcome State Fault Refusal := withIssuer s fun x => finish s x h x.w

/-- `cwb` and `cinv` are checked as a 1-byte load and change no value (R378). -/
def lineOp (s : State) (f : MF) (x : Issue) (l : Nat) : LaneOp :=
  { lane := l, accs := [((laneAddr s x f false l).val, 1)], data := [], cmp := [], dst := none }

def execCwb (h : Hdr) (f : MF) (s : State) : Host.Outcome State Fault Refusal := memLanes s h (.cwb h f) (loadSrcs s f) (lineOp s f)
def execCinv (h : Hdr) (f : MF) (s : State) : Host.Outcome State Fault Refusal := memLanes s h (.cinv h f) (loadSrcs s f) (lineOp s f)

/-! ## Waits on memory (R388 to R392) -/

/-- The target of a wait in a lane. -/
def waitOp (s : State) (f : MF) (d : Bool) (x : Issue) (l : Nat) : LaneOp :=
  { lane := l, accs := oneAcc s x f false l, data := bytesOfNat (mfSize f) (readSrc s x (szTy f.sz.toNat) f.b l).val.toNat
    cmp := [], dst := if d then dstKey x f.d l else none }

def waitSrcs (s : State) (f : MF) (x : Issue) (l : Nat) : List Src := [laneAddr s x f false l, readSrc s x (szTy f.sz.toNat) f.b l]

def execWtge (h : Hdr) (f : MF) (s : State) : Host.Outcome State Fault Refusal := memLanes s h (.wtge h f) (waitSrcs s f) (waitOp s f true)
def execWteq (h : Hdr) (f : MF) (s : State) : Host.Outcome State Fault Refusal := memLanes s h (.wteq h f) (waitSrcs s f) (waitOp s f true)
def execPoll (h : Hdr) (f : MF) (s : State) : Host.Outcome State Fault Refusal := memLanes s h (.poll h f) (waitSrcs s f) (waitOp s f false)

/-- A waiting lane's word is read again, and satisfies the lane when its condition holds (R390, R391). -/
def execMemoryWaitSatisfied (at_ : EntryRef) (lane : Nat) (s : State) : Host.Outcome State Fault Refusal := .next (waitEvent s at_ lane)

/-! ## Full and empty words (R430 to R435) -/

def execLdf (h : Hdr) (f : MF) (s : State) : Host.Outcome State Fault Refusal := memLanes s h (.ldf h f) (loadSrcs s f) (loadOp s f)
def execLdfe (h : Hdr) (f : MF) (s : State) : Host.Outcome State Fault Refusal := memLanes s h (.ldfe h f) (loadSrcs s f) (loadOp s f)
def execStef (h : Hdr) (f : MF) (s : State) : Host.Outcome State Fault Refusal := memLanes s h (.stef h f) (storeSrcs s f) (storeOp s f)
def execStf (h : Hdr) (f : MF) (s : State) : Host.Outcome State Fault Refusal := memLanes s h (.stf h f) (storeSrcs s f) (storeOp s f)

def festOp (s : State) (f : MF) (x : Issue) (l : Nat) : LaneOp := { loadOp s f x l with dst := none }

def execFest (h : Hdr) (f : MF) (s : State) : Host.Outcome State Fault Refusal := memLanes s h (.fest h f) (loadSrcs s f) (festOp s f)

/-- The waiters at a word are served as its state allows (R434). -/
def execFeWaiterServed (word : Nat) (s : State) : Host.Outcome State Fault Refusal := .next (serveWords s [word])

/-! ## Signals from device code (R436, R437) -/

def sigaddSrcs (s : State) (f : MF) (x : Issue) (l : Nat) : List Src := [laneAddr s x f true l, readSrc s x .n64 f.b l]
def sigaddOp (s : State) (f : MF) (x : Issue) (l : Nat) : LaneOp :=
  { lane := l, accs := oneAcc s x f true l, data := bytesOfNat 8 (readSrc s x .n64 f.b l).val.toNat, cmp := [], dst := dstKey x f.d l }

def execSigadd (h : Hdr) (f : MF) (s : State) : Host.Outcome State Fault Refusal := memLanes s h (.sigadd h f) (sigaddSrcs s f) (sigaddOp s f)

/-! ## What each instruction accesses -/

/-- The sources and the operation of a lane of a per-lane memory instruction. -/
def laneShape (s : State) : Instr → Option ((Issue → Nat → List Src) × (Issue → Nat → LaneOp))
  | .ld _ f | .ldf _ f | .ldfe _ f => some (loadSrcs s f, loadOp s f)
  | .st _ f | .stef _ f | .stf _ f => some (storeSrcs s f, storeOp s f)
  | .ldv _ f => some (ldvSrcs s f, ldvOp s f)
  | .stv _ f => some (stvSrcs s f, stvOp s f)
  | .atom _ f => some (atomSrcs s f, atomOp s f)
  | .acas _ f => some (acasSrcs s f, acasOp s f)
  | .pref _ f | .cwb _ f | .cinv _ f => some (loadSrcs s f, lineOp s f)
  | .wtge _ f | .wteq _ f => some (waitSrcs s f, waitOp s f true)
  | .poll _ f => some (waitSrcs s f, waitOp s f false)
  | .fest _ f => some (loadSrcs s f, festOp s f)
  | .sigadd _ f => some (sigaddSrcs s f, sigaddOp s f)
  | _ => none

/-- The operations that an issuing memory instruction begins. -/
def issuedOps (s : State) (x : Issue) (i : Instr) : List LaneOp :=
  let h := hdrOf i
  let once := fun (srcs : List Src) (op : LaneOp) => if x.acts h && srcs.all fun r => r.bad.isNone then [op] else []
  match i with
  | .sld _ f => once [readSrc s x .n64 f.a 0] (uniformOp s f x [] none)
  | .sst _ f => once (readSrc s x .n64 f.a 0 :: sstData s f x) (uniformOp s f x (sstData s f x) none)
  | _ => match laneShape s i with
    | some p => (goodLanes x h (poisonFaults x h (p.1 x))).map (p.2 x)
    | none => []

/-! ## Fences (R372, R373, R406) -/

/-- `fence` acts once for its wave and is HELD until it is performed; every access has been performed at issue (log entry 3), so
only the entry's release is left to FENCE_PERFORMED. -/
def execFence (h : Hdr) (f : SF) (s : State) : Host.Outcome State Fault Refusal :=
  withIssuer s fun x =>
    oncePerWave s x h []
      (s.setWave x.ref.gid x.ref.wi (x.w.setEntry x.ref.slot (some
        { (x.e.arm h x.w.nextSeq) with st := .held .fence, insn := some (.fence h f), exec := x.exec h, pass := 0 })))

/-- An entry whose instruction has accesses that have not been performed: another device has not answered, or a full/empty word is waited for
(R402, R406, R521). -/
def Entry.outstanding (e : Entry) : Bool := decide (e.st = .held .remote) || decide (e.st = .wait .fe)

/-- A fence of kind release or acq_rel waits for the accesses that its wave issued before it; for their answers any fence does (R373, R406). -/
def fenceBusy (x : Issue) (i : Instr) : Bool :=
  x.w.entries.any fun oe => match oe with
    | some e => (match i with
      | .fence _ f => if f.sel.toNat / 8 % 4 = 1 then decide (e.st = .held .remote) else e.outstanding
      | _ => decide (e.st = .held .remote))
    | none => false

/-- Words fetched ahead, here or from another device, are dropped by an acquire that names I, so later issues fetch again (R413). -/
def Wave.dropLatches (w : Wave) : Wave :=
  { w with entries := w.entries.map fun oe => oe.map fun e =>
      { e with latch := none, remote := if e.st = .ready ∨ e.st = .fetch then [] else e.remote } }

/-- The fence names path I and is not of kind release. -/
def fenceFetches : Instr → Bool
  | .fence _ f => f.sel.getLsbD 9 && decide (f.sel.toNat / 8 % 4 ≠ 2)
  | _ => false

/-- What a performed fence at group scope or wider does to the uniform registers as its wave sees and has written them (R236, R373). -/
def fenceSregs (wi : Nat) (i : Instr) (g : Group) : Group :=
  match i with
  | .fence _ f =>
    if f.sel.toNat % 8 = 0 then g
    else
      let g := if f.sel.toNat / 8 % 4 = 1 then g else g.releaseSregs wi
      if f.sel.toNat / 8 % 4 = 2 then g else g.acquireSregs wi
  | _ => g

/-- A held fence is performed: the entry goes on (R373, R406). -/
def fencePerformed (s : State) (at_ : EntryRef) : State :=
  match s.issueOf at_ with
  | none => s
  | some x =>
    match x.e.st, x.e.insn with
    | .held .fence, some i =>
      if fenceBusy x i then s
      else
        let w := x.w.setEntry at_.slot (some (x.next (hdrOf i) x.w))
        (s.setWave at_.gid at_.wi (if fenceFetches i then w.dropLatches else w)).modGroup at_.gid (fenceSregs at_.wi i)
    | _, _ => s

def execFencePerformed (at_ : EntryRef) (s : State) : Host.Outcome State Fault Refusal := .next (fencePerformed s at_)

end Sys2Proof.Machine
end

