-- ==== Sys2Proof/Machine/Regs.lean ====
section
/-! DEFINITION. Regs: host accesses to the register pages (R105 to R108, R141, R142, R342, R343, R510, R516, R532, R540, R541), BAR4 and
the host link's failures (R103, R104). -/

namespace Sys2Proof.Machine

/-! ## Words of registers, as a host reads them

Each function takes an offset in its page that is a multiple of 8. -/

def bitAt (b : Bool) (k : Nat) : Nat := if b then 2 ^ k else 0

/-- The identity page (R541). -/
def identityBytes (s : State) : List Byte :=
  [0x4B, 0x58, 0x39, 0x36, 0x30, 0, 0, 0] ++ bytesOfNat 2 Config.stepping.toNat ++ bytesOfNat 2 0 ++ bytesOfNat 4 (firmware s).1.toNat ++
  bytesOfNat 4 Config.romVersion.toNat ++ bytesOfNat 2 s.podIndex ++ bytesOfNat 2 0 ++
  ((List.range 4).map fun d => BitVec.ofNat 8 (dieCount d)) ++ ((List.range 4).map fun d => BitVec.ofNat 8 (dieBase d)) ++
  identityKey ++ bytesOfNat 16 Config.serial.toNat

def identityWord (s : State) (off : Nat) : W64 := w64At (identityBytes s) off

/-- The market configuration page (R141, R142): what was last written. -/
def tenantWord (s : State) (t k : Nat) : W64 :=
  let v := sget Tenant.start s.market.cfgW.tenants t
  match k with
  | 0 => sget 0 s.market.purses t
  | 1 => v.rate
  | 2 => v.cap
  | _ => BitVec.ofNat 64 (bitAt v.valid 0 + bitAt v.floor 1 + 2 ^ 8 * v.floorw.toNat)

def ctxMktWord (m : CtxMkt) : W64 :=
  BitVec.ofNat 64 (m.tenant.toNat + bitAt m.valid 8 + 2 ^ 16 * m.pool.toNat + 2 ^ 32 * m.func.toNat)

def spinWord (p : SpinPol) : W64 :=
  BitVec.ofNat 64 (bitAt p.enable 0 + 2 ^ 8 * p.streak.toNat + 2 ^ 16 * p.gap.toNat + 2 ^ 24 * p.maxage.toNat)

def poolWord (s : State) (i : Nat) (upper : Bool) : W64 :=
  if upper then
    let r := sget Result.start s.market.results i
    BitVec.ofNat 64 (r.price.toNat + 2 ^ 32 * r.sold.toNat)
  else
    let p := sget Pool.start s.market.cfgW.pools i
    BitVec.ofNat 64 (p.reserve.toNat + 2 ^ 32 * p.quota.toNat)

def weightsWord (s : State) (q : Nat) : W64 :=
  BitVec.ofNat 64 (natOfBytes ((List.range 8).map fun i => sget 16 s.market.cfgW.qweight (q + i)))

def ceilOf (s : State) (f : Nat) : BitVec 128 := sget (BitVec.allOnes 128) s.market.cfgW.vfceil f

def marketWord (s : State) (off : Nat) : W64 :=
  let c := s.market.cfgW
  if off = 0 then BitVec.ofNat 64 (c.interval.toNat + bitAt c.enable 16 + bitAt c.migin 17)
  else if off = 8 then s.market.intno.zeroExtend 64
  else if 0x100 ≤ off ∧ off < 0x240 then poolWord s ((off - 0x100) / 16) (decide (off % 16 = 8))
  else if 0x400 ≤ off ∧ off < 0x420 then (wyMask c ((off - 0x400) / 8)).zeroExtend 64
  else if 0x800 ≤ off ∧ off < 0x1800 then (ceilOf s ((off - 0x800) / 16)).extractLsb' (8 * (off % 16)) 64
  else if 0x2000 ≤ off ∧ off < 0x4000 then tenantWord s ((off - 0x2000) / 32) (off % 32 / 8)
  else if 0x4000 ≤ off ∧ off < 0x8000 then (if off % 16 = 0 then ctxMktWord (sget CtxMkt.start c.ctxs ((off - 0x4000) / 16)) else 0)
  else if 0x8000 ≤ off ∧ off < 0x9000 then weightsWord s (off - 0x8000)
  else if 0x9000 ≤ off ∧ off < 0x9800 then spinWord (sget SpinPol.start c.spin ((off - 0x9000) / 8))
  else 0

/-- The key slot control page (R342, R343). -/
def keyWord (s : State) (off : Nat) : W64 :=
  if off = 0 then s.host.ctxtBase
  else if off = 8 then s.host.tlbVa
  else if off = 0x18 then (if s.host.tlbBusy.isEmpty then 0 else 1)
  else if 0x100 ≤ off ∧ off < 0x1100 then kstatWord (s.slot ((off - 0x100) / 8))
  else if 0x2000 ≤ off ∧ off < 0x2800 then BitVec.ofNat 64 (sget 0 s.host.bar4 ((off - 0x2000) / 8))
  else 0

/-- The scrub and teardown page (R510). -/
def teardownWord (s : State) (off : Nat) : W64 :=
  let m := s.mgmt
  if off = 0 then scrubProg m
  else if off = 0x18 then m.ctxLast
  else if off = 0x28 then m.tdAckA
  else if off = 0x30 then m.tdAckV
  else if off = 0x38 then m.tdStat
  else if off = 0x40 then BitVec.ofNat 64 m.scrubUnits
  else if off = 0x48 then BitVec.ofNat 64 m.scrubTotal
  else if 0x100 ≤ off ∧ off < 0x180 then
    BitVec.ofNat 64 ((List.range 64).foldl (fun n j => n + bitAt (decide (8 * (off - 0x100) + j ∈ m.tdblk)) j) 0)
  else if 0x800 ≤ off ∧ off < 0x1000 then
    BitVec.ofNat 64 ((List.range 4).foldl (fun n j => n + (s.ctxGen ((off - 0x800) / 2 + j)).toNat * 2 ^ (16 * j)) 0)
  else 0

/-- The power control page (R532). -/
def powerWord (m : Mgmt) (off : Nat) : W64 :=
  match off with
  | 0x00 => BitVec.ofNat 64 (bitAt m.fsen 0 + bitAt m.bsen 1 + 2 ^ 32 * m.fstep.toNat + 2 ^ 48 * m.bsstep.toNat)
  | 0x08 => m.bsfloor.zeroExtend 64
  | 0x10 => m.pwrnow.zeroExtend 64
  | 0x18 => m.luffe
  | 0x20 => BitVec.ofNat 64 (m.ratEpoch.toNat + bitAt m.ratHold.isSome 32)
  | _ => 0

/-- The 32 bytes of an entry of the violation log (R108). -/
def violationBytes (v : Violation) : List Byte :=
  bytesOfNat 1 v.source ++ bytesOfNat 1 v.func ++ bytesOfNat 1 v.bar ++ bytesOfNat 1 v.dir ++ bytesOfNat 2 v.ctx ++ bytesOfNat 2 0 ++
  bytesOfNat 8 v.addr.toNat ++ bytesOfNat 8 v.clk ++ bytesOfNat 8 v.detail.toNat

def vlogWord (s : State) (off : Nat) : W64 :=
  if off = 0 then BitVec.ofNat 64 (s.host.vlog.length + 2 ^ 32 * s.host.vlost.toNat)
  else if 0x100 ≤ off ∧ off < 0x900 then (match s.host.vlog[(off - 0x100) / 32]? with
    | some v => w64At (violationBytes v) (off % 32)
    | none => 0)
  else 0

/-- The mailbox page (R523). -/
def mailWord (m : Mgmt) (off : Nat) : W64 :=
  match off with
  | 0x08 => BitVec.ofNat 64 (bitAt m.mbBusy 0 + 2 ^ 8 * m.mbStatus.toNat + 2 ^ 16 * m.mbCode.toNat)
  | 0x10 => BitVec.ofNat 64 (m.mbVec.toNat + bitAt m.mbEn 16)
  | 0x18 => m.evcnt
  | _ => 0

/-- A function's queue status region (R107). -/
def statusWord (s : State) (func off : Nat) : W64 :=
  match ((List.range queueCount).filter fun q => decide ((s.queue q).func.toNat = func))[off / 16]? with
  | some q => if off % 16 = 0 then qcbWord (s.queue q) 0x30 else (s.queue q).qdbv
  | none => 0

/-- A word of an MSI-X table or pending-bit array of a function (log entry 21). -/
def msixKey (func off : Nat) : Nat := 65536 * func + off

def pbaWord (s : State) (func off : Nat) : W64 :=
  BitVec.ofNat 64 ((List.range 64).foldl (fun n j => n + bitAt (decide (msixKey func (8 * off + j) ∈ s.host.msixPba)) j) 0)

/-! ## Pages (R106) -/

/-- The page of a BAR0 offset: its base; none for a page that is PRIVATE and reads zero. -/
inductive Page
  | identity | qcb | market | key | teardown | power | vlog | msix | pba | mail | status
deriving DecidableEq, Repr

/-- The pages of the PF's BAR0, with base and size. -/
def pfPages : List (Nat × Nat × Page) :=
  [(0x000000, 0x1000, .identity), (0x100000, 0x40000, .qcb), (0x200000, 0x10000, .market), (0x300000, 0x10000, .key),
   (0x400000, 0x1000, .teardown), (0x500000, 0x1000, .power), (0x600000, 0x1000, .vlog), (0x700000, 0x8000, .msix), (0x780000, 0x1000, .pba),
   (0x800000, 0x1000, .mail), (0x900000, 0x10000, .status)]

/-- The SHARED pages of a VF's BAR0. -/
def vfPages : List (Nat × Nat × Page) :=
  [(0x0000, 0x1000, .identity), (0x1000, 0x1000, .msix), (0x2000, 0x1000, .pba), (0x10000, 0x10000, .status)]

def pageOf (func off : Nat) : Option (Page × Nat) :=
  ((if func = 0 then pfPages else vfPages).find? fun p => decide (p.1 ≤ off) && decide (off < p.1 + p.2.1)).map fun p => (p.2.2, off - p.1)

/-- The word at an aligned offset of a page. -/
def pageWord (s : State) (func : Nat) (p : Page) (off : Nat) : W64 :=
  match p with
  | .identity => identityWord s off
  | .qcb => qcbWord (s.queue (off / 64)) (off % 64)
  | .market => marketWord s off
  | .key => keyWord s off
  | .teardown => teardownWord s off
  | .power => powerWord s.mgmt off
  | .vlog => vlogWord s off
  | .msix => sget 0 s.host.msix (msixKey func off)
  | .pba => pbaWord s func off
  | .mail => mailWord s.mgmt off
  | .status => statusWord s func off

/-! ## Reads (R106 to R108, R540) -/

/-- The bytes of a register read. -/
def regBytes (s : State) (func : Nat) (p : Page) (off size : Nat) : List Byte :=
  ((bytesOfNat 8 (pageWord s func p (off / 8 * 8)).toNat).drop (off % 8)).take size

/-- A read of the violation log that touches DETAIL of the oldest entry. -/
def touchesDetail (p : Page) (off size : Nat) : Bool := decide (p = .vlog) && decide (off < 0x120) && decide (0x118 < off + size)

/-- Bytes of the violation log from an offset on. -/
def vlogBytes (s : State) (off size : Nat) : List Byte :=
  (List.range size).map fun i => (bytesOfNat 8 (vlogWord s ((off + i) / 8 * 8)).toNat)[(off + i) % 8]?.getD 0

/-- A host read of a register page: zeros and a violation for an untrusted access to a PRIVATE page. A read of any size that touches DETAIL of the
oldest violation returns its bytes and removes the entry; any other returns zeros where its size or alignment is not R540's. -/
def regRead (s : State) (func off size : Nat) : State :=
  match pageOf func off with
  | none => (if func = 0 ∨ !accessOk off size then s else s.violation 1 func 0 0 0xFFFF (BitVec.ofNat 64 off) 0).answer (bytesOfNat size 0)
  | some (p, o) =>
    if touchesDetail p o size then
      let t := s.answer (vlogBytes s o size)
      { t with host := { t.host with vlog := t.host.vlog.drop 1 } }
    else s.answer (if accessOk off size then regBytes s func p o size else bytesOfNat size 0)

/-- VIOLATION_LOG_READ at an offset of the log's page. -/
def vlogRead (s : State) (func off size : Nat) : State := regRead s func (0x600000 + off) size

def execViolationLogRead (func off size : Nat) (s : State) : Host.Outcome State Fault Refusal := .next (vlogRead s func off size)

/-! ## Writes (R540) -/

def State.modCfg (s : State) (f : MktCfg → MktCfg) : State := { s with market := { s.market with cfgW := f s.market.cfgW } }

/-- MKTCTL. -/
def putMktctl (s : State) (n : Nat) : State :=
  let w := min 50000 (max 50 (n % 65536))
  s.modCfg fun c => { c with interval := BitVec.ofNat 16 w, enable := n.testBit 16, migin := n.testBit 17 }

/-- A register of the tenant table. -/
def putTenant (s : State) (t k : Nat) (v : W64) : State :=
  let set := fun (f : Tenant → Tenant) => s.modCfg fun c => { c with tenants := smod Tenant.start t f c.tenants }
  match k with
  | 0 => { s with market := { s.market with purses := sput 0 t v s.market.purses } }
  | 1 => set fun x => { x with rate := v }
  | 2 => set fun x => { x with cap := v }
  | _ => set fun x => { x with valid := v.getLsbD 0, floor := v.getLsbD 1, floorw := v.extractLsb' 8 8 }

/-- CTXMKT of a context; VALID of a blocked context is not set (R516). -/
def putCtxMkt (s : State) (c off : Nat) (v : W64) : State :=
  if v.getLsbD 8 && s.blocked c then s.violation 4 0 0 1 c (BitVec.ofNat 64 off) 0
  else
    let m : CtxMkt := { tenant := v.extractLsb' 0 8, valid := v.getLsbD 8, pool := v.extractLsb' 16 10, func := v.extractLsb' 32 8 }
    s.modCfg fun g => { g with ctxs := sput CtxMkt.start c m g.ctxs }

/-- The weights of eight queues. -/
def putWeights (s : State) (q : Nat) (v : W64) : State :=
  s.modCfg fun c => { c with qweight := (List.range 8).foldl (fun m i => sput 16 (q + i) (v.extractLsb' (8 * i) 8) m) c.qweight }

def putCeil (s : State) (f : Nat) (upper : Bool) (v : W64) : State :=
  let old := ceilOf s f
  let new : BitVec 128 := if upper then v ++ old.extractLsb' 0 64 else old.extractLsb' 64 64 ++ v
  s.modCfg fun c => { c with vfceil := sput (BitVec.allOnes 128) f new c.vfceil }

/-- A word of the market configuration page. -/
def putMarket (s : State) (off : Nat) (v : W64) : State :=
  if off = 0 then putMktctl s v.toNat
  else if 0x100 ≤ off ∧ off < 0x240 ∧ off % 16 = 0 then
    let p : Pool := { reserve := v.extractLsb' 0 32, quota := v.extractLsb' 32 16 }
    s.modCfg fun c => { c with pools := sput Pool.start ((off - 0x100) / 16) p c.pools }
  else if 0x400 ≤ off ∧ off < 0x420 then
    s.modCfg fun c => { c with wysplit := sput 0xFFFFFFFF ((off - 0x400) / 8) (v.extractLsb' 0 32) c.wysplit }
  else if 0x800 ≤ off ∧ off < 0x1800 then putCeil s ((off - 0x800) / 16) (decide (off % 16 = 8)) v
  else if 0x2000 ≤ off ∧ off < 0x4000 then putTenant s ((off - 0x2000) / 32) (off % 32 / 8) v
  else if 0x4000 ≤ off ∧ off < 0x8000 ∧ off % 16 = 0 then putCtxMkt s ((off - 0x4000) / 16) (0x200000 + off) v
  else if 0x8000 ≤ off ∧ off < 0x9000 then putWeights s (off - 0x8000) v
  else if 0x9000 ≤ off ∧ off < 0x9800 then
    let p : SpinPol := { enable := v.getLsbD 0, streak := v.extractLsb' 8 8, gap := v.extractLsb' 16 8, maxage := v.extractLsb' 24 4 }
    s.modCfg fun c => { c with spin := sput SpinPol.start ((off - 0x9000) / 8) p c.spin }
  else s

/-- The key slot control page: what the write's own bytes do, and the merged word for the registers that keep their value. -/
def putKey (s : State) (off size : Nat) (raw merged : W64) : State :=
  let o := off / 8 * 8
  if o = 0 then { s with host := { s.host with ctxtBase := merged } }
  else if o = 8 then { s with host := { s.host with tlbVa := merged &&& 0x00FFFFFFFFFF0000 } }
  else if o = 0x10 then s.queueInvalidation (mergeReg 0 (off % 8) size raw)
  else if 0x100 ≤ o ∧ o < 0x1100 then kstatWrite s ((o - 0x100) / 8) (off % 8) size raw
  else if 0x2000 ≤ o ∧ o < 0x2800 then { s with host := { s.host with bar4 := sput 0 ((o - 0x2000) / 8) (merged.toNat % 2048) s.host.bar4 } }
  else if 0x8000 ≤ o then kmatWrite s ((o - 0x8000) / 64) (off % 64) size raw
  else s

/-- The scrub and teardown page: its WO registers take the bytes not written as 0 (R540). -/
def putTeardown (s : State) (off size : Nat) (raw merged : W64) : State :=
  let act := mergeReg 0 (off % 8) size raw
  let ctx := act.toNat % 1024
  match off / 8 * 8 with
  | 0x08 =>
    let r := scrubStart s ctx (act.getLsbD 10)
    if act.getLsbD 11 then { r.1 with mgmt := { r.1.mgmt with tdStat := keepFields 0xF0 r.1.mgmt.tdStat (BitVec.ofNat 64 (16 * r.2)) } } else s
  | 0x10 =>
    if s.mgmt.ctxBusy.isSome then s
    else if act.toNat / 1024 % 4 = 1 then ctxCreate s ctx
    else if act.toNat / 1024 % 4 = 2 then ctxReset s ctx
    else s
  | 0x20 => if size = 8 then tdcancelWrite s raw else s
  | 0x28 => { s with mgmt := { s.mgmt with tdAckA := merged } }
  | 0x30 => { s with mgmt := { s.mgmt with tdAckV := merged } }
  | _ => s

/-- The power control page. -/
def putPower (s : State) (off : Nat) (v : W64) : State :=
  let step := fun n : Nat => BitVec.ofNat 16 (min 150 (max 25 n))
  match off with
  | 0x00 =>
    { s with mgmt := { s.mgmt with
      fsen := v.getLsbD 0, bsen := v.getLsbD 1, fstep := step (v.toNat / 2 ^ 32 % 65536), bsstep := step (v.toNat / 2 ^ 48) } }
  | 0x08 => { s with mgmt := { s.mgmt with bsfloor := v.extractLsb' 0 16 } }
  | _ => s

/-- VLSTAT's LOST is W1C. -/
def putVlog (s : State) (off size : Nat) (raw : W64) : State :=
  if off / 8 = 0 then { s with host := { s.host with vlost := s.host.vlost &&& ~~~(mergeReg 0 (off % 8) size raw).extractLsb' 32 32 } } else s

/-- The mailbox page: MBCMD by a write of all 8 bytes only. -/
def putMail (s : State) (off size : Nat) (raw merged : W64) : State :=
  match off / 8 * 8 with
  | 0x00 => if size = 8 then mailWrite s raw else s
  | 0x10 => { s with mgmt := { s.mgmt with mbVec := merged.extractLsb' 0 11, mbEn := merged.getLsbD 16 } }
  | _ => s

/-- A write to a page. -/
def putPage (s : State) (func : Nat) (p : Page) (off size : Nat) (raw : W64) : State :=
  let o := off / 8 * 8
  let merged := mergeReg (pageWord s func p o) (off % 8) size raw
  match p with
  | .identity | .pba | .status => s
  | .qcb => qcbWrite s off size raw
  | .market => putMarket s o merged
  | .key => putKey s off size raw merged
  | .teardown => putTeardown s off size raw merged
  | .power => putPower s o merged
  | .vlog => putVlog s off size raw
  | .msix => { s with host := { s.host with msix := sput 0 (msixKey func o) merged s.host.msix } }
  | .mail => putMail s off size raw merged

/-- REGISTER_WRITE (R106, R540): off is the offset in the function's BAR0. -/
def registerWrite (s : State) (func off size : Nat) (value : W64) : State :=
  if !accessOk off size then s
  else match pageOf func off with
    | none => if func = 0 then s else s.violation 1 func 0 1 0xFFFF (BitVec.ofNat 64 off) 0
    | some (p, o) => putPage s func p o size value

def execRegisterWrite (func off size : Nat) (value : W64) (s : State) : Host.Outcome State Fault Refusal :=
  .next (registerWrite s func off size value)

/-! ## BAR4 (R103) -/

/-- The parts of a BAR4 access with their sites; none where a part does not translate, is denied or meets a LOST sector. -/
def bar4Sites (s : State) (func off size : Nat) (write : Bool) : Option Sites :=
  let b := sget 0 s.host.bar4 func
  if b / 1024 % 2 = 0 then none
  else match (sectorParts (BitVec.ofNat 64 off) size).mapM fun q =>
      (s.site (Party.ofCtx (b % 1024)) (if write then .w else .r) q.1 q.2).map fun t => (t, q.2) with
    | .error _ => none
    | .ok ts =>
      let bad := ts.any fun t => s.lostAt t.1 && !(write && decide (t.2 = 32))
      if bad then none else some ts

/-- An access that is not performed: zeros for a read, and the violation. -/
def bar4Denied (s : State) (func off dir : Nat) : State :=
  let b := sget 0 s.host.bar4 func
  s.violation 8 func 4 dir (if b / 1024 % 2 = 1 then b % 1024 else 0xFFFF) (BitVec.ofNat 64 off) 0

/-- The bytes at a site as they are stored (log entry 9). -/
def storedAt (s : State) (t : Site) (n : Nat) : List Byte :=
  match t with
  | .dev pa _ _ _ => ((s.mem.stored (pa / 32)).drop (pa % 32)).take n
  | .host ba _ _ => s.hostBytes ba n
  | .remote dv pa .. => (match s.line dv pa with
    | some c => (c.bytes.drop (pa % 32)).take n
    | none => [])
  | _ => []

/-- Stores bytes at a site as they are. -/
def putStoredAt (s : State) (t : Site) (bs : List Byte) : State :=
  match t with
  | .dev pa _ _ _ =>
    let old := s.mem.stored (pa / 32)
    let m := s.mem.putStored (pa / 32) (old.take (pa % 32) ++ bs ++ old.drop (pa % 32 + bs.length))
    { s with mem := { m with
      poison := poisonAfter m.poison pa bs.length false, lost := if bs.length = 32 then sdel (pa / 32) m.lost else m.lost } }
  | .host ba _ _ => s.putHost ba bs
  | _ => s

/-- The work of host accesses under a function's BAR4BIND. -/
def bar4Work (s : State) (func : Nat) : Work := Work.ofCtx (sget 0 s.host.bar4 func % 1024)

/-- A read; of pages of other devices with what their homes answer, and denied where one refuses. -/
def bar4Read (s : State) (func off size : Nat) : State :=
  let denied := fun (s : State) => (bar4Denied s func off 0).answer (bytesOfNat size 0)
  match bar4Sites s func off size false with
  | none => denied s
  | some ts => s.withSectors (.bar4Read func off size) (bar4Work s func) (fun u => readAsks (ts.filter fun t => !u.atHand t.1)) fun u rs =>
      if rs.any Answered.failed then denied u else u.answer (ts.flatMap fun t => storedAt u t.1 t.2)

def execBar4Read (func off size : Nat) (s : State) : Host.Outcome State Fault Refusal := .next (bar4Read s func off size)

/-- The parts of a write that lie at other devices, as they are, from each part's first byte on. -/
def bar4Asks : Sites → List Byte → List RemoteAsk
  | [], _ => []
  | t :: ts, bs =>
    match t.1 with
    | .remote dv pa .. => { dev := dv, pa := pa, lane := none, op := .write (bs.take t.2) none 0 } :: bar4Asks ts (bs.drop t.2)
    | _ => bar4Asks ts (bs.drop t.2)

/-- A write; to pages of other devices as their homes perform it, and logged where one refuses. -/
def bar4Write (s : State) (func off : Nat) (data : List Byte) : State :=
  match bar4Sites s func off data.length true with
  | none => bar4Denied s func off 1
  | some ts =>
    (ts.foldl (fun (p : State × List Byte) t => (putStoredAt p.1 t.1 (p.2.take t.2), p.2.drop t.2)) (s, data)).1.sendAsks
      (.post 8 func 4 (bar4Work s func).ctx (BitVec.ofNat 64 off) 0) (bar4Work s func) (bar4Asks ts data)

def execBar4Write (func off : Nat) (data : List Byte) (s : State) : Host.Outcome State Fault Refusal := .next (bar4Write s func off data)

/-! ## Configuration space (R102, R110; log entry 21) -/

/-- The PF's SR-IOV capability enables the VFs up to a number. -/
def enableVFs (s : State) (n : Nat) : State := { s with host := { s.host with numVFs := min n 255 } }

/-- A function-level reset: the function's MSI-X table is cleared, and of the PF the SR-IOV capability too (PRESUMED, log entry 21). -/
def resetFunction (s : State) (func : Nat) : State :=
  { s with host := { s.host with
    msix := s.host.msix.filter fun p => decide (p.1 / 65536 ≠ func), msixPba := s.host.msixPba.filter fun p => decide (p / 65536 ≠ func)
    numVFs := if func = 0 then 0 else s.host.numVFs } }

/-- The next access to host memory fails on the link (R104). AER logs a dropped write. -/
def execHostAccessFail (write : Bool) (s : State) : Host.Outcome State Fault Refusal :=
  .next { s with host := { s.host with failing := some write } }

/-! ## Reset (R517) -/

/-- A power-on clears everything but the host's own memory and what has left the machine. -/
def powerOn (s : State) : State :=
  { State.reset with
    agenda := s.agenda, free := s.free
    host := { HostSide.start with cells := s.host.cells, readData := s.host.readData }
    mgmt := { Mgmt.start with sent := s.mgmt.sent, headers := s.mgmt.headers, inbound := s.mgmt.inbound } }

def execPowerOn (s : State) : Host.Outcome State Fault Refusal := .next (powerOn s)

/-- Every generation rises by 1, skipping 0. -/
def bumpAllGens (g : List (Nat × W16)) : List (Nat × W16) :=
  ((List.range 1024).map fun c => (c, nextGen (sget CtxGen.start g c))).filter fun p => decide (p.2 ≠ CtxGen.start)

/-- A reset of the device: what stays in the always-on domain, device memory, the error log, TIME, retired units and the numbers that
are unique since power-on. -/
def deviceReset (s : State) : State :=
  let s := s.loseLines fun _ => true
  let m := s.mgmt
  { State.reset with
    timeBase := s.time, agenda := s.agenda, free := s.free, mem := s.mem
    keys := ((s.keys.map fun k => k.1).dedup.foldl State.zeroise s).keys
    host := { HostSide.start with
      cells := s.host.cells, readData := s.host.readData, ctxtBase := s.host.ctxtBase, numVFs := s.host.numVFs }
    mgmt := { Mgmt.start with
      nextDump := m.nextDump, errlog := m.errlog, errLost := m.errLost, evcnt := m.evcnt, scrubPhase := m.scrubPhase, scrubCtx := m.scrubCtx
      scrubUnits := m.scrubUnits, scrubTotal := m.scrubTotal, scrubTags := m.scrubTags, scrubBusy := m.scrubBusy
      scrubRestarted := m.scrubRestarted, tdblk := m.tdblk, ctxgen := bumpAllGens m.ctxgen, luffe := m.luffe, lanesDown := m.lanesDown
      withheld := m.withheld, wayDown := m.wayDown, outNext := m.outNext, fenced := m.fenced, inbound := m.inbound
      sent := m.sent, headers := m.headers } }

def execDeviceReset (s : State) : Host.Outcome State Fault Refusal := .next (deviceReset s)

end Sys2Proof.Machine
end

