-- ==== Sys2Proof/Machine/Dispatch.lean ====
section
/-! DEFINITION. Dispatch: one arm per instruction or event, one direct call of its meaning. -/

namespace Sys2Proof.Machine

/-- The meaning of an instruction in a state. -/
def exec (i : Instr) (s : State) : Host.Outcome State Fault Refusal :=
  match i with
  | .bra h f => Sys2Proof.Machine.execBra h f s
  | .brx h f => Sys2Proof.Machine.execBrx h f s
  | .call h f => Sys2Proof.Machine.execCall h f s
  | .callx h f => Sys2Proof.Machine.execCallx h f s
  | .ret h f => Sys2Proof.Machine.execRet h f s
  | .joinJ h f => Sys2Proof.Machine.execJoinJ h f s
  | .jset h f => Sys2Proof.Machine.execJset h f s
  | .exitL h f => Sys2Proof.Machine.execExitL h f s
  | .nop h f => Sys2Proof.Machine.execNop h f s
  | .yieldE h f => Sys2Proof.Machine.execYieldE h f s
  | .winb h f => Sys2Proof.Machine.execWinb h f s
  | .brk h f => Sys2Proof.Machine.execBrk h f s
  | .trapU h f => Sys2Proof.Machine.execTrapU h f s
  | .rtu h f => Sys2Proof.Machine.execRtu h f s
  | .brs h f => Sys2Proof.Machine.execBrs h f s
  | .add h f => Sys2Proof.Machine.execAdd h f s
  | .sub h f => Sys2Proof.Machine.execSub h f s
  | .mul h f => Sys2Proof.Machine.execMul h f s
  | .mulh h f => Sys2Proof.Machine.execMulh h f s
  | .mad h f => Sys2Proof.Machine.execMad h f s
  | .divI h f => Sys2Proof.Machine.execDivI h f s
  | .remI h f => Sys2Proof.Machine.execRemI h f s
  | .absI h f => Sys2Proof.Machine.execAbsI h f s
  | .minI h f => Sys2Proof.Machine.execMinI h f s
  | .maxI h f => Sys2Proof.Machine.execMaxI h f s
  | .andB h f => Sys2Proof.Machine.execAndB h f s
  | .orB h f => Sys2Proof.Machine.execOrB h f s
  | .xorB h f => Sys2Proof.Machine.execXorB h f s
  | .andn h f => Sys2Proof.Machine.execAndn h f s
  | .shl h f => Sys2Proof.Machine.execShl h f s
  | .shr h f => Sys2Proof.Machine.execShr h f s
  | .sar h f => Sys2Proof.Machine.execSar h f s
  | .rol h f => Sys2Proof.Machine.execRol h f s
  | .popc h f => Sys2Proof.Machine.execPopc h f s
  | .clz h f => Sys2Proof.Machine.execClz h f s
  | .ctz h f => Sys2Proof.Machine.execCtz h f s
  | .brev h f => Sys2Proof.Machine.execBrev h f s
  | .bfe h f => Sys2Proof.Machine.execBfe h f s
  | .bfi h f => Sys2Proof.Machine.execBfi h f s
  | .perm h f => Sys2Proof.Machine.execPerm h f s
  | .sel h f => Sys2Proof.Machine.execSel h f s
  | .cmp h f => Sys2Proof.Machine.execCmp h f s
  | .mov h f => Sys2Proof.Machine.execMov h f s
  | .movi h f => Sys2Proof.Machine.execMovi h f s
  | .addi h f => Sys2Proof.Machine.execAddi h f s
  | .lea h f => Sys2Proof.Machine.execLea h f s
  | .movrGet h f => Sys2Proof.Machine.execMovrGet h f s
  | .movrPut h f => Sys2Proof.Machine.execMovrPut h f s
  | .salu h f => Sys2Proof.Machine.execSalu h f s
  | .scmp h f => Sys2Proof.Machine.execScmp h f s
  | .smovi h f => Sys2Proof.Machine.execSmovi h f s
  | .smov h f => Sys2Proof.Machine.execSmov h f s
  | .sfrom h f => Sys2Proof.Machine.execSfrom h f s
  | .ssel h f => Sys2Proof.Machine.execSsel h f s
  | .slea h f => Sys2Proof.Machine.execSlea h f s
  | .plop h f => Sys2Proof.Machine.execPlop h f s
  | .pfrom h f => Sys2Proof.Machine.execPfrom h f s
  | .pto h f => Sys2Proof.Machine.execPto h f s
  | .pcntPred h f => Sys2Proof.Machine.execPcntPred h f s
  | .fadd h f => Sys2Proof.Machine.execFadd h f s
  | .fsub h f => Sys2Proof.Machine.execFsub h f s
  | .fmul h f => Sys2Proof.Machine.execFmul h f s
  | .ffma h f => Sys2Proof.Machine.execFfma h f s
  | .fmin h f => Sys2Proof.Machine.execFmin h f s
  | .fmax h f => Sys2Proof.Machine.execFmax h f s
  | .fcmp h f => Sys2Proof.Machine.execFcmp h f s
  | .fclass h f => Sys2Proof.Machine.execFclass h f s
  | .fdiv h f => Sys2Proof.Machine.execFdiv h f s
  | .fsqrt h f => Sys2Proof.Machine.execFsqrt h f s
  | .frcp h f => Sys2Proof.Machine.execFrcp h f s
  | .frsq h f => Sys2Proof.Machine.execFrsq h f s
  | .fex2 h f => Sys2Proof.Machine.execFex2 h f s
  | .flg2 h f => Sys2Proof.Machine.execFlg2 h f s
  | .fsinp h f => Sys2Proof.Machine.execFsinp h f s
  | .fcosp h f => Sys2Proof.Machine.execFcosp h f s
  | .ftanh h f => Sys2Proof.Machine.execFtanh h f s
  | .frint h f => Sys2Proof.Machine.execFrint h f s
  | .fscal h f => Sys2Proof.Machine.execFscal h f s
  | .fdot2 h f => Sys2Proof.Machine.execFdot2 h f s
  | .fclamp h f => Sys2Proof.Machine.execFclamp h f s
  | .fsig h f => Sys2Proof.Machine.execFsig h f s
  | .cvt h f => Sys2Proof.Machine.execCvt h f s
  | .cvl6 h f => Sys2Proof.Machine.execCvl6 h f s
  | .pk6 h f => Sys2Proof.Machine.execPk6 h f s
  | .upk6 h f => Sys2Proof.Machine.execUpk6 h f s
  | .bsclFind h f => Sys2Proof.Machine.execBsclFind h f s
  | .bsclApply h f => Sys2Proof.Machine.execBsclApply h f s
  | .lmul h f => Sys2Proof.Machine.execLmul h f s
  | .shfl h f => Sys2Proof.Machine.execShfl h f s
  | .shfx h f => Sys2Proof.Machine.execShfx h f s
  | .shfd h f => Sys2Proof.Machine.execShfd h f s
  | .qswp h f => Sys2Proof.Machine.execQswp h f s
  | .qbc h f => Sys2Proof.Machine.execQbc h f s
  | .vote h f => Sys2Proof.Machine.execVote h f s
  | .wred h f => Sys2Proof.Machine.execWred h f s
  | .wscan h f => Sys2Proof.Machine.execWscan h f s
  | .matchLanes h f => Sys2Proof.Machine.execMatchLanes h f s
  | .firstL h f => Sys2Proof.Machine.execFirstL h f s
  | .ld h f => Sys2Proof.Machine.execLd h f s
  | .st h f => Sys2Proof.Machine.execSt h f s
  | .ldv h f => Sys2Proof.Machine.execLdv h f s
  | .stv h f => Sys2Proof.Machine.execStv h f s
  | .sld h f => Sys2Proof.Machine.execSld h f s
  | .sst h f => Sys2Proof.Machine.execSst h f s
  | .atom h f => Sys2Proof.Machine.execAtom h f s
  | .acas h f => Sys2Proof.Machine.execAcas h f s
  | .fence h f => Sys2Proof.Machine.execFence h f s
  | .sptest h f => Sys2Proof.Machine.execSptest h f s
  | .spcast h f => Sys2Proof.Machine.execSpcast h f s
  | .pref h f => Sys2Proof.Machine.execPref h f s
  | .cwb h f => Sys2Proof.Machine.execCwb h f s
  | .cinv h f => Sys2Proof.Machine.execCinv h f s
  | .cpy h f => Sys2Proof.Machine.execCpy h f s
  | .cpyt h f => Sys2Proof.Machine.execCpyt h f s
  | .cpyg h f => Sys2Proof.Machine.execCpyg h f s
  | .wtge h f => Sys2Proof.Machine.execWtge h f s
  | .wteq h f => Sys2Proof.Machine.execWteq h f s
  | .poll h f => Sys2Proof.Machine.execPoll h f s
  | .mma h f => Sys2Proof.Machine.execMma h f s
  | .mmat h f => Sys2Proof.Machine.execMmat h f s
  | .mzero h f => Sys2Proof.Machine.execMzero h f s
  | .mdrain h f => Sys2Proof.Machine.execMdrain h f s
  | .mdrag h f => Sys2Proof.Machine.execMdrag h f s
  | .mpop h f => Sys2Proof.Machine.execMpop h f s
  | .mpush h f => Sys2Proof.Machine.execMpush h f s
  | .mtake h f => Sys2Proof.Machine.execMtake h f s
  | .mgive h f => Sys2Proof.Machine.execMgive h f s
  | .mstat h f => Sys2Proof.Machine.execMstat h f s
  | .bar h f => Sys2Proof.Machine.execBar h f s
  | .barSet h f => Sys2Proof.Machine.execBarSet h f s
  | .bara h f => Sys2Proof.Machine.execBara h f s
  | .baraWait h f => Sys2Proof.Machine.execBaraWait h f s
  | .baraRem h f => Sys2Proof.Machine.execBaraRem h f s
  | .baraHdl h f => Sys2Proof.Machine.execBaraHdl h f s
  | .gbar h f => Sys2Proof.Machine.execGbar h f s
  | .ldf h f => Sys2Proof.Machine.execLdf h f s
  | .ldfe h f => Sys2Proof.Machine.execLdfe h f s
  | .stef h f => Sys2Proof.Machine.execStef h f s
  | .stf h f => Sys2Proof.Machine.execStf h f s
  | .fest h f => Sys2Proof.Machine.execFest h f s
  | .sigadd h f => Sys2Proof.Machine.execSigadd h f s
  | .twpart h f => Sys2Proof.Machine.execTwpart h f s
  | .twstat h f => Sys2Proof.Machine.execTwstat h f s
  | .enq h f => Sys2Proof.Machine.execEnq h f s
  | .enqt h f => Sys2Proof.Machine.execEnqt h f s
  | .spawn h f => Sys2Proof.Machine.execSpawn h f s
  | .scopeNew h f => Sys2Proof.Machine.execScopeNew h f s
  | .cancel h f => Sys2Proof.Machine.execCancel h f s
  | .cancelAck h f => Sys2Proof.Machine.execCancelAck h f s
  | .scack h f => Sys2Proof.Machine.execScack h f s
  | .scinfo h f => Sys2Proof.Machine.execScinfo h f s
  | .sread h f => Sys2Proof.Machine.execSread h f s
  | .sreadV h f => Sys2Proof.Machine.execSreadV h f s
  | .swrite h f => Sys2Proof.Machine.execSwrite h f s
  | .bidw h f => Sys2Proof.Machine.execBidw h f s
  | .bidr h f => Sys2Proof.Machine.execBidr h f s
  | .priceR h f => Sys2Proof.Machine.execPriceR h f s
  | .leaseR h f => Sys2Proof.Machine.execLeaseR h f s
  | .pcnt h f => Sys2Proof.Machine.execPcnt h f s
  | .clockR h f => Sys2Proof.Machine.execClockR h f s
  | .keyz h f => Sys2Proof.Machine.execKeyz h f s
  | .keyzCtx h f => Sys2Proof.Machine.execKeyzCtx h f s
  | .scrub h f => Sys2Proof.Machine.execScrub h f s
  | .scrubStat h f => Sys2Proof.Machine.execScrubStat h f s
  | .sleep h f => Sys2Proof.Machine.execSleep h f s
  | .sleepUntil h f => Sys2Proof.Machine.execSleepUntil h f s
  | .fencePerformed at_ => Sys2Proof.Machine.execFencePerformed at_ s
  | .varLatencyWriteback wave seq => Sys2Proof.Machine.execVarLatencyWriteback wave seq s
  | .copyChunk copy => Sys2Proof.Machine.execCopyChunk copy s
  | .memoryWaitSatisfied at_ lane => Sys2Proof.Machine.execMemoryWaitSatisfied at_ lane s
  | .matrixKstep engine => Sys2Proof.Machine.execMatrixKstep engine s
  | .drainRowPush engine => Sys2Proof.Machine.execDrainRowPush engine s
  | .feWaiterServed word => Sys2Proof.Machine.execFeWaiterServed word s
  | .enqRetry at_ => Sys2Proof.Machine.execEnqRetry at_ s
  | .queueStall at_ => Sys2Proof.Machine.execQueueStall at_ s
  | .taskExamine task => Sys2Proof.Machine.execTaskExamine task s
  | .cancelledWaveStop wave => Sys2Proof.Machine.execCancelledWaveStop wave s
  | .subtreeQuiet handle => Sys2Proof.Machine.execSubtreeQuiet handle s
  | .sleepWake at_ => Sys2Proof.Machine.execSleepWake at_ s
  | .instructionFetch at_ => Sys2Proof.Machine.execInstructionFetch at_ s
  | .trapDelivery at_ => Sys2Proof.Machine.execTrapDelivery at_ s
  | .faultDump group => Sys2Proof.Machine.execFaultDump group s
  | .doorbellWrite func off size value => Sys2Proof.Machine.execDoorbellWrite func off size value s
  | .doorbellRead func off size => Sys2Proof.Machine.execDoorbellRead func off size s
  | .qcbWrite func off size value => Sys2Proof.Machine.execQcbWrite func off size value s
  | .enable func queue => Sys2Proof.Machine.execEnable func queue s
  | .disable func queue => Sys2Proof.Machine.execDisable func queue s
  | .queueResume func queue => Sys2Proof.Machine.execQueueResume func queue s
  | .queueRelease func queue => Sys2Proof.Machine.execQueueRelease func queue s
  | .packetConsume queue => Sys2Proof.Machine.execPacketConsume queue s
  | .barrierPass queue => Sys2Proof.Machine.execBarrierPass queue s
  | .launchComplete launch => Sys2Proof.Machine.execLaunchComplete launch s
  | .dispatchPlace cluster => Sys2Proof.Machine.execDispatchPlace cluster s
  | .defCharge => Sys2Proof.Machine.execDefCharge s
  | .clusterReserve queue => Sys2Proof.Machine.execClusterReserve queue s
  | .dispatchSave group => Sys2Proof.Machine.execDispatchSave group s
  | .gangStop group kind => Sys2Proof.Machine.execGangStop group kind s
  | .bidFreeze => Sys2Proof.Machine.execBidFreeze s
  | .publication => Sys2Proof.Machine.execPublication s
  | .intervalStart => Sys2Proof.Machine.execIntervalStart s
  | .spinnaker ctx => Sys2Proof.Machine.execSpinnaker ctx s
  | .migrationOffer image => Sys2Proof.Machine.execMigrationOffer image s
  | .migrationAccepted ctx dev => Sys2Proof.Machine.execMigrationAccepted ctx dev s
  | .priceFlitReceive flit => Sys2Proof.Machine.execPriceFlitReceive flit s
  | .timeFlitSend => Sys2Proof.Machine.execTimeFlitSend s
  | .timeFlitReceive time delay => Sys2Proof.Machine.execTimeFlitReceive time delay s
  | .access req => Sys2Proof.Machine.execAccess req s
  | .response id answer => Sys2Proof.Machine.execResponse id answer s
  | .responseTimeout id => Sys2Proof.Machine.execResponseTimeout id s
  | .reduceContribution c => Sys2Proof.Machine.execReduceContribution c s
  | .keygenHoldTimeout job child => Sys2Proof.Machine.execKeygenHoldTimeout job child s
  | .ratlineFlit r => Sys2Proof.Machine.execRatlineFlit r s
  | .ratlineHoldEnd => Sys2Proof.Machine.execRatlineHoldEnd s
  | .shard sh => Sys2Proof.Machine.execShard sh s
  | .flitUnknownType ty => Sys2Proof.Machine.execFlitUnknownType ty s
  | .linkTraining port versions peer => Sys2Proof.Machine.execLinkTraining port versions peer s
  | .laneWithdraw lane => Sys2Proof.Machine.execLaneWithdraw lane s
  | .bar4Read func off size => Sys2Proof.Machine.execBar4Read func off size s
  | .bar4Write func off data => Sys2Proof.Machine.execBar4Write func off data s
  | .hostAccessFail write => Sys2Proof.Machine.execHostAccessFail write s
  | .registerWrite func off size value => Sys2Proof.Machine.execRegisterWrite func off size value s
  | .violationLogRead func off size => Sys2Proof.Machine.execViolationLogRead func off size s
  | .tlbinv func value => Sys2Proof.Machine.execTlbinv func value s
  | .tlbInvalidateDone => Sys2Proof.Machine.execTlbInvalidateDone s
  | .kmatWrite func slot off size value => Sys2Proof.Machine.execKmatWrite func slot off size value s
  | .kstatWrite func slot off size value => Sys2Proof.Machine.execKstatWrite func slot off size value s
  | .scrubcmd func value => Sys2Proof.Machine.execScrubcmd func value s
  | .scrubPhase units => Sys2Proof.Machine.execScrubPhase units s
  | .create func ctx => Sys2Proof.Machine.execCreate func ctx s
  | .reset func ctx => Sys2Proof.Machine.execReset func ctx s
  | .ctxResetReroot ctx => Sys2Proof.Machine.execCtxResetReroot ctx s
  | .tdcancel func size value => Sys2Proof.Machine.execTdcancel func size value s
  | .powerWindow watts luff => Sys2Proof.Machine.execPowerWindow watts luff s
  | .eccError e => Sys2Proof.Machine.execEccError e s
  | .selfTestDone unit passed spare => Sys2Proof.Machine.execSelfTestDone unit passed spare s
  | .powerOn => Sys2Proof.Machine.execPowerOn s
  | .deviceReset => Sys2Proof.Machine.execDeviceReset s
  | .boot func block => Sys2Proof.Machine.execBoot func block s
  | .faults func block => Sys2Proof.Machine.execFaults func block s
  | .policy func block => Sys2Proof.Machine.execPolicy func block s
  | .discard func block => Sys2Proof.Machine.execDiscard func block s
  | .resume func block => Sys2Proof.Machine.execResume func block s
  | .stop func block => Sys2Proof.Machine.execStop func block s
  | .release func block => Sys2Proof.Machine.execRelease func block s
  | .stall func block => Sys2Proof.Machine.execStall func block s
  | .ckptSave func block => Sys2Proof.Machine.execCkptSave func block s
  | .ckptRestore func block => Sys2Proof.Machine.execCkptRestore func block s
  | .reduce func block => Sys2Proof.Machine.execReduce func block s
  | .keygen func block => Sys2Proof.Machine.execKeygen func block s
  | .ratline func block => Sys2Proof.Machine.execRatline func block s
  | .attest func block => Sys2Proof.Machine.execAttest func block s
  | .errlog func block => Sys2Proof.Machine.execErrlog func block s
  | .podidx func block => Sys2Proof.Machine.execPodidx func block s
  | .migrationRefused ctx dev => Sys2Proof.Machine.execMigrationRefused ctx dev s
  | .peerLost dev => Sys2Proof.Machine.execPeerLost dev s
  | .corePowerGate core => Sys2Proof.Machine.execCorePowerGate core s
  | .coreWake core => Sys2Proof.Machine.execCoreWake core s
  | .thermalTrip on => Sys2Proof.Machine.execThermalTrip on s
  | .eventMessageHoldoff => Sys2Proof.Machine.execEventMessageHoldoff s

end Sys2Proof.Machine
end

