-- ==== Sys2Proof/Machine/Issue.lean ====
section
/-! DEFINITION. Issue: the choice of an entry (R177, R179, R211), decode with its checks (R42, R43), the matrix scoreboard (R195), and
what an issue counts. -/

namespace Sys2Proof.Machine

/-! ## Which entry issues (R177, R179, R211) -/

/-- The entry can be chosen: READY, its standing back for a `yield` over, no trap waiting for it (R211, R277). -/
def Wave.canIssue (w : Wave) (e : Entry) : Bool := decide (e.st = .ready) && e.ylow.isEmpty && !w.trapWaits e

def passLimit : Nat := 64

/-- e is taken before f (R179 step 3). -/
def Entry.beats (e f : Entry) : Bool :=
  decide (f.pri.toNat < e.pri.toNat) || (decide (e.pri = f.pri) &&
    (decide (e.pc.toNat < f.pc.toNat) || (decide (e.pc = f.pc) && decide (Mask.lowest e.mask < Mask.lowest f.mask))))

/-- The slots a wave may issue from. -/
def Wave.readySlots (w : Wave) : List (Nat × Entry) :=
  (List.range 8).filterMap fun i => match w.entry? i with
    | some e => if w.canIssue e then some (i, e) else none
    | none => none

/-- The slot that a wave issues from (R179). -/
def Wave.chosen (w : Wave) : Option Nat :=
  let all := w.readySlots
  let late := all.filter fun p => decide (passLimit ≤ p.2.pass)
  ((if late.isEmpty then all else late).foldl (fun (best : Option (Nat × Entry)) p => match best with
    | some b => if p.2.beats b.2 then some p else some b
    | none => some p) none).map fun p => p.1

/-- Each READY entry that is passed over counts it, the issuing one starts again (R179). -/
def Wave.passOver (w : Wave) (slot : Nat) : Wave :=
  { w with entries := ((List.range 8).zip w.entries).map fun p => p.2.map fun e =>
      if p.1 = slot then { e with pass := 0, latch := none, remote := [], ylow := [], st := .ready }
      else { e with pass := if e.st = .ready then min passLimit (e.pass + 1) else e.pass, ylow := e.ylow.filter fun i => i != slot } }

/-- A group's waves may issue: the wave runs, on a cluster that serves the group's context (R168). -/
def State.mayIssue (s : State) (g : Group) (w : Wave) : Bool := s.waveRuns g w && !s.lostCluster g

/-- The waves of a partition that hold a READY entry and may issue, those that stand back for others among them. -/
def State.rivals (s : State) (core part : Nat) : List (WaveRef × Wave) :=
  (s.wavesOn core).filter fun p => decide (p.2.partition = part) && !p.2.readySlots.isEmpty &&
    (match s.group? p.1.gid with
      | some g => s.mayIssue g p.2
      | none => false)

/-- The issues within which each wave must issue one, when r issues now: eight less those it has missed. -/
def dueIn (r : WaveRef) (others : List (WaveRef × Wave)) : List (WaveRef × Wave × Int) :=
  others.map fun p => (p.1, { p.2 with wdefer := p.2.wdefer.filter fun q => q != r }, 8 - ((p.2.starve : Int) + 1))

/-- A wave that others stand back for must issue before they do (R211). -/
def dueBefore (l : List (WaveRef × Wave × Int)) : List (WaveRef × Wave × Int) :=
  l.map fun p => (p.1, p.2.1, l.foldl (fun m q => if q.2.1.wdefer.contains p.1 then min m (q.2.2 - 1) else m) p.2.2)

/-- The promise of R177 can still be kept when r issues: for each k, at most k other waves must issue within the next k issues; or, where it
cannot, no other wave that may issue must do so sooner. -/
def State.promiseKept (s : State) (r : WaveRef) (w : Wave) : Bool :=
  match s.group? r.gid with
  | none => false
  | some g => match g.place with
    | .resident core =>
      let rivals := s.rivals core w.partition
      let others := rivals.filter fun p => p.1 != r
      let due := (List.range 8).foldl (fun l _ => dueBefore l) (dueIn r others)
      let all := (List.range 8).foldl (fun l _ => dueBefore l) (dueIn r ((r, w) :: others))
      let mine := ((all.find? fun p => p.1 == r).map fun p => p.2.2).getD 0
      (List.range 8).all (fun k => decide ((due.filter fun p => decide (p.2.2 ≤ (k : Int))).length ≤ k)) ||
        all.all fun p => !p.2.1.wdefer.isEmpty || decide (mine ≤ p.2.2)
    | _ => false

/-- What an issue leaves in the other waves of its partition: their count of issues without one of their own, and the waves that stood
back for it (R177, R211). -/
def State.countIssue (s : State) (r : WaveRef) (core part : Nat) : State :=
  (s.wavesOn core).foldl (fun s p =>
    if p.2.partition ≠ part then s
    else s.modWave p.1.gid p.1.wi fun w =>
      if p.1 = r then { w with starve := 0 }
      else { w with starve := if w.hasReady then w.starve + 1 else 0, wdefer := w.wdefer.filter fun q => q != r }) s

/-! ## The scoreboard (R195, R311) -/

/-- Registers of an access of a size code. -/
def sizeRegs (sz : BitVec 3) : Nat := if sz.toNat = 3 then 2 else if sz.toNat = 4 then 4 else 1

/-- The vector registers an instruction writes. -/
def destRegs (s : State) (x : Issue) (i : Instr) : List Nat :=
  let one := fun (f : RF) => x.w.vecRegs f.d 1
  let typed := fun (f : RF) => x.w.vecRegs f.d (if (WF.ty f).is64 then 2 else 1)
  match i with
  | .call _ f | .callx _ f => x.w.vecRegs f.a 2
  | .add _ f | .sub _ f | .mul _ f | .mulh _ f | .mad _ f | .divI _ f | .remI _ f | .absI _ f | .minI _ f | .maxI _ f | .andB _ f
  | .orB _ f | .xorB _ f | .andn _ f | .shl _ f | .shr _ f | .sar _ f | .rol _ f | .popc _ f | .clz _ f | .ctz _ f | .brev _ f
  | .bfe _ f | .bfi _ f | .perm _ f | .sel _ f | .mov _ f | .movrGet _ f | .fadd _ f | .fsub _ f | .fmul _ f | .ffma _ f
  | .fmin _ f | .fmax _ f | .fdiv _ f | .fsqrt _ f | .frcp _ f | .frsq _ f | .fex2 _ f | .flg2 _ f | .fsinp _ f | .fcosp _ f
  | .ftanh _ f | .frint _ f | .fscal _ f | .fclamp _ f | .fsig _ f | .cvt _ f | .cvl6 _ f | .shfl _ f | .shfx _ f | .shfd _ f
  | .qswp _ f | .qbc _ f | .wred _ f | .wscan _ f => typed f
  | .pto _ f | .pcntPred _ f | .fdot2 _ f | .bsclFind _ f | .bsclApply _ f | .lmul _ f | .matchLanes _ f | .sptest _ f => one f
  | .firstL _ f => if f.fn = 0 then typed f else one f
  | .vote _ f => if f.fn = 3 ∨ f.fn = 4 then one f else []
  | .lea _ f => x.w.vecRegs f.d 2
  | .spcast _ f => x.w.vecRegs f.d (if f.fn = 3 then 1 else 2)
  | .pk6 _ f => x.w.vecRegs f.d 3
  | .upk6 _ f => x.w.vecRegs f.d 16
  | .movi _ f | .addi _ f => x.w.vecRegs f.d (if f.x then 2 else 1)
  | .movrPut _ f =>
    let t := WF.ty f
    (match movrReg x.w t.is64 (lo32 (movrIndex s x f.b).val) with
      | some r => if t.is64 then [r, r + 1] else [r]
      | none => [])
  | .ld _ f | .ldv _ f | .atom _ f | .acas _ f | .wtge _ f | .wteq _ f | .ldf _ f | .ldfe _ f | .sigadd _ f =>
    x.w.vecRegs f.d (sizeRegs f.sz)
  | .sreadV _ f => x.w.vecRegs f.d 2
  | .mpop _ f | .mstat _ f => x.w.vecRegs f.a 1
  | _ => []

/-- An instruction that accesses memory or releases or acquires: it stays behind a fence of its wave (R373, R406). -/
def isAccess : Instr → Bool
  | .ld .. | .st .. | .ldv .. | .stv .. | .sld .. | .sst .. | .atom .. | .acas .. | .fence .. | .pref .. | .cwb .. | .cinv .. | .cpy .. | .cpyt ..
  | .cpyg .. | .wtge .. | .wteq .. | .poll .. | .ldf .. | .ldfe .. | .stef .. | .stf .. | .fest .. | .sigadd .. | .enq .. | .enqt .. | .spawn .. => true
  | _ => false

/-- The M format fields of an access (R361). -/
def memFields : Instr → Option MF
  | .ld _ f | .st _ f | .ldv _ f | .stv _ f | .sld _ f | .sst _ f | .atom _ f | .acas _ f | .wtge _ f | .wteq _ f | .poll _ f | .ldf _ f
  | .ldfe _ f | .stef _ f | .stf _ f | .fest _ f | .sigadd _ f => some f
  | _ => none

/-- An access with ORD acquire or acq_rel (R361). -/
def isAcquire (i : Instr) : Bool := (memFields i).any fun f => f.ord.getLsbD 0

/-- A release: an access with ORD release or acq_rel (R361), an arrival at a barrier (R424, R427, R429), `enq` and `enqt` (R443). -/
def isRelease : Instr → Bool
  | .bar .. | .bara .. | .baraRem .. | .gbar .. | .enq .. | .enqt .. => true
  | i => (memFields i).any fun f => f.ord.getLsbD 1

/-- What an entry that is not done with its instruction keeps the wave's later instructions from: any access behind a fence (R373), behind
accesses that another device has still to answer (R399) and behind an acquire (R361, R403); a release behind whatever is outstanding (R402). -/
def Entry.keepsBack (e : Entry) (i : Instr) : Bool :=
  (isAccess i && (decide (e.st = .held .fence) || decide (e.st = .held .remote) ||
    ((decide (e.st = .wait .mem) || decide (e.st = .wait .fe)) && e.insn.any isAcquire))) || (isRelease i && e.outstanding)

/-- An instruction that does not issue yet: an earlier one of its wave keeps it back, or it would write a register that the engine has still
to read (R195). -/
def heldBack (s : State) (x : Issue) (i : Instr) : Bool :=
  (x.w.entries.any fun oe => oe.any fun e => e.keepsBack i) ||
  (let ps := s.protectedRegs { gid := x.ref.gid, wi := x.ref.wi }
   !ps.isEmpty && decide (x.exec (hdrOf i) ≠ 0) && (destRegs s x i).any fun r => ps.contains r)

/-! ## The issue -/

/-- What the word of an issuing entry comes to (R42): a cause, or an instruction. -/
def checkWord (g : Group) (w : W64) : Except Cause Instr :=
  if managerOnly w && !g.isManager then .error .priv
  else match decode w with
    | .ok i => .ok i
    | .error _ => .error .illegalInstr

/-- The machine with an issue of an entry accounted: pass-over counts, ISSUES, the group's idle count. -/
def State.beginIssue (s : State) (x : Issue) : State :=
  let s := s.modGroup x.ref.gid fun g => { g with idle := 0 }
  let s := s.setWave x.ref.gid x.ref.wi (x.w.passOver x.ref.slot)
  let s := match x.g.place with
    | .resident core => s.countIssue { gid := x.ref.gid, wi := x.ref.wi } core x.w.partition
    | _ => s
  { s.count x.g.ctx 1 1 with cur := some x.ref }

/-- The entry is HELD at the instruction it did not issue. -/
def State.stillHeld (s : State) (r : EntryRef) (pc : W64) : Bool :=
  match (s.wave? r.gid r.wi).bind fun w => w.entry? r.slot with
  | some e => decide (e.st = .held .retry) && decide (e.pc = pc)
  | none => false

/-- An instruction word issues (R42, R43, R195). -/
def issueWord (s : State) (x : Issue) (w : W64) : Host.Outcome State Fault Refusal :=
  match checkWord x.g w with
  | .error c => match (s.beginIssue x).issueOf x.ref with
    | some y => .next (parkWhole (s.beginIssue x) y plainHdr c w)
    | none => .next s
  | .ok i =>
    if heldBack s x i then .next (s.retryEntry x.ref)
    else match exec i (s.beginIssue x) with
      | .next t => .next (if t.stillHeld x.ref x.e.pc then s.retryEntry x.ref else t)
      | o => o

/-- An entry that R177, R179 and R211 let issue fetches its word and issues it; any other entry does nothing. -/
def issueEntry (s : State) (r : EntryRef) : Host.Outcome State Fault Refusal :=
  match s.issueOf r with
  | none => .next s
  | some x =>
    let wr : WaveRef := { gid := r.gid, wi := r.wi }
    if !s.mayIssue x.g x.w || !x.w.wdefer.isEmpty || decide (x.w.chosen ≠ some r.slot) || !s.promiseKept wr x.w then .next s
    else match fetchWord s x with
      | .fault c => .next (parkWhole s x plainHdr c x.e.pc)
      | .ask dev pa => .next (askWord s x dev pa)
      | .word w => issueWord s x w

end Sys2Proof.Machine
end

