-- ==== Sys2Proof/Machine/Traffic.lean ====
section
/-! DEFINITION. Traffic: the accesses that each action makes, in L2, HBM, the walkers and on the links, with the contexts that they are counted for
(R159, R160, R349 to R353, R362, R378). -/

namespace Sys2Proof.Machine

/-! ## One access -/

/-- How an access goes to the L2. -/
structure TouchHow where
  ctx : Nat
  kind : TouchKind
  ch : Nat
  l1 : Bool

/-- The dispatcher's own accesses read and write with CH normal. -/
def TouchHow.reads (ctx : Nat) : TouchHow := { ctx := ctx, kind := .read, ch := 0, l1 := false }
def TouchHow.writes (ctx : Nat) : TouchHow := { ctx := ctx, kind := .write, ch := 0, l1 := false }

def TouchHow.at_ (h : TouchHow) (va : Nat) (pa : Option Nat) : Touch :=
  { ctx := h.ctx, va := some va, pa := pa, kind := h.kind, ch := h.ch, l1 := h.l1 }

/-- An access at a site: scratchpads have no part in it, and what lies elsewhere is only translated here. -/
def siteTouch (h : TouchHow) : Site → List Touch
  | .dev pa va _ _ => [h.at_ va (some pa)]
  | .host _ va _ => [h.at_ va none]
  | .remote _ _ va .. => [h.at_ va none]
  | .scratch .. => []

/-- Accesses after their checks; the walk of one that fails in translation is made too. -/
def siteTouches (h : TouchHow) : Except MFault Sites → List Touch
  | .ok ts => ts.flatMap fun t => siteTouch h t.1
  | .error f => if decide (f.cause ∈ [Cause.pageNotPresent, .pagePermission, .keyOwner]) && decide (spaceOf f.value = some .global) then
      [h.at_ f.value.toNat none] else []

/-- A record of a context. -/
def recordTouch (s : State) (h : TouchHow) (a : W64) (n : Nat) : List Touch :=
  siteTouches h (s.access (Party.ofCtx h.ctx) (if h.kind = .write then .w else .r) a n (min n 8))

/-- A completion signal, none at address 0. -/
def signalTouch (s : State) (ctx : Nat) (a : W64) : List Touch := if a = 0 then [] else recordTouch s (.writes ctx) a 8

/-! ## Memory instructions -/

/-- What an instruction asks of the L2; none where it only translates (R377). -/
def touchKind (i : Instr) : Option TouchKind :=
  match i with
  | .st .. | .stv .. | .sst .. | .atom .. | .acas .. | .sigadd .. | .ldfe .. | .stef .. | .stf .. => some .write
  | .fest _ f => some (if f.sg then .write else .read)
  | .cwb .. => some .writeBack
  | .cinv _ f => if f.ch = 1 then some .drop else none
  | _ => some .read

/-- The cache hint of an instruction (R362, R377). -/
def touchHint (i : Instr) : Nat :=
  match i with
  | .pref _ f => if f.ch = 2 then 2 else 0
  | _ => ((memFields i).map fun f => f.ch.toNat).getD 0

/-- The accesses of a memory instruction's lanes: helper lanes read at most, and `pref` names global space only (R75, R378). -/
def memTouches (s : State) (x : Issue) (i : Instr) (ops : List LaneOp) : List Touch :=
  let ops := match i with
    | .pref .. => ops.filter fun op => op.accs.all fun a => decide (spaceOf a.1 = some .global)
    | _ => ops
  let kind := touchKind i
  let how : TouchHow := { ctx := x.g.ctx, kind := kind.getD .read, ch := touchHint i, l1 := decide (kind = some .read) && !memTagged i }
  let ts := (checkLanes s x i ops).flatMap fun c =>
    if !x.w.real.getLsbD c.op.lane && !memUniform i && (memStores i || (stepKind i).isSome) then [] else siteTouches how c.res
  if kind.isNone then ts.map fun t => { t with pa := none } else ts

/-- The word fetched for an entry, unless it was fetched ahead (R173). -/
def fetchTouches (s : State) (x : Issue) : List Touch :=
  if x.e.latch.any fun p => decide (p.1 = x.e.pc) then []
  else if x.e.pc.toNat / 2 ^ 56 ≠ 0 then []
  else siteTouches { ctx := x.g.ctx, kind := .read, ch := 0, l1 := true } (match s.translate x.g.ctx .rx x.e.pc.toNat with
    | .ok t => .ok [(t, 8)]
    | .error c => .error { cause := c, value := x.e.pc })

/-- The accesses of `enq`, `enqt` and a waiting `enq`: the index words, and the slot where the packet was stored. -/
def enqTouches (s : State) (ctx q : Nat) (took : Bool) : List Touch :=
  let v := s.queue q
  recordTouch s (.writes ctx) v.qwptra 8 ++ recordTouch s (.reads ctx) v.qrptra 8 ++
    if took then (match s.wordOf (Party.ofCtx ctx) v.qwptra with
      | some w => recordTouch s (.writes ctx) (slotAt v w) 64
      | none => []) else []

/-- The accesses of an instruction that an entry issued. -/
def insnTouches (s t : State) (x : Issue) (i : Instr) : List Touch :=
  let enq := fun (f : SF) =>
    let q := (enqQueue s x f).val.toNat
    if (s.queue q).ctx.toNat = x.g.ctx ∧ (s.queue q).st = .active then enqTouches s x.g.ctx q (decide ((s.queue q).qdbv ≠ (t.queue q).qdbv)) else []
  match i with
  | .enq h f | .enqt h f => if x.acts h then enq f else []
  | .spawn h f => if x.acts h then recordTouch s (.reads x.g.ctx) (readS s x true f.a).val 64 else []
  | _ => memTouches s x i (issuedOps s x i)

/-- The entry that an action left, in the state after it. -/
def State.entryAfter (t : State) (r : EntryRef) : Option Entry := (t.issueOf r).map fun y => y.e

/-- The entry still waits for what other devices answer. -/
def State.awaits (t : State) (r : EntryRef) : Bool := (t.entryAfter r).any fun e => decide (e.st = .held .remote)

/-- The accesses of an issue that led from s to t. -/
def issueTouches (s t : State) (r : EntryRef) : List Touch :=
  match s.issueOf r with
  | none => []
  | some x =>
    if t.entryAfter r = some x.e then []
    else fetchTouches s x ++ (match t.cur, fetchWord s x with
      | some _, .word w => (match checkWord x.g w with
        | .ok i => if t.awaits r then [] else insnTouches s t x i
        | .error _ => [])
      | _, _ => [])

/-- The accesses of an instruction that has the answers of other devices now. -/
def resumeTouches (s t : State) (id : Nat) : List Touch :=
  match (s.outAccess? id).map fun (o : OutAccess) => o.owner with
  | some (.entry r) => (match s.issueOf r with
    | some x => (match x.e.st, x.e.insn with
      | .held .remote, some i => if t.awaits r then [] else memTouches s x i x.e.plan
      | _, _ => [])
    | none => [])
  | _ => []

/-! ## Events of the machine's own -/

/-- The accesses of a copy's next chunk, or of its end. -/
def copyTouches (s t : State) (n : Nat) : List Touch :=
  match aget s.copies n with
  | none => []
  | some c =>
    let reads := TouchHow.reads c.ctx
    let sides := fun (c : Copy) (i : Nat) => match chunkPlan s c i with
      | .move ts td _ => siteTouches reads (.ok ts) ++ siteTouches { TouchHow.writes c.ctx with ch := c.ch } (.ok td)
      | _ => []
    let index := if c.kind = .cpyg && c.rowIdx.isNone then siteTouches reads (sideSites s c false (c.idx + BitVec.ofNat 64 (4 * c.row)) 4) else []
    if (aget t.copies n).isNone then
      (if c.frec ≠ 0 ∧ (!c.finished || c.fate.any fun f => f.report.isSome) then recordTouch s (.writes c.ctx) c.frec 16 else []) ++
        signalTouch s c.ctx c.ctr ++ signalTouch s c.ctx ((c.packet.map fun p => p.done).getD 0)
    else if c.finished || c.fate.isSome || c.sending.isSome then []
    else match rowIndex s c with
      | .ok i => index ++ sides c i
      | .error _ => index

/-- A packet's completion waits for another device. -/
def State.completing (s : State) (q n : Nat) : Bool := s.mgmt.outAccess.any fun o => match o.owner with
  | .completion c => decide (c.pkt.queue = q) && decide (c.pkt.number = n)
  | _ => false

/-- A LAUNCH packet that is dropped, for its own scope or its record's (R125, R497). -/
def droppedLaunch (s : State) (q : Nat) (pkt : List Byte) : Bool :=
  let v := s.queue q
  let field := w32At pkt 4
  let base := if field = 0 then v.qscope else field
  decide (v.st = .active) && decide (fieldAt pkt 0 1 = 1) && packetOk pkt && (decide (field = 0) || s.inSubtree field v.qscope) &&
    (!s.scopeLive base || (readRecord s v.ctx.toNat (w64At pkt 8) base).any fun r => decide (r.scope ≠ 0) && !s.scopeLive r.scope)

/-- The accesses of a packet's consumption. -/
def consumeTouches (s t : State) (q : Nat) : List Touch :=
  let v := s.queue q
  let c := v.ctx.toNat
  let slot := slotAt v v.rindex
  if !v.consumes || v.heldBack || decide (v.qdbv.toNat ≤ v.rindex) then []
  else
    recordTouch s (.reads c) slot 64 ++
    if (t.queue q).rindex = v.rindex then []
    else recordTouch s (.writes c) slot 1 ++ recordTouch s (.writes c) v.qrptra 8 ++ (match s.recordOf c slot 64 with
      | none => []
      | some pkt =>
        let rec_ := w64At pkt 8
        (if fieldAt pkt 0 1 = 1 then
          recordTouch s (.reads c) rec_ 128 ++ (match s.recordOf c rec_ 128 with
            | some bs => recordTouch s (.reads c) (rawRecord bs).rcd.image 256
            | none => []) else []) ++
        (if fieldAt pkt 0 1 = 4 then recordTouch s (.writes c) rec_ 8 else []) ++
        (if droppedLaunch s q pkt then recordTouch s (.writes c) (v.qrptra + 8) 8 else []) ++
        if (((t.queue q).busy.any fun b => decide (b.1 = v.first + v.rindex)) && !t.completing q (v.first + v.rindex)) || (t.queue q).bar.isSome then []
        else signalTouch s c (doneOf s c pkt))

def barrierTouches (s t : State) (q : Nat) : List Touch :=
  match (s.queue q).bar with
  | none => []
  | some b => (b.deps.flatMap fun a => recordTouch s (.reads b.ctx) a 8) ++ if (t.queue q).bar.isNone then signalTouch s b.ctx b.pkt.done else []

/-- The accesses of a BAR4 access, under the binding of its function. -/
def bar4Touches (s : State) (func off n : Nat) (write : Bool) : List Touch :=
  let c := (bar4Work s func).ctx
  match bar4Sites s func off n write with
  | some ts => siteTouches (if write then .writes c else .reads c) (.ok ts)
  | none => []

/-- The accesses of a peer's flit at its home. -/
def homeTouches (r : AccessReq) : List Touch :=
  let t := fun (k : TouchKind) => [({ ctx := r.ctx, va := none, pa := if r.pa < physLimit then some r.pa else none, kind := k, ch := 0, l1 := false } : Touch)]
  match r.op with
  | .read _ => t .read
  | .write .. | .step _ => t .write
  | .withdraw _ => []

/-- The accesses of an event that led from s to t. -/
def eventTouches (s t : State) (i : Instr) : List Touch :=
  match i with
  | .instructionFetch r => (match s.issueOf r with
    | some x => if t.entryAfter r = some x.e then [] else fetchTouches s x
    | none => [])
  | .memoryWaitSatisfied r lane => (match s.issueOf r with
    | some x => (match x.e.st, x.e.insn with
      | .wait .mem, some i => memTouches s x i (x.e.plan.filter fun op => op.lane == lane)
      | _, _ => [])
    | none => [])
  | .feWaiterServed word => ((wordWaiters s word).head?.bind fun w => (s.issueOf w.ref).map fun x => siteTouch (.writes x.g.ctx) w.site).getD []
  | .response id _ | .responseTimeout id => resumeTouches s t id
  | .enqRetry r => (match s.issueOf r with
    | some x => (match x.e.st with
      | .wait (.enq q) => enqTouches s x.g.ctx q (decide ((s.queue q).qdbv ≠ (t.queue q).qdbv))
      | _ => [])
    | none => [])
  | .copyChunk n => copyTouches s t n
  | .packetConsume q => consumeTouches s t q
  | .barrierPass q => barrierTouches s t q
  | .launchComplete n => (match aget s.launches n with
    | some l => if launchDone s n l then
        (if l.cancelled then recordTouch s (.writes l.ctx) ((s.queue l.queue).qrptra + 8) 8 else []) ++ signalTouch s l.ctx l.rcd.done else []
    | none => [])
  | .taskExamine n => (match aget s.tasks n with
    | some k => k.awaits.flatMap fun a => recordTouch s (.reads k.ctx) a 8
    | none => [])
  | .subtreeQuiet _ => (s.acks.filter fun a => !t.acks.contains a).flatMap fun a => recordTouch s (.writes a.ctx) a.addr 8
  | .access r => homeTouches r
  | .bar4Read func off n => bar4Touches s func off n false
  | .bar4Write func off data => bar4Touches s func off data.length true
  | _ => []

/-- The completion signals of the tasks that end (R450). -/
def taskTouches (s t : State) : List Touch :=
  (s.tasks.filter fun k => (aget t.tasks k.1).isNone).flatMap fun k => signalTouch s k.2.ctx k.2.done

/-- Every access of an action that led from s to t. -/
def traffic (s t : State) (a : Action) : List Touch :=
  (match a with
    | .issue r => issueTouches s t r
    | .event i => if i.hdr.isSome then [] else eventTouches s t i
    | _ => []) ++ taskTouches s t

/-! ## Links (R159, R519) -/

/-- The context of a reduction's flit. -/
def State.jobCtx (s : State) (c : Contribution) : Option Nat := (s.job? c.job).bind fun j => if j.desc.isEmpty then none else some (jobDesc j.desc).ctx

/-- The context that a flit sent serves; none where the flit is of no one context (R160). -/
def sentCtx (s t : State) (a : Action) : Sent → Option Nat
  | .access r => some r.ctx
  | .response dev id _ =>
    (match a with
      | .event (.access r) => if r.dev = dev ∧ r.id = id then some r.ctx else none
      | _ => none).or ((s.mgmt.peerWaits.find? fun (p : PeerWait) => decide (p.req.dev = dev) && decide (p.req.id = id)).map fun (p : PeerWait) => p.req.ctx)
  | .contribution _ c => t.jobCtx c
  | _ => none

/-- The context that a received flit serves. -/
def receivedCtx (s : State) : Action → Option Nat
  | .event (.access r) => some r.ctx
  | .event (.response id _) => (s.outAccess? id).map fun o => o.ctx
  | .event (.reduceContribution c) => s.jobCtx c
  | _ => none

/-- Counts payload bytes: how many of its 224 a flit uses is open (log entry 8). -/
def State.countFlits (s : State) (event salt : Nat) (ctxs : List Nat) : State :=
  ((List.range ctxs.length).zip ctxs).foldl (fun (s : State) p => s.count p.2 event (openCount s (salt + p.1) 224)) s

/-- TYPE of a message; none for a host message. -/
def flitType : Sent → Option Nat
  | .access _ => some 1
  | .response .. => some 2
  | .contribution .. => some 3
  | .price _ => some 4
  | .time _ => some 5
  | .ratline _ => some 6
  | .offer .. | .image .. | .accepted .. | .refused .. => some 7
  | .shard .. => some 8
  | .msix .. | .keygenStale .. => none

/-- DSTDEV of a message: every device for what is broadcast. -/
def flitDst : Sent → Nat
  | .access r => r.dev
  | .response dev .. | .contribution dev _ | .shard dev _ | .offer _ dev | .image dev _ | .accepted _ dev | .refused _ dev => dev
  | _ => 0xFFFF

/-- LEN of a flit: the payloads of TIME, PRICE and RATLINE are given; of any other the used bytes are open (log entry 93). -/
def flitLen (s : State) (salt : Nat) : Sent → Nat
  | .time _ => 8
  | .price _ => 0x74
  | .ratline _ => 18
  | _ => openCount s (95000 + salt) 224

/-- The flits that a message takes at 224 bytes each: an image and a contribution may be longer than one. -/
def flitCount : Sent → Nat
  | .image _ m => max 1 ((m.images.foldl (fun n i => n + i.size) 0 + 223) / 224)
  | .contribution _ c => max 1 ((c.data.length + c.tag.length + 223) / 224)
  | _ => 1

/-- The header of a flit (R519): the first of a message's. -/
def flitHeader (s : State) (salt ctx seq : Nat) (m : Sent) : List Byte :=
  bytesOfNat 1 ((flitType m).getD 0) ++ bytesOfNat 1 1 ++ bytesOfNat 2 s.podIndex ++ bytesOfNat 2 (flitDst m) ++ bytesOfNat 2 (flitLen s salt m) ++
  bytesOfNat 4 seq ++ bytesOfNat 2 (match m with
    | .contribution _ c => c.kgen
    | _ => 0) ++ bytesOfNat 2 ctx ++ bytesOfNat 16 0

/-- The headers of messages sent, each with the context that it serves. -/
def State.withHeaders (s : State) (salt : Nat) : List (Sent × Option Nat) → State
  | [] => s
  | (m, c) :: rest =>
    match flitType m with
    | none => s.withHeaders (salt + 1) rest
    | some ty =>
      let seq := (aget s.mgmt.seqs ty).getD 0
      { s with mgmt := { s.mgmt with
        headers := s.mgmt.headers ++ [flitHeader s salt (c.getD 0) seq m]
        seqs := aput ty ((seq + flitCount m) % 2 ^ 32) s.mgmt.seqs } }.withHeaders (salt + 1) rest

/-- What an action that led from s to t counts, the headers of what it sends, and what it leaves in the L2; u is the state that follows t. -/
def State.withTraffic (u s t : State) (a : Action) : State :=
  let u := u.withHeaders 0 ((u.mgmt.sent.drop s.mgmt.sent.length).map fun m => (m, sentCtx s t a m))
  let v := u.serveTraffic s.mem (traffic s t a)
  let v := v.countFlits 7 80000 ((t.mgmt.sent.drop s.mgmt.sent.length).filterMap (sentCtx s t a))
  let v := v.countFlits 8 90000 (receivedCtx s a).toList
  { u with l2 := v.l2, market := { u.market with counters := v.market.counters } }

/-! ## HBM rows under test (R473) -/

/-- The HBM row of a physical address is fenced off. -/
def State.rowFenced (s : State) (pa : Nat) : Bool := s.mgmt.fenced.any fun u => match u with
  | .hbmRow p => decide (p / 8192 = pa / 8192)
  | _ => false

/-- The entries that a walk reads, level by level. -/
def walkReads (m : Mem) (va : Nat) : List Nat → Nat → List Nat
  | [], _ => []
  | sh :: rest, table =>
    let pa := table + 8 * (va / 2 ^ sh % 1024)
    let e := m.firmwareField pa 8
    pa :: if e.testBit 0 && !e.testBit 1 then walkReads m va rest (e / 2 ^ 37 * 8192) else []

/-- Where one access reads and writes HBM: the context's table entry and the entries of the walk, then the access itself. -/
def State.rowsOf (s : State) (t : Touch) : List Nat :=
  (match t.va with
    | some va => (s.host.ctxtBase.toNat + 64 * t.ctx) :: walkReads s.mem va [46, 36, 26, 16] (s.ctxRoot t.ctx)
    | none => []) ++ t.pa.toList

/-- An action that led from s to t reaches an HBM row under test. -/
def State.underTest (s t : State) (a : Action) : Bool :=
  (s.mgmt.fenced.any fun u => match u with
    | .hbmRow _ => true
    | _ => false) && (traffic s t a).any fun q => (s.rowsOf q).any s.rowFenced

/-! ## What an entry is HELD for becomes free (R178) -/

/-- The instruction of a HELD entry would be accepted now, or its entry has a trap to take first. -/
def State.wouldIssue (s : State) (r : EntryRef) (x : Issue) : Bool :=
  x.w.trapWaits x.e || (match fetchWord s x with
    | .word w => (match issueWord s x w with
      | .next t => !t.stillHeld r x.e.pc && !s.underTest t (.issue r)
      | _ => true)
    | _ => true)

/-- An entry HELD for a register, a slot of a queue or an earlier access is READY once its instruction would be accepted (R178). -/
def State.wakeEntry (s : State) (r : EntryRef) : State :=
  match s.issueOf r with
  | some x =>
    if decide (x.e.st = .held .retry) && s.mayIssue x.g x.w && s.wouldIssue r x then
      s.modWave r.gid r.wi fun w => w.modEntry r.slot fun e => { e with st := .ready }
    else s
  | none => s

def State.wakeHeld (s : State) : State := s.entryRefs.foldl (fun s r => s.wakeEntry r) s

end Sys2Proof.Machine
end

