-- ==== Sys2Proof/Machine/Schedule.lean ====
section
/-! DEFINITION. Schedule: what moves next when the agenda names nothing (log entry 6), what follows every action, and the machine with
one instruction placed. -/

namespace Sys2Proof.Machine

/-! ## What may happen next -/

/-- The entries that may issue now. -/
def State.issuable (s : State) : List EntryRef :=
  s.groups.flatMap fun g => ((List.range g.2.waves.length).zip g.2.waves).flatMap fun p =>
    if !s.mayIssue g.2 p.2 || !p.2.wdefer.isEmpty then []
    else
      let ref := fun sl => ({ gid := g.1, wi := p.1, slot := sl } : EntryRef)
      (p.2.chosen.map ref).toList

/-- An event with the clock from which it is due, 0 for one that may happen at any time. -/
abbrev Due := Nat × Instr

/-- The events of one entry. -/
def entryEvents (s : State) (r : EntryRef) (x : Issue) : List Due :=
  match x.e.st with
  | .held .fence => [(0, .fencePerformed r)]
  | .wait .mem => x.e.plan.filterMap fun op => if x.e.done.getLsbD op.lane then none else some (0, .memoryWaitSatisfied r op.lane)
  | .wait .fe => (entryWaiters s r x).filterMap fun w => match w.site with
    | .dev pa _ _ _ => some (0, .feWaiterServed (pa / 8))
    | _ => none
  | .wait (.enq _) => [(0, .enqRetry r), ((x.e.since + s.stallClocks x.g.ctx).toNat, .queueStall r)]
  | .wait (.sleep wake) => [(s.clkAt wake, .sleepWake r)]
  | .ready => if x.w.trapWaits x.e then [(0, .trapDelivery r)] else []
  | _ => []

def waveEvents (s : State) (g : Nat × Group) : List Due :=
  ((List.range g.2.waves.length).zip g.2.waves).flatMap fun p =>
    let r : WaveRef := { gid := g.1, wi := p.1 }
    (p.2.pend.map fun q => (0, Instr.varLatencyWriteback r q.seq)) ++
    if !p.2.ended && s.scopeGone g.2.scope then [(0, .cancelledWaveStop r)] else []

def groupEvents (s : State) (g : Nat × Group) : List Due :=
  (match g.2.place with
    | .faulted _ => [(0, Instr.faultDump g.1)]
    | .resident _ =>
      (match g.2.stop with
        | some k => [(0, Instr.gangStop g.1 k)]
        | none => if s.lostCluster g.2 then [(0, .gangStop g.1 .lease)] else []) ++
      if 2 ≤ g.2.idle && (s.givesWay g.1).isSome then [(0, .dispatchSave g.1)] else []
    | _ => []) ++ waveEvents s g

/-- The clusters that serve a context. -/
def State.servedClusters (s : State) : List Nat :=
  ((s.market.current.filter fun l => decide (l.1 % 8 = 0)).flatMap fun l => l.2.units) ++ s.market.floorOf.map fun p => p.1

def dispatcherEvents (s : State) : List Due :=
  (s.queues.flatMap fun q =>
    (if q.2.bar.isSome then [(0, Instr.barrierPass q.1)] else []) ++
    (if q.2.consumes && !q.2.heldBack && decide (q.2.rindex < q.2.qdbv.toNat) then [(0, Instr.packetConsume q.1)] else []) ++
    if (s.headOf q.2.ctx.toNat q.1).isSome then [(0, Instr.clusterReserve q.1)] else []) ++
  (s.launches.filterMap fun l => if launchDone s l.1 l.2 then some (0, .launchComplete l.1) else none) ++
  (s.tasks.filterMap fun t => if t.2.st = .pending then some (0, .taskExamine t.1) else none) ++
  (s.scopesInUse.filterMap fun p => if p.2.st = .dead ∧ s.quiet p.1 then some (0, .subtreeQuiet p.1) else none) ++
  s.servedClusters.filterMap fun cl => match s.servedBy cl with
    | some c => if (s.readyQueues c).isEmpty && (aget s.market.handed cl).isNone then none else some (0, .dispatchPlace cl)
    | none => none

def marketEvents (s : State) : List Due :=
  if !s.running then []
  else match s.market.phase with
    | .open_ => [(s.clkAt (s.nextStart - 8000), .bidFreeze)]
    | .frozen => [(s.clkAt (s.nextStart - 4000), .publication)]
    | .published => (s.clkAt s.nextStart, .intervalStart) ::
        ((s.market.cfgA.ctxs.map fun c => c.1).dedup.filterMap fun c =>
          if s.market.spun.contains c || !(s.tenantOf c).any fun t => (sget SpinPol.start s.market.cfgW.spin t).enable then none
          else some (0, .spinnaker c))

def managementEvents (s : State) : List Due :=
  let m := s.mgmt
  (if s.host.tlbBusy.isEmpty then [] else [(0, Instr.tlbInvalidateDone)]) ++
  (if m.scrubBusy then [(0, .scrubPhase 1)] else []) ++
  (match m.ctxBusy with
    | some c => [(0, .ctxResetReroot c)]
    | none => []) ++
  (match m.ratHold with
    | some rz => [(s.clkAt rz, .ratlineHoldEnd)]
    | none => []) ++
  (match m.holdoff with
    | some due => [(due, .eventMessageHoldoff)]
    | none => []) ++
  (if s.running && s.isTimeSource && !m.timeSent then [(0, .timeFlitSend)] else []) ++
  ((m.outAccess.filter fun a => !a.waiting).map fun a => (a.sentAt + 27000000, .responseTimeout a.id)) ++
  (m.asked.filterMap fun p => if p.2.any Answered.open_ then none else some (0, p.1)) ++
  m.jobs.flatMap fun j => j.held.map fun p => (p.1 + 2700000, .keygenHoldTimeout j.id p.2.child)

/-- Every event of the machine's own. -/
def State.events (s : State) : List Due :=
  (s.entryRefs.flatMap fun r => match s.issueOf r with
    | some x => entryEvents s r x
    | none => []) ++
  (s.groups.flatMap (groupEvents s)) ++
  (s.copies.map fun c => (0, Instr.copyChunk c.1)) ++
  (s.engines.flatMap fun e => if e.2.ops.isEmpty then [] else [(0, .matrixKstep e.1), (0, .drainRowPush e.1)]) ++
  dispatcherEvents s ++ marketEvents s ++ managementEvents s

/-- The earliest clock at which an event comes due. -/
def firstDue (es : List Due) : Option Nat := es.foldl (fun m e => match m with
  | some n => some (min n e.1)
  | none => some e.1) none

/-- The action of an empty agenda: issues and due events by turns; with neither, the clocks up to the next event. -/
def State.defaultAction (s : State) : Action :=
  let is := s.issuable.map Action.issue
  let all := s.events
  let es := (all.filter fun e => decide (e.1 ≤ s.clk)).map fun e => Action.event e.2
  let l := if s.turn % 2 = 0 then (if is.isEmpty then es else is) else (if es.isEmpty then is else es)
  match l[s.turn / 2 % l.length]? with
  | some a => a
  | none => .clocks (match firstDue all with
    | some n => n - s.clk
    | none => 0)

/-- The next action, with the agenda that is left. -/
def State.nextAction (s : State) : Action × State :=
  match s.agenda with
  | a :: rest => (a, { s with agenda := rest })
  | [] => (s.defaultAction, { s with turn := s.turn + 1 })

/-! ## What follows every action -/

/-- A wave that stands back for others no longer does so once they have nothing left to issue (R211). -/
def State.pruneWaits (s : State) : State :=
  let active := fun (q : WaveRef) => match s.group? q.gid, s.waveOf q with
    | some g, some w => (match g.place with
      | .resident _ => w.hasActive
      | _ => false)
    | _, _ => false
  let ready := fun (w : Wave) (i : Nat) => match w.entry? i with
    | some e => decide (e.st = .ready)
    | none => false
  { s with groups := s.groups.map fun g => (g.1, { g.2 with waves := g.2.waves.map fun w => { w with
      wdefer := w.wdefer.filter active
      entries := w.entries.map fun oe => oe.map fun e => { e with ylow := e.ylow.filter (ready w) } } }) }

/-- The lane exchanges of every running wave are evaluated (R240). -/
def State.exchangeAll (s : State) : State :=
  s.groups.foldl (fun s g => (List.range g.2.waves.length).foldl (fun s wi => exchangeWave s g.1 wi) s) s

/-- The failure of a host access lasts for one action (R104). -/
def State.endFailure (s : State) (before : Option Bool) : State :=
  if before.isSome then { s with host := { s.host with failing := none } } else s

/-- Resident groups are charged at least every 1,024 clocks (R164). -/
def State.chargeDue (s : State) (before : Nat) : State := if s.clk / 1024 ≠ before / 1024 then s.chargeQueues else s

/-- What the waves see in their uniform registers moves on (R236). -/
def State.catchUpAll (s : State) : State :=
  { s with groups := s.groups.map fun g => (g.1, if g.2.unseen.isEmpty then g.2 else g.2.catchUp s.free g.1) }

/-- What follows an action that led from s to t₀: the releases, FAULTED groups and freed scopes that it brings about, one clock, and what its
accesses count and leave in the L2. -/
def settleAll (s t₀ : State) : State :=
  let t := ({ t₀ with cur := none, free := t₀.free + 1 }.catchUpAll.exchangeAll).serveParted.wakeHeld.noteFaulted.sweepScopes.clampDeficits
  (((t.pruneWaits.refit.endFailure s.host.failing).tick 1).chargeDue s.clk).withTraffic s.nextAction.2 t₀ s.nextAction.1

/-- One action. The meanings of instruction words run for an issuing entry only. -/
def act (s : State) (a : Action) : Host.Outcome State Fault Refusal :=
  match a with
  | .issue r => issueEntry s r
  | .event i => if i.hdr.isSome then .next s else exec i s
  | .clocks n => .next (s.tick n)
  | .hostRead func off size => .next (regRead s func off size)
  | .enableVFs n => .next (enableVFs s n)
  | .resetFunction func => .next (resetFunction s func)
  | .writeback wave seq keys => .next (landPend s wave seq (some keys))

/-- An action whose accesses are HELD while an HBM row is tested: an entry is HELD, an event of the machine's own is offered again, and what
another agent brings waits for the test (R473). -/
def State.holdForTest (s : State) (a : Action) : State :=
  match a with
  | .issue r => s.retryEntry r
  | .event i => if s.events.any fun e => decide (e.2 = i) then s else { s with stalled := s.stalled ++ [a] }
  | _ => { s with stalled := s.stalled ++ [a] }

/-- What waited for a test goes first once no HBM row is tested. -/
def State.unstall (s : State) : State :=
  if s.stalled.isEmpty || s.mgmt.fenced.any (fun u => match u with
      | .hbmRow _ => true
      | _ => false) then s
  else { s with agenda := s.stalled ++ s.agenda, stalled := [] }

/-- One action with what follows it. -/
def actAndSettle (s : State) : Host.Outcome State Fault Refusal :=
  match act s.nextAction.2 s.nextAction.1 with
  | .next t =>
    if s.nextAction.2.underTest t s.nextAction.1 then .next (settleAll s (s.nextAction.2.holdForTest s.nextAction.1)).unstall
    else .next (settleAll s t).unstall
  | .fault f => .fault f
  | .refused r => .refused r

/-! ## One instruction placed (log entry 17) -/

/-- Bytes of one sector put in place under a seal. -/
def Mem.place (m : Mem) (pa : Nat) (bs : List Byte) (sl : Seal) : Mem :=
  { m with cells := putCells m.cells pa bs, seals := sput none (pa / 32) (some sl) m.seals }

/-- An entry of a table under key slot 0. -/
def Mem.placeEntry (m : Mem) (pa v : Nat) : Mem := m.place pa (bytesOfNat 8 v) { key := .firmware, unit := pa / 32 }

/-- The place of the page tables, of the code, and the leaf of the code's page: valid, a leaf, R, W, X, key slot 1, context 0. -/
def placeTables : Nat := 0x100000
def placeCode : Nat := 0x200000
def placeLeaf (home : Nat) : Nat := 0x1F + 1 * 2 ^ 8 + home * 2 ^ 27 + placeCode / 65536 * 2 ^ 40

/-- A walk of four tables to the page at virtual address 0x10000. -/
def Mem.placeWalk (m : Mem) (ctxt home : Nat) : Mem :=
  let down := fun k => 1 + (placeTables + 8192 * k) / 8192 * 2 ^ 37
  ((((m.placeEntry ctxt placeTables).placeEntry placeTables (down 1)).placeEntry (placeTables + 8192) (down 2)).placeEntry
    (placeTables + 16384) (down 3)).placeEntry (placeTables + 24576 + 8) (placeLeaf home)

/-- The launch record of the placed wave: one group of one wave, 32 × 32 vector registers, 16 tiles. -/
def placedRecord : LaunchRec :=
  { image := 0x10000, args := 0, gridx := 1, gridy := 1, gridz := 1, waves := 1, gang := 1, twin := false, vregs := 32, acct := 16, regbk := 16
    spadbk := 16, l1bk := 16, pclass := 0, scope := 0, done := 0, tvec := 0, fpctl := 0, lanes := 32, preload := [], codeoff := 0, dataoff := 0
    datasize := 0, scratch := 4096, digest := [] }

def placedHandle : W32 := 0x00010000

def placedLaunch : Launch :=
  { ctx := 0, queue := 0, packet := 0, scope := placedHandle, autoScope := 0, intr := false, rcd := placedRecord
    gangs := [{ Gang.start with st := .placed, groups := [0], cluster := 0 }], failed := false, cancelled := false, complete := false }

def placedWave : Wave := Wave.start placedRecord 0x10000 0xFFFFFFFF 0xFFFFFFFF 0 0 0 false

/-- The machine with one instruction word placed at the program counter of a READY entry of a manager's wave, which issues next. -/
def placeWord (s : State) (w : Nat) : State :=
  { s with
    agenda := [.issue { gid := 0, wi := 0, slot := 0 }]
    cur := none
    groups := [(0, newGroup 0 placedLaunch 0 1 0 [placedWave])]
    nextGid := 1
    launches := [(0, placedLaunch)]
    nextLaunch := 1
    keys := sput KeySlot.start 1 { assigned := true, owner := 0, key := .loaded 1, loadedBytes := -1, isLoaded := true } s.keys
    scopes := sput ScopeSlot.start 0
      { gen := 1, st := .live, ctx := 0, depth := 1, parent := 0, auto := false, pkt := false, cut := false } s.scopes
    market := { s.market with current := sput Lease.none 0 { qty := 1, price := 0, units := [0], floor := false } s.market.current }
    mem := { ((s.mem.placeWalk s.host.ctxtBase.toNat s.podIndex).place placeCode (bytesOfNat 8 w) { key := .loaded 1, unit := 0x10000 / 32 }) with
      poison := [], lost := [] }
    mgmt := { s.mgmt with boot := .running 1 [], gated := [] } }

end Sys2Proof.Machine
end

