-- ==== Sys2Proof/Machine/Step.lean ====
section
/-! DEFINITION. Step: what the machine does next. -/

namespace Sys2Proof.Machine

/-- One step: the next action of the agenda, or of the default schedule, with what follows it. -/
def step (s : State) : Host.Outcome State Fault Refusal := actAndSettle s

/-- The machine with one instruction placed (log entry 17). -/
def State.withFetchWord (s : State) (_nbits w : Nat) : State := placeWord s w

end Sys2Proof.Machine
end

