-- ==== Sys2Proof/Safety.lean ====
section
/-! DEFINITION. Safety: the terms claims use: an instruction that issues, operands free of poison and of pending results, and what a
next state changes. -/

namespace Sys2Proof

/-- A step of the machine that answers a next state. -/
def Steps (s t : Machine.State) : Prop := Machine.step s = .next t

/-- Keeps P along every step. -/
def KeptByStep (P : Machine.State → Prop) : Prop := ∀ s t, P s → Steps s t → P t

namespace Machine

/-- Device memory is in its canonical form. -/
def MemoryCanonical (s : State) : Prop := s.mem.wf = true

/-! ## What issues -/

/-- The entry that State.cur names issues a new instruction. -/
def Issues (s : State) (x : Issue) : Prop := s.issuer? = some x ∧ x.e.insn = none

/-- No register word that the wave can read is poisoned or pending (R191, R472), and it sees the latest value of every uniform register (R236). -/
def Clean (x : Issue) : Prop :=
  x.w.pend = [] ∧ x.w.poison = [] ∧ x.w.lpoison = [] ∧ x.g.spoison = [] ∧ ∀ u ∈ x.g.unseen, aget u.views x.ref.wi = none

/-- The sources are free of poison in the real lanes of EXEC (R472). -/
def Unpoisoned (x : Issue) (m : Mask) (srcs : Nat → List Src) : Prop :=
  ∀ l, (m &&& x.w.real).getLsbD l = true → ∀ r ∈ srcs l, r.bad = none

/-! ## What a next state changes -/

/-- An entry at its next instruction, READY (R178). -/
def Entry.on (e : Entry) : Entry :=
  { e with pc := e.pc + 8, st := .ready, mark := none, latch := none, insn := none, exec := 0, done := 0, vals := [], since := 0, stamp := 0
           plan := [], remote := [] }

/-- The machine with nothing changed but the issuing wave, whose entry is at its next instruction. -/
def goesOn (s : State) (x : Issue) (w : Wave) : State := s.setWave x.ref.gid x.ref.wi (w.setEntry x.ref.slot (some x.e.on))

/-- The last-result file after a result v in the lanes of m (R196). -/
def LastResult (w : Wave) (m : Mask) (v : Nat → W64) (l0 l1 : List (Nat × W64)) : Prop :=
  (∀ l, sget 0 l0 l = if m.getLsbD l then v l else sget 0 w.l0 l) ∧
  (∀ l, sget 0 l1 l = if m.getLsbD l then sget 0 w.l0 l else sget 0 w.l1 l)

/-- The register words after a result v for the physical register dst in the lanes of m (R37, R190). -/
def DstWords (w : Wave) (m : Mask) (dst : Option Nat) (is64 : Bool) (v : Nat → W64) (regs : List (Nat × W32)) : Prop :=
  ∀ r l, l < 32 → sget 0 regs (regKey r l) =
    if m.getLsbD l ∧ dst = some r then lo32 (v l)
    else if m.getLsbD l ∧ is64 = true ∧ dst.map (· + 1) = some r then hi32 (v l)
    else w.rawReg r l

/-- A fixed-latency result: the physical register dst holds v in every lane of m, l0 and l1 follow, the entry goes on, and nothing
else changes (R13, R190, R196). -/
def RegResult (s : State) (x : Issue) (m : Mask) (dst : Option Nat) (is64 : Bool) (v : Nat → W64) (t : State) : Prop :=
  ∃ regs l0 l1, t = goesOn s x { x.w with regs := regs, l0 := l0, l1 := l1 } ∧
    DstWords x.w m dst is64 v regs ∧ LastResult x.w m v l0 l1

/-- The physical register of a destination code; 0xFF writes l0 and l1 only (R28, R36). -/
def dstReg (w : Wave) (d : Byte) : Option Nat := if d = 0xFF then none else some (w.physOf d.toNat)

def LaneResult (s : State) (x : Issue) (m : Mask) (d : Byte) (is64 : Bool) (v : Nat → W64) (t : State) : Prop :=
  RegResult s x m (dstReg x.w d) is64 v t

/-- A predicate result: predicate d holds v in the lanes of m, the entry goes on, and nothing else changes (R29). -/
def PredResult (s : State) (x : Issue) (m : Mask) (d : Byte) (v : Nat → Bool) (t : State) : Prop :=
  ∃ p, t = goesOn s x { x.w with preds := x.w.preds.set d.toNat p } ∧
    ∀ l, p.getLsbD l = if m.getLsbD l then v l else x.w.pred d.toNat l

/-- An entry parked in FAULT with its yield marker, its fetched word dropped (R465). -/
def Entry.parked (e : Entry) (mark : Option Nat) : Entry :=
  { e with st := .fault, pass := 0, mark := mark, latch := none, insn := none, exec := 0, done := 0, vals := [], since := 0, stamp := 0
           plan := [], remote := [] }

/-- The whole entry takes an exception: it stands in FAULT at the instruction, each of its real lanes has a record of the cause, the
instruction's address and the value, and nothing else changes (R43, R465). -/
def Parks (s : State) (x : Issue) (h : Hdr) (c : Cause) (v : W64) (t : State) : Prop :=
  ∃ faults, t = s.setWave x.ref.gid x.ref.wi (Wave.settle { x.w.setEntry x.ref.slot (some
      (x.e.parked (if h.y then some x.w.nextSeq else none))) with faults := faults }) ∧
    ∀ l, aget faults l = if (x.e.mask &&& x.w.real).getLsbD l then some { cause := c, skip := false, pc := x.e.pc, value := v }
      else aget x.w.faults l

/-! ## Elements of operands and results (R30, R31, R216) -/

/-- How many elements an operand of a type holds. -/
def elemCount (t : Ty) : Nat := if tyPacked t then 2 else 1

/-- The pattern of element k of an operand. -/
def elemAt (t : Ty) (v : W64) (k : Nat) : Nat := v.toNat / 2 ^ (tyWidth t * k) % 2 ^ tyWidth t

/-- The pattern e is the exact result z fitted to a type: saturated, or its low bits (R216). -/
def Fitted (t : Ty) (sat : Bool) (z : Int) (e : Nat) : Prop :=
  e < 2 ^ tyWidth t ∧ if sat then intOf t e = max (typeMin t) (min (typeMax t) z) else (e : Int) ≡ z [ZMOD 2 ^ tyWidth t]

/-- The value of a physical register, or of a pair. -/
def regValue (w : Wave) (is64 : Bool) (r l : Nat) : W64 :=
  if is64 then pair64 (w.rawReg r l) (w.rawReg (r + 1) l) else (w.rawReg r l).zeroExtend 64

/-- The index names a register: a vector register of the wave or an operand register, even for a pair (R230, R231). -/
def IndexNames (w : Wave) (is64 : Bool) (i : Nat) : Prop :=
  (if i < 2048 then i < w.nregs else i < 2056) ∧ (is64 = true → i % 2 = 0)

/-- What an integer instruction of two sources computes: for every entry that issues it, a next state in which every lane of EXEC has,
element by element, the exact value op of the two sources fitted, and nothing else changes (R13, R215, R216). -/
def IntegerResult (mk : Hdr → RF → Instr) (op : Ty → Int → Int → Int) : Prop :=
  ∀ h f s x, Issues s x → Clean x → ∃ t v, exec (mk h f) s = .next t ∧
    LaneResult s x (execMask h x.w x.e) f.d (WF.ty f).is64 v t ∧
    ∀ l k, k < elemCount (WF.ty f) → Fitted (WF.ty f) (f.md.getLsbD 5)
      (op (WF.ty f) (intOf (WF.ty f) (elemAt (WF.ty f) (srcA s x f (WF.ty f) l).val k))
        (intOf (WF.ty f) (elemAt (WF.ty f) (srcB s x f (WF.ty f) l).val k)))
      (elemAt (WF.ty f) (v l) k)

/-- What a bit instruction of two sources computes, bit by bit of the type's width (R222). -/
def BitwiseResult (mk : Hdr → RF → Instr) (op : Bool → Bool → Bool) : Prop :=
  ∀ h f s x, Issues s x → Clean x → ∃ t v, exec (mk h f) s = .next t ∧
    LaneResult s x (execMask h x.w x.e) f.d (WF.ty f).is64 v t ∧
    ∀ l i, (v l).getLsbD i = (decide (i < tyBits (WF.ty f)) &&
      op ((srcA s x f (WF.ty f) l).val.getLsbD i) ((srcB s x f (WF.ty f) l).val.getLsbD i))

/-- The shift count of element k of B: its low 8 bits, of each element for a packed type (R217, R222). -/
def countAt (t : Ty) (b : W64) (k : Nat) : Nat := if tyPacked t then elemAt t b k % 256 else b.toNat % 256

/-- What a shift computes: bit i of an element of width w shifted by a count c is bit i of op w a c (R222). -/
def ShiftResult (mk : Hdr → RF → Instr) (op : Nat → Nat → Nat → Nat → Bool) : Prop :=
  ∀ h f s x, Issues s x → Clean x → ∃ t v, exec (mk h f) s = .next t ∧
    LaneResult s x (execMask h x.w x.e) f.d (WF.ty f).is64 v t ∧
    ∀ l k, k < elemCount (WF.ty f) → ∀ i < tyWidth (WF.ty f), (elemAt (WF.ty f) (v l) k).testBit i =
      op (tyWidth (WF.ty f)) (elemAt (WF.ty f) (srcA s x f (WF.ty f) l).val k)
        (countAt (WF.ty f) (srcB s x f (WF.countTy (WF.ty f)) l).val k) i

/-- What a bit instruction of one source computes: the relation ok of the width, the source and the result (R222). -/
def CountResult (mk : Hdr → RF → Instr) (ok : Nat → Nat → Nat → Prop) : Prop :=
  ∀ h f s x, Issues s x → Clean x → ∃ t v, exec (mk h f) s = .next t ∧
    LaneResult s x (execMask h x.w x.e) f.d (WF.ty f).is64 v t ∧
    ∀ l, ok (tyWidth (WF.ty f)) ((srcA s x f (WF.ty f) l).val.toNat % 2 ^ tyWidth (WF.ty f)) (v l).toNat

/-! ## Floating point (07, 08) -/

/-- The value of a pattern that is no NaN: an exact rational, or an infinity. -/
def FV.ext : FV → WithBot (WithTop Rat)
  | .nan _ => ⊥
  | .inf n => if n then ⊥ else ((⊤ : WithTop Rat) : WithBot (WithTop Rat))
  | .fin n m x => (((if n then -1 else 1) * m * 2 ^ x : Rat) : WithTop Rat)

/-- FPFLAGS after the flags fl of the real lanes of m (R274, R277). -/
def FlagsAfter (w : Wave) (m : Mask) (fl : Nat → Nat → Prop) (flags : W32) : Prop :=
  ∀ i < 32, flags.getLsbD i = true ↔ (w.fpflags.getLsbD i = true ∨ ∃ l, (m &&& w.real).getLsbD l = true ∧ fl l i)

/-- A fixed-latency floating-point result: as RegResult, and the sticky flags (R273, R274). -/
def FpResult (s : State) (x : Issue) (m : Mask) (d : Byte) (is64 : Bool) (v : Nat → W64) (fl : Nat → Nat → Prop) (t : State) : Prop :=
  ∃ regs l0 l1 flags, t = goesOn s x { x.w with regs := regs, l0 := l0, l1 := l1, fpflags := flags } ∧
    DstWords x.w m (dstReg x.w d) is64 v regs ∧ LastResult x.w m v l0 l1 ∧ FlagsAfter x.w m fl flags

/-- A variable-latency result: pending from issue on with its writes and its flags, l0 and l1 unchanged, and nothing else changes
(R189, R191, R197). -/
def PendingResult (s : State) (x : Issue) (m : Mask) (d : Byte) (is64 : Bool) (v : Nat → W64) (fl : Nat → Nat → Prop) (t : State) : Prop :=
  ∃ p, t = goesOn s x { x.w with pend := [p], nextSeq := x.w.nextSeq + 1 } ∧ p.seq = x.w.nextSeq ∧ p.trap = none ∧
    p.writes = (Mask.lanes m).flatMap (fun l => dstWrites x.w d is64 l (v l) false) ∧
    ∀ i < 32, p.flags.getLsbD i = true ↔ ∃ l, (m &&& x.w.real).getLsbD l = true ∧ fl l i

/-- No exception traps (R275). -/
def Untrapped (x : Issue) : Prop := x.w.fpctl.toNat % 32 = 0

/-- The values of an element-by-element floating-point operation: element k of lane l is r l k with SatF where sat asks for it, and a
lane signals what its elements signal (R256, R273). -/
def FpElements (t : Ty) (sat : Bool) (r : Nat → Nat → FRes) (v : Nat → W64) (fl : Nat → Nat → Prop) : Prop :=
  (∀ l k, k < elemCount t → elemAt t (v l) k = (withSat (fmtOf t) sat (r l k)).bits % 2 ^ tyWidth t) ∧
  (∀ l i, fl l i ↔ ∃ k < elemCount t, (r l k).fl.testBit i = true)

/-- What a fixed-latency floating-point instruction of two sources computes (R270, R271). -/
def FloatPair (mk : Hdr → RF → Instr) (op : Nat → Fmt → Nat → Nat → FRes) : Prop :=
  ∀ h f s x, Issues s x → Clean x → Untrapped x → ∃ t v fl, exec (mk h f) s = .next t ∧
    FpResult s x (execMask h x.w x.e) f.d (WF.ty f).is64 v fl t ∧
    FpElements (WF.ty f) (f.md.getLsbD 5) (fun l k => op f.rm.toNat (fmtOf (WF.ty f)) (elemAt (WF.ty f) (srcA s x f (WF.ty f) l).val k)
      (elemAt (WF.ty f) (srcB s x f (WF.ty f) l).val k)) v fl

def FloatTriple (mk : Hdr → RF → Instr) (op : Nat → Fmt → Nat → Nat → Nat → FRes) : Prop :=
  ∀ h f s x, Issues s x → Clean x → Untrapped x → ∃ t v fl, exec (mk h f) s = .next t ∧
    FpResult s x (execMask h x.w x.e) f.d (WF.ty f).is64 v fl t ∧
    FpElements (WF.ty f) (f.md.getLsbD 5) (fun l k => op f.rm.toNat (fmtOf (WF.ty f)) (elemAt (WF.ty f) (srcA s x f (WF.ty f) l).val k)
      (elemAt (WF.ty f) (srcB s x f (WF.ty f) l).val k) (elemAt (WF.ty f) (srcC s x f (WF.ty f) l).val k)) v fl

/-- What a long operation of one source leaves pending (R286). -/
def LongPending (mk : Hdr → RF → Instr) (op : Fmt → Nat → Nat → FRes) : Prop :=
  ∀ h f s x, Issues s x → Clean x → Untrapped x → ∃ t v fl, exec (mk h f) s = .next t ∧
    PendingResult s x (execMask h x.w x.e) f.d (WF.ty f).is64 v fl t ∧
    FpElements (WF.ty f) (f.md.getLsbD 5) (fun l k => op (fmtOf (WF.ty f)) f.rm.toNat (elemAt (WF.ty f) (srcA s x f (WF.ty f) l).val k)) v fl

/-- A block of consecutive registers written in the lanes of m; the last-result file follows the last of them once (R295). -/
def BlockResult (s : State) (x : Issue) (m : Mask) (d : Byte) (n : Nat) (v : Nat → Nat → W32) (t : State) : Prop :=
  ∃ regs l0 l1, t = goesOn s x { x.w with regs := regs, l0 := l0, l1 := l1 } ∧
    (∀ r l, l < 32 → sget 0 regs (regKey r l) =
      if m.getLsbD l ∧ x.w.physOf d.toNat ≤ r ∧ r < x.w.physOf d.toNat + n then v l (r - x.w.physOf d.toNat) else x.w.rawReg r l) ∧
    LastResult x.w m (fun l => (v l (n - 1)).zeroExtend 64) l0 l1

/-- The source type of `cvt`, and a source as it converts it: the high half where FN[0] asks for it, then the modifiers (R288). -/
def cvtTy (f : RF) : Ty := (Ty.ofBits (f.c.truncate 5)).getD .b32

def cvtSource (s : State) (x : Issue) (f : RF) (c : Byte) (neg abs : Bool) (l : Nat) : Nat :=
  (modSrc (cvtTy f) neg abs (if f.fn.getLsbD 0 then (readSrc s x .b32 c l).val >>> 16 else (readSrc s x (cvtTy f) c l).val)).toNat
    % 2 ^ tyWidth (cvtTy f)

/-- The pattern and the flags of one converted element (R289). -/
def convert (f : RF) (a : Nat) : Nat × Nat := cvtElem (WF.ty f) (cvtTy f) f.rm.toNat (f.md.getLsbD 5) a

/-- V(k), and V'(m) of a magnitude code (R258, R261). -/
def l6Value (k : Int) : Rat := ([32768, 38968, 46341, 55109].getD ((k - 16) % 4).toNat 0 : Rat) * 2 ^ ((k - 16) / 4 - 15)
def l6Mag (m : Nat) : Rat := if m = 0 then 0 else l6Value m

/-- The magnitude of a finite value. -/
def absVal (m : Nat) (x : Int) : Rat := m * 2 ^ x

/-- The packed group of three words, and the word of register i of a source block (R260, R292). -/
def groupOf (v : Nat → W32) : Nat := (v 0).toNat + 2 ^ 32 * (v 1).toNat + 2 ^ 64 * (v 2).toNat
def blockWord (x : Issue) (a : Byte) (i l : Nat) : W32 := x.w.rawReg (x.w.physOf a.toNat + i) l

/-! ## Groups and uniform registers (06) -/

/-- Nothing but the issuing group changes, and it becomes g. -/
def OnlyGroup (s : State) (x : Issue) (g : Group) (t : State) : Prop :=
  t.group? x.ref.gid = some g ∧ (∀ k, k ≠ x.ref.gid → t.group? k = s.group? k) ∧ { t with groups := s.groups } = s

/-- The issuing group with its wave w, whose entry is at its next instruction. -/
def groupOn (x : Issue) (w : Wave) : Group := { x.g with waves := setAt x.ref.wi (w.setEntry x.ref.slot (some x.e.on)) x.g.waves }

/-- EXEC holds a real lane: an instruction that acts once for its wave takes effect (R13). -/
def Acts (x : Issue) (h : Hdr) : Prop := execMask h x.w x.e &&& x.w.real ≠ 0

/-- The value of a uniform register or pair. -/
def uniValue (x : Issue) (is64 : Bool) (n : Nat) : W64 :=
  if is64 then pair64 (sget 0 x.g.sregs n) (sget 0 x.g.sregs (n + 1)) else (sget 0 x.g.sregs n).zeroExtend 64

/-- What waves may still see of uniform registers, where the wave has written those of p: its own reads see what it wrote, and of other
registers nothing changes (R236). -/
def ViewsAfter (x : Issue) (p : Nat → Bool) (us : List Unseen) : Prop :=
  (∀ u ∈ us, aget u.views x.ref.wi = none) ∧ us.filter (fun u => !p u.reg) = x.g.unseen.filter fun u => !p u.reg

/-- A uniform result: register n, or the pair at n, holds v, the entry goes on, and nothing else changes (R232). -/
def UniformResult (s : State) (x : Issue) (n : Byte) (is64 : Bool) (v : W64) (t : State) : Prop :=
  ∃ sregs us, OnlyGroup s x { groupOn x x.w with sregs := sregs, unseen := us } t ∧
    ViewsAfter x (fun k => decide (k = n.toNat) || is64 && decide (k = n.toNat + 1)) us ∧
    ∀ k, sget 0 sregs k = if k = n.toNat then lo32 v else if is64 = true ∧ k = n.toNat + 1 then hi32 v else sget 0 x.g.sregs k

/-- What a uniform instruction computes, and that it does nothing when EXEC holds no real lane (R13). -/
def UniformMeaning (i : Instr) (h : Hdr) (n : Byte) (is64 : Bool) (ok : State → Issue → W64 → Prop) : Prop :=
  ∀ s x, Issues s x → Clean x →
    (Acts x h → ∃ t v, exec i s = .next t ∧ UniformResult s x n is64 v t ∧ ok s x v) ∧
    (¬ Acts x h → exec i s = .next (goesOn s x x.w))

/-- The functions of `salu` on the elements a and b of a type, c the shift count (R233). -/
def SaluOk (t : Ty) (fn a b c r : Nat) : Prop :=
  let w := tyWidth t
  let bits := fun (op : Bool → Bool → Bool) => r < 2 ^ w ∧ ∀ i < w, r.testBit i = op (a.testBit i) (b.testBit i)
  match fn with
  | 0 => Fitted t false (intOf t a + intOf t b) r
  | 1 => Fitted t false (intOf t a - intOf t b) r
  | 2 => Fitted t false (intOf t a * intOf t b) r
  | 3 => Fitted t false (intOf t a * intOf t b / 2 ^ w) r
  | 4 => bits fun p q => p && q
  | 5 => bits fun p q => p || q
  | 6 => bits fun p q => p != q
  | 7 => bits fun p q => p && !q
  | 8 => r < 2 ^ w ∧ ∀ i < w, r.testBit i = (decide (c ≤ i) && a.testBit (i - c))
  | 9 => r < 2 ^ w ∧ ∀ i < w, r.testBit i = (decide (i + c < w) && a.testBit (i + c))
  | 10 => r < 2 ^ w ∧ ∀ i < w, r.testBit i = a.testBit (min (i + c) (w - 1))
  | 11 => Fitted t false (min (intOf t a) (intOf t b)) r
  | _ => Fitted t false (max (intOf t a) (intOf t b)) r

/-! ## Lane exchanges (06) -/

/-- The member mask that C names (R239). -/
def memberOf (x : Issue) (c : Byte) : Mask := if c = 0xBF then 0xFFFFFFFF else sget 0 x.g.sregs (c.toNat - 0xC0)

/-- The named lanes that an exchange waits for and counts; the wave operations take helper lanes as exited (R75, R241). -/
def namedOf (x : Issue) (i : Instr) (c : Byte) : Mask := memberOf x c &&& x.w.exchangeCounts i

/-- Every named lane that is live stands in the issuing entry, no other entry waits at an exchange (R240), and no engine has still to read the
wave's registers (R195). -/
def AllHere (s : State) (x : Issue) (m : Mask) : Prop :=
  x.ref.slot < 8 ∧ m &&& x.w.live &&& ~~~x.e.mask = 0 ∧
  (∀ j e, j ≠ x.ref.slot → x.w.entry? j = some e → m &&& e.mask = 0 ∧ e.st ≠ .held .exchange) ∧
  s.protectedRegs { gid := x.ref.gid, wi := x.ref.wi } = []

/-- The wave after an exchange of the participants q, of which n count, among the members m: MEMBER_WIDEN, and the entry at its next instruction
(R241). -/
def exchangeOn (s : State) (x : Issue) (q n m : Mask) (w : Wave) : State :=
  let v := { w with fpflags := w.fpflags ||| (if q &&& n &&& ~~~m ≠ 0 then 0x10000 else 0) }
  s.setWave x.ref.gid x.ref.wi (v.setEntry x.ref.slot (some { x.e.on with pass := 0 }))

/-- What an exchange does when all named lanes are in the issuing entry: ok relates the participants, the members and the wave that holds
the results. -/
def ExchangeMeaning (i : Instr) (h : Hdr) (c : Byte) (ok : State → Issue → Mask → Wave → Prop) : Prop :=
  ∀ s x, Issues s x → Clean x → execMask h x.w x.e ≠ 0 → AllHere s x (namedOf x i c) → Untrapped x →
    ∃ w, exec i s = .next (exchangeOn s x (execMask h x.w x.e) (x.w.exchangeCounts i) (namedOf x i c) w) ∧ ok s x (execMask h x.w x.e) w

/-- A result of an exchange in a register, in a predicate, and one that is pending. -/
def ExchangedReg (x : Issue) (q : Mask) (d : Byte) (is64 : Bool) (v : Nat → W64) (w : Wave) : Prop :=
  ∃ regs l0 l1, w = { x.w with regs := regs, l0 := l0, l1 := l1 } ∧ DstWords x.w q (dstReg x.w d) is64 v regs ∧ LastResult x.w q v l0 l1

def ExchangedPred (x : Issue) (q : Mask) (d : Byte) (v : Bool) (w : Wave) : Prop :=
  ∃ p, w = { x.w with preds := x.w.preds.set d.toNat p } ∧ ∀ l, p.getLsbD l = if q.getLsbD l then v else x.w.pred d.toNat l

def ExchangedPending (x : Issue) (q : Mask) (d : Byte) (is64 : Bool) (v : Nat → W64) (w : Wave) : Prop :=
  ∃ p, w = { x.w with pend := [p], nextSeq := x.w.nextSeq + 1 } ∧ p.seq = x.w.nextSeq ∧ p.trap = none ∧
    p.writes = (Mask.lanes q).flatMap (fun l => dstWrites x.w d is64 l (v l) false)

/-- A shuffle: the value of A in a source lane that takes part, or the lane's own D (R243). -/
def Shuffled (s : State) (x : Issue) (f : RF) (q : Mask) (src : Nat → Option Nat) (w : Wave) : Prop :=
  ExchangedReg x q f.d (WF.ty f).is64 (fun l =>
    let own := if f.d = 0xFF then sget 0 x.w.l0 l else regValue x.w (WF.ty f).is64 (x.w.physOf f.d.toNat) l
    (src l).elim own fun k => if q.getLsbD k then (readSrc s x (WF.ty f) f.a k).val else own) w

/-- The fixed order of a reduction: 2^k values from lane i on (R248). -/
def redTree (op : Nat → Nat → Nat) (a : Nat → Nat) : Nat → Nat → Nat
  | 0, i => a i
  | k + 1, i => op (redTree op a k i) (redTree op a k (i + 2 ^ k))

/-- The counted participants (R244). -/
def counted (x : Issue) (q : Mask) : Finset Nat := (Finset.range 32).filter fun l => (q &&& x.w.real).getLsbD l = true

/-! ## Memory (10, 11) -/

/-- No access of another device's memory is under way (R521), and no other entry of the wave waits to store with `stef` (R399). -/
def Quiet (s : State) (x : Issue) : Prop :=
  x.e.remote = [] ∧ s.mgmt.rcache = [] ∧
  ∀ j e, j ≠ x.ref.slot → x.w.entry? j = some e → e.st = .wait .fe → ∀ h f, e.insn ≠ some (.stef h f)

/-- A part of an access as it lies: in one sector, or in the scratchpad of a group that stands. -/
def Lies (s : State) (t : Site × Nat) : Prop :=
  match t.1 with
  | .dev pa _ _ _ => pa % 32 + t.2 ≤ 32
  | .host ba _ _ => ba % 32 + t.2 ≤ 32
  | .remote _ pa .. => pa % 32 + t.2 ≤ 32
  | .scratch g _ => (s.group? g).isSome

/-- The accesses of a lane pass the checks of R333 at the sites ts: memory of this device or of the host with no failing link, no
byte in a LOST sector (R476), and each part in one sector. -/
def Reaches (s : State) (x : Issue) (i : Instr) (op : LaneOp) (ts : Sites) : Prop :=
  (∃ as, laneSites s (x.party op.lane) i op = .ok as ∧ ts = as.flatMap fun a => a.2) ∧
  (∀ t ∈ ts, match t.1 with
    | .dev pa _ _ _ => ∀ k, k = 0 ∨ k < t.2 → (pa + k) / 32 ∉ s.mem.lost
    | .host .. => s.host.failing = none
    | .remote .. => False
    | .scratch .. => True) ∧
  ∀ t ∈ ts, Lies s t

/-- The same in every lane of a mask. -/
def AllReach (s : State) (x : Issue) (i : Instr) (m : Mask) (op : Nat → LaneOp) (ts : Nat → Sites) : Prop :=
  ∀ l, m.getLsbD l = true → Reaches s x i (op l) (ts l)

/-- No word that the accesses of the lanes of m touch is poisoned (R472). -/
def SoundSites (s : State) (m : Mask) (ts : Nat → Sites) : Prop :=
  ∀ l, m.getLsbD l = true → ∀ t ∈ ts l, s.poisonedAt t.1 t.2 = false

/-- The lanes of a list write their data in turn. -/
def stored (s : State) (ls : List Nat) (ts : Nat → Sites) (data : Nat → List Byte) : State :=
  ls.foldl (fun s l => s.writeSites false (ts l) (data l)) s

/-- The lanes of a list, one after another, read their bytes and write what new gives of them; a lane that makes no access receives what
helper gives. The result is the state after, and the bytes each lane receives (R75, R368). -/
def inTurn (ts : Nat → Sites) (helper : Nat → Option (List (Byte × Bool))) (new : Nat → List Byte → Option (List Byte)) :
    List Nat → State → State × List (Nat × List (Byte × Bool))
  | [], s => (s, [])
  | l :: ls, s =>
    match helper l with
    | some got => ((inTurn ts helper new ls s).1, (l, got) :: (inTurn ts helper new ls s).2)
    | none =>
      let got := s.readSites (ts l)
      let r := inTurn ts helper new ls (match new l (got.map fun b => b.1) with
        | some bs => s.writeSites false (ts l) bs
        | none => s)
      (r.1, (l, got) :: r.2)

/-- An atomic's value in a helper lane is 0 (R75). -/
def helperZero (x : Issue) (n : Nat) (l : Nat) : Option (List (Byte × Bool)) :=
  if x.w.real.getLsbD l then none else some (List.replicate n (0, false))

/-- The register words of the bytes that a lane receives, from its first destination word on. -/
def received (op : Nat → LaneOp) (sg : Bool) (stride : Nat) (got : List (Nat × List (Byte × Bool))) : List RegWrite :=
  got.flatMap fun g => resultWrites (op g.1) (wordsOfBytes sg g.2) stride

/-- A result of memory: pending with its register words, and nothing else changes in the wave; no words, no result (R191, R365). -/
def MemPending (s : State) (x : Issue) (ws : List RegWrite) (t : State) : Prop :=
  t = goesOn s x (if ws = [] then x.w
    else { x.w with pend := [{ seq := x.w.nextSeq, writes := ws, flags := 0, trap := none }], nextSeq := x.w.nextSeq + 1 })

/-- A byte of device memory, read under a seal, that a write leaves alone: of another sector, or under the write's own key and tweak
outside its bytes (R340). -/
def LeavesByte (pa : Nat) (sl : Seal) (t : Site × Nat) : Prop :=
  match t.1 with
  | .dev p va key _ => pa / 32 ≠ p / 32 ∨ (sl = { key := key, unit := va / 32 } ∧ ¬ (p ≤ pa ∧ pa < p + t.2))
  | _ => True

/-- A byte of a group's scratchpad that a write leaves alone. -/
def LeavesScratch (g off : Nat) (t : Site × Nat) : Prop :=
  match t.1 with
  | .scratch g' o => g ≠ g' ∨ ¬ (o ≤ off ∧ off < o + t.2)
  | _ => True

/-- A byte of a host's sector that a write leaves alone. -/
def LeavesHost (ba : Nat) (t : Site × Nat) : Prop :=
  match t.1 with
  | .host b _ _ => ba / 32 ≠ b / 32
  | _ => True

/-- A byte of a group's scratchpad. -/
def scratchByte (s : State) (g off : Nat) : Option Byte := (s.group? g).map fun gr => sget memDefault gr.scratch off

/-- Every byte outside the written places reads as before: of device memory under every seal, of every scratchpad, of the host. -/
def BytesKept (s t : State) (ws : Sites) : Prop :=
  (∀ pa sl, (∀ p ∈ ws, LeavesByte pa sl p) → t.mem.bytes pa 1 sl = s.mem.bytes pa 1 sl) ∧
  (∀ g off, (∀ p ∈ ws, LeavesScratch g off p) → scratchByte t g off = scratchByte s g off) ∧
  (∀ ba, (∀ p ∈ ws, LeavesHost ba p) → sget memDefault t.host.cells ba = sget memDefault s.host.cells ba)

/-- The issuing entry goes on after a wait that is over at once, and what that brings about in its wave follows: releases at `join`,
freed entries (R184, R188). -/
def settlesOn (s : State) (x : Issue) (w : Wave) : State :=
  s.setWave x.ref.gid x.ref.wi (w.setEntry x.ref.slot (some { x.e.on with pass := 0 })).settle

/-- The entry stands at the start of an instruction: nothing of an earlier one is left in it. -/
def Fresh (x : Issue) : Prop := x.e.done = 0 ∧ x.e.vals = [] ∧ ∀ k, x.e.st ≠ .wait k

/-- The machine after one more arrival at a wait. -/
def State.arrived (s : State) : State := { s with order := s.order + 1 }

/-- No entry waits at a full/empty word, and no step of another device's (R434). -/
def NoFeWaiters (s : State) : Prop := (∀ r x, s.issueOf r = some x → x.e.st ≠ .wait .fe) ∧ s.mgmt.peerWaits = []

/-- Each lane of a mask names a tagged word of this device's memory, in no LOST sector (R430, R432). -/
def TaggedWords (s : State) (x : Issue) (f : MF) (m : Mask) (pa va : Nat → Nat) (key : Nat → KeyMat) : Prop :=
  ∀ l, m.getLsbD l = true → spaceOf (laneAddr s x f false l).val = some .global ∧
    s.access (x.party l) .rw (laneAddr s x f false l).val (mfSize f) (mfSize f) = .ok [(.dev (pa l) (va l) (key l) true, mfSize f)] ∧
    pa l / 32 ∉ s.mem.lost ∧ pa l % 32 + mfSize f ≤ 32

/-- The words of the lanes of a list, all made FULL or all made EMPTY (R430). -/
def filled (s : State) (ls : List Nat) (pa : Nat → Nat) (b : Bool) : State := ls.foldl (fun s l => { s with mem := s.mem.setFull (pa l) b }) s

/-- An entry that waits or is HELD with an instruction. -/
def Stands (s : State) (r : EntryRef) (x : Issue) (st : EntrySt) (i : Instr) : Prop := s.issueOf r = some x ∧ x.e.st = st ∧ x.e.insn = some i

/-- No lane of the entry has a fault record (R465). -/
def Unfaulted (x : Issue) : Prop := ∀ l, x.e.mask.getLsbD l = true → aget x.w.faults l = none

/-! ## Control (05) and traps (13) -/

/-- The whole issuing entry is at an address with a priority, READY (R181). -/
def movesTo (s : State) (x : Issue) (pc : W64) (pri : Byte) (w : Wave) : State :=
  s.setWave x.ref.gid x.ref.wi (w.setEntry x.ref.slot (some { x.e.on with pc := pc, pri := pri }))

/-- The rejoin mask J takes the entry's lanes; code 15 names none (R201). -/
def rejoins (x : Issue) (j : Nat) : Wave := { x.w with jm := if j = 15 then x.w.jm else x.w.jm.set j x.e.mask }

/-- Every lane of the entry executes. -/
def Whole (x : Issue) (h : Hdr) : Prop := execMask h x.w x.e = x.e.mask ∧ x.e.mask ≠ 0

/-- Nothing in the wave is about to change of itself: every entry holds lanes, no other entry is parked in JOIN, nothing is
spilled (R184, R187), and no lane's record has been resumed (R470). -/
def Calm (x : Issue) : Prop :=
  x.ref.slot < 8 ∧ x.e.mask ≠ 0 ∧ (∀ i e, i ≠ x.ref.slot → x.w.entry? i = some e → e.mask ≠ 0 ∧ ∀ k, e.st ≠ .join k) ∧
  (∀ p ∈ x.w.spill, p = none) ∧ ∀ f ∈ x.w.faults, f.2.resume = false

/-- The link that a call writes: the priority in bits 63:56, the next address below (R200). -/
def linkValue (x : Issue) : W64 := (x.e.pri.zeroExtend 64 <<< 56) ||| ((x.e.pc + 8) &&& 0x00FFFFFFFFFFFFFF)

/-- The address of an offset in instructions (R18). -/
def jumpTarget (x : Issue) (f : JF) : W64 := x.e.pc + 8 + 8 * f.off.signExtend 64

/-- The lowest frontier entry, or the lowest spill slot, that is free. -/
def FreeEntryAt (w : Wave) (i : Nat) : Prop := i < 8 ∧ w.entry? i = none ∧ ∀ j < i, w.entry? j ≠ none
def FreeSpillAt (w : Wave) (i : Nat) : Prop := (∀ j < 8, w.entry? j ≠ none) ∧ i < 8 ∧ (w.spill[i]?).join = none ∧ ∀ j < i, (w.spill[j]?).join ≠ none

/-- A READY entry at an address with a priority. -/
def readyAt (m : Mask) (pc : W64) (pri : Byte) : Entry := Entry.fresh { mask := m, pc := pc, pri := pri, faulted := false }

/-- User traps reach their handler (R455 to R457). -/
def TrapsOn (x : Issue) : Prop := x.w.uten = true ∧ x.w.tvec ≠ 0 ∧ x.w.inh = false ∧ x.w.ptraps = []

/-- A trap of lanes m is taken (R276, R455, R458): the trap registers, and the entry at its handler with priority 255; bits [2:0] of TVEC count as 0,
the model's choice (log 82). -/
def trapTaken (s : State) (x : Issue) (c : Cause) (code : W16) (m : Mask) (tval : List (Nat × W64)) : State :=
  s.setWave x.ref.gid x.ref.wi { (x.w.setEntry x.ref.slot (some { x.e.on with pc := x.w.tvec &&& 0x00FFFFFFFFFFFFF8, pri := 255, pass := 0 })) with
    tcause := (code.zeroExtend 32 <<< 8) ||| c.code.zeroExtend 32, tmask := m, tdst := 0xFFFFFFFF, tval := tval
    tpc := linkValue x, hmask := x.e.mask, inh := true }

/-! ## Words in uniform registers (06, 13) -/

/-- Uniform registers n, n + 1, … of the issuing group hold the words ws, the entry goes on, and nothing else of s changes (R232). -/
def WordsResult (s : State) (x : Issue) (n : Byte) (ws : List W32) (t : State) : Prop :=
  ∃ sregs us, OnlyGroup s x { groupOn x x.w with sregs := sregs, unseen := us } t ∧
    ViewsAfter x (fun k => decide (n.toNat ≤ k) && decide (k < n.toNat + ws.length)) us ∧
    ∀ k, sget 0 sregs k = if n.toNat ≤ k ∧ k < n.toNat + ws.length then ws.getD (k - n.toNat) 0 else sget 0 x.g.sregs k

/-- What an instruction that answers words in uniform registers does: ok relates the words and the machine u with the instruction's other
effects; it does nothing when EXEC holds no real lane (R13). -/
def WordsMeaning (i : Instr) (h : Hdr) (n : Byte) (pre : State → Issue → Prop) (ok : State → Issue → List W32 → State → Prop) : Prop :=
  ∀ s x, Issues s x → Clean x → pre s x →
    (Acts x h → ∃ t u ws, exec i s = .next t ∧ WordsResult u x n ws t ∧ ok s x ws u) ∧
    (¬ Acts x h → exec i s = .next (goesOn s x x.w))

/-- A 64-bit value in words. -/
def words64 (v : W64) : List W32 := [lo32 v, hi32 v]

/-- No condition. -/
def always (_ : State) (_ : Issue) : Prop := True

/-- The system registers of 32 bits by selector (R453). -/
def systemRegisters (s : State) (x : Issue) : List (Nat × W32) :=
  let purse := sget 0 s.market.purses ((s.tenantOf x.g.ctx).getD 0)
  [(0x10, x.w.tcause), (0x11, lo32 x.w.tpc), (0x12, hi32 x.w.tpc), (0x13, x.w.tmask), (0x14, x.w.tdst), (0x16, lo32 x.w.tvec),
   (0x17, hi32 x.w.tvec), (0x18, (BitVec.ofBool x.w.uten).zeroExtend 32 ||| (BitVec.ofBool x.w.inh).zeroExtend 32 <<< 1 ||| (BitVec.ofBool x.w.brkpark).zeroExtend 32 <<< 2),
   (0x20, x.w.fpctl), (0x21, x.w.fpflags), (0x40, lo32 purse), (0x41, hi32 purse), (0x50, s.market.intno.setWidth 32), (0x60, x.g.scope)]

/-- The wave after a write of its own system registers, by selector; INH and reserved bits are not written (R453, R456). -/
def systemWrites (w : Wave) (v : W32) : List (Nat × Wave) :=
  [(0x11, { w with tpc := hi32 w.tpc ++ v }), (0x12, { w with tpc := v ++ lo32 w.tpc }), (0x16, { w with tvec := hi32 w.tvec ++ v }),
   (0x17, { w with tvec := v ++ lo32 w.tvec }), (0x18, { w with uten := v.getLsbD 0, brkpark := v.getLsbD 2 }),
   (0x20, { w with fpctl := v &&& 0x1F }), (0x21, { w with fpflags := v &&& 0x3001F })]

/-- The issuing entry stops where it is, in a state, with its instruction (R178). -/
def standsAt (s : State) (x : Issue) (h : Hdr) (st : EntrySt) (i : Instr) : State :=
  s.setWave x.ref.gid x.ref.wi (x.w.setEntry x.ref.slot (some
    { x.e with mark := if h.y then some x.w.nextSeq else none, st := st, insn := some i, exec := execMask h x.w x.e, pass := 0 }))

/-- A bid register's value is malformed (R144, R152). -/
abbrev BadBid (cls : Nat) (v : W64) : Prop :=
  (cls ≤ 4 ∧ (v.extractLsb' 52 4 ≠ 0 ∨ v.extractLsb' 57 7 ≠ 0)) ∨ (cls = 7 ∧ (v.toNat % 8 ≠ 0 ∨ 2 ^ 56 ≤ v.toNat))

/-! ## Scopes and cancels (02, 15) -/

/-- A cancel of a scope is allowed to the issuing wave (R499, R500). -/
def MayCancel (s : State) (x : Issue) (hd : W32) (v : ScopeSlot) : Prop :=
  x.g.ctx = 0 ∨ (v.ctx = x.g.ctx ∧ v.depth ≠ 1 ∧ s.inSubtree hd x.g.scope = true)

/-- The acknowledgement that `cancel.ack` asks for: address and value in the pairs after the handle (R499). -/
def ackAsked (x : Issue) (a : Byte) : AckReq :=
  { addr := uniValue x true (a + 2).toNat, value := uniValue x true (a + 4).toNat, ctx := x.g.ctx, manager := decide (x.g.ctx = 0) }

/-- `cancel`, or with ack `cancel.ack`. -/
def cancelForm (ack : Bool) (h : Hdr) (f : SF) : Instr := if ack then .cancelAck h f else .cancel h f

/-- A scope slot of a table where only slot n has changed, to v. -/
def ScopeSet (s t : State) (n : Nat) (v : ScopeSlot) : Prop :=
  { t with scopes := s.scopes } = s ∧ ∀ k, t.scopeSlot k = if k = n then v else s.scopeSlot k

/-! ## Keys (15) -/

/-- The slots of a set are zeroised: keys 0, ASSIGNED and LOADED clear, OWNER as it was (R513). -/
def Zeroised (s t : State) (p : Nat → Prop) : Prop :=
  ∀ k, (p k → t.slot k = { KeySlot.start with owner := (s.slot k).owner }) ∧ (¬ p k → t.slot k = s.slot k)

/-! ## Copies (11) -/

/-- The copy that a copy instruction asks for (R379, R381, R386). -/
def copyOf (x : Issue) (f : SF) (kind : CopyKind) : Copy :=
  { kind := kind, desc := (List.range (match kind with
      | .cpy => 12
      | .cpyt => 14
      | .cpyg => 16)).map fun i => sget 0 x.g.sregs (f.a + BitVec.ofNat 8 i).toNat
    mode := f.sel.toNat % 2, scp := f.sel.toNat / 8 % 8, ctx := x.g.ctx, scope := x.g.scope, owner := some (x.ref.gid, x.ref.wi)
    launch := x.g.launchOf, core := (x.g.place.core?).getD 0, packet := none, slice := if f.sel.getLsbD 6 then x.ref.wi else 0
    slices := if f.sel.getLsbD 6 then x.g.waves.length else 0, row := 0, next := 0, halted := false, tainted := false, remote := []
    ch := f.sel.toNat / 2 % 4 }

/-- A copy instruction by its kind. -/
def copyOp (kind : CopyKind) (h : Hdr) (f : SF) : Instr :=
  match kind with
  | .cpy => .cpy h f
  | .cpyt => .cpyt h f
  | .cpyg => .cpyg h f

/-- A descriptor beyond the lengths of R381, and one with a misaligned address. -/
abbrev CopyTooLong (c : Copy) : Prop := (c.kind = .cpy ∧ 2 ^ 48 ≤ c.len) ∨ (c.kind ≠ .cpy ∧ (2 ^ 24 < c.rowb ∨ 2 ^ 24 < c.rowCount))
abbrev CopyMisaligned (c : Copy) : Prop := c.ctr.toNat % 8 ≠ 0 ∨ c.frec.toNat % 8 ≠ 0 ∨ (c.kind = .cpyg ∧ c.idx.toNat % 4 ≠ 0)

/-- The copies that a core has accepted for its waves. -/
def copiesHeld (s : State) (core : Nat) : Nat := (s.copies.filter fun p => p.2.owner.isSome && decide (p.2.core = core)).length

/-! ## Packets from waves (13) -/

/-- The 64 bytes that `enq` and `enqt` send: the words of sixteen uniform registers (R441). -/
def packetOf (x : Issue) (f : SF) : List Byte := (List.range 16).flatMap fun i => bytesOfNat 4 (sget 0 x.g.sregs (f.a + BitVec.ofNat 8 i).toNat).toNat

/-- The queue that they name (R441). -/
def queueNamed (x : Issue) (f : SF) : Nat :=
  if f.sel.getLsbD 12 then (sget 0 x.g.sregs (f.sel.toNat % 256)).toNat % 4096 else f.sel.toNat % 4096

/-- The indices of a queue's ring, as words of memory or of the host that the wave may read and write (R114, R442). -/
def RingAt (s : State) (p : Party) (q w r : Nat) : Prop :=
  s.mgmt.rcache = [] ∧ s.wordOf p (s.queue q).qwptra = some w ∧ s.wordOf p (s.queue q).qrptra = some r ∧
  ∃ ts, s.recordSites p .rw (s.queue q).qwptra 8 8 = .ok ts

/-- The machine after a packet has been put in the ring of queue q, in memory and not in a scratchpad, behind w others: the slot, the write
index, the doorbell through the queue's function (R115, R442). -/
def Enqueued (s : State) (p : Party) (q w : Nat) (pkt : List Byte) (t : State) : Prop :=
  ∃ u v, s.putRecord p ((s.queue q).qbase + BitVec.ofNat 64 (64 * (w % ringSize (s.queue q)))) pkt = some u ∧
    u.putRecord p (s.queue q).qwptra (bytesOfNat 8 (w + 1)) = some v ∧ 
    exec (.doorbellWrite (s.queue q).func.toNat (4096 * q) 8 (BitVec.ofNat 64 (w + 1))) v = .next t ∧ t.groups = s.groups

/-! ## Instructions that wait for room, barriers, pairs (09, 11, 12) -/

/-- The issuing wave with its entry in another state, and nothing else changed. -/
def EntryBecomes (s : State) (x : Issue) (w : Wave) (e : Entry) (t : State) : Prop :=
  OnlyGroup s x { x.g with waves := setAt x.ref.wi (w.setEntry x.ref.slot (some e)) x.g.waves } t

/-- The issuing entry is HELD and tries its instruction again later; nothing else changes (R178). -/
def TriesLater (s : State) (x : Issue) (mark : Option Nat) (t : State) : Prop :=
  EntryBecomes s x x.w { x.e with mark := mark, st := .held .retry, pass := 0, insn := none, exec := 0, done := 0, vals := [], stamp := 0, plan := [], remote := [] } t

/-- The phase of a barrier is over (R421). -/
def PhaseOver (g : Group) (b : Bar) : Prop :=
  b.xc.toNat ≤ b.rc.toNat ∧ ∀ i w, g.waves[i]? = some w →
    (if b.pm ≠ 0 then b.pm.getLsbD i = true else b.wm ≠ 0 → b.wm.getLsbD i = true) → b.arr.getLsbD i = true ∨ w.ended = true

/-- A barrier after an arrival of a wave, with a mask or none (R422). -/
def arrivedAt (b : Bar) (wi : Nat) (mask : Option W32) : Bar := { b with arr := b.arr ||| Mask.one wi, pm := b.pm ||| mask.getD 0 }

/-- A barrier behind its phase, if that is over (R421). -/
def PhaseAfter (g : Group) (b b' : Bar) : Prop :=
  (PhaseOver g b → b' = { b with cnt := b.cnt + 1, rc := b.rc - b.xc.zeroExtend 32, arr := 0, pm := 0 }) ∧ (¬ PhaseOver g b → b' = b)

/-- FPFLAGS of a wave that arrives: MEMBER_WIDEN where the mask that applies does not name it (R422). -/
def flagsAt (b : Bar) (wi : Nat) (fl : W32) : W32 :=
  if (b.pm ≠ 0 ∧ b.pm.getLsbD wi = false) ∨ (b.pm = 0 ∧ b.wm ≠ 0 ∧ b.wm.getLsbD wi = false) then fl ||| 0x10000 else fl

/-- The mask that a barrier instruction names, by its form bit. -/
def maskNamed (x : Issue) (f : SF) (bit : Nat) : Option W32 := if f.sel.getLsbD bit then some (sget 0 x.g.sregs f.a.toNat) else none

/-- Barrier k of the issuing group is b, the others are as they were, and nothing outside the group changes. -/
def BarrierIs (s : State) (x : Issue) (k : Nat) (b : Bar) (t : State) : Prop :=
  ∃ g, OnlyGroup s x g t ∧ g.bar k = b ∧ ∀ j, j ≠ k → g.bar j = x.g.bar j

/-- The issuing wave of t. -/
def waveNow (t : State) (x : Issue) : Option Wave := t.wave? x.ref.gid x.ref.wi

/-! ## Matrix engines (09) -/

/-- The issuing wave. -/
def Issue.waveRef (x : Issue) : WaveRef := { gid := x.ref.gid, wi := x.ref.wi }

/-- The instructions that need the baton (R307), and one more than the highest tile that each names (R305). -/
def tileForms (h : Hdr) (f : XF) : List (Instr × Nat) :=
  [(.mma h f, f.acc.toNat + 1), (.mmat h f, f.acc.toNat + 1), (.mzero h f, f.acc.toNat + f.low.toNat % 16 + 1), (.mdrain h f, f.acc.toNat + 1),
   (.mdrag h f, max (f.acc.toNat + 1) (f.low.toNat % 16 + 1)), (.mpush h f, f.acc.toNat + 1)]

/-- The operation of an instruction performed for one wave: its registers are fixed at issue (R303). -/
def opAlone (x : Issue) (i : Instr) (f : XF) : MatOp :=
  { insn := i, wave := x.waveRef, partner := none, ra := x.w.wb + f.a.toNat, rb := x.w.wb + f.b.toNat
    rs := if f.s = 0xFF then none else some (x.w.wb + f.s.toNat), pra := 0, prs := none, next := 0, only := none }

/-- The machine with engine n changed. -/
def withEngine (s : State) (n : Nat) (e : Engine) : State := { s with engines := sput Engine.start n e s.engines }

/-- The drain rows of an engine: the first of a wave, between those before it, of other waves, and those after it (R316). -/
def FirstRow (e : Engine) (r : WaveRef) (pre : List Row) (row : Row) (post : List Row) : Prop :=
  e.drain = pre ++ row :: post ∧ row.tag = r ∧ ∀ q ∈ pre, q.tag ≠ r

/-- The pending words of a row for a register in the lanes of a mask. -/
def rowWords (reg : Nat) (m : Mask) (row : Row) : List RegWrite :=
  (Mask.lanes m).map fun l => { key := regKey reg l, val := sget 0 row.elems l, poison := row.poison.getLsbD l }

/-- A head of an engine's queue that has reached its last step leaves; else it is at its next. -/
def opsAfter (op : MatOp) (rest : List MatOp) (last : Nat) : List MatOp := if op.next < last then { op with next := op.next + 1 } :: rest else rest

/-- The elements of a tile of t are given by v, and every other element of the engine is as in e. -/
def TileIs (e e' : Engine) (n : Nat) (v : Nat → Nat → W32) : Prop :=
  (∀ i < 32, ∀ j < 32, e'.elem n i j = v i j) ∧ ∀ k, k / 1024 ≠ n → sget 0 e'.tiles k = sget 0 e.tiles k

/-- As Parks, with a yield marker (R14). -/
def ParksAt (s : State) (x : Issue) (mark : Option Nat) (c : Cause) (v : W64) (t : State) : Prop :=
  ∃ faults, OnlyGroup s x { x.g with waves := setAt x.ref.wi (Wave.settle { x.w.setEntry x.ref.slot (some (x.e.parked mark)) with faults := faults }) x.g.waves } t ∧
    ∀ l, aget faults l = if (x.e.mask &&& x.w.real).getLsbD l then some { cause := c, skip := false, pc := x.e.pc, value := v } else aget x.w.faults l

/-- The marker that an issue arms (R14). -/
def markOf (x : Issue) (h : Hdr) : Option Nat := if h.y then some x.w.nextSeq else none

/-! ## Tasks (12) -/

/-- The record of a `spawn` (R445), read by the wave. -/
def recordRead (s : State) (x : Issue) (a : Byte) (bs : List Byte) : Prop := s.record x.waveParty (uniValue x true a.toNat) 64 = .ok bs

/-- The scope that a task record names, or the wave's own (R446). -/
def taskScope (x : Issue) (bs : List Byte) : W32 := if w32At bs 0x18 = 0 then x.g.scope else w32At bs 0x18

/-! ## Queues and packets (03) -/

/-- Queue q is v, and nothing else of s changes. -/
def QueueSet (s : State) (q : Nat) (v : Queue) (t : State) : Prop :=
  { t with queues := s.queues } = s ∧ ∀ k, t.queue k = if k = q then v else s.queue k

/-- A violation of a source through a function is logged, and nothing else changes; a full log counts it (R108). -/
def Logged (s : State) (source func : Nat) (t : State) : Prop :=
  { t with host := { t.host with vlog := s.host.vlog, vlost := s.host.vlost } } = s ∧
  (s.host.vlog.length < 64 → t.host.vlost = s.host.vlost ∧
    ∃ v, t.host.vlog = s.host.vlog ++ [v] ∧ v.source = source ∧ v.func = func ∧ v.clk = s.clk) ∧
  (64 ≤ s.host.vlog.length → t.host.vlog = s.host.vlog ∧ t.host.vlost = if s.host.vlost = 0xFFFFFFFF then s.host.vlost else s.host.vlost + 1)

/-- A function that may ring a queue's doorbell: the PF, or its enabled owner (R115). -/
abbrev MayRing (s : State) (func q : Nat) : Prop := func = 0 ∨ (func = (s.queue q).func.toNat ∧ func ≤ s.host.numVFs)

/-- The checks of ENABLE (R110). -/
def MayEnable (s : State) (v : Queue) : Prop :=
  (6 ≤ v.log2size.toNat ∧ v.log2size.toNat ≤ 24) ∧ (v.qbase ≠ 0 ∧ v.qbase.toNat % 64 = 0) ∧ (v.qrptra ≠ 0 ∧ v.qrptra.toNat % 8 = 0) ∧
  (v.qwptra ≠ 0 ∧ v.qwptra.toNat % 8 = 0) ∧ (∃ z, s.scopeAt v.qscope = some z ∧ z.st = .live ∧ z.ctx = v.ctx.toNat) ∧
  v.func.toNat ≤ s.host.numVFs ∧ v.vec.toNat < if v.func = 0 then 2048 else 64

/-- The word at an address of a context's memory has been changed by f; address 0 names none (R127). -/
def Signalled (s : State) (ctx : Nat) (a : W64) (f : W64 → W64) (t : State) : Prop :=
  (a = 0 → t = s) ∧ (a ≠ 0 → s.changeWord ctx a f = some t)

/-- The word at an address of a context's memory may be written, and lies on this device; address 0 names none. -/
def CanSignal (s : State) (ctx : Nat) (a : W64) : Prop :=
  a = 0 ∨ ∃ ts, s.recordSites (Party.ofCtx ctx) .w a 8 8 = .ok ts ∧ ∀ t ∈ ts, t.1.isRemote = false

/-- A packet has completed with an operation on its signal: the signal, the message, its place among its queue's packets, and nothing else
(R124). -/
def Completed (s : State) (ctx : Nat) (p : PacketRef) (f : W64 → W64) (t : State) : Prop :=
  ∃ u, Signalled s ctx p.done f u ∧ { t with queues := u.queues, mgmt := { t.mgmt with sent := u.mgmt.sent } } = u ∧
    t.mgmt.sent = u.mgmt.sent ++ (if p.intr = true ∧ (s.queue p.queue).func.toNat ≤ s.host.numVFs
      then [.msix (s.queue p.queue).func.toNat (s.queue p.queue).vec.toNat] else []) ∧
    ∀ k, t.queue k = if k = p.queue then { s.queue k with busy := (s.queue k).busy.filter fun b => decide (b.1 ≠ p.number) } else s.queue k

/-- DEC (R127): a count below 0 stays, 0 becomes -1. -/
def decSignal (v : W64) : W64 := if v.toInt < 0 then v else if v = 0 then -1 else v - 1

/-- The dispatcher has taken the packet at the read index i of queue q: its bytes, byte 0 of its slot, the read-index word, the read index
(R117). -/
def Consumed (s : State) (q i : Nat) (pkt : List Byte) (t : State) : Prop :=
  let v := s.queue q
  let slot := v.qbase + BitVec.ofNat 64 (64 * (i % ringSize v))
  v.rindex = i ∧ i < v.qdbv.toNat ∧ v.bar = none ∧ (∀ b ∈ v.busy, b.2 = false) ∧ s.askedFor (.packetConsume q) = [] ∧
  s.recordOf v.ctx.toNat slot 64 = some pkt ∧ fieldAt pkt 0 1 ≠ 0 ∧
  s.recordAsks (Party.ofCtx v.ctx.toNat) v.qrptra (bytesOfNat 8 (i + 1)) = [] ∧
  ∃ u w, s.putRecord (Party.ofCtx v.ctx.toNat) slot [0] = some u ∧ u.changeWord v.ctx.toNat v.qrptra (fun _ => BitVec.ofNat 64 (i + 1)) = some w ∧
    t = w.modQueue q fun k => { k with rindex := i + 1 }

/-- The packet that a queue's slot held, under a scope; first is the running number of the packet of index 0. -/
def packetRef (first q i : Nat) (pkt : List Byte) (auto scope : W32) : PacketRef :=
  { number := first + i, queue := q, index := i, done := w64At pkt 0x30, intr := (fieldAt pkt 1 1).testBit 1, auto := auto
    hold := (fieldAt pkt 1 1).testBit 0, scope := scope }

/-- The scope that a packet asks for (R92). -/
def packetScope (s : State) (q : Nat) (pkt : List Byte) : W32 := if w32At pkt 4 = 0 then (s.queue q).qscope else w32At pkt 4

/-- A packet without a child scope that passes its checks under a LIVE scope. -/
def GoodPacket (s : State) (q : Nat) (pkt : List Byte) : Prop :=
  packetOk pkt = true ∧ (w32At pkt 4 = 0 ∨ s.inSubtree (w32At pkt 4) (s.queue q).qscope = true) ∧ s.scopeLive (packetScope s q pkt) = true ∧
  (fieldAt pkt 1 1).testBit 2 = false

/-! ## The dispatcher and stops (04, 14) -/

/-- The image of one group's state, next in the pool: its fields, and the header of its bytes (R484, R485). -/
def ImageOf (s : State) (gid : Nat) (g : Group) (kind : StopKind) (i : Image) : Prop :=
  i.at_ = s.poolNext ∧ i.kind = kind ∧ i.ctx = g.ctx ∧ i.cgen = s.ctxGen g.ctx ∧ i.gids = [gid] ∧ i.bytes.length = i.size ∧ i.size % 256 = 0 ∧
  i.bytes.take 8 = [0x43, 0x41, 0x53, 0x4D, 0x4F, 0x53, 0x49, 0x4D] ∧ fieldAt i.bytes 0x10 8 = i.size % 2 ^ 64 ∧ fieldAt i.bytes 0x1C 1 = stopCode kind ∧
  fieldAt i.bytes 0x1E 2 = 1 ∧ fieldAt i.bytes 0x20 2 = g.ctx % 65536 ∧ fieldAt i.bytes 0x22 2 = (s.ctxGen g.ctx).toNat

/-- A gang of one group has been saved (R478, R479): the group holds no pending results, its image stands among the images, and a lease
loss or a manager's stop counts in PREEMPT. -/
def GangSaved (s : State) (gid : Nat) (g : Group) (kind : StopKind) (t : State) : Prop :=
  ∃ v i, t.group? gid = some v ∧ v.place = .saved ∧ v.stop = none ∧ (∀ w ∈ v.waves, w.pend = [] ∧ w.stopping = false) ∧
    t.mgmt.images = s.mgmt.images ++ [i] ∧ ImageOf s gid g kind i ∧ sget 0 t.market.counters (counterKey g.ctx 11) =
      if kind = .lease ∨ kind = .manager then BitVec.ofNat 64 (min ((sget 0 s.market.counters (counterKey g.ctx 11)).toNat + 1) (2 ^ 64 - 1))
      else sget 0 s.market.counters (counterKey g.ctx 11)

/-- Member i of a gang as it starts: on a core of the cluster, each wave with one entry at the program's first instruction (R65, R87, R176). -/
def MemberStarted (l : Launch) (n k cl i : Nat) (g : Group) : Prop :=
  (∃ core, g.place = .resident core ∧ core / 4 = cl) ∧ g.launch = n ∧ g.gang = k ∧ g.rank = i ∧ g.ctx = l.ctx ∧ g.scope = l.scope ∧ g.queue = l.queue ∧
  g.waves.length = l.rcd.waves ∧ ∀ w ∈ g.waves, w.entry? 0 = some (readyAt w.live (l.rcd.image + BitVec.ofNat 64 l.rcd.codeoff) 128)

/-! ## The market (04) -/

/-- The bid freeze, publication and start of an interval fall at their times: the clock has run up to them, if they lay ahead (R150). -/
def State.upTo (s : State) (time : Nat) : State := s.advanceTo (s.clkAt time)

/-- What a context's NEXT leases cost at given prices, by class and pool (R171). -/
def leaseCost (s : State) (c : Nat) (price : Nat → Nat) : Nat :=
  ∑ k ∈ Finset.range 5, (leaseAt s.market.next c k).qty * price (4 * k + ctxPool s c k)

/-- Spinnaker acts on context c with policy pol: its tenant's, enabled, for the first time since publication (R171). -/
def SpinActs (s : State) (c : Nat) (pol : SpinPol) : Prop :=
  ∃ t, s.tenantOf c = some t ∧ pol = sget SpinPol.start s.market.cfgW.spin t ∧ pol.enable = true ∧ s.running = true ∧ s.market.phase = .published ∧
    c ∉ s.market.spun

/-- A peer that may take a context (R171). -/
def PeerFits (s : State) (c d : Nat) (p : Peer) (pol : SpinPol) : Prop :=
  p.age ≤ pol.maxage.toNat ∧ (∀ e ∈ s.market.excluded, e.1 ≠ (c, d)) ∧ ∀ k < 5, (leaseAt s.market.next c k).qty ≤ p.unsold[k]?.getD 0

/-! ## Fabric and errors (14, 16) -/

/-- The message is sent, and nothing else changes. -/
def Sends (s : State) (m : Sent) (t : State) : Prop := t = { s with mgmt := { s.mgmt with sent := s.mgmt.sent ++ [m] } }

/-- An entry of a kind at a place of the device error log; a full log drops its oldest (R477). -/
def ErrorLogged (s : State) (kind : Nat) (loc : W64) (t : State) : Prop :=
  ∃ e, t.mgmt.errlog = (if 1024 ≤ s.mgmt.errlog.length then s.mgmt.errlog.drop 1 else s.mgmt.errlog) ++ [e] ∧ e.kind = kind ∧ e.location = loc ∧
    e.seq = s.mgmt.evcnt.toNat + 1 ∧ e.time = s.time ∧ t.mgmt.evcnt = s.mgmt.evcnt + 1

/-- This device is the time source of its pod (R522). -/
def TimeSource (s : State) : Prop := ∀ p ∈ s.mgmt.peersAt, p.2 ∈ s.mgmt.dead ∨ s.podIndex < p.2

/-- A job of a reduction ends as failed with a code, which it sends to its parent (R528). -/
def JobFails (s : State) (j : Job) (code : Nat) (t : State) : Prop :=
  t.job? j.id = some { j with state := 2, got := [], held := [] } ∧ ∃ f, t.mgmt.sent = s.mgmt.sent ++ [.contribution (jobDesc j.desc).parent f] ∧
    f.job = (jobDesc j.desc).id ∧ f.child = s.podIndex ∧ f.fail = code ∧ f.data = []

/-- A job of this node that names neither a counter nor a fault record and waits for no other device. -/
def PlainJob (s : State) (j : Job) : Prop :=
  s.job? j.id = some j ∧ j.desc ≠ [] ∧ (jobDesc j.desc).ctr = 0 ∧ (jobDesc j.desc).frec = 0 ∧
  j.remote = [] ∧ j.final = none

/-- Without an open access's number. -/
def State.answered (s : State) (id : Nat) : State := { s with mgmt := { s.mgmt with outAccess := s.mgmt.outAccess.filter fun p => decide (p.id ≠ id) } }

/-! ## The host's pages and the mailbox (03, 15, 16) -/

/-- A host access through a function's BAR4 of size bytes of one sector, and the place it reaches (R103). -/
def BarReaches (s : State) (func : Nat) (perm : Perm) (off size : Nat) (t : Site) : Prop :=
  (sget 0 s.host.bar4 func).testBit 10 = true ∧ 0 < size ∧ off % 32 + size ≤ 32 ∧
  s.site (Party.ofCtx (sget 0 s.host.bar4 func % 1024)) perm (BitVec.ofNat 64 off) size = .ok t

/-- A host access through a function's BAR4 that is not performed (R103, R476). -/
def BarDenied (s : State) (func : Nat) (perm : Perm) (off size : Nat) : Prop :=
  (sget 0 s.host.bar4 func).testBit 10 = false ∨
  (0 < size ∧ off % 32 + size ≤ 32 ∧ ((∃ e, s.site (Party.ofCtx (sget 0 s.host.bar4 func % 1024)) perm (BitVec.ofNat 64 off) size = .error e) ∨
    ∃ pa va key fe, BarReaches s func perm off size (.dev pa va key fe) ∧ pa / 32 ∈ s.mem.lost ∧ (perm = .r ∨ size ≠ 32)))

/-- The PRIVATE pages of the PF's BAR0 by offset and size (R106). -/
def privatePages : List (Nat × Nat) :=
  [(0x100000, 0x40000), (0x200000, 0x10000), (0x300000, 0x10000), (0x400000, 0x1000), (0x500000, 0x1000), (0x600000, 0x1000), (0x700000, 0x8000),
   (0x780000, 0x1000), (0x800000, 0x1000)]

/-- Events that a host's write to a PRIVATE page through a function brings about (R342, R510). -/
def PageEvent (func slot off size ctx : Nat) (v : W64) (i : Instr) : Prop := i ∈
  [Instr.tlbinv func v, .kstatWrite func slot off size v, .kmatWrite func slot off size v, .scrubcmd func v, .create func ctx, .reset func ctx,
   .tdcancel func size v]

/-- Key slot n is v, and nothing else of s changes. -/
def SlotSet (s : State) (n : Nat) (v : KeySlot) (t : State) : Prop :=
  { t with keys := s.keys } = s ∧ ∀ k, t.slot k = if k = n then v else s.slot k

/-- CTXLAST of a finished CTXCMD: DONE, REFUSED and the root's handle (R511). -/
def ctxFinished (s : State) (root : W32) (refused : Bool) : State :=
  { s with mgmt := { s.mgmt with ctxBusy := none, ctxLast := (BitVec.ofBool refused).zeroExtend 64 <<< 33 ||| (1 <<< 32 ||| root.zeroExtend 64) } }

/-- MBSTAT after a command (R523). -/
def mailStatus (s : State) (status code : Nat) : State :=
  { s with mgmt := { s.mgmt with mbBusy := false, mbStatus := BitVec.ofNat 8 status, mbCode := BitVec.ofNat 16 code } }

/-- The commands of the mailbox with their codes, and OP for the two of CKPT (R523, R524). -/
def MailForm (func : Nat) (a : W64) (i : Instr) (code : Nat) (op : Option Nat) : Prop := (i, code, op) ∈
  [(Instr.boot func a, 0, none), (.faults func a, 1, none), (.policy func a, 2, none), (.discard func a, 3, none), (.resume func a, 4, none),
   (.stop func a, 5, none), (.release func a, 6, none), (.stall func a, 7, none), (.ckptSave func a, 8, some 0), (.ckptRestore func a, 8, some 1),
   (.reduce func a, 9, none), (.keygen func a, 10, none), (.ratline func a, 11, none), (.attest func a, 12, none), (.errlog func a, 13, none),
   (.podidx func a, 14, (none : Option Nat))]

/-- The block at a host address holds a command's code, and its OP. -/
def Carries (s : State) (a : W64) (code : Nat) (op : Option Nat) : Prop :=
  fieldAt (s.hostBytes a.toNat 64) 0 1 = code ∧ ∀ o, op = some o → fieldAt (s.hostBytes a.toNat 64) 8 1 = o

/-- A well-formed command of the running firmware, in block b at address a (R523, R524). -/
def MailReady (s : State) (a : W64) (code : Nat) (b : List Byte) : Prop :=
  b = s.hostBytes a.toNat 64 ∧ a.toNat % 64 = 0 ∧ fieldAt b 0 1 = code ∧ (b.drop 1).take 7 = List.replicate 7 0 ∧ s.mgmt.mbBusy = false ∧
  s.host.failing = none ∧ (s.running = true ∨ code = 0)

/-- A block after a command that answers fields, each an offset, a size and a value. -/
def AnswerBlock (b b' : List Byte) (fields : List (Nat × Nat × Nat)) : Prop :=
  b'.length = b.length ∧ (∀ f ∈ fields, fieldAt b' f.1 f.2.1 = f.2.2 % 256 ^ f.2.1) ∧
  ∀ i, (∀ f ∈ fields, i < f.1 ∨ f.1 + f.2.1 ≤ i) → b'[i]? = b[i]?

/-- A command succeeds: machine u with the block written back and STATUS 0 (R523). -/
def MailAnswers (u : State) (a : W64) (code : Nat) (b : List Byte) (fields : List (Nat × Nat × Nat)) (t : State) : Prop :=
  ∃ b', AnswerBlock b b' fields ∧ t = mailStatus (u.putHost a.toNat b') 0 code

/-- The entry of a HELD dump (R467, R469). -/
def DumpHeld (s : State) (id : Nat) (e : FaultEntry) : Prop :=
  (∃ p ∈ s.mgmt.faultList, e ∈ p.2) ∧ e.dumpid = id ∧ e.kind = 1 ∧ e.state = 0 ∧
  ∀ p ∈ s.mgmt.faultList, ∀ d ∈ p.2, d.dumpid = id → d = e

end Machine

end Sys2Proof
end

