-- ==== Sys2Proof/Certificates/Slice0/Obligations.lean ====
section
/-! DEFINITION. Obligations: the statements for the provers. -/

open Sys2Proof Sys2Proof.Machine

/-! ## Integer instructions (06) -/

/-- R215, R216, R219, R220: the exact result of two sources, fitted. R219, R221: `mad` fits the exact A × B + C once; `abs` fits the exact magnitude. -/
def Obligations.IntegerResults : Prop :=
 (IntegerResult .add (fun _ a b => a + b) ∧ IntegerResult .sub (fun _ a b => a - b) ∧ IntegerResult .mul (fun _ a b => a * b) ∧
  IntegerResult .mulh (fun t a b => a * b / 2 ^ tyWidth t) ∧
  IntegerResult .minI (fun _ a b => min a b) ∧ IntegerResult .maxI (fun _ a b => max a b) ∧
  IntegerResult .divI (fun t a b => if b = 0 then (if 0 ≤ a then typeMax t else typeMin t) else a.tdiv b) ∧
  IntegerResult .remI (fun _ a b => if b = 0 then a else a.tmod b)) ∧
 ((∀ h f s x, Issues s x → Clean x → ∃ t v, exec (.mad h f) s = .next t ∧
    LaneResult s x (execMask h x.w x.e) f.d (WF.ty f).is64 v t ∧
    ∀ l k, k < elemCount (WF.ty f) → Fitted (WF.ty f) (f.md.getLsbD 5)
      (intOf (WF.ty f) (elemAt (WF.ty f) (srcA s x f (WF.ty f) l).val k) * intOf (WF.ty f) (elemAt (WF.ty f) (srcB s x f (WF.ty f) l).val k)
        + intOf (WF.ty f) (elemAt (WF.ty f) (srcC s x f (WF.ty f) l).val k)) (elemAt (WF.ty f) (v l) k)) ∧
  (∀ h f s x, Issues s x → Clean x → ∃ t v, exec (.absI h f) s = .next t ∧
    LaneResult s x (execMask h x.w x.e) f.d (WF.ty f).is64 v t ∧
    ∀ l k, k < elemCount (WF.ty f) → Fitted (WF.ty f) (f.md.getLsbD 5)
      |intOf (WF.ty f) (elemAt (WF.ty f) (srcA s x f (WF.ty f) l).val k)| (elemAt (WF.ty f) (v l) k))) ∧
  ∀ h f, f.md.getLsbD 5 = true → (Instr.divI h f).wf = false ∧ (Instr.remI h f).wf = false

/-- R222: and, or, xor, andn, bit by bit. R217, R222: the shifts and the rotation, bit by bit; a count of the width or more shifts everything out. R222: the count of ones, of leading and of trailing zeros, and the reversal. R223, R224: fields, bit by bit, and the permutation of bytes. -/
def Obligations.BitResults : Prop :=
 (BitwiseResult .andB (fun a b => a && b) ∧ BitwiseResult .orB (fun a b => a || b) ∧
  BitwiseResult .xorB (fun a b => a != b) ∧ BitwiseResult .andn (fun a b => a && !b)) ∧
 (ShiftResult .shl (fun _ a c i => decide (c ≤ i) && a.testBit (i - c)) ∧
  ShiftResult .shr (fun w a c i => decide (i + c < w) && a.testBit (i + c)) ∧
  ShiftResult .sar (fun w a c i => a.testBit (min (i + c) (w - 1))) ∧
  ShiftResult .rol (fun w a c i => a.testBit ((i + (w - c % w)) % w))) ∧
 (CountResult .popc (fun w a r => r = ((Finset.range w).filter fun i => a.testBit i).card) ∧
  CountResult .clz (fun w a r => (a = 0 ∧ r = w) ∨ (r < w ∧ a.testBit (w - 1 - r) = true ∧ ∀ j < r, a.testBit (w - 1 - j) = false)) ∧
  CountResult .ctz (fun w a r => (a = 0 ∧ r = w) ∨ (r < w ∧ a.testBit r = true ∧ ∀ j < r, a.testBit j = false)) ∧
  CountResult .brev (fun w a r => r < 2 ^ w ∧ ∀ i < w, r.testBit i = a.testBit (w - 1 - i))) ∧
 ((∀ h f s x, Issues s x → Clean x → ∃ t v, exec (.bfe h f) s = .next t ∧
    LaneResult s x (execMask h x.w x.e) f.d (WF.ty f).is64 v t ∧
    ∀ l, let a := (srcA s x f (WF.ty f) l).val.toNat % 2 ^ tyWidth (WF.ty f)
      let p := (readSrc s x .n32 f.b l).val.toNat % 256
      let n := min ((readSrc s x .n32 f.c l).val.toNat % 256) (tyWidth (WF.ty f))
      let bit := fun i => if (WF.ty f).isSigned then a.testBit (min i (tyWidth (WF.ty f) - 1)) else a.testBit i
      ∀ i, (v l).getLsbD i = (decide (i < tyWidth (WF.ty f)) && decide (0 < n) &&
        (if i < n then bit (p + i) else (WF.ty f).isSigned && bit (p + n - 1)))) ∧
  (∀ h f s x, Issues s x → Clean x → ∃ t v, exec (.bfi h f) s = .next t ∧
    LaneResult s x (execMask h x.w x.e) f.d (WF.ty f).is64 v t ∧
    ∀ l, let p := (readSrc s x .n32 f.c l).val.toNat % 256
      let n := min ((readSrc s x .n32 f.c l).val.toNat / 256 % 256) (tyWidth (WF.ty f))
      ∀ i, (v l).getLsbD i = (decide (i < tyWidth (WF.ty f)) &&
        (if p ≤ i ∧ i < p + n then (srcB s x f (WF.ty f) l).val.getLsbD (i - p) else (srcA s x f (WF.ty f) l).val.getLsbD i))) ∧
  (∀ h f s x, Issues s x → Clean x → ∃ t v, exec (.perm h f) s = .next t ∧
    LaneResult s x (execMask h x.w x.e) f.d false v t ∧
    ∀ l, (v l).toNat < 2 ^ 32 ∧ ∀ j < 4,
      let c := (srcC s x f .b32 l).val.toNat / 256 ^ j % 256
      let src := if c % 8 < 4 then (srcA s x f .b32 l).val else (srcB s x f .b32 l).val
      let bit := fun i => src.getLsbD (8 * (c % 4) + i)
      ∀ i < 8, (v l).getLsbD (8 * j + i) =
        (if c / 8 % 4 = 0 then bit i else if c / 8 % 4 = 1 then false else if c / 8 % 4 = 2 then bit 7 else bit (7 - i))))

/-- R225, R227 to R231: selection, moves, immediates, addresses and indirect registers. R230, R231: the register that an index in an s-register names, read or written; an index out of range parks the entry in WINDOW. -/
def Obligations.MoveResults : Prop :=
 ((∀ h f s x, Issues s x → Clean x → ∃ t, exec (.sel h f) s = .next t ∧
    LaneResult s x (execMask h x.w x.e) f.d (WF.ty f).is64 (fun l => if x.w.pred f.c.toNat l ≠ f.fn.getLsbD 0
      then (readSrc s x (WF.ty f) f.a l).val else (readSrc s x (WF.ty f) f.b l).val) t) ∧
  (∀ h f s x, Issues s x → Clean x → ∃ t, exec (.mov h f) s = .next t ∧
    LaneResult s x (execMask h x.w x.e) f.d (WF.ty f).is64 (fun l => (readSrc s x (WF.ty f) f.a l).val) t) ∧
  (∀ h f s x, Issues s x → Clean x → ∃ t, exec (.movi h f) s = .next t ∧
    LaneResult s x (execMask h x.w x.e) f.d f.x (fun _ => if f.x then f.imm.signExtend 64 else f.imm.zeroExtend 64) t) ∧
  (∀ h f s x, Issues s x → Clean x → ∃ t v, exec (.addi h f) s = .next t ∧
    LaneResult s x (execMask h x.w x.e) f.d f.x v t ∧ ∀ l, v l = if f.x
      then (readSrc s x .n64 f.a l).val + f.imm.signExtend 64 else (lo32 (readSrc s x .b32 f.a l).val + f.imm).zeroExtend 64) ∧
  (∀ h f s x, Issues s x → Clean x → ∃ t v, exec (.lea h f) s = .next t ∧
    LaneResult s x (execMask h x.w x.e) f.d true v t ∧ ∀ l, ((v l).toNat : Int) ≡ (readSrc s x .n64 f.a l).val.toNat +
      (if (WF.ty f).isSigned then (lo32 (readSrc s x (WF.ty f) f.b l).val).toInt else (lo32 (readSrc s x (WF.ty f) f.b l).val).toNat)
        * 2 ^ (f.fn.toNat % 8) [ZMOD 2 ^ 64])) ∧
 ((∀ h f s x, Issues s x → Clean x → IndexNames x.w (WF.ty f).is64 (sget 0 x.g.sregs (f.a.toNat - 0xC0)).toNat →
    ∃ t, exec (.movrGet h f) s = .next t ∧ LaneResult s x (execMask h x.w x.e) f.d (WF.ty f).is64
      (fun l => regValue x.w (WF.ty f).is64 (sget 0 x.g.sregs (f.a.toNat - 0xC0)).toNat l) t) ∧
  (∀ h f s x, Issues s x → Clean x → IndexNames x.w (WF.ty f).is64 (sget 0 x.g.sregs (f.b.toNat - 0xC0)).toNat →
    ∃ t, exec (.movrPut h f) s = .next t ∧ RegResult s x (execMask h x.w x.e) (some (sget 0 x.g.sregs (f.b.toNat - 0xC0)).toNat)
      (WF.ty f).is64 (fun l => (readSrc s x (WF.ty f) f.a l).val) t) ∧
  (∀ h f s x, Issues s x → Clean x → execMask h x.w x.e &&& x.w.real ≠ 0 →
    ¬ IndexNames x.w (WF.ty f).is64 (sget 0 x.g.sregs (f.a.toNat - 0xC0)).toNat →
    ∃ t, exec (.movrGet h f) s = .next t ∧ Parks s x h .window ((sget 0 x.g.sregs (f.a.toNat - 0xC0)).zeroExtend 64) t) ∧
  (∀ h f s x, Issues s x → Clean x → execMask h x.w x.e &&& x.w.real ≠ 0 →
    ¬ IndexNames x.w (WF.ty f).is64 (sget 0 x.g.sregs (f.b.toNat - 0xC0)).toNat →
    ∃ t, exec (.movrPut h f) s = .next t ∧ Parks s x h .window ((sget 0 x.g.sregs (f.b.toNat - 0xC0)).zeroExtend 64) t))

/-! ## Predicates (06, 08) -/

/-- R29, R226, R238, R281, R282: what the instructions with a predicate destination leave in it; `pto` and `pcnt` of a predicate. -/
def Obligations.PredicateResult : Prop :=
  (∀ h f s x, Issues s x → Clean x → ∃ t v, exec (.cmp h f) s = .next t ∧ PredResult s x (execMask h x.w x.e) f.d v t ∧
    ∀ l, let a := intOf (WF.ty f) ((srcA s x f (WF.ty f) l).val.toNat % 2 ^ tyWidth (WF.ty f))
      let b := intOf (WF.ty f) ((srcB s x f (WF.ty f) l).val.toNat % 2 ^ tyWidth (WF.ty f))
      v l = true ↔ ([a = b, a ≠ b, a < b, a ≤ b, a > b, a ≥ b].getD (f.fn.toNat % 8) False ∧
        (f.fn.getLsbD 3 = true → x.w.pred f.c.toNat l = true))) ∧
  (∀ h f s x, Issues s x → Clean x → Untrapped x → ∃ t, ∃ v : Nat → Bool, ∃ flags, exec (.fcmp h f) s = .next t ∧
    (∃ p, t = goesOn s x { x.w with preds := x.w.preds.set f.d.toNat p, fpflags := flags } ∧
      ∀ l, p.getLsbD l = if (execMask h x.w x.e).getLsbD l then v l else x.w.pred f.d.toNat l) ∧
    let va := fun l => fvOf (fmtOf (WF.ty f)) (srcA s x f (WF.ty f) l).val.toNat
    let vb := fun l => fvOf (fmtOf (WF.ty f)) (srcB s x f (WF.ty f) l).val.toNat
    let un := fun l => (va l).isNan = true ∨ (vb l).isNan = true
    (∀ l, let a := (va l).ext
      let b := (vb l).ext
      v l = true ↔ (if un l then f.fn.toNat % 8 = 1 ∨ f.fn.toNat % 8 = 6
          else [a = b, a ≠ b, a < b, a ≤ b, a > b, a ≥ b, False, True].getD (f.fn.toNat % 8) False) ∧
        (f.fn.getLsbD 3 = true → x.w.pred f.c.toNat l = true)) ∧
    FlagsAfter x.w (execMask h x.w x.e) (fun l i => i = 0 ∧
      ((va l).isSig = true ∨ (vb l).isSig = true ∨ (un l ∧ 2 ≤ f.fn.toNat % 8 ∧ f.fn.toNat % 8 ≤ 5))) flags) ∧
  (∀ h f s x, Issues s x → Clean x → ∃ t, exec (.fclass h f) s = .next t ∧ PredResult s x (execMask h x.w x.e) f.d
    (fun l => (readSrc s x .b32 f.b l).val.getLsbD (classOf (fmtOf (WF.ty f)) (readSrc s x (WF.ty f) f.a l).val.toNat)) t) ∧
  (∀ h f s x, Issues s x → Clean x → ∃ t v, exec (.plop h f) s = .next t ∧ PredResult s x (execMask h x.w x.e) f.d v t ∧
    ∀ l, v l = ((encode (.plop h f)).getD 0).getLsbD (8 * (x.w.pred f.d.toNat l).toNat + 4 * (x.w.pred f.a.toNat l).toNat +
      2 * (x.w.pred f.b.toNat l).toNat + (x.w.pred f.c.toNat l).toNat)) ∧
  (∀ h f s x, Issues s x → Clean x → ∃ t v, exec (.pfrom h f) s = .next t ∧ PredResult s x (execMask h x.w x.e) f.d v t ∧
    ∀ l, v l = true ↔ if f.fn = 0 then (readSrc s x (WF.ty f) f.a l).val.getLsbD l = true else (readSrc s x (WF.ty f) f.a l).val ≠ 0) ∧
  (∀ h f s x, Issues s x → Clean x → ∃ t v, exec (.pto h f) s = .next t ∧ LaneResult s x (execMask h x.w x.e) f.d false v t ∧
    ∀ l, if f.fn = 0 then (v l).toNat = (x.w.pred f.a.toNat l).toNat
      else ∀ i, (v l).getLsbD i = x.w.pred f.a.toNat i) ∧
  (∀ h f s x, Issues s x → Clean x → ∃ t v, exec (.pcntPred h f) s = .next t ∧ LaneResult s x (execMask h x.w x.e) f.d false v t ∧
    ∀ l, (v l).toNat = ((Finset.range 32).filter fun i => (execMask h x.w x.e &&& x.w.real).getLsbD i = true ∧
      x.w.pred f.a.toNat i = true ∧ (f.fn = 0 ∨ i < l)).card)

/-! ## Floating point and conversion (07, 08) -/

/-- R270 to R275, R279, R280, R283: element by element, the operation of the table rounded once, with its sticky flags. R284, R285, R288, R289, R293: scaling, the two-term dot product, conversions and `bscl.apply`. -/
def Obligations.FloatResults : Prop :=
 (FloatPair .fadd faddOf ∧ FloatPair .fsub fsubOf ∧ FloatPair .fmul fmulOf ∧ FloatTriple .ffma ffmaOf ∧
  FloatPair .fmin (fun _ m => minMax m false) ∧ FloatPair .fmax (fun _ m => minMax m true) ∧ FloatTriple .fclamp (fun _ => fclampOf) ∧
  (∀ h f s x, Issues s x → Clean x → Untrapped x → ∃ t v fl, exec (.frint h f) s = .next t ∧
    FpResult s x (execMask h x.w x.e) f.d (WF.ty f).is64 v fl t ∧
    FpElements (WF.ty f) (f.md.getLsbD 5) (fun l k => frintOf (fmtOf (WF.ty f)) f.rm.toNat (elemAt (WF.ty f) (srcA s x f (WF.ty f) l).val k)) v fl)) ∧
 ((∀ h f s x, Issues s x → Clean x → Untrapped x → ∃ t v fl, exec (.fscal h f) s = .next t ∧
    FpResult s x (execMask h x.w x.e) f.d (WF.ty f).is64 v fl t ∧
    FpElements (WF.ty f) (f.md.getLsbD 5) (fun l k => scaleOf (fmtOf (WF.ty f)) f.rm.toNat (elemAt (WF.ty f) (srcA s x f (WF.ty f) l).val k)
      (lo32 (readSrc s x .i32 f.b l).val).toInt) v fl) ∧
  (∀ h f s x, Issues s x → Clean x → Untrapped x → tyPacked (WF.ty f) = true → ∃ t v fl, exec (.fdot2 h f) s = .next t ∧
    FpResult s x (execMask h x.w x.e) f.d false v fl t ∧
    FpElements .f32 (f.md.getLsbD 5) (fun l _ =>
      let e := fun (r : Src) k => fvOf (fmtOf (WF.ty f)) (elemAt (WF.ty f) r.val k)
      let a := srcA s x f (WF.ty f) l
      let b := srcB s x f (WF.ty f) l
      fusedSum (fmtOf .f32) f.rm.toNat [(e a 0, e b 0), (e a 1, e b 1)] [fvOf (fmtOf .f32) (srcC s x f .f32 l).val.toNat]) v fl) ∧
  (∀ h f s x, Issues s x → Clean x → Untrapped x → tyPacked (WF.ty f) = false → ∃ t v fl, exec (.cvt h f) s = .next t ∧
    FpResult s x (execMask h x.w x.e) f.d (WF.ty f).is64 v fl t ∧
    ∀ l, let r := convert f (cvtSource s x f f.a (f.md.getLsbD 0) (f.md.getLsbD 1) l)
      v l = BitVec.ofNat 64 r.1 ∧ ∀ i, fl l i ↔ r.2.testBit i = true) ∧
  (∀ h f s x, Issues s x → Clean x → Untrapped x → tyPacked (WF.ty f) = true → ∃ t v fl, exec (.cvt h f) s = .next t ∧
    FpResult s x (execMask h x.w x.e) f.d false v fl t ∧
    ∀ l, let r := fun k => convert f (if k = 0 then cvtSource s x f f.a (f.md.getLsbD 0) (f.md.getLsbD 1) l
        else cvtSource s x f f.b (f.md.getLsbD 2) (f.md.getLsbD 3) l)
      (∀ k < 2, elemAt (WF.ty f) (v l) k = (r k).1 % 2 ^ 16) ∧ ∀ i, fl l i ↔ ∃ k < 2, (r k).2.testBit i = true) ∧
  (∀ h f s x, Issues s x → Clean x → Untrapped x → ∃ t v fl, exec (.bsclApply h f) s = .next t ∧
    FpResult s x (execMask h x.w x.e) f.d false v fl t ∧
    ∀ l, let a := (srcA s x f .f32 l).val.toNat
      let e := (readSrc s x .n32 f.b l).val.toNat % 256
      let r := if e = 255 then nanRes (fmtOf .f32) (fvOf (fmtOf .f32) a).isSig else scaleOf (fmtOf .f32) f.rm.toNat a (127 - (e : Int))
      v l = BitVec.ofNat 64 r.bits ∧ ∀ i, fl l i ↔ r.fl.testBit i = true))

/-- R189, R191, R286, R287: a long operation is pending with its correctly computed result and its flags. Choices of the model: how the exact value is bracketed before it is rounded (log 19). -/
def Obligations.LongFloatPending : Prop :=
  LongPending .fsqrt sqrtOf ∧ LongPending .frcp rcpOf ∧ LongPending .frsq rsqOf ∧ LongPending .fex2 ex2Of ∧ LongPending .flg2 lg2Of ∧
  LongPending .fsinp sinpOf ∧ LongPending .fcosp cospOf ∧ LongPending .ftanh tanhOf ∧ LongPending .fsig sigOf ∧
  (∀ h f s x, Issues s x → Clean x → Untrapped x → ∃ t v fl, exec (.fdiv h f) s = .next t ∧
    PendingResult s x (execMask h x.w x.e) f.d (WF.ty f).is64 v fl t ∧
    FpElements (WF.ty f) (f.md.getLsbD 5) (fun l k => divOf (fmtOf (WF.ty f)) f.rm.toNat (elemAt (WF.ty f) (srcA s x f (WF.ty f) l).val k)
      (elemAt (WF.ty f) (srcB s x f (WF.ty f) l).val k)) v fl)

/-- R259 to R263, R291 to R295: L6 codes, packed groups and block scales. R258, R259, R261: the product of two codes is exact in the log domain, and ToL6 picks the code below or above a magnitude by the
threshold, ties to the even code. -/
def Obligations.L6Results : Prop :=
 ((∀ h f s x, Issues s x → Clean x → f.fn ≠ 1 → ∃ t, exec (.cvl6 h f) s = .next t ∧ LaneResult s x (execMask h x.w x.e) f.d false
    (fun l => BitVec.ofNat 64 (toL6 (if f.fn = 0 then plainTh
        else ditherTh ((readSrc s x .n32 f.b l).val.toNat % 32 + (readSrc s x .n32 f.c l).val.toNat % 32))
      (fvOf (fmtOf (WF.ty f)) (srcA s x f (WF.ty f) l).val.toNat))) t) ∧
  (∀ h f s x, Issues s x → Clean x → f.fn = 1 → ∃ t, exec (.cvl6 h f) s = .next t ∧ LaneResult s x (execMask h x.w x.e) f.d (WF.ty f).is64
    (fun l => BitVec.ofNat 64 (fromL6 (fmtOf (WF.ty f)) f.rm.toNat (l6Val (readSrc s x .l6 f.a l).val.toNat))) t) ∧
  (∀ h f s x, Issues s x → Clean x → ∃ t, exec (.lmul h f) s = .next t ∧ LaneResult s x (execMask h x.w x.e) f.d false
    (fun l => let v := l6Mul (readSrc s x .l6 f.a l).val.toNat (readSrc s x .l6 f.b l).val.toNat
      BitVec.ofNat 64 (if WF.ty f = .l6
        then v.elim 32 (toL6 (if f.fn = 0 then plainTh else ditherTh ((readSrc s x .n32 f.c l).val.toNat % 32)))
        else fromL6 (fmtOf .f32) 0 v)) t) ∧
  (∀ h f s x, Issues s x → Clean x → ∃ t v, exec (.bsclFind h f) s = .next t ∧ LaneResult s x (execMask h x.w x.e) f.d false v t ∧
    ∀ l, match fvOf (fmtOf (WF.ty f)) (srcA s x f (WF.ty f) l).val.toNat with
      | .fin _ m k => (v l).toNat ≤ 254 ∧ (absVal m k ≤ l6Value 31 * 2 ^ ((v l).toNat - 127 : Int) ∨ (v l).toNat = 254) ∧
          ∀ e < (v l).toNat, l6Value 31 * 2 ^ ((e : Int) - 127) < absVal m k
      | _ => v l = 255) ∧
  (∀ h f s x, Issues s x → Clean x → ∃ t v, exec (.pk6 h f) s = .next t ∧ BlockResult s x (execMask h x.w x.e) f.d 3 v t ∧
    ∀ l, ∀ i < 16, groupOf (v l) / 2 ^ (6 * i) % 64 =
      toL6 (if f.fn.getLsbD 1 then ditherTh ((if f.fn.getLsbD 0 then 16 else 0) + i + (readSrc s x .n32 f.c l).val.toNat % 32) else plainTh)
        (fvOf (fmtOf (WF.ty f)) (modSrc (WF.ty f) (f.md.getLsbD 0) (f.md.getLsbD 1)
          (BitVec.ofNat 64 ((blockWord x f.a i l).toNat % 2 ^ tyWidth (WF.ty f)))).toNat)) ∧
  (∀ h f s x, Issues s x → Clean x → ∃ t, exec (.upk6 h f) s = .next t ∧ BlockResult s x (execMask h x.w x.e) f.d 16
    (fun l i => BitVec.ofNat 32 (fromL6 (fmtOf (WF.ty f)) f.rm.toNat (l6Val (groupOf (fun j => blockWord x f.a j l) / 2 ^ (6 * i) % 64)))) t)) ∧
 ((∀ a b, a < 64 → b < 64 → a ≠ 32 → b ≠ 32 → a ≠ 0 → b ≠ 0 → ∃ m k, l6Mul a b = some (.fin (decide (32 ≤ a) != decide (32 ≤ b)) m k) ∧
    absVal m k = l6Value ((a % 32 : Nat) + (b % 32 : Nat) - 16)) ∧
  (∀ th n m k, ∃ c ≤ 31, toL6 th (.fin n m k) = (if c = 0 then 0 else (if n then 32 else 0) + c) ∧
    (l6Mag 31 ≤ absVal m k → c = 31) ∧
    (absVal m k < l6Mag 31 → ∃ b ≤ 30, l6Mag b ≤ absVal m k ∧ absVal m k < l6Mag (b + 1) ∧
      let t := (absVal m k - l6Mag b) / (l6Mag (b + 1) - l6Mag b)
      (c = b + 1 ∧ ((th : Rat) / 64 < t ∨ (t = (th : Rat) / 64 ∧ b % 2 = 1))) ∨
      (c = b ∧ (t < (th : Rat) / 64 ∨ (t = (th : Rat) / 64 ∧ b % 2 = 0))))) ∧
  (∀ th s, toL6 th (.nan s) = 32) ∧ (∀ th n, toL6 th (.inf n) = 32))

/-! ## Uniform instructions (06) -/

/-- R13, R232 to R235: what the uniform instructions leave in the group's uniform registers. The wave itself sees what it has written; what the others still see is a free choice within R236, the model's (log 5). -/
def Obligations.UniformInstructions : Prop :=
  (∀ h f, f.fn.toNat ≤ 12 → tyPacked (WF.ty f) = false → UniformMeaning (.salu h f) h f.d (uniTy (WF.ty f)).is64 fun _ x v =>
    v.toNat < 2 ^ tyWidth (uniTy (WF.ty f)) ∧
    SaluOk (uniTy (WF.ty f)) f.fn.toNat (elemAt (uniTy (WF.ty f)) (uniValue x (uniTy (WF.ty f)).is64 f.a.toNat) 0)
      (elemAt (uniTy (WF.ty f)) (uniValue x (uniTy (WF.ty f)).is64 f.b.toNat) 0) ((sget 0 x.g.sregs f.b.toNat).toNat % 256) v.toNat) ∧
  (∀ h f, UniformMeaning (.scmp h f) h f.d (uniTy (WF.ty f)).is64 fun _ x v =>
    let a := intOf (uniTy (WF.ty f)) (uniValue x (uniTy (WF.ty f)).is64 f.a.toNat).toNat
    let b := intOf (uniTy (WF.ty f)) (uniValue x (uniTy (WF.ty f)).is64 f.b.toNat).toNat
    (v = 1 ∧ [a = b, a ≠ b, a < b, a ≤ b, a > b, a ≥ b].getD (f.fn.toNat % 8) False) ∨
    (v = 0 ∧ ¬ [a = b, a ≠ b, a < b, a ≤ b, a > b, a ≥ b].getD (f.fn.toNat % 8) False)) ∧
  (∀ h f, UniformMeaning (.smovi h f) h f.d f.x fun _ _ v => v = if f.x then f.imm.signExtend 64 else f.imm.zeroExtend 64) ∧
  (∀ h f, UniformMeaning (.smov h f) h f.d (WF.ty f).is64 fun _ x v => v = uniValue x (WF.ty f).is64 f.a.toNat) ∧
  (∀ h f, UniformMeaning (.sfrom h f) h f.d (WF.ty f).is64 fun s x v => v =
    (readSrc s x (WF.ty f) f.a (if f.fn = 0 then (sget 0 x.g.sregs f.b.toNat).toNat % 32 else f.b.toNat % 32)).val) ∧
  (∀ h f, UniformMeaning (.ssel h f) h f.d (WF.ty f).is64 fun _ x v => v =
    if sget 0 x.g.sregs f.c.toNat ≠ 0 then uniValue x (WF.ty f).is64 f.a.toNat else uniValue x (WF.ty f).is64 f.b.toNat) ∧
  (∀ h f, UniformMeaning (.slea h f) h f.d true fun _ x v => (v.toNat : Int) ≡ (uniValue x true f.a.toNat).toNat +
    (if (WF.ty f).isSigned then (sget 0 x.g.sregs f.b.toNat).toInt else (sget 0 x.g.sregs f.b.toNat).toNat) * 2 ^ (f.fn.toNat % 8) [ZMOD 2 ^ 64])

/-! ## Lane exchanges (06) -/

/-- R239 to R241, R243: the shuffles, when every named lane is in the issuing entry. R244 to R248: votes, comparisons across lanes, reductions and scans, when every named lane is in the issuing entry. Choices of the model: the rounding field of floating reductions (log 33). -/
def Obligations.ExchangeResults : Prop :=
 ((∀ h f, ExchangeMeaning (.shfl h f) h f.c fun s x q w => Shuffled s x f q (fun l =>
    let n := 32 / 2 ^ (f.fn.toNat / 4)
    some (n * (l / n) + (readSrc s x .b32 f.b l).val.toNat % 32 % n)) w) ∧
  (∀ h f, ExchangeMeaning (.shfx h f) h f.c fun s x q w =>
    Shuffled s x f q (fun l => some (l ^^^ ((readSrc s x .b32 f.b l).val.toNat % 32))) w) ∧
  (∀ h f, ExchangeMeaning (.shfd h f) h f.c fun s x q w => Shuffled s x f q (fun l =>
    let n := 32 / 2 ^ (f.fn.toNat / 4)
    let d := (readSrc s x .b32 f.b l).val.toNat % 256
    let k : Int := if f.fn.getLsbD 0 then (l % n : Nat) - d else (l % n : Nat) + d
    if f.fn.getLsbD 1 then some (n * (l / n) + (k % n).toNat) else if 0 ≤ k ∧ k < n then some (n * (l / n) + k.toNat) else none) w) ∧
  (∀ h f, ExchangeMeaning (.qswp h f) h f.c fun s x q w => Shuffled s x f q (fun l => some (l ^^^ (f.fn.toNat + 1))) w) ∧
  (∀ h f, ExchangeMeaning (.qbc h f) h f.c fun s x q w => Shuffled s x f q (fun l => some (4 * (l / 4) + f.b.toNat % 4)) w)) ∧
 ((∀ h f, ExchangeMeaning (.vote h f) h f.c fun s x q w =>
    let p := (counted x q).filter fun l => x.w.pred f.a.toNat l = true
    if f.fn.toNat = 0 then ∃ b, (b = true ↔ p = counted x q) ∧ ExchangedPred x q f.d b w
    else if f.fn.toNat = 1 then ∃ b, (b = true ↔ p.Nonempty) ∧ ExchangedPred x q f.d b w
    else if f.fn.toNat = 2 then ∃ b, (b = true ↔ Odd p.card) ∧ ExchangedPred x q f.d b w
    else if f.fn.toNat = 3 then ∃ m : W64, (∀ i, m.getLsbD i = true ↔ i ∈ p) ∧ ExchangedReg x q f.d false (fun _ => m) w
    else if f.fn.toNat = 4 then ExchangedReg x q f.d false (fun _ => BitVec.ofNat 64 p.card) w
    else ∃ b, (b = true ↔ ∀ i ∈ counted x q, ∀ j ∈ counted x q, (readSrc s x (WF.ty f) f.a i).val = (readSrc s x (WF.ty f) f.a j).val) ∧
      ExchangedPred x q f.d b w) ∧
  (∀ h f, ExchangeMeaning (.matchLanes h f) h f.c fun s x q w => ∃ v, ExchangedReg x q f.d false v w ∧ ∀ l < 32,
    let same := (counted x q).filter fun i => (readSrc s x (WF.ty f) f.a i).val = (readSrc s x (WF.ty f) f.a l).val
    if f.fn.toNat = 0 then ∀ i, (v l).getLsbD i = true ↔ i ∈ same
    else if f.fn.toNat = 1 then if h : same.Nonempty then (v l).toNat = same.min' h else v l = 32
    else if f.fn.toNat = 2 then (v l).toNat = (same.filter (· < l)).card
    else (v l).toNat = ((counted x q).image fun i => (readSrc s x (WF.ty f) f.a i).val).card) ∧
  (∀ h f, ExchangeMeaning (.firstL h f) h f.c fun s x q w => ∃ k, (if h : (counted x q).Nonempty then k = (counted x q).min' h else k = 32) ∧
    if f.fn = 1 then ExchangedReg x q f.d false (fun _ => BitVec.ofNat 64 k) w
    else ExchangedReg x q f.d (WF.ty f).is64 (fun l => (readSrc s x (WF.ty f) f.a (if k = 32 then l else k)).val) w) ∧
  (∀ h f, ExchangeMeaning (.wred h f) h f.c fun s x q w => ∃ v, ExchangedPending x q f.d (WF.ty f).is64 (fun _ => v) w ∧
    v.toNat = redTree (fun p q => (redOp f.fn.toNat (WF.ty f) f.rm.toNat p q).bits)
      (fun l => if l ∈ counted x q then (readSrc s x (WF.ty f) f.a l).val.toNat else redId f.fn.toNat (WF.ty f)) 5 0 % 2 ^ 64) ∧
  (∀ h f, ExchangeMeaning (.wscan h f) h f.c fun s x q w => ∃ v, ExchangedPending x q f.d (WF.ty f).is64 v w ∧
    ∀ l < 32, (v l).toNat = (((List.range (if f.fn.getLsbD 3 then l else l + 1)).foldl (fun acc k =>
      (redOp f.fn.toNat (WF.ty f) f.rm.toNat acc
        (if k ∈ counted x q then (readSrc s x (WF.ty f) f.a k).val.toNat else redId f.fn.toNat (WF.ty f))).bits)
      (redId f.fn.toNat (WF.ty f)))) % 2 ^ 64))

/-! ## Memory (10, 11) -/

/-- R364 to R367: loads leave the words of their bytes pending. Choices of the model: an access is performed when it issues (log 3). -/
def Obligations.LoadResult : Prop :=
  (∀ h f s x ts, Issues s x → Clean x → Quiet s x → AllReach s x (.ld h f) (execMask h x.w x.e) (loadOp s f x) ts →
    ∃ t, exec (.ld h f) s = .next t ∧ MemPending s x
      (received (loadOp s f x) f.sg 32 ((Mask.lanes (execMask h x.w x.e)).map fun l => (l, s.readSites (ts l)))) t) ∧
  (∀ h f s x ts, Issues s x → Clean x → Quiet s x →
    let op := fun l => ({ lane := l, accs := blockAccs s x f l, data := [], cmp := [], dst := dstKey x f.d l } : LaneOp)
    AllReach s x (.ldv h f) (execMask h x.w x.e) op ts → ∃ t, exec (.ldv h f) s = .next t ∧ MemPending s x
      (received op false 32 ((Mask.lanes (execMask h x.w x.e)).map fun l => (l, s.readSites (ts l)))) t) ∧
  (∀ h f s x ts, Issues s x → Clean x → Quiet s x → Acts x h →
    let op : LaneOp := { lane := 0, accs := [((readSrc s x .n64 f.a 0).val + mfOffset f false, mfSize f)], data := dataBytes f.sz.toNat [], cmp := []
                         dst := some (sBase + (f.d.toNat - 0xC0)) }
    Reaches s x (.sld h f) op ts → ∃ t, exec (.sld h f) s = .next t ∧ MemPending s x (received (fun _ => op) false 1 [(0, s.readSites ts)]) t)

/-- R364, R366, R367: stores write the bytes of their sources in rising order of the lanes that are not helper lanes, and change nothing
else. Choices of the model: an access is performed when it issues, the lanes of a store in rising order (log 3). -/
def Obligations.StoreResult : Prop :=
  (∀ h f s x ts, Issues s x → Clean x → Quiet s x → AllReach s x (.st h f) (execMask h x.w x.e) (storeOp s f x) ts →
    exec (.st h f) s = .next (goesOn (stored s (Mask.lanes (execMask h x.w x.e &&& x.w.real)) ts fun l =>
      dataBytes f.sz.toNat (dataSrc s x f.d f.sz.toNat l)) x x.w)) ∧
  (∀ h f s x ts, Issues s x → Clean x → Quiet s x →
    let data := fun l => (blockSrc s x f.d (mfSize f / 4) l).flatMap fun r => bytesOfNat 4 r.val.toNat
    AllReach s x (.stv h f) (execMask h x.w x.e) (fun l => { lane := l, accs := blockAccs s x f l, data := data l, cmp := [], dst := none }) ts →
    exec (.stv h f) s = .next (goesOn (stored s (Mask.lanes (execMask h x.w x.e &&& x.w.real)) ts data) x x.w)) ∧
  (∀ h f s x ts, Issues s x → Clean x → Quiet s x → Acts x h →
    let data := dataBytes f.sz.toNat (sstData s f x)
    Reaches s x (.sst h f) { lane := 0, accs := [((readSrc s x .n64 f.a 0).val + mfOffset f false, mfSize f)], data := data, cmp := [], dst := none } ts →
    exec (.sst h f) s = .next (goesOn (s.writeSites false ts data) x x.w))

/-- R368 to R371, R436: `atom`, `acas` and `sigadd` read and write their words lane by lane; helper lanes receive 0. Choices of the model: an access is performed when it issues (log 3). -/
def Obligations.AtomicResult : Prop :=
  (∀ h f s x ts, Issues s x → Clean x → Quiet s x → SoundSites s (execMask h x.w x.e) ts →
    let b := fun l => (readSrc s x (atomTy f) f.b l).val.toNat
    let op := fun l => ({ lane := l, accs := oneAcc s x f true l, data := bytesOfNat (mfSize f) (b l), cmp := [], dst := dstKey x f.d l } : LaneOp)
    AllReach s x (.atom h f) (execMask h x.w x.e) op ts →
    let r := inTurn ts (helperZero x (mfSize f)) (fun l old => some (bytesOfNat (mfSize f) (atomNew (mfOpn f) (mfSize f) f.sg (natOfBytes old)
      (b l % 2 ^ (8 * mfSize f))))) (Mask.lanes (execMask h x.w x.e)) s
    ∃ t, exec (.atom h f) s = .next t ∧ MemPending r.1 x (received op false 32 r.2) t) ∧
  (∀ h f s x ts, Issues s x → Clean x → Quiet s x → SoundSites s (execMask h x.w x.e) ts →
    let bs := fun l => (acasBlock s f x l).flatMap fun r => bytesOfNat 4 r.val.toNat
    let op := fun l => ({ lane := l, accs := oneAcc s x f false l, data := (bs l).drop (mfSize f), cmp := (bs l).take (mfSize f), dst := dstKey x f.d l } : LaneOp)
    AllReach s x (.acas h f) (execMask h x.w x.e) op ts →
    let r := inTurn ts (helperZero x (mfSize f)) (fun l old => if old = (bs l).take (mfSize f) then some (((bs l).drop (mfSize f)).take (mfSize f)) else none)
      (Mask.lanes (execMask h x.w x.e)) s
    ∃ t, exec (.acas h f) s = .next t ∧ MemPending r.1 x (received op false 32 r.2) t) ∧
  (∀ h f s x ts, Issues s x → Clean x → Quiet s x → SoundSites s (execMask h x.w x.e) ts → f.sz = 3 →
    let b := fun l => (readSrc s x .n64 f.b l).val
    let op := fun l => ({ lane := l, accs := oneAcc s x f true l, data := bytesOfNat 8 (b l).toNat, cmp := [], dst := dstKey x f.d l } : LaneOp)
    AllReach s x (.sigadd h f) (execMask h x.w x.e) op ts →
    let r := inTurn ts (helperZero x 8) (fun l old => some (bytesOfNat 8 (sigaddNew (mfOpn f) (BitVec.ofNat 64 (natOfBytes old)) (b l)).toNat))
      (Mask.lanes (execMask h x.w x.e)) s
    ∃ t v regs l0 l1, exec (.sigadd h f) s = .next t ∧ (∀ g ∈ r.2, v g.1 = BitVec.ofNat 64 (natOfBytes (g.2.map fun b => b.1))) ∧
      t = goesOn r.1 x { x.w with regs := regs, l0 := l0, l1 := l1 } ∧
      DstWords x.w (execMask h x.w x.e) (dstReg x.w f.d) true v regs ∧ LastResult x.w (execMask h x.w x.e) v l0 l1)

/-- R340, R471, R475: what a write of one sector leaves: its bytes under its key and tweak; a word written whole has the poison of the
data, a word written in part keeps its own; a whole sector is LOST no more. R360, R364, R366, R368, R436: every byte outside the places that a store or an atomic writes reads as before. Choices of the model: a part of a word keeps the word's poison (log 39), a sector is held beside its key and tweak (log 12). -/
def Obligations.BytesKeptByStores : Prop :=
 (∀ (s : State) (pa va : Nat) (key : KeyMat) (fe : Bool) (bs : List Byte) (bad : Bool), bs ≠ [] → pa % 32 + bs.length ≤ 32 →
    let t := s.writeSite (.dev pa va key fe) bs bad
    (∀ k, ∀ h : k < bs.length, t.mem.bytes (pa + k) 1 { key := key, unit := va / 32 } = [bs[k]]) ∧
    (∀ w, w ∈ t.mem.poison ↔ if pa / 4 ≤ w ∧ w ≤ (pa + bs.length - 1) / 4
      then bad = true ∨ (w ∈ s.mem.poison ∧ ¬ (pa ≤ 4 * w ∧ 4 * w + 4 ≤ pa + bs.length)) else w ∈ s.mem.poison) ∧
    (∀ sec, sec ∈ t.mem.lost ↔ sec ∈ s.mem.lost ∧ ¬ (sec = pa / 32 ∧ bs.length = 32)) ∧ t.mem.full = s.mem.full) ∧
 ((∀ h f s x ts, Issues s x → Clean x → Quiet s x → AllReach s x (.st h f) (execMask h x.w x.e) (storeOp s f x) ts →
    ∃ t, exec (.st h f) s = .next t ∧ BytesKept s t ((Mask.lanes (execMask h x.w x.e &&& x.w.real)).flatMap ts)) ∧
  (∀ h f s x ts, Issues s x → Clean x → Quiet s x →
    let data := fun l => (blockSrc s x f.d (mfSize f / 4) l).flatMap fun r => bytesOfNat 4 r.val.toNat
    AllReach s x (.stv h f) (execMask h x.w x.e) (fun l => { lane := l, accs := blockAccs s x f l, data := data l, cmp := [], dst := none }) ts →
    ∃ t, exec (.stv h f) s = .next t ∧ BytesKept s t ((Mask.lanes (execMask h x.w x.e &&& x.w.real)).flatMap ts)) ∧
  (∀ h f s x ts, Issues s x → Clean x → Quiet s x → SoundSites s (execMask h x.w x.e) ts →
    let op := fun l => ({ lane := l, accs := oneAcc s x f true l, data := bytesOfNat (mfSize f) (readSrc s x (atomTy f) f.b l).val.toNat, cmp := []
                          dst := dstKey x f.d l } : LaneOp)
    AllReach s x (.atom h f) (execMask h x.w x.e) op ts →
    ∃ t, exec (.atom h f) s = .next t ∧ BytesKept s t ((Mask.lanes (execMask h x.w x.e &&& x.w.real)).flatMap ts)))

/-- R374, R375: space tests and casts. R372, R373, R377, R378, R406: prefetches, cache lines, and a fence, HELD until it is performed. Choices of the model: while an entry is HELD at a fence its wave issues no other access (log 31), an access is performed when it issues (log 3). -/
def Obligations.SpacesAndMaintenance : Prop :=
 ((∀ h f s x, Issues s x → Clean x → ∃ t, exec (.sptest h f) s = .next t ∧ LaneResult s x (execMask h x.w x.e) f.d false
    (fun l => let a := (readSrc s x .n64 f.a l).val.toNat
      if a / 2 ^ 56 = 0 then 0 else if a / 2 ^ 48 = 0xFD00 then 1 else if a / 2 ^ 52 = 0xFC0 then 2 else if a / 2 ^ 32 = 0xFF000000 then 3 else 7) t) ∧
  (∀ h f s x, Issues s x → Clean x → ∃ t, exec (.spcast h f) s = .next t ∧ LaneResult s x (execMask h x.w x.e) f.d (decide (f.fn ≠ 3))
    (fun l => spcastOf s x f.fn.toNat l (readSrc s x (if f.fn = 0 ∨ f.fn = 4 then .n32 else .n64) f.a l).val) t) ∧
  (∀ s x l (a : W64), spcastOf s x 0 l a = (if a.toNat < 2 ^ 24 then 0xFD00000000000000 + BitVec.ofNat 64 (x.g.tag * 2 ^ 24) + a else 0xFE00000000000000)) ∧
  (∀ s x l (a : W64), (a.toNat / 2 ^ 48 = 0xFD00 ∨ a.toNat / 2 ^ 52 = 0xFC0) → spcastOf s x 3 l a = BitVec.ofNat 64 (a.toNat % 2 ^ 24)) ∧
  (∀ s x l (a : W64), a.toNat / 2 ^ 32 = 0xFF000000 → spcastOf s x 3 l a = BitVec.ofNat 64 (a.toNat % 2 ^ 32)) ∧
  (∀ s x l (a : W64), a.toNat / 2 ^ 56 = 0 → spcastOf s x 3 l a = 0xFFFFFFFF ∧ spcastOf s x 5 l a = a) ∧
  (∀ s x l (a : W64), spcastOf s x 4 l a = 0xFF00000000000000 + a)) ∧
 ((∀ h f s x, Issues s x → Clean x → exec (.pref h f) s = .next (goesOn s x x.w)) ∧
  (∀ h f s x ts, Issues s x → Clean x → Quiet s x → AllReach s x (.cwb h f) (execMask h x.w x.e) (lineOp s f x) ts →
    exec (.cwb h f) s = .next (goesOn s x x.w)) ∧
  (∀ h f s x ts, Issues s x → Clean x → Quiet s x → AllReach s x (.cinv h f) (execMask h x.w x.e) (lineOp s f x) ts →
    exec (.cinv h f) s = .next (goesOn s x x.w)) ∧
  (∀ h f s x, Issues s x → Clean x → Acts x h → exec (.fence h f) s = .next (s.setWave x.ref.gid x.ref.wi (x.w.setEntry x.ref.slot (some
    { x.e with mark := (if h.y then some x.w.nextSeq else none), st := .held .fence, insn := some (.fence h f), exec := execMask h x.w x.e, pass := 0 })))) ∧
  (∀ h f s x, Issues s x → Clean x → ¬ Acts x h → exec (.fence h f) s = .next (goesOn s x x.w)) ∧
  (∀ h f s r x, Stands s r x (.held .fence) (.fence h f) → Clean x →
    (∃ e, some e ∈ x.w.entries ∧ (e.st = .held .remote ∨ (f.sel.toNat / 8 % 4 ≠ 1 ∧ e.st = .wait .fe))) → exec (.fencePerformed r) s = .next s) ∧
  (∀ h f s r x, Stands s r x (.held .fence) (.fence h f) → Clean x →
    (∀ e, some e ∈ x.w.entries → e.st ≠ .held .remote ∧ (f.sel.toNat / 8 % 4 ≠ 1 → e.st ≠ .wait .fe)) →
    ∃ us, exec (.fencePerformed r) s = .next ((s.setWave r.gid r.wi (let w := x.w.setEntry r.slot (some x.e.on)
      if f.sel.getLsbD 9 = true ∧ f.sel.toNat / 8 % 4 ≠ 2 then w.dropLatches else w)).modGroup r.gid fun g => { g with unseen := us }) ∧
      (f.sel.toNat % 8 = 0 → us = x.g.unseen) ∧
      (f.sel.toNat % 8 ≠ 0 → f.sel.toNat / 8 % 4 ≠ 1 → ∀ u ∈ us, u.owner = r.wi → u.rel = true) ∧
      (f.sel.toNat % 8 ≠ 0 → f.sel.toNat / 8 % 4 ≠ 2 → ∀ u ∈ us, u.rel = true → aget u.views r.wi = none)))

/-- R388 to R392: `poll` leaves the condition in its predicate; `wtge` and `wteq` whose condition holds in every lane deliver what they
have read. Choices of the model: an access is performed when it issues (log 3). -/
def Obligations.WaitResult : Prop :=
  (∀ n x b, n ≤ 8 → x < 2 ^ (8 * n) → b < 2 ^ (8 * n) → (waitHolds true n x b = true ↔ b ≤ x) ∧
    (waitHolds false n x b = true ↔ x = b ∨ (n = 8 ∧ b < 2 ^ 63 ∧ x = b + 2 ^ 63))) ∧
  (∀ h f s x ts, Issues s x → Clean x → Quiet s x → SoundSites s (execMask h x.w x.e) ts →
    AllReach s x (.poll h f) (execMask h x.w x.e) (waitOp s f false x) ts → ∃ t, exec (.poll h f) s = .next t ∧
      PredResult s x (execMask h x.w x.e) f.d (fun l => waitHolds (!f.sg) (mfSize f) (natOfBytes ((s.readSites (ts l)).map fun b => b.1))
        ((readSrc s x (szTy f.sz.toNat) f.b l).val.toNat % 2 ^ (8 * mfSize f))) t) ∧
  (∀ ge : Bool, ∀ h f s x ts, Issues s x → Clean x → Quiet s x → Fresh x → Unfaulted x → SoundSites s (execMask h x.w x.e) ts → (f.sz = 2 ∨ f.sz = 3) →
    execMask h x.w x.e ≠ 0 → let i : Instr := if ge then .wtge h f else .wteq h f
    let v := fun l => natOfBytes ((s.readSites (ts l)).map fun b => b.1)
    AllReach s x i (execMask h x.w x.e) (waitOp s f true x) ts →
    (∀ l, (execMask h x.w x.e &&& x.w.real).getLsbD l = true →
      waitHolds ge (mfSize f) (v l) ((readSrc s x (szTy f.sz.toNat) f.b l).val.toNat % 2 ^ (8 * mfSize f)) = true) →
    ∃ regs, exec i s = .next (settlesOn s.arrived x { x.w with regs := regs }) ∧
      DstWords x.w (execMask h x.w x.e) (dstReg x.w f.d) (decide (f.sz = 3)) (fun l => BitVec.ofNat 64 (v l)) regs)

/-- R430 to R435: the full/empty instructions on words in the state they need, with nobody waiting. Choices of the model: an access is performed when it issues (log 3). -/
def Obligations.FullEmptyResult : Prop :=
  (∀ h f s x pa va key, Issues s x → Clean x → Quiet s x → Fresh x → Unfaulted x → NoFeWaiters s → execMask h x.w x.e ≠ 0 → f.sz = 3 →
    TaggedWords s x f (execMask h x.w x.e) pa va key → (∀ l, (execMask h x.w x.e).getLsbD l = true → pa l / 8 ∈ s.mem.full) →
    let ws := received (loadOp s f x) false 32 ((Mask.lanes (execMask h x.w x.e)).map fun l => (l, s.readSite (.dev (pa l) (va l) (key l) true) (mfSize f)))
    exec (.ldf h f) s = .next (settlesOn s.arrived x (if ws = [] then x.w else x.w.addPend ws 0 none))) ∧
  (∀ h f s x pa va key, Issues s x → Clean x → Quiet s x → Fresh x → Unfaulted x → NoFeWaiters s → execMask h x.w x.e ≠ 0 → f.sz = 3 →
    TaggedWords s x f (execMask h x.w x.e) pa va key → (∀ l, (execMask h x.w x.e).getLsbD l = true → pa l / 8 ∈ s.mem.full) →
    (∀ l l', (execMask h x.w x.e).getLsbD l = true → (execMask h x.w x.e).getLsbD l' = true → pa l / 8 = pa l' / 8 → l = l') →
    let ws := received (loadOp s f x) false 32 ((Mask.lanes (execMask h x.w x.e)).map fun l => (l, s.readSite (.dev (pa l) (va l) (key l) true) (mfSize f)))
    exec (.ldfe h f) s = .next (settlesOn (filled s (Mask.lanes (execMask h x.w x.e &&& x.w.real)) pa false).arrived x
      (if ws = [] then x.w else x.w.addPend ws 0 none))) ∧
  (∀ h f s x pa va key, Issues s x → Clean x → Quiet s x → Fresh x → Unfaulted x → NoFeWaiters s → execMask h x.w x.e ≠ 0 → f.sz = 3 →
    TaggedWords s x f (execMask h x.w x.e) pa va key → (∀ l, (execMask h x.w x.e).getLsbD l = true → pa l / 8 ∉ s.mem.full) →
    (∀ l l', (execMask h x.w x.e).getLsbD l = true → (execMask h x.w x.e).getLsbD l' = true → pa l / 8 = pa l' / 8 → l = l') →
    exec (.stef h f) s = .next (settlesOn (filled (stored s (Mask.lanes (execMask h x.w x.e &&& x.w.real)) (fun l => [(.dev (pa l) (va l) (key l) true, mfSize f)])
      fun l => dataBytes f.sz.toNat (dataSrc s x f.d f.sz.toNat l)) (Mask.lanes (execMask h x.w x.e &&& x.w.real)) pa true).arrived x x.w)) ∧
  (∀ h f s x pa va key, Issues s x → Clean x → Quiet s x → NoFeWaiters s → f.sz = 3 → TaggedWords s x f (execMask h x.w x.e) pa va key →
    exec (.stf h f) s = .next (goesOn (filled (stored s (Mask.lanes (execMask h x.w x.e &&& x.w.real)) (fun l => [(.dev (pa l) (va l) (key l) true, mfSize f)])
      fun l => dataBytes f.sz.toNat (dataSrc s x f.d f.sz.toNat l)) (Mask.lanes (execMask h x.w x.e &&& x.w.real)) pa true) x x.w)) ∧
  (∀ h f s x pa va key, Issues s x → Clean x → Quiet s x → NoFeWaiters s → f.sz = 3 → TaggedWords s x f (execMask h x.w x.e) pa va key →
    ∃ t v, exec (.fest h f) s = .next t ∧
      PredResult (if f.sg then filled s (Mask.lanes (execMask h x.w x.e &&& x.w.real)) pa false else s) x (execMask h x.w x.e) f.d v t ∧
      ∀ l, (execMask h x.w x.e).getLsbD l = true → if f.sg = true ∧ x.w.real.getLsbD l = false then v l = x.w.pred f.d.toNat l
        else (v l = true ↔ pa l / 8 ∈ s.mem.full ∧
          ¬ (f.sg = true ∧ ∃ l' < l, (execMask h x.w x.e &&& x.w.real).getLsbD l' = true ∧ pa l' / 8 = pa l / 8)))

/-! ## Control (05) -/

/-- R181, R199 to R206: a branch that all lanes of the entry take to one target moves the entry; a call writes its link. A branch that
no lane takes falls through. R181, R185: a branch that some lanes take splits the entry: the taking lanes stay in it, the others take the lowest free entry, else the
lowest free spill slot; with room for neither the entry parks in FRONTIER_OVERFLOW. -/
def Obligations.BranchResults : Prop :=
 ((∀ h f s x, Issues s x → Clean x → Whole x h →
    exec (.bra h f) s = .next (movesTo s x (jumpTarget x f) f.pri (rejoins x f.j.toNat))) ∧
  (∀ h f s x, Issues s x → Clean x → x.e.mask ≠ 0 → execMask h x.w x.e = 0 →
    exec (.bra h f) s = .next (movesTo s x (x.e.pc + 8) x.e.pri (rejoins x f.j.toNat))) ∧
  (∀ h f s x (p : W64), Issues s x → Clean x → Whole x h → (∀ l, x.e.mask.getLsbD l = true → (readSrc s x .n64 f.a l).val = p) →
    p.toNat < 2 ^ 56 → p.toNat % 8 = 0 → exec (.brx h f) s = .next (movesTo s x p f.pri (rejoins x f.j.toNat))) ∧
  (∀ h f s x, Issues s x → Clean x → Whole x h → ∃ regs l0 l1,
    exec (.call h f) s = .next (movesTo s x (jumpTarget x f) f.pri { rejoins x f.j.toNat with regs := regs, l0 := l0, l1 := l1 }) ∧
    DstWords x.w x.e.mask (dstReg x.w f.a) true (fun _ => linkValue x) regs ∧ LastResult x.w x.e.mask (fun _ => linkValue x) l0 l1) ∧
  (∀ h f s x (p : W64), Issues s x → Clean x → Whole x h → (∀ l, x.e.mask.getLsbD l = true → (readSrc s x .n64 f.a l).val = p) →
    p.toNat < 2 ^ 56 → p.toNat % 8 = 0 → ∃ regs l0 l1,
    exec (.callx h f) s = .next (movesTo s x p f.pri { rejoins x f.j.toNat with regs := regs, l0 := l0, l1 := l1 }) ∧
    DstWords x.w x.e.mask (dstReg x.w f.a) true (fun _ => linkValue x) regs ∧ LastResult x.w x.e.mask (fun _ => linkValue x) l0 l1) ∧
  (∀ h f s x (p : W64), Issues s x → Clean x → Whole x h → (∀ l, x.e.mask.getLsbD l = true → (readSrc s x .n64 f.a l).val = p) →
    p.toNat % 8 = 0 → exec (.ret h f) s = .next (movesTo s x (BitVec.ofNat 64 (p.toNat % 2 ^ 56)) (BitVec.ofNat 8 (p.toNat / 2 ^ 56)) (rejoins x f.j.toNat))) ∧
  (∀ h f s x, Issues s x → Clean x → (readSrc s x .n32 f.a 0).val ≠ 0 →
    exec (.brs h f) s = .next (movesTo s x (jumpTarget x f) f.pri x.w)) ∧
  (∀ h f s x, Issues s x → Clean x → (readSrc s x .n32 f.a 0).val = 0 → exec (.brs h f) s = .next (goesOn s x x.w))) ∧
 (let splits := fun (h : Hdr) (f : JF) (x : Issue) => execMask h x.w x.e ≠ 0 ∧ x.e.mask &&& ~~~(execMask h x.w x.e) ≠ 0 ∧
    execMask h x.w x.e &&& ~~~x.e.mask = 0 ∧ ¬ (jumpTarget x f = x.e.pc + 8 ∧ f.pri = x.e.pri)
  (∀ h f s x i, Issues s x → Clean x → splits h f x → FreeEntryAt x.w i → exec (.bra h f) s = .next (s.setWave x.ref.gid x.ref.wi
    (((rejoins x f.j.toNat).setEntry x.ref.slot (some { x.e.on with mask := execMask h x.w x.e, pc := jumpTarget x f, pri := f.pri })).setEntry i
      (some (readyAt (x.e.mask &&& ~~~(execMask h x.w x.e)) (x.e.pc + 8) x.e.pri))))) ∧
  (∀ h f s x i, Issues s x → Clean x → splits h f x → FreeSpillAt x.w i → exec (.bra h f) s = .next (s.setWave x.ref.gid x.ref.wi
    { ((rejoins x f.j.toNat).setEntry x.ref.slot (some { x.e.on with mask := execMask h x.w x.e, pc := jumpTarget x f, pri := f.pri })) with
      spill := x.w.spill.set i (some { mask := x.e.mask &&& ~~~(execMask h x.w x.e), pc := x.e.pc + 8, pri := x.e.pri, faulted := false }) })) ∧
  (∀ h f s x, Issues s x → Clean x → splits h f x → x.e.mask &&& x.w.real ≠ 0 → (∀ j < 8, x.w.entry? j ≠ none ∧ (x.w.spill[j]?).join ≠ none) →
    ∃ t, exec (.bra h f) s = .next t ∧ Parks s x h .frontierOverflow 2 t))

/-- R187, R188, R207 to R209: `join` parks until every live lane its mask names is there, and then goes on; `jset` writes a rejoin mask;
`exit` ends lanes. R210 to R212: `nop` goes on; `yield` marks what it stands back for; `winb` moves the register window, or parks in WINDOW. Choices of the model: when a yielding wave's standing back is over (log 29). -/
def Obligations.JoinExitYield : Prop :=
 ((∀ h f s x, Issues s x → Clean x → Calm x → f.j.toNat < 8 → (x.w.jm[f.j.toNat]?.getD 0) &&& x.w.live &&& ~~~x.e.mask = 0 →
    exec (.joinJ h f) s = .next (s.setWave x.ref.gid x.ref.wi (x.w.setEntry x.ref.slot (some (readyAt x.e.mask (x.e.pc + 8) x.e.pri))))) ∧
  (∀ h f s x, Issues s x → Clean x → Calm x → (x.w.jm[f.j.toNat]?.getD 0) &&& x.w.live &&& ~~~x.e.mask ≠ 0 →
    exec (.joinJ h f) s = .next (s.setWave x.ref.gid x.ref.wi (x.w.setEntry x.ref.slot (some
      { x.e with st := .join f.j.toNat, pass := 0, mark := if h.y then some x.w.nextSeq else none })))) ∧
  (∀ h f s x, Issues s x → Clean x → Calm x → f.fn.toNat < 4 →
    let k := f.d.toNat
    let old := x.w.jm[k]?.getD 0
    let q := execMask h x.w x.e
    exec (.jset h f) s = .next (goesOn s x { x.w with jm := x.w.jm.set k ([q, lo32 (readSrc s x .n32 f.a 0).val, old ||| q, old &&& ~~~q].getD f.fn.toNat 0) })) ∧
  (∀ h f s x, Issues s x → Clean x → Calm x → x.e.mask &&& ~~~(execMask h x.w x.e) ≠ 0 → x.w.live &&& ~~~(execMask h x.w x.e) &&& x.w.real ≠ 0 →
    exec (.exitL h f) s = .next (s.setWave x.ref.gid x.ref.wi (({ x.w with live := x.w.live &&& ~~~(execMask h x.w x.e) } : Wave).setEntry x.ref.slot (some
      { x.e.on with mask := x.e.mask &&& ~~~(execMask h x.w x.e) })))) ∧
  (∀ h f s x, Issues s x → Clean x → Calm x → x.e.mask &&& ~~~(execMask h x.w x.e) = 0 → x.w.live &&& ~~~(execMask h x.w x.e) &&& x.w.real ≠ 0 →
    exec (.exitL h f) s = .next (s.setWave x.ref.gid x.ref.wi (({ x.w with live := x.w.live &&& ~~~(execMask h x.w x.e) } : Wave).setEntry x.ref.slot none))) ∧
  (∀ h f s x, Issues s x → Clean x → x.w.live &&& ~~~(execMask h x.w x.e) &&& x.w.real = 0 →
    ∃ t w, exec (.exitL h f) s = .next t ∧ t.wave? x.ref.gid x.ref.wi = some w ∧ w.ended = true ∧ w.live = 0 ∧ ∀ i, w.entry? i = none)) ∧
 ((∀ h f s x, Issues s x → Clean x → exec (.nop h f) s = .next (goesOn s x x.w)) ∧
  (∀ h f s x c, Issues s x → Clean x → x.g.place = .resident c → ∃ ys ws,
    exec (.yieldE h f) s = .next (s.setWave x.ref.gid x.ref.wi (({ x.w with wdefer := ws } : Wave).setEntry x.ref.slot (some { x.e.on with ylow := ys }))) ∧
    (∀ i, i ∈ ys ↔ i < 8 ∧ i ≠ x.ref.slot ∧ ∃ e, x.w.entry? i = some e ∧ e.st = .ready) ∧
    ∀ r, r ∈ ws ↔ r ≠ { gid := x.ref.gid, wi := x.ref.wi } ∧ ∃ g v, (r.gid, g) ∈ s.groups ∧ g.place = .resident c ∧ g.waves[r.wi]? = some v ∧
      v.slot / 8 = x.w.slot / 8 ∧ ∃ e, some e ∈ v.entries ∧ e.st = .ready) ∧
  (∀ h f s x, Issues s x → Clean x → Acts x h →
    let n : Int := (if f.d = 1 then (x.w.wb : Int) else 0) + (readSrc s x .n32 f.a 0).val.toNat + f.imm.toInt
    (0 ≤ n ∧ n % 32 = 0 ∧ n + 128 ≤ x.w.nregs → exec (.winb h f) s = .next (goesOn s x { x.w with wb := n.toNat })) ∧
    (¬ (0 ≤ n ∧ n % 32 = 0 ∧ n + 128 ≤ x.w.nregs) → ∃ t, exec (.winb h f) s = .next t ∧ Parks s x h .window (BitVec.ofInt 64 (n % 2 ^ 32)) t)) ∧
  (∀ h f s x, Issues s x → Clean x → ¬ Acts x h → exec (.winb h f) s = .next (goesOn s x x.w)))

/-! ## Traps (13) -/

/-- R455 to R461: `trap` and `brk` save the trap registers and go to the handler; without a handler they park; `rtu` returns. Choices of the model: a trap is taken at a READY entry (log 32). -/
def Obligations.TrapAndReturn : Prop :=
  (∀ h f s x, Issues s x → Clean x → Calm x → Acts x h → TrapsOn x → ∃ tval,
    exec (.trapU h f) s = .next (trapTaken s x .userTrap f.imm (execMask h x.w x.e &&& x.w.real) tval) ∧
    ∀ l, sget 0 tval l = if (execMask h x.w x.e &&& x.w.real).getLsbD l then x.e.pc else 0) ∧
  (∀ h f s x, Issues s x → Clean x → Calm x → Acts x h → TrapsOn x → x.w.brkpark = false → ∃ tval,
    exec (.brk h f) s = .next (trapTaken s x .breakpoint f.imm (execMask h x.w x.e &&& x.w.real) tval) ∧
    ∀ l, sget 0 tval l = if (execMask h x.w x.e &&& x.w.real).getLsbD l then x.e.pc else 0) ∧
  (∀ h f s x, Issues s x → Clean x → Calm x → x.w.ptraps = [] → x.w.uten = false → execMask h x.w x.e &&& x.w.real = x.e.mask →
    ∃ faults, exec (.trapU h f) s = .next (s.setWave x.ref.gid x.ref.wi ({ (x.w.setEntry x.ref.slot (some
        { x.e.on with pc := x.e.pc, st := .fault, pass := 0 })) with faults := faults })) ∧
      ∀ l, aget faults l = if x.e.mask.getLsbD l then some { cause := .userTrap, skip := false, pc := x.e.pc, value := x.e.pc } else aget x.w.faults l) ∧
  (∀ h f s x, Issues s x → Clean x → ¬ Acts x h → exec (.trapU h f) s = .next (goesOn s x x.w) ∧ exec (.brk h f) s = .next (goesOn s x x.w)) ∧
  (∀ h f s x, Issues s x → Clean x → Calm x → x.w.ptraps = [] → x.w.tpc.toNat % 8 = 0 → exec (.rtu h f) s = .next
    (movesTo s x (BitVec.ofNat 64 (x.w.tpc.toNat % 2 ^ 56)) (BitVec.ofNat 8 (x.w.tpc.toNat / 2 ^ 56)) { x.w with inh := false })) ∧
  (∀ h f s x, Issues s x → Clean x → x.e.mask &&& x.w.real ≠ 0 → x.w.tpc.toNat % 8 ≠ 0 →
    ∃ t, exec (.rtu h f) s = .next t ∧ Parks s x h .align x.w.tpc t)

/-! ## System registers, time and the market instructions (04, 13) -/

/-- R453 to R456, R462: `sread`, `sread.v` and `swrite`; a user's `swrite` of PURSE parks in PRIV. -/
def Obligations.SystemRegisters : Prop :=
  (∀ h f, WordsMeaning (.sread h f) h f.d (fun s x => f.sel.toNat ∈ WF.readable ∧ (s.tenantOf x.g.ctx).isSome) fun s x ws u =>
    u = s ∧ ∃ v, ws = [v] ∧ (f.sel.toNat, v) ∈ systemRegisters s x) ∧
  (∀ h f s x, Issues s x → Clean x → ¬ Acts x h → exec (.sreadV h f) s = .next (goesOn s x x.w)) ∧
  (∀ h f s x, Issues s x → Clean x → Acts x h → ∃ t, exec (.sreadV h f) s = .next t ∧
    MemPending s x ((Mask.lanes (execMask h x.w x.e)).flatMap fun l => dstWrites x.w f.d true l (sget 0 x.w.tval l) false) t) ∧
  (∀ h f s x, Issues s x → Clean x → Acts x h → f.sel.toNat ∈ WF.writable → f.sel.toNat ≠ 0x40 → f.sel.toNat ≠ 0x41 →
    ∃ w, exec (.swrite h f) s = .next (goesOn s x w) ∧ (f.sel.toNat, w) ∈ systemWrites x.w (sget 0 x.g.sregs f.a.toNat)) ∧
  (∀ h f s x tn, Issues s x → Clean x → Acts x h → (f.sel.toNat = 0x40 ∨ f.sel.toNat = 0x41) → x.g.ctx = 0 → s.tenantOf 0 = some tn →
    ∃ ps, exec (.swrite h f) s = .next (goesOn { s with market := { s.market with purses := ps } } x x.w) ∧
      ∀ k, sget 0 ps k = if k = tn then (if f.sel.toNat = 0x41 then sget 0 x.g.sregs f.a.toNat ++ lo32 (sget 0 s.market.purses k)
        else hi32 (sget 0 s.market.purses k) ++ sget 0 x.g.sregs f.a.toNat) else sget 0 s.market.purses k) ∧
  (∀ h f s x, Issues s x → Clean x → x.e.mask &&& x.w.real ≠ 0 → (f.sel.toNat = 0x40 ∨ f.sel.toNat = 0x41) → x.g.ctx ≠ 0 →
    ∃ t, exec (.swrite h f) s = .next t ∧ Parks s x plainHdr .priv ((encode (.swrite h f)).getD 0) t)

/-- R463, R464: `clock` reads CLK or TIME; `sleep` waits until TIME has reached its wake time. Choices of the model: TIME is counted in units of 1/27,000 ns (log 58), events carry the clock forward (log 6). -/
def Obligations.ClockAndSleep : Prop :=
  (∀ h f, WordsMeaning (.clockR h f) h f.d always fun s _ ws u => u = s ∧
    ∃ v, ws = words64 v ∧ v.toNat = (if f.sel.getLsbD 0 then s.time else s.clk) % 2 ^ 64) ∧
  (∀ until_ : Bool, ∀ h f s x, Issues s x → Clean x → Acts x h → let i : Instr := if until_ then .sleepUntil h f else .sleep h f
    let wake := if until_ then (uniValue x true f.a.toNat).toNat else s.time + 1000 * f.imm.toNat
    exec i s = .next (if wake ≤ s.time then goesOn s x x.w else standsAt s x h (.wait (.sleep wake)) i)) ∧
  (∀ s r x wake c, s.issueOf r = some x → Clean x → x.e.st = .wait (.sleep wake) → x.g.place = .resident c → s.mgmt.ratHold = none →
    (wake : Int) - s.timeBase < 2 ^ 77 → ∃ u, exec (.sleepWake r) s = .next (u.setWave r.gid r.wi (x.w.setEntry r.slot (some x.e.on))) ∧
      wake ≤ u.time ∧ (u = s ∨ ∃ n, u = s.tick n ∧ ∀ m < n, (s.tick m).time < wake))

/-- R156 to R158: the market instructions. -/
def Obligations.MarketInstructions : Prop :=
  (∀ h f, WordsMeaning (.bidw h f) h f.d always fun s x ws u =>
    let v := uniValue x true f.a.toNat
    if s.tenantOf x.g.ctx = none then ws = [2] ∧ u = s
    else if BadBid (f.sel.toNat % 8) v then ws = [1] ∧ u = s
    else ws = [0] ∧ ∃ p, u = { s with market := { s.market with pending := p } } ∧
      ∀ k, sget 0 p k = if k = 8 * x.g.ctx + f.sel.toNat % 8 then v else sget 0 s.market.pending k) ∧
  (∀ h f, WordsMeaning (.bidr h f) h f.d always fun s x ws u => u = s ∧
    ws = words64 (sget 0 (if f.imm.getLsbD 0 then s.market.frozen else s.market.pending) (8 * x.g.ctx + f.sel.toNat % 8))) ∧
  (∀ h f, WordsMeaning (.priceR h f) h f.d always fun s x ws u => u = s ∧
    let i := 4 * (f.sel.toNat % 8) + f.sel.toNat / 8 % 4
    let d := (sget 0 x.g.sregs f.a.toNat).toNat
    if f.sel.getLsbD 5 = false ∨ d = s.podIndex then ws = [(sget Result.start s.market.results i).price, 0x80000000]
    else match aget s.market.peers d with
      | some p => d < 1024 → ∃ a, ws = [BitVec.ofNat 32 (p.price[i]?.getD 0), a] ∧ a.toNat = 2 ^ 31 + min p.age 65535
      | none => ws = [0, 0]) ∧
  (∀ h f, WordsMeaning (.leaseR h f) h f.d (fun s x => ∀ b : Bool, ∀ d, ∀ n ∈ (leaseAt (if b then s.market.next else s.market.current) x.g.ctx (f.sel.toNat % 8)).units,
      unitDie (f.sel.toNat % 8) n = some d → d < 4) fun s x ws u => u = s ∧
    let l := leaseAt (if f.imm.getLsbD 0 then s.market.next else s.market.current) x.g.ctx (f.sel.toNat % 8)
    ∃ v, ws = words64 v ∧ v.toNat % 2 ^ 16 = l.qty % 2 ^ 16 ∧ v.toNat / 2 ^ 32 = l.price % 2 ^ 32 ∧ v.getLsbD 20 = l.floor ∧
      ∀ d < 4, v.getLsbD (16 + d) = true ↔ ∃ n ∈ l.units, unitDie (f.sel.toNat % 8) n = some d) ∧
  (∀ h f, WordsMeaning (.pcnt h f) h f.d always fun s x ws u => u = s ∧ ws = words64 (sget 0 s.market.counters (counterKey x.g.ctx f.sel.toNat)))

/-! ## Scopes and cancels (02, 15) -/

/-- R89 to R91, R97: `scope` opens a child of a LIVE scope in a FREE slot, or answers why it does not. -/
def Obligations.ScopeCreation : Prop :=
  ∀ h f, WordsMeaning (.scopeNew h f) h f.d always fun s x ws u =>
    let parent := if f.imm.getLsbD 0 then sget 0 x.g.sregs f.a.toNat else x.g.scope
    match s.scopeAt parent with
    | none => ws = [0, 3] ∧ u = s
    | some v =>
      if v.st ≠ .live then ws = [0, 3] ∧ u = s
      else if v.ctx ≠ x.g.ctx ∨ s.inSubtree parent x.g.scope = false then ws = [0, 4] ∧ u = s
      else if v.depth = 16 then ws = [0, 2] ∧ u = s
      else let full := s.scopeLimit x.g.ctx ≤ (s.scopesInUse.filter fun p => decide (p.2.ctx = x.g.ctx)).length ∨ ∀ n < 65536, (s.scopeSlot n).st ≠ .free
        (full → ws = [0, 1] ∧ u = s) ∧ (¬ full → ∃ n < 65536, (s.scopeSlot n).st = .free ∧ ws = [scopeHandle n (nextGen (s.scopeSlot n).gen), 0] ∧
          ScopeSet s u n { gen := nextGen (s.scopeSlot n).gen, st := .live, ctx := x.g.ctx, depth := v.depth + 1, parent := parent, auto := false
                           pkt := false, cut := false })

/-- R499, R500: `cancel` and `cancel.ack`: their refusals, and the subtree of a LIVE scope, all DEAD from then on, with the acknowledgement
recorded. -/
def Obligations.CancelKillsSubtree : Prop :=
  (∀ ack : Bool, ∀ h f, WordsMeaning (cancelForm ack h f) h f.d (fun s x => s.scopeAt (sget 0 x.g.sregs f.a.toNat) = none) fun s _ ws u =>
    ws = [1] ∧ u = s) ∧
  (∀ ack : Bool, ∀ h f, WordsMeaning (cancelForm ack h f) h f.d (fun s x => ∃ v, s.scopeAt (sget 0 x.g.sregs f.a.toNat) = some v ∧
    ¬ MayCancel s x (sget 0 x.g.sregs f.a.toNat) v) fun s _ ws u => ws = [2] ∧ u = s) ∧
  (∀ h f, WordsMeaning (.cancel h f) h f.d (fun s x => ∃ v, s.scopeAt (sget 0 x.g.sregs f.a.toNat) = some v ∧ v.st = .dead ∧
    MayCancel s x (sget 0 x.g.sregs f.a.toNat) v) fun s _ ws u => ws = [3] ∧ u = s) ∧
  (∀ h f, WordsMeaning (.cancelAck h f) h f.d (fun s x => ∃ v, s.scopeAt (sget 0 x.g.sregs f.a.toNat) = some v ∧ v.st = .dead ∧
    MayCancel s x (sget 0 x.g.sregs f.a.toNat) v ∧ badAck s (x.party 0) (ackAsked x f.a) = false ∧ s.acks.length < 4096) fun s x ws u =>
    ws = [3] ∧ u = { s with acks := s.acks ++ [{ scope := sget 0 x.g.sregs f.a.toNat, addr := (ackAsked x f.a).addr, value := (ackAsked x f.a).value
                                                 ctx := x.g.ctx, manager := decide (x.g.ctx = 0) }] }) ∧
  (∀ h f s x v, Issues s x → Clean x → Acts x h → let hd := sget 0 x.g.sregs f.a.toNat
    s.scopeAt hd = some v → v.st = .live → MayCancel s x hd v →
    ∃ t, exec (.cancel h f) s = .next t ∧ (∀ k ∈ s.subtree hd, t.scopeDead k = true) ∧ t.acks = s.acks ∧
      ∀ k, k ∉ s.subtree hd → (t.scopeAt k).map (fun c => (c.st, c.ctx, c.depth, c.parent)) = (s.scopeAt k).map fun c => (c.st, c.ctx, c.depth, c.parent)) ∧
  (∀ h f s x v, Issues s x → Clean x → Acts x h → let hd := sget 0 x.g.sregs f.a.toNat
    s.scopeAt hd = some v → v.st = .live → MayCancel s x hd v → badAck s (x.party 0) (ackAsked x f.a) = false → s.acks.length < 4096 →
    ∃ t, exec (.cancelAck h f) s = .next t ∧ (∀ k ∈ s.subtree hd, t.scopeDead k = true) ∧
      t.acks = s.acks ++ [{ scope := hd, addr := (ackAsked x f.a).addr, value := (ackAsked x f.a).value, ctx := x.g.ctx, manager := decide (x.g.ctx = 0) }])

/-- R501, R505 to R507: `scack`, `scinfo`, the quiet point of a cancelled subtree, and the stop of a wave of a DEAD scope. Choices of the model: PKT is shown for the scopes of packets only (log 41). -/
def Obligations.QuietAndScopeQueries : Prop :=
  (∀ h f, WordsMeaning (.scack h f) h f.d (fun s x => ∀ v, s.scopeAt (sget 0 x.g.sregs f.a.toNat) = some v → v.st = .live ∨ (x.g.ctx ≠ 0 ∧ v.ctx ≠ x.g.ctx))
    fun s x ws u => u = s ∧ match s.scopeAt (sget 0 x.g.sregs f.a.toNat) with
      | none => ws = [1]
      | some v => if x.g.ctx ≠ 0 ∧ v.ctx ≠ x.g.ctx then ws = [2] else ws = [3]) ∧
  (∀ h f s x v, Issues s x → Clean x → Acts x h → s.scopeAt (sget 0 x.g.sregs f.a.toNat) = some v → v.st = .dead → (x.g.ctx = 0 ∨ v.ctx = x.g.ctx) →
    exec (.scack h f) s = .next (s.setWave x.ref.gid x.ref.wi (x.w.setEntry x.ref.slot (some
      { x.e with mark := (if h.y then some x.w.nextSeq else none), st := .held .scopeFree, insn := some (.scack h f), exec := execMask h x.w x.e
                 vals := [(0, uniValue x false f.a.toNat)], pass := 0 })))) ∧
  (∀ h f, WordsMeaning (.scinfo h f) h f.d (fun s x => ∀ v, s.scopeAt (sget 0 x.g.sregs f.a.toNat) = some v → v.depth < 32) fun s x ws u => u = s ∧
    match s.scopeAt (sget 0 x.g.sregs f.a.toNat) with
    | none => ws = [0, 0]
    | some v =>
      if x.g.ctx ≠ 0 ∧ v.ctx ≠ x.g.ctx then ws = [0, 0]
      else if f.imm.getLsbD 0 = false then ∃ a, ws = [a, v.parent] ∧ a.toNat % 4 = (if v.st = .live then 1 else 2) ∧ a.toNat / 4 % 32 = v.depth ∧
        a.getLsbD 7 = v.pkt ∧ (a.getLsbD 8 = true ↔ v.st = .dead ∧ ∃ k ∈ s.acks, k.scope = sget 0 x.g.sregs f.a.toNat) ∧
        a.toNat / 65536 = min (s.scopesInUse.filter fun p => decide (p.2.parent = sget 0 x.g.sregs f.a.toNat)).length 65535
      else ∃ a b, ws = [a, b] ∧ b.toNat = min (s.copiesIn (sget 0 x.g.sregs f.a.toNat)).length (2 ^ 32 - 1) ∧
        (a = 0 ↔ s.tasksIn (sget 0 x.g.sregs f.a.toNat) = [] ∧ (∀ p ∈ s.groupsIn (sget 0 x.g.sregs f.a.toNat), p.2.task.isSome) ∧
          ∀ l ∈ s.launchesIn (sget 0 x.g.sregs f.a.toNat), unplacedGroups l.2 = 0)) ∧
  (∀ s hd v, s.scopeAt hd = some v → v.st = .dead → v.cut = true → s.quiet hd = true → s.mgmt.ctxBusy = none →
    (∀ a ∈ acksDue s (s.subtree hd), ackAsk s a = []) → ∃ t, exec (.subtreeQuiet hd) s = .next t ∧ (∀ k ∈ s.subtree hd, s.scopeDead k = true → t.scopeAt k = none) ∧
      t.acks = s.acks.filter fun a => decide (a.scope ∉ s.subtree hd)) ∧
  (∀ s r g w c, s.group? r.gid = some g → s.waveOf r = some w → g.place = .resident c → w.ended = false → s.scopeGone g.scope = true →
    (∀ e, some e ∈ w.entries → e.st ≠ .held .remote) →
    ∃ t v, exec (.cancelledWaveStop r) s = .next t ∧ t.waveOf r = some v ∧ v.ended = true ∧ v.live = 0 ∧ ∀ i, v.entry? i = none)

/-! ## Keys and the scrub (15) -/

/-- R512 to R515: `keyz`, `keyz.ctx`, `scrub`, `scrub.stat`, which only a manager may run, and the units of a scrub's phase. Choices of the model: one event does the units it names (log 76). -/
def Obligations.KeysAndScrub : Prop :=
  (∀ h f, WordsMeaning (.keyz h f) h f.d (fun _ x => x.g.ctx = 0) fun s x ws u =>
    let v := (sget 0 x.g.sregs f.a.toNat).toNat
    let p := fun k => k ≠ 0 ∧ v % 512 ≤ k ∧ k < v % 512 + v / 2 ^ 16 % 1024 ∧ k < 512
    ∃ c, ws = [c] ∧ c.toNat = ((Finset.range 512).filter p).card ∧ { u with keys := s.keys } = s ∧ Zeroised s u p) ∧
  (∀ h f, WordsMeaning (.keyzCtx h f) h f.d (fun _ x => x.g.ctx = 0) fun s x ws u =>
    let c := (sget 0 x.g.sregs f.a.toNat).toNat % 1024
    (∃ n, ws = [n]) ∧ Zeroised s u (fun k => k ≠ 0 ∧ (s.slot k).assigned = true ∧ (s.slot k).owner = c) ∧
    (c = 0 → { u with keys := s.keys } = s) ∧
    (c ≠ 0 → c ∈ u.mgmt.tdblk ∧ u.ctxGen c = nextGen (s.ctxGen c) ∧ (sget CtxMkt.start u.market.cfgW.ctxs c).valid = false ∧
      u.market.cfgA = s.market.cfgA ∧ ∀ b ∈ u.market.pending, ¬ (b.1 / 8 = c ∧ b.1 % 8 ≤ 4))) ∧
  (∀ h f, WordsMeaning (.scrub h f) h f.d (fun _ x => x.g.ctx = 0) fun s x ws u =>
    let c := (sget 0 x.g.sregs f.a.toNat).toNat % 1024
    if s.mgmt.scrubBusy = true then ws = [if s.mgmt.scrubCtx = c then 4 else 1] ∧ u = s
    else if c = 0 ∨ c ∉ s.mgmt.tdblk then ws = [2] ∧ u = s
    else if s.ctxQuiet c = false then ws = [3] ∧ u = s
    else ws = [0] ∧ u = { s with mgmt := { s.mgmt with scrubCtx := c, scrubTags := f.sel.getLsbD 0, scrubRestarted := false, scrubBusy := true
                                                       scrubPhase := 1, scrubUnits := 0, scrubTotal := 240 } }) ∧
  (∀ h f, WordsMeaning (.scrubStat h f) h f.d (fun s x => x.g.ctx = 0 ∧ s.mgmt.scrubPhase < 16 ∧ s.mgmt.scrubCtx < 1024) fun s _ ws u => u = s ∧
    ∃ v, ws = words64 v ∧ v.toNat % 16 = s.mgmt.scrubPhase ∧ v.getLsbD 4 = s.mgmt.scrubBusy ∧ v.getLsbD 5 = s.mgmt.scrubRestarted ∧
      v.toNat / 2 ^ 8 % 1024 = s.mgmt.scrubCtx ∧ v.getLsbD 18 = s.mgmt.scrubTags ∧ v.toNat / 2 ^ 32 % 2 ^ 16 = min s.mgmt.scrubUnits 65535 ∧
      v.toNat / 2 ^ 48 = min s.mgmt.scrubTotal 65535) ∧
  (∀ h f s x, Issues s x → Clean x → x.e.mask &&& x.w.real ≠ 0 → x.g.ctx ≠ 0 → ∀ i ∈ [Instr.keyz h f, .keyzCtx h f, .scrub h f, .scrubStat h f],
    ∃ t, exec i s = .next t ∧ Parks s x plainHdr .priv ((encode i).getD 0) t) ∧
  (∀ s n, s.mgmt.scrubBusy = true → s.mgmt.scrubUnits + n < s.mgmt.scrubTotal →
    exec (.scrubPhase n) s = .next { s with mgmt := { s.mgmt with scrubUnits := s.mgmt.scrubUnits + n } }) ∧
  (∀ s n, s.mgmt.scrubBusy = true → s.mgmt.scrubTotal ≤ s.mgmt.scrubUnits + n → ∃ t, exec (.scrubPhase n) s = .next t ∧
    (s.mgmt.scrubPhase = 5 → t.mgmt.scrubBusy = false ∧ t.mgmt.scrubPhase = 6 ∧ s.mgmt.scrubCtx ∉ t.mgmt.tdblk ∧ t.mgmt.scrubUnits = 0 ∧ t.mgmt.scrubTotal = 0 ∧
      ∀ q ∈ t.queues, q.2.ctx.toNat ≠ s.mgmt.scrubCtx) ∧
    (s.mgmt.scrubPhase ≠ 5 → t.mgmt.scrubBusy = true ∧ t.mgmt.scrubUnits = 0 ∧
      t.mgmt.scrubPhase = if s.mgmt.scrubPhase = 3 ∧ s.mgmt.scrubTags = false then 5 else s.mgmt.scrubPhase + 1))

/-! ## Copies (11) -/

/-- R356, R381 to R384: the statuses of a copy instruction, the accepted copy, the 257th of a core; a chunk of one sector; the completion. Choices of the model: one event moves one chunk (log 76). -/
def Obligations.CopyInstructions : Prop :=
  (∀ kind h f, WordsMeaning (copyOp kind h f) h f.d (fun s x => CopyTooLong (copyOf x f kind) ∨ CopyMisaligned (copyOf x f kind) ∨
      2 ^ 63 ≤ (copyOf x f kind).cval.toNat ∨ copiesHeld s ((x.g.place.core?).getD 0) < 256) fun s x ws u =>
    let c := copyOf x f kind
    if CopyTooLong c then ws = [1] ∧ u = s
    else if CopyMisaligned c then ws = [2] ∧ u = s
    else if 2 ^ 63 ≤ c.cval.toNat then ws = [3] ∧ u = s
    else ws = [0] ∧ u = { s with copies := aput s.nextCopy { c with row := c.rowStart } s.copies, nextCopy := s.nextCopy + 1 }) ∧
  (∀ kind h f s x, Issues s x → Clean x → Acts x h → let c := copyOf x f kind
    ¬ CopyTooLong c → ¬ CopyMisaligned c → c.cval.toNat < 2 ^ 63 → 256 ≤ copiesHeld s ((x.g.place.core?).getD 0) →
    ∃ t, exec (copyOp kind h f) s = .next t ∧ TriesLater s x x.e.mark t) ∧
  (∀ s k c n pa va ka fa pb vb kb fb, aget s.copies k = some c → c.kind = .cpy → c.slices = 0 → c.halted = false → c.remote = [] → c.sending = none → c.fate = none → c.row = 0 →
    s.mgmt.rcache = [] → s.scopeLive c.scope = true → c.next < c.len → n = c.len - c.next → let a := c.src + BitVec.ofNat 64 c.next
    let d := c.dst + BitVec.ofNat 64 c.next
    spaceOf a = some .global → spaceOf d = some .global → n ≤ s.pageLeft c.ctx a n → n ≤ s.pageLeft c.ctx d n →
    s.site c.party .r a n = .ok (.dev pa va ka fa) → s.site c.party .w d n = .ok (.dev pb vb kb fb) →
    a.toNat % 32 + n ≤ 32 → d.toNat % 32 + n ≤ 32 → pa % 32 + n ≤ 32 → pb % 32 + n ≤ 32 → pa / 32 ∉ s.mem.lost → pb / 32 ∉ s.mem.lost →
    (∀ i < n, (pa + i) / 4 ∉ s.mem.poison) →
    ∃ t, exec (.copyChunk k) s = .next t ∧
      (∀ i < n, t.mem.bytes (pb + i) 1 { key := kb, unit := vb / 32 } = s.mem.bytes (pa + i) 1 { key := ka, unit := va / 32 }) ∧
      BytesKept s t [(.dev pb vb kb fb, n)] ∧ aget t.copies k = some { c with next := 0, row := 1, rowIdx := none }) ∧
  (∀ s k c, aget s.copies k = some c → c.halted = false → c.remote = [] → c.sending = none → c.fate = none → s.scopeLive c.scope = true → (c.rowBytes = 0 ∨ c.rowEnd ≤ c.row) →
    c.packet = none → c.tainted = false →
    (c.ctr = 0 → exec (.copyChunk k) s = .next { s with copies := adel k s.copies }) ∧
    (c.ctr ≠ 0 → ∀ t, s.changeWordOf c.party c.ctr (fun old => if c.mode = 1 then c.cval else ctrAdd old c.cval) = some t →
      exec (.copyChunk k) s = .next { t with copies := adel k t.copies }))

/-! ## Packets and tasks from waves (12) -/

/-- R442, R444: `enq`, `enqt` and a waiting `enq`: their checks, the packet in the ring, and the wait at a full ring. Choices of the model: the doorbell keeps the greater value (log 74), an access is performed when it issues (log 3). -/
def Obligations.PacketsFromWaves : Prop :=
  (∀ h f, WordsMeaning (.enq h f) h f.d (fun s x => let q := s.queue (queueNamed x f)
      let k := fieldAt (packetOf x f) 0 1
      q.ctx.toNat ≠ x.g.ctx ∨ q.st ≠ .active ∨ k = 0 ∨ 6 ≤ k) fun s x ws u => u = s ∧
    let q := s.queue (queueNamed x f)
    ws = if q.ctx.toNat ≠ x.g.ctx ∨ q.st ≠ .active then [1] else [2]) ∧
  (∀ h f, WordsMeaning (.enq h f) h f.d (fun s x => let q := queueNamed x f
      (s.queue q).ctx.toNat = x.g.ctx ∧ (s.queue q).st = .active ∧ fieldAt (packetOf x f) 0 1 ∈ [1, 2, 3, 4, 5] ∧
        ∃ w r t, RingAt s x.waveParty q w r ∧ (w : Int) - r < ringSize (s.queue q) ∧ Enqueued s x.waveParty q w (packetOf x f) t)
    fun s x ws u => ws = [0] ∧ ∀ w r, RingAt s x.waveParty (queueNamed x f) w r → Enqueued s x.waveParty (queueNamed x f) w (packetOf x f) u) ∧
  (∀ h f s x w r, Issues s x → Clean x → Acts x h → let q := queueNamed x f
    (s.queue q).ctx.toNat = x.g.ctx → (s.queue q).st = .active → fieldAt (packetOf x f) 0 1 ∈ [1, 2, 3, 4, 5] → RingAt s x.waveParty q w r →
    ringSize (s.queue q) ≤ (w : Int) - r → x.e.st ≠ .wait (.enq q) →
    exec (.enq h f) s = .next (s.setWave x.ref.gid x.ref.wi (x.w.setEntry x.ref.slot (some
      { x.e with mark := (if h.y then some x.w.nextSeq else none), st := .wait (.enq q), insn := some (.enq h f), exec := execMask h x.w x.e
                 vals := keepPacket (packetOf x f), since := s.clk, pass := 0 }))) ∧
    ∃ t, exec (.enqt h f) s = .next t ∧ PredResult s x (execMask h x.w x.e) f.d (fun _ => false) t) ∧
  (∀ h f s x, Issues s x → Clean x → Acts x h → let q := queueNamed x f
    (∀ w r u, (s.queue q).ctx.toNat = x.g.ctx → (s.queue q).st = .active → fieldAt (packetOf x f) 0 1 ∈ [1, 2, 3, 4, 5] → RingAt s x.waveParty q w r →
      (w : Int) - r < ringSize (s.queue q) → Enqueued s x.waveParty q w (packetOf x f) u →
      ∃ t, exec (.enqt h f) s = .next t ∧ PredResult u x (execMask h x.w x.e) f.d (fun _ => true) t) ∧
    ((s.queue q).ctx.toNat ≠ x.g.ctx ∨ (s.queue q).st ≠ .active →
      ∃ t, exec (.enqt h f) s = .next t ∧ PredResult s x (execMask h x.w x.e) f.d (fun _ => false) t)) ∧
  (∀ s r x q h f c, Stands s r x (.wait (.enq q)) (.enq h f) → Clean x → x.g.place = .resident c → s.held = false → x.e.remote = [] →
    ((s.queue q).st ≠ .active → ∃ t, exec (.enqRetry r) s = .next t ∧ WordsResult s x f.d [1] t) ∧
    ((s.queue q).st = .active → ∀ w rd u, RingAt s x.waveParty q w rd → (w : Int) - rd < ringSize (s.queue q) →
      Enqueued s x.waveParty q w (keptPacket x.e) u → ∃ t, exec (.enqRetry r) s = .next t ∧ WordsResult u x f.d [0] t) ∧
    ((s.queue q).st = .active → ∀ w rd, RingAt s x.waveParty q w rd → ringSize (s.queue q) ≤ (w : Int) - rd →
      exec (.enqRetry r) s = .next s ∧ ∃ t v, exec (.queueStall r) s = .next t ∧ (waveNow t x = some v ∧
        ∀ l, (x.e.mask &&& x.w.real).getLsbD l = true → aget v.faults l =
          some { cause := .queueStall, skip := false, pc := x.e.pc, value := BitVec.ofNat 64 (q + 2 ^ 16 * x.g.queue) })))

/-- R446, R447: `spawn` creates a task or says why it does not; a PENDING task becomes READY when all its await words are FULL. Choices of the model: the number a new task takes (log 24). -/
def Obligations.TaskCreation : Prop :=
  (∀ h f, WordsMeaning (.spawn h f) h f.d (fun s x => s.wanted x.waveParty .r (uniValue x true f.a.toNat) 64 8 = [] ∧
    ∀ bs, recordRead s x f.a bs → (taskRecordOk bs = false ∨
      s.inSubtree (taskScope x bs) x.g.scope = false ∨ s.scopeLive (taskScope x bs) = false ∨
      (∃ a ∈ awaitWords bs, s.awaitAt x.g.ctx a = none) ∨ 65536 ≤ s.tasks.length)) fun s x ws u => u = s ∧
    ((∀ bs, ¬ recordRead s x f.a bs) → ws = [0, 2]) ∧
    ∀ bs, recordRead s x f.a bs → ws = if taskRecordOk bs = false then [0, 2] else if s.inSubtree (taskScope x bs) x.g.scope = false then [0, 4]
      else if s.scopeLive (taskScope x bs) = false then [0, 1] else if ∃ a ∈ awaitWords bs, s.awaitAt x.g.ctx a = none then [0, 2] else [0, 3]) ∧
  (∀ h f, WordsMeaning (.spawn h f) h f.d (fun s x => ∃ bs, recordRead s x f.a bs ∧ taskRecordOk bs = true ∧
      s.inSubtree (taskScope x bs) x.g.scope = true ∧ s.scopeLive (taskScope x bs) = true ∧ (∀ a ∈ awaitWords bs, s.awaitAt x.g.ctx a ≠ none) ∧
      s.tasks.length < 65536 ∧ (fieldAt bs 0x1D 1).testBit 0 = false) fun s x ws u => ws = [1, 0] ∧ ∃ bs v, recordRead s x f.a bs ∧
    u.nextTask = s.nextTask + 1 ∧ { u with tasks := s.tasks, nextTask := s.nextTask, order := s.order } = s ∧
    (∀ k, aget u.tasks k = if k = s.nextTask then some v else aget s.tasks k) ∧
    v.entry = w64At bs 0 ∧ v.args = w64At bs 8 ∧ v.done = w64At bs 0x10 ∧ v.scope = taskScope x bs ∧ v.awaits = awaitWords bs ∧ v.ctx = x.g.ctx ∧
    v.queue = x.g.queue ∧ v.st = if s.awaitsFull v then .ready else .pending) ∧
  (∀ s k v, aget s.tasks k = some v → v.st = .pending → s.askedFor (.taskExamine k) = [] →
    (∀ a ∈ v.awaits, ∀ t, s.awaitAt v.ctx a = some t → t.isRemote = false) → exec (.taskExamine k) s = .next (if s.awaitsFull v
    then { s with tasks := aput k { v with st := .ready, order := s.order } s.tasks, order := s.order + 1 } else s))

/-! ## Matrix engines (09) -/

/-- R299, R303, R305 to R307: an instruction on tiles: outside the wave's tiles it parks, without a lane it does nothing, without the baton it
parks, behind a full queue it is HELD, else its operation is queued with its registers. -/
def Obligations.TileInstructions : Prop :=
  (∀ h f s x, Issues s x → x.e.mask &&& x.w.real ≠ 0 → ∀ p ∈ tileForms h f, x.w.acct < p.2 →
    ∃ t, exec p.1 s = .next t ∧ Parks s x plainHdr .illegalInstr ((encode p.1).getD 0) t) ∧
  (∀ h f s x, Issues s x → Clean x → ¬ Acts x h → ∀ p ∈ tileForms h f, p.2 ≤ x.w.acct → exec p.1 s = .next (goesOn s x x.w)) ∧
  (∀ h f s x, Issues s x → Clean x → Acts x h → ∀ p ∈ tileForms h f, p.2 ≤ x.w.acct →
    (s.joinedWith x.waveRef = none ∨ (p.1 ≠ .mmat h f ∧ p.1 ≠ .mdrag h f)) →
    (s.holds x.waveRef = false → ∃ t, exec p.1 s = .next t ∧ ParksAt s x (markOf x h) .noBaton 0 t) ∧
    (s.holds x.waveRef = true → ∀ n, s.engineOf x.waveRef = some n →
      ((s.engine n).ops.length < 16 → ∃ t, exec p.1 s = .next t ∧
        EntryBecomes (withEngine s n { s.engine n with ops := (s.engine n).ops ++ [opAlone x p.1 f] }) x x.w x.e.on t) ∧
      (16 ≤ (s.engine n).ops.length → ∃ t, exec p.1 s = .next t ∧ TriesLater s x (markOf x h) t))) ∧
  (∀ h f s x p, Issues s x → Clean x → Acts x h → s.joinedWith x.waveRef = some p → s.arrivals p = [] → ∀ q ∈ tileForms h f,
    (q.1 = .mmat h f ∨ q.1 = .mdrag h f) → q.2 ≤ x.w.acct → ∃ t, exec q.1 s = .next t ∧ EntryBecomes { s with order := s.order + 1 } x x.w
      { x.e with mark := markOf x h, st := .wait .rendezvous, insn := some q.1, exec := execMask h x.w x.e
                 vals := arrivalVals (opAlone x q.1 f), stamp := s.order + 1, pass := 0 } t)

/-- R308, R309, R316, R318: `mtake`, `mgive`, `mpop` and `mstat`. -/
def Obligations.HalyardAndDrain : Prop :=
  (∀ h f s x n, Issues s x → Clean x → Acts x h → s.engineOf x.waveRef = some n → let e := s.engine n
    (s.holds x.waveRef = true → exec (.mtake h f) s = .next (goesOn s x x.w)) ∧
    (s.holds x.waveRef = false → e.holder = none → e.fifo = [] → s.joinedWith x.waveRef = none →
      ∃ t, exec (.mtake h f) s = .next t ∧ EntryBecomes (withEngine s n { e with holder := some x.waveRef }) x x.w x.e.on t) ∧
    (s.holds x.waveRef = false → e.holder ≠ none ∨ e.fifo ≠ [] → exec (.mtake h f) s = .next (standsAt
      (withEngine s n { e with fifo := if x.waveRef ∈ e.fifo then e.fifo else e.fifo ++ [x.waveRef] }) x h (.wait .mtake) (.mtake h f))) ∧
    (s.holds x.waveRef = false → exec (.mgive h f) s = .next (goesOn s x x.w)) ∧
    (s.holds x.waveRef = true → e.fifo = [] → exec (.mgive h f) s = .next (goesOn (withEngine s n { e with holder := none }) x x.w))) ∧
  (∀ h f s x n, Issues s x → Clean x → Acts x h → s.engineOf x.waveRef = some n → let e := s.engine n
    let reg := x.w.wb + f.a.toNat
    (∀ pre row post, FirstRow e x.waveRef pre row post → ∃ t, exec (.mpop h f) s = .next t ∧
      t = goesOn (withEngine s n { e with drain := pre ++ post }) x { x.w with
        pend := [{ seq := x.w.nextSeq, writes := rowWords reg (execMask h x.w x.e) row, flags := 0, trap := none }], nextSeq := x.w.nextSeq + 1 }) ∧
    ((∀ q ∈ e.drain, q.tag ≠ x.waveRef) → (∃ op ∈ e.ops, op.wave = x.waveRef ∧ opRows op.insn ≠ 0) → ∃ t, exec (.mpop h f) s = .next t ∧
      EntryBecomes { s with order := s.order + 1 } x x.w { x.e with
        mark := markOf x h, st := .wait .mpop, insn := some (.mpop h f), exec := execMask h x.w x.e, vals := [(0, BitVec.ofNat 64 reg)], stamp := s.order + 1, pass := 0 } t) ∧
    ((∀ q ∈ e.drain, q.tag ≠ x.waveRef) → (∀ op ∈ e.ops, op.wave = x.waveRef → opRows op.insn = 0) → exec (.mpop h f) s = .next (goesOn s x
      { x.w with pend := [{ seq := x.w.nextSeq, writes := (Mask.lanes (execMask h x.w x.e)).map fun l => { key := regKey reg l, val := 0, poison := false }
                            flags := 0, trap := none }], nextSeq := x.w.nextSeq + 1, drainEmpty := true }))) ∧
  (∀ h f s x n, Issues s x → Clean x → Acts x h → s.engineOf x.waveRef = some n → let e := s.engine n
    (e.drain.filter fun q => decide (q.tag = x.waveRef)).length < 128 → x.w.acct < 32 →
    (e.ops.filter fun op => decide (op.wave = x.waveRef ∨ op.partner = some x.waveRef)).length < 32 → ∃ t v, exec (.mstat h f) s = .next t ∧
      (∃ regs l0 l1, t = goesOn s x { x.w with regs := regs, l0 := l0, l1 := l1, drainEmpty := x.w.drainEmpty && !f.low.getLsbD 0 } ∧
        DstWords x.w (execMask h x.w x.e) (dstReg x.w f.a) false (fun _ => v) regs ∧ LastResult x.w (execMask h x.w x.e) (fun _ => v) l0 l1) ∧
      v.getLsbD 0 = s.holds x.waveRef ∧ (v.getLsbD 1 = true ↔ x.waveRef ∈ e.fifo) ∧ (v.getLsbD 2 = true ↔ x.w.pair = .joined) ∧
      (v.getLsbD 3 = true ↔ ∃ c, x.w.pair = .parted c) ∧ v.getLsbD 4 = (x.g.twin && x.g.follower) ∧ v.getLsbD 5 = x.w.drainEmpty ∧
      v.toNat / 2 ^ 8 % 128 = (e.drain.filter fun q => decide (q.tag = x.waveRef)).length ∧ v.toNat / 2 ^ 15 % 32 = x.w.acct ∧
      v.toNat / 2 ^ 20 = (e.ops.filter fun op => decide (op.wave = x.waveRef ∨ op.partner = some x.waveRef)).length)

/-- R301, R302, R313 to R315: what an engine does with the operation at its head: a K-step of `mma`, `mzero`, `mpush`, a row of `mdrain`. Choices of the model: one event does one step (log 76). -/
def Obligations.EngineSteps : Prop :=
  (∀ s n op rest w h f, n / 4 ∉ s.mgmt.gated → let e := s.engine n
    e.ops = op :: rest → s.waveOf op.wave = some w → op.partner = none →
    (op.insn = .mma h f → op.only = none → ∃ t, exec (.matrixKstep n) s = .next t ∧ (t.engine n).ops = opsAfter op rest f.rep.toNat ∧
      (t.engine n).drain = e.drain ∧ (∀ k, k ≠ n → t.engine k = s.engine k) ∧ t.groups = s.groups ∧ t.mem = s.mem ∧
      TileIs e (t.engine n) (w.tileBase + f.acc.toNat) fun i j =>
        stepElem f.sh.toNat f.neg (if f.zero = true ∧ op.next = 0 then .fin false 0 0 else fvOf (fmtOf .f32) (e.elem (w.tileBase + f.acc.toNat) i j).toNat)
          (sideOf w s.free f.sh.toNat op.ra op.rs (f.bsel.toNat + op.next) op.next 0 i)
          (sideOf w s.free f.sh.toNat op.rb op.rs (f.bsel.toNat + op.next) op.next 1 j)) ∧
    (op.insn = .mzero h f → ∃ t, exec (.matrixKstep n) s = .next t ∧ (t.engine n).ops = rest ∧ (∀ k, k ≠ n → t.engine k = s.engine k) ∧
      t.groups = s.groups ∧ t.mem = s.mem ∧ ∀ k i j, i < 32 → j < 32 → (t.engine n).elem k i j =
        if w.tileBase + f.acc.toNat ≤ k ∧ k ≤ w.tileBase + f.acc.toNat + f.low.toNat % 16 then 0 else e.elem k i j) ∧
    (op.insn = .mpush h f → ∃ t, exec (.matrixKstep n) s = .next t ∧ (t.engine n).ops = rest ∧ (∀ k, k ≠ n → t.engine k = s.engine k) ∧
      t.groups = s.groups ∧ t.mem = s.mem ∧ ∀ k i j, i < 32 → j < 32 → (t.engine n).elem k i j =
        if k = w.tileBase + f.acc.toNat ∧ i = f.low.toNat % 32 then (w.readReg s.free op.ra j).1 else e.elem k i j) ∧
    (op.insn = .mdrain h f → w.ended = false → e.drain.length < 64 → (∀ i v, w.entry? i = some v → v.st ≠ .wait .mpop) →
      ∃ t row, exec (.drainRowPush n) s = .next t ∧ (t.engine n).drain = e.drain ++ [row] ∧ row.tag = op.wave ∧
        (t.engine n).ops = opsAfter op rest (f.low.toNat / 32) ∧ (t.engine n).tiles = e.tiles ∧ t.groups = s.groups ∧ t.mem = s.mem ∧
        ∀ j < 32, sget 0 row.elems j = e.elem (w.tileBase + f.acc.toNat) (f.low.toNat % 32 + op.next) j)) ∧
  (∀ s n, n / 4 ∉ s.mgmt.gated → (s.engine n).ops = [] → exec (.matrixKstep n) s = .next s ∧ exec (.drainRowPush n) s = .next s)

/-! ## Barriers and gangs (11) -/

/-- R421 to R426: `bar`, `bara`, `bara.wait`, `bar.set`, `bara.hdl` and `bara.rem`. Choices of the model: a barrier is evaluated once for each event (log 40). -/
def Obligations.BarrierInstructions : Prop :=
  (∀ h f s x, Issues s x → Clean x → Acts x h → x.ref.slot < 8 → x.g.waves.length ≤ 32 → s.held = false → let k := f.sel.toNat % 16
    let b := arrivedAt (x.g.bar k) x.ref.wi (maskNamed x f 4)
    k < x.g.bars.length → (x.g.bar k).arr.getLsbD x.ref.wi = false →
    ∃ t b' v, exec (.bar h f) s = .next t ∧ BarrierIs s x k b' t ∧ PhaseAfter x.g b b' ∧ waveNow t x = some v ∧
      v.fpflags = flagsAt b x.ref.wi x.w.fpflags ∧ (PhaseOver x.g b → v.entry? x.ref.slot = some { x.e.on with pass := 0 }) ∧
      (¬ PhaseOver x.g b → v.entry? x.ref.slot = some { x.e with mark := markOf x h, st := .wait (.bar k (x.g.bar k).cnt), insn := some (.bar h f)
                                                                 exec := execMask h x.w x.e, pass := 0 })) ∧
  (∀ h f s x, Issues s x → Clean x → Acts x h → let k := f.sel.toNat % 16
    (x.g.bar k).arr.getLsbD x.ref.wi = true → exec (.bar h f) s = .next (standsAt s x h (.wait (.bar k (x.g.bar k).cnt)) (.bar h f))) ∧
  (∀ h f s x, Issues s x → Clean x → Acts x h → x.g.waves.length ≤ 32 → s.held = false → let k := f.sel.toNat % 16
    let b := arrivedAt (x.g.bar k) x.ref.wi (maskNamed x f 6)
    k < x.g.bars.length → (x.g.bar k).arr.getLsbD x.ref.wi = false →
    ∃ t b' v g, exec (.bara h f) s = .next t ∧ BarrierIs s x k b' t ∧ PhaseAfter x.g b b' ∧ waveNow t x = some v ∧ t.group? x.ref.gid = some g ∧
      (∀ n, sget 0 g.sregs n = if n = f.d.toNat then (x.g.bar k).cnt else sget 0 x.g.sregs n) ∧
      v.fpflags = flagsAt b x.ref.wi x.w.fpflags ∧ v.entry? x.ref.slot = some x.e.on) ∧
  (∀ h f s x, Issues s x → Clean x → Acts x h → let k := f.sel.toNat % 16
    let p := sget 0 x.g.sregs f.a.toNat
    let d := ((x.g.bar k).cnt - p).toNat
    exec (.baraWait h f) s = .next (if 1 ≤ d ∧ d ≤ 2 ^ 31 then goesOn s x x.w else standsAt s x h (.wait (.bar k p)) (.baraWait h f))) ∧
  (∀ h f s x, Issues s x → Clean x → Acts x h → x.g.waves.length ≤ 32 → s.held = false → let k := f.sel.toNat % 16
    let b := { x.g.bar k with wm := sget 0 x.g.sregs f.a.toNat, xc := f.imm }
    k < x.g.bars.length → ∃ t b' v, exec (.barSet h f) s = .next t ∧ BarrierIs s x k b' t ∧ PhaseAfter x.g b b' ∧ waveNow t x = some v ∧
      v.entry? x.ref.slot = some x.e.on) ∧
  (∀ h f, WordsMeaning (.baraHdl h f) h f.d (fun _ x => x.g.tag < 2 ^ 24 ∧ x.g.ctx < 1024) fun s x ws u => u = s ∧ ∃ v, ws = words64 v ∧
    v.toNat % 2 ^ 8 = f.sel.toNat % 16 ∧ v.toNat / 2 ^ 8 % 2 ^ 24 = x.g.tag ∧ v.toNat / 2 ^ 32 % 2 ^ 16 = x.g.ctx ∧ v.toNat / 2 ^ 48 = (s.ctxGen x.g.ctx).toNat) ∧
  (∀ h f, WordsMeaning (.baraRem h f) h f.d (fun s x => let v := (uniValue x true f.a.toNat).toNat
      let c := v / 2 ^ 32 % 1024
      v / 16 % 16 ≠ 0 ∨ v / 2 ^ 42 % 64 ≠ 0 ∨ s.sameTenant c x.g.ctx = false ∨ (s.ctxGen c).toNat ≠ v / 2 ^ 48 ∨
      s.taggedGroup c (v / 2 ^ 8 % 2 ^ 24) = none ∨ ∃ k g, s.taggedGroup c (v / 2 ^ 8 % 2 ^ 24) = some (k, g) ∧ s.scopeLive g.scope = true ∧ s.present g = false)
    fun s x ws u => let v := (uniValue x true f.a.toNat).toNat
      let c := v / 2 ^ 32 % 1024
      if v / 16 % 16 ≠ 0 ∨ v / 2 ^ 42 % 64 ≠ 0 ∨ s.sameTenant c x.g.ctx = false then ws = [3] ∧ u = s
      else if (s.ctxGen c).toNat ≠ v / 2 ^ 48 then ws = [1] ∧ u = s
      else match s.taggedGroup c (v / 2 ^ 8 % 2 ^ 24) with
        | none => ws = [2] ∧ u = s
        | some (k, _) => ws = [0] ∧ ∃ p, u = { s with mgmt := { s.mgmt with pendArr := p } } ∧ ∀ i, sget 0 p i =
            if i = 16 * k + v % 16 ∧ sget 0 s.mgmt.pendArr i ≠ 0xFFFFFFFF then sget 0 s.mgmt.pendArr i + 1 else sget 0 s.mgmt.pendArr i)

/-- R428, R438 to R440: `gbar` of a task, of a gang with parties still to come, and of the last party to arrive; `twpart` and `twstat`. -/
def Obligations.GangAndTwin : Prop :=
  (∀ h f s x, Issues s x → Clean x → Acts x h → s.gangOf x.g = none →
    ∃ t, exec (.gbar h f) s = .next t ∧ PredResult s x (execMask h x.w x.e) f.d (fun _ => false) t) ∧
  (∀ h f s x k, Issues s x → Clean x → Acts x h → s.gangOf x.g = some k → let n := f.sel.toNat % 8
    let me := (x.ref.gid, x.ref.wi)
    n < k.garr.length → (∃ p ∈ s.gangParties k, p ≠ me ∧ p ∉ k.garr[n]?.getD []) →
    ∃ t k', exec (.gbar h f) s = .next t ∧ EntryBecomes { s with launches := t.launches } x x.w { x.e with
        mark := markOf x h, st := .wait (.gbar n (k.gphase[n]?.getD 0)), insn := some (.gbar h f), exec := execMask h x.w x.e, pass := 0 } t ∧
      t.gangOf x.g = some k' ∧ { k' with garr := k.garr } = k ∧ (∀ p, p ∈ k'.garr[n]?.getD [] ↔ p = me ∨ p ∈ k.garr[n]?.getD []) ∧
      ∀ m, m ≠ n → k'.garr[m]? = k.garr[m]?) ∧
  (∀ h f s x k, Issues s x → Clean x → Acts x h → x.ref.slot < 8 → s.held = false → s.gangOf x.g = some k → let n := f.sel.toNat % 8
    x.ref.gid ∈ k.groups → n < k.garr.length → n < k.gphase.length → (∀ p ∈ s.gangParties k, p = (x.ref.gid, x.ref.wi) ∨ p ∈ k.garr[n]?.getD []) →
    (∀ i v b q, x.w.entry? i = some v → v.st ≠ .wait (.gbar b q)) →
    ∃ t p, exec (.gbar h f) s = .next t ∧
      waveNow t x = some { (x.w.setEntry x.ref.slot (some { x.e.on with pass := 0 })) with preds := x.w.preds.set f.d.toNat p } ∧
      (∀ l, p.getLsbD l = if (execMask h x.w x.e).getLsbD l then !k.killed.isEmpty else x.w.pred f.d.toNat l) ∧
      t.gangOf x.g = some { k with gphase := k.gphase.set n (k.gphase[n]?.getD 0 + 1), garr := k.garr.set n [] }) ∧
  (∀ h f s x, Issues s x → Clean x → Acts x h → (∀ wi, wi = x.ref.wi ∨ f.sel.getLsbD 0 = true → s.joinedWith ⟨x.ref.gid, wi⟩ = none) →
    exec (.twpart h f) s = .next (goesOn s x x.w)) ∧
  (∀ h f s x p v, Issues s x → Clean x → Acts x h → (f.sel.getLsbD 0 = true → ∀ wi, wi ≠ x.ref.wi → s.joinedWith ⟨x.ref.gid, wi⟩ = none) → s.joinedWith x.waveRef = some p → p ≠ x.waveRef → s.waveOf p = some v →
    x.w.awaitBaton = false → v.awaitBaton = false →
    (∀ r w i e, (r = p ∨ r = x.waveRef) → s.waveOf r = some w → w.entry? i = some e → e.st ≠ .wait .rendezvous) → ∃ t, exec (.twpart h f) s = .next t ∧
      t.waveOf x.waveRef = some { (x.w.setEntry x.ref.slot (some x.e.on)) with pair := .parted 2 } ∧
      t.waveOf p = some { v with pair := .parted 3 } ∧ { t with groups := s.groups } = s) ∧
  (∀ h f, WordsMeaning (.twstat h f) h f.d (fun _ x => ∀ c, x.w.pair = .parted c → c < 8) fun s x ws u => u = s ∧ ∃ v, ws = [v] ∧
    if x.g.twin = false then v = 0
    else v.getLsbD 0 = true ∧ (v.getLsbD 1 = true ↔ x.w.pair = .joined) ∧ (v.getLsbD 2 = true ↔ ∃ c, x.w.pair = .parted c) ∧
      v.getLsbD 3 = x.g.follower ∧ (∀ c, x.w.pair = .parted c → v.toNat / 16 % 8 = c))

/-! ## Events of waves (05, 06, 10, 11, 13, 14) -/

/-- R191, R276, R14: a pending result lands: each of its register words holds its value and its poison, its flags are set, and entries that
waited in YIELD for no other result are READY. R173, R174: a word is fetched ahead for a READY entry from where its address translates. R276, R277, R455 to R458: a trap that awaits a READY entry is taken: the trap registers and the entry at its handler; without a handler
the trapping lanes park at the instruction with their records. Choices of the model: a trap waits for a READY entry (log 32), bits [2:0] of TVEC count as 0 (log 82), a latched word may be older than memory (log 4). -/
def Obligations.ResultsFetchAndTraps : Prop :=
 (∀ s r w p, s.waveOf r = some w → p ∈ w.pend → (∀ q ∈ w.pend, q.seq = p.seq → q = p) → p.trap = none →
    (∀ q ∈ p.writes, q.key < sBase) → (p.writes.map fun q => q.key).Nodup →
    ∃ t v, exec (.varLatencyWriteback r p.seq) s = .next t ∧ t.waveOf r = some v ∧ { t with groups := s.groups } = s ∧
      (∀ q, q ∈ v.pend ↔ q ∈ w.pend ∧ q ≠ p) ∧ v.fpflags = w.fpflags ||| p.flags ∧
      (∀ q ∈ p.writes, sget 0 v.regs q.key = q.val ∧ (q.key ∈ v.poison ↔ q.poison = true)) ∧
      (∀ k, (∀ q ∈ p.writes, q.key ≠ k) → sget 0 v.regs k = sget 0 w.regs k ∧ (k ∈ v.poison ↔ k ∈ w.poison)) ∧
      ∀ i < 8, ∀ e, w.entry? i = some e →
        (∀ n, e.st = .yield n → v.pendBefore n = false → v.entry? i = some { e with st := .ready }) ∧
        ((∀ n, e.st = .yield n → v.pendBefore n = true) → v.entry? i = some e)) ∧
 ((∀ s r x t, s.issueOf r = some x → x.e.st = .ready → s.waveRuns x.g x.w = true → x.e.latch = none → x.e.pc.toNat < 2 ^ 56 →
    s.translate x.g.ctx .rx x.e.pc.toNat = .ok t → t.isRemote = false → s.lostAt t = false → (∀ b ∈ s.readSite t 8, b.2 = false) →
    exec (.instructionFetch r) s = .next (s.setWave r.gid r.wi (x.w.setEntry r.slot (some
      { x.e with latch := some (x.e.pc, BitVec.ofNat 64 (natOfBytes ((s.readSite t 8).map fun b => b.1))) })))) ∧
  (∀ s r x, s.issueOf r = some x → x.e.st = .ready → x.e.latch = none → (2 ^ 56 ≤ x.e.pc.toNat ∨ ∃ c, s.translate x.g.ctx .rx x.e.pc.toNat = .error c) →
    exec (.instructionFetch r) s = .next s)) ∧
 ((∀ s r x p, s.issueOf r = some x → x.e.st = .ready → x.w.ended = false → Calm x → x.w.ptraps = [p] → p.lanes &&& x.e.mask ≠ 0 →
    x.w.uten = true → x.w.tvec ≠ 0 → x.w.inh = false → (p.cause = .breakpoint → x.w.brkpark = false) →
    ∃ t v, exec (.trapDelivery r) s = .next t ∧ t.waveOf ⟨r.gid, r.wi⟩ = some v ∧ { t with groups := s.groups } = s ∧
      v.entry? r.slot = some { x.e with pc := x.w.tvec &&& 0x00FFFFFFFFFFFFF8, pri := 255, pass := 0, latch := none } ∧
      (∀ i < 8, i ≠ r.slot → v.entry? i = x.w.entry? i) ∧ v.ptraps = [] ∧ v.inh = true ∧ v.hmask = x.e.mask ∧ v.tmask = p.mask ∧ v.tdst = p.tdst ∧
      v.tcause = ((p.code.zeroExtend 32 <<< 8) ||| p.cause.code.zeroExtend 32) ∧
      v.tpc = ((x.e.pri.zeroExtend 64 <<< 56) ||| (x.e.pc &&& 0x00FFFFFFFFFFFFFF)) ∧
      ∀ l, sget 0 v.tval l = if p.mask.getLsbD l then p.addr else 0) ∧
  (∀ s r x p, s.issueOf r = some x → x.e.st = .ready → x.w.ended = false → Calm x → x.w.ptraps = [p] → p.lanes &&& x.e.mask ≠ 0 →
    p.mask &&& x.e.mask &&& x.w.real = x.e.mask → x.w.uten = false ∨ x.w.tvec = 0 →
    ∃ t v, exec (.trapDelivery r) s = .next t ∧ t.waveOf ⟨r.gid, r.wi⟩ = some v ∧ { t with groups := s.groups } = s ∧
      v.entry? r.slot = some { x.e with pc := p.addr, st := .fault, pass := 0, mark := none } ∧ v.ptraps = [] ∧
      ∀ l, aget v.faults l = if x.e.mask.getLsbD l then some { cause := p.cause, skip := false, pc := p.addr, value := p.addr } else aget x.w.faults l))

/-- R390, R391, R434: the lane of a waiting `wtge` or `wteq` is read again: nothing changes until its condition holds; then its words are
written and the entry goes on. A waiter at a FULL word is served and leaves it EMPTY. -/
def Obligations.WaitersAreServed : Prop :=
  (∀ ge : Bool, ∀ h f s r x op ts, let i : Instr := if ge then .wtge h f else .wteq h f
    let v := natOfBytes ((s.readSites ts).map fun b => b.1)
    Stands s r x (.wait .mem) i → Clean x → Quiet s x → Unfaulted x → s.held = false → x.e.plan = [op] → x.e.done.getLsbD op.lane = false →
    x.w.real.getLsbD op.lane = true → Reaches s x i op ts → (∀ t ∈ ts, s.poisonedAt t.1 t.2 = false) →
    (waitHolds ge (mfSize f) v (natOfBytes op.data) = false →
      ∃ t, exec (.memoryWaitSatisfied r op.lane) s = .next t ∧ EntryBecomes s x x.w x.e t) ∧
    (waitHolds ge (mfSize f) v (natOfBytes op.data) = true → x.e.vals = [] → (s.readSites ts).length = mfSize f → (∃ a, op.accs = [(a, mfSize f)]) →
      (f.sz = 2 ∨ f.sz = 3) → ∃ t regs, exec (.memoryWaitSatisfied r op.lane) s = .next t ∧ EntryBecomes s x { x.w with regs := regs } x.e.on t ∧
        ∀ k, sget 0 regs k = match op.dst with
          | none => sget 0 x.w.regs k
          | some d => if k = d then BitVec.ofNat 32 (v % 2 ^ 32)
            else if k = d + 32 ∧ f.sz = 3 then BitVec.ofNat 32 (v / 2 ^ 32) else sget 0 x.w.regs k)) ∧
  (∀ s word, NoFeWaiters s → exec (.feWaiterServed word) s = .next s) ∧
  (∀ h f s r x op c a pa va key, Stands s r x (.wait .fe) (.ldfe h f) → (∀ q y, s.issueOf q = some y → y.e.st = .wait .fe → q = r) → s.mgmt.peerWaits = [] → s.scopeLive x.g.scope = true →
    Clean x → Quiet s x → Unfaulted x → s.held = false → x.g.place = .resident c → r.slot < 8 → x.e.mark = none → x.e.vals = [] →
    x.e.plan = [op] → x.e.done.getLsbD op.lane = false → op.lane < 32 → x.w.real.getLsbD op.lane = true → op.accs = [(a, 8)] →
    laneSites s (x.party op.lane) (.ldfe h f) op = .ok [(a, [(.dev pa va key true, 8)])] → pa / 8 ∈ s.mem.full →
    let ws := received (fun _ => op) false 32 [(op.lane, s.readSite (.dev pa va key true) 8)]
    ∃ t, exec (.feWaiterServed (pa / 8)) s = .next t ∧
      EntryBecomes { s with mem := s.mem.setFull pa false } x (if ws = [] then x.w else x.w.addPend ws 0 none) x.e.on t)

/-- R465 to R468, R484, R485: the dump of a FAULTED group with no access, operation or result outstanding: its image in the pool, its entry in the
fault list; it is DUMPED where its context's policy holds it, else it has ended. Choices of the model: which record is the lowest (log 57), the first DUMPID (log 23), where the pool begins (log 13), a discarded entry stays (log 69). -/
def Obligations.FaultDumps : Prop :=
  ∀ s gid g core, s.group? gid = some g → g.place = .faulted core → s.opsOf gid = false → s.awaitsRemote [gid] = false → (∀ w ∈ g.waves, w.pend = []) →
    ((aget s.mgmt.faultList g.ctx).getD []).length < 256 →
    s.scopeLive g.scope = true → ∃ t g' i e, exec (.faultDump gid) s = .next t ∧ t.group? gid = some g' ∧
      t.mgmt.images = s.mgmt.images ++ [i] ∧ ImageOf s gid g .fault i ∧ i.groups = [(gid, g)] ∧ i.vcl = some (core / 4) ∧
      t.mgmt.nextDump = s.mgmt.nextDump + 1 ∧
      aget t.mgmt.faultList g.ctx = some ((aget s.mgmt.faultList g.ctx).getD [] ++ [e]) ∧ e.dumpid = s.mgmt.nextDump ∧ e.kind = 1 ∧
      e.cause = g.cause.getD 0 ∧ e.ctx = g.ctx ∧ e.queue = g.queue ∧ e.tag = g.tag ∧ e.image = s.poolNext ∧ e.gid = gid ∧
      (g.ctx ∈ s.mgmt.policyHold → e.state = 0 ∧ g'.place = .dumped) ∧ (g.ctx ∉ s.mgmt.policyHold → e.state = 1 ∧ g'.place = .ended)

/-! ## Queues (03) -/

/-- R115, R116: what a doorbell write and read through the owner, the PF and other functions do. -/
def Obligations.Doorbells : Prop :=
  (∀ s func q value, q < 4096 → MayRing s func q → (s.queue q).st = .free →
    ∃ t, exec (.doorbellWrite func (4096 * q) 8 value) s = .next t ∧ QueueSet s q (s.queue q) t) ∧
  (∀ s func q value, q < 4096 → MayRing s func q → (s.queue q).st ≠ .free → let v := s.queue q
    let n : Queue := { v with qdbv := BitVec.ofNat 64 (max v.qdbv.toNat value.toNat) }
    ∃ t, exec (.doorbellWrite func (4096 * q) 8 value) s = .next t ∧
      QueueSet s q (if v.st = .active ∧ v.rindex + 2 ^ v.log2size.toNat < n.qdbv.toNat
        then { n with st := .error, cause := 2, erridx := BitVec.ofNat 48 v.rindex } else n) t) ∧
  (∀ s func q off size value, q < 4096 → off < 8 → ¬ (MayRing s func q ∧ size = 8 ∧ off = 0) →
    ∃ t, exec (.doorbellWrite func (4096 * q + off) size value) s = .next t ∧ Logged s 2 func t) ∧
  (∀ s func off size value, 8 ≤ off % 4096 ∨ 4096 ≤ off / 4096 → exec (.doorbellWrite func off size value) s = .next s) ∧
  (∀ s func q, q < 4096 → MayRing s func q →
    exec (.doorbellRead func (4096 * q) 8) s = .next { s with host := { s.host with readData := s.host.readData ++ [bytesOfNat 8 (s.queue q).qdbv.toNat] } }) ∧
  (∀ s func q off size, q < 4096 → off < 8 → MayRing s func q → size ≠ 8 ∨ off ≠ 0 →
    exec (.doorbellRead func (4096 * q + off) size) s = .next { s with host := { s.host with readData := s.host.readData ++ [List.replicate size 0] } }) ∧
  (∀ s func q off size, q < 4096 → off < 8 → ¬ MayRing s func q → ∃ u, Logged s 13 func u ∧ exec (.doorbellRead func (4096 * q + off) size) s =
    .next { u with host := { u.host with readData := u.host.readData ++ [List.replicate size 0] } })

/-- R109 to R111: the fields of a queue control block, and the actions ENABLE, DISABLE, RESUME and RELEASE, through the PF only. Choices of the model: RESUME looks for an overrun (log 49). -/
def Obligations.QueueControl : Prop :=
  (∀ s q (n : W64), q < 4096 → ((s.queue q).st = .free ∨ (s.queue q).st = .disabled) → let v : Queue := { s.queue q with st := .disabled }
    ∀ p ∈ [(0x00, { v with qbase := n }), (0x08, { v with log2size := n.extractLsb' 0 5, pclass := n.extractLsb' 8 2, ctx := n.extractLsb' 10 10
                                                          vec := n.extractLsb' 20 11, func := n.extractLsb' 32 8 }),
           (0x10, { v with qscope := n.extractLsb' 0 32 }), (0x18, { v with qrptra := n }), (0x20, { v with qwptra := n })],
      ∃ t, exec (.qcbWrite 0 (64 * q + p.1) 8 n) s = .next t ∧ QueueSet s q p.2 t) ∧
  (∀ s q off size n, q < 4096 → off < 0x28 → ((s.queue q).st = .active ∨ (s.queue q).st = .error) → exec (.qcbWrite 0 (64 * q + off) size n) s = .next s) ∧
  (∀ s func off size n q, func ≠ 0 → (∃ t, exec (.qcbWrite func off size n) s = .next t ∧ Logged s 1 func t) ∧
    ∀ i ∈ [Instr.enable func q, .disable func q, .queueResume func q, .queueRelease func q], ∃ t, exec i s = .next t ∧ Logged s 1 func t) ∧
  (∀ s q u, q < 4096 → let v := s.queue q
    v.st = .disabled → v.ctx.toNat ∉ s.mgmt.tdblk → MayEnable s v → s.changeWord v.ctx.toNat v.qrptra (fun _ => 0) = some u → s.mgmt.asked = [] →
    ∃ t, exec (.enable 0 q) s = .next t ∧ QueueSet u q { v with st := .active, cause := 0, qdbv := 0, rindex := 0, first := v.first + v.rindex } t) ∧
  (∀ s q, q < 4096 → (s.queue q).st = .disabled → (s.queue q).ctx.toNat ∉ s.mgmt.tdblk → ¬ MayEnable s (s.queue q) →
    ∃ t, exec (.enable 0 q) s = .next t ∧ Logged s 3 0 t) ∧
  (∀ s q, q < 4096 → (s.queue q).st ≠ .disabled → exec (.enable 0 q) s = .next s ∧ exec (.queueRelease 0 q) s = .next s) ∧
  (∀ s q, q < 4096 → ((s.queue q).st = .active ∨ (s.queue q).st = .error) →
    ∃ t, exec (.disable 0 q) s = .next t ∧ QueueSet s q { s.queue q with st := .disabled, cause := 0 } t) ∧
  (∀ s q, q < 4096 → (s.queue q).st = .error → (s.queue q).qdbv.toNat ≤ (s.queue q).rindex + 2 ^ (s.queue q).log2size.toNat →
    ∃ t, exec (.queueResume 0 q) s = .next t ∧ QueueSet s q { s.queue q with st := .active, cause := 0 } t) ∧
  (∀ s q, q < 4096 → (s.queue q).st = .disabled → let v := s.queue q
    (v.busy = [] ∧ v.bar = none → ∃ t, exec (.queueRelease 0 q) s = .next t ∧ QueueSet s q Queue.start t) ∧
    (v.busy ≠ [] ∨ v.bar ≠ none → exec (.queueRelease 0 q) s = .next s))

/-- R117 to R131: a packet is consumed, and a NOP, SIGNAL, BARRIER or COPY packet has its effect; a malformed packet fails; in ERROR ABORT
every packet fails. Choices of the model: a poisoned slot is a RINGFAULT (log 47). -/
def Obligations.PacketProcessing : Prop :=
  (∀ s q i pkt u, Consumed s q i pkt u → (s.queue q).st = .active → GoodPacket u q pkt → let c := (s.queue q).ctx.toNat
    let r := packetRef (s.queue q).first q i pkt 0 (packetScope u q pkt)
    let hold := (fieldAt pkt 1 1).testBit 0
    (fieldAt pkt 0 1 = 5 → CanSignal u c r.done → ∃ t, exec (.packetConsume q) s = .next t ∧ Completed u c r decSignal t) ∧
    (fieldAt pkt 0 1 = 4 → ∀ v, u.changeWord c (w64At pkt 8) (fun old => if fieldAt pkt 0x18 1 = 1 then w64At pkt 0x10
        else if old.toInt < 0 then old else old - w64At pkt 0x10) = some v → CanSignal v c r.done →
      ∃ t, exec (.packetConsume q) s = .next t ∧ Completed v c r decSignal t) ∧
    (fieldAt pkt 0 1 = 3 → ∃ t, exec (.packetConsume q) s = .next t ∧ QueueSet u q { u.queue q with
      bar := some { ctx := c, deps := ([0x08, 0x10, 0x18, 0x20].map fun o => w64At pkt o).filter fun a => decide (a ≠ 0), pkt := r
                    scope := packetScope u q pkt, hold := hold } } t) ∧
    (fieldAt pkt 0 1 = 2 → ∃ t k, exec (.packetConsume q) s = .next t ∧ t.copies = aput u.nextCopy k u.copies ∧
      QueueSet { u with copies := t.copies, nextCopy := u.nextCopy + 1 } q { u.queue q with busy := (u.queue q).busy ++ [((s.queue q).first + i, hold)] } t ∧
      k.kind = .cpy ∧ k.src = w64At pkt 0x08 ∧ k.dst = w64At pkt 0x10 ∧ k.len = fieldAt pkt 0x18 8 ∧ k.ctr = w64At pkt 0x20 ∧ k.cval = w64At pkt 0x28 ∧
      k.frec = 0 ∧ k.mode = fieldAt pkt 0x38 1 % 2 ∧ k.ctx = c ∧ k.scope = packetScope u q pkt ∧ k.packet = some r ∧ k.owner = none)) ∧
  (∀ s q i pkt u, Consumed s q i pkt u → fieldAt pkt 0 1 ∈ [2, 3, 4, 5] → (w64At pkt 0x30).toNat % 8 = 0 →
    ((s.queue q).st = .active ∧ packetOk pkt = false) ∨ ((s.queue q).st = .error ∧ (s.queue q).cause = 1) →
    CanSignal u (s.queue q).ctx.toNat (w64At pkt 0x30) →
    ∃ t, exec (.packetConsume q) s = .next t ∧ Completed u (s.queue q).ctx.toNat (packetRef (s.queue q).first q i pkt 0 0) (fun _ => -1) t) ∧
  (∀ s q, s.askedFor (.packetConsume q) = [] → (s.queue q).bar ≠ none ∨ (s.queue q).qdbv.toNat ≤ (s.queue q).rindex ∨ (s.queue q).st = .disabled → exec (.packetConsume q) s = .next s)

/-- R124, R127, R129, R130, R495 to R497: the passes of a BARRIER packet, and the completion of a launch whose groups are all over. -/
def Obligations.PassesAndCompletion : Prop :=
  (∀ s q b, (s.queue q).bar = some b → s.askedFor (.barrierPass q) = [] →
    (∀ a ∈ b.deps, s.wanted (Party.ofCtx b.ctx) .r a 8 8 = []) → s.scopeGone b.scope = false → let now := fun a => (s.recordOf b.ctx a 8).map fun bs => w64At bs 0
    let gone := s.modQueue q fun k => { k with bar := none }
    CanSignal gone b.ctx b.pkt.done →
    ((∀ a ∈ b.deps, now a = some 0) → ∃ t, exec (.barrierPass q) s = .next t ∧ Completed gone b.ctx b.pkt decSignal t) ∧
    ((∀ a ∈ b.deps, ∃ v, now a = some v ∧ v.msb = false) → (∃ a ∈ b.deps, now a ≠ some 0) → exec (.barrierPass q) s = .next s) ∧
    ((∃ a ∈ b.deps, ∀ v, now a = some v → v.msb = true) → ∃ u t, exec (.barrierPass q) s = .next t ∧ Completed gone b.ctx b.pkt (fun _ => -1) u ∧
      QueueSet u q (if (u.queue q).st = .active
        then { u.queue q with st := .error, cause := 1, erridx := BitVec.ofNat 48 b.pkt.index } else u.queue q) t)) ∧
  (∀ s q b, (s.queue q).bar = some b → s.askedFor (.barrierPass q) = [] → s.scopeGone b.scope = true → let gone := s.modQueue q fun k => { k with bar := none }
    CanSignal gone b.ctx b.pkt.done → ∃ t, exec (.barrierPass q) s = .next t ∧ Completed gone b.ctx b.pkt decSignal t) ∧
  (∀ s n l u, aget s.launches n = some l → l.complete = false → (∀ k ∈ l.gangs, k.st = .over) → (∀ c ∈ s.copies, c.2.launch ≠ some n) →
    (∀ a ∈ s.mgmt.outAccess, a.launch ≠ some n) →
    (if l.cancelled then s.changeWord l.ctx ((s.queue l.queue).qrptra + 8) (fun v => v + 1) = some u else u = s) → CanSignal u l.ctx l.rcd.done →
    ∃ t, Completed u l.ctx { queue := l.queue, index := l.packet, done := l.rcd.done, intr := l.intr, auto := l.autoScope, number := l.number }
        (if l.failed then fun _ => -1 else decSignal) t ∧
      exec (.launchComplete n) s = .next { t with launches := amod n (fun l => { l with complete := true }) t.launches }) ∧
  (∀ s ctx a f pa va key fe, s.recordSites (Party.ofCtx ctx) .w a 8 8 = .ok [(.dev pa va key fe, 8)] → pa % 32 + 8 ≤ 32 → ∃ t,
    s.changeWord ctx a f = some t ∧ BytesKept s t [(.dev pa va key fe, 8)] ∧ ∀ v, s.mem.bytes pa 8 { key := key, unit := va / 32 } = bytesOfNat 8 v →
      v < 2 ^ 64 → t.mem.bytes pa 8 { key := key, unit := va / 32 } = bytesOfNat 8 (f (BitVec.ofNat 64 v)).toNat)

/-! ## The dispatcher and the market (04) -/

/-- R87, R154, R164, R165, R176: the dispatcher places a head gang that fits, all members at once; deficits are charged; a cluster is reserved
for a head that has not fitted. Choices of the model: which free core, slot and tag is taken (log 24), the start of DEF and RR (log 22), a cluster reserved for another gang is passed over (log 87). -/
def Obligations.DispatcherPlaces : Prop :=
  (∀ s cl c q n k l gang f, s.held = false → s.mgmt.placeBudget = true → s.askedFor (.dispatchPlace cl) = [] → aget s.market.handed cl = none → s.servedBy cl = some c → (∀ d ∈ s.residents cl, d = c) →
    s.readyQueues c = [q] → s.headOf c q = some (.gang n k) → aget s.launches n = some l → l.gangs[k]? = some gang → gang.st = .unplaced →
    (l.rcd.twin = true → l.rcd.gang % 2 = 0) → 0 < (s.queue q).deficit → aget s.market.reserved cl = none → s.fitsNow cl (.gang n k) = some f →
    ∃ t l', exec (.dispatchPlace cl) s = .next t ∧ t.nextGid = s.nextGid + l.rcd.gang ∧
      (∀ i < l.rcd.gang, ∃ g, t.group? (s.nextGid + i) = some g ∧ MemberStarted l n k cl i g) ∧
      aget t.launches n = some l' ∧ l'.rcd = l.rcd ∧
      l'.gangs[k]? = some { gang with st := .placed, groups := (List.range l.rcd.gang).map fun i => s.nextGid + i, cluster := cl } ∧
      sget 0 t.market.rr (8 * c + s.headClass q (.gang n k)) = q + 1) ∧
  (∀ s cl, s.askedFor (.dispatchPlace cl) = [] → s.held = true ∨ s.mgmt.placeBudget = false ∨ s.servedBy cl = none ∨ (∃ c d, s.servedBy cl = some c ∧ d ∈ s.residents cl ∧ d ≠ c) →
    exec (.dispatchPlace cl) s = .next s) ∧
  (∀ s, ∃ t, exec .defCharge s = .next t ∧ { t with queues := s.queues } = s ∧
    ∀ q, t.queue q = { s.queue q with deficit := (s.queue q).deficit - (s.queue q).charged, charged := 0 }) ∧
  (∀ s q h c v, c = (s.queue q).ctx.toNat → s.headOf c q = some h → (∃ m ≥ 2, (h, m) ∈ s.market.notFitted) →
    (∀ p ∈ s.market.reserved, p.2 ≠ h) → 0 < (s.queue q).deficit → (∀ u ∈ s.clustersOf c, s.fitsNow u h = none) →
    v ∈ s.clustersOf c → aget s.market.reserved v = none → s.fitsEmpty v h = true →
    (∀ u ∈ s.clustersOf c, aget s.market.reserved u = none → s.fitsEmpty u h = true → v ≤ u) →
    exec (.clusterReserve q) s = .next { s with market := { s.market with reserved := aput v h s.market.reserved } }) ∧
  (∀ s q, s.headOf (s.queue q).ctx.toNat q = none → exec (.clusterReserve q) s = .next s)

/-- R153, R168, R417, R478, R479: a gang of one group stops and is saved: when its cluster is lost, when it has been marked, and when it has
waited for a whole interval while a ready gang fits on no cluster of its context and would fit in its place; its cluster is handed to that gang.
Choices of the model: where an image stands in the pool, the order of its sections (log 13). -/
def Obligations.GangsAreSaved : Prop :=
  (∀ s gid g core kind, s.group? gid = some g → g.place = .resident core → s.scopeGone g.scope = false → s.gangMembers gid g = [gid] →
    s.awaitsRemote [gid] = false → g.stop = some kind → ∃ t, exec (.gangStop gid kind) s = .next t ∧ GangSaved s gid g kind t) ∧
  (∀ s gid g core, s.group? gid = some g → g.place = .resident core → s.scopeGone g.scope = false → s.gangMembers gid g = [gid] →
    s.awaitsRemote [gid] = false → g.stop = none → s.servedBy (core / 4) ≠ some g.ctx → core ∉ s.mgmt.gated →
    ∃ t, exec (.gangStop gid .lease) s = .next t ∧ GangSaved s gid g .lease t) ∧
  (∀ s gid g core h, s.group? gid = some g → g.place = .resident core → s.scopeLive g.scope = true → s.gangMembers gid g = [gid] →
    s.awaitsRemote [gid] = false → g.stop = none → core ∉ s.mgmt.gated → 2 ≤ g.idle → (∀ w ∈ g.waves, w.ended = true ∨ w.descheduled = true) →
    ((s.readyHeads g.ctx).find? fun h => !s.fitsSomewhere g.ctx h) = some h → ((s.without gid).fitsNow (core / 4) h).isSome = true →
    ∃ t, exec (.dispatchSave gid) s = .next t ∧ GangSaved s gid g .dispatch t ∧ t.market.handed = aput (core / 4) h s.market.handed) ∧
  (∀ s gid g, s.group? gid = some g → (∀ h ∈ s.readyHeads g.ctx, s.fitsSomewhere g.ctx h = true) → exec (.dispatchSave gid) s = .next s) ∧
  (∀ s gid g, s.group? gid = some g → (g.idle < 2 ∨ g.stop ≠ none ∨ ∃ w ∈ g.waves, w.ended = false ∧ w.descheduled = false) →
    exec (.dispatchSave gid) s = .next s)

/-- R140, R143, R145, R150 to R152: bid freeze, publication and interval start. Choices of the model: refills follow the ENABLE that comes into force (log 45), FLOOR in NEXT (log 44), the PRICE flit
carries the running interval's length (log 86). -/
def Obligations.IntervalTimeline : Prop :=
  (∀ s, s.running = true → s.market.phase = .open_ → let u := s.upTo (s.nextStart - 8000)
    ∃ t, exec .bidFreeze s = .next t ∧ t.clk = u.clk ∧ t.groups = s.groups ∧ t.mem = s.mem ∧ t.market.phase = .frozen ∧
      t.market.frozen = s.market.pending ∧ t.market.pending = s.market.pending ∧ t.market.lengthNext = s.market.cfgW.interval ∧
      t.market.cfgW = s.market.cfgW ∧ t.market.cfgA = { s.market.cfgA with
        pools := s.market.cfgW.pools, wysplit := s.market.cfgW.wysplit, vfceil := s.market.cfgW.vfceil
        tenants := s.market.cfgW.tenants, ctxs := s.market.cfgW.ctxs } ∧
      t.market.current = s.market.current ∧ t.market.purses = s.market.purses ∧ t.mgmt.outNext = [] ∧
      (s.market.cfgA.enable = false → t.market.awards = [] ∧ t.market.outcome = [])) ∧
  (∀ s, s.running = true → s.market.phase = .frozen → (∀ c < 1024, frozenBid s c 7 = 0) →
    let u := s.upTo (s.nextStart - 4000)
    ∃ t f, exec .publication s = .next t ∧ t.clk = u.clk ∧ t.groups = s.groups ∧ t.mem = s.mem ∧ t.market.phase = .published ∧
      (∀ c k, let l := leaseAt t.market.next c k; let a := leaseAt s.market.awards c k
        l.qty = a.qty ∧ l.price = a.price ∧ l.units = a.units ∧ ((leaseAt s.market.next c k).floor = true → l.floor = true) ∧
        ((∀ o ∈ s.market.next, o.1 = leaseKey c k → o.2.floor = false) → l.floor = a.floor)) ∧
      t.market.results = s.market.outcome ∧ t.market.current = s.market.current ∧
      t.mgmt.sent = s.mgmt.sent ++ [.price f] ∧ f.number = (s.market.intno.toNat + 1) % 2 ^ 48 ∧
      (∀ i < 20, f.price[i]? = some (sget Result.start s.market.outcome i).price.toNat) ∧
      ∀ k, sget 0 t.market.purses k = if (aget s.market.cfgA.tenants k).isSome
        then BitVec.ofNat 64 ((sget 0 s.market.purses k).toNat - chargeOf s s.market.awards k) else sget 0 s.market.purses k) ∧
  (∀ s, s.running = true → s.market.phase = .published → let u := s.upTo s.nextStart
    ∃ t, exec .intervalStart s = .next t ∧ t.clk = u.clk ∧ t.mem = s.mem ∧ t.market.phase = .open_ ∧ t.market.intno = s.market.intno + 1 ∧
      t.market.startTime = s.nextStart ∧ t.market.length = s.market.lengthNext ∧ t.market.spun = [] ∧ t.mgmt.timeSent = false ∧
      t.market.cfgA.enable = s.market.cfgW.enable ∧
      (∀ c k, (leaseAt t.market.current c k).qty = (leaseAt s.market.next c k).qty ∧ (leaseAt t.market.current c k).price = (leaseAt s.market.next c k).price ∧
        (leaseAt t.market.current c k).units = (leaseAt s.market.next c k).units) ∧
      (∀ n v, aget s.market.cfgA.tenants n = some v → v.valid = true → s.market.cfgW.enable = true → (sget 0 t.market.purses n).toNat =
        if v.cap.toNat ≤ (sget 0 s.market.purses n).toNat then (sget 0 s.market.purses n).toNat
        else min ((sget 0 s.market.purses n).toNat + v.rate.toNat) v.cap.toNat) ∧
      (s.market.cfgW.enable = false → t.market.purses = s.market.purses) ∧ ∀ d, aget t.market.peers d = (aget s.market.peers d).map fun p => { p with age := p.age + 1 }) ∧
  (∀ s, s.running = false → exec .bidFreeze s = .next s ∧ exec .publication s = .next s ∧ exec .intervalStart s = .next s)

/-- R146 to R148: what the clearing awards a context is within its bid: at most its quantity, at no more than its price, each unit to one
context. -/
def Obligations.AwardsWithinBids : Prop :=
  ∀ s, s.running = true → s.market.phase = .open_ → s.market.cfgA.enable = true → ∃ t, exec .bidFreeze s = .next t ∧
    (∀ c, ∀ k < 8, let l := leaseAt t.market.awards c k
      l.qty = l.units.length ∧ l.qty ≤ bidQty (frozenBid t c k) ∧ (0 < l.qty → l.price ≤ bidPrice (frozenBid t c k) ∧ k < 5 ∧ t.tenantOf c ≠ none)) ∧
    ∀ c c', ∀ k < 8, ∀ u, u ∈ (leaseAt t.market.awards c k).units → u ∈ (leaseAt t.market.awards c' k).units → c = c'

/-- R169 to R171: a PRICE flit enters the peer table unless it is older; Spinnaker counts its streak, and offers the context once the streak
is long enough. Choices of the model: how long a refusing peer is left out (log 56). -/
def Obligations.PeersAndSpinnaker : Prop :=
  (∀ s f, f.dev < 1024 → (∀ p, aget s.market.peers f.dev = some p → p.number ≤ f.number) → exec (.priceFlitReceive f) s = .next { s with
    market := { s.market with
      peers := aput f.dev { interval := f.interval, age := 0, number := f.number, price := f.price, unsold := f.unsold } s.market.peers } }) ∧
  (∀ s f p, aget s.market.peers f.dev = some p → f.number < p.number → exec (.priceFlitReceive f) s = .next s) ∧
  (∀ s c, (∀ pol, ¬ SpinActs s c pol) → exec (.spinnaker c) s = .next s) ∧
  (∀ s c pol, SpinActs s c pol → (∀ p ∈ s.market.peers, ¬ PeerFits s c p.1 p.2 pol) →
    exec (.spinnaker c) s = .next { s with market := { s.market with spun := sins c s.market.spun, streakOf := sput 0 c 0 s.market.streakOf } }) ∧
  (∀ s c d p pol, SpinActs s c pol → s.market.peers = [(d, p)] → PeerFits s c d p pol →
    let here := leaseCost s c fun i => (sget Result.start s.market.results i).price.toNat
    let there := leaseCost s c fun i => p.price[i]?.getD 0
    let n := if there * (100 + pol.gap.toNat) < here * 100 then sget 0 s.market.streakOf c + 1 else 0
    (n < max 1 pol.streak.toNat → exec (.spinnaker c) s = .next { s with market := { s.market with
      spun := sins c s.market.spun, streakOf := sput 0 c n s.market.streakOf } }) ∧
    (max 1 pol.streak.toNat ≤ n → exec (.spinnaker c) s = .next { s with
      market := { s.market with spun := sins c s.market.spun, streakOf := sput 0 c 0 s.market.streakOf }
      mgmt := { s.mgmt with sent := s.mgmt.sent ++ [.offer c d], migrating := aput c d s.mgmt.migrating } }))

/-- R172, R487, R493: what an accepted, a refused and an arriving migration leave at both ends. Choices of the model: when an offer is refused (log 54), what moves and when (log 55), how long a peer is excluded (log 56). -/
def Obligations.MigrationEnds : Prop :=
  (∀ s c d, aget s.mgmt.migrating c = some d → (∀ g ∈ s.groups, g.2.ctx = c → g.2.place.core? = none) → (∃ a ∈ s.mgmt.outAccess, a.ctx = c) →
    exec (.migrationAccepted c d) s = .next s) ∧
  (∀ s c d, aget s.mgmt.migrating c = some d → (∀ g ∈ s.groups, g.2.ctx = c → g.2.place.core? = none) → (∀ a ∈ s.mgmt.outAccess, a.ctx ≠ c) →
    ∃ t m, exec (.migrationAccepted c d) s = .next t ∧ .image d m ∈ t.mgmt.sent ∧ m.ctx = c ∧ m.cgen = s.ctxGen c ∧
      (∀ g, g ∈ m.groups ↔ g ∈ s.groups ∧ g.2.ctx = c) ∧ (∀ g ∈ t.groups, g.2.ctx ≠ c) ∧ (∀ n, (t.scopeSlot n).st = .free ∨ (t.scopeSlot n).ctx ≠ c) ∧
      t.ctxGen c = nextGen (s.ctxGen c) ∧ (∀ b ∈ t.market.pending, ¬ (b.1 / 8 = c ∧ b.1 % 8 ≤ 4)) ∧ aget t.mgmt.migrating c = none ∧
      ∀ q, (s.queue q).st ≠ .free → (s.queue q).ctx.toNat = c → (t.queue q).st = .disabled) ∧
  (∀ s c d, aget s.mgmt.migrating c ≠ some d → exec (.migrationAccepted c d) s = .next s ∧ exec (.migrationRefused c d) s = .next s) ∧
  (∀ s c d t, aget s.mgmt.migrating c = some d → s.tenantOf c = some t → exec (.migrationRefused c d) s = .next { s with
    market := { s.market with excluded := (s.market.excluded.filter fun e => decide (e.1 ≠ (c, d))) ++
      [((c, d), max 1 (sget SpinPol.start s.market.cfgW.spin t).streak.toNat + 1)] }
    mgmt := { s.mgmt with migrating := adel c s.mgmt.migrating } }) ∧
  (∀ s k m, s.mgmt.inbound[k]? = some m → m.ctx ∉ s.mgmt.tdblk →
    (s.market.cfgW.migin = false ∨ (sget Tenant.start s.market.cfgA.tenants m.tenant).valid = false ∨ ∃ p ∈ s.scopesInUse, p.2.ctx = m.ctx) → ∃ t, exec (.migrationOffer k) s = .next t ∧
      Sends { s with mgmt := { s.mgmt with inbound := s.mgmt.inbound.eraseIdx k } } (.refused m.ctx m.dev) t) ∧
  (∀ s k m, s.mgmt.inbound[k]? = some m → m.ctx ∉ s.mgmt.tdblk → s.market.cfgW.migin = true →
    (sget Tenant.start s.market.cfgA.tenants m.tenant).valid = true →
    (∀ p ∈ s.scopesInUse, p.2.ctx ≠ m.ctx) → (∀ p ∈ m.scopes, (s.scopeSlot p.1).st = .free) → (∀ q ∈ m.queues, (s.queue q.1).st = .free) →
    (m.scopes.map fun p => p.1).Nodup → (m.queues.map fun p => p.1).Nodup →
    ∃ t, exec (.migrationOffer k) s = .next t ∧ t.mgmt.sent = s.mgmt.sent ++ [.accepted m.ctx m.dev] ∧ t.mgmt.inbound = s.mgmt.inbound.eraseIdx k ∧
      t.ctxGen m.ctx = m.cgen ∧ (∀ p ∈ m.scopes, t.scopeSlot p.1 = p.2) ∧ (∀ q ∈ m.queues, t.queue q.1 = q.2) ∧
      (∀ g ∈ m.groups, ∃ v, (g.1 + s.nextGid, v) ∈ t.groups ∧ v.ctx = g.2.ctx ∧ v.tag = g.2.tag ∧ v.sregs = g.2.sregs ∧ v.place = g.2.place ∧ v.scope = g.2.scope) ∧
      (∀ k < 8, (leaseAt t.market.current m.ctx k).qty = 0 ∧ (leaseAt t.market.next m.ctx k).qty = 0) ∧ t.mem = s.mem)

/-! ## The fabric (16) -/

/-- R518 to R520, R522, R535, R536, R542: links, pod time, and RATLINE holds. Choices of the model: how TIME slews (log 58), a RATLINE out of limits (log 59), a second link to a peer (log 60). -/
def Obligations.LinksAndPodTime : Prop :=
  (∀ s port versions peer, s.running = true → s.mgmt.podidx ≠ none → port < 18 →
    (1 ∈ versions ∧ peer < 1024 ∧ peer ≠ s.podIndex ∧ (∀ p ∈ s.mgmt.peersAt, p.2 = peer → p.1 = port) → exec (.linkTraining port versions peer) s = .next
      { s with mgmt := { s.mgmt with links := aput port 1 s.mgmt.links, peersAt := aput port peer s.mgmt.peersAt, dead := sdel peer s.mgmt.dead } }) ∧
    (1 ∉ versions ∨ peer = s.podIndex ∨ (∃ p ∈ s.mgmt.peersAt, p.2 = peer ∧ p.1 ≠ port) → exec (.linkTraining port versions peer) s = .next
      { s with mgmt := { s.mgmt with links := adel port s.mgmt.links, peersAt := adel port s.mgmt.peersAt, linkErrs := s.mgmt.linkErrs + 1 } })) ∧
  (∀ s port versions peer, s.running = false ∨ s.mgmt.podidx = none → exec (.linkTraining port versions peer) s = .next s) ∧
  (∀ s lane, lane < 72 → ∃ t, exec (.laneWithdraw lane) s = .next t ∧ (2, lane, 0) ∈ t.mgmt.outNext ∧ ErrorLogged s 8 (BitVec.ofNat 64 lane) t) ∧
  (∀ s (ty : Byte), exec (.flitUnknownType ty) s = .next (if 1 ≤ ty.toNat ∧ ty.toNat ≤ 8 then s
    else { s with mgmt := { s.mgmt with linkErrs := s.mgmt.linkErrs + 1 } })) ∧
  (∀ s, s.running = true → TimeSource s → s.mgmt.timeSent = false → exec .timeFlitSend s =
    .next { s with mgmt := { s.mgmt with sent := s.mgmt.sent ++ [.time s.time], timeSent := true } }) ∧
  (∀ s, s.running = false ∨ ¬ TimeSource s ∨ s.mgmt.timeSent = true → exec .timeFlitSend s = .next s) ∧
  (∀ s time delay, s.running = true → ¬ TimeSource s → let gap : Int := (time + delay : Nat) - s.time
    ∃ t, exec (.timeFlitReceive time delay) s = .next t ∧ { t with timeBase := s.timeBase, slew := s.slew, slewAt := s.slewAt } = s ∧ t.time = s.time ∧
      ∀ n, t.timeAt (s.clk + n) ≤ t.timeAt (s.clk + n + 1) ∧ |27000 * ((t.timeAt (s.clk + n) : Int) - s.time) - 10000 * n| ≤ n + 27000 ∧
        (27000 * |gap| ≤ n → |27000 * ((t.timeAt (s.clk + n) : Int) - s.time - gap) - 10000 * n| ≤ 27000)) ∧
  (∀ s time delay, TimeSource s → exec (.timeFlitReceive time delay) s = .next s) ∧
  (∀ s r, let rz := r.base + s.podIndex % r.slots * r.width
    let good := 1 ≤ r.slots ∧ r.slots ≤ 1024 ∧ 1 ≤ r.width ∧ r.width ≤ 1000000 ∧ s.mgmt.ratEpoch.toNat < r.epoch ∧ rz ≤ s.time + 100000000
    (good → s.time < rz → exec (.ratlineFlit r) s = .next { s with mgmt := { s.mgmt with ratEpoch := BitVec.ofNat 32 r.epoch, ratHold := some rz } }) ∧
    (good → rz ≤ s.time → s.mgmt.ratHold = none → exec (.ratlineFlit r) s = .next { s with mgmt := { s.mgmt with ratEpoch := BitVec.ofNat 32 r.epoch } }) ∧
    (¬ good → ∃ t, exec (.ratlineFlit r) s = .next t ∧ Logged s 9 0 t)) ∧
  (∀ s rz, s.mgmt.ratHold = some rz → (rz : Int) - s.timeBase < 2 ^ 77 → ∃ t, exec .ratlineHoldEnd s = .next t ∧ t.mgmt.ratHold = none ∧ rz ≤ t.time) ∧
  (∀ s, s.mgmt.ratHold = none → exec .ratlineHoldEnd s = .next s)

/-- R521, R529: a peer's access at its home, the answers to this device's own accesses, and the shards of a checkpoint. Choices of the model: which addresses exist (log 18), a peer's atomic is one step at its home (log 38), how a shard is laid out (log 94). -/
def Obligations.DeviceAccesses : Prop :=
  (∀ s r, physLimit ≤ r.pa → (∀ id, r.op ≠ .withdraw id) → ∃ t, exec (.access r) s = .next t ∧ Sends s (.response r.dev r.id .noPage) t) ∧
  (∀ s r, r.pa < physLimit → r.pa / 32 ∈ s.mem.lost → (∀ id, r.op ≠ .withdraw id) → ∃ t, exec (.access r) s = .next t ∧ Sends s (.response r.dev r.id .lost) t) ∧
  (∀ s r len, r.pa < physLimit → r.pa / 32 ∉ s.mem.lost → r.op = .read len → ∃ t full bad, exec (.access r) s = .next t ∧
    Sends s (.response r.dev r.id (.data (((s.mem.stored (r.pa / 32)).drop (r.pa % 32)).take len) full bad)) t ∧
    (∀ i < 4, full.getLsbD i = true ↔ 4 * (r.pa / 32) + i ∈ s.mem.full) ∧ ∀ i < 8, bad.getLsbD i = true ↔ 8 * (r.pa / 32) + i ∈ s.mem.poison) ∧
  (∀ s r data full bad, r.pa < physLimit → r.pa / 32 ∉ s.mem.lost → r.op = .write data (some full) bad → r.pa % 32 = 0 → data.length = 32 → NoFeWaiters s →
    ∃ t, exec (.access r) s = .next t ∧ t.mgmt.sent = s.mgmt.sent ++ [.response r.dev r.id .done] ∧ t.mem.stored (r.pa / 32) = data ∧
      (∀ sec, sec ≠ r.pa / 32 → t.mem.stored sec = s.mem.stored sec) ∧ (∀ i < 4, 4 * (r.pa / 32) + i ∈ t.mem.full ↔ full.getLsbD i = true) ∧
      ∀ i < 8, 8 * (r.pa / 32) + i ∈ t.mem.poison ↔ bad.getLsbD i = true) ∧
  (∀ s r id, r.op = .withdraw id → (∀ p ∈ s.mgmt.peerWaits, p.req.dev ≠ r.dev ∨ p.req.id ≠ id) →
    ∃ t, exec (.access r) s = .next t ∧ Sends s (.response r.dev r.id .done) t) ∧
  (∀ s r st opn sg plain, r.pa < physLimit → r.pa / 32 ∉ s.mem.lost → r.op = .step st → st.kind = .atom opn sg → opn < 8 → NoFeWaiters s →
    let o := Mask.lowest st.bytes
    let n := Mask.count st.bytes
    let sl : Seal := { key := (s.slot st.slot).key, unit := st.unit }
    let at_ := r.pa / 32 * 32 + o
    n = 4 ∨ n = 8 → o % n = 0 → o + n ≤ 32 → (∀ w ∈ wordsOf at_ n, w ∉ s.mem.poison) → plain.length = 32 →
    st.data = xtsEncrypt sl.key.bits sl.unit plain → ∃ t, exec (.access r) s = .next t ∧
      t.mgmt.sent = s.mgmt.sent ++ [.response r.dev r.id (sectorAnswer s.mem (r.pa / 32))] ∧
      t.mem.bytes at_ n sl = bytesOfNat n (atomNew opn n sg (natOfBytes (s.mem.bytes at_ n sl)) (natOfBytes ((plain.drop o).take n))) ∧
      ∀ sec, sec ≠ r.pa / 32 → t.mem.stored sec = s.mem.stored sec) ∧
  (∀ s id a, (∀ o ∈ s.mgmt.outAccess, o.id ≠ id) → exec (.response id a) s = .next s ∧ exec (.responseTimeout id) s = .next s) ∧
  (∀ s o a, s.outAccess? o.id = some o → (o.owner = .nobody → exec (.response o.id a) s = .next (s.answered o.id)) ∧
    (∀ n, o.owner = .copy n → exec (.response o.id a) s = .next { s.answered o.id with
      copies := amod n (fun c => { c with remote := settleAnswer o.id (some a) c.remote }) s.copies }) ∧
    (∀ r x c, o.owner = .entry r → s.issueOf r = some x → x.e.st = .fetch → x.g.place = .resident c →
      x.e.remote = [{ id := o.id, dev := o.dev, pa := o.pa, answer := none, bad := false }] → ∃ t, exec (.response o.id a) s = .next t ∧
        EntryBecomes (s.answered o.id) x x.w { x.e with st := .ready, remote := [{ id := o.id, dev := o.dev, pa := o.pa, answer := some a, bad := false }] } t)) ∧
  (∀ s o, s.outAccess? o.id = some o → o.owner = .nobody → o.waiting = false → s.clk ≤ o.sentAt + 27000000 → ∃ t, exec (.responseTimeout o.id) s = .next t ∧
    t.clk = o.sentAt + 27000000 ∧ t.mgmt = { (s.answered o.id).mgmt with linkErrs := s.mgmt.linkErrs + 1 } ∧ t.mem = s.mem ∧ t.groups = s.groups) ∧
  (∀ s o n, s.outAccess? o.id = some o → o.owner = .copy n → o.stores = false → o.waiting = false → s.clk ≤ o.sentAt + 27000000 →
    ∃ t, exec (.responseTimeout o.id) s = .next t ∧ t.clk = o.sentAt + 27000000 ∧ t.mgmt = (s.answered o.id).mgmt ∧ t.mem = s.mem ∧
      t.copies = amod n (fun c => { c with remote := settleAnswer o.id none c.remote }) s.copies) ∧
  (∀ s o, s.outAccess? o.id = some o → o.waiting = true → exec (.responseTimeout o.id) s = .next s) ∧
  (∀ s sh, sh.data.length = 32 → sh.off % 32 = 0 → sh.off < shardLen → sh.row < 12288 → ∃ p, exec (.shard sh) s = .next { s with mgmt := { s.mgmt with parity := p } } ∧
    ∀ k, sget (List.replicate 32 0) p k = if k = 2 ^ 22 * sh.row + sh.off / 32
      then List.zipWith (fun a b => a ^^^ b) (sget (List.replicate 32 0) s.mgmt.parity k) sh.data else sget (List.replicate 32 0) s.mgmt.parity k)

/-- R525 to R528: a node adds its last child's contribution and passes the sum on; the final value is written; stale keys and lost peers
fail the job, and so does a tag that does not verify. Choices of the model: the nonce and the additional data of a tag (log 15), details of failures (log 62), up to 18 children (log 61). -/
def Obligations.Reductions : Prop :=
  (∀ s j c k bs text, PlainJob s j → j.state = 0 → j.got = [] → let d := jobDesc j.desc
    d.children = [c.child] → d.parent ≠ 0xFFFF → d.count = 1 → c.job = j.id → aget s.mgmt.fabKeys d.tenant = some k →
    (c.kgen = k.gen ∨ ∃ p, k.prev = some p ∧ p.1 = c.kgen) → c.fail = 0 → s.opened d.tenant c = some text → text.length = d.size →
    s.record (Party.ofCtx d.ctx) d.src d.size = .ok bs →
    ∃ t f, exec (.reduceContribution c) s = .next t ∧ t.mgmt.sent = s.mgmt.sent ++ [.contribution d.parent f] ∧ f.job = d.id ∧ f.child = s.podIndex ∧
      f.kgen = k.gen ∧ f.fail = 0 ∧ gcmOpen k.key (sealIv s.podIndex d.id k.gen) (sealAad d.id 0) f.data f.tag = some (bytesOfNat d.size
        (if d.op = 0 then (BitVec.ofNat 64 (faddOf 0 (fmtOf .f32) (natOfBytes bs % 2 ^ 32) (natOfBytes text % 2 ^ 32)).bits).toNat
        else natOfBytes bs + natOfBytes text)) ∧
      t.job? j.id = some { j with state := 1 }) ∧
  (∀ s j c k u text, PlainJob s j → j.state = 1 → let d := jobDesc j.desc
    c.child ∉ d.children → d.count = 1 → c.job = j.id → aget s.mgmt.fabKeys d.tenant = some k → c.kgen = k.gen → c.fail = 0 →
    s.opened d.tenant c = some text → text.length = d.size → s.putRecord (Party.ofCtx d.ctx) d.dst text = some u →
    ∃ t, exec (.reduceContribution c) s = .next t ∧ t.mem = u.mem ∧ t.job? j.id = some { j with state := 2, got := [], held := [] }) ∧
  (∀ s j c k, PlainJob s j → j.state = 0 → j.got = [] → let d := jobDesc j.desc
    c.child ∈ d.children → c.job = j.id → aget s.mgmt.fabKeys d.tenant = some k → c.kgen = k.gen → s.opened d.tenant c = none →
    ∃ t, exec (.reduceContribution c) s = .next t ∧ JobFails s j 2 t) ∧
  (∀ s j c k, PlainJob s j → j.state = 0 → j.got = [] → let d := jobDesc j.desc
    c.child ∈ d.children → c.job = j.id → aget s.mgmt.fabKeys d.tenant = some k → c.kgen < k.gen → (∀ p, k.prev = some p → p.1 ≠ c.kgen) →
    ∃ t, exec (.reduceContribution c) s = .next t ∧ JobFails s j 1 t) ∧
  (∀ s j c k, PlainJob s j → j.state = 0 → j.got = [] → let d := jobDesc j.desc
    c.child ∈ d.children → c.job = j.id → aget s.mgmt.fabKeys d.tenant = some k → k.gen < c.kgen → (∀ p, k.prev = some p → p.1 ≠ c.kgen) →
    ∃ t, exec (.reduceContribution c) s = .next t ∧ t.mgmt.sent = s.mgmt.sent ∧ t.job? j.id = some { j with held := j.held ++ [(s.clk, c)] }) ∧
  (∀ s j n c, PlainJob s j → j.held = [(n, c)] → c.child ∈ (jobDesc j.desc).children → ∃ t, exec (.keygenHoldTimeout j.id c.child) s = .next t ∧
    JobFails s j 1 t ∧ t.clk = max s.clk (n + 2700000)) ∧
  (∀ s dev, s.mgmt.jobs = [] → exec (.peerLost dev) s = .next { s with mgmt := { s.mgmt with dead := sins dev s.mgmt.dead } }) ∧
  (∀ s dev j, PlainJob s j → s.mgmt.jobs = [j] → j.state ≠ 2 → ((jobDesc j.desc).parent = dev ∨ dev ∈ (jobDesc j.desc).children) →
    ∃ t, exec (.peerLost dev) s = .next t ∧ JobFails s j 3 t ∧ t.mgmt.dead = sins dev s.mgmt.dead)

/-! ## The host's pages (03, 10, 15) -/

/-- R103, R104, R106, R108, R343, R540: host accesses through BAR4 and the register pages. Choices of the model: BAR4 has no key (log 9). -/
def Obligations.HostAccess : Prop :=
  (∀ s func off size pa va key fe, BarReaches s func .r off size (.dev pa va key fe) → pa / 32 ∉ s.mem.lost →
    exec (.bar4Read func off size) s = .next { s with host := { s.host with
      readData := s.host.readData ++ [((s.mem.stored (pa / 32)).drop (pa % 32)).take size] } }) ∧
  (∀ s func off data pa va key fe, BarReaches s func .w off data.length (.dev pa va key fe) → pa % 32 + data.length ≤ 32 →
    pa / 32 ∉ s.mem.lost ∨ data.length = 32 → ∃ t, exec (.bar4Write func off data) s = .next t ∧ { t with mem := s.mem } = s ∧
      t.mem.stored (pa / 32) = (s.mem.stored (pa / 32)).take (pa % 32) ++ data ++ (s.mem.stored (pa / 32)).drop (pa % 32 + data.length) ∧
      (∀ sec, sec ≠ pa / 32 → t.mem.stored sec = s.mem.stored sec) ∧ t.mem.full = s.mem.full ∧
      (∀ w, w ∈ t.mem.poison ↔ w ∈ s.mem.poison ∧ ¬ (pa ≤ 4 * w ∧ 4 * w + 4 ≤ pa + data.length)) ∧
      ∀ sec, sec ∈ t.mem.lost ↔ sec ∈ s.mem.lost ∧ ¬ (sec = pa / 32 ∧ data.length = 32)) ∧
  (∀ s func off size, BarDenied s func .r off size → ∃ t, exec (.bar4Read func off size) s = .next t ∧
    Logged { s with host := { s.host with readData := s.host.readData ++ [List.replicate size 0] } } 8 func t) ∧
  (∀ s func off data, BarDenied s func .w off data.length → ∃ t, exec (.bar4Write func off data) s = .next t ∧ Logged s 8 func t) ∧
  (∀ s w, exec (.hostAccessFail w) s = .next { s with host := { s.host with failing := some w } }) ∧
  (∀ s v rest, s.host.vlog = v :: rest → v.source < 256 → v.func < 256 → v.bar < 256 → v.dir < 256 → v.ctx < 65536 → v.clk < 2 ^ 64 →
    ∃ bs, exec (.violationLogRead 0 0x100 32) s = .next { s with host := { s.host with readData := s.host.readData ++ [bs], vlog := rest } } ∧
      bs.length = 32 ∧ fieldAt bs 0 1 = v.source ∧ fieldAt bs 1 1 = v.func ∧ fieldAt bs 2 1 = v.bar ∧ fieldAt bs 3 1 = v.dir ∧ fieldAt bs 4 2 = v.ctx ∧
      fieldAt bs 8 8 = v.addr.toNat ∧ fieldAt bs 0x10 8 = v.clk ∧ fieldAt bs 0x18 8 = v.detail.toNat) ∧
  (∀ s off size, off < 0x120 → 0x118 < off + size → ∃ bs, bs.length = size ∧ exec (.violationLogRead 0 off size) s =
    .next { s with host := { s.host with readData := s.host.readData ++ [bs], vlog := s.host.vlog.drop 1 } }) ∧
  (∀ s off size, off + size ≤ 0x118 → ∃ bs, bs.length = size ∧
    exec (.violationLogRead 0 off size) s = .next { s with host := { s.host with readData := s.host.readData ++ [bs] } }) ∧
  (∀ s func off size, func ≠ 0 → off < 0x1000 → size ∈ [1, 2, 4, 8] → off % size = 0 → ∃ t, exec (.violationLogRead func off size) s = .next t ∧
    Logged { s with host := { s.host with readData := s.host.readData ++ [List.replicate size 0] } } 1 func t) ∧
  (∀ s func off size, size ∈ [1, 2, 4, 8] → off % size = 0 → func ≠ 0 → 0x3000 ≤ off ∧ off < 0x10000 ∨ 0x20000 ≤ off →
    Logged { s with host := { s.host with readData := s.host.readData ++ [List.replicate size 0] } } 1 func (regRead s func off size)) ∧
  (∀ s, regRead s 0 0x300000 8 = { s with host := { s.host with readData := s.host.readData ++ [bytesOfNat 8 s.host.ctxtBase.toNat] } }) ∧
  (∀ s q, q < 4096 → regRead s 0 (0x100000 + 64 * q) 8 =
    { s with host := { s.host with readData := s.host.readData ++ [bytesOfNat 8 (s.queue q).qbase.toNat] } }) ∧
  (∀ s t, t < 256 → regRead s 0 (0x202000 + 32 * t) 8 =
    { s with host := { s.host with readData := s.host.readData ++ [bytesOfNat 8 (sget 0 s.market.purses t).toNat] } }) ∧
  (∀ s func off size v, size ∈ [1, 2, 4, 8] → off % size = 0 → func ≠ 0 → 0x3000 ≤ off ∧ off < 0x10000 ∨ 0x20000 ≤ off →
    ∃ t, exec (.registerWrite func off size v) s = .next t ∧ Logged s 1 func t) ∧
  (∀ s func off size v, (size ∉ [1, 2, 4, 8] ∨ off % size ≠ 0 ∨ off < 0x1000) → exec (.registerWrite func off size v) s = .next s) ∧
  (∀ s off size v, off < 0x1000000 → (∀ p ∈ privatePages, off < p.1 ∨ p.1 + p.2 ≤ off) → exec (.registerWrite 0 off size v) s = .next s) ∧
  (∀ s v, exec (.registerWrite 0 0x300000 8 v) s = .next { s with host := { s.host with ctxtBase := v } }) ∧
  (∀ s f v, f < 256 → exec (.registerWrite 0 (0x302000 + 8 * f) 8 v) s =
    .next { s with host := { s.host with bar4 := sput 0 f (v.toNat % 2048) s.host.bar4 } }) ∧
  (∀ s t v, t < 256 → exec (.registerWrite 0 (0x202000 + 32 * t) 8 v) s =
    .next { s with market := { s.market with purses := sput 0 t v s.market.purses } }) ∧
  (∀ s v, exec (.registerWrite 0 0x600000 8 v) s = .next { s with host := { s.host with vlost := s.host.vlost &&& ~~~ hi32 v } }) ∧
  (∀ s v, exec (.registerWrite 0 0x500000 8 v) s = .next { s with mgmt := { s.mgmt with
    fsen := v.getLsbD 0, bsen := v.getLsbD 1, fstep := BitVec.ofNat 16 (min 150 (max 25 (v.toNat / 2 ^ 32 % 65536)))
    bsstep := BitVec.ofNat 16 (min 150 (max 25 (v.toNat / 2 ^ 48))) } })

/-- R106, R343, R344, R510, R511, R514, R516: the key slot control page and the scrub and teardown page. Choices of the model: the scope slot a new context takes (log 24), a refused ENABLE of a blocked context has SOURCE 4 (log 48). -/
def Obligations.KeyAndTeardownPages : Prop :=
  (∀ s func slot off size ctx v i, PageEvent func slot off size ctx v i → func ≠ 0 → ∃ t, exec i s = .next t ∧ Logged s 1 func t) ∧
  (∀ s v, exec (.tlbinv 0 v) s = .next { s with host := { s.host with tlbBusy := s.host.tlbBusy ++ [(v &&& 0xFFF) ||| s.host.tlbVa] } }) ∧
  (∀ s v rest, s.host.tlbBusy = v :: rest → let of := fun c => v.getLsbD 10 = true ∨ v.toNat % 1024 = c
    ∃ t, exec .tlbInvalidateDone s = .next t ∧ { t with host := s.host, l2 := { t.l2 with tlb := s.l2.tlb } } = s ∧
      (∀ e, e ∈ t.l2.tlb ↔ e ∈ s.l2.tlb ∧ ¬ (of e.1 ∧ (v.getLsbD 11 = true ∨ e.2 = v.toNat / 2 ^ 16 * 2 ^ 16 ∨ e.2 = v.toNat / 2 ^ 26 * 2 ^ 26))) ∧
      ((∃ a ∈ s.mgmt.outAccess, of a.ctx) → t.host = s.host) ∧
      ((∀ a ∈ s.mgmt.outAccess, ¬ of a.ctx) → t.host = { s.host with tlbBusy := rest })) ∧
  (∀ s, s.host.tlbBusy = [] → exec .tlbInvalidateDone s = .next s) ∧
  (∀ s off size v, exec (.kstatWrite 0 0 off size v) s = .next s ∧ exec (.kmatWrite 0 0 off size v) s = .next s) ∧
  (∀ s n v, 1 ≤ n → n < 512 → (s.slot n).owner ∈ s.mgmt.tdblk → ∃ t, exec (.kstatWrite 0 n 0 8 v) s = .next t ∧ Logged s 4 0 t) ∧
  (∀ s n v, 1 ≤ n → n < 512 → (s.slot n).owner ∉ s.mgmt.tdblk → ∃ t, exec (.kstatWrite 0 n 0 8 v) s = .next t ∧
    SlotSet s n { s.slot n with assigned := v.getLsbD 0, owner := v.toNat / 2 % 1024 } t) ∧
  (∀ s n i v, 1 ≤ n → n < 512 → i < 8 → ∃ t k, exec (.kmatWrite 0 n (8 * i) 8 v) s = .next t ∧ SlotSet s n k t ∧
    k.assigned = (s.slot n).assigned ∧ k.owner = (s.slot n).owner ∧ k.isLoaded = ((s.slot n).isLoaded || decide (i = 7)) ∧
    ∀ j < 8, k.key.bits.extractLsb' (64 * j) 64 = if j = i then v else (s.slot n).key.bits.extractLsb' (64 * j) 64) ∧
  (∀ s v, v.getLsbD 11 = false → exec (.scrubcmd 0 v) s = .next s) ∧
  (∀ s v, v.getLsbD 11 = true → let c := v.toNat % 1024
    let done := fun (u : State) (n : W64) => { u with mgmt := { u.mgmt with tdStat := (s.mgmt.tdStat &&& ~~~(0xF0 : W64)) ||| n <<< 4 } }
    (s.mgmt.scrubBusy = true → exec (.scrubcmd 0 v) s = .next (done s (if s.mgmt.scrubCtx = c then 4 else 1))) ∧
    (s.mgmt.scrubBusy = false → (c = 0 ∨ c ∉ s.mgmt.tdblk) → exec (.scrubcmd 0 v) s = .next (done s 2)) ∧
    (s.mgmt.scrubBusy = false → c ≠ 0 → c ∈ s.mgmt.tdblk → s.ctxQuiet c = false → exec (.scrubcmd 0 v) s = .next (done s 3)) ∧
    (s.mgmt.scrubBusy = false → c ≠ 0 → c ∈ s.mgmt.tdblk → s.ctxQuiet c = true → exec (.scrubcmd 0 v) s = .next (done { s with mgmt := { s.mgmt with
      scrubCtx := c, scrubTags := v.getLsbD 10, scrubRestarted := false, scrubBusy := true, scrubPhase := 1, scrubUnits := 0, scrubTotal := 240 } } 0))) ∧
  (∀ s c, s.mgmt.ctxBusy ≠ none → exec (.create 0 c) s = .next s ∧ exec (.reset 0 c) s = .next s) ∧
  (∀ s c, c < 1024 → s.mgmt.ctxBusy = none → c ∈ s.mgmt.tdblk → exec (.reset 0 c) s = .next (ctxFinished s 0 true) ∧
    ∃ t, exec (.create 0 c) s = .next t ∧ Logged (ctxFinished s 0 true) 4 0 t) ∧
  (∀ s c, c < 1024 → s.mgmt.ctxBusy = none → c ∉ s.mgmt.tdblk → ((∃ p ∈ s.scopesInUse, p.2.ctx = c) ∨ s.freeScope = none) →
    exec (.create 0 c) s = .next (ctxFinished s 0 true)) ∧
  (∀ s c n, c < 1024 → s.mgmt.ctxBusy = none → c ∉ s.mgmt.tdblk → (∀ p ∈ s.scopesInUse, p.2.ctx ≠ c) → s.freeScope = some n →
    ∃ t, exec (.create 0 c) s = .next t ∧ t.mgmt = { (ctxFinished s (scopeHandle n (nextGen (s.scopeSlot n).gen)) false).mgmt with policyHold := t.mgmt.policyHold } ∧
      c ∉ t.mgmt.policyHold ∧ t.mem = s.mem ∧ (∀ k < 16, sget 0 t.market.counters (16 * c + k) = 0) ∧
      ∀ k, t.scopeSlot k = if k = n then { gen := nextGen (s.scopeSlot n).gen, st := .live, ctx := c, depth := 1, parent := 0, auto := false
                                           pkt := false, cut := false } else s.scopeSlot k) ∧
  (∀ s c, c < 1024 → s.mgmt.ctxBusy = none → s.rootOf c = none → exec (.reset 0 c) s = .next (ctxFinished s 0 true)) ∧
  (∀ s c root, c < 1024 → s.mgmt.ctxBusy = none → c ∉ s.mgmt.tdblk → s.rootOf c = some root → s.scopeAt root ≠ none →
    ∃ t, exec (.reset 0 c) s = .next t ∧
    t.mgmt.ctxBusy = some c ∧ t.mgmt.ctxLast = 0 ∧ t.ctxGen c = nextGen (s.ctxGen c) ∧ t.keys = s.keys ∧ t.scopeDead root = true) ∧
  (∀ s c, s.mgmt.ctxBusy ≠ some c → exec (.ctxResetReroot c) s = .next s) ∧
  (∀ s c root, s.mgmt.ctxBusy = some c → s.rootOf c = some root → s.scopeDead root = true → s.quiet root = true → s.subtree root = [root] →
    (∀ a ∈ s.acks, a.scope ≠ root) → ∃ t, exec (.ctxResetReroot c) s = .next t ∧ t.mgmt.ctxBusy = none ∧
      t.scopeSlot (scopeNum root) = { gen := nextGen (s.scopeSlot (scopeNum root)).gen, st := .live, ctx := c, depth := 1, parent := 0, auto := false
                                      pkt := false, cut := false } ∧
      t.mgmt.ctxLast = (ctxFinished s (scopeHandle (scopeNum root) (nextGen (s.scopeSlot (scopeNum root)).gen)) false).mgmt.ctxLast) ∧
  (∀ s size v, size ≠ 8 → exec (.tdcancel 0 size v) s = .next s) ∧
  (∀ s v, s.scopeAt (lo32 v) = none → exec (.tdcancel 0 8 v) s =
    .next { s with mgmt := { s.mgmt with tdStat := (s.mgmt.tdStat &&& ~~~(0xF : W64)) ||| 1 } }) ∧
  (∀ s v k, s.scopeAt (lo32 v) = some k → k.st = .live → v.getLsbD 32 = false → ∃ t, exec (.tdcancel 0 8 v) s = .next t ∧
    (∀ h ∈ s.subtree (lo32 v), t.scopeDead h = true) ∧ t.mgmt.tdStat = s.mgmt.tdStat &&& ~~~(0xF : W64) ∧ t.acks = s.acks)

/-! ## The device (14, 16) -/

/-- R471, R473, R474, R477, R481, R482, R517, R533: what power windows, errors, self-tests, power gates and resets do. Choices of the model: the power drawn (log 66), spares (log 75), what a reset keeps (log 67), the context of a memory error (log 90). -/
def Obligations.DeviceEvents : Prop :=
  (∀ s watts luff, ∃ t p, exec (.powerWindow watts luff) s = .next t ∧
    t = { s with mgmt := { s.mgmt with pwrnow := p, luffe := s.mgmt.luffe + BitVec.ofNat 64 luff, placeBudget := t.mgmt.placeBudget } } ∧
    (s.mgmt.thermal = false → s.mgmt.fsen = true → p.toNat ≤ s.mgmt.pwrnow.toNat + s.mgmt.fstep.toNat) ∧
    (s.mgmt.thermal = false → s.mgmt.bsen = true →
      min s.mgmt.pwrnow.toNat (max s.mgmt.bsfloor.toNat (s.mgmt.pwrnow.toNat - s.mgmt.bsstep.toNat)) ≤ p.toNat) ∧
    (watts < 65536 → s.mgmt.thermal = true ∨ (s.mgmt.fsen = false ∧ s.mgmt.bsen = false) → p.toNat = watts)) ∧
  (∀ s on, ∃ t, exec (.thermalTrip on) s = .next t ∧ t.mgmt.thermal = on ∧ { t with mgmt := s.mgmt } = s) ∧
  (∀ s core, core < 240 → exec (.corePowerGate core) s = .next { s with mgmt := { s.mgmt with gated := sins core s.mgmt.gated } }) ∧
  (∀ s core, core ∉ s.mgmt.gated → exec (.coreWake core) s = .next s) ∧
  (∀ s core, core ∈ s.mgmt.gated → (∀ g ∈ s.groups, g.2.place ≠ .resident core) →
    exec (.coreWake core) s = .next { s with mgmt := { s.mgmt with gated := sdel core s.mgmt.gated } }) ∧
  (∀ s e, e.corrected = true → ∃ t, exec (.eccError e) s = .next t ∧ ErrorLogged s 1 (unitLocation e.unit) t ∧ e.unit ∈ t.mgmt.fenced ∧
    t.mem = s.mem) ∧
  (∀ s u pa, ∃ t, exec (.eccError { unit := u, word := .memory pa, corrected := false }) s = .next t ∧ ErrorLogged s 2 (unitLocation u) t ∧
    u ∈ t.mgmt.fenced ∧ { t.mem with poison := s.mem.poison } = s.mem ∧ (∀ w, w ∈ t.mem.poison ↔ w = pa / 4 ∨ w ∈ s.mem.poison) ∧
    ∃ e, t.mgmt.errlog.getLast? = some e ∧ ∀ sl p, sget none s.mem.seals (pa / 32) = some sl →
      (s.keys.find? fun k => k.2.assigned && decide (k.2.key = sl.key)) = some p → e.ctx = p.2.owner) ∧
  (∀ s u gid wi reg lane g w, s.group? gid = some g → g.waves[wi]? = some w → reg < 2048 → unitCore u = none →
    ∃ t w', exec (.eccError { unit := u, word := .vector gid wi reg lane, corrected := false }) s = .next t ∧ t.wave? gid wi = some w' ∧
      { w' with poison := w.poison } = w ∧ ∀ k, k ∈ w'.poison ↔ k = regKey reg lane ∨ k ∈ w.poison) ∧
  (∀ s u passed spare, u ∉ s.mgmt.fenced → exec (.selfTestDone u passed spare) s = .next s) ∧
  (∀ s u spare, u ∈ s.mgmt.fenced → (∀ core, unitCore u = some core → s.groupsOn core = []) → ∃ t, exec (.selfTestDone u true spare) s = .next t ∧
    ErrorLogged s 3 (unitLocation u) t ∧ u ∉ t.mgmt.fenced ∧ { t with mgmt := s.mgmt } = s) ∧
  (∀ s core part spare, UnitLoc.laneSlice core part ∈ s.mgmt.fenced → s.groupsOn core = [] →
    ∃ t, exec (.selfTestDone (.laneSlice core part) false spare) s = .next t ∧
      (spare = true → ErrorLogged s 4 (unitLocation (.laneSlice core part)) t ∧ UnitLoc.laneSlice core part ∉ t.mgmt.fenced) ∧
      (spare = false → (0, core / 4, 0) ∈ t.mgmt.outNext ∧ t.mgmt.evcnt = s.mgmt.evcnt + 1)) ∧
  (∀ s pa, UnitLoc.hbmRow pa ∈ s.mgmt.fenced → ∃ t, exec (.selfTestDone (.hbmRow pa) false false) s = .next t ∧
    ∀ sec, sec ∈ t.mem.lost ↔ sec ∈ s.mem.lost ∨ 32 * sec / 8192 = pa / 8192) ∧
  (∀ s, s.mgmt.holdoff = none → exec .eventMessageHoldoff s = .next s) ∧
  (∀ s due, s.mgmt.holdoff = some due → s.clk < due → exec .eventMessageHoldoff s = .next s) ∧
  (∀ s due, s.mgmt.holdoff = some due → due ≤ s.clk → s.mgmt.evPending = false →
    exec .eventMessageHoldoff s = .next { s with mgmt := { s.mgmt with holdoff := none } }) ∧
  (∀ s due, s.mgmt.holdoff = some due → due ≤ s.clk → s.mgmt.evPending = true → s.mgmt.mbEn = true →
    exec .eventMessageHoldoff s = .next { s with mgmt := { s.mgmt with
      holdoff := some (s.clk + 270000), evPending := false, sent := s.mgmt.sent ++ [.msix 0 s.mgmt.mbVec.toNat] } }) ∧
  (∀ s, ∃ t, exec .powerOn s = .next t ∧ t.groups = [] ∧ t.queues = [] ∧ t.scopes = [] ∧ t.keys = [] ∧ t.mem = State.reset.mem ∧
    t.market = State.reset.market ∧ t.mgmt.boot = .rom ∧ t.mgmt.errlog = [] ∧ t.mgmt.tdblk = [] ∧ t.clk = State.reset.clk ∧ t.host.cells = s.host.cells) ∧
  (∀ s, ∃ t, exec .deviceReset s = .next t ∧ t.groups = [] ∧ t.launches = [] ∧ t.tasks = [] ∧ t.queues = [] ∧ t.scopes = [] ∧ t.copies = [] ∧
    t.l2 = State.reset.l2 ∧ t.mem = (s.l2.lines.foldl (fun m l => l.dirty.foldl Mem.revert m) s.mem) ∧ t.market = State.reset.market ∧ t.mgmt.boot = .rom ∧ t.mgmt.tdblk = s.mgmt.tdblk ∧ t.mgmt.images = [] ∧ t.mgmt.faultList = [] ∧
    t.mgmt.policyHold = [] ∧ t.mgmt.stallNs = [] ∧ t.mgmt.podidx = none ∧ t.mgmt.errlog = s.mgmt.errlog ∧ t.mgmt.evcnt = s.mgmt.evcnt ∧
    t.mgmt.scrubBusy = s.mgmt.scrubBusy ∧ t.mgmt.scrubPhase = s.mgmt.scrubPhase ∧ t.mgmt.scrubCtx = s.mgmt.scrubCtx ∧ t.host.ctxtBase = s.host.ctxtBase ∧
    t.host.bar4 = [] ∧ (∀ c < 1024, t.ctxGen c = nextGen (s.ctxGen c)) ∧
    (∀ n, n ≠ 0 → t.slot n = { KeySlot.start with owner := (s.slot n).owner }))

/-! ## The mailbox (16) -/

/-- R444, R468, R523, R524, R526, R535, R542: the mailbox, and the commands that set policy, stall times, keys, RATLINEs and the pod index. Choices of the model: what the boot ROM answers (log 63), a RATLINE out of limits (log 59). -/
def Obligations.MailboxCommands : Prop :=
  (∀ s func a i code op, MailForm func a i code op → ¬ Carries s a code op → exec i s = .next s) ∧
  (∀ s func a i code op, MailForm func a i code op → Carries s a code op → func ≠ 0 → ∃ t, exec i s = .next t ∧ Logged s 1 func t) ∧
  (∀ s a i code op, MailForm 0 a i code op → Carries s a code op →
    (s.mgmt.mbBusy = true → exec i s = .next s) ∧
    (s.mgmt.mbBusy = false → a.toNat % 64 ≠ 0 → exec i s = .next (mailStatus s 2 0)) ∧
    (s.mgmt.mbBusy = false → a.toNat % 64 = 0 → s.host.failing ≠ some false →
      ((s.hostBytes a.toNat 64).drop 1).take 7 ≠ List.replicate 7 0 → exec i s = .next (mailStatus s 2 code)) ∧
    (s.mgmt.mbBusy = false → a.toNat % 64 = 0 → s.host.failing ≠ some false →
      ((s.hostBytes a.toNat 64).drop 1).take 7 = List.replicate 7 0 → s.running = false → code ≠ 0 → exec i s = .next (mailStatus s 1 code))) ∧
  (∀ s a b, MailReady s a 2 b → let c := fieldAt b 8 2
    let p := fieldAt b 0xA 1
    (1024 ≤ c ∨ 1 < p → exec (.policy 0 a) s = .next (mailStatus s 2 2)) ∧
    (c < 1024 → p ≤ 1 → ∃ t, exec (.policy 0 a) s = .next t ∧
      MailAnswers { s with mgmt := { s.mgmt with policyHold := if p = 1 then sins c s.mgmt.policyHold else sdel c s.mgmt.policyHold } } a 2 b
        [(0xB, 1, if c ∈ s.mgmt.policyHold then 1 else 0)] t)) ∧
  (∀ s a b, MailReady s a 7 b → let us := fieldAt b 0xC 4
    (us < 1000 ∨ 10000000 < us → exec (.stall 0 a) s = .next (mailStatus s 2 7)) ∧
    (1000 ≤ us → us ≤ 10000000 → ∃ t, exec (.stall 0 a) s = .next t ∧
      MailAnswers { s with mgmt := { s.mgmt with stallNs := aput (fieldAt b 8 1) (1000 * us) s.mgmt.stallNs } } a 7 b
        [(0x10, 4, (aget s.mgmt.stallNs (fieldAt b 8 1)).getD 100000000 / 1000)] t)) ∧
  (∀ s a b, MailReady s a 10 b → let tenant := fieldAt b 8 1
    let gen := fieldAt b 0xA 2
    let key := BitVec.ofNat 256 (fieldAt b 0x10 32)
    (∀ k, aget s.mgmt.fabKeys tenant = some k → gen ≠ k.gen + 1 → ∃ t, exec (.keygen 0 a) s = .next t ∧
      t.mgmt = (mailStatus s 1 10).mgmt ∧ AnswerBlock b (t.hostBytes a.toNat 64) [(0x10, 32, 0)]) ∧
    (aget s.mgmt.fabKeys tenant = none → (∀ j ∈ s.mgmt.jobs, j.held = []) → ∃ t, exec (.keygen 0 a) s = .next t ∧
      MailAnswers { s with mgmt := { s.mgmt with fabKeys := aput tenant { gen := gen, key := key, prev := none } s.mgmt.fabKeys } } a 10 b [(0x10, 32, 0)] t) ∧
    (∀ k, aget s.mgmt.fabKeys tenant = some k → gen = k.gen + 1 → (∀ j ∈ s.mgmt.jobs, j.held = []) → ∃ t, exec (.keygen 0 a) s = .next t ∧
      MailAnswers { s with mgmt := { s.mgmt with
        fabKeys := aput tenant { gen := gen, key := key, prev := some (k.gen, k.key) } s.mgmt.fabKeys } } a 10 b [(0x10, 32, 0)] t)) ∧
  (∀ s a b, MailReady s a 11 b → let r : Ratline := { epoch := fieldAt b 8 4, base := fieldAt b 0x10 8, slots := fieldAt b 0xC 2, width := fieldAt b 0x18 4 }
    let good := 1 ≤ r.slots ∧ r.slots ≤ 1024 ∧ 1 ≤ r.width ∧ r.width ≤ 1000000
    (¬ good → exec (.ratline 0 a) s = .next (mailStatus s 2 11)) ∧
    (good → ∃ u t, exec (.ratlineFlit r) { s with mgmt := { s.mgmt with sent := s.mgmt.sent ++ [.ratline r] } } = .next u ∧
      exec (.ratline 0 a) s = .next t ∧ MailAnswers u a 11 b [] t)) ∧
  (∀ s a b, MailReady s a 14 b → let i := fieldAt b 8 2
    (1024 ≤ i → exec (.podidx 0 a) s = .next (mailStatus s 2 14)) ∧
    (i < 1024 → s.mgmt.podidx ≠ none → exec (.podidx 0 a) s = .next (mailStatus s 1 14)) ∧
    (i < 1024 → s.mgmt.podidx = none → ∃ t, exec (.podidx 0 a) s = .next t ∧
      MailAnswers { s with mgmt := { s.mgmt with podidx := some (BitVec.ofNat 10 i) } } a 14 b [(0xA, 2, 0)] t))

/-- R467 to R470, R478, R525, R529 to R531, R537 to R539: the commands for dumps, stops, checkpoints, reductions, boot, attestation and the
error log. Choices of the model: the keys, the layout of a firmware image and what is signed (log 15), STOP and RELEASE of nothing (log 64), what a snapshot
holds (log 65), how shards and their range are laid out (log 94), the ROM's answers (log 63), image numbers (log 13). -/
def Obligations.MailboxWork : Prop :=
  (∀ s a b, MailReady s a 0 b → let addr := fieldAt b 8 8
    let len := fieldAt b 0x10 8
    let image := s.hostBytes addr len
    (addr % 4096 ≠ 0 ∨ len = 0 ∨ 64 * 2 ^ 20 < len → exec (.boot 0 a) s = .next (mailStatus s 2 0)) ∧
    (addr % 4096 = 0 → 0 < len → len ≤ 64 * 2 ^ 20 →
      (s.running = true → exec (.boot 0 a) s = .next (mailStatus s 1 0)) ∧
      (s.running = false → (∀ v, vendorCheck image = some v → v.toNat < Config.fusedMinimum.toNat) →
        exec (.boot 0 a) s = .next (mailStatus s 3 0)) ∧
      (∀ v, s.running = false → s.mgmt.scrubBusy = false → vendorCheck image = some v → Config.fusedMinimum.toNat ≤ v.toNat →
        ∃ t, exec (.boot 0 a) s = .next t ∧ MailAnswers { s with
          mgmt := { s.mgmt with boot := .running v (sha512 image) }
          market := { s.market with cfgW := { s.market.cfgW with interval := 200, enable := false, migin := false }, startTime := s.time } } a 0 b [(0x18, 4, v.toNat)] t))) ∧
  (∀ s a b c, MailReady s a 1 b → c = fieldAt b 8 2 → c < 1024 → fieldAt b 0x10 8 % 64 = 0 → aget s.mgmt.faultList c = none → aget s.mgmt.faultLost c = none →
    ∃ t, exec (.faults 0 a) s = .next t ∧ t.mgmt.faultList = s.mgmt.faultList ∧ t.groups = s.groups ∧ AnswerBlock b (t.hostBytes a.toNat 64) [(0x1C, 4, 0), (0x20, 4, 0), (0x24, 4, 0)] ∧
      t.mgmt.mbStatus = 0 ∧ t.mgmt.mbCode = 1) ∧
  (∀ s a b c e, MailReady s a 1 b → c = fieldAt b 8 2 → c < 1024 → fieldAt b 0x10 8 % 64 = 0 → 0 < fieldAt b 0x18 4 →
    (a.toNat + 64 ≤ fieldAt b 0x10 8 ∨ fieldAt b 0x10 8 + 64 ≤ a.toNat) → s.mgmt.faultList = [(c, [e])] → ∃ t, exec (.faults 0 a) s = .next t ∧
      aget t.mgmt.faultList c = some (if e.kind = 1 then [e] else []) ∧ t.groups = s.groups ∧
      AnswerBlock b (t.hostBytes a.toNat 64) [(0x1C, 4, 1), (0x20, 4, 1), (0x24, 4, min ((s.mgmt.faultLost.filter fun p => decide (p.1 = c)).foldl (fun n p => n + p.2) 0) (2 ^ 32 - 1))] ∧
      let r := t.hostBytes (fieldAt b 0x10 8) 64
      fieldAt r 0 8 = e.dumpid % 2 ^ 64 ∧ fieldAt r 8 1 = e.kind % 256 ∧ fieldAt r 9 1 = e.state % 256 ∧ fieldAt r 0xA 1 = e.cause % 256 ∧
      fieldAt r 0xC 2 = e.ctx % 65536 ∧ fieldAt r 0x20 8 = e.pc.toNat ∧ fieldAt r 0x28 8 = e.value.toNat ∧ fieldAt r 0x38 8 = e.time % 2 ^ 64) ∧
  (∀ s a b, MailReady s a 3 b → (∀ p ∈ s.mgmt.faultList, ∀ e ∈ p.2, e.dumpid = fieldAt b 8 8 → e.kind ≠ 1 ∨ e.state ≠ 0) →
    exec (.discard 0 a) s = .next (mailStatus s 1 3)) ∧
  (∀ s a b e g, MailReady s a 3 b → DumpHeld s (fieldAt b 8 8) e → s.group? e.gid = some g → ∃ t v, exec (.discard 0 a) s = .next t ∧
    (∀ p ∈ t.mgmt.faultList, ∀ d ∈ p.2, d.dumpid ≠ e.dumpid) ∧ (∀ i ∈ t.mgmt.images, i.at_ ≠ e.image) ∧ t.group? e.gid = some v ∧ v.place = .ended ∧
    t.mgmt.mbStatus = 0 ∧ t.mgmt.mbCode = 3) ∧
  (∀ s a b, MailReady s a 4 b → fieldAt b 0x10 8 % 4 = 0 → (∀ p ∈ s.mgmt.faultList, ∀ e ∈ p.2, e.dumpid = fieldAt b 8 8 → e.kind ≠ 1 ∨ e.state ≠ 0) →
    exec (.resume 0 a) s = .next (mailStatus s 1 4)) ∧
  (∀ s a b e, MailReady s a 4 b → fieldAt b 0x10 8 % 4 = 0 → DumpHeld s (fieldAt b 8 8) e → resumable s e.gid = false →
    exec (.resume 0 a) s = .next (mailStatus s 1 4)) ∧
  (∀ s a b e g, MailReady s a 4 b → fieldAt b 0x10 8 = 0 → DumpHeld s (fieldAt b 8 8) e → resumable s e.gid = true → s.group? e.gid = some g →
    ∃ t v, exec (.resume 0 a) s = .next t ∧ (∀ p ∈ t.mgmt.faultList, ∀ d ∈ p.2, d.dumpid ≠ e.dumpid) ∧ t.group? e.gid = some v ∧ v.place = .saved ∧
      v.cause = none ∧ v.waves.length = g.waves.length ∧ t.mgmt.mbStatus = 0 ∧
      ∀ (wi : Nat) (w : Wave) (i : Nat) (x : Entry), g.waves[wi]? = some w → w.pend = [] → i < 8 → w.entry? i = some x → x.st = .fault →
        (∃ l r, x.mask.getLsbD l = true ∧ aget w.faults l = some r) → (∀ (l : Nat) (r : FaultRec), x.mask.getLsbD l = true → aget w.faults l = some r → r.pc = x.pc) →
        (∀ (j : Nat) (y : Entry), j ≠ i → w.entry? j = some y → y.mask &&& x.mask = 0) → (∀ q : Path, some q ∈ w.spill → q.mask &&& x.mask = 0) →
        ∃ (u : Wave) (y : Entry), v.waves[wi]? = some u ∧ u.entry? i = some y ∧ y.st = .ready ∧ y.pc = x.pc ∧ y.mask = x.mask) ∧
  (∀ s a b, MailReady s a 5 b → 1024 ≤ fieldAt b 8 2 ∨ 3 < fieldAt b 0xA 1 → exec (.stop 0 a) s = .next (mailStatus s 2 5)) ∧
  (∀ s a b, MailReady s a 5 b → fieldAt b 8 2 < 1024 → fieldAt b 0xA 1 = 0 → (∀ g ∈ s.groups, g.2.ctx ≠ fieldAt b 8 2) → ∃ t, exec (.stop 0 a) s = .next t ∧
    MailAnswers s a 5 b [(0x1C, 4, 0)] t) ∧
  (∀ s a b gid g core, MailReady s a 5 b → fieldAt b 8 2 < 1024 → fieldAt b 0xA 1 = 0 → s.groups.filter (fun p => p.2.ctx = fieldAt b 8 2) = [(gid, g)] →
    s.group? gid = some g → g.place = .resident core → s.gangMembers gid g = [gid] → s.awaitsRemote [gid] = false → g.stop = none → core ∉ s.mgmt.gated → ∃ t u, exec (.stop 0 a) s = .next t ∧
      GangSaved s gid g .manager u ∧ MailAnswers u a 5 b [(0x1C, 4, 1)] t) ∧
  (∀ s a b, MailReady s a 6 b → 1024 ≤ fieldAt b 8 2 ∨ 3 < fieldAt b 0xA 1 ∨ fieldAt b 0xA 1 % 2 = 1 → exec (.release 0 a) s = .next (mailStatus s 2 6)) ∧
  (∀ s a b, MailReady s a 6 b → fieldAt b 8 2 < 1024 → fieldAt b 0xA 1 = 0 → (∀ g ∈ s.groups, g.2.ctx = fieldAt b 8 2 → isHeld s g.2 = false) →
    ∃ t, exec (.release 0 a) s = .next t ∧ fieldAt (t.hostBytes a.toNat 64) 0x1C 4 = 0 ∧ t.mgmt.mbStatus = 0 ∧
      ∀ g ∈ t.groups, g.2.ctx = fieldAt b 8 2 → g.2.park = false) ∧
  (∀ s a b, MailReady s a 6 b → (stopArg b).ctx < 1024 → fieldAt b 0xA 1 = 0 ∨ fieldAt b 0xA 1 = 2 → ∃ t, exec (.release 0 a) s = .next t ∧
    t.mgmt.mbStatus = 0 ∧ t.mem = s.mem ∧ AnswerBlock b (t.hostBytes a.toNat 64)
      [(0x1C, 4, (gangHeads (s.groups.filter fun p => (stopArg b).names p.2 && isHeld s p.2)).length)] ∧
    t.groups = s.groups.map (fun p => if (stopArg b).names p.2 then (p.1, { p.2 with park := false }) else p) ∧
    ∀ p ∈ s.groups, (stopArg b).names p.2 = true → p.2.task = none → ∀ k, s.gangOf p.2 = some k →
      t.gangOf p.2 = some (if k.st = .held then { k with st := .saved } else k)) ∧
  (∀ s a b gid g k, MailReady s a 6 b → fieldAt b 8 2 < 1024 → fieldAt b 0xA 1 = 0 → s.groups.filter (fun p => p.2.ctx = fieldAt b 8 2) = [(gid, g)] →
    g.task = none → s.gangOf g = some k → k.st = .held → ∃ t, exec (.release 0 a) s = .next t ∧ t.mgmt.mbStatus = 0 ∧
      AnswerBlock b (t.hostBytes a.toNat 64) [(0x1C, 4, 1)] ∧ t.gangOf g = some { k with st := .saved } ∧ (gid, { g with park := false }) ∈ t.groups) ∧
  (∀ s a b, MailReady s a 8 b → (fieldAt b 0xA 2 < 2 ∨ 1024 < fieldAt b 0xA 2 ∨ fieldAt b 0xA 2 ≤ fieldAt b 0xC 2) →
    (fieldAt b 8 1 = 0 → exec (.ckptSave 0 a) s = .next (mailStatus s 2 8)) ∧ (fieldAt b 8 1 = 1 → exec (.ckptRestore 0 a) s = .next (mailStatus s 2 8))) ∧
  (∀ s a b, MailReady s a 8 b → fieldAt b 8 1 = 0 → ckptOk b = true → s.groups = [] → let n := fieldAt b 0xA 2
    let self := fieldAt b 0xC 2
    let range := fieldAt b 0x20 8
    (a.toNat + 64 ≤ range ∨ manifestAt range n self + manifestLen n self ≤ a.toNat) → ∃ t, exec (.ckptSave 0 a) s = .next t ∧ t.mem = s.mem ∧
      t.mgmt.mbStatus = 0 ∧ AnswerBlock b (t.hostBytes a.toNat 64) [(0x30, 4, shardCount n self)] ∧
      (∀ row < unitCount, ∀ k < 2 ^ 21, t.hostBytes (dataAt range row + 32 * k) 32 =
        if 2 ^ 21 * row + k ∈ s.mem.lost then List.replicate 32 0 else s.mem.stored (2 ^ 21 * row + k)) ∧
      let m := t.hostBytes (manifestAt range n self) (manifestLen n self)
      m.take 0x40 = manifestHead s.podIndex n (fieldAt b 0x10 8) (shardCount n self) ∧ m.drop (m.length - 64) = identitySign (m.take (m.length - 64))) ∧
  (∀ s a b, MailReady s a 8 b → fieldAt b 8 1 = 1 → ckptOk b = true → (s.host.cells.map fun c => c.1).Nodup → let n := fieldAt b 0xA 2
    let self := fieldAt b 0xC 2
    let range := fieldAt b 0x20 8
    let bad := badRows s range n self
    let restores := manifestOk s range n self (fieldAt b 0x10 8) = true ∧ ∀ row < unitCount,
      (if row ∈ bad then 1 else 0) + (if row ∈ badParity s range n self then 1 else 0) + othersFail s row < 2
    ∃ t, exec (.ckptRestore 0 a) s = .next t ∧ (¬ restores → t = mailStatus s 3 8) ∧
      (restores → ∃ m, MailAnswers { s with mem := m, mgmt := { s.mgmt with parity := [] } } a 8 b [(0x30, 4, shardCount n self), (0x34, 4, bad.length)] t ∧
        ∀ row < unitCount, row ∉ bad → ∀ k < 2 ^ 21, m.stored (2 ^ 21 * row + k) = s.hostBytes (dataAt range row + 32 * k) 32)) ∧
  (∀ s a b, MailReady s a 9 b → fieldAt b 8 8 % 64 ≠ 0 ∨ jobDescOk (s.hostBytes (fieldAt b 8 8) 128) = false → exec (.reduce 0 a) s = .next (mailStatus s 2 9)) ∧
  (∀ s a b j, MailReady s a 9 b → fieldAt b 8 8 % 64 = 0 → jobDescOk (s.hostBytes (fieldAt b 8 8) 128) = true →
    s.job? (jobDesc (s.hostBytes (fieldAt b 8 8) 128)).id = some j → j.desc ≠ [] → j.state ≠ 2 → exec (.reduce 0 a) s = .next (mailStatus s 1 9)) ∧
  (∀ s a b, MailReady s a 9 b → let bs := s.hostBytes (fieldAt b 8 8) 128
    let d := jobDesc bs
    fieldAt b 8 8 % 64 = 0 → jobDescOk bs = true → s.job? d.id = none → (∀ p ∈ d.parent :: d.children, p ∉ s.mgmt.dead) → d.children ≠ [] →
    ∃ t, exec (.reduce 0 a) s = .next t ∧ t.job? d.id = some { id := d.id, tenant := d.tenant, desc := bs, got := [], held := [], state := 0 } ∧
      t.mem = s.mem ∧ t.mgmt.mbStatus = 0) ∧
  (∀ s a b, MailReady s a 12 b → let buf := fieldAt b 0x28 8
    (buf % 64 ≠ 0 → exec (.attest 0 a) s = .next (mailStatus s 2 12)) ∧
    (∀ v dg, buf % 64 = 0 → (a.toNat + 64 ≤ buf ∨ buf + 224 ≤ a.toNat) → s.mgmt.boot = .running v dg → dg.length = 64 → ∃ t, exec (.attest 0 a) s = .next t ∧
      let r := t.hostBytes buf 224
      r.take 8 = [0x4B, 0x58, 0x41, 0x54, 0x54, 0x45, 0x53, 0x54] ∧ fieldAt r 8 4 = Config.romVersion.toNat ∧ fieldAt r 0xC 4 = v.toNat ∧
      (r.drop 0x10).take 64 = dg ∧ fieldAt r 0x50 16 = Config.serial.toNat ∧ fieldAt r 0x60 2 = 60 ∧ fieldAt r 0x62 2 = s.podIndex % 65536 ∧
      (r.drop 0x80).take 32 = (b.drop 8).take 32 ∧ r.drop 0xA0 = identitySign (r.take 0xA0) ∧
      AnswerBlock b (t.hostBytes a.toNat 64) [(0x30, 4, 224)] ∧ t.mgmt.mbStatus = 0)) ∧
  (∀ s a b, MailReady s a 13 b → let buf := fieldAt b 0x10 8
    (buf % 64 ≠ 0 → exec (.errlog 0 a) s = .next (mailStatus s 2 13)) ∧
    (buf % 64 = 0 → (∀ e ∈ s.mgmt.errlog, e.seq ≤ fieldAt b 8 8) → ∃ t, exec (.errlog 0 a) s = .next t ∧
      MailAnswers s a 13 b [(0x1C, 4, 0), (0x20, 8, fieldAt b 8 8), (0x28, 4, min s.mgmt.errLost (2 ^ 32 - 1))] t) ∧
    (∀ e, buf % 64 = 0 → s.mgmt.errlog = [e] → fieldAt b 8 8 < e.seq → 0 < fieldAt b 0x18 4 → (a.toNat + 64 ≤ buf ∨ buf + 64 ≤ a.toNat) →
      ∃ t, exec (.errlog 0 a) s = .next t ∧ t.mgmt.errlog = [e] ∧
        AnswerBlock b (t.hostBytes a.toNat 64) [(0x1C, 4, 1), (0x20, 8, e.seq), (0x28, 4, min s.mgmt.errLost (2 ^ 32 - 1))] ∧
        let r := t.hostBytes buf 64
        fieldAt r 0 8 = e.seq % 2 ^ 64 ∧ fieldAt r 8 1 = e.kind % 256 ∧ fieldAt r 9 1 = e.unit % 256 ∧ fieldAt r 0xA 2 = e.ctx % 65536 ∧
        fieldAt r 0xC 4 = e.count % 2 ^ 32 ∧ fieldAt r 0x10 8 = e.location.toNat ∧ fieldAt r 0x18 8 = e.time % 2 ^ 64))

/-! ## Words, steps, memory, reset (01, 05, 10, 16) -/

/-- R10 to R22: words worked out in the spec decode to their instructions. -/
def Obligations.SampleWordsDecode : Prop :=
  decode 0xE6860A0C0F848044 = .ok (.ffma { y := true, ge := true, gn := true, gp := 3 }
    { d := 5, a := 6, b := 7, c := 0xC2, t := 8, fn := 0, rm := 1, md := 4 }) ∧
  decode 0x0003E00191FFFFF4 = .ok (.bra plainHdr { j := 15, a := 0, pri := 200, off := -6 }) ∧
  decode 0x00581801FFFFFFF6 = .ok (.movi plainHdr { d := 12, a := 0, imm := -5, x := false }) ∧
  decode 0x0160600021FE4400 = .ok (.mma plainHdr
    { acc := 3, sh := 0, a := 0, b := 16, s := 0xFF, rep := 1, bsel := 0, neg := false, zero := true, low := 0 }) ∧
  decode 0x0148382542CC0000 = .ok (.wteq plainHdr
    { d := 28, a := 18, b := 0xA1, sz := 3, sg := false, ord := 1, scp := 4, ch := 0, off := 0 }) ∧
  decode 0x01A8042000020000 = .ok (.cancelAck plainHdr { d := 2, a := 16, sel := 1, imm := 0 }) ∧
  decode 0x0012000000000000 = .ok (.nop plainHdr { d := 0, a := 0, b := 0, c := 0, t := 0, fn := 0, rm := 0, md := 0 })

/-- R10 to R22: the encoder and the decoder agree: every well-formed instruction decodes from its word, and a word that decodes is its
instruction's. -/
def Obligations.DecodeEncodeAgree : Prop :=
  (∀ i w, i.wf = true → encode i = some w → decode w = .ok i) ∧ ∀ w i, decode w = .ok i → encode i = some w ∧ i.wf = true

/-- R42, R43, R173, R177: a step runs the instruction that the bytes at the entry's program counter decode to; a word that decodes to none, or
that the wave's level does not allow, parks the entry; an event of the agenda runs as it stands, and so does a host read. Choices of the model: the agenda (log 6), an entry issues the word memory holds (log 4). -/
def Obligations.StepRunsDecoded : Prop :=
  (∀ s r rest x t w, s.agenda = .issue r :: rest → (∀ pa, UnitLoc.hbmRow pa ∉ s.mgmt.fenced) → let u := { s with agenda := rest }
    u.issueOf r = some x → u.mayIssue x.g x.w = true → x.w.wdefer = [] → x.w.chosen = some r.slot →
    u.promiseKept ⟨r.gid, r.wi⟩ x.w = true → x.e.latch = none → x.e.pc.toNat < 2 ^ 56 → u.translate x.g.ctx .rx x.e.pc.toNat = .ok t →
    t.isRemote = false → u.lostAt t = false → (∀ b ∈ u.readSite t 8, b.2 = false) → w = wordOfBytes ((u.readSite t 8).map fun b => b.1) →
    (∀ i, decode w = .ok i → (managerOnly w = true → x.g.ctx = 0) → heldBack u x i = false →
      (∀ v, exec i (u.beginIssue x) = .next v → step s = .next (settleAll s (if v.stillHeld r x.e.pc then u.retryEntry r else v)).unstall) ∧
      (∀ f, exec i (u.beginIssue x) = .fault f → step s = .fault f) ∧ ∀ f, exec i (u.beginIssue x) = .refused f → step s = .refused f) ∧
    ((managerOnly w = true ∧ x.g.ctx ≠ 0) ∨ (∀ i, decode w ≠ .ok i) → ∃ y, (u.beginIssue x).issueOf r = some y ∧
      step s = .next (settleAll s (parkWhole (u.beginIssue x) y plainHdr
        (if managerOnly w = true ∧ x.g.ctx ≠ 0 then .priv else .illegalInstr) w)).unstall)) ∧
  (∀ s i rest, s.agenda = .event i :: rest → i.hdr = none → (∀ pa, UnitLoc.hbmRow pa ∉ s.mgmt.fenced) →
    (∀ v, exec i { s with agenda := rest } = .next v → step s = .next (settleAll s v).unstall) ∧
    (∀ f, exec i { s with agenda := rest } = .fault f → step s = .fault f) ∧
    ∀ f, exec i { s with agenda := rest } = .refused f → step s = .refused f) ∧
  (∀ s func off size rest, s.agenda = .hostRead func off size :: rest → (∀ pa, UnitLoc.hbmRow pa ∉ s.mgmt.fenced) →
    step s = .next (settleAll s (regRead { s with agenda := rest } func off size)).unstall)

/-- Device memory keeps its canonical form along every step: what makes equal memories equal data. Choices of the model: the canonical form of a sector (log 12) and what unlisted memory reads as (log 1). -/
def Obligations.MemoryStaysCanonical : Prop := KeptByStep MemoryCanonical

/-- R89, R517, R523, R532, R537, R542: what power-on leaves, where the spec gives it; and memory is canonical. Choices of the model: unlisted memory (log 1). -/
def Obligations.ResetState : Prop :=
  MemoryCanonical State.reset ∧ State.reset.clk = 0 ∧ State.reset.mgmt.boot = .rom ∧ State.reset.mgmt.podidx = none ∧ State.reset.mgmt.fsen = true ∧
  State.reset.mgmt.bsen = true ∧ State.reset.mgmt.fstep = 150 ∧ State.reset.mgmt.bsstep = 150 ∧ State.reset.host.ctxtBase = 0 ∧ State.reset.host.vlog = [] ∧
  State.reset.market.cfgW.interval = 200 ∧ State.reset.market.cfgW.enable = false ∧ State.reset.mgmt.mbEn = false ∧ State.reset.mgmt.evcnt = 0 ∧
  (∀ q, (State.reset.queue q).st = .free) ∧ (∀ n, (State.reset.scopeSlot n).st = .free) ∧
  (∀ n, n ≠ 0 → (State.reset.slot n).assigned = false ∧ (State.reset.slot n).isLoaded = false) ∧ State.reset.groups = [] ∧ State.reset.launches = []
end

