-- ==== Sys2Proof/Laws/Sparse.lean ====
section
/-! SUPPORT. Sparse maps, sets and lane masks: what a read after a write gives, that writes keep the canonical form, and which
lanes a mask lists. -/

namespace Sys2Proof.Machine

/-! ## Sparse maps -/

@[simp] theorem sget_nil {α : Type} (d : α) (k : Nat) : sget d [] k = d := rfl

theorem sget_filter_ne {α : Type} (d : α) (k k' : Nat) (m : List (Nat × α)) :
    sget d (m.filter fun e => e.1 != k) k' = if k' = k then d else sget d m k' := by
  induction m with
  | nil => simp
  | cons e m ih =>
    obtain ⟨j, v⟩ := e
    by_cases hj : j = k
    · subst hj
      by_cases h : k' = j
      · subst h; simpa using ih
      · simp [sget, ih, h]
    · by_cases h : k' = j
      · subst h; simp [sget, hj]
      · simp [sget, hj, h, ih]

theorem sget_sinsert {α : Type} (d v : α) (k k' : Nat) (m : List (Nat × α)) :
    sget d (sinsert k v m) k' = if k' = k then v else sget d m k' := by
  induction m with
  | nil => simp [sinsert, sget]
  | cons e m ih =>
    obtain ⟨j, w⟩ := e
    simp only [sinsert]
    split
    · next h => subst h; by_cases h' : k' = k <;> simp [sget, h']
    · split
      · by_cases h' : k' = k <;> simp [sget, h']
      · next h _ =>
        by_cases h' : k' = j
        · subst h'; simp [sget, Ne.symm h]
        · simp [sget, h', ih]

/-- A read after a write. -/
theorem sget_sput {α : Type} [DecidableEq α] (d v : α) (k k' : Nat) (m : List (Nat × α)) :
    sget d (sput d k v m) k' = if k' = k then v else sget d m k' := by
  unfold sput
  split
  · next h => subst h; exact sget_filter_ne v k k' m
  · exact sget_sinsert d v k k' m

@[simp] theorem sget_sput_self {α : Type} [DecidableEq α] (d v : α) (k : Nat) (m : List (Nat × α)) :
    sget d (sput d k v m) k = v := by simp [sget_sput]

theorem sget_sput_ne {α : Type} [DecidableEq α] (d v : α) {k k' : Nat} (h : k' ≠ k) (m : List (Nat × α)) :
    sget d (sput d k v m) k' = sget d m k' := by simp [sget_sput, h]

theorem sget_smod {α : Type} [DecidableEq α] (d : α) (k k' : Nat) (f : α → α) (m : List (Nat × α)) :
    sget d (smod d k f m) k' = if k' = k then f (sget d m k) else sget d m k' := by simp [smod, sget_sput]

/-- The canonical form from a bound on stays so from a lower bound. -/
theorem swfFrom_mono {α : Type} [DecidableEq α] (d : α) {lo lo' : Nat} (h : lo' ≤ lo) (m : List (Nat × α))
    (hm : swfFrom d lo m = true) : swfFrom d lo' m = true := by
  cases m with
  | nil => rfl
  | cons e m =>
    obtain ⟨j, v⟩ := e
    simp only [swfFrom, Bool.and_eq_true, decide_eq_true_eq] at hm ⊢
    exact ⟨⟨by omega, hm.1.2⟩, hm.2⟩

theorem swfFrom_filter {α : Type} [DecidableEq α] (d : α) (p : Nat × α → Bool) (lo : Nat) (m : List (Nat × α))
    (hm : swfFrom d lo m = true) : swfFrom d lo (m.filter p) = true := by
  induction m generalizing lo with
  | nil => rfl
  | cons e m ih =>
    obtain ⟨j, v⟩ := e
    simp only [swfFrom, Bool.and_eq_true, decide_eq_true_eq] at hm
    by_cases hp : p (j, v)
    · simp only [List.filter_cons_of_pos hp, swfFrom, Bool.and_eq_true, decide_eq_true_eq]
      exact ⟨hm.1, ih _ hm.2⟩
    · simp only [List.filter_cons_of_neg hp]
      exact ih _ (swfFrom_mono d (by omega) m hm.2)

theorem swfFrom_sinsert {α : Type} [DecidableEq α] (d v : α) (hv : v ≠ d) (k lo : Nat) (hk : lo ≤ k) (m : List (Nat × α))
    (hm : swfFrom d lo m = true) : swfFrom d lo (sinsert k v m) = true := by
  induction m generalizing lo with
  | nil => simp [sinsert, swfFrom, hk, hv]
  | cons e m ih =>
    obtain ⟨j, w⟩ := e
    simp only [swfFrom, Bool.and_eq_true, decide_eq_true_eq] at hm
    simp only [sinsert]
    split
    · next h => subst h; simp [swfFrom, hk, hv, hm.2]
    · split
      · next h1 h2 =>
        simp only [swfFrom, Bool.and_eq_true, decide_eq_true_eq]
        exact ⟨⟨hk, hv⟩, ⟨by omega, hm.1.2⟩, hm.2⟩
      · next h1 h2 =>
        simp only [swfFrom, Bool.and_eq_true, decide_eq_true_eq]
        exact ⟨hm.1, ih (j + 1) (by omega) hm.2⟩

/-- A write keeps the canonical form. -/
theorem swf_sput {α : Type} [DecidableEq α] (d v : α) (k : Nat) (m : List (Nat × α)) (hm : swf d m = true) :
    swf d (sput d k v m) = true := by
  unfold sput swf
  split
  · exact swfFrom_filter d _ 0 m hm
  · next h => exact swfFrom_sinsert d v h k 0 (Nat.zero_le k) m hm

/-! ## Numbered objects -/

@[simp] theorem aget_nil {α : Type} (k : Nat) : aget ([] : List (Nat × α)) k = none := rfl

theorem aget_cons {α : Type} (j k : Nat) (v : α) (m : List (Nat × α)) :
    aget ((j, v) :: m) k = if j = k then some v else aget m k := by
  by_cases h : j = k
  · subst h; simp [aget, List.find?]
  · have hb : (j == k) = false := by simpa using h
    simp [aget, List.find?, h, hb]

theorem mem_of_aget {α : Type} {m : List (Nat × α)} {k : Nat} {v : α} (h : aget m k = some v) : (k, v) ∈ m := by
  obtain ⟨e, he, rfl⟩ := Option.map_eq_some_iff.mp h
  have hk : e.1 = k := by simpa using List.find?_some he
  exact hk ▸ List.mem_of_find?_eq_some he

theorem aget_aput {α : Type} (k k' : Nat) (v : α) (m : List (Nat × α)) :
    aget (aput k v m) k' = if k' = k then some v else aget m k' := by
  induction m with
  | nil => simp [aput, aget_cons, eq_comm]
  | cons e m ih =>
    obtain ⟨j, w⟩ := e
    simp only [aput]
    split
    · next h => subst h; simp only [aget_cons]; by_cases h' : k = k' <;> simp [h', eq_comm]
    · split
      · simp only [aget_cons]; by_cases h' : k = k' <;> simp [h', eq_comm]
      · next h _ =>
        simp only [aget_cons, ih]
        by_cases h' : j = k'
        · subst h'; simp [Ne.symm h]
        · simp [h']

theorem aget_amod {α : Type} (k k' : Nat) (f : α → α) (m : List (Nat × α)) :
    aget (amod k f m) k' = if k' = k then (aget m k).map f else aget m k' := by
  induction m with
  | nil => simp [amod]
  | cons e m ih =>
    obtain ⟨j, w⟩ := e
    simp only [amod, List.map_cons] at ih ⊢
    by_cases hj : j = k
    · subst hj
      simp only [if_true, aget_cons]
      by_cases h : j = k'
      · subst h; simp
      · have h' : ¬ k' = j := fun e => h e.symm
        simp only [h, h', if_false] at ih ⊢
        exact ih
    · simp only [hj, if_false, aget_cons]
      by_cases h : j = k'
      · subst h; simp [hj]
      · simp only [h, if_false]; exact ih

@[simp] theorem aget_amod_self {α : Type} (k : Nat) (f : α → α) (m : List (Nat × α)) : aget (amod k f m) k = (aget m k).map f := by
  simp [aget_amod]

/-! ## Sets -/

theorem mem_sins (k k' : Nat) (m : List Nat) : k' ∈ sins k m ↔ k' = k ∨ k' ∈ m := by
  induction m with
  | nil => simp [sins]
  | cons j m ih =>
    simp only [sins]
    split
    · next h => subst h; simp
    · split
      · simp
      · simp only [List.mem_cons, ih]; tauto

theorem mem_sdel (k k' : Nat) (m : List Nat) : k' ∈ sdel k m ↔ k' ≠ k ∧ k' ∈ m := by
  simp [sdel, and_comm]

@[simp] theorem sdel_nil (k : Nat) : sdel k [] = [] := rfl

/-! ## Lane masks -/

/-- The lanes a mask lists are the numbers of its bits. -/
theorem mem_lanes (m : Mask) (l : Nat) : l ∈ Mask.lanes m ↔ m.getLsbD l = true := by
  simp only [Mask.lanes, List.mem_filter, List.mem_range]
  exact ⟨fun h => h.2, fun h => ⟨BitVec.lt_of_getLsbD h, h⟩⟩

theorem lanes_lt {m : Mask} {l : Nat} (h : l ∈ Mask.lanes m) : l < 32 := by
  simp only [Mask.lanes, List.mem_filter, List.mem_range] at h
  exact h.1

theorem lanes_nodup (m : Mask) : (Mask.lanes m).Nodup := List.Nodup.filter _ List.nodup_range

@[simp] theorem lanes_zero : Mask.lanes 0 = [] := by
  simp [Mask.lanes]

theorem lanes_eq_nil {m : Mask} (h : Mask.lanes m = []) : m = 0 := by
  apply BitVec.eq_of_getLsbD_eq
  intro i hi
  have : i ∉ Mask.lanes m := by simp [h]
  rw [mem_lanes] at this
  simpa using this

/-- A set bit of the mask of one lane is that lane's. -/
theorem getLsbD_one (l i : Nat) (hl : l < 32) : (Mask.one l).getLsbD i = decide (i = l) := by
  simp only [Mask.one, BitVec.getLsbD_ofNat, Nat.testBit_two_pow]
  by_cases h : l = i
  · subst h; simp [hl]
  · simp [h, Ne.symm h]

theorem getLsbD_ofList (ls : List Nat) (hl : ∀ l ∈ ls, l < 32) (i : Nat) : (Mask.ofList ls).getLsbD i = decide (i ∈ ls) := by
  have key : ∀ (ls : List Nat) (m : Mask), (∀ l ∈ ls, l < 32) →
      (ls.foldl (fun m l => m ||| Mask.one l) m).getLsbD i = (m.getLsbD i || decide (i ∈ ls)) := by
    intro ls
    induction ls with
    | nil => intro m _; simp
    | cons a ls ih =>
      intro m hm
      simp only [List.foldl_cons]
      rw [ih _ fun l hl => hm l (List.mem_cons_of_mem a hl), BitVec.getLsbD_or, getLsbD_one a i (hm a (List.mem_cons_self ..))]
      simp [Bool.or_assoc, List.mem_cons]
  rw [Mask.ofList, key ls 0 hl]; simp

@[simp] theorem ofList_nil : Mask.ofList [] = 0 := rfl

/-- A mask is the mask of the lanes it lists. -/
theorem ofList_lanes (m : Mask) : Mask.ofList (Mask.lanes m) = m := by
  apply BitVec.eq_of_getLsbD_eq
  intro i _
  rw [getLsbD_ofList _ (fun l h => lanes_lt h)]
  by_cases h : m.getLsbD i = true
  · simp [(mem_lanes m i).2 h, h]
  · have : i ∉ Mask.lanes m := fun hc => h ((mem_lanes m i).1 hc)
    simp only [this, decide_false]
    exact (Bool.eq_false_iff.2 h).symm

end Sys2Proof.Machine
end

