-- ==== Sys2Proof/Laws/State.lean ====
section
/-! SUPPORT. State: what each named update of the machine and of a wave leaves as it was, field by field. -/

namespace Sys2Proof.Machine

/-! State.modGroup. -/

@[simp] theorem State.modGroup_clk (s : State) (g : Nat) (f : Group → Group) : (s.modGroup g f).clk = s.clk := rfl
@[simp] theorem State.modGroup_timeBase (s : State) (g : Nat) (f : Group → Group) : (s.modGroup g f).timeBase = s.timeBase := rfl
@[simp] theorem State.modGroup_slew (s : State) (g : Nat) (f : Group → Group) : (s.modGroup g f).slew = s.slew := rfl
@[simp] theorem State.modGroup_slewAt (s : State) (g : Nat) (f : Group → Group) : (s.modGroup g f).slewAt = s.slewAt := rfl
@[simp] theorem State.modGroup_agenda (s : State) (g : Nat) (f : Group → Group) : (s.modGroup g f).agenda = s.agenda := rfl
@[simp] theorem State.modGroup_cur (s : State) (g : Nat) (f : Group → Group) : (s.modGroup g f).cur = s.cur := rfl
@[simp] theorem State.modGroup_free (s : State) (g : Nat) (f : Group → Group) : (s.modGroup g f).free = s.free := rfl
@[simp] theorem State.modGroup_turn (s : State) (g : Nat) (f : Group → Group) : (s.modGroup g f).turn = s.turn := rfl
@[simp] theorem State.modGroup_nextGid (s : State) (g : Nat) (f : Group → Group) : (s.modGroup g f).nextGid = s.nextGid := rfl
@[simp] theorem State.modGroup_launches (s : State) (g : Nat) (f : Group → Group) : (s.modGroup g f).launches = s.launches := rfl
@[simp] theorem State.modGroup_nextLaunch (s : State) (g : Nat) (f : Group → Group) : (s.modGroup g f).nextLaunch = s.nextLaunch := rfl
@[simp] theorem State.modGroup_engines (s : State) (g : Nat) (f : Group → Group) : (s.modGroup g f).engines = s.engines := rfl
@[simp] theorem State.modGroup_copies (s : State) (g : Nat) (f : Group → Group) : (s.modGroup g f).copies = s.copies := rfl
@[simp] theorem State.modGroup_nextCopy (s : State) (g : Nat) (f : Group → Group) : (s.modGroup g f).nextCopy = s.nextCopy := rfl
@[simp] theorem State.modGroup_tasks (s : State) (g : Nat) (f : Group → Group) : (s.modGroup g f).tasks = s.tasks := rfl
@[simp] theorem State.modGroup_nextTask (s : State) (g : Nat) (f : Group → Group) : (s.modGroup g f).nextTask = s.nextTask := rfl
@[simp] theorem State.modGroup_order (s : State) (g : Nat) (f : Group → Group) : (s.modGroup g f).order = s.order := rfl
@[simp] theorem State.modGroup_mem (s : State) (g : Nat) (f : Group → Group) : (s.modGroup g f).mem = s.mem := rfl
@[simp] theorem State.modGroup_keys (s : State) (g : Nat) (f : Group → Group) : (s.modGroup g f).keys = s.keys := rfl
@[simp] theorem State.modGroup_scopes (s : State) (g : Nat) (f : Group → Group) : (s.modGroup g f).scopes = s.scopes := rfl
@[simp] theorem State.modGroup_acks (s : State) (g : Nat) (f : Group → Group) : (s.modGroup g f).acks = s.acks := rfl
@[simp] theorem State.modGroup_queues (s : State) (g : Nat) (f : Group → Group) : (s.modGroup g f).queues = s.queues := rfl
@[simp] theorem State.modGroup_market (s : State) (g : Nat) (f : Group → Group) : (s.modGroup g f).market = s.market := rfl
@[simp] theorem State.modGroup_host (s : State) (g : Nat) (f : Group → Group) : (s.modGroup g f).host = s.host := rfl
@[simp] theorem State.modGroup_mgmt (s : State) (g : Nat) (f : Group → Group) : (s.modGroup g f).mgmt = s.mgmt := rfl
@[simp] theorem State.modGroup_l2 (s : State) (g : Nat) (f : Group → Group) : (s.modGroup g f).l2 = s.l2 := rfl
@[simp] theorem State.modGroup_stalled (s : State) (g : Nat) (f : Group → Group) : (s.modGroup g f).stalled = s.stalled := rfl

/-! State.setWave. -/

@[simp] theorem State.setWave_clk (s : State) (g w : Nat) (v : Wave) : (s.setWave g w v).clk = s.clk := rfl
@[simp] theorem State.setWave_timeBase (s : State) (g w : Nat) (v : Wave) : (s.setWave g w v).timeBase = s.timeBase := rfl
@[simp] theorem State.setWave_slew (s : State) (g w : Nat) (v : Wave) : (s.setWave g w v).slew = s.slew := rfl
@[simp] theorem State.setWave_slewAt (s : State) (g w : Nat) (v : Wave) : (s.setWave g w v).slewAt = s.slewAt := rfl
@[simp] theorem State.setWave_agenda (s : State) (g w : Nat) (v : Wave) : (s.setWave g w v).agenda = s.agenda := rfl
@[simp] theorem State.setWave_cur (s : State) (g w : Nat) (v : Wave) : (s.setWave g w v).cur = s.cur := rfl
@[simp] theorem State.setWave_free (s : State) (g w : Nat) (v : Wave) : (s.setWave g w v).free = s.free := rfl
@[simp] theorem State.setWave_turn (s : State) (g w : Nat) (v : Wave) : (s.setWave g w v).turn = s.turn := rfl
@[simp] theorem State.setWave_nextGid (s : State) (g w : Nat) (v : Wave) : (s.setWave g w v).nextGid = s.nextGid := rfl
@[simp] theorem State.setWave_launches (s : State) (g w : Nat) (v : Wave) : (s.setWave g w v).launches = s.launches := rfl
@[simp] theorem State.setWave_nextLaunch (s : State) (g w : Nat) (v : Wave) : (s.setWave g w v).nextLaunch = s.nextLaunch := rfl
@[simp] theorem State.setWave_engines (s : State) (g w : Nat) (v : Wave) : (s.setWave g w v).engines = s.engines := rfl
@[simp] theorem State.setWave_copies (s : State) (g w : Nat) (v : Wave) : (s.setWave g w v).copies = s.copies := rfl
@[simp] theorem State.setWave_nextCopy (s : State) (g w : Nat) (v : Wave) : (s.setWave g w v).nextCopy = s.nextCopy := rfl
@[simp] theorem State.setWave_tasks (s : State) (g w : Nat) (v : Wave) : (s.setWave g w v).tasks = s.tasks := rfl
@[simp] theorem State.setWave_nextTask (s : State) (g w : Nat) (v : Wave) : (s.setWave g w v).nextTask = s.nextTask := rfl
@[simp] theorem State.setWave_order (s : State) (g w : Nat) (v : Wave) : (s.setWave g w v).order = s.order := rfl
@[simp] theorem State.setWave_mem (s : State) (g w : Nat) (v : Wave) : (s.setWave g w v).mem = s.mem := rfl
@[simp] theorem State.setWave_keys (s : State) (g w : Nat) (v : Wave) : (s.setWave g w v).keys = s.keys := rfl
@[simp] theorem State.setWave_scopes (s : State) (g w : Nat) (v : Wave) : (s.setWave g w v).scopes = s.scopes := rfl
@[simp] theorem State.setWave_acks (s : State) (g w : Nat) (v : Wave) : (s.setWave g w v).acks = s.acks := rfl
@[simp] theorem State.setWave_queues (s : State) (g w : Nat) (v : Wave) : (s.setWave g w v).queues = s.queues := rfl
@[simp] theorem State.setWave_market (s : State) (g w : Nat) (v : Wave) : (s.setWave g w v).market = s.market := rfl
@[simp] theorem State.setWave_host (s : State) (g w : Nat) (v : Wave) : (s.setWave g w v).host = s.host := rfl
@[simp] theorem State.setWave_mgmt (s : State) (g w : Nat) (v : Wave) : (s.setWave g w v).mgmt = s.mgmt := rfl
@[simp] theorem State.setWave_l2 (s : State) (g w : Nat) (v : Wave) : (s.setWave g w v).l2 = s.l2 := rfl
@[simp] theorem State.setWave_stalled (s : State) (g w : Nat) (v : Wave) : (s.setWave g w v).stalled = s.stalled := rfl

/-! State.modWave. -/

@[simp] theorem State.modWave_clk (s : State) (g w : Nat) (f : Wave → Wave) : (s.modWave g w f).clk = s.clk := rfl
@[simp] theorem State.modWave_timeBase (s : State) (g w : Nat) (f : Wave → Wave) : (s.modWave g w f).timeBase = s.timeBase := rfl
@[simp] theorem State.modWave_slew (s : State) (g w : Nat) (f : Wave → Wave) : (s.modWave g w f).slew = s.slew := rfl
@[simp] theorem State.modWave_slewAt (s : State) (g w : Nat) (f : Wave → Wave) : (s.modWave g w f).slewAt = s.slewAt := rfl
@[simp] theorem State.modWave_agenda (s : State) (g w : Nat) (f : Wave → Wave) : (s.modWave g w f).agenda = s.agenda := rfl
@[simp] theorem State.modWave_cur (s : State) (g w : Nat) (f : Wave → Wave) : (s.modWave g w f).cur = s.cur := rfl
@[simp] theorem State.modWave_free (s : State) (g w : Nat) (f : Wave → Wave) : (s.modWave g w f).free = s.free := rfl
@[simp] theorem State.modWave_turn (s : State) (g w : Nat) (f : Wave → Wave) : (s.modWave g w f).turn = s.turn := rfl
@[simp] theorem State.modWave_nextGid (s : State) (g w : Nat) (f : Wave → Wave) : (s.modWave g w f).nextGid = s.nextGid := rfl
@[simp] theorem State.modWave_launches (s : State) (g w : Nat) (f : Wave → Wave) : (s.modWave g w f).launches = s.launches := rfl
@[simp] theorem State.modWave_nextLaunch (s : State) (g w : Nat) (f : Wave → Wave) : (s.modWave g w f).nextLaunch = s.nextLaunch := rfl
@[simp] theorem State.modWave_engines (s : State) (g w : Nat) (f : Wave → Wave) : (s.modWave g w f).engines = s.engines := rfl
@[simp] theorem State.modWave_copies (s : State) (g w : Nat) (f : Wave → Wave) : (s.modWave g w f).copies = s.copies := rfl
@[simp] theorem State.modWave_nextCopy (s : State) (g w : Nat) (f : Wave → Wave) : (s.modWave g w f).nextCopy = s.nextCopy := rfl
@[simp] theorem State.modWave_tasks (s : State) (g w : Nat) (f : Wave → Wave) : (s.modWave g w f).tasks = s.tasks := rfl
@[simp] theorem State.modWave_nextTask (s : State) (g w : Nat) (f : Wave → Wave) : (s.modWave g w f).nextTask = s.nextTask := rfl
@[simp] theorem State.modWave_order (s : State) (g w : Nat) (f : Wave → Wave) : (s.modWave g w f).order = s.order := rfl
@[simp] theorem State.modWave_mem (s : State) (g w : Nat) (f : Wave → Wave) : (s.modWave g w f).mem = s.mem := rfl
@[simp] theorem State.modWave_keys (s : State) (g w : Nat) (f : Wave → Wave) : (s.modWave g w f).keys = s.keys := rfl
@[simp] theorem State.modWave_scopes (s : State) (g w : Nat) (f : Wave → Wave) : (s.modWave g w f).scopes = s.scopes := rfl
@[simp] theorem State.modWave_acks (s : State) (g w : Nat) (f : Wave → Wave) : (s.modWave g w f).acks = s.acks := rfl
@[simp] theorem State.modWave_queues (s : State) (g w : Nat) (f : Wave → Wave) : (s.modWave g w f).queues = s.queues := rfl
@[simp] theorem State.modWave_market (s : State) (g w : Nat) (f : Wave → Wave) : (s.modWave g w f).market = s.market := rfl
@[simp] theorem State.modWave_host (s : State) (g w : Nat) (f : Wave → Wave) : (s.modWave g w f).host = s.host := rfl
@[simp] theorem State.modWave_mgmt (s : State) (g w : Nat) (f : Wave → Wave) : (s.modWave g w f).mgmt = s.mgmt := rfl
@[simp] theorem State.modWave_l2 (s : State) (g w : Nat) (f : Wave → Wave) : (s.modWave g w f).l2 = s.l2 := rfl
@[simp] theorem State.modWave_stalled (s : State) (g w : Nat) (f : Wave → Wave) : (s.modWave g w f).stalled = s.stalled := rfl

/-! State.modEngine. -/

@[simp] theorem State.modEngine_clk (s : State) (n : Nat) (f : Engine → Engine) : (s.modEngine n f).clk = s.clk := rfl
@[simp] theorem State.modEngine_timeBase (s : State) (n : Nat) (f : Engine → Engine) : (s.modEngine n f).timeBase = s.timeBase := rfl
@[simp] theorem State.modEngine_slew (s : State) (n : Nat) (f : Engine → Engine) : (s.modEngine n f).slew = s.slew := rfl
@[simp] theorem State.modEngine_slewAt (s : State) (n : Nat) (f : Engine → Engine) : (s.modEngine n f).slewAt = s.slewAt := rfl
@[simp] theorem State.modEngine_agenda (s : State) (n : Nat) (f : Engine → Engine) : (s.modEngine n f).agenda = s.agenda := rfl
@[simp] theorem State.modEngine_cur (s : State) (n : Nat) (f : Engine → Engine) : (s.modEngine n f).cur = s.cur := rfl
@[simp] theorem State.modEngine_free (s : State) (n : Nat) (f : Engine → Engine) : (s.modEngine n f).free = s.free := rfl
@[simp] theorem State.modEngine_turn (s : State) (n : Nat) (f : Engine → Engine) : (s.modEngine n f).turn = s.turn := rfl
@[simp] theorem State.modEngine_groups (s : State) (n : Nat) (f : Engine → Engine) : (s.modEngine n f).groups = s.groups := rfl
@[simp] theorem State.modEngine_nextGid (s : State) (n : Nat) (f : Engine → Engine) : (s.modEngine n f).nextGid = s.nextGid := rfl
@[simp] theorem State.modEngine_launches (s : State) (n : Nat) (f : Engine → Engine) : (s.modEngine n f).launches = s.launches := rfl
@[simp] theorem State.modEngine_nextLaunch (s : State) (n : Nat) (f : Engine → Engine) : (s.modEngine n f).nextLaunch = s.nextLaunch := rfl
@[simp] theorem State.modEngine_copies (s : State) (n : Nat) (f : Engine → Engine) : (s.modEngine n f).copies = s.copies := rfl
@[simp] theorem State.modEngine_nextCopy (s : State) (n : Nat) (f : Engine → Engine) : (s.modEngine n f).nextCopy = s.nextCopy := rfl
@[simp] theorem State.modEngine_tasks (s : State) (n : Nat) (f : Engine → Engine) : (s.modEngine n f).tasks = s.tasks := rfl
@[simp] theorem State.modEngine_nextTask (s : State) (n : Nat) (f : Engine → Engine) : (s.modEngine n f).nextTask = s.nextTask := rfl
@[simp] theorem State.modEngine_order (s : State) (n : Nat) (f : Engine → Engine) : (s.modEngine n f).order = s.order := rfl
@[simp] theorem State.modEngine_mem (s : State) (n : Nat) (f : Engine → Engine) : (s.modEngine n f).mem = s.mem := rfl
@[simp] theorem State.modEngine_keys (s : State) (n : Nat) (f : Engine → Engine) : (s.modEngine n f).keys = s.keys := rfl
@[simp] theorem State.modEngine_scopes (s : State) (n : Nat) (f : Engine → Engine) : (s.modEngine n f).scopes = s.scopes := rfl
@[simp] theorem State.modEngine_acks (s : State) (n : Nat) (f : Engine → Engine) : (s.modEngine n f).acks = s.acks := rfl
@[simp] theorem State.modEngine_queues (s : State) (n : Nat) (f : Engine → Engine) : (s.modEngine n f).queues = s.queues := rfl
@[simp] theorem State.modEngine_market (s : State) (n : Nat) (f : Engine → Engine) : (s.modEngine n f).market = s.market := rfl
@[simp] theorem State.modEngine_host (s : State) (n : Nat) (f : Engine → Engine) : (s.modEngine n f).host = s.host := rfl
@[simp] theorem State.modEngine_mgmt (s : State) (n : Nat) (f : Engine → Engine) : (s.modEngine n f).mgmt = s.mgmt := rfl
@[simp] theorem State.modEngine_l2 (s : State) (n : Nat) (f : Engine → Engine) : (s.modEngine n f).l2 = s.l2 := rfl
@[simp] theorem State.modEngine_stalled (s : State) (n : Nat) (f : Engine → Engine) : (s.modEngine n f).stalled = s.stalled := rfl

/-! State.modQueue. -/

@[simp] theorem State.modQueue_clk (s : State) (n : Nat) (f : Queue → Queue) : (s.modQueue n f).clk = s.clk := rfl
@[simp] theorem State.modQueue_timeBase (s : State) (n : Nat) (f : Queue → Queue) : (s.modQueue n f).timeBase = s.timeBase := rfl
@[simp] theorem State.modQueue_slew (s : State) (n : Nat) (f : Queue → Queue) : (s.modQueue n f).slew = s.slew := rfl
@[simp] theorem State.modQueue_slewAt (s : State) (n : Nat) (f : Queue → Queue) : (s.modQueue n f).slewAt = s.slewAt := rfl
@[simp] theorem State.modQueue_agenda (s : State) (n : Nat) (f : Queue → Queue) : (s.modQueue n f).agenda = s.agenda := rfl
@[simp] theorem State.modQueue_cur (s : State) (n : Nat) (f : Queue → Queue) : (s.modQueue n f).cur = s.cur := rfl
@[simp] theorem State.modQueue_free (s : State) (n : Nat) (f : Queue → Queue) : (s.modQueue n f).free = s.free := rfl
@[simp] theorem State.modQueue_turn (s : State) (n : Nat) (f : Queue → Queue) : (s.modQueue n f).turn = s.turn := rfl
@[simp] theorem State.modQueue_groups (s : State) (n : Nat) (f : Queue → Queue) : (s.modQueue n f).groups = s.groups := rfl
@[simp] theorem State.modQueue_nextGid (s : State) (n : Nat) (f : Queue → Queue) : (s.modQueue n f).nextGid = s.nextGid := rfl
@[simp] theorem State.modQueue_launches (s : State) (n : Nat) (f : Queue → Queue) : (s.modQueue n f).launches = s.launches := rfl
@[simp] theorem State.modQueue_nextLaunch (s : State) (n : Nat) (f : Queue → Queue) : (s.modQueue n f).nextLaunch = s.nextLaunch := rfl
@[simp] theorem State.modQueue_engines (s : State) (n : Nat) (f : Queue → Queue) : (s.modQueue n f).engines = s.engines := rfl
@[simp] theorem State.modQueue_copies (s : State) (n : Nat) (f : Queue → Queue) : (s.modQueue n f).copies = s.copies := rfl
@[simp] theorem State.modQueue_nextCopy (s : State) (n : Nat) (f : Queue → Queue) : (s.modQueue n f).nextCopy = s.nextCopy := rfl
@[simp] theorem State.modQueue_tasks (s : State) (n : Nat) (f : Queue → Queue) : (s.modQueue n f).tasks = s.tasks := rfl
@[simp] theorem State.modQueue_nextTask (s : State) (n : Nat) (f : Queue → Queue) : (s.modQueue n f).nextTask = s.nextTask := rfl
@[simp] theorem State.modQueue_order (s : State) (n : Nat) (f : Queue → Queue) : (s.modQueue n f).order = s.order := rfl
@[simp] theorem State.modQueue_mem (s : State) (n : Nat) (f : Queue → Queue) : (s.modQueue n f).mem = s.mem := rfl
@[simp] theorem State.modQueue_keys (s : State) (n : Nat) (f : Queue → Queue) : (s.modQueue n f).keys = s.keys := rfl
@[simp] theorem State.modQueue_scopes (s : State) (n : Nat) (f : Queue → Queue) : (s.modQueue n f).scopes = s.scopes := rfl
@[simp] theorem State.modQueue_acks (s : State) (n : Nat) (f : Queue → Queue) : (s.modQueue n f).acks = s.acks := rfl
@[simp] theorem State.modQueue_market (s : State) (n : Nat) (f : Queue → Queue) : (s.modQueue n f).market = s.market := rfl
@[simp] theorem State.modQueue_host (s : State) (n : Nat) (f : Queue → Queue) : (s.modQueue n f).host = s.host := rfl
@[simp] theorem State.modQueue_mgmt (s : State) (n : Nat) (f : Queue → Queue) : (s.modQueue n f).mgmt = s.mgmt := rfl
@[simp] theorem State.modQueue_l2 (s : State) (n : Nat) (f : Queue → Queue) : (s.modQueue n f).l2 = s.l2 := rfl
@[simp] theorem State.modQueue_stalled (s : State) (n : Nat) (f : Queue → Queue) : (s.modQueue n f).stalled = s.stalled := rfl

/-! State.putScope. -/

@[simp] theorem State.putScope_clk (s : State) (n : Nat) (v : ScopeSlot) : (s.putScope n v).clk = s.clk := rfl
@[simp] theorem State.putScope_timeBase (s : State) (n : Nat) (v : ScopeSlot) : (s.putScope n v).timeBase = s.timeBase := rfl
@[simp] theorem State.putScope_slew (s : State) (n : Nat) (v : ScopeSlot) : (s.putScope n v).slew = s.slew := rfl
@[simp] theorem State.putScope_slewAt (s : State) (n : Nat) (v : ScopeSlot) : (s.putScope n v).slewAt = s.slewAt := rfl
@[simp] theorem State.putScope_agenda (s : State) (n : Nat) (v : ScopeSlot) : (s.putScope n v).agenda = s.agenda := rfl
@[simp] theorem State.putScope_cur (s : State) (n : Nat) (v : ScopeSlot) : (s.putScope n v).cur = s.cur := rfl
@[simp] theorem State.putScope_free (s : State) (n : Nat) (v : ScopeSlot) : (s.putScope n v).free = s.free := rfl
@[simp] theorem State.putScope_turn (s : State) (n : Nat) (v : ScopeSlot) : (s.putScope n v).turn = s.turn := rfl
@[simp] theorem State.putScope_groups (s : State) (n : Nat) (v : ScopeSlot) : (s.putScope n v).groups = s.groups := rfl
@[simp] theorem State.putScope_nextGid (s : State) (n : Nat) (v : ScopeSlot) : (s.putScope n v).nextGid = s.nextGid := rfl
@[simp] theorem State.putScope_launches (s : State) (n : Nat) (v : ScopeSlot) : (s.putScope n v).launches = s.launches := rfl
@[simp] theorem State.putScope_nextLaunch (s : State) (n : Nat) (v : ScopeSlot) : (s.putScope n v).nextLaunch = s.nextLaunch := rfl
@[simp] theorem State.putScope_engines (s : State) (n : Nat) (v : ScopeSlot) : (s.putScope n v).engines = s.engines := rfl
@[simp] theorem State.putScope_copies (s : State) (n : Nat) (v : ScopeSlot) : (s.putScope n v).copies = s.copies := rfl
@[simp] theorem State.putScope_nextCopy (s : State) (n : Nat) (v : ScopeSlot) : (s.putScope n v).nextCopy = s.nextCopy := rfl
@[simp] theorem State.putScope_tasks (s : State) (n : Nat) (v : ScopeSlot) : (s.putScope n v).tasks = s.tasks := rfl
@[simp] theorem State.putScope_nextTask (s : State) (n : Nat) (v : ScopeSlot) : (s.putScope n v).nextTask = s.nextTask := rfl
@[simp] theorem State.putScope_order (s : State) (n : Nat) (v : ScopeSlot) : (s.putScope n v).order = s.order := rfl
@[simp] theorem State.putScope_mem (s : State) (n : Nat) (v : ScopeSlot) : (s.putScope n v).mem = s.mem := rfl
@[simp] theorem State.putScope_keys (s : State) (n : Nat) (v : ScopeSlot) : (s.putScope n v).keys = s.keys := rfl
@[simp] theorem State.putScope_acks (s : State) (n : Nat) (v : ScopeSlot) : (s.putScope n v).acks = s.acks := rfl
@[simp] theorem State.putScope_queues (s : State) (n : Nat) (v : ScopeSlot) : (s.putScope n v).queues = s.queues := rfl
@[simp] theorem State.putScope_market (s : State) (n : Nat) (v : ScopeSlot) : (s.putScope n v).market = s.market := rfl
@[simp] theorem State.putScope_host (s : State) (n : Nat) (v : ScopeSlot) : (s.putScope n v).host = s.host := rfl
@[simp] theorem State.putScope_mgmt (s : State) (n : Nat) (v : ScopeSlot) : (s.putScope n v).mgmt = s.mgmt := rfl
@[simp] theorem State.putScope_l2 (s : State) (n : Nat) (v : ScopeSlot) : (s.putScope n v).l2 = s.l2 := rfl
@[simp] theorem State.putScope_stalled (s : State) (n : Nat) (v : ScopeSlot) : (s.putScope n v).stalled = s.stalled := rfl

/-! State.setLaunch. -/

@[simp] theorem State.setLaunch_clk (s : State) (n : Nat) (f : Launch → Launch) : (s.setLaunch n f).clk = s.clk := rfl
@[simp] theorem State.setLaunch_timeBase (s : State) (n : Nat) (f : Launch → Launch) : (s.setLaunch n f).timeBase = s.timeBase := rfl
@[simp] theorem State.setLaunch_slew (s : State) (n : Nat) (f : Launch → Launch) : (s.setLaunch n f).slew = s.slew := rfl
@[simp] theorem State.setLaunch_slewAt (s : State) (n : Nat) (f : Launch → Launch) : (s.setLaunch n f).slewAt = s.slewAt := rfl
@[simp] theorem State.setLaunch_agenda (s : State) (n : Nat) (f : Launch → Launch) : (s.setLaunch n f).agenda = s.agenda := rfl
@[simp] theorem State.setLaunch_cur (s : State) (n : Nat) (f : Launch → Launch) : (s.setLaunch n f).cur = s.cur := rfl
@[simp] theorem State.setLaunch_free (s : State) (n : Nat) (f : Launch → Launch) : (s.setLaunch n f).free = s.free := rfl
@[simp] theorem State.setLaunch_turn (s : State) (n : Nat) (f : Launch → Launch) : (s.setLaunch n f).turn = s.turn := rfl
@[simp] theorem State.setLaunch_groups (s : State) (n : Nat) (f : Launch → Launch) : (s.setLaunch n f).groups = s.groups := rfl
@[simp] theorem State.setLaunch_nextGid (s : State) (n : Nat) (f : Launch → Launch) : (s.setLaunch n f).nextGid = s.nextGid := rfl
@[simp] theorem State.setLaunch_nextLaunch (s : State) (n : Nat) (f : Launch → Launch) : (s.setLaunch n f).nextLaunch = s.nextLaunch := rfl
@[simp] theorem State.setLaunch_engines (s : State) (n : Nat) (f : Launch → Launch) : (s.setLaunch n f).engines = s.engines := rfl
@[simp] theorem State.setLaunch_copies (s : State) (n : Nat) (f : Launch → Launch) : (s.setLaunch n f).copies = s.copies := rfl
@[simp] theorem State.setLaunch_nextCopy (s : State) (n : Nat) (f : Launch → Launch) : (s.setLaunch n f).nextCopy = s.nextCopy := rfl
@[simp] theorem State.setLaunch_tasks (s : State) (n : Nat) (f : Launch → Launch) : (s.setLaunch n f).tasks = s.tasks := rfl
@[simp] theorem State.setLaunch_nextTask (s : State) (n : Nat) (f : Launch → Launch) : (s.setLaunch n f).nextTask = s.nextTask := rfl
@[simp] theorem State.setLaunch_order (s : State) (n : Nat) (f : Launch → Launch) : (s.setLaunch n f).order = s.order := rfl
@[simp] theorem State.setLaunch_mem (s : State) (n : Nat) (f : Launch → Launch) : (s.setLaunch n f).mem = s.mem := rfl
@[simp] theorem State.setLaunch_keys (s : State) (n : Nat) (f : Launch → Launch) : (s.setLaunch n f).keys = s.keys := rfl
@[simp] theorem State.setLaunch_scopes (s : State) (n : Nat) (f : Launch → Launch) : (s.setLaunch n f).scopes = s.scopes := rfl
@[simp] theorem State.setLaunch_acks (s : State) (n : Nat) (f : Launch → Launch) : (s.setLaunch n f).acks = s.acks := rfl
@[simp] theorem State.setLaunch_queues (s : State) (n : Nat) (f : Launch → Launch) : (s.setLaunch n f).queues = s.queues := rfl
@[simp] theorem State.setLaunch_market (s : State) (n : Nat) (f : Launch → Launch) : (s.setLaunch n f).market = s.market := rfl
@[simp] theorem State.setLaunch_host (s : State) (n : Nat) (f : Launch → Launch) : (s.setLaunch n f).host = s.host := rfl
@[simp] theorem State.setLaunch_mgmt (s : State) (n : Nat) (f : Launch → Launch) : (s.setLaunch n f).mgmt = s.mgmt := rfl
@[simp] theorem State.setLaunch_l2 (s : State) (n : Nat) (f : Launch → Launch) : (s.setLaunch n f).l2 = s.l2 := rfl
@[simp] theorem State.setLaunch_stalled (s : State) (n : Nat) (f : Launch → Launch) : (s.setLaunch n f).stalled = s.stalled := rfl

/-! State.modGang. -/

@[simp] theorem State.modGang_clk (s : State) (n k : Nat) (f : Gang → Gang) : (s.modGang n k f).clk = s.clk := rfl
@[simp] theorem State.modGang_timeBase (s : State) (n k : Nat) (f : Gang → Gang) : (s.modGang n k f).timeBase = s.timeBase := rfl
@[simp] theorem State.modGang_slew (s : State) (n k : Nat) (f : Gang → Gang) : (s.modGang n k f).slew = s.slew := rfl
@[simp] theorem State.modGang_slewAt (s : State) (n k : Nat) (f : Gang → Gang) : (s.modGang n k f).slewAt = s.slewAt := rfl
@[simp] theorem State.modGang_agenda (s : State) (n k : Nat) (f : Gang → Gang) : (s.modGang n k f).agenda = s.agenda := rfl
@[simp] theorem State.modGang_cur (s : State) (n k : Nat) (f : Gang → Gang) : (s.modGang n k f).cur = s.cur := rfl
@[simp] theorem State.modGang_free (s : State) (n k : Nat) (f : Gang → Gang) : (s.modGang n k f).free = s.free := rfl
@[simp] theorem State.modGang_turn (s : State) (n k : Nat) (f : Gang → Gang) : (s.modGang n k f).turn = s.turn := rfl
@[simp] theorem State.modGang_groups (s : State) (n k : Nat) (f : Gang → Gang) : (s.modGang n k f).groups = s.groups := rfl
@[simp] theorem State.modGang_nextGid (s : State) (n k : Nat) (f : Gang → Gang) : (s.modGang n k f).nextGid = s.nextGid := rfl
@[simp] theorem State.modGang_nextLaunch (s : State) (n k : Nat) (f : Gang → Gang) : (s.modGang n k f).nextLaunch = s.nextLaunch := rfl
@[simp] theorem State.modGang_engines (s : State) (n k : Nat) (f : Gang → Gang) : (s.modGang n k f).engines = s.engines := rfl
@[simp] theorem State.modGang_copies (s : State) (n k : Nat) (f : Gang → Gang) : (s.modGang n k f).copies = s.copies := rfl
@[simp] theorem State.modGang_nextCopy (s : State) (n k : Nat) (f : Gang → Gang) : (s.modGang n k f).nextCopy = s.nextCopy := rfl
@[simp] theorem State.modGang_tasks (s : State) (n k : Nat) (f : Gang → Gang) : (s.modGang n k f).tasks = s.tasks := rfl
@[simp] theorem State.modGang_nextTask (s : State) (n k : Nat) (f : Gang → Gang) : (s.modGang n k f).nextTask = s.nextTask := rfl
@[simp] theorem State.modGang_order (s : State) (n k : Nat) (f : Gang → Gang) : (s.modGang n k f).order = s.order := rfl
@[simp] theorem State.modGang_mem (s : State) (n k : Nat) (f : Gang → Gang) : (s.modGang n k f).mem = s.mem := rfl
@[simp] theorem State.modGang_keys (s : State) (n k : Nat) (f : Gang → Gang) : (s.modGang n k f).keys = s.keys := rfl
@[simp] theorem State.modGang_scopes (s : State) (n k : Nat) (f : Gang → Gang) : (s.modGang n k f).scopes = s.scopes := rfl
@[simp] theorem State.modGang_acks (s : State) (n k : Nat) (f : Gang → Gang) : (s.modGang n k f).acks = s.acks := rfl
@[simp] theorem State.modGang_queues (s : State) (n k : Nat) (f : Gang → Gang) : (s.modGang n k f).queues = s.queues := rfl
@[simp] theorem State.modGang_market (s : State) (n k : Nat) (f : Gang → Gang) : (s.modGang n k f).market = s.market := rfl
@[simp] theorem State.modGang_host (s : State) (n k : Nat) (f : Gang → Gang) : (s.modGang n k f).host = s.host := rfl
@[simp] theorem State.modGang_mgmt (s : State) (n k : Nat) (f : Gang → Gang) : (s.modGang n k f).mgmt = s.mgmt := rfl
@[simp] theorem State.modGang_l2 (s : State) (n k : Nat) (f : Gang → Gang) : (s.modGang n k f).l2 = s.l2 := rfl
@[simp] theorem State.modGang_stalled (s : State) (n k : Nat) (f : Gang → Gang) : (s.modGang n k f).stalled = s.stalled := rfl

/-! State.count. -/

@[simp] theorem State.count_clk (s : State) (c k n : Nat) : (s.count c k n).clk = s.clk := rfl
@[simp] theorem State.count_timeBase (s : State) (c k n : Nat) : (s.count c k n).timeBase = s.timeBase := rfl
@[simp] theorem State.count_slew (s : State) (c k n : Nat) : (s.count c k n).slew = s.slew := rfl
@[simp] theorem State.count_slewAt (s : State) (c k n : Nat) : (s.count c k n).slewAt = s.slewAt := rfl
@[simp] theorem State.count_agenda (s : State) (c k n : Nat) : (s.count c k n).agenda = s.agenda := rfl
@[simp] theorem State.count_cur (s : State) (c k n : Nat) : (s.count c k n).cur = s.cur := rfl
@[simp] theorem State.count_free (s : State) (c k n : Nat) : (s.count c k n).free = s.free := rfl
@[simp] theorem State.count_turn (s : State) (c k n : Nat) : (s.count c k n).turn = s.turn := rfl
@[simp] theorem State.count_groups (s : State) (c k n : Nat) : (s.count c k n).groups = s.groups := rfl
@[simp] theorem State.count_nextGid (s : State) (c k n : Nat) : (s.count c k n).nextGid = s.nextGid := rfl
@[simp] theorem State.count_launches (s : State) (c k n : Nat) : (s.count c k n).launches = s.launches := rfl
@[simp] theorem State.count_nextLaunch (s : State) (c k n : Nat) : (s.count c k n).nextLaunch = s.nextLaunch := rfl
@[simp] theorem State.count_engines (s : State) (c k n : Nat) : (s.count c k n).engines = s.engines := rfl
@[simp] theorem State.count_copies (s : State) (c k n : Nat) : (s.count c k n).copies = s.copies := rfl
@[simp] theorem State.count_nextCopy (s : State) (c k n : Nat) : (s.count c k n).nextCopy = s.nextCopy := rfl
@[simp] theorem State.count_tasks (s : State) (c k n : Nat) : (s.count c k n).tasks = s.tasks := rfl
@[simp] theorem State.count_nextTask (s : State) (c k n : Nat) : (s.count c k n).nextTask = s.nextTask := rfl
@[simp] theorem State.count_order (s : State) (c k n : Nat) : (s.count c k n).order = s.order := rfl
@[simp] theorem State.count_mem (s : State) (c k n : Nat) : (s.count c k n).mem = s.mem := rfl
@[simp] theorem State.count_keys (s : State) (c k n : Nat) : (s.count c k n).keys = s.keys := rfl
@[simp] theorem State.count_scopes (s : State) (c k n : Nat) : (s.count c k n).scopes = s.scopes := rfl
@[simp] theorem State.count_acks (s : State) (c k n : Nat) : (s.count c k n).acks = s.acks := rfl
@[simp] theorem State.count_queues (s : State) (c k n : Nat) : (s.count c k n).queues = s.queues := rfl
@[simp] theorem State.count_host (s : State) (c k n : Nat) : (s.count c k n).host = s.host := rfl
@[simp] theorem State.count_mgmt (s : State) (c k n : Nat) : (s.count c k n).mgmt = s.mgmt := rfl
@[simp] theorem State.count_l2 (s : State) (c k n : Nat) : (s.count c k n).l2 = s.l2 := rfl
@[simp] theorem State.count_stalled (s : State) (c k n : Nat) : (s.count c k n).stalled = s.stalled := rfl

/-! State.send. -/

@[simp] theorem State.send_clk (s : State) (m : Sent) : (s.send m).clk = s.clk := rfl
@[simp] theorem State.send_timeBase (s : State) (m : Sent) : (s.send m).timeBase = s.timeBase := rfl
@[simp] theorem State.send_slew (s : State) (m : Sent) : (s.send m).slew = s.slew := rfl
@[simp] theorem State.send_slewAt (s : State) (m : Sent) : (s.send m).slewAt = s.slewAt := rfl
@[simp] theorem State.send_agenda (s : State) (m : Sent) : (s.send m).agenda = s.agenda := rfl
@[simp] theorem State.send_cur (s : State) (m : Sent) : (s.send m).cur = s.cur := rfl
@[simp] theorem State.send_free (s : State) (m : Sent) : (s.send m).free = s.free := rfl
@[simp] theorem State.send_turn (s : State) (m : Sent) : (s.send m).turn = s.turn := rfl
@[simp] theorem State.send_groups (s : State) (m : Sent) : (s.send m).groups = s.groups := rfl
@[simp] theorem State.send_nextGid (s : State) (m : Sent) : (s.send m).nextGid = s.nextGid := rfl
@[simp] theorem State.send_launches (s : State) (m : Sent) : (s.send m).launches = s.launches := rfl
@[simp] theorem State.send_nextLaunch (s : State) (m : Sent) : (s.send m).nextLaunch = s.nextLaunch := rfl
@[simp] theorem State.send_engines (s : State) (m : Sent) : (s.send m).engines = s.engines := rfl
@[simp] theorem State.send_copies (s : State) (m : Sent) : (s.send m).copies = s.copies := rfl
@[simp] theorem State.send_nextCopy (s : State) (m : Sent) : (s.send m).nextCopy = s.nextCopy := rfl
@[simp] theorem State.send_tasks (s : State) (m : Sent) : (s.send m).tasks = s.tasks := rfl
@[simp] theorem State.send_nextTask (s : State) (m : Sent) : (s.send m).nextTask = s.nextTask := rfl
@[simp] theorem State.send_order (s : State) (m : Sent) : (s.send m).order = s.order := rfl
@[simp] theorem State.send_mem (s : State) (m : Sent) : (s.send m).mem = s.mem := rfl
@[simp] theorem State.send_keys (s : State) (m : Sent) : (s.send m).keys = s.keys := rfl
@[simp] theorem State.send_scopes (s : State) (m : Sent) : (s.send m).scopes = s.scopes := rfl
@[simp] theorem State.send_acks (s : State) (m : Sent) : (s.send m).acks = s.acks := rfl
@[simp] theorem State.send_queues (s : State) (m : Sent) : (s.send m).queues = s.queues := rfl
@[simp] theorem State.send_market (s : State) (m : Sent) : (s.send m).market = s.market := rfl
@[simp] theorem State.send_host (s : State) (m : Sent) : (s.send m).host = s.host := rfl
@[simp] theorem State.send_l2 (s : State) (m : Sent) : (s.send m).l2 = s.l2 := rfl
@[simp] theorem State.send_stalled (s : State) (m : Sent) : (s.send m).stalled = s.stalled := rfl

/-! State.putHost. -/

@[simp] theorem State.putHost_clk (s : State) (a : Nat) (bs : List Byte) : (s.putHost a bs).clk = s.clk := rfl
@[simp] theorem State.putHost_timeBase (s : State) (a : Nat) (bs : List Byte) : (s.putHost a bs).timeBase = s.timeBase := rfl
@[simp] theorem State.putHost_slew (s : State) (a : Nat) (bs : List Byte) : (s.putHost a bs).slew = s.slew := rfl
@[simp] theorem State.putHost_slewAt (s : State) (a : Nat) (bs : List Byte) : (s.putHost a bs).slewAt = s.slewAt := rfl
@[simp] theorem State.putHost_agenda (s : State) (a : Nat) (bs : List Byte) : (s.putHost a bs).agenda = s.agenda := rfl
@[simp] theorem State.putHost_cur (s : State) (a : Nat) (bs : List Byte) : (s.putHost a bs).cur = s.cur := rfl
@[simp] theorem State.putHost_free (s : State) (a : Nat) (bs : List Byte) : (s.putHost a bs).free = s.free := rfl
@[simp] theorem State.putHost_turn (s : State) (a : Nat) (bs : List Byte) : (s.putHost a bs).turn = s.turn := rfl
@[simp] theorem State.putHost_groups (s : State) (a : Nat) (bs : List Byte) : (s.putHost a bs).groups = s.groups := rfl
@[simp] theorem State.putHost_nextGid (s : State) (a : Nat) (bs : List Byte) : (s.putHost a bs).nextGid = s.nextGid := rfl
@[simp] theorem State.putHost_launches (s : State) (a : Nat) (bs : List Byte) : (s.putHost a bs).launches = s.launches := rfl
@[simp] theorem State.putHost_nextLaunch (s : State) (a : Nat) (bs : List Byte) : (s.putHost a bs).nextLaunch = s.nextLaunch := rfl
@[simp] theorem State.putHost_engines (s : State) (a : Nat) (bs : List Byte) : (s.putHost a bs).engines = s.engines := rfl
@[simp] theorem State.putHost_copies (s : State) (a : Nat) (bs : List Byte) : (s.putHost a bs).copies = s.copies := rfl
@[simp] theorem State.putHost_nextCopy (s : State) (a : Nat) (bs : List Byte) : (s.putHost a bs).nextCopy = s.nextCopy := rfl
@[simp] theorem State.putHost_tasks (s : State) (a : Nat) (bs : List Byte) : (s.putHost a bs).tasks = s.tasks := rfl
@[simp] theorem State.putHost_nextTask (s : State) (a : Nat) (bs : List Byte) : (s.putHost a bs).nextTask = s.nextTask := rfl
@[simp] theorem State.putHost_order (s : State) (a : Nat) (bs : List Byte) : (s.putHost a bs).order = s.order := rfl
@[simp] theorem State.putHost_mem (s : State) (a : Nat) (bs : List Byte) : (s.putHost a bs).mem = s.mem := rfl
@[simp] theorem State.putHost_keys (s : State) (a : Nat) (bs : List Byte) : (s.putHost a bs).keys = s.keys := rfl
@[simp] theorem State.putHost_scopes (s : State) (a : Nat) (bs : List Byte) : (s.putHost a bs).scopes = s.scopes := rfl
@[simp] theorem State.putHost_acks (s : State) (a : Nat) (bs : List Byte) : (s.putHost a bs).acks = s.acks := rfl
@[simp] theorem State.putHost_queues (s : State) (a : Nat) (bs : List Byte) : (s.putHost a bs).queues = s.queues := rfl
@[simp] theorem State.putHost_market (s : State) (a : Nat) (bs : List Byte) : (s.putHost a bs).market = s.market := rfl
@[simp] theorem State.putHost_mgmt (s : State) (a : Nat) (bs : List Byte) : (s.putHost a bs).mgmt = s.mgmt := rfl
@[simp] theorem State.putHost_l2 (s : State) (a : Nat) (bs : List Byte) : (s.putHost a bs).l2 = s.l2 := rfl
@[simp] theorem State.putHost_stalled (s : State) (a : Nat) (bs : List Byte) : (s.putHost a bs).stalled = s.stalled := rfl

/-! State.loadLines. -/

@[simp] theorem State.loadLines_clk (s : State) (rs : List Answered) : (s.loadLines rs).clk = s.clk := rfl
@[simp] theorem State.loadLines_timeBase (s : State) (rs : List Answered) : (s.loadLines rs).timeBase = s.timeBase := rfl
@[simp] theorem State.loadLines_slew (s : State) (rs : List Answered) : (s.loadLines rs).slew = s.slew := rfl
@[simp] theorem State.loadLines_slewAt (s : State) (rs : List Answered) : (s.loadLines rs).slewAt = s.slewAt := rfl
@[simp] theorem State.loadLines_agenda (s : State) (rs : List Answered) : (s.loadLines rs).agenda = s.agenda := rfl
@[simp] theorem State.loadLines_cur (s : State) (rs : List Answered) : (s.loadLines rs).cur = s.cur := rfl
@[simp] theorem State.loadLines_free (s : State) (rs : List Answered) : (s.loadLines rs).free = s.free := rfl
@[simp] theorem State.loadLines_turn (s : State) (rs : List Answered) : (s.loadLines rs).turn = s.turn := rfl
@[simp] theorem State.loadLines_groups (s : State) (rs : List Answered) : (s.loadLines rs).groups = s.groups := rfl
@[simp] theorem State.loadLines_nextGid (s : State) (rs : List Answered) : (s.loadLines rs).nextGid = s.nextGid := rfl
@[simp] theorem State.loadLines_launches (s : State) (rs : List Answered) : (s.loadLines rs).launches = s.launches := rfl
@[simp] theorem State.loadLines_nextLaunch (s : State) (rs : List Answered) : (s.loadLines rs).nextLaunch = s.nextLaunch := rfl
@[simp] theorem State.loadLines_engines (s : State) (rs : List Answered) : (s.loadLines rs).engines = s.engines := rfl
@[simp] theorem State.loadLines_copies (s : State) (rs : List Answered) : (s.loadLines rs).copies = s.copies := rfl
@[simp] theorem State.loadLines_nextCopy (s : State) (rs : List Answered) : (s.loadLines rs).nextCopy = s.nextCopy := rfl
@[simp] theorem State.loadLines_tasks (s : State) (rs : List Answered) : (s.loadLines rs).tasks = s.tasks := rfl
@[simp] theorem State.loadLines_nextTask (s : State) (rs : List Answered) : (s.loadLines rs).nextTask = s.nextTask := rfl
@[simp] theorem State.loadLines_order (s : State) (rs : List Answered) : (s.loadLines rs).order = s.order := rfl
@[simp] theorem State.loadLines_mem (s : State) (rs : List Answered) : (s.loadLines rs).mem = s.mem := rfl
@[simp] theorem State.loadLines_keys (s : State) (rs : List Answered) : (s.loadLines rs).keys = s.keys := rfl
@[simp] theorem State.loadLines_scopes (s : State) (rs : List Answered) : (s.loadLines rs).scopes = s.scopes := rfl
@[simp] theorem State.loadLines_acks (s : State) (rs : List Answered) : (s.loadLines rs).acks = s.acks := rfl
@[simp] theorem State.loadLines_queues (s : State) (rs : List Answered) : (s.loadLines rs).queues = s.queues := rfl
@[simp] theorem State.loadLines_market (s : State) (rs : List Answered) : (s.loadLines rs).market = s.market := rfl
@[simp] theorem State.loadLines_host (s : State) (rs : List Answered) : (s.loadLines rs).host = s.host := rfl
@[simp] theorem State.loadLines_l2 (s : State) (rs : List Answered) : (s.loadLines rs).l2 = s.l2 := rfl
@[simp] theorem State.loadLines_stalled (s : State) (rs : List Answered) : (s.loadLines rs).stalled = s.stalled := rfl

/-! State.dropLines. -/

@[simp] theorem State.dropLines_clk (s : State) : s.dropLines.clk = s.clk := rfl
@[simp] theorem State.dropLines_timeBase (s : State) : s.dropLines.timeBase = s.timeBase := rfl
@[simp] theorem State.dropLines_slew (s : State) : s.dropLines.slew = s.slew := rfl
@[simp] theorem State.dropLines_slewAt (s : State) : s.dropLines.slewAt = s.slewAt := rfl
@[simp] theorem State.dropLines_agenda (s : State) : s.dropLines.agenda = s.agenda := rfl
@[simp] theorem State.dropLines_cur (s : State) : s.dropLines.cur = s.cur := rfl
@[simp] theorem State.dropLines_free (s : State) : s.dropLines.free = s.free := rfl
@[simp] theorem State.dropLines_turn (s : State) : s.dropLines.turn = s.turn := rfl
@[simp] theorem State.dropLines_groups (s : State) : s.dropLines.groups = s.groups := rfl
@[simp] theorem State.dropLines_nextGid (s : State) : s.dropLines.nextGid = s.nextGid := rfl
@[simp] theorem State.dropLines_launches (s : State) : s.dropLines.launches = s.launches := rfl
@[simp] theorem State.dropLines_nextLaunch (s : State) : s.dropLines.nextLaunch = s.nextLaunch := rfl
@[simp] theorem State.dropLines_engines (s : State) : s.dropLines.engines = s.engines := rfl
@[simp] theorem State.dropLines_copies (s : State) : s.dropLines.copies = s.copies := rfl
@[simp] theorem State.dropLines_nextCopy (s : State) : s.dropLines.nextCopy = s.nextCopy := rfl
@[simp] theorem State.dropLines_tasks (s : State) : s.dropLines.tasks = s.tasks := rfl
@[simp] theorem State.dropLines_nextTask (s : State) : s.dropLines.nextTask = s.nextTask := rfl
@[simp] theorem State.dropLines_order (s : State) : s.dropLines.order = s.order := rfl
@[simp] theorem State.dropLines_mem (s : State) : s.dropLines.mem = s.mem := rfl
@[simp] theorem State.dropLines_keys (s : State) : s.dropLines.keys = s.keys := rfl
@[simp] theorem State.dropLines_scopes (s : State) : s.dropLines.scopes = s.scopes := rfl
@[simp] theorem State.dropLines_acks (s : State) : s.dropLines.acks = s.acks := rfl
@[simp] theorem State.dropLines_queues (s : State) : s.dropLines.queues = s.queues := rfl
@[simp] theorem State.dropLines_market (s : State) : s.dropLines.market = s.market := rfl
@[simp] theorem State.dropLines_host (s : State) : s.dropLines.host = s.host := rfl
@[simp] theorem State.dropLines_l2 (s : State) : s.dropLines.l2 = s.l2 := rfl
@[simp] theorem State.dropLines_stalled (s : State) : s.dropLines.stalled = s.stalled := rfl

/-! Wave.setEntry. -/

@[simp] theorem Wave.setEntry_spill (w : Wave) (i : Nat) (e : Option Entry) : (w.setEntry i e).spill = w.spill := rfl
@[simp] theorem Wave.setEntry_regs (w : Wave) (i : Nat) (e : Option Entry) : (w.setEntry i e).regs = w.regs := rfl
@[simp] theorem Wave.setEntry_l0 (w : Wave) (i : Nat) (e : Option Entry) : (w.setEntry i e).l0 = w.l0 := rfl
@[simp] theorem Wave.setEntry_l1 (w : Wave) (i : Nat) (e : Option Entry) : (w.setEntry i e).l1 = w.l1 := rfl
@[simp] theorem Wave.setEntry_poison (w : Wave) (i : Nat) (e : Option Entry) : (w.setEntry i e).poison = w.poison := rfl
@[simp] theorem Wave.setEntry_lpoison (w : Wave) (i : Nat) (e : Option Entry) : (w.setEntry i e).lpoison = w.lpoison := rfl
@[simp] theorem Wave.setEntry_preds (w : Wave) (i : Nat) (e : Option Entry) : (w.setEntry i e).preds = w.preds := rfl
@[simp] theorem Wave.setEntry_jm (w : Wave) (i : Nat) (e : Option Entry) : (w.setEntry i e).jm = w.jm := rfl
@[simp] theorem Wave.setEntry_wb (w : Wave) (i : Nat) (e : Option Entry) : (w.setEntry i e).wb = w.wb := rfl
@[simp] theorem Wave.setEntry_nregs (w : Wave) (i : Nat) (e : Option Entry) : (w.setEntry i e).nregs = w.nregs := rfl
@[simp] theorem Wave.setEntry_real (w : Wave) (i : Nat) (e : Option Entry) : (w.setEntry i e).real = w.real := rfl
@[simp] theorem Wave.setEntry_live (w : Wave) (i : Nat) (e : Option Entry) : (w.setEntry i e).live = w.live := rfl
@[simp] theorem Wave.setEntry_pend (w : Wave) (i : Nat) (e : Option Entry) : (w.setEntry i e).pend = w.pend := rfl
@[simp] theorem Wave.setEntry_nextSeq (w : Wave) (i : Nat) (e : Option Entry) : (w.setEntry i e).nextSeq = w.nextSeq := rfl
@[simp] theorem Wave.setEntry_fpctl (w : Wave) (i : Nat) (e : Option Entry) : (w.setEntry i e).fpctl = w.fpctl := rfl
@[simp] theorem Wave.setEntry_fpflags (w : Wave) (i : Nat) (e : Option Entry) : (w.setEntry i e).fpflags = w.fpflags := rfl
@[simp] theorem Wave.setEntry_tcause (w : Wave) (i : Nat) (e : Option Entry) : (w.setEntry i e).tcause = w.tcause := rfl
@[simp] theorem Wave.setEntry_tpc (w : Wave) (i : Nat) (e : Option Entry) : (w.setEntry i e).tpc = w.tpc := rfl
@[simp] theorem Wave.setEntry_tmask (w : Wave) (i : Nat) (e : Option Entry) : (w.setEntry i e).tmask = w.tmask := rfl
@[simp] theorem Wave.setEntry_tdst (w : Wave) (i : Nat) (e : Option Entry) : (w.setEntry i e).tdst = w.tdst := rfl
@[simp] theorem Wave.setEntry_tval (w : Wave) (i : Nat) (e : Option Entry) : (w.setEntry i e).tval = w.tval := rfl
@[simp] theorem Wave.setEntry_tvec (w : Wave) (i : Nat) (e : Option Entry) : (w.setEntry i e).tvec = w.tvec := rfl
@[simp] theorem Wave.setEntry_uten (w : Wave) (i : Nat) (e : Option Entry) : (w.setEntry i e).uten = w.uten := rfl
@[simp] theorem Wave.setEntry_inh (w : Wave) (i : Nat) (e : Option Entry) : (w.setEntry i e).inh = w.inh := rfl
@[simp] theorem Wave.setEntry_brkpark (w : Wave) (i : Nat) (e : Option Entry) : (w.setEntry i e).brkpark = w.brkpark := rfl
@[simp] theorem Wave.setEntry_hmask (w : Wave) (i : Nat) (e : Option Entry) : (w.setEntry i e).hmask = w.hmask := rfl
@[simp] theorem Wave.setEntry_ptraps (w : Wave) (i : Nat) (e : Option Entry) : (w.setEntry i e).ptraps = w.ptraps := rfl
@[simp] theorem Wave.setEntry_faults (w : Wave) (i : Nat) (e : Option Entry) : (w.setEntry i e).faults = w.faults := rfl
@[simp] theorem Wave.setEntry_pslot (w : Wave) (i : Nat) (e : Option Entry) : (w.setEntry i e).pslot = w.pslot := rfl
@[simp] theorem Wave.setEntry_slot (w : Wave) (i : Nat) (e : Option Entry) : (w.setEntry i e).slot = w.slot := rfl
@[simp] theorem Wave.setEntry_tileBase (w : Wave) (i : Nat) (e : Option Entry) : (w.setEntry i e).tileBase = w.tileBase := rfl
@[simp] theorem Wave.setEntry_acct (w : Wave) (i : Nat) (e : Option Entry) : (w.setEntry i e).acct = w.acct := rfl
@[simp] theorem Wave.setEntry_drainEmpty (w : Wave) (i : Nat) (e : Option Entry) : (w.setEntry i e).drainEmpty = w.drainEmpty := rfl
@[simp] theorem Wave.setEntry_pair (w : Wave) (i : Nat) (e : Option Entry) : (w.setEntry i e).pair = w.pair := rfl
@[simp] theorem Wave.setEntry_wdefer (w : Wave) (i : Nat) (e : Option Entry) : (w.setEntry i e).wdefer = w.wdefer := rfl
@[simp] theorem Wave.setEntry_starve (w : Wave) (i : Nat) (e : Option Entry) : (w.setEntry i e).starve = w.starve := rfl
@[simp] theorem Wave.setEntry_ended (w : Wave) (i : Nat) (e : Option Entry) : (w.setEntry i e).ended = w.ended := rfl
@[simp] theorem Wave.setEntry_stopping (w : Wave) (i : Nat) (e : Option Entry) : (w.setEntry i e).stopping = w.stopping := rfl
@[simp] theorem Wave.setEntry_awaitBaton (w : Wave) (i : Nat) (e : Option Entry) : (w.setEntry i e).awaitBaton = w.awaitBaton := rfl

/-! Wave.modEntry. -/

@[simp] theorem Wave.modEntry_spill (w : Wave) (i : Nat) (f : Entry → Entry) : (w.modEntry i f).spill = w.spill := rfl
@[simp] theorem Wave.modEntry_regs (w : Wave) (i : Nat) (f : Entry → Entry) : (w.modEntry i f).regs = w.regs := rfl
@[simp] theorem Wave.modEntry_l0 (w : Wave) (i : Nat) (f : Entry → Entry) : (w.modEntry i f).l0 = w.l0 := rfl
@[simp] theorem Wave.modEntry_l1 (w : Wave) (i : Nat) (f : Entry → Entry) : (w.modEntry i f).l1 = w.l1 := rfl
@[simp] theorem Wave.modEntry_poison (w : Wave) (i : Nat) (f : Entry → Entry) : (w.modEntry i f).poison = w.poison := rfl
@[simp] theorem Wave.modEntry_lpoison (w : Wave) (i : Nat) (f : Entry → Entry) : (w.modEntry i f).lpoison = w.lpoison := rfl
@[simp] theorem Wave.modEntry_preds (w : Wave) (i : Nat) (f : Entry → Entry) : (w.modEntry i f).preds = w.preds := rfl
@[simp] theorem Wave.modEntry_jm (w : Wave) (i : Nat) (f : Entry → Entry) : (w.modEntry i f).jm = w.jm := rfl
@[simp] theorem Wave.modEntry_wb (w : Wave) (i : Nat) (f : Entry → Entry) : (w.modEntry i f).wb = w.wb := rfl
@[simp] theorem Wave.modEntry_nregs (w : Wave) (i : Nat) (f : Entry → Entry) : (w.modEntry i f).nregs = w.nregs := rfl
@[simp] theorem Wave.modEntry_real (w : Wave) (i : Nat) (f : Entry → Entry) : (w.modEntry i f).real = w.real := rfl
@[simp] theorem Wave.modEntry_live (w : Wave) (i : Nat) (f : Entry → Entry) : (w.modEntry i f).live = w.live := rfl
@[simp] theorem Wave.modEntry_pend (w : Wave) (i : Nat) (f : Entry → Entry) : (w.modEntry i f).pend = w.pend := rfl
@[simp] theorem Wave.modEntry_nextSeq (w : Wave) (i : Nat) (f : Entry → Entry) : (w.modEntry i f).nextSeq = w.nextSeq := rfl
@[simp] theorem Wave.modEntry_fpctl (w : Wave) (i : Nat) (f : Entry → Entry) : (w.modEntry i f).fpctl = w.fpctl := rfl
@[simp] theorem Wave.modEntry_fpflags (w : Wave) (i : Nat) (f : Entry → Entry) : (w.modEntry i f).fpflags = w.fpflags := rfl
@[simp] theorem Wave.modEntry_tcause (w : Wave) (i : Nat) (f : Entry → Entry) : (w.modEntry i f).tcause = w.tcause := rfl
@[simp] theorem Wave.modEntry_tpc (w : Wave) (i : Nat) (f : Entry → Entry) : (w.modEntry i f).tpc = w.tpc := rfl
@[simp] theorem Wave.modEntry_tmask (w : Wave) (i : Nat) (f : Entry → Entry) : (w.modEntry i f).tmask = w.tmask := rfl
@[simp] theorem Wave.modEntry_tdst (w : Wave) (i : Nat) (f : Entry → Entry) : (w.modEntry i f).tdst = w.tdst := rfl
@[simp] theorem Wave.modEntry_tval (w : Wave) (i : Nat) (f : Entry → Entry) : (w.modEntry i f).tval = w.tval := rfl
@[simp] theorem Wave.modEntry_tvec (w : Wave) (i : Nat) (f : Entry → Entry) : (w.modEntry i f).tvec = w.tvec := rfl
@[simp] theorem Wave.modEntry_uten (w : Wave) (i : Nat) (f : Entry → Entry) : (w.modEntry i f).uten = w.uten := rfl
@[simp] theorem Wave.modEntry_inh (w : Wave) (i : Nat) (f : Entry → Entry) : (w.modEntry i f).inh = w.inh := rfl
@[simp] theorem Wave.modEntry_brkpark (w : Wave) (i : Nat) (f : Entry → Entry) : (w.modEntry i f).brkpark = w.brkpark := rfl
@[simp] theorem Wave.modEntry_hmask (w : Wave) (i : Nat) (f : Entry → Entry) : (w.modEntry i f).hmask = w.hmask := rfl
@[simp] theorem Wave.modEntry_ptraps (w : Wave) (i : Nat) (f : Entry → Entry) : (w.modEntry i f).ptraps = w.ptraps := rfl
@[simp] theorem Wave.modEntry_faults (w : Wave) (i : Nat) (f : Entry → Entry) : (w.modEntry i f).faults = w.faults := rfl
@[simp] theorem Wave.modEntry_pslot (w : Wave) (i : Nat) (f : Entry → Entry) : (w.modEntry i f).pslot = w.pslot := rfl
@[simp] theorem Wave.modEntry_slot (w : Wave) (i : Nat) (f : Entry → Entry) : (w.modEntry i f).slot = w.slot := rfl
@[simp] theorem Wave.modEntry_tileBase (w : Wave) (i : Nat) (f : Entry → Entry) : (w.modEntry i f).tileBase = w.tileBase := rfl
@[simp] theorem Wave.modEntry_acct (w : Wave) (i : Nat) (f : Entry → Entry) : (w.modEntry i f).acct = w.acct := rfl
@[simp] theorem Wave.modEntry_drainEmpty (w : Wave) (i : Nat) (f : Entry → Entry) : (w.modEntry i f).drainEmpty = w.drainEmpty := rfl
@[simp] theorem Wave.modEntry_pair (w : Wave) (i : Nat) (f : Entry → Entry) : (w.modEntry i f).pair = w.pair := rfl
@[simp] theorem Wave.modEntry_wdefer (w : Wave) (i : Nat) (f : Entry → Entry) : (w.modEntry i f).wdefer = w.wdefer := rfl
@[simp] theorem Wave.modEntry_starve (w : Wave) (i : Nat) (f : Entry → Entry) : (w.modEntry i f).starve = w.starve := rfl
@[simp] theorem Wave.modEntry_ended (w : Wave) (i : Nat) (f : Entry → Entry) : (w.modEntry i f).ended = w.ended := rfl
@[simp] theorem Wave.modEntry_stopping (w : Wave) (i : Nat) (f : Entry → Entry) : (w.modEntry i f).stopping = w.stopping := rfl
@[simp] theorem Wave.modEntry_awaitBaton (w : Wave) (i : Nat) (f : Entry → Entry) : (w.modEntry i f).awaitBaton = w.awaitBaton := rfl

/-! Wave.putReg. -/

@[simp] theorem Wave.putReg_entries (w : Wave) (r l : Nat) (v : W32) (b : Bool) : (w.putReg r l v b).entries = w.entries := rfl
@[simp] theorem Wave.putReg_spill (w : Wave) (r l : Nat) (v : W32) (b : Bool) : (w.putReg r l v b).spill = w.spill := rfl
@[simp] theorem Wave.putReg_l0 (w : Wave) (r l : Nat) (v : W32) (b : Bool) : (w.putReg r l v b).l0 = w.l0 := rfl
@[simp] theorem Wave.putReg_l1 (w : Wave) (r l : Nat) (v : W32) (b : Bool) : (w.putReg r l v b).l1 = w.l1 := rfl
@[simp] theorem Wave.putReg_lpoison (w : Wave) (r l : Nat) (v : W32) (b : Bool) : (w.putReg r l v b).lpoison = w.lpoison := rfl
@[simp] theorem Wave.putReg_preds (w : Wave) (r l : Nat) (v : W32) (b : Bool) : (w.putReg r l v b).preds = w.preds := rfl
@[simp] theorem Wave.putReg_jm (w : Wave) (r l : Nat) (v : W32) (b : Bool) : (w.putReg r l v b).jm = w.jm := rfl
@[simp] theorem Wave.putReg_wb (w : Wave) (r l : Nat) (v : W32) (b : Bool) : (w.putReg r l v b).wb = w.wb := rfl
@[simp] theorem Wave.putReg_nregs (w : Wave) (r l : Nat) (v : W32) (b : Bool) : (w.putReg r l v b).nregs = w.nregs := rfl
@[simp] theorem Wave.putReg_real (w : Wave) (r l : Nat) (v : W32) (b : Bool) : (w.putReg r l v b).real = w.real := rfl
@[simp] theorem Wave.putReg_live (w : Wave) (r l : Nat) (v : W32) (b : Bool) : (w.putReg r l v b).live = w.live := rfl
@[simp] theorem Wave.putReg_pend (w : Wave) (r l : Nat) (v : W32) (b : Bool) : (w.putReg r l v b).pend = w.pend := rfl
@[simp] theorem Wave.putReg_nextSeq (w : Wave) (r l : Nat) (v : W32) (b : Bool) : (w.putReg r l v b).nextSeq = w.nextSeq := rfl
@[simp] theorem Wave.putReg_fpctl (w : Wave) (r l : Nat) (v : W32) (b : Bool) : (w.putReg r l v b).fpctl = w.fpctl := rfl
@[simp] theorem Wave.putReg_fpflags (w : Wave) (r l : Nat) (v : W32) (b : Bool) : (w.putReg r l v b).fpflags = w.fpflags := rfl
@[simp] theorem Wave.putReg_tcause (w : Wave) (r l : Nat) (v : W32) (b : Bool) : (w.putReg r l v b).tcause = w.tcause := rfl
@[simp] theorem Wave.putReg_tpc (w : Wave) (r l : Nat) (v : W32) (b : Bool) : (w.putReg r l v b).tpc = w.tpc := rfl
@[simp] theorem Wave.putReg_tmask (w : Wave) (r l : Nat) (v : W32) (b : Bool) : (w.putReg r l v b).tmask = w.tmask := rfl
@[simp] theorem Wave.putReg_tdst (w : Wave) (r l : Nat) (v : W32) (b : Bool) : (w.putReg r l v b).tdst = w.tdst := rfl
@[simp] theorem Wave.putReg_tval (w : Wave) (r l : Nat) (v : W32) (b : Bool) : (w.putReg r l v b).tval = w.tval := rfl
@[simp] theorem Wave.putReg_tvec (w : Wave) (r l : Nat) (v : W32) (b : Bool) : (w.putReg r l v b).tvec = w.tvec := rfl
@[simp] theorem Wave.putReg_uten (w : Wave) (r l : Nat) (v : W32) (b : Bool) : (w.putReg r l v b).uten = w.uten := rfl
@[simp] theorem Wave.putReg_inh (w : Wave) (r l : Nat) (v : W32) (b : Bool) : (w.putReg r l v b).inh = w.inh := rfl
@[simp] theorem Wave.putReg_brkpark (w : Wave) (r l : Nat) (v : W32) (b : Bool) : (w.putReg r l v b).brkpark = w.brkpark := rfl
@[simp] theorem Wave.putReg_hmask (w : Wave) (r l : Nat) (v : W32) (b : Bool) : (w.putReg r l v b).hmask = w.hmask := rfl
@[simp] theorem Wave.putReg_ptraps (w : Wave) (r l : Nat) (v : W32) (b : Bool) : (w.putReg r l v b).ptraps = w.ptraps := rfl
@[simp] theorem Wave.putReg_faults (w : Wave) (r l : Nat) (v : W32) (b : Bool) : (w.putReg r l v b).faults = w.faults := rfl
@[simp] theorem Wave.putReg_pslot (w : Wave) (r l : Nat) (v : W32) (b : Bool) : (w.putReg r l v b).pslot = w.pslot := rfl
@[simp] theorem Wave.putReg_slot (w : Wave) (r l : Nat) (v : W32) (b : Bool) : (w.putReg r l v b).slot = w.slot := rfl
@[simp] theorem Wave.putReg_tileBase (w : Wave) (r l : Nat) (v : W32) (b : Bool) : (w.putReg r l v b).tileBase = w.tileBase := rfl
@[simp] theorem Wave.putReg_acct (w : Wave) (r l : Nat) (v : W32) (b : Bool) : (w.putReg r l v b).acct = w.acct := rfl
@[simp] theorem Wave.putReg_drainEmpty (w : Wave) (r l : Nat) (v : W32) (b : Bool) : (w.putReg r l v b).drainEmpty = w.drainEmpty := rfl
@[simp] theorem Wave.putReg_pair (w : Wave) (r l : Nat) (v : W32) (b : Bool) : (w.putReg r l v b).pair = w.pair := rfl
@[simp] theorem Wave.putReg_wdefer (w : Wave) (r l : Nat) (v : W32) (b : Bool) : (w.putReg r l v b).wdefer = w.wdefer := rfl
@[simp] theorem Wave.putReg_starve (w : Wave) (r l : Nat) (v : W32) (b : Bool) : (w.putReg r l v b).starve = w.starve := rfl
@[simp] theorem Wave.putReg_ended (w : Wave) (r l : Nat) (v : W32) (b : Bool) : (w.putReg r l v b).ended = w.ended := rfl
@[simp] theorem Wave.putReg_stopping (w : Wave) (r l : Nat) (v : W32) (b : Bool) : (w.putReg r l v b).stopping = w.stopping := rfl
@[simp] theorem Wave.putReg_awaitBaton (w : Wave) (r l : Nat) (v : W32) (b : Bool) : (w.putReg r l v b).awaitBaton = w.awaitBaton := rfl

/-! Wave.putLast. -/

@[simp] theorem Wave.putLast_entries (w : Wave) (l : Nat) (v : W64) : (w.putLast l v).entries = w.entries := rfl
@[simp] theorem Wave.putLast_spill (w : Wave) (l : Nat) (v : W64) : (w.putLast l v).spill = w.spill := rfl
@[simp] theorem Wave.putLast_regs (w : Wave) (l : Nat) (v : W64) : (w.putLast l v).regs = w.regs := rfl
@[simp] theorem Wave.putLast_poison (w : Wave) (l : Nat) (v : W64) : (w.putLast l v).poison = w.poison := rfl
@[simp] theorem Wave.putLast_preds (w : Wave) (l : Nat) (v : W64) : (w.putLast l v).preds = w.preds := rfl
@[simp] theorem Wave.putLast_jm (w : Wave) (l : Nat) (v : W64) : (w.putLast l v).jm = w.jm := rfl
@[simp] theorem Wave.putLast_wb (w : Wave) (l : Nat) (v : W64) : (w.putLast l v).wb = w.wb := rfl
@[simp] theorem Wave.putLast_nregs (w : Wave) (l : Nat) (v : W64) : (w.putLast l v).nregs = w.nregs := rfl
@[simp] theorem Wave.putLast_real (w : Wave) (l : Nat) (v : W64) : (w.putLast l v).real = w.real := rfl
@[simp] theorem Wave.putLast_live (w : Wave) (l : Nat) (v : W64) : (w.putLast l v).live = w.live := rfl
@[simp] theorem Wave.putLast_pend (w : Wave) (l : Nat) (v : W64) : (w.putLast l v).pend = w.pend := rfl
@[simp] theorem Wave.putLast_nextSeq (w : Wave) (l : Nat) (v : W64) : (w.putLast l v).nextSeq = w.nextSeq := rfl
@[simp] theorem Wave.putLast_fpctl (w : Wave) (l : Nat) (v : W64) : (w.putLast l v).fpctl = w.fpctl := rfl
@[simp] theorem Wave.putLast_fpflags (w : Wave) (l : Nat) (v : W64) : (w.putLast l v).fpflags = w.fpflags := rfl
@[simp] theorem Wave.putLast_tcause (w : Wave) (l : Nat) (v : W64) : (w.putLast l v).tcause = w.tcause := rfl
@[simp] theorem Wave.putLast_tpc (w : Wave) (l : Nat) (v : W64) : (w.putLast l v).tpc = w.tpc := rfl
@[simp] theorem Wave.putLast_tmask (w : Wave) (l : Nat) (v : W64) : (w.putLast l v).tmask = w.tmask := rfl
@[simp] theorem Wave.putLast_tdst (w : Wave) (l : Nat) (v : W64) : (w.putLast l v).tdst = w.tdst := rfl
@[simp] theorem Wave.putLast_tval (w : Wave) (l : Nat) (v : W64) : (w.putLast l v).tval = w.tval := rfl
@[simp] theorem Wave.putLast_tvec (w : Wave) (l : Nat) (v : W64) : (w.putLast l v).tvec = w.tvec := rfl
@[simp] theorem Wave.putLast_uten (w : Wave) (l : Nat) (v : W64) : (w.putLast l v).uten = w.uten := rfl
@[simp] theorem Wave.putLast_inh (w : Wave) (l : Nat) (v : W64) : (w.putLast l v).inh = w.inh := rfl
@[simp] theorem Wave.putLast_brkpark (w : Wave) (l : Nat) (v : W64) : (w.putLast l v).brkpark = w.brkpark := rfl
@[simp] theorem Wave.putLast_hmask (w : Wave) (l : Nat) (v : W64) : (w.putLast l v).hmask = w.hmask := rfl
@[simp] theorem Wave.putLast_ptraps (w : Wave) (l : Nat) (v : W64) : (w.putLast l v).ptraps = w.ptraps := rfl
@[simp] theorem Wave.putLast_faults (w : Wave) (l : Nat) (v : W64) : (w.putLast l v).faults = w.faults := rfl
@[simp] theorem Wave.putLast_pslot (w : Wave) (l : Nat) (v : W64) : (w.putLast l v).pslot = w.pslot := rfl
@[simp] theorem Wave.putLast_slot (w : Wave) (l : Nat) (v : W64) : (w.putLast l v).slot = w.slot := rfl
@[simp] theorem Wave.putLast_tileBase (w : Wave) (l : Nat) (v : W64) : (w.putLast l v).tileBase = w.tileBase := rfl
@[simp] theorem Wave.putLast_acct (w : Wave) (l : Nat) (v : W64) : (w.putLast l v).acct = w.acct := rfl
@[simp] theorem Wave.putLast_drainEmpty (w : Wave) (l : Nat) (v : W64) : (w.putLast l v).drainEmpty = w.drainEmpty := rfl
@[simp] theorem Wave.putLast_pair (w : Wave) (l : Nat) (v : W64) : (w.putLast l v).pair = w.pair := rfl
@[simp] theorem Wave.putLast_wdefer (w : Wave) (l : Nat) (v : W64) : (w.putLast l v).wdefer = w.wdefer := rfl
@[simp] theorem Wave.putLast_starve (w : Wave) (l : Nat) (v : W64) : (w.putLast l v).starve = w.starve := rfl
@[simp] theorem Wave.putLast_ended (w : Wave) (l : Nat) (v : W64) : (w.putLast l v).ended = w.ended := rfl
@[simp] theorem Wave.putLast_stopping (w : Wave) (l : Nat) (v : W64) : (w.putLast l v).stopping = w.stopping := rfl
@[simp] theorem Wave.putLast_awaitBaton (w : Wave) (l : Nat) (v : W64) : (w.putLast l v).awaitBaton = w.awaitBaton := rfl

/-! Wave.putPred. -/

@[simp] theorem Wave.putPred_entries (w : Wave) (n l : Nat) (b : Bool) : (w.putPred n l b).entries = w.entries := rfl
@[simp] theorem Wave.putPred_spill (w : Wave) (n l : Nat) (b : Bool) : (w.putPred n l b).spill = w.spill := rfl
@[simp] theorem Wave.putPred_regs (w : Wave) (n l : Nat) (b : Bool) : (w.putPred n l b).regs = w.regs := rfl
@[simp] theorem Wave.putPred_l0 (w : Wave) (n l : Nat) (b : Bool) : (w.putPred n l b).l0 = w.l0 := rfl
@[simp] theorem Wave.putPred_l1 (w : Wave) (n l : Nat) (b : Bool) : (w.putPred n l b).l1 = w.l1 := rfl
@[simp] theorem Wave.putPred_poison (w : Wave) (n l : Nat) (b : Bool) : (w.putPred n l b).poison = w.poison := rfl
@[simp] theorem Wave.putPred_lpoison (w : Wave) (n l : Nat) (b : Bool) : (w.putPred n l b).lpoison = w.lpoison := rfl
@[simp] theorem Wave.putPred_jm (w : Wave) (n l : Nat) (b : Bool) : (w.putPred n l b).jm = w.jm := rfl
@[simp] theorem Wave.putPred_wb (w : Wave) (n l : Nat) (b : Bool) : (w.putPred n l b).wb = w.wb := rfl
@[simp] theorem Wave.putPred_nregs (w : Wave) (n l : Nat) (b : Bool) : (w.putPred n l b).nregs = w.nregs := rfl
@[simp] theorem Wave.putPred_real (w : Wave) (n l : Nat) (b : Bool) : (w.putPred n l b).real = w.real := rfl
@[simp] theorem Wave.putPred_live (w : Wave) (n l : Nat) (b : Bool) : (w.putPred n l b).live = w.live := rfl
@[simp] theorem Wave.putPred_pend (w : Wave) (n l : Nat) (b : Bool) : (w.putPred n l b).pend = w.pend := rfl
@[simp] theorem Wave.putPred_nextSeq (w : Wave) (n l : Nat) (b : Bool) : (w.putPred n l b).nextSeq = w.nextSeq := rfl
@[simp] theorem Wave.putPred_fpctl (w : Wave) (n l : Nat) (b : Bool) : (w.putPred n l b).fpctl = w.fpctl := rfl
@[simp] theorem Wave.putPred_fpflags (w : Wave) (n l : Nat) (b : Bool) : (w.putPred n l b).fpflags = w.fpflags := rfl
@[simp] theorem Wave.putPred_tcause (w : Wave) (n l : Nat) (b : Bool) : (w.putPred n l b).tcause = w.tcause := rfl
@[simp] theorem Wave.putPred_tpc (w : Wave) (n l : Nat) (b : Bool) : (w.putPred n l b).tpc = w.tpc := rfl
@[simp] theorem Wave.putPred_tmask (w : Wave) (n l : Nat) (b : Bool) : (w.putPred n l b).tmask = w.tmask := rfl
@[simp] theorem Wave.putPred_tdst (w : Wave) (n l : Nat) (b : Bool) : (w.putPred n l b).tdst = w.tdst := rfl
@[simp] theorem Wave.putPred_tval (w : Wave) (n l : Nat) (b : Bool) : (w.putPred n l b).tval = w.tval := rfl
@[simp] theorem Wave.putPred_tvec (w : Wave) (n l : Nat) (b : Bool) : (w.putPred n l b).tvec = w.tvec := rfl
@[simp] theorem Wave.putPred_uten (w : Wave) (n l : Nat) (b : Bool) : (w.putPred n l b).uten = w.uten := rfl
@[simp] theorem Wave.putPred_inh (w : Wave) (n l : Nat) (b : Bool) : (w.putPred n l b).inh = w.inh := rfl
@[simp] theorem Wave.putPred_brkpark (w : Wave) (n l : Nat) (b : Bool) : (w.putPred n l b).brkpark = w.brkpark := rfl
@[simp] theorem Wave.putPred_hmask (w : Wave) (n l : Nat) (b : Bool) : (w.putPred n l b).hmask = w.hmask := rfl
@[simp] theorem Wave.putPred_ptraps (w : Wave) (n l : Nat) (b : Bool) : (w.putPred n l b).ptraps = w.ptraps := rfl
@[simp] theorem Wave.putPred_faults (w : Wave) (n l : Nat) (b : Bool) : (w.putPred n l b).faults = w.faults := rfl
@[simp] theorem Wave.putPred_pslot (w : Wave) (n l : Nat) (b : Bool) : (w.putPred n l b).pslot = w.pslot := rfl
@[simp] theorem Wave.putPred_slot (w : Wave) (n l : Nat) (b : Bool) : (w.putPred n l b).slot = w.slot := rfl
@[simp] theorem Wave.putPred_tileBase (w : Wave) (n l : Nat) (b : Bool) : (w.putPred n l b).tileBase = w.tileBase := rfl
@[simp] theorem Wave.putPred_acct (w : Wave) (n l : Nat) (b : Bool) : (w.putPred n l b).acct = w.acct := rfl
@[simp] theorem Wave.putPred_drainEmpty (w : Wave) (n l : Nat) (b : Bool) : (w.putPred n l b).drainEmpty = w.drainEmpty := rfl
@[simp] theorem Wave.putPred_pair (w : Wave) (n l : Nat) (b : Bool) : (w.putPred n l b).pair = w.pair := rfl
@[simp] theorem Wave.putPred_wdefer (w : Wave) (n l : Nat) (b : Bool) : (w.putPred n l b).wdefer = w.wdefer := rfl
@[simp] theorem Wave.putPred_starve (w : Wave) (n l : Nat) (b : Bool) : (w.putPred n l b).starve = w.starve := rfl
@[simp] theorem Wave.putPred_ended (w : Wave) (n l : Nat) (b : Bool) : (w.putPred n l b).ended = w.ended := rfl
@[simp] theorem Wave.putPred_stopping (w : Wave) (n l : Nat) (b : Bool) : (w.putPred n l b).stopping = w.stopping := rfl
@[simp] theorem Wave.putPred_awaitBaton (w : Wave) (n l : Nat) (b : Bool) : (w.putPred n l b).awaitBaton = w.awaitBaton := rfl

/-! Wave.addPend. -/

@[simp] theorem Wave.addPend_entries (w : Wave) (ws : List RegWrite) (fl : W32) (t : Option PTrap) : (w.addPend ws fl t).entries = w.entries := rfl
@[simp] theorem Wave.addPend_spill (w : Wave) (ws : List RegWrite) (fl : W32) (t : Option PTrap) : (w.addPend ws fl t).spill = w.spill := rfl
@[simp] theorem Wave.addPend_regs (w : Wave) (ws : List RegWrite) (fl : W32) (t : Option PTrap) : (w.addPend ws fl t).regs = w.regs := rfl
@[simp] theorem Wave.addPend_l0 (w : Wave) (ws : List RegWrite) (fl : W32) (t : Option PTrap) : (w.addPend ws fl t).l0 = w.l0 := rfl
@[simp] theorem Wave.addPend_l1 (w : Wave) (ws : List RegWrite) (fl : W32) (t : Option PTrap) : (w.addPend ws fl t).l1 = w.l1 := rfl
@[simp] theorem Wave.addPend_poison (w : Wave) (ws : List RegWrite) (fl : W32) (t : Option PTrap) : (w.addPend ws fl t).poison = w.poison := rfl
@[simp] theorem Wave.addPend_lpoison (w : Wave) (ws : List RegWrite) (fl : W32) (t : Option PTrap) : (w.addPend ws fl t).lpoison = w.lpoison := rfl
@[simp] theorem Wave.addPend_preds (w : Wave) (ws : List RegWrite) (fl : W32) (t : Option PTrap) : (w.addPend ws fl t).preds = w.preds := rfl
@[simp] theorem Wave.addPend_jm (w : Wave) (ws : List RegWrite) (fl : W32) (t : Option PTrap) : (w.addPend ws fl t).jm = w.jm := rfl
@[simp] theorem Wave.addPend_wb (w : Wave) (ws : List RegWrite) (fl : W32) (t : Option PTrap) : (w.addPend ws fl t).wb = w.wb := rfl
@[simp] theorem Wave.addPend_nregs (w : Wave) (ws : List RegWrite) (fl : W32) (t : Option PTrap) : (w.addPend ws fl t).nregs = w.nregs := rfl
@[simp] theorem Wave.addPend_real (w : Wave) (ws : List RegWrite) (fl : W32) (t : Option PTrap) : (w.addPend ws fl t).real = w.real := rfl
@[simp] theorem Wave.addPend_live (w : Wave) (ws : List RegWrite) (fl : W32) (t : Option PTrap) : (w.addPend ws fl t).live = w.live := rfl
@[simp] theorem Wave.addPend_fpctl (w : Wave) (ws : List RegWrite) (fl : W32) (t : Option PTrap) : (w.addPend ws fl t).fpctl = w.fpctl := rfl
@[simp] theorem Wave.addPend_fpflags (w : Wave) (ws : List RegWrite) (fl : W32) (t : Option PTrap) : (w.addPend ws fl t).fpflags = w.fpflags := rfl
@[simp] theorem Wave.addPend_tcause (w : Wave) (ws : List RegWrite) (fl : W32) (t : Option PTrap) : (w.addPend ws fl t).tcause = w.tcause := rfl
@[simp] theorem Wave.addPend_tpc (w : Wave) (ws : List RegWrite) (fl : W32) (t : Option PTrap) : (w.addPend ws fl t).tpc = w.tpc := rfl
@[simp] theorem Wave.addPend_tmask (w : Wave) (ws : List RegWrite) (fl : W32) (t : Option PTrap) : (w.addPend ws fl t).tmask = w.tmask := rfl
@[simp] theorem Wave.addPend_tdst (w : Wave) (ws : List RegWrite) (fl : W32) (t : Option PTrap) : (w.addPend ws fl t).tdst = w.tdst := rfl
@[simp] theorem Wave.addPend_tval (w : Wave) (ws : List RegWrite) (fl : W32) (t : Option PTrap) : (w.addPend ws fl t).tval = w.tval := rfl
@[simp] theorem Wave.addPend_tvec (w : Wave) (ws : List RegWrite) (fl : W32) (t : Option PTrap) : (w.addPend ws fl t).tvec = w.tvec := rfl
@[simp] theorem Wave.addPend_uten (w : Wave) (ws : List RegWrite) (fl : W32) (t : Option PTrap) : (w.addPend ws fl t).uten = w.uten := rfl
@[simp] theorem Wave.addPend_inh (w : Wave) (ws : List RegWrite) (fl : W32) (t : Option PTrap) : (w.addPend ws fl t).inh = w.inh := rfl
@[simp] theorem Wave.addPend_brkpark (w : Wave) (ws : List RegWrite) (fl : W32) (t : Option PTrap) : (w.addPend ws fl t).brkpark = w.brkpark := rfl
@[simp] theorem Wave.addPend_hmask (w : Wave) (ws : List RegWrite) (fl : W32) (t : Option PTrap) : (w.addPend ws fl t).hmask = w.hmask := rfl
@[simp] theorem Wave.addPend_ptraps (w : Wave) (ws : List RegWrite) (fl : W32) (t : Option PTrap) : (w.addPend ws fl t).ptraps = w.ptraps := rfl
@[simp] theorem Wave.addPend_faults (w : Wave) (ws : List RegWrite) (fl : W32) (t : Option PTrap) : (w.addPend ws fl t).faults = w.faults := rfl
@[simp] theorem Wave.addPend_pslot (w : Wave) (ws : List RegWrite) (fl : W32) (t : Option PTrap) : (w.addPend ws fl t).pslot = w.pslot := rfl
@[simp] theorem Wave.addPend_slot (w : Wave) (ws : List RegWrite) (fl : W32) (t : Option PTrap) : (w.addPend ws fl t).slot = w.slot := rfl
@[simp] theorem Wave.addPend_tileBase (w : Wave) (ws : List RegWrite) (fl : W32) (t : Option PTrap) : (w.addPend ws fl t).tileBase = w.tileBase := rfl
@[simp] theorem Wave.addPend_acct (w : Wave) (ws : List RegWrite) (fl : W32) (t : Option PTrap) : (w.addPend ws fl t).acct = w.acct := rfl
@[simp] theorem Wave.addPend_drainEmpty (w : Wave) (ws : List RegWrite) (fl : W32) (t : Option PTrap) : (w.addPend ws fl t).drainEmpty = w.drainEmpty := rfl
@[simp] theorem Wave.addPend_pair (w : Wave) (ws : List RegWrite) (fl : W32) (t : Option PTrap) : (w.addPend ws fl t).pair = w.pair := rfl
@[simp] theorem Wave.addPend_wdefer (w : Wave) (ws : List RegWrite) (fl : W32) (t : Option PTrap) : (w.addPend ws fl t).wdefer = w.wdefer := rfl
@[simp] theorem Wave.addPend_starve (w : Wave) (ws : List RegWrite) (fl : W32) (t : Option PTrap) : (w.addPend ws fl t).starve = w.starve := rfl
@[simp] theorem Wave.addPend_ended (w : Wave) (ws : List RegWrite) (fl : W32) (t : Option PTrap) : (w.addPend ws fl t).ended = w.ended := rfl
@[simp] theorem Wave.addPend_stopping (w : Wave) (ws : List RegWrite) (fl : W32) (t : Option PTrap) : (w.addPend ws fl t).stopping = w.stopping := rfl
@[simp] theorem Wave.addPend_awaitBaton (w : Wave) (ws : List RegWrite) (fl : W32) (t : Option PTrap) : (w.addPend ws fl t).awaitBaton = w.awaitBaton := rfl

/-! Wave.orFlags. -/

@[simp] theorem Wave.orFlags_entries (w : Wave) (fl : W32) : (w.orFlags fl).entries = w.entries := rfl
@[simp] theorem Wave.orFlags_spill (w : Wave) (fl : W32) : (w.orFlags fl).spill = w.spill := rfl
@[simp] theorem Wave.orFlags_regs (w : Wave) (fl : W32) : (w.orFlags fl).regs = w.regs := rfl
@[simp] theorem Wave.orFlags_l0 (w : Wave) (fl : W32) : (w.orFlags fl).l0 = w.l0 := rfl
@[simp] theorem Wave.orFlags_l1 (w : Wave) (fl : W32) : (w.orFlags fl).l1 = w.l1 := rfl
@[simp] theorem Wave.orFlags_poison (w : Wave) (fl : W32) : (w.orFlags fl).poison = w.poison := rfl
@[simp] theorem Wave.orFlags_lpoison (w : Wave) (fl : W32) : (w.orFlags fl).lpoison = w.lpoison := rfl
@[simp] theorem Wave.orFlags_preds (w : Wave) (fl : W32) : (w.orFlags fl).preds = w.preds := rfl
@[simp] theorem Wave.orFlags_jm (w : Wave) (fl : W32) : (w.orFlags fl).jm = w.jm := rfl
@[simp] theorem Wave.orFlags_wb (w : Wave) (fl : W32) : (w.orFlags fl).wb = w.wb := rfl
@[simp] theorem Wave.orFlags_nregs (w : Wave) (fl : W32) : (w.orFlags fl).nregs = w.nregs := rfl
@[simp] theorem Wave.orFlags_real (w : Wave) (fl : W32) : (w.orFlags fl).real = w.real := rfl
@[simp] theorem Wave.orFlags_live (w : Wave) (fl : W32) : (w.orFlags fl).live = w.live := rfl
@[simp] theorem Wave.orFlags_pend (w : Wave) (fl : W32) : (w.orFlags fl).pend = w.pend := rfl
@[simp] theorem Wave.orFlags_nextSeq (w : Wave) (fl : W32) : (w.orFlags fl).nextSeq = w.nextSeq := rfl
@[simp] theorem Wave.orFlags_fpctl (w : Wave) (fl : W32) : (w.orFlags fl).fpctl = w.fpctl := rfl
@[simp] theorem Wave.orFlags_tcause (w : Wave) (fl : W32) : (w.orFlags fl).tcause = w.tcause := rfl
@[simp] theorem Wave.orFlags_tpc (w : Wave) (fl : W32) : (w.orFlags fl).tpc = w.tpc := rfl
@[simp] theorem Wave.orFlags_tmask (w : Wave) (fl : W32) : (w.orFlags fl).tmask = w.tmask := rfl
@[simp] theorem Wave.orFlags_tdst (w : Wave) (fl : W32) : (w.orFlags fl).tdst = w.tdst := rfl
@[simp] theorem Wave.orFlags_tval (w : Wave) (fl : W32) : (w.orFlags fl).tval = w.tval := rfl
@[simp] theorem Wave.orFlags_tvec (w : Wave) (fl : W32) : (w.orFlags fl).tvec = w.tvec := rfl
@[simp] theorem Wave.orFlags_uten (w : Wave) (fl : W32) : (w.orFlags fl).uten = w.uten := rfl
@[simp] theorem Wave.orFlags_inh (w : Wave) (fl : W32) : (w.orFlags fl).inh = w.inh := rfl
@[simp] theorem Wave.orFlags_brkpark (w : Wave) (fl : W32) : (w.orFlags fl).brkpark = w.brkpark := rfl
@[simp] theorem Wave.orFlags_hmask (w : Wave) (fl : W32) : (w.orFlags fl).hmask = w.hmask := rfl
@[simp] theorem Wave.orFlags_ptraps (w : Wave) (fl : W32) : (w.orFlags fl).ptraps = w.ptraps := rfl
@[simp] theorem Wave.orFlags_faults (w : Wave) (fl : W32) : (w.orFlags fl).faults = w.faults := rfl
@[simp] theorem Wave.orFlags_pslot (w : Wave) (fl : W32) : (w.orFlags fl).pslot = w.pslot := rfl
@[simp] theorem Wave.orFlags_slot (w : Wave) (fl : W32) : (w.orFlags fl).slot = w.slot := rfl
@[simp] theorem Wave.orFlags_tileBase (w : Wave) (fl : W32) : (w.orFlags fl).tileBase = w.tileBase := rfl
@[simp] theorem Wave.orFlags_acct (w : Wave) (fl : W32) : (w.orFlags fl).acct = w.acct := rfl
@[simp] theorem Wave.orFlags_drainEmpty (w : Wave) (fl : W32) : (w.orFlags fl).drainEmpty = w.drainEmpty := rfl
@[simp] theorem Wave.orFlags_pair (w : Wave) (fl : W32) : (w.orFlags fl).pair = w.pair := rfl
@[simp] theorem Wave.orFlags_wdefer (w : Wave) (fl : W32) : (w.orFlags fl).wdefer = w.wdefer := rfl
@[simp] theorem Wave.orFlags_starve (w : Wave) (fl : W32) : (w.orFlags fl).starve = w.starve := rfl
@[simp] theorem Wave.orFlags_ended (w : Wave) (fl : W32) : (w.orFlags fl).ended = w.ended := rfl
@[simp] theorem Wave.orFlags_stopping (w : Wave) (fl : W32) : (w.orFlags fl).stopping = w.stopping := rfl
@[simp] theorem Wave.orFlags_awaitBaton (w : Wave) (fl : W32) : (w.orFlags fl).awaitBaton = w.awaitBaton := rfl

/-! Wave.raise. -/

@[simp] theorem Wave.raise_entries (w : Wave) (t : PTrap) : (w.raise t).entries = w.entries := rfl
@[simp] theorem Wave.raise_spill (w : Wave) (t : PTrap) : (w.raise t).spill = w.spill := rfl
@[simp] theorem Wave.raise_regs (w : Wave) (t : PTrap) : (w.raise t).regs = w.regs := rfl
@[simp] theorem Wave.raise_l0 (w : Wave) (t : PTrap) : (w.raise t).l0 = w.l0 := rfl
@[simp] theorem Wave.raise_l1 (w : Wave) (t : PTrap) : (w.raise t).l1 = w.l1 := rfl
@[simp] theorem Wave.raise_poison (w : Wave) (t : PTrap) : (w.raise t).poison = w.poison := rfl
@[simp] theorem Wave.raise_lpoison (w : Wave) (t : PTrap) : (w.raise t).lpoison = w.lpoison := rfl
@[simp] theorem Wave.raise_preds (w : Wave) (t : PTrap) : (w.raise t).preds = w.preds := rfl
@[simp] theorem Wave.raise_jm (w : Wave) (t : PTrap) : (w.raise t).jm = w.jm := rfl
@[simp] theorem Wave.raise_wb (w : Wave) (t : PTrap) : (w.raise t).wb = w.wb := rfl
@[simp] theorem Wave.raise_nregs (w : Wave) (t : PTrap) : (w.raise t).nregs = w.nregs := rfl
@[simp] theorem Wave.raise_real (w : Wave) (t : PTrap) : (w.raise t).real = w.real := rfl
@[simp] theorem Wave.raise_live (w : Wave) (t : PTrap) : (w.raise t).live = w.live := rfl
@[simp] theorem Wave.raise_pend (w : Wave) (t : PTrap) : (w.raise t).pend = w.pend := rfl
@[simp] theorem Wave.raise_nextSeq (w : Wave) (t : PTrap) : (w.raise t).nextSeq = w.nextSeq := rfl
@[simp] theorem Wave.raise_fpctl (w : Wave) (t : PTrap) : (w.raise t).fpctl = w.fpctl := rfl
@[simp] theorem Wave.raise_fpflags (w : Wave) (t : PTrap) : (w.raise t).fpflags = w.fpflags := rfl
@[simp] theorem Wave.raise_tcause (w : Wave) (t : PTrap) : (w.raise t).tcause = w.tcause := rfl
@[simp] theorem Wave.raise_tpc (w : Wave) (t : PTrap) : (w.raise t).tpc = w.tpc := rfl
@[simp] theorem Wave.raise_tmask (w : Wave) (t : PTrap) : (w.raise t).tmask = w.tmask := rfl
@[simp] theorem Wave.raise_tdst (w : Wave) (t : PTrap) : (w.raise t).tdst = w.tdst := rfl
@[simp] theorem Wave.raise_tval (w : Wave) (t : PTrap) : (w.raise t).tval = w.tval := rfl
@[simp] theorem Wave.raise_tvec (w : Wave) (t : PTrap) : (w.raise t).tvec = w.tvec := rfl
@[simp] theorem Wave.raise_uten (w : Wave) (t : PTrap) : (w.raise t).uten = w.uten := rfl
@[simp] theorem Wave.raise_inh (w : Wave) (t : PTrap) : (w.raise t).inh = w.inh := rfl
@[simp] theorem Wave.raise_brkpark (w : Wave) (t : PTrap) : (w.raise t).brkpark = w.brkpark := rfl
@[simp] theorem Wave.raise_hmask (w : Wave) (t : PTrap) : (w.raise t).hmask = w.hmask := rfl
@[simp] theorem Wave.raise_faults (w : Wave) (t : PTrap) : (w.raise t).faults = w.faults := rfl
@[simp] theorem Wave.raise_pslot (w : Wave) (t : PTrap) : (w.raise t).pslot = w.pslot := rfl
@[simp] theorem Wave.raise_slot (w : Wave) (t : PTrap) : (w.raise t).slot = w.slot := rfl
@[simp] theorem Wave.raise_tileBase (w : Wave) (t : PTrap) : (w.raise t).tileBase = w.tileBase := rfl
@[simp] theorem Wave.raise_acct (w : Wave) (t : PTrap) : (w.raise t).acct = w.acct := rfl
@[simp] theorem Wave.raise_drainEmpty (w : Wave) (t : PTrap) : (w.raise t).drainEmpty = w.drainEmpty := rfl
@[simp] theorem Wave.raise_pair (w : Wave) (t : PTrap) : (w.raise t).pair = w.pair := rfl
@[simp] theorem Wave.raise_wdefer (w : Wave) (t : PTrap) : (w.raise t).wdefer = w.wdefer := rfl
@[simp] theorem Wave.raise_starve (w : Wave) (t : PTrap) : (w.raise t).starve = w.starve := rfl
@[simp] theorem Wave.raise_ended (w : Wave) (t : PTrap) : (w.raise t).ended = w.ended := rfl
@[simp] theorem Wave.raise_stopping (w : Wave) (t : PTrap) : (w.raise t).stopping = w.stopping := rfl
@[simp] theorem Wave.raise_awaitBaton (w : Wave) (t : PTrap) : (w.raise t).awaitBaton = w.awaitBaton := rfl

end Sys2Proof.Machine
end

