-- ==== Sys2Proof/Laws/Lanes.lean ====
section
/-! SUPPORT. Lanes: what the shared shapes of the per-lane instructions do. -/

namespace Sys2Proof.Machine

theorem withIssuer_next {s : State} {x : Issue} (h : s.issuer? = some x) (k : Issue → State) : withIssuer s k = .next (k x) := by
  simp [withIssuer, h]

theorem exec_of_insn_none {x : Issue} (h : Hdr) (hi : x.e.insn = none) : x.exec h = execMask h x.w x.e := by
  simp [Issue.exec, hi]

/-- Without pending results an entry goes on READY. -/
theorem next_of_clean {x : Issue} (hi : x.e.insn = none) (h : Hdr) (w : Wave) (hp : w.pend = []) : x.next h w = x.e.on := by
  simp only [Issue.next, Entry.arm, hi, Option.isSome_none, Wave.goOn, Wave.pendBefore, hp, Entry.on]
  by_cases hy : h.y <;> simp [hy]

theorem finish_of_clean {s : State} {x : Issue} (hi : x.e.insn = none) (h : Hdr) (w : Wave) (hp : w.pend = []) :
    finish s x h w = goesOn s x w := by
  simp [finish, goesOn, next_of_clean hi h w hp]

/-- Unpoisoned sources raise no fault. -/
theorem poisonFaults_nil {x : Issue} {h : Hdr} {srcs : Nat → List Src} (hs : Unpoisoned x (x.exec h) srcs) :
    poisonFaults x h srcs = [] := by
  simp only [poisonFaults, List.filterMap_eq_nil_iff]
  intro l hl
  have : (srcs l).findSome? (fun r => r.bad) = none :=
    List.findSome?_eq_none_iff.2 fun r hr => hs l ((mem_lanes _ l).1 hl) r hr
  simp [this]

@[simp] theorem goodLanes_nil (x : Issue) (h : Hdr) : goodLanes x h [] = Mask.lanes (x.exec h) := by
  have : x.exec h &&& ~~~(0 : Mask) = x.exec h := by
    apply BitVec.eq_of_getLsbD_eq
    intro i hi
    have h0 : BitVec.getLsbD (0 : Mask) i = false := BitVec.getLsbD_zero
    rw [BitVec.getLsbD_and, BitVec.getLsbD_not, h0]
    simp [hi]
  simp only [goodLanes, faultMask, List.map_nil, ofList_nil, this]

/-- Keys of register words are distinct for distinct registers or lanes. -/
theorem regKey_inj {r r' l l' : Nat} (hl : l < 32) (hl' : l' < 32) (h : regKey r l = regKey r' l') : r = r' ∧ l = l' := by
  unfold regKey at h; omega

/-- A lane's result in a physical register, with the last-result file. -/
def Wave.putPhys (w : Wave) (dst : Option Nat) (is64 : Bool) (lane : Nat) (v : W64) : Wave :=
  match dst with
  | none => w.putLast lane v
  | some r =>
    let w := (w.putLast lane v).putReg r lane (lo32 v) false
    if is64 then w.putReg (r + 1) lane (hi32 v) false else w

/-- One lane of it. -/
theorem putPhys_eq {w : Wave} (hp : w.poison = []) (hq : w.lpoison = []) (dst : Option Nat) (is64 : Bool) (a : Nat) (v : W64) (ha : a < 32) :
    ∃ regs, w.putPhys dst is64 a v = { w with regs := regs, l1 := sput 0 a (sget 0 w.l0 a) w.l1, l0 := sput 0 a v w.l0 } ∧
      ∀ r l, l < 32 → sget 0 regs (regKey r l) =
        if l = a ∧ dst = some r then lo32 v
        else if l = a ∧ is64 = true ∧ dst.map (· + 1) = some r then hi32 v
        else w.rawReg r l := by
  cases dst with
  | none => exact ⟨w.regs, by simp [Wave.putPhys, Wave.putLast, hq], by simp [Wave.rawReg]⟩
  | some d =>
    cases is64 with
    | false =>
      refine ⟨sput 0 (regKey d a) (lo32 v) w.regs, by simp [Wave.putPhys, Wave.putLast, Wave.putReg, hp, hq], ?_⟩
      intro r l hl
      simp only [sget_sput, Wave.rawReg, Option.some.injEq, Bool.false_eq_true, false_and, and_false, if_false]
      by_cases h1 : l = a ∧ d = r
      · simp [h1.1, h1.2]
      · have : regKey r l ≠ regKey d a := fun e => h1 ⟨(regKey_inj hl ha e).2, (regKey_inj hl ha e).1.symm⟩
        simp [this, h1]
    | true =>
      refine ⟨sput 0 (regKey (d + 1) a) (hi32 v) (sput 0 (regKey d a) (lo32 v) w.regs),
        by simp [Wave.putPhys, Wave.putLast, Wave.putReg, hp, hq], ?_⟩
      intro r l hl
      simp only [sget_sput, Wave.rawReg, Option.some.injEq, Option.map_some, true_and]
      by_cases h1 : l = a ∧ d = r
      · have : regKey r l ≠ regKey (d + 1) a := fun e => by have := (regKey_inj hl ha e).1; omega
        rw [if_neg this]; simp [h1.1, h1.2]
      · have e1 : regKey r l ≠ regKey d a := fun e => h1 ⟨(regKey_inj hl ha e).2, (regKey_inj hl ha e).1.symm⟩
        by_cases h2 : l = a ∧ d + 1 = r
        · have h3 : ¬ d = d + 1 := by omega
          simp [← h2.2, h2.1]
        · have e2 : regKey r l ≠ regKey (d + 1) a := fun e => h2 ⟨(regKey_inj hl ha e).2, (regKey_inj hl ha e).1.symm⟩
          simp [e1, e2, h1, h2]

/-- The results of a list of lanes, in the registers and the last-result file. -/
theorem foldl_putPhys (dst : Option Nat) (is64 : Bool) (v : Nat → W64) (ls : List Nat) (w : Wave) (hn : ls.Nodup) (hl : ∀ l ∈ ls, l < 32)
    (hp : w.poison = []) (hq : w.lpoison = []) :
    ∃ regs l0 l1, ls.foldl (fun w l => w.putPhys dst is64 l (v l)) w = { w with regs := regs, l0 := l0, l1 := l1 } ∧
      (∀ r l, l < 32 → sget 0 regs (regKey r l) =
        if l ∈ ls ∧ dst = some r then lo32 (v l)
        else if l ∈ ls ∧ is64 = true ∧ dst.map (· + 1) = some r then hi32 (v l)
        else w.rawReg r l) ∧
      (∀ l, sget 0 l0 l = if l ∈ ls then v l else sget 0 w.l0 l) ∧
      (∀ l, sget 0 l1 l = if l ∈ ls then sget 0 w.l0 l else sget 0 w.l1 l) := by
  induction ls generalizing w with
  | nil => exact ⟨w.regs, w.l0, w.l1, rfl, by simp [Wave.rawReg], by simp, by simp⟩
  | cons a ls ih =>
    have ha : a < 32 := hl a (List.mem_cons_self ..)
    have hna : a ∉ ls := (List.nodup_cons.1 hn).1
    obtain ⟨regs1, h1, hr1⟩ := putPhys_eq hp hq dst is64 a (v a) ha
    obtain ⟨regs, l0, l1, hw, hr, h0, hl1⟩ := ih (w.putPhys dst is64 a (v a)) (List.nodup_cons.1 hn).2
      (fun l hm => hl l (List.mem_cons_of_mem a hm)) (by rw [h1]; exact hp) (by rw [h1]; exact hq)
    refine ⟨regs, l0, l1, by rw [List.foldl_cons, hw, h1], ?_, ?_, ?_⟩
    · intro r l hl'
      rw [hr r l hl', h1]
      have := hr1 r l hl'
      simp only [Wave.rawReg] at this ⊢
      rw [this]
      by_cases hla : l = a
      · subst hla; simp [hna]
      · simp [List.mem_cons, hla]
    · intro l
      rw [h0 l, h1]
      simp only [sget_sput, List.mem_cons]
      by_cases hla : l = a
      · subst hla; simp [hna]
      · simp [hla]
    · intro l
      rw [hl1 l, h1]
      simp only [sget_sput, List.mem_cons]
      by_cases hla : l = a
      · subst hla; simp [hna]
      · simp [hla]

/-- The same for the lanes of a mask. -/
theorem foldl_putPhys_words (dst : Option Nat) (is64 : Bool) (v : Nat → W64) (m : Mask) (w : Wave) (hp : w.poison = []) (hq : w.lpoison = []) :
    ∃ regs l0 l1, (Mask.lanes m).foldl (fun w l => w.putPhys dst is64 l (v l)) w = { w with regs := regs, l0 := l0, l1 := l1 } ∧
      DstWords w m dst is64 v regs ∧ LastResult w m v l0 l1 := by
  obtain ⟨regs, l0, l1, hw, hr, h0, h1⟩ := foldl_putPhys dst is64 v (Mask.lanes m) w (lanes_nodup _) (fun l hl => lanes_lt hl) hp hq
  refine ⟨regs, l0, l1, hw, ?_, ?_, ?_⟩
  · intro r l hl
    rw [hr r l hl]
    simp only [mem_lanes]
  · intro l; rw [h0 l]; simp only [mem_lanes]
  · intro l; rw [h1 l]; simp only [mem_lanes]

theorem putDst_eq (w : Wave) (d : Byte) (is64 : Bool) (l : Nat) (v : W64) : w.putDst d is64 l v = w.putPhys (dstReg w d) is64 l v := by
  by_cases hd : d = 0xFF
  · simp only [Wave.putDst, Wave.putPhys, dstReg, if_pos hd]
  · simp only [Wave.putDst, Wave.putPhys, dstReg, if_neg hd]
    rfl

theorem putPhys_wb (w : Wave) (dst : Option Nat) (is64 : Bool) (l : Nat) (v : W64) : (w.putPhys dst is64 l v).wb = w.wb := by
  cases dst <;> cases is64 <;> rfl

/-- The results of the lanes of a mask in a destination (R190, R196). -/
theorem foldl_putDst_words (d : Byte) (is64 : Bool) (v : Nat → W64) (m : Mask) (w : Wave) (hp : w.poison = []) (hq : w.lpoison = []) :
    ∃ regs l0 l1, (Mask.lanes m).foldl (fun w l => w.putDst d is64 l (v l)) w = { w with regs := regs, l0 := l0, l1 := l1 } ∧
      DstWords w m (dstReg w d) is64 v regs ∧ LastResult w m v l0 l1 := by
  have key : ∀ (ls : List Nat) (w' : Wave), w'.wb = w.wb →
      ls.foldl (fun w l => w.putDst d is64 l (v l)) w' = ls.foldl (fun u l => u.putPhys (dstReg w d) is64 l (v l)) w' := by
    intro ls
    induction ls with
    | nil => intro _ _; rfl
    | cons a ls ih =>
      intro w' hw'
      have hd : dstReg w' d = dstReg w d := by simp only [dstReg, Wave.physOf, hw']
      rw [List.foldl_cons, List.foldl_cons, putDst_eq, hd]
      exact ih _ (by rw [putPhys_wb, hw'])
  rw [key _ w rfl]
  exact foldl_putPhys_words (dstReg w d) is64 v m w hp hq

/-- A per-lane instruction with unpoisoned sources writes its result and goes on. -/
theorem perLane_result {s : State} {x : Issue} (hi : x.e.insn = none) (hc : Clean x) (h : Hdr) (d : Byte) (is64 : Bool)
    {srcs : Nat → List Src} (hs : Unpoisoned x (x.exec h) srcs) (f : Nat → W64) :
    LaneResult s x (x.exec h) d is64 f (perLane s x h d is64 srcs f) := by
  obtain ⟨regs, l0, l1, hw, hr, hl⟩ := foldl_putDst_words d is64 f (x.exec h) x.w hc.2.1 hc.2.2.1
  refine ⟨regs, l0, l1, ?_, hr, hl⟩
  simp only [perLane, poisonFaults_nil hs, goodLanes_nil, finishLanes, hw]
  rw [finish_of_clean hi]
  exact hc.1

/-! ## Sources of a wave without poison and pending results -/

theorem readKey_of_clean {w : Wave} (hp : w.pend = []) (free key : Nat) (b : W32 × Bool) : w.readKey free key b = b := by
  simp [Wave.readKey, Wave.pendingAt, hp]

theorem readReg_of_clean {x : Issue} (hc : Clean x) (free r l : Nat) : x.w.readReg free r l = (x.w.rawReg r l, false) := by
  simp [Wave.readReg, readKey_of_clean hc.1, hc.2.1]

/-- A clean wave sees the group's own value of a uniform register. -/
theorem seenAt_of_clean {x : Issue} (hc : Clean x) (n : Nat) : x.g.seenAt x.ref.wi n = (sget 0 x.g.sregs n, false) := by
  have hn : (x.g.unseen.find? fun u => u.reg == n).bind (fun u => (aget u.views x.ref.wi).bind List.head?) = none := by
    cases hf : x.g.unseen.find? fun u => u.reg == n with
    | none => rfl
    | some u => simp [hc.2.2.2.2 u (List.mem_of_find?_eq_some hf)]
  simp [Group.seenAt, hn, hc.2.2.2.1]

theorem readSreg_of_clean {x : Issue} (hc : Clean x) (free n : Nat) : readSreg x free n = (sget 0 x.g.sregs n, false) := by
  simp [readSreg, readKey_of_clean hc.1, seenAt_of_clean hc]

theorem srcReg_of_clean {x : Issue} (hc : Clean x) (free : Nat) (is64 : Bool) (r l : Nat) :
    srcReg x.w free is64 r l = { val := regValue x.w is64 r l, bad := none } := by
  cases is64 <;> simp [srcReg, readReg_of_clean hc, regValue]

theorem srcSreg_of_clean {x : Issue} (hc : Clean x) (free : Nat) (is64 : Bool) (n : Nat) :
    (srcSreg x free is64 n).bad = none := by
  cases is64 <;> simp [srcSreg, readSreg_of_clean hc]

theorem srcLast_of_clean {x : Issue} (hc : Clean x) (free : Nat) (is64 one : Bool) (l : Nat) :
    (srcLast x.w free is64 one l).bad = none := by
  simp [srcLast, hc.2.2.1]

@[simp] theorem srcA_bad (s : State) (x : Issue) (f : RF) (t : Ty) (l : Nat) : (srcA s x f t l).bad = (readSrc s x t f.a l).bad := rfl
@[simp] theorem srcB_bad (s : State) (x : Issue) (f : RF) (t : Ty) (l : Nat) : (srcB s x f t l).bad = (readSrc s x t f.b l).bad := rfl
@[simp] theorem srcC_bad (s : State) (x : Issue) (f : RF) (t : Ty) (l : Nat) : (srcC s x f t l).bad = (readSrc s x t f.c l).bad := rfl

@[simp] theorem readS_bad_of_clean {x : Issue} (hc : Clean x) (s : State) (is64 : Bool) (n : Byte) : (readS s x is64 n).bad = none :=
  srcSreg_of_clean hc ..

/-- No operand of a clean wave is poisoned. -/
theorem readSrc_bad_of_clean {x : Issue} (hc : Clean x) (s : State) (t : Ty) (c : Byte) (l : Nat) : (readSrc s x t c l).bad = none := by
  simp only [readSrc, apply_ite Src.bad, srcReg_of_clean hc, srcLast_of_clean hc, srcSreg_of_clean hc, ite_self]

/-- Sources of a clean wave are unpoisoned in every lane. -/
theorem unpoisoned_of_bad {x : Issue} (m : Mask) (srcs : Nat → List Src) (h : ∀ l, ∀ r ∈ srcs l, r.bad = none) : Unpoisoned x m srcs :=
  fun l _ => h l

/-- A per-lane instruction of a clean wave, run. -/
theorem perLane_runs {s : State} {x : Issue} (hx : Issues s x) (hc : Clean x) (h : Hdr) (d : Byte) (is64 : Bool)
    (srcs : Nat → List Src) (hs : ∀ l, ∀ r ∈ srcs l, r.bad = none) (f : Nat → W64) :
    LaneResult s x (execMask h x.w x.e) d is64 f (perLane s x h d is64 srcs f) := by
  have := perLane_result (s := s) hx.2 hc h d is64 (unpoisoned_of_bad (x.exec h) srcs hs) f
  rwa [exec_of_insn_none h hx.2] at this

/-- A result in a physical register of a clean wave, run. -/
theorem regResult_runs {s : State} {x : Issue} (hx : Issues s x) (hc : Clean x) (h : Hdr) (dst : Option Nat) (is64 : Bool) (f : Nat → W64) :
    RegResult s x (execMask h x.w x.e) dst is64 f
      (finish s x h ((Mask.lanes (execMask h x.w x.e)).foldl (fun w l => w.putPhys dst is64 l (f l)) x.w)) := by
  obtain ⟨regs, l0, l1, hw, hr, hl⟩ := foldl_putPhys_words dst is64 f (execMask h x.w x.e) x.w hc.2.1 hc.2.2.1
  refine ⟨regs, l0, l1, ?_, hr, hl⟩
  rw [hw, finish_of_clean hx.2]
  exact hc.1

/-! ## Exceptions of the whole entry -/

theorem aget_record (r : FaultRec) (ls : List Nat) (fs : List (Nat × FaultRec)) (l : Nat) :
    aget (ls.foldl (fun fs l => aput l r fs) fs) l = if l ∈ ls then some r else aget fs l := by
  induction ls generalizing fs with
  | nil => simp
  | cons a ls ih =>
    rw [List.foldl_cons, ih, aget_aput]
    by_cases h : l ∈ ls
    · simp [h]
    · by_cases ha : l = a
      · simp [ha]
      · simp [h, ha]

/-- An entry with a real lane parks. -/
theorem parkWhole_parks {s : State} {x : Issue} (hi : x.e.insn = none) (h : Hdr) (hm : x.e.mask &&& x.w.real ≠ 0) (c : Cause) (v : W64) :
    Parks s x h c v (parkWhole s x h c v) := by
  refine ⟨(Mask.lanes (x.e.mask &&& x.w.real)).foldl (fun fs l => aput l { cause := c, skip := false, pc := x.e.pc, value := v } fs) x.w.faults,
    ?_, fun l => by rw [aget_record]; simp only [mem_lanes]⟩
  simp only [parkWhole, if_neg hm, Wave.parkEntry, Wave.record, Wave.goOn, Entry.arm, hi, Option.isSome_none, Bool.false_eq_true,
    if_false, Entry.parked, Wave.setEntry]

theorem mask_real_of_exec {x : Issue} {h : Hdr} (hm : execMask h x.w x.e &&& x.w.real ≠ 0) : x.e.mask &&& x.w.real ≠ 0 := by
  intro h0
  apply hm
  unfold execMask
  split
  · simp only []
    generalize (if h.gn = true then ~~~(x.w.preds[h.gp.toNat]?.getD 0) else x.w.preds[h.gp.toNat]?.getD 0) = p
    rw [BitVec.and_assoc, BitVec.and_comm p, ← BitVec.and_assoc, h0]
    simp
  · exact h0

theorem acts_of_exec {x : Issue} {h : Hdr} (hi : x.e.insn = none) (hm : execMask h x.w x.e &&& x.w.real ≠ 0) : x.acts h = true := by
  simp only [Issue.acts, exec_of_insn_none h hi]
  exact decide_eq_true hm

/-! ## Widths of sources -/

theorem tyWidth_pos (t : Ty) : 0 < tyWidth t := by cases t <;> decide

theorem tyBits_le (t : Ty) : tyBits t ≤ 64 := by cases t <;> decide

theorem tyWidth_le (t : Ty) : tyWidth t ≤ 64 := by cases t <;> decide

theorem tyBits_eq (t : Ty) : tyBits t = tyWidth t * elemCount t := by cases t <;> rfl

theorem readSrc_lt (s : State) (x : Issue) (t : Ty) (c : Byte) (l : Nat) : (readSrc s x t c l).val.toNat < 2 ^ tyBits t := by
  simp only [readSrc, BitVec.toNat_ofNat]
  exact lt_of_le_of_lt (Nat.mod_le _ _) (Nat.mod_lt _ (Nat.two_pow_pos _))

end Sys2Proof.Machine
end

