-- ==== Sys2Proof/Laws/Integer.lean ====
section
/-! SUPPORT. Integer: elements of operands, fitted results, and the bits that the integer operations compute. -/

namespace Sys2Proof.Machine

/-! ## Elements -/

theorem tyWidth_of_packed {t : Ty} (h : tyPacked t = true) : tyWidth t = 16 := by cases t <;> simp_all [tyPacked, tyWidth]

theorem elemAt_lt (t : Ty) (v : W64) (k : Nat) : elemAt t v k < 2 ^ tyWidth t := Nat.mod_lt _ (Nat.two_pow_pos _)

/-- An operand's elements, in order. -/
theorem elems_eq (t : Ty) (v : W64) : elems t v = (List.range (elemCount t)).map (elemAt t v) := by
  by_cases h : tyPacked t
  · simp [elems, elemCount, h, elemAt, tyWidth_of_packed h, List.range_succ]
  · simp [elems, elemCount, h, elemAt, List.range_succ]

/-- An element of an operand made of element patterns. -/
theorem elemAt_ofElems (t : Ty) (g : Nat → Nat) (hg : ∀ k, g k < 2 ^ tyWidth t) {k : Nat} (hk : k < elemCount t) :
    elemAt t (ofElems t ((List.range (elemCount t)).map g)) k = g k := by
  by_cases h : tyPacked t
  · have w := tyWidth_of_packed h
    have h0 := hg 0
    have h1 := hg 1
    rw [w] at h0 h1
    simp only [elemCount, h, if_true] at hk
    have : k = 0 ∨ k = 1 := by omega
    rcases this with rfl | rfl <;>
      simp only [elemAt, ofElems, elemCount, h, w, if_true, List.range_succ, List.range_zero, List.nil_append, List.cons_append,
        List.map_cons, List.map_nil, List.foldr_cons, List.foldr_nil, BitVec.toNat_ofNat] <;> omega
  · simp only [elemCount, h] at hk
    have hk : k = 0 := by simpa using hk
    subst hk
    have hw := tyWidth_le t
    have h64 : (2 : Nat) ^ tyWidth t ≤ 2 ^ 64 := Nat.pow_le_pow_right (by decide) hw
    have h0 := hg 0
    simp only [elemAt, ofElems, elemCount, h, List.range_succ, List.range_zero, List.nil_append, Bool.false_eq_true, if_false,
      List.map_cons, List.map_nil, List.foldr_cons, List.foldr_nil, BitVec.toNat_ofNat, Nat.mul_zero, pow_zero, Nat.div_one, Nat.add_zero]
    rw [Nat.mod_eq_of_lt h0, Nat.mod_eq_of_lt (lt_of_lt_of_le h0 h64), Nat.mod_eq_of_lt h0]

theorem zip2_map (f : Nat → Nat → Nat) (g g' : Nat → Nat) (l : List Nat) :
    zip2 f (l.map g) (l.map g') = l.map fun k => f (g k) (g' k) := by
  induction l with
  | nil => rfl
  | cons a l ih => simp [zip2, ih]

/-! ## Fitting (R216) -/

theorem fit_lt (t : Ty) (sat : Bool) (z : Int) : fit t sat z < 2 ^ tyWidth t := by
  simp only [fit]
  have h2 : (0 : Int) < 2 ^ tyWidth t := by positivity
  have := Int.emod_lt_of_pos (if sat = true then max (typeMin t) (min (typeMax t) z) else z) h2
  have h0 := Int.emod_nonneg (if sat = true then max (typeMin t) (min (typeMax t) z) else z) h2.ne'
  zify
  rw [Int.toNat_of_nonneg h0]
  exact this

theorem fit_cast (t : Ty) (sat : Bool) (z : Int) :
    (fit t sat z : Int) = (if sat then max (typeMin t) (min (typeMax t) z) else z) % 2 ^ tyWidth t := by
  simp only [fit]
  rw [Int.toNat_of_nonneg (Int.emod_nonneg _ (by positivity))]

/-- Values of a type survive the trip through their pattern. -/
theorem intOf_of_mod (t : Ty) {z : Int} (h0 : typeMin t ≤ z) (h1 : z ≤ typeMax t) {e : Nat} (he : (e : Int) = z % 2 ^ tyWidth t) :
    intOf t e = z := by
  obtain ⟨n, hn⟩ : ∃ n, tyWidth t = n + 1 := ⟨tyWidth t - 1, by have := tyWidth_pos t; omega⟩
  have hp : (0 : Int) < 2 ^ n := by positivity
  have hpw : (2 : Int) ^ (n + 1) = 2 * 2 ^ n := by rw [pow_succ]; ring
  have hpN : ((2 ^ n : Nat) : Int) = 2 ^ n := by push_cast; rfl
  unfold typeMin at h0
  unfold typeMax at h1
  unfold intOf
  rw [hn] at h0 h1 he ⊢
  simp only [Nat.add_sub_cancel] at h0 h1 ⊢
  by_cases hs : t.isSigned
  · simp only [hs, if_true, Bool.true_and, decide_eq_true_eq] at h0 h1 ⊢
    by_cases hz : 0 ≤ z
    · rw [Int.emod_eq_of_lt hz (by rw [hpw]; omega)] at he
      rw [if_neg (by zify; omega)]
      exact he
    · have he' : (e : Int) = z + 2 ^ (n + 1) := by
        rw [he, ← Int.add_emod_right, Int.emod_eq_of_lt (by rw [hpw]; omega) (by rw [hpw]; omega)]
      rw [if_pos (by zify; rw [hpw] at he'; omega)]
      rw [he']; ring
  · simp only [hs, Bool.false_and, Bool.false_eq_true, if_false] at h0 h1 ⊢
    rw [he, Int.emod_eq_of_lt h0 (by omega)]

theorem typeMin_le_max (t : Ty) : typeMin t ≤ typeMax t := by
  have h : (0 : Int) < 2 ^ (tyWidth t - 1) := by positivity
  have h' : (0 : Int) < 2 ^ tyWidth t := by positivity
  unfold typeMin typeMax
  split <;> omega

/-- Fitting is what R216 says of it. -/
theorem fitted_fit (t : Ty) (sat : Bool) (z : Int) : Fitted t sat z (fit t sat z) := by
  refine ⟨fit_lt t sat z, ?_⟩
  cases sat with
  | true =>
    have := typeMin_le_max t
    exact intOf_of_mod t (le_max_left _ _) (max_le this (min_le_left _ _)) (by simpa using fit_cast t true z)
  | false =>
    have := fit_cast t false z
    simp only [Bool.false_eq_true, if_false] at this ⊢
    rw [this]
    exact Int.mod_modEq _ _

/-- An exact operation on two operands, fitted element by element. -/
theorem elemAt_intOp2 (t : Ty) (sat : Bool) (op : Int → Int → Int) (a b : W64) {k : Nat} (hk : k < elemCount t) :
    elemAt t (intOp2 t sat op a b) k = fit t sat (op (intOf t (elemAt t a k)) (intOf t (elemAt t b k))) := by
  rw [intOp2, elems_eq, elems_eq, zip2_map]
  exact elemAt_ofElems t _ (fun _ => fit_lt ..) hk

theorem fitted_intOp2 (t : Ty) (sat : Bool) (op : Int → Int → Int) (a b : W64) {k : Nat} (hk : k < elemCount t) :
    Fitted t sat (op (intOf t (elemAt t a k)) (intOf t (elemAt t b k))) (elemAt t (intOp2 t sat op a b) k) := by
  rw [elemAt_intOp2 t sat op a b hk]; exact fitted_fit ..

theorem intOf_nonneg {t : Ty} (h : t.isSigned = false) (e : Nat) : 0 ≤ intOf t e := by simp [intOf, h]

/-- An instruction of the shape laneInt2 meets R215 and R216. -/
theorem laneInt2_result {mk : Hdr → RF → Instr} {op : Ty → Int → Int → Int}
    (he : ∀ h f s, exec (mk h f) s = laneInt2 s h f op) : IntegerResult mk op := by
  intro h f s x hx hc
  refine ⟨_, _, by rw [he, laneInt2, withIssuer_next hx.1], perLane_runs hx hc h f.d _ _ ?_ _, ?_⟩
  · intro l r hr
    simp only [List.mem_cons, List.not_mem_nil, or_false] at hr
    rcases hr with rfl | rfl <;> simp [readSrc_bad_of_clean hc]
  · intro l k hk
    exact fitted_intOp2 _ _ (op (WF.ty f)) _ _ hk

end Sys2Proof.Machine
end

