-- ==== Sys2Proof/Laws/Float.lean ====
section
/-! SUPPORT. Float: predicate results, sticky flags, pending results, and element-by-element floating-point operations. -/

namespace Sys2Proof.Machine

/-! ## Predicates -/

theorem modAt_eq_set {α : Type} (i : Nat) (f : α → α) (d : α) (l : List α) : modAt i f l = l.set i (f (l[i]?.getD d)) := by
  induction l generalizing i with
  | nil => cases i <;> rfl
  | cons a l ih => cases i with
    | zero => rfl
    | succ i => simp [modAt, ih]

theorem getLsbD_put (p : Mask) (b : Bool) (a l : Nat) (ha : a < 32) :
    (if b then p ||| Mask.one a else p &&& ~~~(Mask.one a)).getLsbD l = if l = a then b else p.getLsbD l := by
  by_cases hl : l < 32
  · cases b with
    | true =>
      simp only [if_true, BitVec.getLsbD_or, getLsbD_one a l ha]
      by_cases h : l = a <;> simp [h]
    | false =>
      simp only [Bool.false_eq_true, if_false, BitVec.getLsbD_and, BitVec.getLsbD_not, getLsbD_one a l ha]
      by_cases h : l = a <;> simp [h, hl]
  · have h : ¬ l = a := by omega
    rw [if_neg h, BitVec.getLsbD_of_ge _ l (by omega), BitVec.getLsbD_of_ge p l (by omega)]

/-- A mask of given bits. -/
theorem exists_mask (p : Nat → Bool) : ∃ m : Mask, ∀ l < 32, m.getLsbD l = p l := by
  refine ⟨Mask.ofList ((List.range 32).filter p), fun l hl => ?_⟩
  rw [getLsbD_ofList _ (fun l h => by simpa using (List.mem_filter.1 h).1)]
  simp [hl]

/-- The predicate bits of a list of lanes. -/
theorem foldl_putPred (n : Nat) (v : Nat → Bool) (ls : List Nat) (w : Wave) (hl : ∀ l ∈ ls, l < 32) :
    ∃ p, ls.foldl (fun w l => w.putPred n l (v l)) w = { w with preds := w.preds.set n p } ∧
      ∀ l, p.getLsbD l = if l ∈ ls then v l else w.pred n l := by
  by_cases hn : n < w.preds.length
  · induction ls generalizing w with
    | nil =>
      refine ⟨w.preds[n], ?_, by simp [Wave.pred, hn]⟩
      rw [List.foldl_nil, List.set_getElem_self]
    | cons a ls ih =>
      have ha : a < 32 := hl a (List.mem_cons_self ..)
      obtain ⟨p, hw, hp⟩ := ih (w.putPred n a (v a)) (fun l hm => hl l (List.mem_cons_of_mem a hm))
        (by simpa [Wave.putPred, modAt_eq_set n _ (0 : Mask)] using hn)
      refine ⟨p, ?_, ?_⟩
      · rw [List.foldl_cons, hw]
        simp only [Wave.putPred, modAt_eq_set n _ (0 : Mask), List.set_set]
      · intro l
        rw [hp l]
        by_cases h : l ∈ ls
        · simp [h]
        · simp only [h, if_false, List.mem_cons, or_false]
          simp only [Wave.pred, Wave.putPred, modAt_eq_set n _ (0 : Mask), List.getElem?_set_self hn, Option.getD_some]
          rw [getLsbD_put _ _ _ _ ha]
          by_cases hla : l = a <;> simp [hla]
  · have hset : ∀ p, w.preds.set n p = w.preds := fun p => List.set_eq_of_length_le (by omega)
    have hid : ∀ (ls : List Nat) , ls.foldl (fun w l => w.putPred n l (v l)) w = w := by
      intro ls
      induction ls with
      | nil => rfl
      | cons a ls ih => rw [List.foldl_cons, Wave.putPred, modAt_eq_set n _ (0 : Mask), hset]; exact ih
    obtain ⟨p, hp⟩ := exists_mask fun l => if l ∈ ls then v l else w.pred n l
    refine ⟨p, by rw [hid, hset], fun l => ?_⟩
    by_cases hl32 : l < 32
    · exact hp l hl32
    · have : l ∉ ls := fun h => hl32 (hl l h)
      simp [this, BitVec.getLsbD_of_ge p l (by omega), Wave.pred, BitVec.getLsbD_of_ge _ l (Nat.le_of_not_lt hl32)]

theorem foldl_putPred_mask (n : Nat) (v : Nat → Bool) (m : Mask) (w : Wave) :
    ∃ p, (Mask.lanes m).foldl (fun w l => w.putPred n l (v l)) w = { w with preds := w.preds.set n p } ∧
      ∀ l, p.getLsbD l = if m.getLsbD l then v l else w.pred n l := by
  obtain ⟨p, h, hp⟩ := foldl_putPred n v (Mask.lanes m) w fun l hl => lanes_lt hl
  exact ⟨p, h, fun l => by rw [hp l]; simp only [mem_lanes]⟩

/-- A per-lane instruction of a clean wave with a predicate destination, run. -/
theorem perLanePred_runs {s : State} {x : Issue} (hx : Issues s x) (hc : Clean x) (h : Hdr) (d : Byte)
    (srcs : Nat → List Src) (hs : ∀ l, ∀ r ∈ srcs l, r.bad = none) (f : Nat → Bool) :
    PredResult s x (execMask h x.w x.e) d f (perLanePred s x h d srcs f) := by
  obtain ⟨p, hw, hp⟩ := foldl_putPred_mask d.toNat f (execMask h x.w x.e) x.w
  refine ⟨p, ?_, hp⟩
  simp only [perLanePred, poisonFaults_nil (unpoisoned_of_bad (x.exec h) srcs hs), goodLanes_nil, finishLanes, exec_of_insn_none h hx.2, hw]
  rw [finish_of_clean hx.2]
  exact hc.1

/-! ## Flags -/

theorem testBit_unionFl (ls : List Nat) (fl : Nat → Nat) (i : Nat) : (unionFl ls fl).testBit i = true ↔ ∃ l ∈ ls, (fl l).testBit i = true := by
  have key : ∀ (ls : List Nat) (a : Nat), (ls.foldl (fun a l => a ||| fl l) a).testBit i = true ↔ a.testBit i = true ∨ ∃ l ∈ ls, (fl l).testBit i = true := by
    intro ls
    induction ls with
    | nil => simp
    | cons b ls ih => intro a; rw [List.foldl_cons, ih]; simp [or_assoc]
  rw [unionFl, key]; simp

/-- No trap is enabled. -/
theorem fpTrap_none {x : Issue} (hu : Untrapped x) (w : Wave) (hw : w.fpctl = x.w.fpctl) (ls : List Nat) (fl : Nat → Nat) (d : W32) (pc : W64) :
    fpTrap w ls fl d pc = none := by
  have h : x.w.fpctl.toNat % 32 = 0 := hu
  simp [fpTrap, Wave.enabled, hw, h]

/-- The flags of the real lanes of a mask. -/
theorem flags_after (w : Wave) (m : Mask) (fl : Nat → Nat) :
    FlagsAfter w m (fun l i => (fl l).testBit i = true)
      (w.fpflags ||| BitVec.ofNat 32 (unionFl ((Mask.lanes m).filter fun l => w.real.getLsbD l) fl)) := by
  intro i hi
  rw [BitVec.getLsbD_or, BitVec.getLsbD_ofNat, Bool.or_eq_true]
  simp only [hi, decide_true, Bool.true_and, testBit_unionFl, List.mem_filter, mem_lanes, BitVec.getLsbD_and, Bool.and_eq_true]

/-- A fixed-latency floating-point instruction without traps, run. -/
theorem perLaneFp_runs {s : State} {x : Issue} (hx : Issues s x) (hc : Clean x) (hu : Untrapped x) (h : Hdr) (d : Byte) (is64 : Bool)
    (srcs : Nat → List Src) (hs : ∀ l, ∀ r ∈ srcs l, r.bad = none) (f : Nat → LaneOut) :
    FpResult s x (execMask h x.w x.e) d is64 (fun l => (f l).val) (fun l i => (f l).fl.testBit i = true) (perLaneFp s x h d is64 srcs f) := by
  obtain ⟨regs, l0, l1, hw, hr, hl⟩ := foldl_putDst_words d is64 (fun l => (f l).val) (execMask h x.w x.e) x.w hc.2.1 hc.2.2.1
  refine ⟨regs, l0, l1, _, ?_, hr, hl, flags_after x.w (execMask h x.w x.e) fun l => (f l).fl⟩
  simp only [perLaneFp, poisonFaults_nil (unpoisoned_of_bad (x.exec h) srcs hs), goodLanes_nil, finishFp, exec_of_insn_none h hx.2, hw,
    fpTrap_none hu x.w rfl, finishLanes, Wave.orFlags]
  rw [finish_of_clean hx.2]
  exact hc.1

/-- With a predicate destination. -/
theorem perLaneFpPred_runs {s : State} {x : Issue} (hx : Issues s x) (hc : Clean x) (hu : Untrapped x) (h : Hdr) (d : Byte)
    (srcs : Nat → List Src) (hs : ∀ l, ∀ r ∈ srcs l, r.bad = none) (f : Nat → Bool × Nat) :
    ∃ p flags, perLaneFpPred s x h d srcs f = goesOn s x { x.w with preds := x.w.preds.set d.toNat p, fpflags := flags } ∧
      (∀ l, p.getLsbD l = if (execMask h x.w x.e).getLsbD l then (f l).1 else x.w.pred d.toNat l) ∧
      FlagsAfter x.w (execMask h x.w x.e) (fun l i => (f l).2.testBit i = true) flags := by
  obtain ⟨p, hw, hp⟩ := foldl_putPred_mask d.toNat (fun l => (f l).1) (execMask h x.w x.e) x.w
  refine ⟨p, _, ?_, hp, flags_after x.w (execMask h x.w x.e) fun l => (f l).2⟩
  simp only [perLaneFpPred, poisonFaults_nil (unpoisoned_of_bad (x.exec h) srcs hs), goodLanes_nil, finishFp, exec_of_insn_none h hx.2, hw,
    fpTrap_none hu x.w rfl, finishLanes, Wave.orFlags]
  rw [finish_of_clean hx.2]
  exact hc.1

/-- An instruction that adds a pending result goes on READY: its marker covers only earlier results (R14). -/
theorem finish_of_pend {s : State} {x : Issue} (hi : x.e.insn = none) (h : Hdr) (w : Wave) (hp : ∀ p ∈ w.pend, x.w.nextSeq ≤ p.seq) :
    finish s x h w = goesOn s x w := by
  have hb : w.pendBefore x.w.nextSeq = false := by
    simp only [Wave.pendBefore, List.any_eq_false, decide_eq_true_eq, not_lt]
    exact hp
  simp only [finish, goesOn, Issue.next, Entry.arm, hi, Option.isSome_none, Wave.goOn, Entry.on]
  by_cases hy : h.y <;> simp [hy, hb]

/-- A variable-latency instruction without traps, run. -/
theorem perLaneVar_runs {s : State} {x : Issue} (hx : Issues s x) (hc : Clean x) (hu : Untrapped x) (h : Hdr) (d : Byte) (is64 : Bool)
    (srcs : Nat → List Src) (hs : ∀ l, ∀ r ∈ srcs l, r.bad = none) (f : Nat → LaneOut) :
    PendingResult s x (execMask h x.w x.e) d is64 (fun l => (f l).val) (fun l i => (f l).fl.testBit i = true) (perLaneVar s x h d is64 srcs f) := by
  refine ⟨Pend.mk x.w.nextSeq ((Mask.lanes (execMask h x.w x.e)).flatMap fun l => dstWrites x.w d is64 l (f l).val false)
      (BitVec.ofNat 32 (unionFl ((Mask.lanes (execMask h x.w x.e)).filter fun l => x.w.real.getLsbD l) fun l => (f l).fl)) none,
    ?_, rfl, rfl, rfl, ?_⟩
  rotate_left
  · intro i hi
    rw [BitVec.getLsbD_ofNat]
    simp only [hi, decide_true, Bool.true_and, testBit_unionFl, List.mem_filter, mem_lanes, BitVec.getLsbD_and, Bool.and_eq_true]
  · have := fpTrap_none hu x.w rfl ((Mask.lanes (execMask h x.w x.e)).filter fun l => x.w.real.getLsbD l) (fun l => (f l).fl)
      (tdstReg x.w d) x.e.pc
    simp only [perLaneVar, poisonFaults_nil (unpoisoned_of_bad (x.exec h) srcs hs), goodLanes_nil, exec_of_insn_none h hx.2,
      finishLanes, Wave.addPend, hc.1, List.nil_append, this]
    rw [finish_of_pend hx.2]
    simp

/-! ## Blocks of registers (R292, R295) -/

/-- Writes to distinct registers of one lane. -/
theorem foldl_putReg (r lane : Nat) (hl : lane < 32) (ps : List (Nat × W32)) (w : Wave) (hp : w.poison = []) (hn : (ps.map Prod.fst).Nodup) :
    ∃ regs, ps.foldl (fun w p => w.putReg (r + p.1) lane p.2 false) w = { w with regs := regs } ∧
      (∀ p ∈ ps, sget 0 regs (regKey (r + p.1) lane) = p.2) ∧
      ∀ r' l', l' < 32 → (∀ p ∈ ps, ¬ (r' = r + p.1 ∧ l' = lane)) → sget 0 regs (regKey r' l') = w.rawReg r' l' := by
  induction ps generalizing w with
  | nil => exact ⟨w.regs, rfl, by simp, fun _ _ _ _ => rfl⟩
  | cons q ps ih =>
    simp only [List.map_cons, List.nodup_cons] at hn
    obtain ⟨regs, h1, h2, h3⟩ := ih (w.putReg (r + q.1) lane q.2 false) (by simp [Wave.putReg, hp]) hn.2
    refine ⟨regs, by rw [List.foldl_cons, h1]; simp [Wave.putReg, hp], ?_, ?_⟩
    · intro p hm
      rcases List.mem_cons.1 hm with rfl | hm
      · rw [h3 _ _ hl]
        · simp [Wave.rawReg, Wave.putReg]
        · rintro p' hp' ⟨e, _⟩
          exact hn.1 (List.mem_map.2 ⟨p', hp', by omega⟩)
      · exact h2 p hm
    · intro r' l' hl' hne
      rw [h3 r' l' hl' fun p hm => hne p (List.mem_cons_of_mem q hm)]
      simp only [Wave.rawReg, Wave.putReg]
      rw [sget_sput_ne]
      intro e
      obtain ⟨e1, e2⟩ := regKey_inj hl' hl e
      exact hne q (List.mem_cons_self ..) ⟨e1, e2⟩

/-- A block written in one lane. -/
theorem putBlock_eq (w : Wave) (hp : w.poison = []) (hq : w.lpoison = []) (r lane : Nat) (hl : lane < 32) (vs : List W32) :
    ∃ regs, w.putBlock r lane vs =
        { w with regs := regs, l1 := sput 0 lane (sget 0 w.l0 lane) w.l1, l0 := sput 0 lane ((vs.getLast?.getD 0).zeroExtend 64) w.l0 } ∧
      ∀ r' l', l' < 32 → sget 0 regs (regKey r' l') =
        if l' = lane ∧ r ≤ r' ∧ r' < r + vs.length then vs.getD (r' - r) 0 else w.rawReg r' l' := by
  obtain ⟨regs, h1, h2, h3⟩ := foldl_putReg r lane hl ((List.range vs.length).zip vs) (w.putLast lane ((vs.getLast?.getD 0).zeroExtend 64))
    (by simpa [Wave.putLast] using hp) (by rw [List.map_fst_zip (by simp)]; exact List.nodup_range)
  refine ⟨regs, by rw [Wave.putBlock, h1]; simp [Wave.putLast, hq], ?_⟩
  intro r' l' hl'
  split
  · next h =>
    obtain ⟨rfl, h4, h5⟩ := h
    have hi : r' - r < vs.length := by omega
    have hm : (r' - r, vs[r' - r]) ∈ (List.range vs.length).zip vs := by
      rw [List.mem_iff_getElem]
      exact ⟨r' - r, by simpa using hi, by simp⟩
    have := h2 _ hm
    simp only [show r + (r' - r) = r' by omega] at this
    rw [this]
    simp [List.getD_eq_getElem?_getD, hi]
  · next h =>
    rw [h3 r' l' hl']
    · rfl
    · rintro ⟨i, v⟩ hm ⟨rfl, rfl⟩
      have := (List.of_mem_zip hm).1
      rw [List.mem_range] at this
      exact h ⟨rfl, by omega, by simpa using this⟩

/-- Blocks written in the lanes of a list. -/
theorem foldl_putBlock (r n : Nat) (f : Nat → List W32) (hf : ∀ l, (f l).length = n) (ls : List Nat) (w : Wave) (hn : ls.Nodup)
    (hl : ∀ l ∈ ls, l < 32) (hp : w.poison = []) (hq : w.lpoison = []) :
    ∃ regs l0 l1, ls.foldl (fun w l => w.putBlock r l (f l)) w = { w with regs := regs, l0 := l0, l1 := l1 } ∧
      (∀ r' l', l' < 32 → sget 0 regs (regKey r' l') =
        if l' ∈ ls ∧ r ≤ r' ∧ r' < r + n then (f l').getD (r' - r) 0 else w.rawReg r' l') ∧
      (∀ l, sget 0 l0 l = if l ∈ ls then ((f l).getLast?.getD 0).zeroExtend 64 else sget 0 w.l0 l) ∧
      (∀ l, sget 0 l1 l = if l ∈ ls then sget 0 w.l0 l else sget 0 w.l1 l) := by
  induction ls generalizing w with
  | nil => exact ⟨w.regs, w.l0, w.l1, rfl, by simp [Wave.rawReg], by simp, by simp⟩
  | cons a ls ih =>
    have ha : a < 32 := hl a (List.mem_cons_self ..)
    have hna : a ∉ ls := (List.nodup_cons.1 hn).1
    obtain ⟨regs1, h1, hr1⟩ := putBlock_eq w hp hq r a ha (f a)
    obtain ⟨regs, l0, l1, hw, hr, h0, hl1⟩ := ih (w.putBlock r a (f a)) (List.nodup_cons.1 hn).2
      (fun l hm => hl l (List.mem_cons_of_mem a hm)) (by rw [h1]; exact hp) (by rw [h1]; exact hq)
    refine ⟨regs, l0, l1, by rw [List.foldl_cons, hw, h1], ?_, ?_, ?_⟩
    · intro r' l hl'
      rw [hr r' l hl', h1]
      have := hr1 r' l hl'
      rw [hf a] at this
      simp only [Wave.rawReg] at this ⊢
      rw [this]
      by_cases hla : l = a
      · subst hla; simp [hna]
      · simp [List.mem_cons, hla]
    · intro l
      rw [h0 l, h1]
      simp only [sget_sput, List.mem_cons]
      by_cases hla : l = a
      · subst hla; simp [hna]
      · simp [hla]
    · intro l
      rw [hl1 l, h1]
      simp only [sget_sput, List.mem_cons]
      by_cases hla : l = a
      · subst hla; simp [hna]
      · simp [hla]

/-- A block instruction of a clean wave, run. -/
theorem perLaneBlock_runs {s : State} {x : Issue} (hx : Issues s x) (hc : Clean x) (h : Hdr) (d : Byte) (n : Nat)
    (srcs : Nat → List Src) (hs : ∀ l, ∀ r ∈ srcs l, r.bad = none) (f : Nat → List W32) (hf : ∀ l, (f l).length = n) :
    BlockResult s x (execMask h x.w x.e) d n (fun l i => (f l).getD i 0) (perLaneBlock s x h d srcs f) := by
  obtain ⟨regs, l0, l1, hw, hr, h0, h1⟩ := foldl_putBlock (x.w.physOf d.toNat) n f hf (Mask.lanes (execMask h x.w x.e)) x.w (lanes_nodup _)
    (fun l hl => lanes_lt hl) hc.2.1 hc.2.2.1
  refine ⟨regs, l0, l1, ?_, ?_, ?_, ?_⟩
  · simp only [perLaneBlock, poisonFaults_nil (unpoisoned_of_bad (x.exec h) srcs hs), goodLanes_nil, finishLanes, exec_of_insn_none h hx.2, hw]
    rw [finish_of_clean hx.2]
    exact hc.1
  · intro r l hl; rw [hr r l hl]; simp only [mem_lanes]
  · intro l
    rw [h0 l]
    simp only [mem_lanes]
    have : (f l).getLast?.getD 0 = (f l).getD (n - 1) 0 := by
      rw [List.getLast?_eq_getElem?, hf l, List.getD_eq_getElem?_getD]
    rw [this]
  · intro l; rw [h1 l]; simp only [mem_lanes]

/-! ## Elements -/

theorem elemAt_ofElems_mod (t : Ty) (g : Nat → Nat) {k : Nat} (hk : k < elemCount t) :
    elemAt t (ofElems t ((List.range (elemCount t)).map g)) k = g k % 2 ^ tyWidth t := by
  have e : ofElems t ((List.range (elemCount t)).map g) = ofElems t ((List.range (elemCount t)).map fun k => g k % 2 ^ tyWidth t) := by
    simp only [ofElems]
    congr 1
    generalize List.range (elemCount t) = l
    induction l with
    | nil => rfl
    | cons a l ih => simp [ih]
  rw [e]
  exact elemAt_ofElems t _ (fun k => Nat.mod_lt _ (Nat.two_pow_pos _)) hk

theorem foldl_fl (rs : List FRes) (i : Nat) : (rs.foldl (fun a (r : FRes) => a ||| r.fl) (0 : Nat)).testBit i = true ↔ ∃ r ∈ rs, r.fl.testBit i = true := by
  have key : ∀ (rs : List FRes) (a : Nat), (rs.foldl (fun a (r : FRes) => a ||| r.fl) a).testBit i = true ↔ a.testBit i = true ∨ ∃ r ∈ rs, r.fl.testBit i = true := by
    intro rs
    induction rs with
    | nil => simp
    | cons b rs ih => intro a; rw [List.foldl_cons, ih]; simp [or_assoc]
  rw [key]; simp

/-- The element results of an operand, as its value and its flags. -/
theorem fpElements_outOf (t : Ty) (sat : Bool) (r : Nat → Nat → FRes) :
    FpElements t sat r (fun l => (outOf t ((List.range (elemCount t)).map fun k => withSat (fmtOf t) sat (r l k))).val)
      (fun l i => (outOf t ((List.range (elemCount t)).map fun k => withSat (fmtOf t) sat (r l k))).fl.testBit i = true) := by
  refine ⟨fun l k hk => ?_, fun l i => ?_⟩
  · simp only [outOf, List.map_map]
    exact elemAt_ofElems_mod t _ hk
  · simp only [outOf, foldl_fl, List.mem_map, List.mem_range]
    constructor
    · rintro ⟨_, ⟨k, hk, rfl⟩, h⟩
      refine ⟨k, hk, ?_⟩
      unfold withSat at h
      split at h <;> exact h
    · rintro ⟨k, hk, h⟩
      refine ⟨_, ⟨k, hk, rfl⟩, ?_⟩
      unfold withSat
      split <;> exact h

theorem fpMap1_eq (t : Ty) (sat : Bool) (op : Fmt → Nat → FRes) (a : W64) :
    fpMap1 t sat op a = outOf t ((List.range (elemCount t)).map fun k => withSat (fmtOf t) sat (op (fmtOf t) (elemAt t a k))) := by
  rw [fpMap1, elems_eq, List.map_map]; rfl

theorem zip_map_range (g g' : Nat → Nat) (l : List Nat) : (l.map g).zip (l.map g') = l.map fun k => (g k, g' k) := by
  induction l with
  | nil => rfl
  | cons a l ih => simp [ih]

theorem fpMap2_eq (t : Ty) (sat : Bool) (op : Fmt → Nat → Nat → FRes) (a b : W64) :
    fpMap2 t sat op a b =
      outOf t ((List.range (elemCount t)).map fun k => withSat (fmtOf t) sat (op (fmtOf t) (elemAt t a k) (elemAt t b k))) := by
  rw [fpMap2, elems_eq, elems_eq, zip_map_range, List.map_map]; rfl

theorem fpMap3_eq (t : Ty) (sat : Bool) (op : Fmt → Nat → Nat → Nat → FRes) (a b c : W64) :
    fpMap3 t sat op a b c = outOf t ((List.range (elemCount t)).map fun k =>
      withSat (fmtOf t) sat (op (fmtOf t) (elemAt t a k) (elemAt t b k) (elemAt t c k))) := by
  rw [fpMap3, elems_eq, elems_eq, elems_eq]
  generalize List.range (elemCount t) = ks
  congr 1
  induction ks with
  | nil => rfl
  | cons k ks ih => simp only [List.map_cons, List.zip_cons_cons, ih]

end Sys2Proof.Machine
end

