-- ==== Sys2Proof/Laws/Bits.lean ====
section
/-! SUPPORT. Bits: the shifts, counts and fields of R222 to R224, bit by bit. -/

namespace Sys2Proof.Machine

theorem testBit_of_ge {w a : Nat} (ha : a < 2 ^ w) {i : Nat} (hi : w ≤ i) : a.testBit i = false :=
  Nat.testBit_lt_two_pow (lt_of_lt_of_le ha (Nat.pow_le_pow_right (by decide) hi))

/-! ## Shifts -/

theorem shlE_lt (w a c : Nat) : shlE w a c < 2 ^ w := by
  unfold shlE; split
  · exact Nat.two_pow_pos w
  · exact Nat.mod_lt _ (Nat.two_pow_pos w)

theorem testBit_shlE {w a c i : Nat} (hi : i < w) : (shlE w a c).testBit i = (decide (c ≤ i) && a.testBit (i - c)) := by
  unfold shlE; split
  · have : ¬ c ≤ i := by omega
    simp [this]
  · simp [Nat.testBit_mod_two_pow, Nat.testBit_mul_two_pow, hi]

theorem shrE_lt {w a : Nat} (ha : a < 2 ^ w) (c : Nat) : shrE w a c < 2 ^ w := by
  unfold shrE; split
  · exact Nat.two_pow_pos w
  · exact lt_of_le_of_lt (Nat.div_le_self _ _) ha

theorem testBit_shrE {w a : Nat} (ha : a < 2 ^ w) (c i : Nat) : (shrE w a c).testBit i = (decide (i + c < w) && a.testBit (i + c)) := by
  unfold shrE; split
  · have : ¬ i + c < w := by omega
    simp [this]
  · rw [Nat.testBit_div_two_pow]
    by_cases h : i + c < w
    · simp [h]
    · simp [h, testBit_of_ge ha (by omega : w ≤ i + c)]

theorem sarE_lt (w a c : Nat) : sarE w a c < 2 ^ w := by
  simp only [sarE]
  generalize (if 2 ^ (w - 1) ≤ a then (a : Int) - 2 ^ w else (a : Int)) / 2 ^ min c w = z
  have h2 : (0 : Int) < 2 ^ w := by positivity
  have := Int.emod_lt_of_pos z h2
  have h0 := Int.emod_nonneg z h2.ne'
  zify
  rw [Int.toNat_of_nonneg h0]
  exact this

/-- A pattern with its top bit set, taken as a signed number and shifted right: minus one minus its complement shifted. -/
theorem signed_div {w a : Nat} (ha : a < 2 ^ w) (m : Nat) :
    ((a : Int) - 2 ^ w) / 2 ^ m = -(((2 ^ w - 1 - a) / 2 ^ m : Nat) : Int) - 1 := by
  have h : (a : Int) - 2 ^ w = -((2 ^ w - 1 - a : Nat) : Int) - 1 := by
    have : ((2 ^ w : Nat) : Int) = 2 ^ w := by push_cast; rfl
    omega
  rw [h]
  generalize 2 ^ w - 1 - a = b
  have hp : (0 : Int) < 2 ^ m := by positivity
  push_cast
  have hq := Int.mul_ediv_add_emod (b : Int) (2 ^ m)
  have hr0 := Int.emod_nonneg (b : Int) hp.ne'
  have hr1 := Int.emod_lt_of_pos (b : Int) hp
  exact ((Int.ediv_emod_unique (r := 2 ^ m - 1 - (b : Int) % 2 ^ m) hp).2 ⟨by nlinarith, by omega, by omega⟩).1

/-- Its low n bits are the complement of the complement's. -/
theorem signed_shift {w a : Nat} (ha : a < 2 ^ w) (m n : Nat) :
    (((a : Int) - 2 ^ w) / 2 ^ m % 2 ^ n).toNat = 2 ^ n - ((2 ^ w - 1 - a) / 2 ^ m % 2 ^ n + 1) := by
  rw [signed_div ha]
  generalize (2 ^ w - 1 - a) / 2 ^ m = q
  have hp : (0 : Int) < 2 ^ n := by positivity
  have hN : ((2 ^ n : Nat) : Int) = 2 ^ n := by push_cast; rfl
  have hq := Int.mul_ediv_add_emod (q : Int) (2 ^ n)
  have hr0 := Int.emod_nonneg (q : Int) hp.ne'
  have hr1 := Int.emod_lt_of_pos (q : Int) hp
  have e : (-(q : Int) - 1) % 2 ^ n = 2 ^ n - 1 - (q : Int) % 2 ^ n :=
    ((Int.ediv_emod_unique (q := -((q : Int) / 2 ^ n) - 1) hp).2 ⟨by nlinarith, by omega, by omega⟩).2
  have : ((q % 2 ^ n : Nat) : Int) = (q : Int) % 2 ^ n := by push_cast; rfl
  rw [e]
  omega

theorem testBit_sarE {w a : Nat} (ha : a < 2 ^ w) (hw : 0 < w) {c i : Nat} (hi : i < w) :
    (sarE w a c).testBit i = a.testBit (min (i + c) (w - 1)) := by
  have hpw : 2 ^ w = 2 * 2 ^ (w - 1) := by
    conv_lhs => rw [← Nat.sub_add_cancel hw, pow_succ]
    rw [Nat.mul_comm]
  simp only [sarE]
  by_cases hs : 2 ^ (w - 1) ≤ a
  · have htop : a.testBit (w - 1) = true := by
      rw [Nat.testBit_eq_decide_div_mod_eq]
      have : a / 2 ^ (w - 1) = 1 := Nat.div_eq_of_lt_le (by omega) (by omega)
      simp [this]
    rw [if_pos hs, signed_shift ha, Nat.testBit_two_pow_sub_succ (Nat.mod_lt _ (Nat.two_pow_pos w)), Nat.testBit_mod_two_pow,
      Nat.testBit_div_two_pow, show 2 ^ w - 1 - a = 2 ^ w - (a + 1) by omega, Nat.testBit_two_pow_sub_succ ha]
    by_cases h : i + c < w
    · have e1 : min c w = c := by omega
      have e2 : min (i + c) (w - 1) = i + c := by omega
      simp [e1, e2, hi, h]
    · have e2 : min (i + c) (w - 1) = w - 1 := by omega
      have e3 : ¬ i + min c w < w := by omega
      simp [e2, htop, hi, e3]
  · have htop : ∀ j, w - 1 ≤ j → a.testBit j = false := fun j hj => testBit_of_ge (w := w - 1) (by omega) hj
    rw [if_neg hs]
    have e : ((a : Int) / 2 ^ min c w % 2 ^ w).toNat = a / 2 ^ min c w := by
      have : a / 2 ^ min c w < 2 ^ w := lt_of_le_of_lt (Nat.div_le_self _ _) ha
      rw [show (a : Int) / 2 ^ min c w = ((a / 2 ^ min c w : Nat) : Int) by push_cast; rfl,
        Int.emod_eq_of_lt (Int.natCast_nonneg _) (by exact_mod_cast this), Int.toNat_natCast]
    rw [e, Nat.testBit_div_two_pow]
    by_cases h : i + c < w - 1
    · rw [show min c w = c by omega, show min (i + c) (w - 1) = i + c by omega]
    · rw [htop _ (by omega : w - 1 ≤ i + min c w), htop _ (by omega : w - 1 ≤ min (i + c) (w - 1))]

theorem rolE_lt {w a : Nat} (ha : a < 2 ^ w) (c : Nat) : rolE w a c < 2 ^ w := by
  simp only [rolE]
  exact Nat.or_lt_two_pow (Nat.mod_lt _ (Nat.two_pow_pos w)) (lt_of_le_of_lt (Nat.div_le_self _ _) ha)

theorem testBit_rolE {w a : Nat} (ha : a < 2 ^ w) (hw : 0 < w) {c i : Nat} (hi : i < w) :
    (rolE w a c).testBit i = a.testBit ((i + (w - c % w)) % w) := by
  have hk : c % w < w := Nat.mod_lt _ hw
  simp only [rolE]
  generalize c % w = k at hk ⊢
  rw [Nat.testBit_or, Nat.testBit_mod_two_pow, Nat.testBit_mul_two_pow, Nat.testBit_div_two_pow]
  by_cases h : k ≤ i
  · have e : (i + (w - k)) % w = i - k := by
      rw [show i + (w - k) = (i - k) + w by omega, Nat.add_mod_right, Nat.mod_eq_of_lt (by omega)]
    rw [e, testBit_of_ge ha (by omega : w ≤ i + (w - k))]
    simp [hi, h]
  · have e : (i + (w - k)) % w = i + (w - k) := Nat.mod_eq_of_lt (by omega)
    simp [e, h]

/-! ## Counts -/

theorem popE_card (w a : Nat) : popE w a = ((Finset.range w).filter fun i => a.testBit i).card := by
  simp only [popE, Finset.card, Finset.filter, Finset.range, Multiset.range, Multiset.filter_coe, Multiset.coe_card, Bool.decide_eq_true]

theorem clzE_spec {w a : Nat} (ha : a < 2 ^ w) :
    (a = 0 ∧ clzE w a = w) ∨ (clzE w a < w ∧ a.testBit (w - 1 - clzE w a) = true ∧ ∀ j < clzE w a, a.testBit (w - 1 - j) = false) := by
  unfold clzE
  by_cases h0 : a = 0
  · simp [h0]
  · right
    have hl : Nat.log2 a < w := (Nat.log2_lt h0).2 ha
    rw [if_neg h0]
    refine ⟨by omega, ?_, ?_⟩
    · rw [show w - 1 - (w - 1 - a.log2) = a.log2 by omega]
      exact Nat.testBit_log2 h0
    · intro j hj
      exact testBit_of_ge Nat.lt_log2_self (by omega)

theorem ctzE_spec {w a : Nat} (ha : a < 2 ^ w) :
    (a = 0 ∧ ctzE w a = w) ∨ (ctzE w a < w ∧ a.testBit (ctzE w a) = true ∧ ∀ j < ctzE w a, a.testBit j = false) := by
  unfold ctzE
  cases h : (List.range w).find? fun i => a.testBit i with
  | none =>
    left
    rw [List.find?_range_eq_none] at h
    refine ⟨?_, rfl⟩
    apply Nat.eq_of_testBit_eq
    intro i
    by_cases hi : i < w
    · simpa using h i hi
    · simp [testBit_of_ge ha (by omega : w ≤ i)]
  | some r =>
    right
    rw [List.find?_range_eq_some] at h
    obtain ⟨h1, h2, h3⟩ := h
    refine ⟨by simpa using h2, h1, fun j hj => by simpa using h3 j hj⟩

theorem brevE_spec (w a : Nat) : brevE w a < 2 ^ w ∧ ∀ i < w, (brevE w a).testBit i = a.testBit (w - 1 - i) := by
  have key : ∀ n ≤ w, (List.range n).foldl (fun r i => if a.testBit i then r + 2 ^ (w - 1 - i) else r) 0 % 2 ^ (w - n) = 0 ∧
      (List.range n).foldl (fun r i => if a.testBit i then r + 2 ^ (w - 1 - i) else r) 0 < 2 ^ w ∧
      ∀ i < w, ((List.range n).foldl (fun r i => if a.testBit i then r + 2 ^ (w - 1 - i) else r) 0).testBit i =
        (decide (w - n ≤ i) && a.testBit (w - 1 - i)) := by
    intro n
    induction n with
    | zero => intro _; refine ⟨by simp, by simp, ?_⟩; intro i hi; have : ¬ w ≤ i := by omega
              simp [this]
    | succ n ih =>
      intro hn
      obtain ⟨h0, h1, h2⟩ := ih (by omega)
      rw [List.range_succ, List.foldl_append]
      simp only [List.foldl_cons, List.foldl_nil]
      generalize (List.range n).foldl (fun r i => if a.testBit i then r + 2 ^ (w - 1 - i) else r) 0 = r at h0 h1 h2 ⊢
      obtain ⟨q, hq⟩ : ∃ q, r = 2 ^ (w - n) * q := ⟨r / 2 ^ (w - n), by rw [Nat.mul_div_cancel' (Nat.dvd_of_mod_eq_zero h0)]⟩
      have hpow : 2 ^ (w - n) = 2 * 2 ^ (w - 1 - n) := by
        rw [show w - n = (w - 1 - n) + 1 by omega, pow_succ]; ring
      have hsub : w - (n + 1) = w - 1 - n := by omega
      have h2n : ∀ i < w, w - 1 - n ≠ i → (decide (w - n ≤ i) = decide (w - 1 - n ≤ i)) := by
        intro i hi hne; congr 1; apply propext; omega
      by_cases ht : a.testBit n = true
      · have hadd : r + 2 ^ (w - 1 - n) = r ||| 2 ^ (w - 1 - n) := by
          rw [hq, ← Nat.two_pow_add_eq_or_of_lt (Nat.pow_lt_pow_right (by decide) (by omega))]
        simp only [ht, if_true]
        rw [hadd, hsub]
        refine ⟨?_, Nat.or_lt_two_pow h1 (Nat.pow_lt_pow_right (by decide) (by omega)), ?_⟩
        · rw [← hadd, hq, hpow, show 2 * 2 ^ (w - 1 - n) * q + 2 ^ (w - 1 - n) = 2 ^ (w - 1 - n) * (2 * q + 1) by ring]
          exact Nat.mul_mod_right _ _
        · intro i hi
          rw [Nat.testBit_or, h2 i hi, Nat.testBit_two_pow]
          by_cases he : w - 1 - n = i
          · subst he
            simp [show w - 1 - (w - 1 - n) = n by omega, ht]
          · rw [h2n i hi he]; simp [he]
      · simp only [ht, Bool.false_eq_true, if_false]
        rw [hsub]
        refine ⟨?_, h1, ?_⟩
        · rw [hq, hpow, show 2 * 2 ^ (w - 1 - n) * q = 2 ^ (w - 1 - n) * (2 * q) by ring]
          exact Nat.mul_mod_right _ _
        · intro i hi
          rw [h2 i hi]
          by_cases he : w - 1 - n = i
          · subst he
            simp [show w - 1 - (w - 1 - n) = n by omega, ht]
          · rw [h2n i hi he]
  obtain ⟨_, h1, h2⟩ := key w le_rfl
  exact ⟨h1, fun i hi => by have := h2 i hi; simpa [brevE] using this⟩

/-! ## Fields -/

/-- Bit j of a pattern extended above its top bit with the sign of a signed type, or with 0. -/
theorem testBit_extract (t : Ty) {a : Nat} (ha : a < 2 ^ tyWidth t) (p n i : Nat) :
    (((intOf t a / 2 ^ p) % 2 ^ n).toNat).testBit i =
      (decide (i < n) && (if t.isSigned then a.testBit (min (p + i) (tyWidth t - 1)) else a.testBit (p + i))) := by
  have nat : ∀ a : Nat, (((a : Int) / 2 ^ p % 2 ^ n).toNat).testBit i = (decide (i < n) && a.testBit (p + i)) := by
    intro a
    rw [show (a : Int) / 2 ^ p % 2 ^ n = ((a / 2 ^ p % 2 ^ n : Nat) : Int) by push_cast; rfl, Int.toNat_natCast,
      Nat.testBit_mod_two_pow, Nat.testBit_div_two_pow, Nat.add_comm]
  have hw := tyWidth_pos t
  have hpw : 2 ^ tyWidth t = 2 * 2 ^ (tyWidth t - 1) := by
    conv_lhs => rw [← Nat.sub_add_cancel hw, pow_succ]
    rw [Nat.mul_comm]
  unfold intOf
  generalize tyWidth t = w at ha hw hpw ⊢
  by_cases hs : t.isSigned
  · simp only [hs, Bool.true_and, decide_eq_true_eq, if_true]
    by_cases h : 2 ^ (w - 1) ≤ a
    · rw [if_pos h, signed_shift ha, Nat.testBit_two_pow_sub_succ (Nat.mod_lt _ (Nat.two_pow_pos n)), Nat.testBit_mod_two_pow,
        Nat.testBit_div_two_pow, show 2 ^ w - 1 - a = 2 ^ w - (a + 1) by omega, Nat.testBit_two_pow_sub_succ ha, Nat.add_comm i p]
      have htop : a.testBit (w - 1) = true := by
        rw [Nat.testBit_eq_decide_div_mod_eq]
        have : a / 2 ^ (w - 1) = 1 := Nat.div_eq_of_lt_le (by omega) (by omega)
        simp [this]
      by_cases hi : i < n
      · by_cases hj : p + i < w
        · simp [hi, hj, show min (p + i) (w - 1) = p + i by omega]
        · simp [hi, hj, show min (p + i) (w - 1) = w - 1 by omega, htop]
      · simp [hi]
    · rw [if_neg h, nat]
      have htop : ∀ j, w - 1 ≤ j → a.testBit j = false := fun j hj => testBit_of_ge (w := w - 1) (by omega) hj
      by_cases hj : p + i < w - 1
      · rw [show min (p + i) (w - 1) = p + i by omega]
      · rw [htop _ (by omega : w - 1 ≤ p + i), htop _ (by omega : w - 1 ≤ min (p + i) (w - 1))]
  · simp only [hs, Bool.false_and, Bool.false_eq_true, if_false]
    exact nat a

theorem testBit_bfeE (t : Ty) {a : Nat} (ha : a < 2 ^ tyWidth t) (p c i : Nat) :
    (bfeE t a p c).testBit i = (decide (i < tyWidth t) && decide (0 < min c (tyWidth t)) &&
      (if i < min c (tyWidth t) then (if t.isSigned then a.testBit (min (p + i) (tyWidth t - 1)) else a.testBit (p + i))
       else t.isSigned && (if t.isSigned then a.testBit (min (p + min c (tyWidth t) - 1) (tyWidth t - 1))
         else a.testBit (p + min c (tyWidth t) - 1)))) := by
  simp only [bfeE]
  have hle : min c (tyWidth t) ≤ tyWidth t := min_le_right _ _
  generalize min c (tyWidth t) = n at hle ⊢
  by_cases h0 : n = 0
  · simp [h0]
  · have hb := testBit_extract t ha p n
    have hlt : ((intOf t a / 2 ^ p) % 2 ^ n).toNat < 2 ^ n := by
      have hp : (0 : Int) < 2 ^ n := by positivity
      have := Int.emod_lt_of_pos (intOf t a / 2 ^ p) hp
      have h0 := Int.emod_nonneg (intOf t a / 2 ^ p) hp.ne'
      zify
      rw [Int.toNat_of_nonneg h0]
      exact this
    generalize ((intOf t a / 2 ^ p) % 2 ^ n).toNat = f at hb hlt ⊢
    have hpn : 2 ^ n = 2 * 2 ^ (n - 1) := by
      conv_lhs => rw [← Nat.sub_add_cancel (Nat.pos_of_ne_zero h0), pow_succ]
      rw [Nat.mul_comm]
    have hsgn : decide (2 ^ (n - 1) ≤ f) = f.testBit (n - 1) := by
      by_cases h : 2 ^ (n - 1) ≤ f
      · have : f / 2 ^ (n - 1) = 1 := Nat.div_eq_of_lt_le (by omega) (by omega)
        simp [h, Nat.testBit_eq_decide_div_mod_eq, this]
      · simp [h, testBit_of_ge (w := n - 1) (a := f) (by omega) (le_refl (n - 1))]
    have hn1 : f.testBit (n - 1) = (if t.isSigned then a.testBit (min (p + n - 1) (tyWidth t - 1)) else a.testBit (p + n - 1)) := by
      rw [hb, show p + (n - 1) = p + n - 1 by omega]
      simp [show n - 1 < n by omega]
    rw [if_neg h0, hsgn, ← hn1]
    by_cases hs : (t.isSigned && f.testBit (n - 1)) = true
    · rw [if_pos hs]
      have e : f + 2 ^ tyWidth t - 2 ^ n = 2 ^ n * (2 ^ (tyWidth t - n) - 1) + f := by
        have : 2 ^ tyWidth t = 2 ^ n * 2 ^ (tyWidth t - n) := by rw [← pow_add]; congr 1; omega
        have hp := Nat.two_pow_pos (tyWidth t - n)
        rw [this, Nat.mul_sub, Nat.mul_one]
        have : 2 ^ n ≤ 2 ^ n * 2 ^ (tyWidth t - n) := Nat.le_mul_of_pos_right _ hp
        omega
      rw [e, Nat.testBit_two_pow_mul_add _ hlt, Nat.testBit_two_pow_sub_one]
      by_cases hi : i < n
      · rw [if_pos hi, if_pos hi, hb i]
        simp [hi, show i < tyWidth t by omega, show 0 < n by omega]
      · rw [if_neg hi, if_neg hi, hs]
        by_cases hw : i < tyWidth t
        · simp [hw, show i - n < tyWidth t - n by omega, show 0 < n by omega]
        · simp [hw, show ¬ i - n < tyWidth t - n by omega]
    · rw [if_neg hs, (Bool.eq_false_iff.2 hs), hb i]
      by_cases hi : i < n
      · simp [hi, show i < tyWidth t by omega, show 0 < n by omega]
      · simp [hi]

theorem testBit_bfiE {w a : Nat} (ha : a < 2 ^ w) (b p c i : Nat) :
    (bfiE w a b p c).testBit i = (decide (i < w) && (if p ≤ i ∧ i < p + min c w then b.testBit (i - p) else a.testBit i)) := by
  simp only [bfiE]
  generalize min c w = n
  have hm : (2 ^ n - 1) * 2 ^ p % 2 ^ w < 2 ^ w := Nat.mod_lt _ (Nat.two_pow_pos w)
  have hmb : ((2 ^ n - 1) * 2 ^ p % 2 ^ w).testBit i = (decide (i < w) && (decide (p ≤ i) && decide (i - p < n))) := by
    rw [Nat.testBit_mod_two_pow, Nat.testBit_mul_two_pow, Nat.testBit_two_pow_sub_one]
  rw [Nat.testBit_or, Nat.testBit_and, Nat.testBit_and, show 2 ^ w - 1 - (2 ^ n - 1) * 2 ^ p % 2 ^ w =
    2 ^ w - ((2 ^ n - 1) * 2 ^ p % 2 ^ w + 1) by omega, Nat.testBit_two_pow_sub_succ hm, hmb, Nat.testBit_mul_two_pow]
  by_cases hw : i < w
  · by_cases hp : p ≤ i
    · by_cases hn : i - p < n
      · simp [hw, hp, hn, show i < p + n by omega]
      · simp [hw, hp, hn, show ¬ i < p + n by omega]
    · simp [hw, hp]
  · simp [hw, testBit_of_ge ha (by omega : w ≤ i)]

theorem permByte_lt (y c : Nat) : permByte y c < 256 := by
  unfold permByte
  simp only []
  split
  · exact Nat.mod_lt _ (by decide)
  · decide
  · split <;> decide
  · exact (brevE_spec 8 _).1

theorem testBit_permByte (y c i : Nat) (hi : i < 8) : (permByte y c).testBit i =
    (if c / 8 % 4 = 0 then y.testBit (8 * (c % 8) + i) else if c / 8 % 4 = 1 then false
      else if c / 8 % 4 = 2 then y.testBit (8 * (c % 8) + 7) else y.testBit (8 * (c % 8) + (7 - i))) := by
  have hb : ∀ j < 8, (y / 256 ^ (c % 8) % 256).testBit j = y.testBit (8 * (c % 8) + j) := by
    intro j hj
    rw [show (256 : Nat) ^ (c % 8) = 2 ^ (8 * (c % 8)) by rw [pow_mul]; rfl, show (256 : Nat) = 2 ^ 8 by rfl, Nat.testBit_mod_two_pow,
      Nat.testBit_div_two_pow]
    simp [hj, Nat.add_comm]
  have hlt : y / 256 ^ (c % 8) % 256 < 256 := Nat.mod_lt _ (by decide)
  unfold permByte
  simp only []
  have h4 : c / 8 % 4 < 4 := Nat.mod_lt _ (by decide)
  rw [← hb i hi, ← hb 7 (by decide), ← hb (7 - i) (by omega)]
  generalize y / 256 ^ (c % 8) % 256 = b at hlt ⊢
  generalize c / 8 % 4 = k at h4 ⊢
  have h7 : b.testBit 7 = decide (128 ≤ b) := by
    rw [Nat.testBit_eq_decide_div_mod_eq]; congr 1; apply propext; omega
  have : k = 0 ∨ k = 1 ∨ k = 2 ∨ k = 3 := by omega
  rcases this with rfl | rfl | rfl | rfl
  · simp
  · simp
  · simp only [h7, OfNat.ofNat_ne_zero, if_false, if_true]
    by_cases h : 128 ≤ b
    · simp only [h, if_true]
      rw [show 255 = 2 ^ 8 - 1 by rfl, Nat.testBit_two_pow_sub_one]
      simp [hi]
    · simp [h]
  · simp only [OfNat.ofNat_ne_zero, if_false]
    rw [(brevE_spec 8 b).2 i hi]
    simp

theorem permE_bytes (a b c : W64) : (permE a b c).toNat < 2 ^ 32 ∧ ∀ j < 4, ∀ i < 8, (permE a b c).getLsbD (8 * j + i) =
    (permByte (a.toNat % 2 ^ 32 + 2 ^ 32 * (b.toNat % 2 ^ 32)) (c.toNat / 256 ^ j % 256)).testBit i := by
  have e : (permE a b c).toNat = (List.range 4).foldl (fun r i => r + 256 ^ i * permByte (a.toNat % 2 ^ 32 + 2 ^ 32 * (b.toNat % 2 ^ 32))
      (c.toNat / 256 ^ i % 256)) 0 % 2 ^ 64 := by simp only [permE, BitVec.toNat_ofNat]
  generalize a.toNat % 2 ^ 32 + 2 ^ 32 * (b.toNat % 2 ^ 32) = y at e ⊢
  have hb := fun j => permByte_lt y (c.toNat / 256 ^ j % 256)
  simp only [List.range_succ, List.range_zero, List.nil_append, List.cons_append, List.foldl_cons, List.foldl_nil] at e
  have h0 := hb 0; have h1 := hb 1; have h2 := hb 2; have h3 := hb 3
  refine ⟨by omega, ?_⟩
  intro j hj i hi
  have key : (permE a b c).toNat / 2 ^ (8 * j) % 2 ^ 8 = permByte y (c.toNat / 256 ^ j % 256) := by
    have : j = 0 ∨ j = 1 ∨ j = 2 ∨ j = 3 := by omega
    rcases this with rfl | rfl | rfl | rfl <;> rw [e] <;> omega
  rw [← key, Nat.testBit_mod_two_pow, Nat.testBit_div_two_pow]
  simp [hi, BitVec.testBit_toNat, Nat.add_comm]

end Sys2Proof.Machine
end

