-- ==== Sys2Proof/Laws/Groups.lean ====
section
/-! SUPPORT. Groups: what State.cur names, changes of one group, and the uniform registers. -/

namespace Sys2Proof.Machine

/-! ## The issuer and its group -/

theorem issuer_spec {s : State} {x : Issue} (h : s.issuer? = some x) :
    s.cur = some x.ref ∧ s.group? x.ref.gid = some x.g ∧ x.g.waves[x.ref.wi]? = some x.w ∧ x.w.entry? x.ref.slot = some x.e := by
  unfold State.issuer? at h
  cases hc : s.cur with
  | none => simp [hc] at h
  | some r =>
    simp only [hc] at h
    cases hg : s.group? r.gid with
    | none => simp [hg] at h
    | some g =>
      simp only [hg] at h
      cases hw : g.waves[r.wi]? with
      | none => simp [hw] at h
      | some w =>
        simp only [hw, Option.map_eq_some_iff] at h
        obtain ⟨e, he, rfl⟩ := h
        exact ⟨rfl, hg, hw, he⟩

theorem group?_modGroup (s : State) (k k' : Nat) (f : Group → Group) :
    (s.modGroup k f).group? k' = if k' = k then (s.group? k).map f else s.group? k' := by
  simp [State.group?, State.modGroup, aget_amod]

theorem modGroup_rest (s : State) (k : Nat) (f : Group → Group) : { s.modGroup k f with groups := s.groups } = s := rfl

/-- A change of the issuing group that ends its instruction. -/
theorem only_modGroup {s : State} {x : Issue} (hx : Issues s x) (f : Group → Group) (g : Group) (hg : f x.g = g) :
    OnlyGroup s x g (s.modGroup x.ref.gid f) := by
  refine ⟨?_, fun k hk => ?_, rfl⟩
  · rw [group?_modGroup, if_pos rfl, (issuer_spec hx.1).2.1]; exact congrArg some hg
  · rw [group?_modGroup, if_neg hk]

theorem modGroup_modGroup (s : State) (k : Nat) (f f' : Group → Group) :
    (s.modGroup k f).modGroup k f' = s.modGroup k fun g => f' (f g) := by
  simp only [State.modGroup, amod, List.map_map]
  congr 1
  apply List.map_congr_left
  intro e _
  simp only [Function.comp]
  split <;> simp_all

/-- An instruction that acts on its group once for its wave. -/
theorem finishGroup_only {s : State} {x : Issue} (hx : Issues s x) (hc : Clean x) (h : Hdr) (f : Group → Group) (g : Group)
    (hf : f x.g = g) (hw : g.waves = x.g.waves) :
    OnlyGroup s x { g with waves := (groupOn x x.w).waves } (finishGroup s x h f) := by
  simp only [finishGroup, finish, State.setWave, modGroup_modGroup, next_of_clean hx.2 h x.w hc.1]
  refine only_modGroup hx _ _ ?_
  simp only [hf, groupOn, hw]

/-! ## Uniform registers -/

/-- No view is kept for the writer itself. -/
theorem aget_otherWaves (g : Group) (wi : Nat) (f : Nat → List SVal) : aget ((g.otherWaves wi).map fun i => (i, f i)) wi = none := by
  simp only [aget, Option.map_eq_none_iff, List.find?_eq_none, List.mem_map, forall_exists_index, and_imp, beq_iff_eq]
  rintro p i hi rfl h
  have := (List.mem_filter.1 hi).2
  simp only [Bool.and_eq_true, bne_iff_ne, ne_eq] at this
  exact this.1 h

/-- A change of the views of one register leaves those of the others. -/
theorem filter_replaced (n : Nat) (v : Unseen) (hv : v.reg = n) (p : Nat → Bool) (h : p n = true) (l : List Unseen) :
    (l.map fun w => if w.reg = n then v else w).filter (fun u => !p u.reg) = l.filter fun u => !p u.reg := by
  induction l with
  | nil => rfl
  | cons w l ih =>
    rw [List.map_cons]
    by_cases hn : w.reg = n
    · rw [if_pos hn, List.filter_cons_of_neg (by simp [hv, h]), List.filter_cons_of_neg (by simp [hn, h]), ih]
    · rw [if_neg hn, List.filter_cons, List.filter_cons, ih]

/-- A wave that sees the latest values writes a uniform register: the group's value is the new one, the writer sees it, and nothing else changes
but what other waves may still see (R232, R236). -/
theorem putSreg_spec (g : Group) (wi free n : Nat) (v : W32) (hp : g.spoison = []) (hu : ∀ u ∈ g.unseen, aget u.views wi = none) :
    ∃ us, g.putSreg wi free n v false = { g with sregs := sput 0 n v g.sregs, unseen := us } ∧ (∀ u ∈ us, aget u.views wi = none) ∧
      ∀ p : Nat → Bool, p n = true → us.filter (fun u => !p u.reg) = g.unseen.filter fun u => !p u.reg := by
  have hs : g.setSreg n v false = { g with sregs := sput 0 n v g.sregs } := by simp [Group.setSreg, hp]
  simp only [Group.putSreg]
  cases hf : g.unseen.find? fun u => u.reg == n with
  | none =>
    simp only [hs]
    split
    · exact ⟨g.unseen, rfl, hu, fun _ _ => rfl⟩
    · refine ⟨_, rfl, ?_, fun p h => by simp [List.filter_append, h]⟩
      intro u hm
      rcases List.mem_append.1 hm with hm | hm
      · exact hu u hm
      · rw [List.mem_singleton.1 hm]; exact aget_otherWaves g wi _
  | some u =>
    simp only [hu u (List.mem_of_find?_eq_some hf), Option.isSome_none, Bool.false_and, Bool.false_eq_true, if_false, hs]
    refine ⟨_, rfl, ?_, fun p h => ?_⟩
    · intro w hm
      obtain ⟨y, hy, rfl⟩ := List.mem_map.1 hm
      split
      · exact aget_otherWaves g wi _
      · exact hu y hy
    · exact filter_replaced n _ rfl p h g.unseen

/-- As `putSreg_spec`, for registers n, n + 1, … -/
theorem putSregs_spec (ws : List W32) (g : Group) (wi free n : Nat) (hp : g.spoison = []) (hu : ∀ u ∈ g.unseen, aget u.views wi = none) :
    ∃ sregs us, g.putSregs wi free n ws = { g with sregs := sregs, unseen := us } ∧ (∀ u ∈ us, aget u.views wi = none) ∧
      (∀ p : Nat → Bool, (∀ k, n ≤ k → k < n + ws.length → p k = true) → us.filter (fun u => !p u.reg) = g.unseen.filter fun u => !p u.reg) ∧
      ∀ k, sget 0 sregs k = if n ≤ k ∧ k < n + ws.length then ws.getD (k - n) 0 else sget 0 g.sregs k := by
  induction ws generalizing g n with
  | nil =>
    refine ⟨g.sregs, g.unseen, rfl, hu, fun _ _ => rfl, fun k => ?_⟩
    rw [if_neg (by simp only [List.length_nil]; omega)]
  | cons v ws ih =>
    obtain ⟨us, h1, h2, h3⟩ := putSreg_spec g wi free n v hp hu
    obtain ⟨sregs, us', h4, h5, h6, h7⟩ := ih ({ g with sregs := sput 0 n v g.sregs, unseen := us } : Group) (n + 1) hp h2
    refine ⟨sregs, us', ?_, h5, fun p h => ?_, fun k => ?_⟩
    · rw [Group.putSregs, h1, h4]
    · rw [h6 p fun k h1 h2 => h k (by omega) (by simp only [List.length_cons]; omega)]
      exact h3 p (h n (le_refl n) (by simp))
    · rw [h7 k]
      simp only [sget_sput, List.length_cons]
      by_cases hk : k = n
      · subst hk
        rw [if_neg (by omega), if_pos rfl, if_pos (by omega)]; simp
      · rw [if_neg hk]
        by_cases hr : n + 1 ≤ k ∧ k < n + 1 + ws.length
        · rw [if_pos hr, if_pos (by omega), show k - n = (k - (n + 1)) + 1 by omega]; simp
        · rw [if_neg hr, if_neg (by omega)]

theorem putS_sregs {x : Issue} (hc : Clean x) (free : Nat) (n : Byte) (is64 : Bool) (v : W64) :
    ∃ sregs us, x.g.putS x.ref.wi free n is64 v = { x.g with sregs := sregs, unseen := us } ∧
      ViewsAfter x (fun k => decide (k = n.toNat) || is64 && decide (k = n.toNat + 1)) us ∧
      ∀ k, sget 0 sregs k = if k = n.toNat then lo32 v else if is64 = true ∧ k = n.toNat + 1 then hi32 v else sget 0 x.g.sregs k := by
  obtain ⟨sregs, us, h1, h2, h3, h4⟩ := putSregs_spec (if is64 then [lo32 v, hi32 v] else [lo32 v]) x.g x.ref.wi free n.toNat hc.2.2.2.1 hc.2.2.2.2
  refine ⟨sregs, us, h1, ⟨h2, h3 (fun k => decide (k = n.toNat) || is64 && decide (k = n.toNat + 1)) fun k ha hb => ?_⟩, fun k => ?_⟩
  · cases is64 <;> simp at hb ⊢ <;> omega
  · rw [h4 k]
    by_cases ha : k = n.toNat
    · subst ha; cases is64 <;> simp
    · by_cases hb : k = n.toNat + 1
      · subst hb; cases is64 <;> simp
      · cases is64
        · simp only [Bool.false_eq_true, if_false, ha, false_and, List.length_singleton]; rw [if_neg (by omega)]
        · simp only [if_true, ha, if_false, hb, and_false, List.length_cons, List.length_nil]; rw [if_neg (by omega)]

/-- A uniform instruction of the shape oncePerWave, run. -/
theorem uniform_runs {i : Instr} {h : Hdr} {n : Byte} {is64 : Bool} {ok : State → Issue → W64 → Prop} (srcs : State → Issue → List Src)
    (v : State → Issue → W64)
    (he : ∀ s, exec i s = withIssuer s fun x => oncePerWave s x h (srcs s x) (finishGroup s x h fun g => g.putS x.ref.wi s.free n is64 (v s x)))
    (hs : ∀ s x, Clean x → ∀ r ∈ srcs s x, r.bad = none) (hv : ∀ s x, Clean x → ok s x (v s x)) : UniformMeaning i h n is64 ok := by
  intro s x hx hc
  constructor
  · intro ha
    refine ⟨_, v s x, by rw [he, withIssuer_next hx.1], ?_, hv s x hc⟩
    rw [oncePerWave, if_pos (acts_of_exec hx.2 ha), List.findSome?_eq_none_iff.2 fun r hr => hs s x hc r hr]
    obtain ⟨sregs, us, h1, h2, h3⟩ := putS_sregs hc s.free n is64 (v s x)
    exact ⟨sregs, us, finishGroup_only hx hc h _ { x.g with sregs := sregs, unseen := us } h1 rfl, h2, h3⟩
  · intro ha
    have : x.acts h = false := by
      simp only [Issue.acts, exec_of_insn_none h hx.2]
      exact decide_eq_false ha
    rw [he, withIssuer_next hx.1, oncePerWave, this]
    simp only [Bool.false_eq_true, if_false]
    rw [finish_of_clean hx.2 h _ hc.1]

theorem readS_of_clean {x : Issue} (hc : Clean x) (s : State) (is64 : Bool) (n : Byte) :
    readS s x is64 n = { val := uniValue x is64 n.toNat, bad := none } := by
  cases is64 <;> simp [readS, srcSreg, readSreg_of_clean hc, uniValue]

end Sys2Proof.Machine
end

