-- ==== Sys2Proof/Laws/Access.lean ====
section
/-! SUPPORT. Access: a memory instruction whose accesses pass their checks here is performed at once. -/

namespace Sys2Proof.Machine

/-! ## What no access of this device's own memory changes -/

/-- A site whose bytes another device holds. -/
def Site.away : Site → Prop
  | .remote .. => True
  | _ => False

theorem writeSite_mgmt {s : State} {t : Site} (h : ¬ t.away) (bs : List Byte) (bad : Bool) : (s.writeSite t bs bad).mgmt = s.mgmt := by
  cases t with
  | dev => rfl
  | host => simp only [State.writeSite]; split <;> rfl
  | remote => exact absurd trivial h
  | scratch => rfl

theorem writeSite_failing {s : State} {t : Site} (h : ¬ t.away) (bs : List Byte) (bad : Bool) :
    (s.writeSite t bs bad).host.failing = s.host.failing := by
  cases t with
  | dev => rfl
  | host => simp only [State.writeSite]; split <;> rfl
  | remote => exact absurd trivial h
  | scratch => rfl

theorem writeSites_mgmt {ts : Sites} (h : ∀ t ∈ ts, ¬ t.1.away) (s : State) (bs : List Byte) (bad : Bool) :
    (s.writeSites bad ts bs).mgmt = s.mgmt ∧ (s.writeSites bad ts bs).host.failing = s.host.failing := by
  induction ts generalizing s bs with
  | nil => exact ⟨rfl, rfl⟩
  | cons t ts ih =>
    have h1 := h t (List.mem_cons_self ..)
    obtain ⟨a, b⟩ := ih (fun u hu => h u (List.mem_cons_of_mem t hu)) (s.writeSite t.1 (bs.take t.2) bad) (bs.drop t.2)
    simp only [State.writeSites]
    exact ⟨a.trans (writeSite_mgmt h1 ..), b.trans (writeSite_failing h1 ..)⟩

theorem setFullAt_mgmt {s : State} {t : Site} (h : ¬ t.away) (b : Bool) :
    (s.setFullAt t b).mgmt = s.mgmt ∧ (s.setFullAt t b).host.failing = s.host.failing := by
  cases t with
  | dev => exact ⟨rfl, rfl⟩
  | host => exact ⟨rfl, rfl⟩
  | remote => exact absurd trivial h
  | scratch => exact ⟨rfl, rfl⟩

theorem performLane_mgmt {ts : Sites} (h : ∀ t ∈ ts, ¬ t.1.away) (s : State) (i : Instr) (op : LaneOp) :
    (performLane s i op ts).1.mgmt = s.mgmt ∧ (performLane s i op ts).1.host.failing = s.host.failing := by
  have hw := fun s bs => writeSites_mgmt h s bs false
  have hf : ∀ u b, (∀ t ∈ ts, ¬ t.1.away) → (match ts with | t :: _ => State.setFullAt u t.1 b | [] => u).mgmt = u.mgmt ∧
      (match ts with | t :: _ => State.setFullAt u t.1 b | [] => u).host.failing = u.host.failing := by
    intro u b hh
    cases ts with
    | nil => exact ⟨rfl, rfl⟩
    | cons t us => exact setFullAt_mgmt (hh t (List.mem_cons_self ..)) b
  unfold performLane
  simp only []
  split
  · exact hw _ _
  · exact hw _ _
  · exact hw _ _
  · exact hw _ _
  · split
    · exact hw _ _
    · exact ⟨rfl, rfl⟩
  · exact hw _ _
  · exact hf _ _ h
  · exact ⟨(hf _ _ h).1.trans (hw _ _).1, (hf _ _ h).2.trans (hw _ _).2⟩
  · exact ⟨(hf _ _ h).1.trans (hw _ _).1, (hf _ _ h).2.trans (hw _ _).2⟩
  · split
    · exact hf _ _ h
    · exact ⟨rfl, rfl⟩
  · exact ⟨rfl, rfl⟩
  · exact ⟨rfl, rfl⟩
  · exact ⟨rfl, rfl⟩

/-! ## The checks of accesses that pass -/

theorem reaches_away {s : State} {x : Issue} {i : Instr} {op : LaneOp} {ts : Sites} (h : Reaches s x i op ts) : ∀ t ∈ ts, ¬ t.1.away := by
  intro t ht ha
  have := h.2.1 t ht
  cases hu : t.1 <;> simp only [hu, Site.away] at ha this

theorem siteFault_none {s : State} {x : Issue} {i : Instr} {op : LaneOp} {ts : Sites} (h : Reaches s x i op ts) (ht : memTagged i = false)
    (hp : memConsumes i = true → ∀ t ∈ ts, s.poisonedAt t.1 t.2 = false) (whole : List Nat) (a : W64) (t : Site × Nat) (hm : t ∈ ts) :
    siteFault s i [] whole a t.1 t.2 = none := by
  have hr : refusal [] t.1 = none := by unfold refusal; split <;> simp
  have hl : s.lostAt t.1 = false := by
    have := h.2.1 t hm
    unfold State.lostAt
    split
    · rename_i pa _ _ _ he
      rw [he] at this
      simpa using this 0 (Or.inl rfl)
    · rfl
  have hq : (memConsumes i && s.poisonedAt t.1 t.2) = false := by
    cases hc : memConsumes i with
    | false => rfl
    | true => simp [hp hc t hm]
  simp only [siteFault, ht, hr, hl, hq, Bool.false_and, Bool.false_eq_true, if_false]

theorem checkLanes_ok {s : State} {x : Issue} {i : Instr} {ops : List LaneOp} {ts : Nat → Sites} (he : x.e.remote = [])
    (hr : ∀ op ∈ ops, Reaches s x i op (ts op.lane)) (ht : memTagged i = false)
    (hp : memConsumes i = true → ∀ op ∈ ops, ∀ t ∈ ts op.lane, s.poisonedAt t.1 t.2 = false) :
    checkLanes s x i ops = ops.map fun op => { op := op, res := .ok (ts op.lane) } := by
  simp only [checkLanes, List.map_map, he]
  apply List.map_congr_left
  intro op hop
  obtain ⟨as, ha, hts⟩ := (hr op hop).1
  simp only [Function.comp, ha]
  generalize hw : (if (memCoalesces i && !s.mem.lost.isEmpty) = true then _ else _ : List Nat) = whole
  have hnil : (as.flatMap fun a => ((List.range a.2.length).zip (partsOf a.1 (a.2.foldl (fun k t => k + t.2) 0))).filterMap fun q =>
      (a.2[q.1]?).bind fun t => siteFault (s.forLane [] op.lane) i (answersFor [] op.lane) whole q.2.1 t.1 t.2) = [] := by
    rw [List.flatMap_eq_nil_iff]
    intro a haa
    rw [List.filterMap_eq_nil_iff]
    intro q _
    cases hq : a.2[q.1]? with
    | none => rfl
    | some t =>
      have hmem : t ∈ ts op.lane := by
        rw [hts, List.mem_flatMap]
        exact ⟨a, haa, List.mem_of_getElem? hq⟩
      exact siteFault_none (hr op hop) ht (fun hc => hp hc op hop) whole q.2.1 t hmem
  rw [hnil, hts]
  rfl

theorem touchesRemote_local {ops : List LaneOp} {ts : Nat → Sites} (h : ∀ op ∈ ops, ∀ t ∈ ts op.lane, ¬ t.1.away) :
    touchesRemote (ops.map fun op => { op := op, res := .ok (ts op.lane) }) = false := by
  simp only [touchesRemote, goodSites, List.any_eq_false, List.mem_filterMap, List.mem_map]
  rintro p ⟨c, ⟨op, hop, rfl⟩, hc⟩
  obtain rfl := Option.some.inj hc
  simp only [List.any_eq_true, not_exists, not_and, Bool.not_eq_true]
  intro t ht
  have := h op hop t ht
  cases hu : t.1 <;> simp_all [Site.away, Site.isRemote]

theorem dropLines_nil {s : State} (h : s.mgmt.rcache = []) : s.dropLines = s := by
  have : { s.mgmt with rcache := ([] : List CacheLine) } = s.mgmt := by rw [← h]
  simp only [State.dropLines, this]

/-- No other entry of a quiet wave has a store to do first. -/
theorem behindStore_quiet {s : State} {x : Issue} (h : Quiet s x) (i : Instr) (ops : List LaneOp) : behindStore x i ops = false := by
  simp only [behindStore, Bool.and_eq_false_iff, List.any_eq_false]
  right
  intro sl _
  cases he : x.w.entry? sl with
  | none => simp
  | some e =>
    by_cases hs : sl = x.ref.slot
    · simp [hs]
    · by_cases hf : e.st = .wait .fe
      · have := h.2.2 sl e hs he hf
        simp only [hs, ne_eq, not_false_iff, decide_true, hf, Bool.true_and]
        cases hi : e.insn with
        | none => simp
        | some j =>
          have hn : ∀ h f, j ≠ .stef h f := fun a b hj => this a b (by rw [hi, hj])
          cases j <;> first | exact absurd rfl (hn _ _) | simp
      · simp [hf]

theorem hostUsed_none {s : State} {used : Bool} (h : used = true → s.host.failing = none) : s.hostUsed used = s := by
  unfold State.hostUsed
  split
  · rename_i hu
    have : { s.host with failing := none } = s.host := by rw [← h hu]
    rw [this]
  · rfl

theorem laneFaults_ok (x : Issue) (ops : List LaneOp) (ts : Nat → Sites) :
    laneFaults x (ops.map fun op => { op := op, res := .ok (ts op.lane) }) = [] := by
  simp [laneFaults, List.filterMap_map]

/-- One lane of performAll. -/
def performOne (x : Issue) (i : Instr) (p : State × LaneResults) (c : Checked) : State × LaneResults :=
  if !x.w.real.getLsbD c.op.lane && !memUniform i then
    (if memStores i then p else (p.1, p.2 ++ [(c.op, performHelper (p.1.forLane x.e.remote c.op.lane) i c)]))
  else match c.res with
    | .ok ts => let r := performLane (p.1.forLane x.e.remote c.op.lane) i c.op ts; (r.1, p.2 ++ [(c.op, r.2)])
    | .error _ => p

theorem performAll_eq (s : State) (x : Issue) (i : Instr) (cs : List Checked) : performAll s x i cs = cs.foldl (performOne x i) (s, []) := rfl

theorem performAll_mgmt {x : Issue} (he : x.e.remote = []) {i : Instr} {ts : Nat → Sites} {ops : List LaneOp} (h : ∀ op ∈ ops, ∀ t ∈ ts op.lane, ¬ t.1.away) (s : State)
    (rs : LaneResults) :
    ((ops.map fun op => ({ op := op, res := .ok (ts op.lane) } : Checked)).foldl (performOne x i) (s, rs)).1.mgmt = s.mgmt ∧
    ((ops.map fun op => ({ op := op, res := .ok (ts op.lane) } : Checked)).foldl (performOne x i) (s, rs)).1.host.failing = s.host.failing := by
  induction ops generalizing s rs with
  | nil => exact ⟨rfl, rfl⟩
  | cons op ops ih =>
    rw [List.map_cons, List.foldl_cons]
    have hrest : ∀ o ∈ ops, ∀ t ∈ ts o.lane, ¬ t.1.away := fun o ho => h o (List.mem_cons_of_mem op ho)
    have h1 : (performOne x i (s, rs) { op := op, res := .ok (ts op.lane) }).1.mgmt = s.mgmt ∧
        (performOne x i (s, rs) { op := op, res := .ok (ts op.lane) }).1.host.failing = s.host.failing := by
      unfold performOne State.forLane
      rw [if_pos he]
      split
      · split <;> exact ⟨rfl, rfl⟩
      · exact performLane_mgmt (h op (List.mem_cons_self ..)) s i op
    obtain ⟨a, b⟩ := ih hrest (performOne x i (s, rs) { op := op, res := .ok (ts op.lane) }).1 (performOne x i (s, rs) { op := op, res := .ok (ts op.lane) }).2
    exact ⟨a.trans h1.1, b.trans h1.2⟩

theorem fullSectors_lost {s : State} {tss : List Sites} (h : ∀ ts ∈ tss, ∀ t ∈ ts, match t.1 with
      | .dev pa _ _ _ => ∀ k, k = 0 ∨ k < t.2 → (pa + k) / 32 ∉ s.mem.lost
      | _ => True) : ∀ sec ∈ fullSectors tss, sec ∉ s.mem.lost := by
  intro sec hsec
  simp only [fullSectors, List.mem_filter, List.mem_dedup, List.mem_map, List.mem_flatMap] at hsec
  obtain ⟨⟨b, ⟨ts, hts, t, ht, hb⟩, rfl⟩, _⟩ := hsec
  have := h ts hts t ht
  cases hu : t.1 with
  | dev pa va key fe =>
    simp only [hu, List.mem_map, List.mem_range] at hb this
    obtain ⟨k, hk, rfl⟩ := hb
    exact this k (Or.inr hk)
  | host => simp [hu] at hb
  | remote => simp [hu] at hb
  | scratch => simp [hu] at hb

theorem sdel_of_not_mem {k : Nat} {m : List Nat} (h : k ∉ m) : sdel k m = m := by
  unfold sdel
  rw [List.filter_eq_self]
  intro a ha
  simp only [bne_iff_ne, ne_eq]
  rintro rfl
  exact h ha

theorem clearLost_of_reaches {s : State} {x : Issue} {i : Instr} {ops : List LaneOp} {ts : Nat → Sites}
    (hr : ∀ op ∈ ops, Reaches s x i op (ts op.lane)) : clearLost s x i (ops.map fun op => { op := op, res := .ok (ts op.lane) }) = s := by
  unfold clearLost
  split
  · have hno : ∀ sec ∈ fullSectors ((ops.map fun op => ({ op := op, res := .ok (ts op.lane) } : Checked)).filterMap fun c => match c.res with
        | .ok ts => if x.w.real.getLsbD c.op.lane then some ts else none
        | .error _ => none), sec ∉ s.mem.lost := by
      apply fullSectors_lost
      intro us hus t ht
      obtain ⟨c, hc, hcu⟩ := List.mem_filterMap.1 hus
      obtain ⟨op, hop, rfl⟩ := List.mem_map.1 hc
      simp only [Option.ite_none_right_eq_some, Option.some.injEq] at hcu
      rw [← hcu.2] at ht
      have := (hr op hop).2.1 t ht
      cases hu : t.1 <;> simp_all
    generalize fullSectors _ = secs at hno
    have : secs.foldl (fun l sec => sdel sec l) s.mem.lost = s.mem.lost := by
      induction secs with
      | nil => rfl
      | cons a secs ih =>
        rw [List.foldl_cons, sdel_of_not_mem (hno a (List.mem_cons_self ..))]
        exact ih fun sec h => hno sec (List.mem_cons_of_mem a h)
    simp only [this]
  · rfl

/-- A memory instruction that does not wait and whose accesses pass is performed in every lane at once. -/
theorem memGo_local {s : State} {x : Issue} (hqt : Quiet s x) (h : Hdr) (i : Instr) {ops : List LaneOp} {ts : Nat → Sites}
    (hr : ∀ op ∈ ops, Reaches s x i op (ts op.lane)) (hw : memWaits i = false) (ht : memTagged i = false)
    (hp : memConsumes i = true → ∀ op ∈ ops, ∀ t ∈ ts op.lane, s.poisonedAt t.1 t.2 = false) :
    memGo s x h i ops [] =
      let p := performAll s x i (ops.map fun op => { op := op, res := .ok (ts op.lane) })
      finish p.1 x h (applyResults x.w i p.2) := by
  have haway : ∀ op ∈ ops, ∀ t ∈ ts op.lane, ¬ t.1.away := fun op ho => reaches_away (hr op ho)
  have hm := performAll_mgmt hqt.1 (i := i) haway s []
  rw [← performAll_eq] at hm
  simp only [memGo, memPerform, behindStore_quiet hqt, hqt.1, checkLanes_ok hqt.1 hr ht hp, touchesRemote_local haway, List.isEmpty_nil,
    Bool.not_true, Bool.false_eq_true, if_false, List.any_nil, hw, ht, laneFaults_ok, List.append_nil, clearLost_of_reaches hr, finishLanes]
  generalize hP : performAll s x i (ops.map fun op => { op := op, res := .ok (ts op.lane) }) = P at hm
  have hout : ∀ used : Bool, (used = true → s.host.failing = none) →
      ((finish P.1 x h (applyResults x.w i P.2)).dropLines).hostUsed used = finish P.1 x h (applyResults x.w i P.2) := by
    intro used hu
    rw [dropLines_nil (by exact hm.1 ▸ hqt.2.1)]
    apply hostUsed_none
    intro h1
    exact hm.2.trans (hu h1)
  have hused : ((ops.map fun op => ({ op := op, res := .ok (ts op.lane) } : Checked)).any fun c => match c.res with
      | .ok ts => ts.any fun t => t.1.isHost
      | .error _ => false) = true → s.host.failing = none := by
    intro hany
    rw [List.any_map, List.any_eq_true] at hany
    obtain ⟨op, hop, hh⟩ := hany
    simp only [Function.comp, List.any_eq_true] at hh
    obtain ⟨t, htm, hth⟩ := hh
    have := (hr op hop).2.1 t htm
    cases hu : t.1 <;> simp_all [Site.isHost]
  cases hun : memUniform i with
  | false => simp only [Bool.false_eq_true, if_false]; exact hout _ hused
  | true =>
    simp only [if_true]
    cases ops with
    | nil => exact hout _ hused
    | cons op ops => simp only [List.map_cons, List.head?_cons] at hP ⊢; exact hout _ (by simpa using hused)

end Sys2Proof.Machine
end

