-- ==== Sys2Proof/Laws/Cipher.lean ====
section
/-! SUPPORT. Cipher: the block functions keep the length of a data unit. -/

namespace Sys2Proof.Machine

@[simp] theorem length_bytesOfNat (n x : Nat) : (bytesOfNat n x).length = n := by
  induction n generalizing x with
  | zero => rfl
  | succ n ih => simp [bytesOfNat, ih]

@[simp] theorem length_xorBytes (a b : List Byte) : (xorBytes a b).length = min a.length b.length := by
  simp [xorBytes]

theorem length_aesNextWord {ws : List (List Byte)} (rcon : Byte) (h8 : 8 ≤ ws.length) (h : ∀ w ∈ ws, w.length = 4) :
    (aesNextWord ws rcon).1.length = 4 := by
  have ht : (ws.head?.getD []).length = 4 := by
    cases ws with
    | nil => simp at h8
    | cons a ws => exact h a (List.mem_cons_self ..)
  have ho : (ws[7]?.getD []).length = 4 := by
    have : 7 < ws.length := h8
    rw [List.getElem?_eq_getElem this, Option.getD_some]
    exact h _ (List.getElem_mem this)
  unfold aesNextWord
  simp only []
  split
  · simp only [length_xorBytes, ho]
    have hr : (((ws.head?.getD []).drop 1 ++ (ws.head?.getD []).take 1).map aesSub).length = 4 := by simp [ht]
    generalize ((ws.head?.getD []).drop 1 ++ (ws.head?.getD []).take 1).map aesSub = r at hr
    cases r with
    | nil => simp at hr
    | cons a r => simp at hr ⊢; omega
  · split
    · simp [ho, ht]
    · simp [ho, ht]

theorem aesWords_inv (n : Nat) (ws : List (List Byte)) (rcon : Byte) (h8 : 8 ≤ ws.length) (h : ∀ w ∈ ws, w.length = 4) :
    let p := (List.range n).foldl (fun (p : List (List Byte) × Byte) _ =>
      ((aesNextWord p.1 p.2).1 :: p.1, (aesNextWord p.1 p.2).2)) (ws, rcon)
    p.1.length = ws.length + n ∧ ∀ w ∈ p.1, w.length = 4 := by
  induction n with
  | zero => exact ⟨rfl, h⟩
  | succ n ih =>
    simp only [List.range_succ (n := n), List.foldl_append, List.foldl_cons, List.foldl_nil]
    obtain ⟨a, b⟩ := ih
    refine ⟨by simp only [List.length_cons] at a ⊢; omega, ?_⟩
    intro w hw
    rcases List.mem_cons.1 hw with rfl | hw
    · exact length_aesNextWord _ (by omega) b
    · exact b w hw

theorem length_aesKeys {key : List Byte} (hk : key.length = 32) : (aesKeys key).length = 15 ∧ ∀ k ∈ aesKeys key, k.length = 16 := by
  refine ⟨by simp [aesKeys], ?_⟩
  have h4 : ∀ w ∈ ((List.range 8).map fun i => (key.drop (4 * i)).take 4).reverse, w.length = 4 := by
    intro w hw
    simp only [List.mem_reverse, List.mem_map, List.mem_range] at hw
    obtain ⟨i, hi, rfl⟩ := hw
    simp [hk]; omega
  obtain ⟨a, b⟩ := aesWords_inv 52 (((List.range 8).map fun i => (key.drop (4 * i)).take 4).reverse) 1 (by simp) h4
  intro k hkm
  simp only [aesKeys, List.mem_map, List.mem_range] at hkm
  obtain ⟨r, hr, rfl⟩ := hkm
  generalize hws : (List.foldl (fun (p : List (List Byte) × Byte) _ => ((aesNextWord p.1 p.2).1 :: p.1, (aesNextWord p.1 p.2).2))
    (((List.range 8).map fun i => (key.drop (4 * i)).take 4).reverse, 1) (List.range 52)).1 = ws at a b
  simp only [List.length_reverse, List.length_map, List.length_range] at a
  rw [List.length_flatten]
  have hl : ((ws.reverse.drop (4 * r)).take 4).length = 4 := by simp [a]; omega
  have hall : ∀ w ∈ (ws.reverse.drop (4 * r)).take 4, w.length = 4 := fun w hw =>
    b w (List.mem_reverse.1 (List.mem_of_mem_drop (List.mem_of_mem_take hw)))
  generalize (ws.reverse.drop (4 * r)).take 4 = q at hl hall
  have : q.map List.length = List.replicate 4 4 := by
    exact List.eq_replicate_iff.2 ⟨by simp [hl], by
      intro n hn
      obtain ⟨w, hw, rfl⟩ := List.mem_map.1 hn
      exact hall w hw⟩
  rw [this]; rfl

@[simp] theorem length_aesMix (co st : List Byte) : (aesMix co st).length = 16 := by simp [aesMix]
@[simp] theorem length_aesShift (d : Nat) (st : List Byte) : (aesShift d st).length = 16 := by simp [aesShift]

theorem length_foldl {α β : Type} (f : Nat × List β → α → Nat × List β) (n : Nat) (ks : List α) (p : Nat × List β) (hp : p.2.length = n)
    (h : ∀ p, ∀ k ∈ ks, p.2.length = n → (f p k).2.length = n) : (ks.foldl f p).2.length = n := by
  induction ks generalizing p with
  | nil => exact hp
  | cons k ks ih =>
    rw [List.foldl_cons]
    exact ih _ (h p k (List.mem_cons_self ..) hp) fun q j hj => h q j (List.mem_cons_of_mem k hj)

theorem length_aesEncBlock {ks : List (List Byte)} (hk : ∀ k ∈ ks, k.length = 16) {b : List Byte} (hb : b.length = 16) : (aesEncBlock ks b).length = 16 := by
  cases ks with
  | nil => exact hb
  | cons k0 rest =>
    refine length_foldl _ 16 rest _ (by simp [hb, hk k0 (List.mem_cons_self ..)]) ?_
    intro p k hkm hp
    simp only [length_xorBytes, hk k (List.mem_cons_of_mem k0 hkm)]
    split <;> simp

theorem length_aesDecBlock {ks : List (List Byte)} (hk : ∀ k ∈ ks, k.length = 16) {b : List Byte} (hb : b.length = 16) : (aesDecBlock ks b).length = 16 := by
  unfold aesDecBlock
  have hr : ∀ k ∈ ks.reverse, k.length = 16 := fun k h => hk k (List.mem_reverse.1 h)
  cases hks : ks.reverse with
  | nil => exact hb
  | cons k0 rest =>
    rw [hks] at hr
    refine length_foldl _ 16 rest _ (by simp [hb, hr k0 (List.mem_cons_self ..)]) ?_
    intro p k hkm hp
    simp only
    split <;> simp [hr k (List.mem_cons_of_mem k0 hkm)]

theorem length_xtsUnit {f : List (List Byte) → List Byte → List Byte} (hf : ∀ ks b, (∀ k ∈ ks, k.length = 16) → b.length = 16 → (f ks b).length = 16)
    (key : BitVec 512) (unit : Nat) {data : List Byte} (hd : data.length = 32) : (xtsUnit f key unit data).length = 32 := by
  have h1 := (length_aesKeys (key := (splitKey key).1) (by simp [splitKey])).2
  have h2 := (length_aesKeys (key := (splitKey key).2) (by simp [splitKey])).2
  have ht : (xtsTweaks (splitKey key).2 unit).1.length = 16 := length_aesEncBlock h2 (by simp)
  have hu : (xtsTweaks (splitKey key).2 unit).2.length = 16 := by simp [xtsTweaks, xtsDouble]
  simp only [xtsUnit, List.length_append, length_xorBytes, ht, hu]
  rw [hf _ _ h1 (by simp [hd, ht]), hf _ _ h1 (by simp [hd, hu])]
  rfl

theorem length_xtsDecrypt (key : BitVec 512) (unit : Nat) {data : List Byte} (hd : data.length = 32) : (xtsDecrypt key unit data).length = 32 :=
  length_xtsUnit (fun _ _ hk hb => length_aesDecBlock hk hb) key unit hd

theorem length_xtsEncrypt (key : BitVec 512) (unit : Nat) {data : List Byte} (hd : data.length = 32) : (xtsEncrypt key unit data).length = 32 :=
  length_xtsUnit (fun _ _ hk hb => length_aesEncBlock hk hb) key unit hd

/-! ## What GCM seals, it opens (R526) -/

theorem length_gcmStream (key : BitVec 256) (iv : BitVec 96) (c n : Nat) : (gcmStream (aesKeys (bytesOfNat 32 key.toNat)) iv c n).length = n := by
  have hk := (length_aesKeys (key := bytesOfNat 32 key.toNat) (by simp)).2
  have hb : ∀ i, (aesEncBlock (aesKeys (bytesOfNat 32 key.toNat)) (bytesOfNat 12 iv.toNat ++ (bytesOfNat 4 (c + i)).reverse)).length = 16 := fun i =>
    length_aesEncBlock hk (by simp)
  have hl : ∀ m, ((List.range m).flatMap fun i =>
      aesEncBlock (aesKeys (bytesOfNat 32 key.toNat)) (bytesOfNat 12 iv.toNat ++ (bytesOfNat 4 (c + i)).reverse)).length = 16 * m := by
    intro m
    induction m with
    | zero => rfl
    | succ m ih => rw [List.range_succ, List.flatMap_append, List.length_append, ih]; simp [hb]; omega
  rw [gcmStream, List.length_take, hl]
  omega

theorem xorBytes_cancel (a b : List Byte) (h : a.length = b.length) : xorBytes (xorBytes a b) b = a := by
  apply List.ext_getElem
  · simp [h]
  · intro i h1 h2
    simp [xorBytes]

theorem length_gcmTag (key : BitVec 256) (iv : BitVec 96) (aad data : List Byte) : (gcmTag key iv aad data).length = 16 := by
  simp [gcmTag, length_gcmStream]

theorem length_gcmCrypt (key : BitVec 256) (iv : BitVec 96) (data : List Byte) : (gcmCrypt key iv data).length = data.length := by
  simp [gcmCrypt, length_gcmStream]

theorem gcmOpen_sealed (key : BitVec 256) (iv : BitVec 96) (aad text : List Byte) :
    gcmOpen key iv aad (gcmCrypt key iv text) (gcmTag key iv aad (gcmCrypt key iv text)) = some text := by
  rw [gcmOpen, if_pos rfl, Option.some.injEq]
  change xorBytes (gcmCrypt key iv text) (gcmStream _ iv 2 (gcmCrypt key iv text).length) = text
  rw [length_gcmCrypt]
  exact xorBytes_cancel _ _ (length_gcmStream ..).symm

theorem gcmOpen_untagged (key : BitVec 256) (iv : BitVec 96) (aad data : List Byte) : gcmOpen key iv aad data [] = none := by
  rw [gcmOpen, if_neg]
  intro h
  have := length_gcmTag key iv aad data
  rw [h] at this
  cases this

end Sys2Proof.Machine
end

