-- ==== Sys2Proof/Laws/Memory.lean ====
section
/-! SUPPORT. Memory: reads after writes of device memory under seals, and that every operation keeps the canonical form. -/

namespace Sys2Proof.Machine

/-! ## Cells -/

theorem sget_putCells (cells : List Host.Cell) (pa : Nat) (bs : List Byte) (a : Nat) :
    sget memDefault (putCells cells pa bs) a = if h : pa ≤ a ∧ a - pa < bs.length then bs[a - pa] else sget memDefault cells a := by
  induction bs generalizing cells pa with
  | nil => simp [putCells]
  | cons b bs ih =>
    rw [putCells, ih]
    by_cases h1 : pa + 1 ≤ a ∧ a - (pa + 1) < bs.length
    · have h2 : pa ≤ a ∧ a - pa < (b :: bs).length := ⟨by omega, by simp; omega⟩
      rw [dif_pos h1, dif_pos h2]
      have : a - pa = (a - (pa + 1)) + 1 := by omega
      simp only [this, List.getElem_cons_succ]
    · rw [dif_neg h1]
      by_cases ha : a = pa
      · subst ha
        simp
      · have h2 : ¬ (pa ≤ a ∧ a - pa < (b :: bs).length) := by
          simp only [List.length_cons]; omega
        rw [dif_neg h2, sget_sput_ne _ _ ha]

theorem swf_putCells (cells : List Host.Cell) (pa : Nat) (bs : List Byte) (h : swf memDefault cells = true) :
    swf memDefault (putCells cells pa bs) = true := by
  induction bs generalizing cells pa with
  | nil => exact h
  | cons b bs ih => exact ih _ _ (swf_sput _ _ _ _ h)

@[simp] theorem length_cellsAt (m : Mem) (pa n : Nat) : (m.cellsAt pa n).length = n := by simp [Mem.cellsAt]

theorem getElem_cellsAt (m : Mem) (pa n k : Nat) (h : k < (m.cellsAt pa n).length) : (m.cellsAt pa n)[k] = m.cell (pa + k) := by
  simp [Mem.cellsAt]

/-! ## Sectors -/

theorem length_stored (m : Mem) (sec : Nat) : (m.stored sec).length = 32 := by
  unfold Mem.stored
  split
  · simp
  · exact length_xtsEncrypt _ _ (by simp)

theorem length_sector (m : Mem) (sec : Nat) (sl : Seal) : (m.sector sec sl).length = 32 := by
  unfold Mem.sector
  split
  · simp
  · exact length_xtsDecrypt _ _ (length_stored m sec)

theorem length_bytes (m : Mem) {pa n : Nat} (sl : Seal) (h : pa % 32 + n ≤ 32) : (m.bytes pa n sl).length = n := by
  unfold Mem.bytes
  split
  · simp
  · simp only [List.length_take, List.length_drop, length_sector]; omega

/-- One byte of a sector. -/
theorem bytes_one (m : Mem) (pa : Nat) (sl : Seal) (d : Byte) : m.bytes pa 1 sl = [(m.sector (pa / 32) sl)[pa % 32]?.getD d] := by
  have hl := length_sector m (pa / 32) sl
  have hlt : pa % 32 < (m.sector (pa / 32) sl).length := by rw [hl]; exact Nat.mod_lt _ (by decide)
  rw [List.getElem?_eq_getElem hlt, Option.getD_some]
  unfold Mem.bytes
  split
  · rename_i h
    have : (m.sector (pa / 32) sl)[pa % 32] = m.cell pa := by
      simp only [Mem.sector, if_pos h, getElem_cellsAt]
      congr 1
      omega
    rw [this]
    simp [Mem.cellsAt]
  · rw [List.drop_eq_getElem_cons hlt]
    rfl

/-- A write of one sector leaves the other sectors as they read. -/
theorem sector_putBytes_ne (m : Mem) {pa : Nat} {bs : List Byte} (sl sl' : Seal) {sec : Nat} (h : pa % 32 + bs.length ≤ 32) (hs : sec ≠ pa / 32) :
    (m.putBytes pa bs sl).sector sec sl' = m.sector sec sl' := by
  have hcell : ∀ a, a / 32 = sec → (m.putBytes pa bs sl).cell a = m.cell a := by
    intro a ha
    have h1 : ∀ (cells : List Host.Cell), sget memDefault (putCells cells pa bs) a = sget memDefault cells a := by
      intro cells
      rw [sget_putCells, dif_neg]
      rintro ⟨h2, h3⟩
      apply hs; omega
    unfold Mem.putBytes
    split
    · exact h1 _
    · refine (h1 _).trans ?_
      rw [sget_putCells, dif_neg]
      · rfl
      · rintro ⟨h2, h3⟩
        rw [length_sector] at h3
        apply hs; omega
  have hcells : (m.putBytes pa bs sl).cellsAt (32 * sec) 32 = m.cellsAt (32 * sec) 32 := by
    unfold Mem.cellsAt
    apply List.map_congr_left
    intro k hk
    rw [List.mem_range] at hk
    exact hcell _ (by omega)
  have hseal : sget none (m.putBytes pa bs sl).seals sec = sget none m.seals sec := by
    unfold Mem.putBytes
    split
    · rfl
    · exact sget_sput_ne (none : Option Seal) (some sl) hs m.seals
  simp only [Mem.sector, Mem.stored, hseal, hcells]

/-- A write of one sector, read back under the same seal. -/
theorem sector_putBytes (m : Mem) {pa : Nat} {bs : List Byte} (sl : Seal) (_h : pa % 32 + bs.length ≤ 32) (k : Nat) (d : Byte) (hk : k < 32) :
    ((m.putBytes pa bs sl).sector (pa / 32) sl)[k]?.getD d =
      if h : pa % 32 ≤ k ∧ k - pa % 32 < bs.length then bs[k - pa % 32] else (m.sector (pa / 32) sl)[k]?.getD d := by
  have hseal : sget none (m.putBytes pa bs sl).seals (pa / 32) = some sl := by
    unfold Mem.putBytes
    split
    · assumption
    · exact sget_sput_self (none : Option Seal) (some sl) (pa / 32) m.seals
  have e1 : (m.putBytes pa bs sl).sector (pa / 32) sl = (m.putBytes pa bs sl).cellsAt (32 * (pa / 32)) 32 := by
    simp only [Mem.sector, if_pos hseal]
  have hl : k < ((m.putBytes pa bs sl).cellsAt (32 * (pa / 32)) 32).length := by simpa using hk
  rw [e1, List.getElem?_eq_getElem hl, Option.getD_some, getElem_cellsAt]
  unfold Mem.putBytes Mem.cell
  split
  · rename_i hs
    have e2 : m.sector (pa / 32) sl = m.cellsAt (32 * (pa / 32)) 32 := by simp only [Mem.sector, if_pos hs]
    have hl2 : k < (m.cellsAt (32 * (pa / 32)) 32).length := by simpa using hk
    rw [sget_putCells, e2, List.getElem?_eq_getElem hl2, Option.getD_some, getElem_cellsAt]
    by_cases hin : pa % 32 ≤ k ∧ k - pa % 32 < bs.length
    · have : pa ≤ 32 * (pa / 32) + k ∧ 32 * (pa / 32) + k - pa < bs.length := by omega
      rw [dif_pos hin, dif_pos this]
      congr 1
      omega
    · have : ¬ (pa ≤ 32 * (pa / 32) + k ∧ 32 * (pa / 32) + k - pa < bs.length) := by omega
      rw [dif_neg hin, dif_neg this]; rfl
  · rw [sget_putCells]
    by_cases hin : pa % 32 ≤ k ∧ k - pa % 32 < bs.length
    · have : pa ≤ 32 * (pa / 32) + k ∧ 32 * (pa / 32) + k - pa < bs.length := by omega
      rw [dif_pos hin, dif_pos this]
      congr 1
      omega
    · have : ¬ (pa ≤ 32 * (pa / 32) + k ∧ 32 * (pa / 32) + k - pa < bs.length) := by omega
      rw [dif_neg hin, dif_neg this, sget_putCells]
      have hl3 : k < (m.sector (pa / 32) sl).length := by rw [length_sector]; exact hk
      have : 32 * (pa / 32) ≤ 32 * (pa / 32) + k ∧ 32 * (pa / 32) + k - 32 * (pa / 32) < (m.sector (pa / 32) sl).length := by
        rw [length_sector]; omega
      rw [dif_pos this, List.getElem?_eq_getElem hl3, Option.getD_some]
      congr 1
      omega

/-- A byte outside a write, of another sector or under the same seal, reads as before. -/
theorem bytes_putBytes_ne (m : Mem) {pa a : Nat} {bs : List Byte} (sl sl' : Seal) (h : pa % 32 + bs.length ≤ 32)
    (ha : a / 32 ≠ pa / 32 ∨ (sl' = sl ∧ ¬ (pa ≤ a ∧ a < pa + bs.length))) : (m.putBytes pa bs sl).bytes a 1 sl' = m.bytes a 1 sl' := by
  by_cases hs : a / 32 = pa / 32
  · rcases ha with ha | ⟨rfl, ha⟩
    · exact absurd hs ha
    · rw [bytes_one _ _ _ 0, bytes_one _ _ _ 0, hs, sector_putBytes m sl' h _ _ (Nat.mod_lt _ (by decide)), dif_neg]
      omega
  · rw [bytes_one _ _ _ 0, bytes_one _ _ _ 0, sector_putBytes_ne m sl sl' h hs]

/-- A written byte reads back under the same seal. -/
theorem bytes_putBytes (m : Mem) {pa a : Nat} {bs : List Byte} (sl : Seal) (h : pa % 32 + bs.length ≤ 32) (ha : pa ≤ a ∧ a - pa < bs.length) :
    (m.putBytes pa bs sl).bytes a 1 sl = [bs[a - pa]] := by
  have hs : a / 32 = pa / 32 := by omega
  have hin : pa % 32 ≤ a % 32 ∧ a % 32 - pa % 32 < bs.length := by omega
  rw [bytes_one _ _ _ 0, hs, sector_putBytes m sl h _ _ (Nat.mod_lt _ (by decide)), dif_pos hin]
  congr 2
  omega

/-! ## The canonical form -/

theorem wf_putBytes (m : Mem) (pa : Nat) (bs : List Byte) (sl : Seal) (h : m.wf = true) : (m.putBytes pa bs sl).wf = true := by
  simp only [Mem.wf, Bool.and_eq_true] at h ⊢
  unfold Mem.putBytes
  split
  · exact ⟨swf_putCells _ _ _ h.1, h.2⟩
  · exact ⟨swf_putCells _ _ _ (swf_putCells _ _ _ h.1), swf_sput (none : Option Seal) (some sl) (pa / 32) m.seals h.2⟩

theorem wf_putStored (m : Mem) (sec : Nat) (bs : List Byte) (h : m.wf = true) : (m.putStored sec bs).wf = true := by
  simp only [Mem.wf, Bool.and_eq_true] at h ⊢
  exact ⟨swf_putCells _ _ _ h.1, swf_sput (none : Option Seal) none sec m.seals h.2⟩

theorem wf_setFull (m : Mem) (pa : Nat) (b : Bool) : (m.setFull pa b).wf = m.wf := rfl

end Sys2Proof.Machine
end

