-- ==== Sys2Proof/Laws/Bytes.lean ====
section
/-! SUPPORT. Bytes: numbers as bytes and back, fields of records, and a register written whole. -/

namespace Sys2Proof.Machine

theorem natOfBytes_lt (bs : List Byte) : natOfBytes bs < 256 ^ bs.length := by
  induction bs with
  | nil => simp [natOfBytes]
  | cons b bs ih =>
    simp only [natOfBytes, List.foldr_cons, List.length_cons, Nat.pow_succ] at ih ⊢
    have := b.isLt
    omega

theorem natOfBytes_cons (b : Byte) (bs : List Byte) : natOfBytes (b :: bs) = b.toNat + 256 * natOfBytes bs := rfl

theorem natOfBytes_bytesOfNat (n x : Nat) : natOfBytes (bytesOfNat n x) = x % 256 ^ n := by
  induction n generalizing x with
  | zero => simp [bytesOfNat, natOfBytes, Nat.mod_one]
  | succ n ih =>
    rw [bytesOfNat, natOfBytes_cons, ih, BitVec.toNat_ofNat, show 256 ^ (n + 1) = 256 * 256 ^ n by rw [Nat.pow_succ, Nat.mul_comm], Nat.mod_mul]

theorem bytesOfNat_natOfBytes (bs : List Byte) : bytesOfNat bs.length (natOfBytes bs) = bs := by
  induction bs with
  | nil => rfl
  | cons b bs ih =>
    have h := b.isLt
    rw [natOfBytes_cons, List.length_cons, bytesOfNat]
    congr 1
    · apply BitVec.eq_of_toNat_eq
      rw [BitVec.toNat_ofNat]; omega
    · rw [show (b.toNat + 256 * natOfBytes bs) / 256 = natOfBytes bs by omega, ih]

theorem bytesOfNat_mod (n x : Nat) : bytesOfNat n (x % 256 ^ n) = bytesOfNat n x := by
  have h := bytesOfNat_natOfBytes (bytesOfNat n x)
  rwa [length_bytesOfNat, natOfBytes_bytesOfNat] at h

theorem bytesOfNat_w64At (bs : List Byte) (o : Nat) (h : o + 8 ≤ bs.length) : bytesOfNat 8 (w64At bs o).toNat = (bs.drop o).take 8 := by
  have hl : ((bs.drop o).take 8).length = 8 := by simp; omega
  have h1 := bytesOfNat_natOfBytes ((bs.drop o).take 8)
  rw [hl] at h1
  have h2 := natOfBytes_lt ((bs.drop o).take 8)
  rw [hl] at h2
  simp only [w64At, fieldAt, BitVec.toNat_ofNat]
  rw [Nat.mod_eq_of_lt (by omega), h1]

/-- A field of a record that stands after a prefix. -/
theorem fieldAt_append_right (a b : List Byte) (o n : Nat) (h : a.length ≤ o) : fieldAt (a ++ b) o n = fieldAt b (o - a.length) n := by
  simp [fieldAt, List.drop_append, List.drop_eq_nil_of_le h]

theorem fieldAt_append_left (a b : List Byte) (o n : Nat) (h : o + n ≤ a.length) : fieldAt (a ++ b) o n = fieldAt a o n := by
  unfold fieldAt
  rw [List.drop_append_of_le_length (by omega), List.take_append_of_le_length (by simp; omega)]

theorem fieldAt_bytesOfNat (n x : Nat) : fieldAt (bytesOfNat n x) 0 n = x % 256 ^ n := by
  rw [fieldAt, List.drop_zero, List.take_of_length_le (by simp), natOfBytes_bytesOfNat]

theorem mergeReg_all (old v : W64) : mergeReg old 0 8 v = v := by
  simp only [mergeReg, List.take_zero, List.nil_append, Nat.zero_add]
  rw [List.drop_eq_nil_of_le (by simp), List.append_nil, natOfBytes_bytesOfNat]
  apply BitVec.eq_of_toNat_eq
  rw [BitVec.toNat_ofNat]
  have := v.isLt
  omega

end Sys2Proof.Machine
end

