-- ==== Sys2Proof/Laws/Canonical.lean ====
section
/-! SUPPORT. Canonical: every operation over memory keeps its canonical form, and memory after reset has it. -/

namespace Sys2Proof.Machine

theorem reset_mem_wf : State.reset.mem.wf = true := by decide

theorem wf_place (m : Mem) (pa : Nat) (bs : List Byte) (sl : Seal) (h : m.wf = true) : (m.place pa bs sl).wf = true := by
  simp only [Mem.wf, Bool.and_eq_true] at h ⊢
  exact ⟨swf_putCells _ _ _ h.1, swf_sput (none : Option Seal) (some sl) (pa / 32) m.seals h.2⟩

/-- What lies beside cells and seals is no part of the form. -/
theorem wf_marks (m : Mem) (full poison lost : List Nat) : ({ m with full := full, poison := poison, lost := lost } : Mem).wf = m.wf := rfl

/-- A write of one sector's bytes at a place. -/
theorem writeSite_wf (s : State) (t : Site) (bs : List Byte) (bad : Bool) (h : s.mem.wf = true) : (s.writeSite t bs bad).mem.wf = true := by
  cases t with
  | dev pa va key fe => exact wf_putBytes s.mem pa bs _ h
  | host ba va key => simp only [State.writeSite]; split <;> exact h
  | remote dv pa va key fe slot => exact h
  | scratch gid off => exact h

theorem writeSites_wf (s : State) (bad : Bool) (ts : Sites) (bs : List Byte) (h : s.mem.wf = true) : (s.writeSites bad ts bs).mem.wf = true := by
  induction ts generalizing s bs with
  | nil => exact h
  | cons t ts ih => exact ih _ _ (writeSite_wf s t.1 _ bad h)

theorem setFullAt_wf (s : State) (t : Site) (b : Bool) (h : s.mem.wf = true) : (s.setFullAt t b).mem.wf = true := by
  cases t <;> exact h

/-- A write of stored bytes through BAR4. -/
theorem putStoredAt_wf (s : State) (t : Site) (bs : List Byte) (h : s.mem.wf = true) : (putStoredAt s t bs).mem.wf = true := by
  cases t with
  | dev pa va key fe => exact wf_putStored s.mem _ _ h
  | _ => exact h

/-- A peer's write at its home. -/
theorem peerWrite_wf (m : Mem) (pa : Nat) (data : List Byte) (full : Option (BitVec 4)) (bad : Byte) (h : m.wf = true) :
    (peerWrite m pa data full bad).wf = true := wf_putStored m _ _ h

/-- A record written whole. -/
theorem putRecord_wf {s t : State} {p : Party} {a : W64} {bs : List Byte} (h : s.mem.wf = true) (ht : s.putRecord p a bs = some t) :
    t.mem.wf = true := by
  simp only [State.putRecord] at ht
  split at ht
  · cases ht
  · split at ht
    · cases ht
    · cases ht; exact writeSites_wf s false _ _ h

/-- A line that is lost leaves what its home stored before (R515, R517). -/
theorem revert_wf (m : Mem) (u : Under) (h : m.wf = true) : (m.revert u).wf = true := by
  simp only [Mem.wf, Mem.revert, Bool.and_eq_true] at h ⊢
  exact ⟨swf_putCells _ _ _ h.1, swf_sput (none : Option Seal) u.sealed u.sec m.seals h.2⟩

theorem foldl_revert_wf (us : List Under) (m : Mem) (h : m.wf = true) : (us.foldl Mem.revert m).wf = true := by
  induction us generalizing m with
  | nil => exact h
  | cons u us ih => exact ih _ (revert_wf m u h)

/-- The L2's lines that are lost. -/
theorem loseLines_wf (s : State) (p : L2Line → Bool) (h : s.mem.wf = true) : (s.loseLines p).mem.wf = true := by
  have : ∀ (ls : List L2Line) (m : Mem), m.wf = true → (ls.foldl (fun m l => l.dirty.foldl Mem.revert m) m).wf = true := by
    intro ls
    induction ls with
    | nil => exact fun m hm => hm
    | cons l ls ih => exact fun m hm => ih _ (foldl_revert_wf l.dirty m hm)
  exact this _ _ h

end Sys2Proof.Machine
end

