-- ==== Sys2Proof/Laws/Encode.lean ====
section
/-! SUPPORT. Encode: the fields of a word made by the encoder, format by format. -/

namespace Sys2Proof

theorem extract_high {k m : Nat} (x : BitVec k) (y : BitVec m) {lo : Nat} (n : Nat) (h : m ≤ lo) :
    (x ++ y).extractLsb' lo n = x.extractLsb' (lo - m) n := by
  apply BitVec.eq_of_getLsbD_eq
  intro i hi
  simp only [BitVec.getLsbD_extractLsb', BitVec.getLsbD_append, show ¬ lo + i < m by omega, if_false, show lo + i - m = lo - m + i by omega]

theorem extract_low {k m : Nat} (x : BitVec k) (y : BitVec m) {lo n : Nat} (h : lo + n ≤ m) :
    (x ++ y).extractLsb' lo n = y.extractLsb' lo n := by
  apply BitVec.eq_of_getLsbD_eq
  intro i hi
  simp only [BitVec.getLsbD_extractLsb', BitVec.getLsbD_append, show lo + i < m by omega, if_true]

theorem extract_cast {k m : Nat} (e : k = m) (x : BitVec k) (lo n : Nat) : (x.cast e).extractLsb' lo n = x.extractLsb' lo n := by
  subst e; rfl

theorem extract_self {m : Nat} (x : BitVec m) : x.extractLsb' 0 m = x := by
  apply BitVec.eq_of_getLsbD_eq
  intro i hi
  simp only [BitVec.getLsbD_extractLsb', hi, decide_true, Bool.true_and, Nat.zero_add]

namespace Word

theorem bit_extract {w : Nat} (x : BitVec w) (b : Bool) (i : Nat) (h : x.extractLsb' i 1 = bit b) : x.getLsbD i = b := by
  have := congrArg (fun v : BitVec 1 => v.getLsbD 0) h
  cases b <;> simpa [BitVec.getLsbD_extractLsb', bit] using this

theorem op_make (h : Hdr) (o : Byte) (low : BitVec 49) : op (make h o low) = o := by
  simp (disch := decide) only [op, bits, make, extract_cast, extract_high, extract_low, extract_self, Nat.reduceSub]

theorem hdr_make (h : Hdr) (o : Byte) (low : BitVec 49) : hdr (make h o low) = h := by
  obtain ⟨y, ge, gn, gp⟩ := h
  simp only [hdr, Hdr.mk.injEq]
  refine ⟨bit_extract _ _ _ ?_, bit_extract _ _ _ ?_, bit_extract _ _ _ ?_, ?_⟩ <;>
    simp (disch := decide) only [bits, make, extract_cast, extract_high, extract_low, extract_self, Nat.reduceSub]

theorem rFields_make (h : Hdr) (o : Byte) (f : RF) : rFields (make h o (rBits f)) = f := by
  obtain ⟨d, a, b, c, t, fn, rm, md⟩ := f
  simp only [rFields, RF.mk.injEq]
  refine ⟨?_, ?_, ?_, ?_, ?_, ?_, ?_, ?_⟩ <;>
    simp (disch := decide) only [bits, make, rBits, extract_cast, extract_high, extract_low, extract_self, Nat.reduceSub]

theorem iFields_make (h : Hdr) (o : Byte) (f : IF) : iFields (make h o (iBits f)) = f := by
  obtain ⟨d, a, imm, x⟩ := f
  simp only [iFields, IF.mk.injEq]
  refine ⟨?_, ?_, ?_, bit_extract _ _ _ ?_⟩ <;>
    simp (disch := decide) only [bits, make, iBits, extract_cast, extract_high, extract_low, extract_self, Nat.reduceSub]

theorem jFields_make (h : Hdr) (o : Byte) (f : JF) : jFields (make h o (jBits f)) = f := by
  obtain ⟨j, a, pri, off⟩ := f
  simp only [jFields, JF.mk.injEq]
  refine ⟨?_, ?_, ?_, ?_⟩ <;>
    simp (disch := decide) only [bits, make, jBits, extract_cast, extract_high, extract_low, extract_self, Nat.reduceSub]

theorem jBad_make (h : Hdr) (o : Byte) (f : JF) : jBad (make h o (jBits f)) = false := by
  have h1 : bits (make h o (jBits f)) 41 4 = 0 := by
    simp (disch := decide) only [bits, make, jBits, extract_cast, extract_high, extract_low, extract_self, Nat.reduceSub]
  have h2 : (make h o (jBits f)).getLsbD 0 = false := bit_extract _ _ _ (by
    simp (disch := decide) only [make, jBits, extract_cast, extract_high, extract_low, extract_self, Nat.reduceSub]; rfl)
  simp only [jBad, h1, h2]; rfl

theorem mFields_make (h : Hdr) (o : Byte) (f : MF) : mFields (make h o (mBits f)) = f := by
  obtain ⟨d, a, b, sz, sg, ord, scp, ch, off⟩ := f
  simp only [mFields, MF.mk.injEq]
  refine ⟨?_, ?_, ?_, ?_, bit_extract _ _ _ ?_, ?_, ?_, ?_, ?_⟩ <;>
    simp (disch := decide) only [bits, make, mBits, extract_cast, extract_high, extract_low, extract_self, Nat.reduceSub]

theorem xFields_make (h : Hdr) (o : Byte) (f : XF) : xFields (make h o (xBits f)) = f := by
  obtain ⟨acc, sh, a, b, s, rep, bsel, neg, zero, low⟩ := f
  simp only [xFields, XF.mk.injEq]
  refine ⟨?_, ?_, ?_, ?_, ?_, ?_, ?_, bit_extract _ _ _ ?_, bit_extract _ _ _ ?_, ?_⟩ <;>
    simp (disch := decide) only [bits, make, xBits, extract_cast, extract_high, extract_low, extract_self, Nat.reduceSub]

theorem sFields_make (h : Hdr) (o : Byte) (f : SF) : sFields (make h o (sBits f)) = f := by
  obtain ⟨d, a, sel, imm⟩ := f
  simp only [sFields, SF.mk.injEq]
  refine ⟨?_, ?_, ?_, ?_⟩ <;>
    simp (disch := decide) only [bits, make, sBits, extract_cast, extract_high, extract_low, extract_self, Nat.reduceSub]

theorem sBad_make (h : Hdr) (o : Byte) (f : SF) : sBad (make h o (sBits f)) = false := bit_extract _ _ _ (by
  simp (disch := decide) only [make, sBits, extract_cast, extract_high, extract_low, extract_self, Nat.reduceSub]; rfl)

end Word

end Sys2Proof
end

