-- ==== Sys2Proof/Laws/Exchange.lean ====
section
/-! SUPPORT. Exchange: a lane exchange whose named lanes all stand in the issuing entry is performed at once. -/

namespace Sys2Proof.Machine

/-! ## Waves and entries put and read back -/

theorem setWave_setWave (s : State) (g w : Nat) (v v' : Wave) : (s.setWave g w v).setWave g w v' = s.setWave g w v' := by
  simp only [State.setWave, modGroup_modGroup, setAt, List.set_set]

theorem setEntry_setEntry (w : Wave) (i : Nat) (e e' : Option Entry) : (w.setEntry i e).setEntry i e' = w.setEntry i e' := by
  simp [Wave.setEntry, setAt]

theorem entry?_lt {w : Wave} {i : Nat} {e : Entry} (h : w.entry? i = some e) : i < w.entries.length := by
  by_contra hc
  simp [Wave.entry?, List.getElem?_eq_none_iff.2 (Nat.le_of_not_lt hc)] at h

theorem entry?_setEntry_self {w : Wave} {i : Nat} {e : Entry} (h : w.entry? i = some e) (e' : Entry) :
    (w.setEntry i (some e')).entry? i = some e' := by
  simp [Wave.setEntry, Wave.entry?, setAt, List.getElem?_set_self (entry?_lt h)]

theorem entry?_setEntry_ne (w : Wave) {i j : Nat} (h : j ≠ i) (e : Option Entry) : (w.setEntry i e).entry? j = w.entry? j := by
  simp [Wave.setEntry, Wave.entry?, setAt, List.getElem?_set_ne (Ne.symm h)]

/-- The issue of an entry whose wave was stored. -/
theorem issueOf_setWave {s : State} {x : Issue} (hx : Issues s x) (w : Wave) (e : Entry) (he : w.entry? x.ref.slot = some e) :
    (s.setWave x.ref.gid x.ref.wi w).issueOf x.ref =
      some { ref := x.ref, g := { x.g with waves := setAt x.ref.wi w x.g.waves }, w := w, e := e } := by
  obtain ⟨_, hg, hw, _⟩ := issuer_spec hx.1
  have hlt : x.ref.wi < x.g.waves.length := (List.getElem?_eq_some_iff.1 hw).1
  have h1 : State.group? { s.setWave x.ref.gid x.ref.wi w with cur := some x.ref } x.ref.gid =
      some { x.g with waves := setAt x.ref.wi w x.g.waves } := by
    have := group?_modGroup s x.ref.gid x.ref.gid fun gr => { gr with waves := setAt x.ref.wi w gr.waves }
    rw [if_pos rfl, hg] at this
    exact this
  simp only [State.issueOf, State.issuer?, h1, setAt, List.getElem?_set_self hlt, he, Option.map_some]

/-- Any entry of that wave. -/
theorem issueOf_setWave_at {s : State} {x : Issue} (hx : Issues s x) (w : Wave) (j : Nat) :
    (s.setWave x.ref.gid x.ref.wi w).issueOf { x.ref with slot := j } = (w.entry? j).map fun e =>
      { ref := { x.ref with slot := j }, g := { x.g with waves := setAt x.ref.wi w x.g.waves }, w := w, e := e } := by
  obtain ⟨_, hg, hw, _⟩ := issuer_spec hx.1
  have hlt : x.ref.wi < x.g.waves.length := (List.getElem?_eq_some_iff.1 hw).1
  have h1 : State.group? { s.setWave x.ref.gid x.ref.wi w with cur := some { x.ref with slot := j } } x.ref.gid =
      some { x.g with waves := setAt x.ref.wi w x.g.waves } := by
    have := group?_modGroup s x.ref.gid x.ref.gid fun gr => { gr with waves := setAt x.ref.wi w gr.waves }
    rw [if_pos rfl, hg] at this
    exact this
  simp only [State.issueOf, State.issuer?, h1, setAt, List.getElem?_set_self hlt]

/-! ## Registers that an engine has still to read -/

theorem mem_insertBy {α : Type} (lt : α → α → Bool) (a b : α) (l : List α) : a ∈ insertBy lt b l ↔ a = b ∨ a ∈ l := by
  induction l with
  | nil => simp [insertBy]
  | cons c l ih =>
    simp only [insertBy]
    split
    · simp
    · simp only [List.mem_cons, ih]; tauto

theorem mem_sortBy {α : Type} (lt : α → α → Bool) (a : α) (l : List α) : a ∈ sortBy lt l ↔ a ∈ l := by
  have : ∀ acc, a ∈ l.foldl (fun acc x => insertBy lt x acc) acc ↔ a ∈ l ∨ a ∈ acc := by
    induction l with
    | nil => simp
    | cons c l ih => intro acc; rw [List.foldl_cons, ih, mem_insertBy, List.mem_cons]; tauto
  simpa [sortBy] using this []

/-- An entry that leaves no issue at the rendezvous adds no register to those that the wave's engine has still to read. -/
theorem protectedRegs_setWave {s : State} {x : Issue} (hx : Issues s x) (e : Entry) (hr : e.st ≠ .wait .rendezvous)
    (hp : s.protectedRegs { gid := x.ref.gid, wi := x.ref.wi } = []) :
    (s.setWave x.ref.gid x.ref.wi (x.w.setEntry x.ref.slot (some e))).protectedRegs { gid := x.ref.gid, wi := x.ref.wi } = [] := by
  obtain ⟨_, hg, hw, he⟩ := issuer_spec hx.1
  have hlt : x.ref.wi < x.g.waves.length := (List.getElem?_eq_some_iff.1 hw).1
  have hold : s.waveOf { gid := x.ref.gid, wi := x.ref.wi } = some x.w := by
    simp only [State.waveOf, State.wave?, hg, Option.bind_some, hw]
  have hnew : (s.setWave x.ref.gid x.ref.wi (x.w.setEntry x.ref.slot (some e))).waveOf { gid := x.ref.gid, wi := x.ref.wi } =
      some (x.w.setEntry x.ref.slot (some e)) := by
    simp only [State.waveOf, State.wave?, State.setWave, group?_modGroup, if_true, hg, Option.map_some, Option.bind_some, setAt,
      List.getElem?_set_self hlt]
  simp only [State.protectedRegs, List.append_eq_nil_iff, List.flatMap_eq_nil_iff] at hp ⊢
  refine ⟨hp.1, fun a ha => hp.2 a ?_⟩
  simp only [State.arrivals, hold, hnew, mem_sortBy, List.mem_filterMap] at ha ⊢
  obtain ⟨sl, hm, ha⟩ := ha
  refine ⟨sl, hm, ?_⟩
  by_cases hs : sl = x.ref.slot
  · subst hs
    rw [entry?_setEntry_self he] at ha
    simp only at ha
    split at ha
    · rename_i h1 _; exact absurd h1 hr
    · cases ha
  · rwa [entry?_setEntry_ne _ hs] at ha

/-! ## The exchange at once -/

/-- The entry of an exchange while it waits. -/
def Issue.waiting (x : Issue) (h : Hdr) (i : Instr) (q m : Mask) : Entry :=
  { (x.e.arm h x.w.nextSeq) with st := .held .exchange, insn := some i, exec := q, done := m, stamp := 0, pass := 0, plan := exchangePlan x i q }

/-- The issue as it waits. -/
def Issue.held (x : Issue) (h : Hdr) (i : Instr) (q m : Mask) : Issue :=
  let w := x.w.setEntry x.ref.slot (some (x.waiting h i q m))
  { ref := x.ref, g := { x.g with waves := setAt x.ref.wi w x.g.waves }, w := w, e := x.waiting h i q m }

theorem foldl_or_zero {α : Type} (f : α → Mask) (m : Mask) (ls : List α) (hf : ∀ a ∈ ls, m &&& f a = 0) (acc : Mask) (ha : m &&& acc = 0) :
    m &&& ls.foldl (fun a i => a ||| f i) acc = 0 := by
  induction ls generalizing acc with
  | nil => exact ha
  | cons b ls ih =>
    rw [List.foldl_cons]
    refine ih (fun a h => hf a (List.mem_cons_of_mem b h)) _ ?_
    have hb := hf b (List.mem_cons_self ..)
    have : m &&& (acc ||| f b) = (m &&& acc) ||| (m &&& f b) := by
      apply BitVec.eq_of_getLsbD_eq; intro i _
      simp only [BitVec.getLsbD_and, BitVec.getLsbD_or]
      cases m.getLsbD i <;> cases acc.getLsbD i <;> cases (f b).getLsbD i <;> rfl
    rw [this, ha, hb]; decide

/-- What entry j adds to the lanes of the entries other than slot that do not wait at an exchange. -/
def otherMask (w : Wave) (slot j : Nat) : Mask :=
  match w.entry? j with
  | some e => if j = slot || e.atExchange || decide (e.st = .fault) then 0 else e.mask
  | none => 0

theorem range8_filter_eq (p : Nat → Bool) (i : Nat) (hi : i < 8) (hp : p i = true) (hn : ∀ j, j ≠ i → p j = false) :
    (List.range 8).filter p = [i] := by
  have : p = fun j => decide (j = i) := by
    funext j
    by_cases h : j = i
    · subst h; simpa using hp
    · simp [h, hn j h]
  rw [this]
  have : i = 0 ∨ i = 1 ∨ i = 2 ∨ i = 3 ∨ i = 4 ∨ i = 5 ∨ i = 6 ∨ i = 7 := by omega
  rcases this with rfl | rfl | rfl | rfl | rfl | rfl | rfl | rfl <;> rfl

/-- An exchange with every named lane in the issuing entry performs at once. -/
theorem laneExchange_runs {s : State} {x : Issue} (hx : Issues s x) (hc : Clean x) (h : Hdr) (f : RF) (i : Instr)
    (srcs : Issue → Nat → List Src) (hs : ∀ l, ∀ r ∈ srcs x l, r.bad = none) (hq : execMask h x.w x.e ≠ 0)
    (hm : AllHere s x (namedOf x i f.c)) (w : Wave) (hpend : ∀ p ∈ w.pend, x.w.nextSeq ≤ p.seq)
    (hw : exchangePerform (s.setWave x.ref.gid x.ref.wi (x.held h i (execMask h x.w x.e) (memberOf x f.c)).w)
        (x.held h i (execMask h x.w x.e) (memberOf x f.c)) i (execMask h x.w x.e) =
      w.setEntry x.ref.slot (some (x.waiting h i (execMask h x.w x.e) (memberOf x f.c))))
    (hes : w.entries = x.w.entries) :
    laneExchange s h f i srcs = .next (exchangeOn s x (execMask h x.w x.e) (x.w.exchangeCounts i) (namedOf x i f.c) w) := by
  obtain ⟨hslot, hlive, hothers, hprot⟩ := hm
  obtain ⟨_, _, _, he⟩ := issuer_spec hx.1
  have hmem : memberMask s x f.c = { val := (memberOf x f.c).zeroExtend 64, bad := none } := by
    unfold memberMask memberOf
    split
    · rfl
    · simp [srcSreg, readSreg_of_clean hc]
  have hlo : ∀ v : W32, lo32 (v.zeroExtend 64) = v := fun v => by
    apply BitVec.eq_of_toNat_eq
    simp [lo32]
    have := v.isLt; omega
  have hnil : poisonFaults x h (fun l => { val := (memberOf x f.c).zeroExtend 64, bad := none } :: srcs x l) = [] := by
    apply poisonFaults_nil
    intro l _ r hr
    rcases List.mem_cons.1 hr with rfl | hr
    · rfl
    · exact hs l r hr
  have hnot : ~~~(0 : Mask) = 0xFFFFFFFF := by decide
  have hand : ∀ m : Mask, m &&& ~~~(0 : Mask) = m := by
    intro m
    apply BitVec.eq_of_getLsbD_eq; intro j hj
    rw [BitVec.getLsbD_and, BitVec.getLsbD_not, show BitVec.getLsbD (0 : Mask) j = false from BitVec.getLsbD_zero]
    simp [hj]
  have hmask : x.e.mask ≠ 0 := by
    intro h0
    apply hq
    unfold execMask
    simp only [h0]
    split <;> simp
  simp only [laneExchange, withIssuer_next hx.1, exec_of_insn_none h hx.2, if_neg hq, hmem, hnil, faultMask, List.map_nil,
    ofList_nil, hand, hlo]
  rw [if_neg (by simp only [Bool.or_eq_true, decide_eq_true_eq, not_or]; exact ⟨hmask, hq⟩)]
  simp only [if_true, Wave.parkLanes, faultMask, List.map_nil, ofList_nil, Wave.recordLanes, List.foldl_nil]
  have hz : ∀ m : Mask, (0 : Mask) &&& m = 0 := by intro m; simp
  rw [hz, if_pos rfl]
  have hheld := issueOf_setWave hx (x.w.setEntry x.ref.slot (some (x.waiting h i (execMask h x.w x.e) (memberOf x f.c)))) _
    (entry?_setEntry_self he _)
  change Host.Outcome.next (exchangeWave (s.setWave x.ref.gid x.ref.wi
    (x.w.setEntry x.ref.slot (some (x.waiting h i (execMask h x.w x.e) (memberOf x f.c))))) x.ref.gid x.ref.wi) = _
  congr 1
  have hins : (x.waiting h i (execMask h x.w x.e) (memberOf x f.c)).insn = some i := rfl
  have hat : (x.waiting h i (execMask h x.w x.e) (memberOf x f.c)).atExchange = true := by simp [Entry.atExchange, Issue.waiting]
  have hpc : (x.waiting h i (execMask h x.w x.e) (memberOf x f.c)).pc = x.e.pc := by
    simp only [Issue.waiting, Entry.arm]; split <;> rfl
  have hmk : (x.waiting h i (execMask h x.w x.e) (memberOf x f.c)).mask = x.e.mask := by
    simp only [Issue.waiting, Entry.arm]; split <;> rfl
  have hdone : (x.waiting h i (execMask h x.w x.e) (memberOf x f.c)).done = memberOf x f.c := rfl
  have hexec : (x.waiting h i (execMask h x.w x.e) (memberOf x f.c)).exec = execMask h x.w x.e := rfl
  have hslots : (x.w.setEntry x.ref.slot (some (x.waiting h i (execMask h x.w x.e) (memberOf x f.c)))).exchangeAt x.e.pc = [x.ref.slot] := by
    unfold Wave.exchangeAt
    apply range8_filter_eq _ _ hslot
    · simp [entry?_setEntry_self he, hat, hpc]
    · intro j hj
      rw [entry?_setEntry_ne _ hj]
      cases hje : x.w.entry? j with
      | none => rfl
      | some e =>
        simp [Entry.atExchange, (hothers j e hj hje).2]
  have hoth : namedOf x i f.c &&& (x.w.setEntry x.ref.slot (some (x.waiting h i (execMask h x.w x.e) (memberOf x f.c)))).exchangeOthers x.ref.slot = 0 := by
    unfold Wave.exchangeOthers
    generalize hW : x.w.setEntry x.ref.slot (some (x.waiting h i (execMask h x.w x.e) (memberOf x f.c))) = W
    have e : ∀ (ls : List Nat) (acc : Mask), ls.foldl (fun m j => match W.entry? j with
        | some e => if j = x.ref.slot || e.atExchange || decide (e.st = .fault) then m else m ||| e.mask
        | none => m) acc = ls.foldl (fun m j => m ||| otherMask W x.ref.slot j) acc := by
      intro ls
      induction ls with
      | nil => intro acc; rfl
      | cons j ls ih =>
        intro acc
        rw [List.foldl_cons, List.foldl_cons, ← ih]
        congr 1
        unfold otherMask
        cases W.entry? j with
        | none => simp
        | some e =>
          simp only []
          split <;> simp
    refine (congrArg _ (e _ _)).trans ?_
    apply foldl_or_zero
    · intro j _
      unfold otherMask
      rw [← hW]
      by_cases hj : j = x.ref.slot
      · subst hj
        simp [entry?_setEntry_self he]
      · rw [entry?_setEntry_ne _ hj]
        cases hje : x.w.entry? j with
        | none => simp
        | some e =>
          simp only []
          split
          · simp
          · exact (hothers j e hj hje).1
    · simp
  have hheldm : (x.w.setEntry x.ref.slot (some (x.waiting h i (execMask h x.w x.e) (memberOf x f.c)))).exchangeHeld x.e.pc = x.e.mask := by
    unfold Wave.exchangeHeld
    rw [hslots]
    simp [entry?_setEntry_self he, hmk]
  have hlive' : namedOf x i f.c &&& (x.w.setEntry x.ref.slot (some (x.waiting h i (execMask h x.w x.e) (memberOf x f.c)))).live &&&
    ~~~x.e.mask = 0 := hlive
  have hmem' : (x.held h i (execMask h x.w x.e) (memberOf x f.c)).members i = namedOf x i f.c := rfl
  have hready : exchangeReady (s.setWave x.ref.gid x.ref.wi (x.w.setEntry x.ref.slot (some (x.waiting h i (execMask h x.w x.e) (memberOf x f.c)))))
      (x.held h i (execMask h x.w x.e) (memberOf x f.c)) i = true := by
    have hps := protectedRegs_setWave hx (x.waiting h i (execMask h x.w x.e) (memberOf x f.c)) (by simp [Issue.waiting]) hprot
    simp only [exchangeReady, hmem']
    simp only [Issue.held, hps, hat, hoth, hpc, hheldm, hlive', ne_eq, not_true_eq_false, decide_false, Bool.false_and, List.isEmpty_nil,
      Bool.not_true, Bool.not_false, decide_true, Bool.and_self]
  have hwave : ((List.range 8).filter fun slot => exchangeDue (s.setWave x.ref.gid x.ref.wi
      (x.w.setEntry x.ref.slot (some (x.waiting h i (execMask h x.w x.e) (memberOf x f.c)))))
      { gid := x.ref.gid, wi := x.ref.wi, slot := slot }) = [x.ref.slot] := by
    apply range8_filter_eq _ _ hslot
    · have : (x.held h i (execMask h x.w x.e) (memberOf x f.c)).e.insn = some i := rfl
      simp only [exchangeDue]
      erw [hheld]
      exact hready
    · intro j hj
      simp only [exchangeDue]
      erw [issueOf_setWave_at hx _ j, entry?_setEntry_ne _ hj]
      cases hje : x.w.entry? j with
      | none => rfl
      | some e =>
        simp only [Option.map_some]
        cases hi : e.insn with
        | none => simp
        | some k => simp [hi, exchangeReady, Entry.atExchange, (hothers j e hj hje).2]
  simp only [exchangeWave, hwave, List.foldl_cons, List.foldl_nil, exchangeGo]
  erw [hheld]
  simp only [hins, hat, if_true]
  have hcnt : (x.w.setEntry x.ref.slot (some (x.waiting h i (execMask h x.w x.e) (memberOf x f.c)))).exchangeCounts i = x.w.exchangeCounts i := rfl
  have hnamed : memberOf x f.c &&& x.w.exchangeCounts i = namedOf x i f.c := rfl
  unfold exchangeRelease Issue.members
  simp only [hdone, hcnt, hnamed, hpc, hslots, List.foldl_cons, List.foldl_nil, entry?_setEntry_self he, hexec, hheldm, hlive']
  have hz2 : (0 : Mask) ||| execMask h x.w x.e = execMask h x.w x.e := by simp
  rw [hz2, setWave_setWave]
  have hperf := hw
  simp only [Issue.held] at hperf
  rw [hperf]
  unfold exchangeOn
  congr 1
  have hbe : w.entry? x.ref.slot = some x.e := by simp only [Wave.entry?, hes]; exact he
  have hpb : ∀ v : Wave, v.pend = w.pend → v.pendBefore x.w.nextSeq = false := by
    intro v hv
    simp only [Wave.pendBefore, hv, List.any_eq_false, decide_eq_true_eq, not_lt]
    exact hpend
  have hlt := entry?_lt hbe
  simp only [Wave.modEntry, modAt_eq_set _ _ (none : Option Entry), Wave.orFlags, Wave.setEntry, setAt, List.getElem?_set_self hlt,
    Option.getD_some, Option.map_some, List.set_set]
  have hshort : (if (0 : Mask) ≠ 0 then (0x20000 : W32) else 0) = 0 := by decide
  simp only [ne_eq, not_true_eq_false, if_false, show ∀ v : W32, v ||| 0 = v from fun v => BitVec.or_zero]
  congr 2
  simp only [Issue.waiting, Entry.arm, hx.2, Option.isSome_none, Bool.false_eq_true, if_false, Wave.goOn, Entry.on]
  by_cases hy : h.y <;> simp [hy, hpb]

/-! ## Results that some lanes keep -/

theorem foldl_keep (dst : Option Nat) (is64 : Bool) (b : Nat → Bool) (v : Nat → W64) (ls : List Nat) (w : Wave) (hn : ls.Nodup)
    (hl : ∀ l ∈ ls, l < 32) (hp : w.poison = []) (hq : w.lpoison = []) :
    ∃ regs l0 l1, ls.foldl (fun w l => if b l then w.putPhys dst is64 l (v l) else w.putLast l (v l)) w =
        { w with regs := regs, l0 := l0, l1 := l1 } ∧
      (∀ r l, l < 32 → sget 0 regs (regKey r l) =
        if (l ∈ ls ∧ b l = true) ∧ dst = some r then lo32 (v l)
        else if (l ∈ ls ∧ b l = true) ∧ is64 = true ∧ dst.map (· + 1) = some r then hi32 (v l)
        else w.rawReg r l) ∧
      (∀ l, sget 0 l0 l = if l ∈ ls then v l else sget 0 w.l0 l) ∧
      (∀ l, sget 0 l1 l = if l ∈ ls then sget 0 w.l0 l else sget 0 w.l1 l) := by
  induction ls generalizing w with
  | nil => exact ⟨w.regs, w.l0, w.l1, rfl, by simp [Wave.rawReg], by simp, by simp⟩
  | cons a ls ih =>
    have ha : a < 32 := hl a (List.mem_cons_self ..)
    have hna : a ∉ ls := (List.nodup_cons.1 hn).1
    have hone : ∃ regs1, (if b a then w.putPhys dst is64 a (v a) else w.putLast a (v a)) =
        { w with regs := regs1, l1 := sput 0 a (sget 0 w.l0 a) w.l1, l0 := sput 0 a (v a) w.l0 } ∧
        ∀ r l, l < 32 → sget 0 regs1 (regKey r l) =
          if (l = a ∧ b a = true) ∧ dst = some r then lo32 (v a)
          else if (l = a ∧ b a = true) ∧ is64 = true ∧ dst.map (· + 1) = some r then hi32 (v a) else w.rawReg r l := by
      cases hb : b a with
      | true =>
        obtain ⟨regs1, h1, h2⟩ := putPhys_eq hp hq dst is64 a (v a) ha
        exact ⟨regs1, by simpa using h1, by simpa using h2⟩
      | false => exact ⟨w.regs, by simp [Wave.putLast, hq], by simp [Wave.rawReg]⟩
    obtain ⟨regs1, h1, hr1⟩ := hone
    obtain ⟨regs, l0, l1, hw, hr, h0, hl1⟩ := ih (if b a then w.putPhys dst is64 a (v a) else w.putLast a (v a)) (List.nodup_cons.1 hn).2
      (fun l hm => hl l (List.mem_cons_of_mem a hm)) (by rw [h1]; exact hp) (by rw [h1]; exact hq)
    refine ⟨regs, l0, l1, by rw [List.foldl_cons, hw, h1], ?_, ?_, ?_⟩
    · intro r l hl'
      rw [hr r l hl', h1]
      have := hr1 r l hl'
      simp only [Wave.rawReg] at this ⊢
      rw [this]
      by_cases hla : l = a
      · subst hla; simp [hna]
      · simp [List.mem_cons, hla]
    · intro l
      rw [h0 l, h1]
      simp only [sget_sput, List.mem_cons]
      by_cases hla : l = a
      · subst hla; simp [hna]
      · simp [hla]
    · intro l
      rw [hl1 l, h1]
      simp only [sget_sput, List.mem_cons]
      by_cases hla : l = a
      · subst hla; simp [hna]
      · simp [hla]

theorem lo32_pair64 (a b : W32) : lo32 (pair64 a b) = a := by
  apply BitVec.eq_of_getLsbD_eq; intro i hi
  rw [lo32, pair64, BitVec.getLsbD_extractLsb', BitVec.getLsbD_append]
  simp [hi]

theorem hi32_pair64 (a b : W32) : hi32 (pair64 a b) = b := by
  apply BitVec.eq_of_getLsbD_eq; intro i hi
  rw [hi32, pair64, BitVec.getLsbD_extractLsb', BitVec.getLsbD_append]
  simp [hi]

theorem lo32_zext (a : W32) : lo32 (a.zeroExtend 64) = a := by
  apply BitVec.eq_of_getLsbD_eq; intro i hi
  rw [lo32, BitVec.getLsbD_extractLsb']
  simp only [BitVec.truncate_eq_setWidth, BitVec.getLsbD_setWidth]
  simp [hi]
  intro _
  omega

end Sys2Proof.Machine
end

