-- ==== Sys2Proof/Laws/Frame.lean ====
section
/-! SUPPORT. Frame: what the ends of waves, groups, tasks, packets and copies leave alone: the frame of a state, which each shared
operation of cancels, faults and completions keeps. -/

namespace Sys2Proof.Machine

/-- A state without what the work of waves, groups, launches, tasks, copies, queues and engines changes: their own tables, memory, the
violation log, counters, pending arrivals, images, fault lists, what has been sent and what other devices have still to answer. What is left is the frame: the clock and TIME, scopes
and acknowledgements, key slots, the market but its counters, the host's registers, and the management plane's own state. -/
def State.frame (s : State) : State :=
  { s with
    mem := Mem.start, groups := [], launches := [], engines := [], copies := [], tasks := [], queues := []
    host := { s.host with cells := [], vlog := [], vlost := 0, failing := none, aer := 0 }
    market := { s.market with counters := [] }
    mgmt := { s.mgmt with
      pendArr := [], sent := [], rcache := [], images := [], outAccess := [], nextAccess := 0, faultList := [], faultLost := [], nextDump := 0 } }

theorem frame_foldl {β : Type} {f : State → β → State} (hf : ∀ s b, (f s b).frame = s.frame) (l : List β) (s : State) : (l.foldl f s).frame = s.frame := by
  induction l generalizing s with
  | nil => rfl
  | cons b l ih => rw [List.foldl_cons, ih, hf]

@[simp] theorem frame_modGroup (s : State) (k : Nat) (f : Group → Group) : (s.modGroup k f).frame = s.frame := rfl
@[simp] theorem frame_modWave (s : State) (k i : Nat) (f : Wave → Wave) : (s.modWave k i f).frame = s.frame := rfl
@[simp] theorem frame_setWave (s : State) (k i : Nat) (w : Wave) : (s.setWave k i w).frame = s.frame := rfl
@[simp] theorem frame_modEngine (s : State) (n : Nat) (f : Engine → Engine) : (s.modEngine n f).frame = s.frame := rfl
@[simp] theorem frame_modGang (s : State) (l g : Nat) (f : Gang → Gang) : (s.modGang l g f).frame = s.frame := rfl
@[simp] theorem frame_setLaunch (s : State) (n : Nat) (f : Launch → Launch) : (s.setLaunch n f).frame = s.frame := rfl
@[simp] theorem frame_modQueue (s : State) (q : Nat) (f : Queue → Queue) : (s.modQueue q f).frame = s.frame := rfl
@[simp] theorem frame_dropCopy (s : State) (n : Nat) : (s.dropCopy n).frame = s.frame := rfl
@[simp] theorem frame_send (s : State) (m : Sent) : (s.send m).frame = s.frame := rfl
@[simp] theorem frame_haltCopies (s : State) (gid : Nat) (b : Bool) : (s.haltCopies gid b).frame = s.frame := rfl
@[simp] theorem frame_count (s : State) (c k n : Nat) : (s.count c k n).frame = s.frame := rfl
@[simp] theorem frame_addImage (s : State) (i : Image) : (s.addImage i).frame = s.frame := by
  unfold State.addImage; split <;> rfl
@[simp] theorem frame_putHost (s : State) (ba : Nat) (bs : List Byte) : (s.putHost ba bs).frame = s.frame := rfl
@[simp] theorem frame_loadLines (s : State) (rs : List Answered) : (s.loadLines rs).frame = s.frame := rfl
@[simp] theorem frame_dropLines (s : State) : s.dropLines.frame = s.frame := rfl
@[simp] theorem frame_sendAccess (s : State) (o : AccessOwner) (w : Work) (dv pa : Nat) (op : AccessOp) : (s.sendAccess o w dv pa op).frame = s.frame := rfl
@[simp] theorem frame_sendAsks (s : State) (o : AccessOwner) (w : Work) (as : List RemoteAsk) : (s.sendAsks o w as).frame = s.frame :=
  frame_foldl (fun s _ => frame_sendAccess s ..) _ _
@[simp] theorem frame_withdrawWaits (s : State) (p : EntryRef → Bool) : (s.withdrawWaits p).frame = s.frame := by
  unfold State.withdrawWaits
  exact frame_foldl (fun s o => by rw [frame_sendAccess]; rfl) _ _
@[simp] theorem frame_finish (s : State) (x : Issue) (h : Hdr) (w : Wave) : (finish s x h w).frame = s.frame := rfl

@[simp] theorem frame_violation (s : State) (a b c d e : Nat) (f g : W64) : (s.violation a b c d e f g).frame = s.frame := by
  unfold State.violation; split <;> rfl
@[simp] theorem frame_interrupt (s : State) (f v : Nat) : (s.interrupt f v).frame = s.frame := by
  unfold State.interrupt; split <;> rfl
@[simp] theorem frame_queueInterrupt (s : State) (q : Nat) : (s.queueInterrupt q).frame = s.frame := frame_interrupt ..
@[simp] theorem frame_addFault (s : State) (e : FaultEntry) : (s.addFault e).frame = s.frame := by
  unfold State.addFault; dsimp only; split <;> rfl

/-! ## Memory -/

@[simp] theorem frame_writeSite (s : State) (t : Site) (bs : List Byte) (bad : Bool) : (s.writeSite t bs bad).frame = s.frame := by
  unfold State.writeSite
  split
  · rfl
  · split <;> rfl
  · rfl
  · rfl
@[simp] theorem frame_writeSites (ts : Sites) (s : State) (bs : List Byte) (bad : Bool) : (s.writeSites bad ts bs).frame = s.frame := by
  induction ts generalizing s bs with
  | nil => rfl
  | cons t ts ih => rw [State.writeSites, ih, frame_writeSite]
theorem frame_putRecord {s t : State} {p : Party} {a : W64} {bs : List Byte} (h : s.putRecord p a bs = some t) : t.frame = s.frame := by
  unfold State.putRecord at h
  split at h
  · cases h
  · split at h
    · cases h
    · cases h; exact frame_writeSites ..
theorem frame_changeWordOf {s t : State} {p : Party} {a : W64} {f : W64 → W64} (h : s.changeWordOf p a f = some t) : t.frame = s.frame := by
  unfold State.changeWordOf at h
  split at h
  · cases h
  · dsimp only at h
    split at h
    · cases h
    · cases h; exact frame_writeSites ..
@[simp] theorem frame_changeOrPost (s : State) (p : Work) (k : Nat) (a d : W64) (ops : List (Nat × W64)) :
    (s.changeOrPost p k a d ops).frame = s.frame := by
  unfold State.changeOrPost
  split
  · next h => exact frame_changeWordOf h
  · dsimp only; split <;> simp
@[simp] theorem frame_storeOrPost (s : State) (p : Party) (k : Nat) (a d : W64) (bs : List Byte) : (s.storeOrPost p k a d bs).frame = s.frame := by
  unfold State.storeOrPost
  split
  · next h => exact frame_putRecord h
  · dsimp only; split <;> simp
@[simp] theorem frame_signal (s : State) (c : Work) (q : Nat) (a : W64) (n : Nat) (v : W64) : (s.signal c q a n v).frame = s.frame := by
  unfold State.signal; split <;> simp
@[simp] theorem frame_packetOver (s : State) (p : PacketRef) : (s.packetOver p).frame = s.frame := by
  unfold State.packetOver; dsimp only; split <;> simp
@[simp] theorem frame_sendCompletion (s : State) (c : Completion) (asks : List RemoteAsk) : (s.sendCompletion c asks).frame = s.frame := by
  unfold State.sendCompletion; simp
@[simp] theorem frame_runSteps (c : Nat) (p : PacketRef) (ws : List WordStep) (s : State) : (State.runSteps c p ws s).frame = s.frame := by
  induction ws generalizing s with
  | nil => exact frame_packetOver ..
  | cons w ws ih =>
    rw [State.runSteps]; split
    · next h => rw [ih, frame_changeWordOf h]
    · dsimp only; split
      · rw [ih]; simp
      · simp
@[simp] theorem frame_completePacket (s : State) (c : Nat) (p : PacketRef) (op : DoneOp) : (s.completePacket c p op).frame = s.frame := by
  exact frame_runSteps ..

/-! ## Engines and barriers -/

@[simp] theorem frame_releaseWave (s : State) (r : WaveRef) (p : WaitFor → Bool) : (s.releaseWave r p).frame = s.frame := rfl
@[simp] theorem frame_releaseMtake (s : State) (r : WaveRef) : (s.releaseMtake r).frame = s.frame := by
  unfold State.releaseMtake; split <;> rfl
@[simp] theorem frame_grant (s : State) (n : Nat) (r : WaveRef) : (s.grant n r).frame = s.frame := by
  unfold State.grant; dsimp only; split <;> simp
@[simp] theorem frame_giveBaton (s : State) (n : Nat) : (s.giveBaton n).frame = s.frame := by
  unfold State.giveBaton; split <;> simp
@[simp] theorem frame_dropBaton (s : State) (r : WaveRef) : (s.dropBaton r).frame = s.frame := by
  unfold State.dropBaton; split
  · rfl
  · dsimp only; split <;> simp
@[simp] theorem frame_leaveFifos (s : State) (gids : List Nat) : (s.leaveFifos gids).frame = s.frame := by
  unfold State.leaveFifos; exact frame_foldl (fun s n => frame_modEngine s n _) _ _
@[simp] theorem frame_dropRows (s : State) (r : WaveRef) : (s.dropRows r).frame = s.frame := by
  unfold State.dropRows; split <;> rfl
@[simp] theorem frame_cancelOps (s : State) (r : WaveRef) : (s.cancelOps r).frame = s.frame := by
  unfold State.cancelOps; split <;> rfl
@[simp] theorem frame_soloIssue (s : State) (r : EntryRef) (i : Instr) (op : MatOp) : (s.soloIssue r i op).frame = s.frame := by
  unfold State.soloIssue; dsimp only; split
  · rfl
  · split
    · rfl
    · split <;> rfl
@[simp] theorem frame_soloArrival (s : State) (a : Arrival) : (s.soloArrival a).frame = s.frame := by
  unfold State.soloArrival; split
  · rfl
  · split
    · rfl
    · split <;> rfl
@[simp] theorem frame_soloArrivals (s : State) (as : List Arrival) : (s.soloArrivals as).frame = s.frame := frame_foldl frame_soloArrival _ _
@[simp] theorem frame_part (s : State) (r : WaveRef) (own other : Nat) : (s.part r own other).frame = s.frame := by
  unfold State.part; split
  · rfl
  · dsimp only; split
    · rfl
    · exact (frame_soloArrivals ..).trans rfl
@[simp] theorem frame_releaseBar (s : State) (gid k : Nat) : (s.releaseBar gid k).frame = s.frame := by
  unfold State.releaseBar; split <;> rfl
@[simp] theorem frame_evalBar (s : State) (gid k : Nat) : (s.evalBar gid k).frame = s.frame := by
  unfold State.evalBar; split
  · rfl
  · split <;> simp
@[simp] theorem frame_evalBars (s : State) (gid : Nat) : (s.evalBars gid).frame = s.frame := frame_foldl (fun s k => frame_evalBar s gid k) _ _
@[simp] theorem frame_releaseGbar (s : State) (k : Gang) (n : Nat) : (s.releaseGbar k n).frame = s.frame := by
  unfold State.releaseGbar; split
  · rfl
  · exact frame_foldl (fun s gid => frame_modGroup s gid _) _ _
@[simp] theorem frame_evalGbar (s : State) (l g n : Nat) : (s.evalGbar l g n).frame = s.frame := by
  unfold State.evalGbar; split
  · rfl
  · dsimp only; split
    · rw [frame_releaseGbar, frame_modGang]; exact frame_foldl (fun s gid => frame_modGroup s gid _) _ _
    · rfl
@[simp] theorem frame_evalGbars (s : State) (l g : Nat) : (s.evalGbars l g).frame = s.frame := frame_foldl (fun s n => frame_evalGbar s l g n) _ _
@[simp] theorem frame_evalGangOf (s : State) (gid : Nat) : (s.evalGangOf gid).frame = s.frame := by
  unfold State.evalGangOf; split
  · split <;> simp
  · rfl
@[simp] theorem frame_killParties (s : State) (gid : Nat) : (s.killParties gid).frame = s.frame := by
  unfold State.killParties; split
  · rfl
  · split <;> simp
@[simp] theorem frame_leaveEngine (s : State) (r : WaveRef) (c : Nat) : (s.leaveEngine r c).frame = s.frame := by
  unfold State.leaveEngine; simp

/-! ## Ends of copies, tasks, groups and waves -/

@[simp] theorem frame_copySends (s : State) (n : Nat) (c : Copy) (asks : List RemoteAsk) : (s.copySends n c asks).frame = s.frame := frame_sendAsks ..
@[simp] theorem frame_copyLeave (s : State) (n : Nat) (c : Copy) (f : CopyFate) : (copyLeave s n c f).frame = s.frame := by
  unfold copyLeave; dsimp only
  split
  · split <;> simp
  · rfl
@[simp] theorem frame_copyCount (s : State) (n : Nat) (c : Copy) (f : CopyFate) : (copyCount s n c f).frame = s.frame := by
  unfold copyCount; split
  · simp
  · split
    · next h => rw [frame_copyLeave, frame_changeWordOf h]
    · dsimp only; split <;> simp
@[simp] theorem frame_copyEnd (s : State) (n : Nat) (c : Copy) (f : CopyFate) : (copyEnd s n c f).frame = s.frame := by
  unfold copyEnd; split
  · simp
  · split
    · simp
    · split
      · next h => rw [frame_copyCount, frame_putRecord h]
      · dsimp only; split <;> simp
@[simp] theorem frame_copyComplete (s : State) (n : Nat) (c : Copy) : (copyComplete s n c).frame = s.frame := frame_copyEnd ..
@[simp] theorem frame_copyFail (s : State) (n : Nat) (c : Copy) (cause side : Nat) (a : W64) : (copyFail s n c cause side a).frame = s.frame :=
  frame_copyEnd ..
@[simp] theorem frame_copyStop (s : State) (n cause : Nat) : (copyStop s n cause).frame = s.frame := by
  unfold copyStop; split
  · rfl
  · split
    · rfl
    · dsimp only
      split
      · split
        · rfl
        · simp
      · simp
@[simp] theorem frame_checkGang (s : State) (g : Group) : (s.checkGang g).frame = s.frame := by
  unfold State.checkGang; split <;> rfl
@[simp] theorem frame_endTask (s : State) (n : Nat) (op : DoneOp) : (s.endTask n op).frame = s.frame := by
  unfold State.endTask; split
  · rfl
  · rw [frame_signal]; rfl
@[simp] theorem frame_endGroup (s : State) (gid : Nat) (op : DoneOp) : (s.endGroup gid op).frame = s.frame := by
  unfold State.endGroup; split
  · rfl
  · dsimp only; split
    · rw [frame_endTask]; rfl
    · rw [frame_checkGang]; rfl
@[simp] theorem frame_endWave (s : State) (r : WaveRef) : (s.endWave r).frame = s.frame := by
  unfold State.endWave; dsimp only; split
  · split <;> simp
  · simp
@[simp] theorem frame_becomeFaulted (s : State) (gid core : Nat) : (s.becomeFaulted gid core).frame = s.frame := by
  unfold State.becomeFaulted; dsimp only; split
  · rw [frame_foldl (fun s wi => frame_part s ..)]; simp
  · simp
@[simp] theorem frame_noteFaulted (s : State) : s.noteFaulted.frame = s.frame := by
  refine frame_foldl (fun t p => ?_) _ _
  split
  · split
    · split <;> simp
    · rfl
  · rfl
@[simp] theorem frame_failGroup (s : State) (gid : Nat) : (s.failGroup gid).frame = s.frame := by
  unfold State.failGroup; split
  · rfl
  · dsimp only
    rw [frame_endGroup]
    split
    · rw [frame_modGroup, frame_foldl fun s n => frame_copyStop s ..]
    · rw [frame_setLaunch, frame_modGroup, frame_foldl fun s n => frame_copyStop s ..]
@[simp] theorem frame_cancelGroup (s : State) (gid : Nat) : (s.cancelGroup gid).frame = s.frame := by
  unfold State.cancelGroup; split
  · rfl
  · dsimp only
    rw [frame_endGroup]
    split
    · rw [frame_modGroup, frame_foldl fun s n => frame_copyStop s ..]
    · rw [frame_setLaunch, frame_modGroup, frame_foldl fun s n => frame_copyStop s ..]

/-! ## Cancels -/

theorem frame_unheld {s : State} {f : State → State} (h : ∀ s, (f s).frame = s.frame) : (s.unheld f).frame = s.frame := by
  have h1 := h { s with mgmt := { s.mgmt with ratHold := none } }
  have h2 : (s.unheld f).frame = { (f { s with mgmt := { s.mgmt with ratHold := none } }).frame with
      mgmt := { (f { s with mgmt := { s.mgmt with ratHold := none } }).frame.mgmt with ratHold := s.mgmt.ratHold } } := rfl
  rw [h2, h1]; rfl
@[simp] theorem frame_releaseParties (s : State) (gid : Nat) : (s.releaseParties gid).frame = s.frame := by
  unfold State.releaseParties; split
  · rfl
  · refine frame_unheld fun s => ?_
    rw [frame_foldl fun s wi => by simp]; simp
@[simp] theorem frame_dropBarrier (s : State) (q : Nat) : (dropBarrier s q).frame = s.frame := by
  unfold dropBarrier; split <;> simp
@[simp] theorem frame_cancelFates (s : State) (h : W32) : (s.cancelFates h).frame = s.frame := by
  unfold State.cancelFates
  dsimp only
  have h1 : ∀ (s : State) (i : List Image), ({ s with mgmt := { s.mgmt with images := i } } : State).frame = s.frame := fun _ _ => rfl
  rw [h1, frame_foldl frame_dropBarrier, frame_foldl fun s c => frame_copyStop s .., frame_foldl fun s t => by split <;> simp,
    frame_foldl fun s p => by split <;> simp, frame_foldl fun s l => frame_setLaunch s .., frame_foldl fun s p => by split <;> simp]
@[simp] theorem frame_cancelledStop (s : State) (r : WaveRef) : (cancelledStop s r).frame = s.frame := by
  unfold cancelledStop
  split
  · split
    · split
      · rfl
      · dsimp only
        split
        · rw [frame_setWave, frame_withdrawWaits]
        · have h1 : ∀ s : State, (s.unheld fun s => ((s.modWave r.gid r.wi Wave.close).leaveEngine r 5).cancelOps r).frame = s.frame :=
            fun s => frame_unheld fun s => by simp
          split
          · split <;> simp [h1]
          · rw [h1, frame_withdrawWaits]
    · rfl
  · rfl

end Sys2Proof.Machine
end

