-- ==== Sys2Proof/Laws/Host.lean ====
section
/-! SUPPORT. Host: a violation logs itself and nothing else (R108), an access of one sector has one part, and stored sectors read back. -/

namespace Sys2Proof.Machine

theorem logged_violation (s : State) (source func bar dir ctx : Nat) (a d : W64) : Logged s source func (s.violation source func bar dir ctx a d) := by
  unfold Logged State.violation
  split
  · rename_i h
    exact ⟨rfl, fun _ => ⟨rfl, _, rfl, rfl, rfl, rfl⟩, fun h2 => absurd h (by omega)⟩
  · rename_i h
    exact ⟨rfl, fun h2 => absurd h2 h, fun _ => ⟨rfl, rfl⟩⟩

theorem sectorParts_one (a : W64) (n : Nat) (h : a.toNat % 32 + n ≤ 32) (hn : 0 < n) : sectorParts a n = [(a, n)] := by
  unfold sectorParts
  rw [show min n (32 - a.toNat % 32) = n by omega]
  simp [Nat.pos_iff_ne_zero.mp hn, show (n - n + 31) / 32 = 0 by omega]

theorem cellsAt_put_same (cells : List Host.Cell) (pa : Nat) (bs : List Byte) (seals full poison lost) :
    (Mem.mk (putCells cells pa bs) seals full poison lost).cellsAt pa bs.length = bs := by
  apply List.ext_getElem
  · simp [Mem.cellsAt]
  · intro i h1 h2
    simp only [Mem.cellsAt, List.getElem_map, List.getElem_range, Mem.cell, sget_putCells]
    simp [h2]

theorem stored_putStored (m : Mem) (sec : Nat) (bs : List Byte) (h : bs.length = 32) (k : Nat) :
    (m.putStored sec bs).stored k = if k = sec then bs else m.stored k := by
  unfold Mem.stored Mem.putStored
  simp only [sget_sput]
  by_cases e : k = sec
  · subst e
    simp only [if_true, List.take_of_length_le (Nat.le_of_eq h)]
    have := cellsAt_put_same m.cells (32 * k) bs (sput none k none m.seals) m.full m.poison m.lost
    rwa [h] at this
  · have hc : Mem.cellsAt { m with cells := putCells m.cells (32 * sec) (bs.take 32), seals := sput none sec none m.seals } (32 * k) 32 = m.cellsAt (32 * k) 32 := by
      simp only [Mem.cellsAt, Mem.cell, sget_putCells, List.length_take, h]
      apply List.map_congr_left
      intro i hi
      rw [List.mem_range] at hi
      rw [dif_neg (by omega)]
    simp only [if_neg e, hc]

end Sys2Proof.Machine
end

