-- ==== Sys2Proof/Laws/Kept.lean ====
section
/-! SUPPORT. Kept: a write changes no byte outside the places it names. -/

namespace Sys2Proof.Machine

theorem kept_refl (s : State) (ws : Sites) : BytesKept s s ws := ⟨fun _ _ _ => rfl, fun _ _ _ => rfl, fun _ _ => rfl⟩

theorem kept_trans {s t u : State} {ws ws' : Sites} (h : BytesKept s t ws) (h' : BytesKept t u ws') : BytesKept s u (ws ++ ws') := by
  refine ⟨fun pa sl hp => ?_, fun g off hp => ?_, fun ba hp => ?_⟩
  · rw [h'.1 pa sl fun p hm => hp p (List.mem_append_right _ hm), h.1 pa sl fun p hm => hp p (List.mem_append_left _ hm)]
  · rw [h'.2.1 g off fun p hm => hp p (List.mem_append_right _ hm), h.2.1 g off fun p hm => hp p (List.mem_append_left _ hm)]
  · rw [h'.2.2 ba fun p hm => hp p (List.mem_append_right _ hm), h.2.2 ba fun p hm => hp p (List.mem_append_left _ hm)]

theorem kept_one (s : State) (t : Site × Nat) (bs : List Byte) (hb : bs.length ≤ t.2) (hl : Lies s t) (bad : Bool) : BytesKept s (s.writeSite t.1 bs bad) [t] := by
  obtain ⟨u, n⟩ := t
  cases u with
  | dev pa va key fe =>
    have hl' : pa % 32 + bs.length ≤ 32 := by
      have : pa % 32 + n ≤ 32 := hl
      simp only at hb; omega
    refine ⟨fun a sl hp => ?_, fun _ _ _ => rfl, fun _ _ => rfl⟩
    have := hp _ (List.mem_cons_self ..)
    simp only [LeavesByte] at this
    refine Eq.trans ?_ (bytes_putBytes_ne s.mem (pa := pa) (a := a) (bs := bs) { key := key, unit := va / 32 } sl hl' ?_)
    · rfl
    · rcases this with h | ⟨h, h'⟩
      · exact Or.inl h
      · right; refine ⟨h, ?_⟩; simp only at hb; omega
  | host ba va key =>
    refine ⟨fun a sl hp => ?_, fun g off hp => ?_, fun a hp => ?_⟩
    · simp only [State.writeSite]; split <;> rfl
    · simp only [State.writeSite]; split <;> rfl
    · simp only [State.writeSite]
      split
      · rfl
      · have := hp _ (List.mem_cons_self ..)
        simp only [LeavesHost] at this
        simp only [State.putHost, sget_putCells]
        rw [dif_neg]
        rintro ⟨h1, h2⟩
        apply this
        have hlen : ((xtsDecrypt key.bits (va / 32) (s.hostBytes (ba / 32 * 32) 32)).take (ba % 32) ++ bs ++
            (xtsDecrypt key.bits (va / 32) (s.hostBytes (ba / 32 * 32) 32)).drop (ba % 32 + bs.length)).length = 32 := by
          have h32 : (xtsDecrypt key.bits (va / 32) (s.hostBytes (ba / 32 * 32) 32)).length = 32 := length_xtsDecrypt _ _ (by simp [State.hostBytes])
          have hll : ba % 32 + n ≤ 32 := hl
          simp only [List.length_append, List.length_take, List.length_drop, h32]
          simp only at hb
          omega
        rw [length_xtsEncrypt _ _ hlen] at h2
        omega
  | remote => exact ⟨fun _ _ _ => rfl, fun _ _ _ => rfl, fun _ _ => rfl⟩
  | scratch gid off =>
    refine ⟨fun _ _ _ => rfl, fun g o hp => ?_, fun _ _ => rfl⟩
    have := hp _ (List.mem_cons_self ..)
    simp only [LeavesScratch] at this
    simp only [State.writeSite, scratchByte, group?_modGroup]
    split
    · rename_i hg
      subst hg
      cases hgr : s.group? g with
      | none => rfl
      | some gr =>
        simp only [Option.map_some, sget_putCells]
        rw [dif_neg]
        rcases this with h | h
        · exact absurd rfl h
        · simp only at hb; omega
    · rfl

theorem lies_writeSite {s : State} {t u : Site × Nat} (h : Lies s t) (bs : List Byte) (bad : Bool) : Lies (s.writeSite u.1 bs bad) t := by
  obtain ⟨v, n⟩ := t
  cases v with
  | scratch g off =>
    simp only [Lies] at h ⊢
    obtain ⟨w, m⟩ := u
    cases w with
    | scratch g' o =>
      simp only [State.writeSite, group?_modGroup]
      split
      · rename_i e; subst e
        rw [Option.isSome_map]; exact h
      · exact h
    | dev => exact h
    | host => simp only [State.writeSite]; split <;> exact h
    | remote => exact h
  | _ => exact h

theorem kept_writeSites (ts : Sites) : ∀ (s : State) (bs : List Byte) (bad : Bool), (∀ t ∈ ts, Lies s t) → BytesKept s (s.writeSites bad ts bs) ts ∧
    ∀ t, Lies s t → Lies (s.writeSites bad ts bs) t := by
  induction ts with
  | nil => intro s _ _ _; exact ⟨kept_refl s [], fun _ h => h⟩
  | cons t ts ih =>
    intro s bs bad h
    have h1 := kept_one s t (bs.take t.2) (by simp) (h t (List.mem_cons_self ..)) bad
    obtain ⟨h2, h3⟩ := ih (s.writeSite t.1 (bs.take t.2) bad) (bs.drop t.2) bad fun u hu => lies_writeSite (h u (List.mem_cons_of_mem t hu)) ..
    exact ⟨kept_trans h1 h2, fun u hu => h3 u (lies_writeSite hu ..)⟩

theorem kept_stored (ts : Nat → Sites) (data : Nat → List Byte) : ∀ (ls : List Nat) (s : State), (∀ l ∈ ls, ∀ t ∈ ts l, Lies s t) →
    BytesKept s (stored s ls ts data) (ls.flatMap ts) := by
  intro ls
  induction ls with
  | nil => intro s _; exact kept_refl s []
  | cons a ls ih =>
    intro s h
    obtain ⟨h1, h2⟩ := kept_writeSites (ts a) s (data a) false (h a (List.mem_cons_self ..))
    rw [List.flatMap_cons]
    exact kept_trans h1 (ih _ fun l hl t ht => h2 t (h l (List.mem_cons_of_mem a hl) t ht))

theorem kept_goesOn (s : State) {u : State} {x : Issue} {w : Wave} {ws : Sites} (h : BytesKept s u ws) : BytesKept s (goesOn u x w) ws := by
  refine ⟨h.1, fun g off hp => ?_, h.2.2⟩
  rw [← h.2.1 g off hp]
  unfold scratchByte goesOn State.setWave
  rw [group?_modGroup]
  split
  · rename_i e; subst e
    rw [Option.map_map]; rfl
  · rfl

end Sys2Proof.Machine
end

