-- ==== Sys2Proof/Laws/PerInstr.lean ====
section
/-! SUPPORT. PerInstr: the family Encoding, one lemma per constructor: an instruction has a word exactly when it has a header, and its word
carries that header. -/

namespace Sys2Proof.Laws

/-- An instruction of the wave's program has a word, which carries its header; an event of the device has none (R10, R11). -/
def Encoding.Statement (i : Instr) : Prop :=
  (encode i).isSome = i.hdr.isSome ∧ ∀ w h, encode i = some w → i.hdr = some h → Word.hdr w = h

theorem has_word {i : Instr} {h : Hdr} {o : Byte} {low : BitVec 49} (he : encode i = some (Word.make h o low)) (hh : i.hdr = some h) :
    Encoding.Statement i :=
  ⟨by rw [he, hh]; rfl, fun w k hw hk => by
    rw [he] at hw; rw [hh] at hk; cases hw; cases hk; exact Word.hdr_make _ _ _⟩

theorem no_word {i : Instr} (he : encode i = none) (hh : i.hdr = none) : Encoding.Statement i :=
  ⟨by rw [he, hh]; rfl, fun w k hw => by rw [he] at hw; cases hw⟩

namespace Encoding

theorem bra (h : Hdr) (f : JF) : Statement (.bra h f) := has_word rfl rfl
theorem brx (h : Hdr) (f : JF) : Statement (.brx h f) := has_word rfl rfl
theorem call (h : Hdr) (f : JF) : Statement (.call h f) := has_word rfl rfl
theorem callx (h : Hdr) (f : JF) : Statement (.callx h f) := has_word rfl rfl
theorem ret (h : Hdr) (f : JF) : Statement (.ret h f) := has_word rfl rfl
theorem joinJ (h : Hdr) (f : JF) : Statement (.joinJ h f) := has_word rfl rfl
theorem jset (h : Hdr) (f : RF) : Statement (.jset h f) := has_word rfl rfl
theorem exitL (h : Hdr) (f : RF) : Statement (.exitL h f) := has_word rfl rfl
theorem nop (h : Hdr) (f : RF) : Statement (.nop h f) := has_word rfl rfl
theorem yieldE (h : Hdr) (f : RF) : Statement (.yieldE h f) := has_word rfl rfl
theorem winb (h : Hdr) (f : IF) : Statement (.winb h f) := has_word rfl rfl
theorem brk (h : Hdr) (f : SF) : Statement (.brk h f) := has_word rfl rfl
theorem trapU (h : Hdr) (f : SF) : Statement (.trapU h f) := has_word rfl rfl
theorem rtu (h : Hdr) (f : SF) : Statement (.rtu h f) := has_word rfl rfl
theorem brs (h : Hdr) (f : JF) : Statement (.brs h f) := has_word rfl rfl
theorem add (h : Hdr) (f : RF) : Statement (.add h f) := has_word rfl rfl
theorem sub (h : Hdr) (f : RF) : Statement (.sub h f) := has_word rfl rfl
theorem mul (h : Hdr) (f : RF) : Statement (.mul h f) := has_word rfl rfl
theorem mulh (h : Hdr) (f : RF) : Statement (.mulh h f) := has_word rfl rfl
theorem mad (h : Hdr) (f : RF) : Statement (.mad h f) := has_word rfl rfl
theorem divI (h : Hdr) (f : RF) : Statement (.divI h f) := has_word rfl rfl
theorem remI (h : Hdr) (f : RF) : Statement (.remI h f) := has_word rfl rfl
theorem absI (h : Hdr) (f : RF) : Statement (.absI h f) := has_word rfl rfl
theorem minI (h : Hdr) (f : RF) : Statement (.minI h f) := has_word rfl rfl
theorem maxI (h : Hdr) (f : RF) : Statement (.maxI h f) := has_word rfl rfl
theorem andB (h : Hdr) (f : RF) : Statement (.andB h f) := has_word rfl rfl
theorem orB (h : Hdr) (f : RF) : Statement (.orB h f) := has_word rfl rfl
theorem xorB (h : Hdr) (f : RF) : Statement (.xorB h f) := has_word rfl rfl
theorem andn (h : Hdr) (f : RF) : Statement (.andn h f) := has_word rfl rfl
theorem shl (h : Hdr) (f : RF) : Statement (.shl h f) := has_word rfl rfl
theorem shr (h : Hdr) (f : RF) : Statement (.shr h f) := has_word rfl rfl
theorem sar (h : Hdr) (f : RF) : Statement (.sar h f) := has_word rfl rfl
theorem rol (h : Hdr) (f : RF) : Statement (.rol h f) := has_word rfl rfl
theorem popc (h : Hdr) (f : RF) : Statement (.popc h f) := has_word rfl rfl
theorem clz (h : Hdr) (f : RF) : Statement (.clz h f) := has_word rfl rfl
theorem ctz (h : Hdr) (f : RF) : Statement (.ctz h f) := has_word rfl rfl
theorem brev (h : Hdr) (f : RF) : Statement (.brev h f) := has_word rfl rfl
theorem bfe (h : Hdr) (f : RF) : Statement (.bfe h f) := has_word rfl rfl
theorem bfi (h : Hdr) (f : RF) : Statement (.bfi h f) := has_word rfl rfl
theorem perm (h : Hdr) (f : RF) : Statement (.perm h f) := has_word rfl rfl
theorem sel (h : Hdr) (f : RF) : Statement (.sel h f) := has_word rfl rfl
theorem cmp (h : Hdr) (f : RF) : Statement (.cmp h f) := has_word rfl rfl
theorem mov (h : Hdr) (f : RF) : Statement (.mov h f) := has_word rfl rfl
theorem movi (h : Hdr) (f : IF) : Statement (.movi h f) := has_word rfl rfl
theorem addi (h : Hdr) (f : IF) : Statement (.addi h f) := has_word rfl rfl
theorem lea (h : Hdr) (f : RF) : Statement (.lea h f) := has_word rfl rfl
theorem movrGet (h : Hdr) (f : RF) : Statement (.movrGet h f) := has_word rfl rfl
theorem movrPut (h : Hdr) (f : RF) : Statement (.movrPut h f) := has_word rfl rfl
theorem salu (h : Hdr) (f : RF) : Statement (.salu h f) := has_word rfl rfl
theorem scmp (h : Hdr) (f : RF) : Statement (.scmp h f) := has_word rfl rfl
theorem smovi (h : Hdr) (f : IF) : Statement (.smovi h f) := has_word rfl rfl
theorem smov (h : Hdr) (f : RF) : Statement (.smov h f) := has_word rfl rfl
theorem sfrom (h : Hdr) (f : RF) : Statement (.sfrom h f) := has_word rfl rfl
theorem ssel (h : Hdr) (f : RF) : Statement (.ssel h f) := has_word rfl rfl
theorem slea (h : Hdr) (f : RF) : Statement (.slea h f) := has_word rfl rfl
theorem plop (h : Hdr) (f : RF) : Statement (.plop h f) := has_word rfl rfl
theorem pfrom (h : Hdr) (f : RF) : Statement (.pfrom h f) := has_word rfl rfl
theorem pto (h : Hdr) (f : RF) : Statement (.pto h f) := has_word rfl rfl
theorem pcntPred (h : Hdr) (f : RF) : Statement (.pcntPred h f) := has_word rfl rfl
theorem fadd (h : Hdr) (f : RF) : Statement (.fadd h f) := has_word rfl rfl
theorem fsub (h : Hdr) (f : RF) : Statement (.fsub h f) := has_word rfl rfl
theorem fmul (h : Hdr) (f : RF) : Statement (.fmul h f) := has_word rfl rfl
theorem ffma (h : Hdr) (f : RF) : Statement (.ffma h f) := has_word rfl rfl
theorem fmin (h : Hdr) (f : RF) : Statement (.fmin h f) := has_word rfl rfl
theorem fmax (h : Hdr) (f : RF) : Statement (.fmax h f) := has_word rfl rfl
theorem fcmp (h : Hdr) (f : RF) : Statement (.fcmp h f) := has_word rfl rfl
theorem fclass (h : Hdr) (f : RF) : Statement (.fclass h f) := has_word rfl rfl
theorem fdiv (h : Hdr) (f : RF) : Statement (.fdiv h f) := has_word rfl rfl
theorem fsqrt (h : Hdr) (f : RF) : Statement (.fsqrt h f) := has_word rfl rfl
theorem frcp (h : Hdr) (f : RF) : Statement (.frcp h f) := has_word rfl rfl
theorem frsq (h : Hdr) (f : RF) : Statement (.frsq h f) := has_word rfl rfl
theorem fex2 (h : Hdr) (f : RF) : Statement (.fex2 h f) := has_word rfl rfl
theorem flg2 (h : Hdr) (f : RF) : Statement (.flg2 h f) := has_word rfl rfl
theorem fsinp (h : Hdr) (f : RF) : Statement (.fsinp h f) := has_word rfl rfl
theorem fcosp (h : Hdr) (f : RF) : Statement (.fcosp h f) := has_word rfl rfl
theorem ftanh (h : Hdr) (f : RF) : Statement (.ftanh h f) := has_word rfl rfl
theorem frint (h : Hdr) (f : RF) : Statement (.frint h f) := has_word rfl rfl
theorem fscal (h : Hdr) (f : RF) : Statement (.fscal h f) := has_word rfl rfl
theorem fdot2 (h : Hdr) (f : RF) : Statement (.fdot2 h f) := has_word rfl rfl
theorem fclamp (h : Hdr) (f : RF) : Statement (.fclamp h f) := has_word rfl rfl
theorem fsig (h : Hdr) (f : RF) : Statement (.fsig h f) := has_word rfl rfl
theorem cvt (h : Hdr) (f : RF) : Statement (.cvt h f) := has_word rfl rfl
theorem cvl6 (h : Hdr) (f : RF) : Statement (.cvl6 h f) := has_word rfl rfl
theorem pk6 (h : Hdr) (f : RF) : Statement (.pk6 h f) := has_word rfl rfl
theorem upk6 (h : Hdr) (f : RF) : Statement (.upk6 h f) := has_word rfl rfl
theorem bsclFind (h : Hdr) (f : RF) : Statement (.bsclFind h f) := has_word rfl rfl
theorem bsclApply (h : Hdr) (f : RF) : Statement (.bsclApply h f) := has_word rfl rfl
theorem lmul (h : Hdr) (f : RF) : Statement (.lmul h f) := has_word rfl rfl
theorem shfl (h : Hdr) (f : RF) : Statement (.shfl h f) := has_word rfl rfl
theorem shfx (h : Hdr) (f : RF) : Statement (.shfx h f) := has_word rfl rfl
theorem shfd (h : Hdr) (f : RF) : Statement (.shfd h f) := has_word rfl rfl
theorem qswp (h : Hdr) (f : RF) : Statement (.qswp h f) := has_word rfl rfl
theorem qbc (h : Hdr) (f : RF) : Statement (.qbc h f) := has_word rfl rfl
theorem vote (h : Hdr) (f : RF) : Statement (.vote h f) := has_word rfl rfl
theorem wred (h : Hdr) (f : RF) : Statement (.wred h f) := has_word rfl rfl
theorem wscan (h : Hdr) (f : RF) : Statement (.wscan h f) := has_word rfl rfl
theorem matchLanes (h : Hdr) (f : RF) : Statement (.matchLanes h f) := has_word rfl rfl
theorem firstL (h : Hdr) (f : RF) : Statement (.firstL h f) := has_word rfl rfl
theorem ld (h : Hdr) (f : MF) : Statement (.ld h f) := has_word rfl rfl
theorem st (h : Hdr) (f : MF) : Statement (.st h f) := has_word rfl rfl
theorem ldv (h : Hdr) (f : MF) : Statement (.ldv h f) := has_word rfl rfl
theorem stv (h : Hdr) (f : MF) : Statement (.stv h f) := has_word rfl rfl
theorem sld (h : Hdr) (f : MF) : Statement (.sld h f) := has_word rfl rfl
theorem sst (h : Hdr) (f : MF) : Statement (.sst h f) := has_word rfl rfl
theorem atom (h : Hdr) (f : MF) : Statement (.atom h f) := has_word rfl rfl
theorem acas (h : Hdr) (f : MF) : Statement (.acas h f) := has_word rfl rfl
theorem fence (h : Hdr) (f : SF) : Statement (.fence h f) := has_word rfl rfl
theorem sptest (h : Hdr) (f : RF) : Statement (.sptest h f) := has_word rfl rfl
theorem spcast (h : Hdr) (f : RF) : Statement (.spcast h f) := has_word rfl rfl
theorem pref (h : Hdr) (f : MF) : Statement (.pref h f) := has_word rfl rfl
theorem cwb (h : Hdr) (f : MF) : Statement (.cwb h f) := has_word rfl rfl
theorem cinv (h : Hdr) (f : MF) : Statement (.cinv h f) := has_word rfl rfl
theorem cpy (h : Hdr) (f : SF) : Statement (.cpy h f) := has_word rfl rfl
theorem cpyt (h : Hdr) (f : SF) : Statement (.cpyt h f) := has_word rfl rfl
theorem cpyg (h : Hdr) (f : SF) : Statement (.cpyg h f) := has_word rfl rfl
theorem wtge (h : Hdr) (f : MF) : Statement (.wtge h f) := has_word rfl rfl
theorem wteq (h : Hdr) (f : MF) : Statement (.wteq h f) := has_word rfl rfl
theorem poll (h : Hdr) (f : MF) : Statement (.poll h f) := has_word rfl rfl
theorem mma (h : Hdr) (f : XF) : Statement (.mma h f) := has_word rfl rfl
theorem mmat (h : Hdr) (f : XF) : Statement (.mmat h f) := has_word rfl rfl
theorem mzero (h : Hdr) (f : XF) : Statement (.mzero h f) := has_word rfl rfl
theorem mdrain (h : Hdr) (f : XF) : Statement (.mdrain h f) := has_word rfl rfl
theorem mdrag (h : Hdr) (f : XF) : Statement (.mdrag h f) := has_word rfl rfl
theorem mpop (h : Hdr) (f : XF) : Statement (.mpop h f) := has_word rfl rfl
theorem mpush (h : Hdr) (f : XF) : Statement (.mpush h f) := has_word rfl rfl
theorem mtake (h : Hdr) (f : XF) : Statement (.mtake h f) := has_word rfl rfl
theorem mgive (h : Hdr) (f : XF) : Statement (.mgive h f) := has_word rfl rfl
theorem mstat (h : Hdr) (f : XF) : Statement (.mstat h f) := has_word rfl rfl
theorem bar (h : Hdr) (f : SF) : Statement (.bar h f) := has_word rfl rfl
theorem barSet (h : Hdr) (f : SF) : Statement (.barSet h f) := has_word rfl rfl
theorem bara (h : Hdr) (f : SF) : Statement (.bara h f) := has_word rfl rfl
theorem baraWait (h : Hdr) (f : SF) : Statement (.baraWait h f) := has_word rfl rfl
theorem baraRem (h : Hdr) (f : SF) : Statement (.baraRem h f) := has_word rfl rfl
theorem baraHdl (h : Hdr) (f : SF) : Statement (.baraHdl h f) := has_word rfl rfl
theorem gbar (h : Hdr) (f : SF) : Statement (.gbar h f) := has_word rfl rfl
theorem ldf (h : Hdr) (f : MF) : Statement (.ldf h f) := has_word rfl rfl
theorem ldfe (h : Hdr) (f : MF) : Statement (.ldfe h f) := has_word rfl rfl
theorem stef (h : Hdr) (f : MF) : Statement (.stef h f) := has_word rfl rfl
theorem stf (h : Hdr) (f : MF) : Statement (.stf h f) := has_word rfl rfl
theorem fest (h : Hdr) (f : MF) : Statement (.fest h f) := has_word rfl rfl
theorem sigadd (h : Hdr) (f : MF) : Statement (.sigadd h f) := has_word rfl rfl
theorem twpart (h : Hdr) (f : SF) : Statement (.twpart h f) := has_word rfl rfl
theorem twstat (h : Hdr) (f : SF) : Statement (.twstat h f) := has_word rfl rfl
theorem enq (h : Hdr) (f : SF) : Statement (.enq h f) := has_word rfl rfl
theorem enqt (h : Hdr) (f : SF) : Statement (.enqt h f) := has_word rfl rfl
theorem spawn (h : Hdr) (f : SF) : Statement (.spawn h f) := has_word rfl rfl
theorem scopeNew (h : Hdr) (f : SF) : Statement (.scopeNew h f) := has_word rfl rfl
theorem cancel (h : Hdr) (f : SF) : Statement (.cancel h f) := has_word rfl rfl
theorem cancelAck (h : Hdr) (f : SF) : Statement (.cancelAck h f) := has_word rfl rfl
theorem scack (h : Hdr) (f : SF) : Statement (.scack h f) := has_word rfl rfl
theorem scinfo (h : Hdr) (f : SF) : Statement (.scinfo h f) := has_word rfl rfl
theorem sread (h : Hdr) (f : SF) : Statement (.sread h f) := has_word rfl rfl
theorem sreadV (h : Hdr) (f : SF) : Statement (.sreadV h f) := has_word rfl rfl
theorem swrite (h : Hdr) (f : SF) : Statement (.swrite h f) := has_word rfl rfl
theorem bidw (h : Hdr) (f : SF) : Statement (.bidw h f) := has_word rfl rfl
theorem bidr (h : Hdr) (f : SF) : Statement (.bidr h f) := has_word rfl rfl
theorem priceR (h : Hdr) (f : SF) : Statement (.priceR h f) := has_word rfl rfl
theorem leaseR (h : Hdr) (f : SF) : Statement (.leaseR h f) := has_word rfl rfl
theorem pcnt (h : Hdr) (f : SF) : Statement (.pcnt h f) := has_word rfl rfl
theorem clockR (h : Hdr) (f : SF) : Statement (.clockR h f) := has_word rfl rfl
theorem keyz (h : Hdr) (f : SF) : Statement (.keyz h f) := has_word rfl rfl
theorem keyzCtx (h : Hdr) (f : SF) : Statement (.keyzCtx h f) := has_word rfl rfl
theorem scrub (h : Hdr) (f : SF) : Statement (.scrub h f) := has_word rfl rfl
theorem scrubStat (h : Hdr) (f : SF) : Statement (.scrubStat h f) := has_word rfl rfl
theorem sleep (h : Hdr) (f : SF) : Statement (.sleep h f) := has_word rfl rfl
theorem sleepUntil (h : Hdr) (f : SF) : Statement (.sleepUntil h f) := has_word rfl rfl
theorem fencePerformed (at_ : EntryRef) : Statement (.fencePerformed at_) := no_word rfl rfl
theorem varLatencyWriteback (wave : WaveRef) (seq : Nat) : Statement (.varLatencyWriteback wave seq) := no_word rfl rfl
theorem copyChunk (copy : Nat) : Statement (.copyChunk copy) := no_word rfl rfl
theorem memoryWaitSatisfied (at_ : EntryRef) (lane : Nat) : Statement (.memoryWaitSatisfied at_ lane) := no_word rfl rfl
theorem matrixKstep (engine : Nat) : Statement (.matrixKstep engine) := no_word rfl rfl
theorem drainRowPush (engine : Nat) : Statement (.drainRowPush engine) := no_word rfl rfl
theorem feWaiterServed (word : Nat) : Statement (.feWaiterServed word) := no_word rfl rfl
theorem enqRetry (at_ : EntryRef) : Statement (.enqRetry at_) := no_word rfl rfl
theorem queueStall (at_ : EntryRef) : Statement (.queueStall at_) := no_word rfl rfl
theorem taskExamine (task : Nat) : Statement (.taskExamine task) := no_word rfl rfl
theorem cancelledWaveStop (wave : WaveRef) : Statement (.cancelledWaveStop wave) := no_word rfl rfl
theorem subtreeQuiet (handle : W32) : Statement (.subtreeQuiet handle) := no_word rfl rfl
theorem sleepWake (at_ : EntryRef) : Statement (.sleepWake at_) := no_word rfl rfl
theorem instructionFetch (at_ : EntryRef) : Statement (.instructionFetch at_) := no_word rfl rfl
theorem trapDelivery (at_ : EntryRef) : Statement (.trapDelivery at_) := no_word rfl rfl
theorem faultDump (group : Nat) : Statement (.faultDump group) := no_word rfl rfl
theorem doorbellWrite (func off size : Nat) (value : W64) : Statement (.doorbellWrite func off size value) := no_word rfl rfl
theorem doorbellRead (func off size : Nat) : Statement (.doorbellRead func off size) := no_word rfl rfl
theorem qcbWrite (func off size : Nat) (value : W64) : Statement (.qcbWrite func off size value) := no_word rfl rfl
theorem enable (func queue : Nat) : Statement (.enable func queue) := no_word rfl rfl
theorem disable (func queue : Nat) : Statement (.disable func queue) := no_word rfl rfl
theorem queueResume (func queue : Nat) : Statement (.queueResume func queue) := no_word rfl rfl
theorem queueRelease (func queue : Nat) : Statement (.queueRelease func queue) := no_word rfl rfl
theorem packetConsume (queue : Nat) : Statement (.packetConsume queue) := no_word rfl rfl
theorem barrierPass (queue : Nat) : Statement (.barrierPass queue) := no_word rfl rfl
theorem launchComplete (launch : Nat) : Statement (.launchComplete launch) := no_word rfl rfl
theorem dispatchPlace (cluster : Nat) : Statement (.dispatchPlace cluster) := no_word rfl rfl
theorem defCharge : Statement .defCharge := no_word rfl rfl
theorem clusterReserve (queue : Nat) : Statement (.clusterReserve queue) := no_word rfl rfl
theorem dispatchSave (group : Nat) : Statement (.dispatchSave group) := no_word rfl rfl
theorem gangStop (group : Nat) (kind : StopKind) : Statement (.gangStop group kind) := no_word rfl rfl
theorem bidFreeze : Statement .bidFreeze := no_word rfl rfl
theorem publication : Statement .publication := no_word rfl rfl
theorem intervalStart : Statement .intervalStart := no_word rfl rfl
theorem spinnaker (ctx : Nat) : Statement (.spinnaker ctx) := no_word rfl rfl
theorem migrationOffer (image : Nat) : Statement (.migrationOffer image) := no_word rfl rfl
theorem migrationAccepted (ctx dev : Nat) : Statement (.migrationAccepted ctx dev) := no_word rfl rfl
theorem priceFlitReceive (flit : PriceFlit) : Statement (.priceFlitReceive flit) := no_word rfl rfl
theorem timeFlitSend : Statement .timeFlitSend := no_word rfl rfl
theorem timeFlitReceive (time delay : Nat) : Statement (.timeFlitReceive time delay) := no_word rfl rfl
theorem access (req : AccessReq) : Statement (.access req) := no_word rfl rfl
theorem response (id : Nat) (answer : Answer) : Statement (.response id answer) := no_word rfl rfl
theorem responseTimeout (id : Nat) : Statement (.responseTimeout id) := no_word rfl rfl
theorem reduceContribution (c : Contribution) : Statement (.reduceContribution c) := no_word rfl rfl
theorem keygenHoldTimeout (job child : Nat) : Statement (.keygenHoldTimeout job child) := no_word rfl rfl
theorem ratlineFlit (r : Ratline) : Statement (.ratlineFlit r) := no_word rfl rfl
theorem ratlineHoldEnd : Statement .ratlineHoldEnd := no_word rfl rfl
theorem shard (sh : Shard) : Statement (.shard sh) := no_word rfl rfl
theorem flitUnknownType (ty : Byte) : Statement (.flitUnknownType ty) := no_word rfl rfl
theorem linkTraining (port : Nat) (versions : List Nat) (peer : Nat) : Statement (.linkTraining port versions peer) := no_word rfl rfl
theorem laneWithdraw (lane : Nat) : Statement (.laneWithdraw lane) := no_word rfl rfl
theorem bar4Read (func off size : Nat) : Statement (.bar4Read func off size) := no_word rfl rfl
theorem bar4Write (func off : Nat) (data : List Byte) : Statement (.bar4Write func off data) := no_word rfl rfl
theorem hostAccessFail (write : Bool) : Statement (.hostAccessFail write) := no_word rfl rfl
theorem registerWrite (func off size : Nat) (value : W64) : Statement (.registerWrite func off size value) := no_word rfl rfl
theorem violationLogRead (func off size : Nat) : Statement (.violationLogRead func off size) := no_word rfl rfl
theorem tlbinv (func : Nat) (value : W64) : Statement (.tlbinv func value) := no_word rfl rfl
theorem tlbInvalidateDone : Statement .tlbInvalidateDone := no_word rfl rfl
theorem kmatWrite (func slot off size : Nat) (value : W64) : Statement (.kmatWrite func slot off size value) := no_word rfl rfl
theorem kstatWrite (func slot off size : Nat) (value : W64) : Statement (.kstatWrite func slot off size value) := no_word rfl rfl
theorem scrubcmd (func : Nat) (value : W64) : Statement (.scrubcmd func value) := no_word rfl rfl
theorem scrubPhase (units : Nat) : Statement (.scrubPhase units) := no_word rfl rfl
theorem create (func ctx : Nat) : Statement (.create func ctx) := no_word rfl rfl
theorem reset (func ctx : Nat) : Statement (.reset func ctx) := no_word rfl rfl
theorem ctxResetReroot (ctx : Nat) : Statement (.ctxResetReroot ctx) := no_word rfl rfl
theorem tdcancel (func size : Nat) (value : W64) : Statement (.tdcancel func size value) := no_word rfl rfl
theorem powerWindow (watts luff : Nat) : Statement (.powerWindow watts luff) := no_word rfl rfl
theorem eccError (e : EccEvent) : Statement (.eccError e) := no_word rfl rfl
theorem selfTestDone (unit : UnitLoc) (passed spare : Bool) : Statement (.selfTestDone unit passed spare) := no_word rfl rfl
theorem powerOn : Statement .powerOn := no_word rfl rfl
theorem deviceReset : Statement .deviceReset := no_word rfl rfl
theorem boot (func : Nat) (block : W64) : Statement (.boot func block) := no_word rfl rfl
theorem faults (func : Nat) (block : W64) : Statement (.faults func block) := no_word rfl rfl
theorem policy (func : Nat) (block : W64) : Statement (.policy func block) := no_word rfl rfl
theorem discard (func : Nat) (block : W64) : Statement (.discard func block) := no_word rfl rfl
theorem resume (func : Nat) (block : W64) : Statement (.resume func block) := no_word rfl rfl
theorem stop (func : Nat) (block : W64) : Statement (.stop func block) := no_word rfl rfl
theorem release (func : Nat) (block : W64) : Statement (.release func block) := no_word rfl rfl
theorem stall (func : Nat) (block : W64) : Statement (.stall func block) := no_word rfl rfl
theorem ckptSave (func : Nat) (block : W64) : Statement (.ckptSave func block) := no_word rfl rfl
theorem ckptRestore (func : Nat) (block : W64) : Statement (.ckptRestore func block) := no_word rfl rfl
theorem reduce (func : Nat) (block : W64) : Statement (.reduce func block) := no_word rfl rfl
theorem keygen (func : Nat) (block : W64) : Statement (.keygen func block) := no_word rfl rfl
theorem ratline (func : Nat) (block : W64) : Statement (.ratline func block) := no_word rfl rfl
theorem attest (func : Nat) (block : W64) : Statement (.attest func block) := no_word rfl rfl
theorem errlog (func : Nat) (block : W64) : Statement (.errlog func block) := no_word rfl rfl
theorem podidx (func : Nat) (block : W64) : Statement (.podidx func block) := no_word rfl rfl
theorem migrationRefused (ctx dev : Nat) : Statement (.migrationRefused ctx dev) := no_word rfl rfl
theorem peerLost (dev : Nat) : Statement (.peerLost dev) := no_word rfl rfl
theorem corePowerGate (core : Nat) : Statement (.corePowerGate core) := no_word rfl rfl
theorem coreWake (core : Nat) : Statement (.coreWake core) := no_word rfl rfl
theorem thermalTrip (on : Bool) : Statement (.thermalTrip on) := no_word rfl rfl
theorem eventMessageHoldoff : Statement .eventMessageHoldoff := no_word rfl rfl

end Encoding

end Sys2Proof.Laws
end

