-- ==== Sys2Proof/Laws/Scope.lean ====
section
/-! SUPPORT. Scope: what the creation of a scope finds and changes, and what the cancel of one does to its subtree (R499, R501). -/

namespace Sys2Proof.Machine

theorem child_groups (s : State) (c : Nat) (p : W32) (a b : Bool) {t : State} {h : W32} (e : s.createChild c p a b = .ok (t, h)) : t.groups = s.groups := by
  unfold State.createChild at e
  dsimp only at e
  split at e <;> split at e <;> first | injection e | (split at e <;> first | (injection e; done) | (injection e with e; cases e; rfl))

theorem scopeNew_groups (s : State) (g : Group) (p : W32) : (scopeNewOf s g p).1.groups = s.groups := by
  unfold scopeNewOf
  split
  · rfl
  · split
    · rfl
    · split
      · rfl
      · split
        · rfl
        · rename_i e; exact child_groups _ _ _ _ _ e

theorem firstFree_spec (s : State) : ∀ left n, (∀ k, s.firstFree left n = some k → n ≤ k ∧ k < n + left ∧ (s.scopeSlot k).st = .free) ∧
    (s.firstFree left n = none → ∀ k, n ≤ k → k < n + left → (s.scopeSlot k).st ≠ .free)
  | 0, n => ⟨fun k h => by simp [State.firstFree] at h, fun _ k h1 h2 => by omega⟩
  | left + 1, n => by
    obtain ⟨h1, h2⟩ := firstFree_spec s left (n + 1)
    by_cases hf : (s.scopeSlot n).st = .free
    · simp only [State.firstFree, if_pos hf]
      exact ⟨fun k h => by cases h; exact ⟨Nat.le_refl _, by omega, hf⟩, fun h => by cases h⟩
    · simp only [State.firstFree, if_neg hf]
      refine ⟨fun k h => ⟨by have := (h1 k h).1; omega, by have := (h1 k h).2.1; omega, (h1 k h).2.2⟩, fun h k a b => ?_⟩
      by_cases e : k = n
      · subst e; exact hf
      · exact h2 h k (by omega) (by omega)

theorem room_spec (s : State) (ctx : Nat) : match s.scopeRoom ctx with
    | none => s.scopeLimit ctx ≤ (s.scopesInUse.filter fun p => decide (p.2.ctx = ctx)).length ∨ ∀ n < 65536, (s.scopeSlot n).st ≠ .free
    | some n => ¬ (s.scopeLimit ctx ≤ (s.scopesInUse.filter fun p => decide (p.2.ctx = ctx)).length ∨ ∀ n < 65536, (s.scopeSlot n).st ≠ .free) ∧
        n < 65536 ∧ (s.scopeSlot n).st = .free := by
  obtain ⟨h1, h2⟩ := firstFree_spec s scopeTableSize 0
  unfold State.scopeRoom State.freeScope
  split
  · rename_i n h
    split at h
    · exact .inr fun k hk => h2 h k (Nat.zero_le _) (by simpa [scopeTableSize] using hk)
    · exact .inl (by omega)
  · rename_i n h
    split at h
    · rename_i hl
      have := h1 n h
      refine ⟨?_, by simpa [scopeTableSize] using this.2.1, this.2.2⟩
      rintro (a | a)
      · omega
      · exact a n (by simpa [scopeTableSize] using this.2.1) this.2.2
    · cases h

theorem swfFrom_mem {α : Type} [DecidableEq α] (d : α) : ∀ (m : List (Nat × α)) (lo : Nat), swfFrom d lo m = true →
    ∀ p ∈ m, lo ≤ p.1 ∧ p.2 ≠ d ∧ sget d m p.1 = p.2 := by
  intro m
  induction m with
  | nil => intro lo _ p hp; cases hp
  | cons q m ih =>
    intro lo h p hp
    obtain ⟨j, v⟩ := q
    simp only [swfFrom, Bool.and_eq_true, decide_eq_true_eq] at h
    rcases List.mem_cons.1 hp with rfl | hp
    · exact ⟨h.1.1, h.1.2, by simp [sget]⟩
    · obtain ⟨a, b, c⟩ := ih _ h.2 p hp
      exact ⟨by omega, b, by rw [sget, if_neg (by omega)]; exact c⟩

theorem mem_of_sget {α : Type} [DecidableEq α] (d : α) : ∀ (m : List (Nat × α)) (k : Nat), sget d m k ≠ d → (k, sget d m k) ∈ m := by
  intro m
  induction m with
  | nil => intro k h; exact absurd rfl h
  | cons q m ih =>
    intro k h
    obtain ⟨j, v⟩ := q
    simp only [sget] at h ⊢
    by_cases e : k = j
    · rw [if_pos e, e]; exact List.mem_cons_self ..
    · rw [if_neg e] at h ⊢; exact List.mem_cons_of_mem _ (ih k h)

theorem scopeAt_num {s : State} {h k : W32} {v w : ScopeSlot} (hv : s.scopeAt h = some v) (hw : s.scopeAt k = some w) (hn : scopeNum h = scopeNum k) : h = k := by
  unfold State.scopeAt at hv hw
  dsimp only at hv hw
  split at hv <;> [skip; cases hv]
  split at hw <;> [skip; cases hw]
  rename_i a b
  simp only [Bool.and_eq_true, decide_eq_true_eq] at a b
  rw [hn] at a
  have e := a.2.symm.trans b.2
  unfold scopeGen at e
  unfold scopeNum at hn
  apply BitVec.eq_of_toNat_eq
  have e' := congrArg BitVec.toNat e
  simp only [BitVec.extractLsb'_toNat] at e'
  have := h.isLt
  have := k.isLt
  simp only [Nat.shiftRight_eq_div_pow] at e'
  omega

theorem mem_subtree {s : State} {h k : W32} (hk : k ∈ s.subtree h) : ∃ v, s.scopeAt k = some v := by
  simp only [State.subtree, List.mem_map, List.mem_filter] at hk
  obtain ⟨p, ⟨_, h2⟩, rfl⟩ := hk
  simp only [State.inSubtree, Bool.and_eq_true] at h2
  exact Option.isSome_iff_exists.mp h2.1

theorem self_subtree {s : State} {h : W32} {v : ScopeSlot} (hv : s.scopeAt h = some v) : h ∈ s.subtree h := by
  have hv' := hv
  unfold State.scopeAt at hv
  dsimp only at hv
  split at hv <;> [skip; cases hv]
  rename_i a
  simp only [Bool.and_eq_true, decide_eq_true_eq] at a
  have hne : sget ScopeSlot.start s.scopes (scopeNum h) ≠ ScopeSlot.start := by
    intro e
    have : (s.scopeSlot (scopeNum h)).st = .free := by unfold State.scopeSlot; rw [e]; rfl
    exact a.1 this
  have hm := mem_of_sget ScopeSlot.start s.scopes (scopeNum h) hne
  have hh : scopeHandle (scopeNum h) (s.scopeSlot (scopeNum h)).gen = h := by
    rw [a.2]
    unfold scopeHandle scopeNum scopeGen
    apply BitVec.eq_of_toNat_eq
    rw [BitVec.toNat_append, BitVec.extractLsb'_toNat, BitVec.toNat_ofNat]
    have := h.isLt
    rw [← Nat.shiftLeft_add_eq_or_of_lt (by omega), Nat.shiftLeft_eq, Nat.shiftRight_eq_div_pow]
    omega
  simp only [State.subtree, List.mem_map, List.mem_filter]
  refine ⟨(h, s.scopeSlot (scopeNum h)), ⟨?_, ?_⟩, rfl⟩
  · simp only [State.scopesInUse, List.mem_filterMap]
    refine ⟨_, hm, ?_⟩
    have : (sget ScopeSlot.start s.scopes (scopeNum h)) = s.scopeSlot (scopeNum h) := rfl
    rw [this, if_neg a.1, hh]
  · have : s.climbs h maxDepth h = true := by unfold maxDepth State.climbs; simp
    simp [State.inSubtree, hv', this]

theorem slot_put (s : State) (n k : Nat) (v : ScopeSlot) : (s.putScope n v).scopeSlot k = if k = n then v else s.scopeSlot k := sget_sput ..

theorem kill_fold (l : List W32) : ∀ s : State, let t := l.foldl (fun (s : State) x => s.putScope (scopeNum x) { s.scopeSlot (scopeNum x) with st := .dead }) s
    { t with scopes := s.scopes } = s ∧ ∀ n, t.scopeSlot n = if n ∈ l.map scopeNum then { s.scopeSlot n with st := .dead } else s.scopeSlot n := by
  induction l with
  | nil => intro s; exact ⟨rfl, fun n => by simp⟩
  | cons x l ih =>
    intro s
    obtain ⟨h1, h2⟩ := ih (s.putScope (scopeNum x) { s.scopeSlot (scopeNum x) with st := .dead })
    refine ⟨?_, fun n => ?_⟩
    · rw [List.foldl_cons]
      have := congrArg (fun u : State => { u with scopes := s.scopes }) h1
      exact this
    · rw [List.foldl_cons, h2 n, slot_put]
      simp only [List.map_cons, List.mem_cons]
      by_cases e : n = scopeNum x
      · subst e; simp
      · simp [e]

theorem scopeAt_of {s : State} {k : W32} {v : ScopeSlot} (h : s.scopeSlot (scopeNum k) = v) (h1 : v.st ≠ .free) (h2 : v.gen = scopeGen k) : s.scopeAt k = some v := by
  unfold State.scopeAt; dsimp only; rw [h]; simp [h1, h2]
theorem of_scopeAt {s : State} {k : W32} {v : ScopeSlot} (h : s.scopeAt k = some v) : s.scopeSlot (scopeNum k) = v ∧ v.st ≠ .free ∧ v.gen = scopeGen k := by
  unfold State.scopeAt at h; dsimp only at h
  split at h <;> [skip; cases h]
  rename_i a
  cases h
  simpa using a

theorem killed {s : State} {h : W32} {v : ScopeSlot} (hv : s.scopeAt h = some v) : { s.killSubtree h with scopes := s.scopes } = s ∧
    (∀ k ∈ s.subtree h, (s.killSubtree h).scopeDead k = true) ∧ ∀ k, k ∉ s.subtree h → (s.killSubtree h).scopeAt k = s.scopeAt k := by
  obtain ⟨h1, h2⟩ := kill_fold (s.subtree h) s
  have hself := self_subtree hv
  have hslot : ∀ n, (s.killSubtree h).scopeSlot n = if n ∈ (s.subtree h).map scopeNum then { s.scopeSlot n with st := .dead, cut := (s.scopeSlot n).cut || decide (n = scopeNum h) } else s.scopeSlot n := by
    intro n
    unfold State.killSubtree
    simp only [slot_put, h2]
    by_cases e : n = scopeNum h
    · subst e
      simp [List.mem_map.mpr ⟨h, hself, rfl⟩]
    · rw [if_neg e]
      split
      · rw [decide_eq_false e, Bool.or_false]
      · rfl
  refine ⟨?_, fun k hk => ?_, fun k hk => ?_⟩
  · have := congrArg (fun u : State => { u with scopes := s.scopes }) h1
    exact this
  · obtain ⟨w, hw⟩ := mem_subtree hk
    obtain ⟨a, b, c⟩ := of_scopeAt hw
    have hs := hslot (scopeNum k)
    rw [if_pos (List.mem_map.mpr ⟨k, hk, rfl⟩), a] at hs
    unfold State.scopeDead
    rw [scopeAt_of hs (by simp) (by exact c)]
    rfl
  · have hs := hslot (scopeNum k)
    by_cases hm : scopeNum k ∈ (s.subtree h).map scopeNum
    · obtain ⟨j, hj, e⟩ := List.mem_map.mp hm
      obtain ⟨w, hw⟩ := mem_subtree hj
      cases hk2 : s.scopeAt k with
      | some u => exact absurd (scopeAt_num hw hk2 e ▸ hj) hk
      | none =>
        rw [if_pos hm] at hs
        obtain ⟨a, b, c⟩ := of_scopeAt hw
        unfold State.scopeAt; dsimp only; rw [hs]
        unfold State.scopeAt at hk2; dsimp only at hk2
        split at hk2 <;> [cases hk2; skip]
        rename_i hh
        rw [if_neg]
        simp only [Bool.and_eq_true, decide_eq_true_eq, not_and] at hh ⊢
        intro _ hg
        refine hh ?_ hg
        rw [← e, a]; exact b
    · rw [if_neg hm] at hs
      unfold State.scopeAt; dsimp only; rw [hs]

theorem frame_scopes {s t : State} (h : t.frame = s.frame) : t.scopes = s.scopes := by
  have : t.frame.scopes = s.frame.scopes := by rw [h]
  exact this
theorem frame_acks {s t : State} (h : t.frame = s.frame) : t.acks = s.acks := by
  have : t.frame.acks = s.frame.acks := by rw [h]
  exact this
theorem dead_congr {s t : State} (h : t.scopes = s.scopes) (k : W32) : t.scopeDead k = s.scopeDead k := by
  unfold State.scopeDead State.scopeAt State.scopeSlot; rw [h]
theorem at_congr {s t : State} (h : t.scopes = s.scopes) (k : W32) : t.scopeAt k = s.scopeAt k := by
  unfold State.scopeAt State.scopeSlot; rw [h]

theorem cancel_live {s : State} {who : Option (Nat × W32)} {p : Party} {h : W32} {v : ScopeSlot} (a : Option AckReq) (hv : s.scopeAt h = some v) (hl : v.st = .live)
    (hw : (match who with
      | some (ctx, cur) => decide (v.ctx ≠ ctx) || decide (v.depth = 1) || !s.inSubtree h cur
      | none => false) = false)
    (ha : (match a with
      | some a => badAck s p a
      | none => false) = false) (hn : a.isSome = true → s.acks.length < ackLimit) :
    (cancelOf s who p h a).2 = 0 ∧ (∀ k ∈ s.subtree h, (cancelOf s who p h a).1.scopeDead k = true) ∧
    (∀ k, k ∉ s.subtree h → (cancelOf s who p h a).1.scopeAt k = s.scopeAt k) ∧ (cancelOf s who p h a).1.acks = (s.addAck h a).acks ∧
    (cancelOf s who p h a).1.frame = { s.frame with scopes := (cancelOf s who p h a).1.scopes, acks := (s.addAck h a).acks } := by
  obtain ⟨h1, h2, h3⟩ := killed hv
  have e : cancelOf s who p h a = (((s.killSubtree h).addAck h a).cancelFates h, 0) := by
    unfold cancelOf
    rw [hv]
    dsimp only
    refine Eq.trans (if_neg fun hh => Bool.false_ne_true (hw.symm.trans hh)) ?_
    refine Eq.trans (if_neg fun hh => Bool.false_ne_true (ha.symm.trans hh)) ?_
    rw [if_neg (by simp only [Bool.and_eq_true, decide_eq_true_eq, not_and]; intro hh; have := hn hh; omega), if_neg (by rw [hl]; decide)]
  rw [e]
  have hf : (((s.killSubtree h).addAck h a).cancelFates h).frame = ((s.killSubtree h).addAck h a).frame := frame_cancelFates ..
  have hs : ((s.killSubtree h).addAck h a).scopes = (s.killSubtree h).scopes := by cases a <;> rfl
  have hs2 : (((s.killSubtree h).addAck h a).cancelFates h).scopes = (s.killSubtree h).scopes := (frame_scopes hf).trans hs
  have hack : ((s.killSubtree h).addAck h a).acks = (s.addAck h a).acks := by
    have : (s.killSubtree h).acks = s.acks := by
      have h5 := congrArg (fun u : State => u.acks) h1
      exact h5
    cases a with
    | none => exact this
    | some a => simp only [State.addAck, this]
  refine ⟨rfl, fun k hk => (dead_congr hs2 k).trans (h2 k hk), fun k hk => (at_congr hs2 k).trans (h3 k hk), (frame_acks hf).trans hack, ?_⟩
  dsimp only
  rw [hf]
  have hk : (s.killSubtree h).frame = { s.frame with scopes := (s.killSubtree h).scopes } := by
    have := congrArg (fun u : State => ({ u with scopes := (s.killSubtree h).scopes } : State).frame) h1
    exact this
  rw [hs2, ← hack]
  have : ((s.killSubtree h).addAck h a).frame = { (s.killSubtree h).frame with acks := ((s.killSubtree h).addAck h a).acks } := by cases a <;> rfl
  rw [this, hk]

end Sys2Proof.Machine
end

