-- ==== Sys2Proof/Laws/Words.lean ====
section
/-! SUPPORT. Words: instructions that act once for their wave and answer words in uniform registers. -/

namespace Sys2Proof.Machine

/-- An instruction that acts once for its wave, where EXEC holds a real lane and its sources are free of poison. -/
theorem once_acts {x : Issue} {h : Hdr} (hi : x.e.insn = none) (ha : Acts x h) {srcs : List Src} (hs : ∀ r ∈ srcs, r.bad = none)
    (s k : State) : oncePerWave s x h srcs k = k := by
  rw [oncePerWave, if_pos (acts_of_exec hi ha), List.findSome?_eq_none_iff.2 hs]

/-- The same where EXEC holds none. -/
theorem once_idle {x : Issue} {h : Hdr} (hi : x.e.insn = none) (ha : ¬ Acts x h) (hc : Clean x) (srcs : List Src) (s k : State) :
    oncePerWave s x h srcs k = goesOn s x x.w := by
  have : x.acts h = false := by
    simp only [Issue.acts, exec_of_insn_none h hi]
    exact decide_eq_false ha
  rw [oncePerWave, this]
  simp only [Bool.false_eq_true, if_false]
  rw [finish_of_clean hi h _ hc.1]

/-- The words stored, on a machine u that holds the issuing group as s does. -/
theorem words_finish {u : State} {x : Issue} (hi : x.e.insn = none) (hc : Clean x) (hg : u.group? x.ref.gid = some x.g) (h : Hdr) (n : Byte)
    (ws : List W32) : WordsResult u x n ws (finishGroup u x h fun g => g.putSregs x.ref.wi u.free n.toNat ws) := by
  obtain ⟨sregs, us, h1, h2, h3, h4⟩ := putSregs_spec ws x.g x.ref.wi u.free n.toNat hc.2.2.2.1 hc.2.2.2.2
  refine ⟨sregs, us, ⟨?_, fun k hk => ?_, rfl⟩, ⟨h2, h3 (fun k => decide (n.toNat ≤ k) && decide (k < n.toNat + ws.length)) fun k ha hb => by simp [ha, hb]⟩, h4⟩
  · simp only [finishGroup, finish, State.setWave, modGroup_modGroup, next_of_clean hi h x.w hc.1]
    rw [group?_modGroup, if_pos rfl, hg]
    simp only [Option.map_some, h1, groupOn]
  · simp only [finishGroup, finish, State.setWave, modGroup_modGroup]
    rw [group?_modGroup, if_neg hk]

theorem words_runs {i : Instr} {h : Hdr} {n : Byte} {pre : State → Issue → Prop} {ok : State → Issue → List W32 → State → Prop}
    (srcs : State → Issue → List Src) (u : State → Issue → State) (ws : State → Issue → List W32)
    (he : ∀ s x, Issues s x → Clean x → pre s x → exec i s =
      .next (oncePerWave s x h (srcs s x) (finishGroup (u s x) x h fun g => g.putSregs x.ref.wi (u s x).free n.toNat (ws s x))))
    (hs : ∀ s x, Clean x → ∀ r ∈ srcs s x, r.bad = none)
    (hu : ∀ s x, Issues s x → Clean x → pre s x → (u s x).group? x.ref.gid = s.group? x.ref.gid)
    (hv : ∀ s x, Issues s x → Clean x → pre s x → Acts x h → ok s x (ws s x) (u s x)) : WordsMeaning i h n pre ok := by
  intro s x hx hc hp
  refine ⟨fun ha => ⟨_, u s x, ws s x, he s x hx hc hp, ?_, hv s x hx hc hp ha⟩, fun ha => ?_⟩
  · rw [once_acts hx.2 ha (hs s x hc)]
    exact words_finish hx.2 hc ((hu s x hx hc hp).trans (issuer_spec hx.1).2.1) h n _
  · rw [he s x hx hc hp, once_idle hx.2 ha hc]

end Sys2Proof.Machine
end

