-- ==== Sys2Proof/Tests/Slice0.lean ====
section
/-! SUPPORT. Slice0: tests of the model: terms that the checks refuse, words and their instructions, single steps, and a witness for
each statement's hypotheses. -/

namespace Sys2Proof.Tests

open Sys2Proof Sys2Proof.Machine

set_option Elab.async false

/-! ## Short forms of the fields -/

def hd : Hdr := { y := false, ge := false, gn := false, gp := 0 }
def rf (d a b c : Byte) (t : BitVec 5) (fn : BitVec 4) (rm : BitVec 2) (md : BitVec 6) : RF := ⟨d, a, b, c, t, fn, rm, md⟩
def immf (d a : Byte) (imm : W32) (x : Bool) : IF := ⟨d, a, imm, x⟩
def jf (j : BitVec 4) (a pri : Byte) (off : BitVec 24) : JF := ⟨j, a, pri, off⟩
def mf (d a b : Byte) (sz : BitVec 3) (sg : Bool) (ord : BitVec 2) (scp : BitVec 3) (ch : BitVec 2) (off : BitVec 14) : MF :=
  ⟨d, a, b, sz, sg, ord, scp, ch, off⟩
def xf (acc sh : BitVec 4) (a b s : Byte) (rep : BitVec 3) (bsel : BitVec 2) (neg zero : Bool) (low : BitVec 10) : XF :=
  ⟨acc, sh, a, b, s, rep, bsel, neg, zero, low⟩
def sf (d a : Byte) (sel imm : W16) : SF := ⟨d, a, sel, imm⟩

/-! ## Fields that the checks of each row refuse: one value of each field that a row's check speaks of (R42) -/

theorem test_illformed_control : ∀ i ∈ ([.bra ({ y := true, ge := true, gn := true, gp := 5 }) (jf 8 0 200 16), .bra ({ y := true, ge := true, gn := true, gp := 5 }) (jf 3 255 200 16),
   .brx hd (jf 8 4 0 0), .brx hd (jf 15 255 0 0), .brx hd (jf 15 4 0 0xffffff), .call hd (jf 8 6 144 0xfffff0), .call hd (jf 2 255 144 0xfffff0),
   .callx hd (jf 8 4 0 0), .callx hd (jf 15 255 0 0), .callx hd (jf 15 4 0 0xffffff), .ret hd (jf 8 4 0 0), .ret hd (jf 15 255 0 0),
   .ret hd (jf 15 4 255 0), .ret hd (jf 15 4 0 0xffffff), .joinJ hd (jf 15 0 0 0), .joinJ hd (jf 3 255 0 0), .joinJ hd (jf 3 0 255 0),
   .joinJ hd (jf 3 0 0 0xffffff), .jset hd (rf 255 0 0 0 0 0 0 0), .jset hd (rf 2 255 0 0 0 0 0 0), .jset hd (rf 2 0 255 0 0 0 0 0),
   .jset hd (rf 2 0 0 255 0 0 0 0), .jset hd (rf 2 0 0 0 31 0 0 0), .jset hd (rf 2 0 0 0 0 15 0 0), .jset hd (rf 2 0 0 0 0 0 3 0),
   .jset hd (rf 2 0 0 0 0 0 0 63), .exitL hd (rf 255 0 0 0 0 0 0 0), .exitL hd (rf 0 255 0 0 0 0 0 0), .exitL hd (rf 0 0 255 0 0 0 0 0),
   .exitL hd (rf 0 0 0 255 0 0 0 0), .exitL hd (rf 0 0 0 0 31 0 0 0), .exitL hd (rf 0 0 0 0 0 15 0 0), .exitL hd (rf 0 0 0 0 0 0 3 0),
   .exitL hd (rf 0 0 0 0 0 0 0 63), .winb hd (immf 255 196 32 false), .winb hd (immf 1 128 32 false), .winb hd (immf 1 196 32 true),
   .brk hd (sf 255 0 0 7), .brk hd (sf 0 255 0 7), .brk hd (sf 0 0 0xffff 7), .rtu hd (sf 255 0 0 0), .rtu hd (sf 0 255 0 0),
   .rtu hd (sf 0 0 0xffff 0), .rtu hd (sf 0 0 0 0xffff), .brs hd (jf 8 195 7 4), .brs hd (jf 15 128 7 4),
   .nop ({ y := true, ge := false, gn := false, gp := 0 }) (rf 255 0 0 0 0 0 0 0), .yieldE hd (rf 255 0 0 0 0 0 0 0), .trapU hd (sf 255 0 0 9)] : List Instr), i.wf = false := by decide +kernel

theorem test_illformed_integer_1 : ∀ i ∈ ([.add hd (rf 138 11 165 0 1 0 0 0), .add hd (rf 10 138 165 0 1 0 0 0), .add hd (rf 10 11 138 0 1 0 0 0), .add hd (rf 10 11 165 255 1 0 0 0),
   .add hd (rf 10 11 165 0 31 0 0 0), .add hd (rf 10 11 165 0 1 15 0 0), .add hd (rf 10 11 165 0 1 0 3 0), .add hd (rf 10 11 165 0 1 0 0 63),
   .mulh hd (rf 138 11 165 0 1 0 0 0), .mulh hd (rf 10 138 165 0 1 0 0 0), .mulh hd (rf 10 11 138 0 1 0 0 0), .mulh hd (rf 10 11 165 255 1 0 0 0),
   .mulh hd (rf 10 11 165 0 31 0 0 0), .mulh hd (rf 10 11 165 0 1 15 0 0), .mulh hd (rf 10 11 165 0 1 0 3 0), .mulh hd (rf 10 11 165 0 1 0 0 63),
   .mad hd (rf 138 11 165 12 1 0 0 0), .mad hd (rf 10 138 165 12 1 0 0 0), .mad hd (rf 10 11 138 12 1 0 0 0), .mad hd (rf 10 11 165 138 1 0 0 0),
   .mad hd (rf 10 11 165 12 31 0 0 0), .mad hd (rf 10 11 165 12 1 15 0 0), .mad hd (rf 10 11 165 12 1 0 3 0), .absI hd (rf 138 11 0 0 1 0 0 0),
   .absI hd (rf 10 138 0 0 1 0 0 0), .absI hd (rf 10 11 255 0 1 0 0 0), .absI hd (rf 10 11 0 255 1 0 0 0), .absI hd (rf 10 11 0 0 31 0 0 0),
   .absI hd (rf 10 11 0 0 1 15 0 0), .absI hd (rf 10 11 0 0 1 0 3 0), .absI hd (rf 10 11 0 0 1 0 0 63), .minI hd (rf 138 11 165 0 1 0 0 0),
   .minI hd (rf 10 138 165 0 1 0 0 0), .minI hd (rf 10 11 138 0 1 0 0 0), .minI hd (rf 10 11 165 255 1 0 0 0), .minI hd (rf 10 11 165 0 31 0 0 0),
   .minI hd (rf 10 11 165 0 1 15 0 0), .minI hd (rf 10 11 165 0 1 0 3 0), .minI hd (rf 10 11 165 0 1 0 0 63), .andB hd (rf 138 11 165 0 1 0 0 0),
   .andB hd (rf 10 138 165 0 1 0 0 0), .andB hd (rf 10 11 138 0 1 0 0 0), .andB hd (rf 10 11 165 255 1 0 0 0), .andB hd (rf 10 11 165 0 31 0 0 0),
   .andB hd (rf 10 11 165 0 1 15 0 0), .andB hd (rf 10 11 165 0 1 0 3 0), .andB hd (rf 10 11 165 0 1 0 0 63), .shl hd (rf 138 11 165 0 1 0 0 0),
   .shl hd (rf 10 138 165 0 1 0 0 0), .shl hd (rf 10 11 138 0 1 0 0 0), .shl hd (rf 10 11 165 255 1 0 0 0), .shl hd (rf 10 11 165 0 31 0 0 0),
   .shl hd (rf 10 11 165 0 1 15 0 0), .shl hd (rf 10 11 165 0 1 0 3 0), .shl hd (rf 10 11 165 0 1 0 0 63), .rol hd (rf 138 11 165 0 1 0 0 0),
   .rol hd (rf 10 138 165 0 1 0 0 0), .rol hd (rf 10 11 138 0 1 0 0 0), .rol hd (rf 10 11 165 255 1 0 0 0), .rol hd (rf 10 11 165 0 31 0 0 0),
   .rol hd (rf 10 11 165 0 1 15 0 0), .rol hd (rf 10 11 165 0 1 0 3 0), .rol hd (rf 10 11 165 0 1 0 0 63), .popc hd (rf 138 11 0 0 1 0 0 0),
   .popc hd (rf 10 138 0 0 1 0 0 0), .popc hd (rf 10 11 255 0 1 0 0 0), .popc hd (rf 10 11 0 255 1 0 0 0), .popc hd (rf 10 11 0 0 31 0 0 0),
   .popc hd (rf 10 11 0 0 1 15 0 0), .popc hd (rf 10 11 0 0 1 0 3 0)] : List Instr), i.wf = false := by decide +kernel

theorem test_illformed_integer_2 : ∀ i ∈ ([.popc hd (rf 10 11 0 0 1 0 0 63), .bfe hd (rf 138 11 165 168 1 0 0 0), .bfe hd (rf 10 138 165 168 1 0 0 0), .bfe hd (rf 10 11 138 168 1 0 0 0),
   .bfe hd (rf 10 11 165 138 1 0 0 0), .bfe hd (rf 10 11 165 168 31 0 0 0), .bfe hd (rf 10 11 165 168 1 15 0 0), .bfe hd (rf 10 11 165 168 1 0 3 0),
   .bfe hd (rf 10 11 165 168 1 0 0 63), .bfi hd (rf 138 11 165 168 1 0 0 0), .bfi hd (rf 10 138 165 168 1 0 0 0), .bfi hd (rf 10 11 138 168 1 0 0 0),
   .bfi hd (rf 10 11 165 138 1 0 0 0), .bfi hd (rf 10 11 165 168 31 0 0 0), .bfi hd (rf 10 11 165 168 1 15 0 0), .bfi hd (rf 10 11 165 168 1 0 3 0),
   .bfi hd (rf 10 11 165 168 1 0 0 63), .perm hd (rf 138 2 3 4 0 0 0 0), .perm hd (rf 1 138 3 4 0 0 0 0), .perm hd (rf 1 2 138 4 0 0 0 0),
   .perm hd (rf 1 2 3 138 0 0 0 0), .perm hd (rf 1 2 3 4 31 0 0 0), .perm hd (rf 1 2 3 4 0 15 0 0), .perm hd (rf 1 2 3 4 0 0 3 0),
   .perm hd (rf 1 2 3 4 0 0 0 63), .sub hd (rf 138 11 165 0 1 0 0 0), .mul hd (rf 138 11 165 0 1 0 0 0), .divI hd (rf 138 11 165 0 1 0 0 0),
   .remI hd (rf 138 11 165 0 1 0 0 0), .maxI hd (rf 138 11 165 0 1 0 0 0), .orB hd (rf 138 11 165 0 1 0 0 0), .xorB hd (rf 138 11 165 0 1 0 0 0),
   .andn hd (rf 138 11 165 0 1 0 0 0), .shr hd (rf 138 11 165 0 1 0 0 0), .sar hd (rf 138 11 165 0 1 0 0 0), .clz hd (rf 138 11 0 0 1 0 0 0),
   .ctz hd (rf 138 11 0 0 1 0 0 0), .brev hd (rf 138 11 0 0 1 0 0 0)] : List Instr), i.wf = false := by decide +kernel

theorem test_illformed_moves : ∀ i ∈ ([.sel hd (rf 138 2 3 4 1 0 0 0), .sel hd (rf 1 138 3 4 1 0 0 0), .sel hd (rf 1 2 138 4 1 0 0 0), .sel hd (rf 1 2 3 255 1 0 0 0),
   .sel hd (rf 1 2 3 4 31 0 0 0), .sel hd (rf 1 2 3 4 1 15 0 0), .sel hd (rf 1 2 3 4 1 0 3 0), .sel hd (rf 1 2 3 4 1 0 0 63),
   .cmp hd (rf 255 2 192 0 1 2 0 0), .cmp hd (rf 3 138 192 0 1 2 0 0), .cmp hd (rf 3 2 138 0 1 2 0 0), .cmp hd (rf 3 2 192 255 1 2 0 0),
   .cmp hd (rf 3 2 192 0 31 2 0 0), .cmp hd (rf 3 2 192 0 1 15 0 0), .cmp hd (rf 3 2 192 0 1 2 3 0), .cmp hd (rf 3 2 192 0 1 2 0 63),
   .mov hd (rf 138 11 0 0 1 0 0 0), .mov hd (rf 10 138 0 0 1 0 0 0), .mov hd (rf 10 11 255 0 1 0 0 0), .mov hd (rf 10 11 0 255 1 0 0 0),
   .mov hd (rf 10 11 0 0 31 0 0 0), .mov hd (rf 10 11 0 0 1 15 0 0), .mov hd (rf 10 11 0 0 1 0 3 0), .mov hd (rf 10 11 0 0 1 0 0 63),
   .movi hd (immf 138 0 0xdeadbeef false), .movi hd (immf 9 255 0xdeadbeef false), .movi hd (immf 9 0 0xdeadbeef true),
   .addi hd (immf 138 9 0xffffffff false), .addi hd (immf 8 138 0xffffffff false), .addi hd (immf 8 9 0xffffffff true),
   .lea hd (rf 138 10 12 0 2 3 0 0), .lea hd (rf 8 255 12 0 2 3 0 0), .lea hd (rf 8 10 138 0 2 3 0 0), .lea hd (rf 8 10 12 255 2 3 0 0),
   .lea hd (rf 8 10 12 0 31 3 0 0), .lea hd (rf 8 10 12 0 2 15 0 0), .lea hd (rf 8 10 12 0 2 3 3 0), .lea hd (rf 8 10 12 0 2 3 0 63),
   .movrGet hd (rf 138 193 0 0 0 0 0 0), .movrGet hd (rf 3 128 0 0 0 0 0 0), .movrGet hd (rf 3 193 255 0 0 0 0 0),
   .movrGet hd (rf 3 193 0 255 0 0 0 0), .movrGet hd (rf 3 193 0 0 31 0 0 0), .movrGet hd (rf 3 193 0 0 0 15 0 0),
   .movrGet hd (rf 3 193 0 0 0 0 3 0), .movrGet hd (rf 3 193 0 0 0 0 0 63), .movrPut hd (rf 255 3 193 0 0 1 0 0),
   .movrPut hd (rf 0 138 193 0 0 1 0 0), .movrPut hd (rf 0 3 128 0 0 1 0 0), .movrPut hd (rf 0 3 193 255 0 1 0 0),
   .movrPut hd (rf 0 3 193 0 31 1 0 0), .movrPut hd (rf 0 3 193 0 0 15 0 0), .movrPut hd (rf 0 3 193 0 0 1 3 0), .movrPut hd (rf 0 3 193 0 0 1 0 63)] : List Instr), i.wf = false := by decide +kernel

theorem test_illformed_uniform : ∀ i ∈ ([.salu hd (rf 4 5 6 255 1 0 0 0), .salu hd (rf 4 5 6 0 31 0 0 0), .salu hd (rf 4 5 6 0 1 15 0 0), .salu hd (rf 4 5 6 0 1 0 3 0),
   .salu hd (rf 4 5 6 0 1 0 0 63), .scmp hd (rf 4 5 6 255 1 1 0 0), .scmp hd (rf 4 5 6 0 31 1 0 0), .scmp hd (rf 4 5 6 0 1 15 0 0),
   .scmp hd (rf 4 5 6 0 1 1 3 0), .scmp hd (rf 4 5 6 0 1 1 0 63), .smovi hd (immf 4 255 0x12345678 false), .smov hd (rf 4 5 255 0 0 0 0 0),
   .smov hd (rf 4 5 0 255 0 0 0 0), .smov hd (rf 4 5 0 0 31 0 0 0), .smov hd (rf 4 5 0 0 0 15 0 0), .smov hd (rf 4 5 0 0 0 0 3 0),
   .smov hd (rf 4 5 0 0 0 0 0 63), .sfrom hd (rf 4 255 3 0 0 1 0 0), .sfrom hd (rf 4 5 255 0 0 1 0 0), .sfrom hd (rf 4 5 3 255 0 1 0 0),
   .sfrom hd (rf 4 5 3 0 31 1 0 0), .sfrom hd (rf 4 5 3 0 0 15 0 0), .sfrom hd (rf 4 5 3 0 0 1 3 0), .sfrom hd (rf 4 5 3 0 0 1 0 63),
   .ssel hd (rf 4 5 6 7 31 0 0 0), .ssel hd (rf 4 5 6 7 0 15 0 0), .ssel hd (rf 4 5 6 7 0 0 3 0), .ssel hd (rf 4 5 6 7 0 0 0 63),
   .slea hd (rf 255 6 8 0 2 2 0 0), .slea hd (rf 4 255 8 0 2 2 0 0), .slea hd (rf 4 6 8 255 2 2 0 0), .slea hd (rf 4 6 8 0 31 2 0 0),
   .slea hd (rf 4 6 8 0 2 15 0 0), .slea hd (rf 4 6 8 0 2 2 3 0), .slea hd (rf 4 6 8 0 2 2 0 63), .plop hd (rf 255 2 3 4 8 1 2 42),
   .plop hd (rf 1 255 3 4 8 1 2 42), .plop hd (rf 1 2 255 4 8 1 2 42), .plop hd (rf 1 2 3 255 8 1 2 42), .plop hd (rf 1 2 3 4 31 1 2 42),
   .pfrom hd (rf 255 201 0 0 0 0 0 0), .pfrom hd (rf 1 128 0 0 0 0 0 0), .pfrom hd (rf 1 201 255 0 0 0 0 0), .pfrom hd (rf 1 201 0 255 0 0 0 0),
   .pfrom hd (rf 1 201 0 0 31 0 0 0), .pfrom hd (rf 1 201 0 0 0 15 0 0), .pfrom hd (rf 1 201 0 0 0 0 3 0), .pfrom hd (rf 1 201 0 0 0 0 0 63),
   .pto hd (rf 138 1 0 0 0 0 0 0), .pto hd (rf 3 255 0 0 0 0 0 0), .pto hd (rf 3 1 255 0 0 0 0 0), .pto hd (rf 3 1 0 255 0 0 0 0),
   .pto hd (rf 3 1 0 0 31 0 0 0), .pto hd (rf 3 1 0 0 0 15 0 0), .pto hd (rf 3 1 0 0 0 0 3 0), .pto hd (rf 3 1 0 0 0 0 0 63),
   .pcntPred hd (rf 138 1 0 0 2 0 0 0), .pcntPred hd (rf 3 255 0 0 2 0 0 0), .pcntPred hd (rf 3 1 255 0 2 0 0 0),
   .pcntPred hd (rf 3 1 0 255 2 0 0 0), .pcntPred hd (rf 3 1 0 0 31 0 0 0), .pcntPred hd (rf 3 1 0 0 2 15 0 0), .pcntPred hd (rf 3 1 0 0 2 0 3 0),
   .pcntPred hd (rf 3 1 0 0 2 0 0 63)] : List Instr), i.wf = false := by decide +kernel

theorem test_illformed_floats_1 : ∀ i ∈ ([.fadd hd (rf 138 11 12 0 8 0 0 0), .fadd hd (rf 10 138 12 0 8 0 0 0), .fadd hd (rf 10 11 138 0 8 0 0 0), .fadd hd (rf 10 11 12 255 8 0 0 0),
   .fadd hd (rf 10 11 12 0 31 0 0 0), .fadd hd (rf 10 11 12 0 8 15 0 0), .fadd hd (rf 10 11 12 0 8 0 0 63), .ffma hd (rf 138 11 12 13 8 0 0 0),
   .ffma hd (rf 10 138 12 13 8 0 0 0), .ffma hd (rf 10 11 138 13 8 0 0 0), .ffma hd (rf 10 11 12 138 8 0 0 0), .ffma hd (rf 10 11 12 13 31 0 0 0),
   .ffma hd (rf 10 11 12 13 8 15 0 0), .fmin hd (rf 138 11 12 0 8 0 0 0), .fmin hd (rf 10 138 12 0 8 0 0 0), .fmin hd (rf 10 11 138 0 8 0 0 0),
   .fmin hd (rf 10 11 12 255 8 0 0 0), .fmin hd (rf 10 11 12 0 31 0 0 0), .fmin hd (rf 10 11 12 0 8 15 0 0), .fmin hd (rf 10 11 12 0 8 0 3 0),
   .fmin hd (rf 10 11 12 0 8 0 0 63), .fcmp hd (rf 255 11 12 0 8 1 0 0), .fcmp hd (rf 2 138 12 0 8 1 0 0), .fcmp hd (rf 2 11 138 0 8 1 0 0),
   .fcmp hd (rf 2 11 12 255 8 1 0 0), .fcmp hd (rf 2 11 12 0 31 1 0 0), .fcmp hd (rf 2 11 12 0 8 1 3 0), .fcmp hd (rf 2 11 12 0 8 1 0 63),
   .fclass hd (rf 255 11 192 0 8 0 0 0), .fclass hd (rf 2 138 192 0 8 0 0 0), .fclass hd (rf 2 11 138 0 8 0 0 0),
   .fclass hd (rf 2 11 192 255 8 0 0 0), .fclass hd (rf 2 11 192 0 31 0 0 0), .fclass hd (rf 2 11 192 0 8 15 0 0),
   .fclass hd (rf 2 11 192 0 8 0 3 0), .fclass hd (rf 2 11 192 0 8 0 0 63), .fdiv hd (rf 138 11 12 0 8 0 0 0), .fdiv hd (rf 10 138 12 0 8 0 0 0),
   .fdiv hd (rf 10 11 138 0 8 0 0 0), .fdiv hd (rf 10 11 12 255 8 0 0 0), .fdiv hd (rf 10 11 12 0 31 0 0 0), .fdiv hd (rf 10 11 12 0 8 15 0 0),
   .fdiv hd (rf 10 11 12 0 8 0 0 63), .fsqrt hd (rf 138 11 0 0 8 0 0 0), .fsqrt hd (rf 10 138 0 0 8 0 0 0), .fsqrt hd (rf 10 11 255 0 8 0 0 0),
   .fsqrt hd (rf 10 11 0 255 8 0 0 0), .fsqrt hd (rf 10 11 0 0 31 0 0 0), .fsqrt hd (rf 10 11 0 0 8 15 0 0), .fsqrt hd (rf 10 11 0 0 8 0 0 63),
   .fex2 hd (rf 138 11 0 0 8 0 0 0), .fex2 hd (rf 10 138 0 0 8 0 0 0), .fex2 hd (rf 10 11 255 0 8 0 0 0), .fex2 hd (rf 10 11 0 255 8 0 0 0),
   .fex2 hd (rf 10 11 0 0 31 0 0 0), .fex2 hd (rf 10 11 0 0 8 15 0 0), .fex2 hd (rf 10 11 0 0 8 0 0 63), .frint hd (rf 138 11 0 0 8 0 0 0),
   .frint hd (rf 10 138 0 0 8 0 0 0), .frint hd (rf 10 11 255 0 8 0 0 0), .frint hd (rf 10 11 0 255 8 0 0 0), .frint hd (rf 10 11 0 0 31 0 0 0),
   .frint hd (rf 10 11 0 0 8 15 0 0), .frint hd (rf 10 11 0 0 8 0 0 63), .fscal hd (rf 138 11 12 0 8 0 0 0), .fscal hd (rf 10 138 12 0 8 0 0 0),
   .fscal hd (rf 10 11 138 0 8 0 0 0), .fscal hd (rf 10 11 12 255 8 0 0 0), .fscal hd (rf 10 11 12 0 31 0 0 0), .fscal hd (rf 10 11 12 0 8 15 0 0)] : List Instr), i.wf = false := by decide +kernel

theorem test_illformed_floats_2 : ∀ i ∈ ([.fscal hd (rf 10 11 12 0 8 0 0 63), .fdot2 hd (rf 138 11 12 13 12 0 0 0), .fdot2 hd (rf 10 138 12 13 12 0 0 0), .fdot2 hd (rf 10 11 138 13 12 0 0 0),
   .fdot2 hd (rf 10 11 12 138 12 0 0 0), .fdot2 hd (rf 10 11 12 13 31 0 0 0), .fdot2 hd (rf 10 11 12 13 12 15 0 0),
   .fclamp hd (rf 138 11 12 13 8 0 0 0), .fclamp hd (rf 10 138 12 13 8 0 0 0), .fclamp hd (rf 10 11 138 13 8 0 0 0),
   .fclamp hd (rf 10 11 12 138 8 0 0 0), .fclamp hd (rf 10 11 12 13 31 0 0 0), .fclamp hd (rf 10 11 12 13 8 15 0 0),
   .fclamp hd (rf 10 11 12 13 8 0 3 0), .fclamp hd (rf 10 11 12 13 8 0 0 63), .cvt hd (rf 138 11 0 1 8 0 0 0), .cvt hd (rf 10 138 0 1 8 0 0 0),
   .cvt hd (rf 10 11 255 1 8 0 0 0), .cvt hd (rf 10 11 0 255 8 0 0 0), .cvt hd (rf 10 11 0 1 31 0 0 0), .cvt hd (rf 10 11 0 1 8 15 0 0),
   .cvt hd (rf 10 11 0 1 8 0 0 63), .cvl6 hd (rf 138 11 0 0 8 0 0 0), .cvl6 hd (rf 10 138 0 0 8 0 0 0), .cvl6 hd (rf 10 11 255 0 8 0 0 0),
   .cvl6 hd (rf 10 11 0 255 8 0 0 0), .cvl6 hd (rf 10 11 0 0 31 0 0 0), .cvl6 hd (rf 10 11 0 0 8 15 0 0), .cvl6 hd (rf 10 11 0 0 8 0 3 0),
   .cvl6 hd (rf 10 11 0 0 8 0 0 63), .pk6 hd (rf 255 16 0 0 8 0 0 0), .pk6 hd (rf 10 255 0 0 8 0 0 0), .pk6 hd (rf 10 16 255 0 8 0 0 0),
   .pk6 hd (rf 10 16 0 255 8 0 0 0), .pk6 hd (rf 10 16 0 0 31 0 0 0), .pk6 hd (rf 10 16 0 0 8 15 0 0), .pk6 hd (rf 10 16 0 0 8 0 3 0),
   .pk6 hd (rf 10 16 0 0 8 0 0 63), .upk6 hd (rf 255 16 0 0 8 0 0 0), .upk6 hd (rf 32 255 0 0 8 0 0 0), .upk6 hd (rf 32 16 255 0 8 0 0 0),
   .upk6 hd (rf 32 16 0 255 8 0 0 0), .upk6 hd (rf 32 16 0 0 31 0 0 0), .upk6 hd (rf 32 16 0 0 8 15 0 0), .upk6 hd (rf 32 16 0 0 8 0 3 0),
   .upk6 hd (rf 32 16 0 0 8 0 0 63), .bsclFind hd (rf 138 11 0 0 8 0 0 0), .bsclFind hd (rf 10 138 0 0 8 0 0 0),
   .bsclFind hd (rf 10 11 255 0 8 0 0 0), .bsclFind hd (rf 10 11 0 255 8 0 0 0), .bsclFind hd (rf 10 11 0 0 31 0 0 0),
   .bsclFind hd (rf 10 11 0 0 8 15 0 0), .bsclFind hd (rf 10 11 0 0 8 0 3 0), .bsclFind hd (rf 10 11 0 0 8 0 0 63),
   .bsclApply hd (rf 138 11 12 0 8 1 0 0), .bsclApply hd (rf 10 138 12 0 8 1 0 0), .bsclApply hd (rf 10 11 138 0 8 1 0 0),
   .bsclApply hd (rf 10 11 12 255 8 1 0 0), .bsclApply hd (rf 10 11 12 0 31 1 0 0), .bsclApply hd (rf 10 11 12 0 8 15 0 0),
   .bsclApply hd (rf 10 11 12 0 8 1 0 63), .lmul hd (rf 138 11 12 0 14 0 0 0), .lmul hd (rf 10 255 12 0 14 0 0 0),
   .lmul hd (rf 10 11 255 0 14 0 0 0), .lmul hd (rf 10 11 12 255 14 0 0 0), .lmul hd (rf 10 11 12 0 31 0 0 0), .lmul hd (rf 10 11 12 0 14 15 0 0),
   .lmul hd (rf 10 11 12 0 14 0 3 0), .lmul hd (rf 10 11 12 0 14 0 0 63), .fsub hd (rf 138 11 12 0 8 0 0 0)] : List Instr), i.wf = false := by decide +kernel

theorem test_illformed_floats_3 : ∀ i ∈ ([.fmul hd (rf 138 11 12 0 8 0 0 0), .fmax hd (rf 138 11 12 0 8 0 0 0), .frcp hd (rf 138 11 0 0 8 0 0 0), .frsq hd (rf 138 11 0 0 8 0 0 0),
   .flg2 hd (rf 138 11 0 0 8 0 0 0), .fsinp hd (rf 138 11 0 0 8 0 0 0), .fcosp hd (rf 138 11 0 0 8 0 0 0), .ftanh hd (rf 138 11 0 0 8 0 0 0),
   .fsig hd (rf 138 11 0 0 8 0 0 0)] : List Instr), i.wf = false := by decide +kernel

theorem test_illformed_lanes_1 : ∀ i ∈ ([.shfl hd (rf 138 11 161 191 0 0 0 0), .shfl hd (rf 10 138 161 191 0 0 0 0), .shfl hd (rf 10 11 138 191 0 0 0 0), .shfl hd (rf 10 11 161 128 0 0 0 0),
   .shfl hd (rf 10 11 161 191 31 0 0 0), .shfl hd (rf 10 11 161 191 0 15 0 0), .shfl hd (rf 10 11 161 191 0 0 3 0),
   .shfl hd (rf 10 11 161 191 0 0 0 63), .shfx hd (rf 138 11 161 191 0 0 0 0), .shfx hd (rf 10 138 161 191 0 0 0 0),
   .shfx hd (rf 10 11 138 191 0 0 0 0), .shfx hd (rf 10 11 161 128 0 0 0 0), .shfx hd (rf 10 11 161 191 31 0 0 0),
   .shfx hd (rf 10 11 161 191 0 15 0 0), .shfx hd (rf 10 11 161 191 0 0 3 0), .shfx hd (rf 10 11 161 191 0 0 0 63),
   .shfd hd (rf 138 11 161 191 0 0 0 0), .shfd hd (rf 10 138 161 191 0 0 0 0), .shfd hd (rf 10 11 138 191 0 0 0 0),
   .shfd hd (rf 10 11 161 128 0 0 0 0), .shfd hd (rf 10 11 161 191 31 0 0 0), .shfd hd (rf 10 11 161 191 0 0 3 0),
   .shfd hd (rf 10 11 161 191 0 0 0 63), .qswp hd (rf 138 11 0 191 0 0 0 0), .qswp hd (rf 10 138 0 191 0 0 0 0), .qswp hd (rf 10 11 255 191 0 0 0 0),
   .qswp hd (rf 10 11 0 128 0 0 0 0), .qswp hd (rf 10 11 0 191 31 0 0 0), .qswp hd (rf 10 11 0 191 0 15 0 0), .qswp hd (rf 10 11 0 191 0 0 3 0),
   .qswp hd (rf 10 11 0 191 0 0 0 63), .qbc hd (rf 138 11 162 191 0 0 0 0), .qbc hd (rf 10 138 162 191 0 0 0 0), .qbc hd (rf 10 11 255 191 0 0 0 0),
   .qbc hd (rf 10 11 162 128 0 0 0 0), .qbc hd (rf 10 11 162 191 31 0 0 0), .qbc hd (rf 10 11 162 191 0 15 0 0), .qbc hd (rf 10 11 162 191 0 0 3 0),
   .qbc hd (rf 10 11 162 191 0 0 0 63), .vote hd (rf 255 3 0 191 0 1 0 0), .vote hd (rf 2 255 0 191 0 1 0 0), .vote hd (rf 2 3 255 191 0 1 0 0),
   .vote hd (rf 2 3 0 128 0 1 0 0), .vote hd (rf 2 3 0 191 31 1 0 0), .vote hd (rf 2 3 0 191 0 15 0 0), .vote hd (rf 2 3 0 191 0 1 3 0),
   .vote hd (rf 2 3 0 191 0 1 0 63), .wred hd (rf 138 11 0 197 1 0 0 0), .wred hd (rf 10 138 0 197 1 0 0 0), .wred hd (rf 10 11 255 197 1 0 0 0),
   .wred hd (rf 10 11 0 128 1 0 0 0), .wred hd (rf 10 11 0 197 31 0 0 0), .wred hd (rf 10 11 0 197 1 15 0 0), .wred hd (rf 10 11 0 197 1 0 3 0),
   .wred hd (rf 10 11 0 197 1 0 0 63), .wscan hd (rf 138 11 0 191 1 0 0 0), .wscan hd (rf 10 138 0 191 1 0 0 0),
   .wscan hd (rf 10 11 255 191 1 0 0 0), .wscan hd (rf 10 11 0 128 1 0 0 0), .wscan hd (rf 10 11 0 191 31 0 0 0),
   .wscan hd (rf 10 11 0 191 1 15 0 0), .wscan hd (rf 10 11 0 191 1 0 3 0), .wscan hd (rf 10 11 0 191 1 0 0 63),
   .matchLanes hd (rf 138 11 0 191 0 0 0 0), .matchLanes hd (rf 10 138 0 191 0 0 0 0), .matchLanes hd (rf 10 11 255 191 0 0 0 0),
   .matchLanes hd (rf 10 11 0 128 0 0 0 0), .matchLanes hd (rf 10 11 0 191 31 0 0 0), .matchLanes hd (rf 10 11 0 191 0 15 0 0),
   .matchLanes hd (rf 10 11 0 191 0 0 3 0)] : List Instr), i.wf = false := by decide +kernel

theorem test_illformed_lanes_2 : ∀ i ∈ ([.matchLanes hd (rf 10 11 0 191 0 0 0 63), .firstL hd (rf 138 0 0 191 0 1 0 0), .firstL hd (rf 10 255 0 191 0 1 0 0),
   .firstL hd (rf 10 0 255 191 0 1 0 0), .firstL hd (rf 10 0 0 128 0 1 0 0), .firstL hd (rf 10 0 0 191 31 1 0 0),
   .firstL hd (rf 10 0 0 191 0 15 0 0), .firstL hd (rf 10 0 0 191 0 1 3 0), .firstL hd (rf 10 0 0 191 0 1 0 63)] : List Instr), i.wf = false := by decide +kernel

theorem test_illformed_memory_1 : ∀ i ∈ ([.ld hd (mf 138 4 144 2 false 0 0 0 8), .ld hd (mf 10 255 144 2 false 0 0 0 8), .ld hd (mf 10 4 255 2 false 0 0 0 8),
   .ld hd (mf 10 4 144 7 false 0 0 0 8), .ld hd (mf 10 4 144 2 true 0 0 0 8), .ld hd (mf 10 4 144 2 false 3 0 0 8),
   .ld hd (mf 10 4 144 2 false 0 7 0 8), .st hd (mf 138 4 144 2 false 2 4 0 0x3ff8), .st hd (mf 10 255 144 2 false 2 4 0 0x3ff8),
   .st hd (mf 10 4 255 2 false 2 4 0 0x3ff8), .st hd (mf 10 4 144 7 false 2 4 0 0x3ff8), .st hd (mf 10 4 144 2 true 2 4 0 0x3ff8),
   .st hd (mf 10 4 144 2 false 3 4 0 0x3ff8), .st hd (mf 10 4 144 2 false 2 7 0 0x3ff8), .ldv hd (mf 255 196 144 4 false 0 0 0 0),
   .ldv hd (mf 12 255 144 4 false 0 0 0 0), .ldv hd (mf 12 196 255 4 false 0 0 0 0), .ldv hd (mf 12 196 144 7 false 0 0 0 0),
   .ldv hd (mf 12 196 144 4 true 0 0 0 0), .ldv hd (mf 12 196 144 4 false 3 0 0 0), .ldv hd (mf 12 196 144 4 false 0 7 0 0),
   .stv hd (mf 255 196 144 4 false 0 0 0 0), .stv hd (mf 12 255 144 4 false 0 0 0 0), .stv hd (mf 12 196 255 4 false 0 0 0 0),
   .stv hd (mf 12 196 144 7 false 0 0 0 0), .stv hd (mf 12 196 144 4 true 0 0 0 0), .stv hd (mf 12 196 144 4 false 3 0 0 0),
   .stv hd (mf 12 196 144 4 false 0 7 0 0), .sld hd (mf 255 196 144 3 false 0 0 0 0), .sld hd (mf 200 255 144 3 false 0 0 0 0),
   .sld hd (mf 200 196 255 3 false 0 0 0 0), .sld hd (mf 200 196 144 7 false 0 0 0 0), .sld hd (mf 200 196 144 3 true 0 0 0 0),
   .sld hd (mf 200 196 144 3 false 3 0 0 0), .sld hd (mf 200 196 144 3 false 0 7 0 0), .sst hd (mf 255 196 144 3 false 0 0 0 0),
   .sst hd (mf 200 255 144 3 false 0 0 0 0), .sst hd (mf 200 196 255 3 false 0 0 0 0), .sst hd (mf 200 196 144 7 false 0 0 0 0),
   .sst hd (mf 200 196 144 3 true 0 0 0 0), .sst hd (mf 200 196 144 3 false 3 0 0 0), .sst hd (mf 200 196 144 3 false 0 7 0 0),
   .atom hd (mf 138 4 12 2 false 0 4 0 0), .atom hd (mf 10 255 12 2 false 0 4 0 0), .atom hd (mf 10 4 138 2 false 0 4 0 0),
   .atom hd (mf 10 4 12 7 false 0 4 0 0), .atom hd (mf 10 4 12 2 true 0 4 0 0), .atom hd (mf 10 4 12 2 false 0 7 0 0),
   .atom hd (mf 10 4 12 2 false 0 4 3 0), .atom hd (mf 10 4 12 2 false 0 4 0 0x3fff), .acas hd (mf 138 4 12 2 false 0 4 0 0),
   .acas hd (mf 10 255 12 2 false 0 4 0 0), .acas hd (mf 10 4 255 2 false 0 4 0 0), .acas hd (mf 10 4 12 7 false 0 4 0 0),
   .acas hd (mf 10 4 12 2 true 0 4 0 0), .acas hd (mf 10 4 12 2 false 0 7 0 0), .acas hd (mf 10 4 12 2 false 0 4 3 0), .fence hd (sf 255 0 108 0),
   .fence hd (sf 0 255 108 0), .fence hd (sf 0 0 0xffff 0), .fence hd (sf 0 0 108 0xffff), .sptest hd (rf 138 12 0 0 0 0 0 0),
   .sptest hd (rf 10 255 0 0 0 0 0 0), .sptest hd (rf 10 12 255 0 0 0 0 0), .sptest hd (rf 10 12 0 255 0 0 0 0), .sptest hd (rf 10 12 0 0 31 0 0 0),
   .sptest hd (rf 10 12 0 0 0 15 0 0), .sptest hd (rf 10 12 0 0 0 0 3 0), .sptest hd (rf 10 12 0 0 0 0 0 63), .spcast hd (rf 138 12 0 0 0 1 0 0)] : List Instr), i.wf = false := by decide +kernel

theorem test_illformed_memory_2 : ∀ i ∈ ([.spcast hd (rf 10 255 0 0 0 1 0 0), .spcast hd (rf 10 12 255 0 0 1 0 0), .spcast hd (rf 10 12 0 255 0 1 0 0), .spcast hd (rf 10 12 0 0 31 1 0 0),
   .spcast hd (rf 10 12 0 0 0 15 0 0), .spcast hd (rf 10 12 0 0 0 1 3 0), .spcast hd (rf 10 12 0 0 0 1 0 63)] : List Instr), i.wf = false := by decide +kernel

theorem test_illformed_lines : ∀ i ∈ ([.pref hd (mf 255 4 144 0 false 0 0 0 0), .pref hd (mf 0 255 144 0 false 0 0 0 0), .pref hd (mf 0 4 255 0 false 0 0 0 0),
   .pref hd (mf 0 4 144 7 false 0 0 0 0), .pref hd (mf 0 4 144 0 true 0 0 0 0), .pref hd (mf 0 4 144 0 false 3 0 0 0),
   .pref hd (mf 0 4 144 0 false 0 7 0 0), .pref hd (mf 0 4 144 0 false 0 0 3 0), .cwb hd (mf 255 4 144 0 false 0 0 0 0),
   .cwb hd (mf 0 255 144 0 false 0 0 0 0), .cwb hd (mf 0 4 255 0 false 0 0 0 0), .cwb hd (mf 0 4 144 7 false 0 0 0 0),
   .cwb hd (mf 0 4 144 0 true 0 0 0 0), .cwb hd (mf 0 4 144 0 false 3 0 0 0), .cwb hd (mf 0 4 144 0 false 0 7 0 0),
   .cwb hd (mf 0 4 144 0 false 0 0 3 0), .cinv hd (mf 255 4 144 0 false 0 0 0 0), .cinv hd (mf 0 255 144 0 false 0 0 0 0),
   .cinv hd (mf 0 4 255 0 false 0 0 0 0), .cinv hd (mf 0 4 144 7 false 0 0 0 0), .cinv hd (mf 0 4 144 0 true 0 0 0 0),
   .cinv hd (mf 0 4 144 0 false 3 0 0 0), .cinv hd (mf 0 4 144 0 false 0 7 0 0), .cinv hd (mf 0 4 144 0 false 0 0 3 0), .cpy hd (sf 0 255 0 0),
   .cpy hd (sf 0 16 0xffff 0), .cpy hd (sf 0 16 0 0xffff), .cpyt hd (sf 0 255 0 0), .cpyt hd (sf 0 16 0xffff 0), .cpyt hd (sf 0 16 0 0xffff),
   .wtge hd (mf 138 4 193 2 false 0 0 0 0), .wtge hd (mf 10 255 193 2 false 0 0 0 0), .wtge hd (mf 10 4 138 2 false 0 0 0 0),
   .wtge hd (mf 10 4 193 7 false 0 0 0 0), .wtge hd (mf 10 4 193 2 true 0 0 0 0), .wtge hd (mf 10 4 193 2 false 3 0 0 0),
   .wtge hd (mf 10 4 193 2 false 0 7 0 0), .wtge hd (mf 10 4 193 2 false 0 0 3 0), .poll hd (mf 255 4 193 2 false 0 0 0 0),
   .poll hd (mf 3 255 193 2 false 0 0 0 0), .poll hd (mf 3 4 138 2 false 0 0 0 0), .poll hd (mf 3 4 193 7 false 0 0 0 0),
   .poll hd (mf 3 4 193 2 false 3 0 0 0), .poll hd (mf 3 4 193 2 false 0 7 0 0), .poll hd (mf 3 4 193 2 false 0 0 3 0), .cpyg hd (sf 0 255 0 0),
   .wteq hd (mf 138 4 193 2 false 0 0 0 0)] : List Instr), i.wf = false := by decide +kernel

theorem test_illformed_matrix_1 : ∀ i ∈ ([.mma hd (xf 1 15 16 32 255 1 0 false false 0), .mma hd (xf 1 0 255 32 255 1 0 false false 0), .mma hd (xf 1 0 16 255 255 1 0 false false 0),
   .mma hd (xf 1 0 16 32 128 1 0 false false 0), .mma hd (xf 1 0 16 32 255 1 3 false false 0), .mma hd (xf 1 0 16 32 255 1 0 false false 0x3ff),
   .mzero hd (xf 2 15 0 0 0 0 0 false false 0), .mzero hd (xf 2 0 255 0 0 0 0 false false 0), .mzero hd (xf 2 0 0 255 0 0 0 false false 0),
   .mzero hd (xf 2 0 0 0 255 0 0 false false 0), .mzero hd (xf 2 0 0 0 0 7 0 false false 0), .mzero hd (xf 2 0 0 0 0 0 3 false false 0),
   .mzero hd (xf 2 0 0 0 0 0 0 true false 0), .mzero hd (xf 2 0 0 0 0 0 0 false true 0), .mzero hd (xf 2 0 0 0 0 0 0 false false 0x3ff),
   .mdrain hd (xf 1 15 0 0 0 0 0 false false 3), .mdrain hd (xf 1 0 255 0 0 0 0 false false 3), .mdrain hd (xf 1 0 0 255 0 0 0 false false 3),
   .mdrain hd (xf 1 0 0 0 255 0 0 false false 3), .mdrain hd (xf 1 0 0 0 0 7 0 false false 3), .mdrain hd (xf 1 0 0 0 0 0 3 false false 3),
   .mdrain hd (xf 1 0 0 0 0 0 0 true false 3), .mdrain hd (xf 1 0 0 0 0 0 0 false true 3), .mdrain hd (xf 1 0 0 0 0 0 0 false false 0x3ff),
   .mdrag hd (xf 1 15 16 0 0 0 0 false false 0), .mdrag hd (xf 1 0 255 0 0 0 0 false false 0), .mdrag hd (xf 1 0 16 255 0 0 0 false false 0),
   .mdrag hd (xf 1 0 16 0 255 0 0 false false 0), .mdrag hd (xf 1 0 16 0 0 7 0 false false 0), .mdrag hd (xf 1 0 16 0 0 0 3 false false 0),
   .mdrag hd (xf 1 0 16 0 0 0 0 true false 0), .mdrag hd (xf 1 0 16 0 0 0 0 false true 0), .mdrag hd (xf 1 0 16 0 0 0 0 false false 0x3ff),
   .mpop hd (xf 15 0 16 0 0 0 0 false false 0), .mpop hd (xf 0 15 16 0 0 0 0 false false 0), .mpop hd (xf 0 0 255 0 0 0 0 false false 0),
   .mpop hd (xf 0 0 16 255 0 0 0 false false 0), .mpop hd (xf 0 0 16 0 255 0 0 false false 0), .mpop hd (xf 0 0 16 0 0 7 0 false false 0),
   .mpop hd (xf 0 0 16 0 0 0 3 false false 0), .mpop hd (xf 0 0 16 0 0 0 0 true false 0), .mpop hd (xf 0 0 16 0 0 0 0 false true 0),
   .mpop hd (xf 0 0 16 0 0 0 0 false false 0x3ff), .mpush hd (xf 1 15 16 0 0 0 0 false false 4), .mpush hd (xf 1 0 255 0 0 0 0 false false 4),
   .mpush hd (xf 1 0 16 255 0 0 0 false false 4), .mpush hd (xf 1 0 16 0 255 0 0 false false 4), .mpush hd (xf 1 0 16 0 0 7 0 false false 4),
   .mpush hd (xf 1 0 16 0 0 0 3 false false 4), .mpush hd (xf 1 0 16 0 0 0 0 true false 4), .mpush hd (xf 1 0 16 0 0 0 0 false true 4),
   .mpush hd (xf 1 0 16 0 0 0 0 false false 0x3ff), .mtake hd (xf 15 0 0 0 0 0 0 false false 0), .mtake hd (xf 0 15 0 0 0 0 0 false false 0),
   .mtake hd (xf 0 0 255 0 0 0 0 false false 0), .mtake hd (xf 0 0 0 255 0 0 0 false false 0), .mtake hd (xf 0 0 0 0 255 0 0 false false 0),
   .mtake hd (xf 0 0 0 0 0 7 0 false false 0), .mtake hd (xf 0 0 0 0 0 0 3 false false 0), .mtake hd (xf 0 0 0 0 0 0 0 true false 0),
   .mtake hd (xf 0 0 0 0 0 0 0 false true 0), .mtake hd (xf 0 0 0 0 0 0 0 false false 0x3ff), .mstat hd (xf 15 0 16 0 0 0 0 false false 0),
   .mstat hd (xf 0 15 16 0 0 0 0 false false 0), .mstat hd (xf 0 0 255 0 0 0 0 false false 0), .mstat hd (xf 0 0 16 255 0 0 0 false false 0),
   .mstat hd (xf 0 0 16 0 255 0 0 false false 0), .mstat hd (xf 0 0 16 0 0 7 0 false false 0), .mstat hd (xf 0 0 16 0 0 0 3 false false 0),
   .mstat hd (xf 0 0 16 0 0 0 0 true false 0)] : List Instr), i.wf = false := by decide +kernel

theorem test_illformed_matrix_2 : ∀ i ∈ ([.mstat hd (xf 0 0 16 0 0 0 0 false true 0), .mstat hd (xf 0 0 16 0 0 0 0 false false 0x3ff), .mmat hd (xf 1 15 16 32 255 0 0 false false 0),
   .mgive hd (xf 15 0 0 0 0 0 0 false false 0)] : List Instr), i.wf = false := by decide +kernel

theorem test_illformed_barriers : ∀ i ∈ ([.bar hd (sf 255 0 3 0), .bar hd (sf 0 255 3 0), .bar hd (sf 0 0 0xffff 0), .bar hd (sf 0 0 3 0xffff), .barSet hd (sf 255 0 35 2),
   .barSet hd (sf 0 0 0xffff 2), .bara hd (sf 4 255 3 0), .bara hd (sf 4 0 0xffff 0), .bara hd (sf 4 0 3 0xffff), .baraWait hd (sf 255 5 19 0),
   .baraWait hd (sf 0 5 0xffff 0), .baraWait hd (sf 0 5 19 0xffff), .baraRem hd (sf 6 255 32 0), .baraRem hd (sf 6 4 0xffff 0),
   .baraRem hd (sf 6 4 32 0xffff), .baraHdl hd (sf 255 0 51 0), .baraHdl hd (sf 4 255 51 0), .baraHdl hd (sf 4 0 0xffff 0),
   .baraHdl hd (sf 4 0 51 0xffff), .gbar hd (sf 255 0 2 0), .gbar hd (sf 1 255 2 0), .gbar hd (sf 1 0 0xffff 0), .gbar hd (sf 1 0 2 0xffff)] : List Instr), i.wf = false := by decide +kernel

theorem test_illformed_fullEmpty : ∀ i ∈ ([.ldf hd (mf 138 4 144 3 false 1 4 0 0), .ldf hd (mf 10 255 144 3 false 1 4 0 0), .ldf hd (mf 10 4 255 3 false 1 4 0 0),
   .ldf hd (mf 10 4 144 7 false 1 4 0 0), .ldf hd (mf 10 4 144 3 true 1 4 0 0), .ldf hd (mf 10 4 144 3 false 3 4 0 0),
   .ldf hd (mf 10 4 144 3 false 1 7 0 0), .stef hd (mf 255 4 144 3 false 2 0 0 0), .stef hd (mf 10 255 144 3 false 2 0 0 0),
   .stef hd (mf 10 4 255 3 false 2 0 0 0), .stef hd (mf 10 4 144 7 false 2 0 0 0), .stef hd (mf 10 4 144 3 true 2 0 0 0),
   .stef hd (mf 10 4 144 3 false 3 0 0 0), .stef hd (mf 10 4 144 3 false 2 7 0 0), .fest hd (mf 255 4 144 3 false 1 0 0 0),
   .fest hd (mf 3 255 144 3 false 1 0 0 0), .fest hd (mf 3 4 255 3 false 1 0 0 0), .fest hd (mf 3 4 144 7 false 1 0 0 0),
   .fest hd (mf 3 4 144 3 false 3 0 0 0), .fest hd (mf 3 4 144 3 false 1 7 0 0), .fest hd (mf 3 4 144 3 false 1 0 3 0),
   .sigadd hd (mf 138 4 12 3 false 0 4 0 0), .sigadd hd (mf 10 255 12 3 false 0 4 0 0), .sigadd hd (mf 10 4 255 3 false 0 4 0 0),
   .sigadd hd (mf 10 4 12 7 false 0 4 0 0), .sigadd hd (mf 10 4 12 3 true 0 4 0 0), .sigadd hd (mf 10 4 12 3 false 0 7 0 0),
   .sigadd hd (mf 10 4 12 3 false 0 4 3 0), .sigadd hd (mf 10 4 12 3 false 0 4 0 0x3fff), .ldfe hd (mf 138 4 144 3 false 1 0 0 0),
   .stf hd (mf 255 4 144 3 false 2 0 0 0)] : List Instr), i.wf = false := by decide +kernel

theorem test_illformed_parties : ∀ i ∈ ([.twpart hd (sf 255 0 0 0), .twpart hd (sf 0 255 0 0), .twpart hd (sf 0 0 0xffff 0), .twpart hd (sf 0 0 0 0xffff), .twstat hd (sf 4 255 0 0),
   .twstat hd (sf 4 0 0xffff 0), .twstat hd (sf 4 0 0 0xffff), .enq hd (sf 3 255 7 0), .enq hd (sf 3 16 0xffff 0), .enq hd (sf 3 16 7 0xffff),
   .enqt hd (sf 255 16 7 0), .enqt hd (sf 3 255 7 0), .enqt hd (sf 3 16 0xffff 0), .enqt hd (sf 3 16 7 0xffff), .spawn hd (sf 255 6 0 0),
   .spawn hd (sf 4 255 0 0), .spawn hd (sf 4 6 0xffff 0), .spawn hd (sf 4 6 0 0xffff), .scopeNew hd (sf 255 0 0 0), .scopeNew hd (sf 4 255 0 0),
   .scopeNew hd (sf 4 0 0xffff 0), .scopeNew hd (sf 4 0 0 0xffff), .cancel hd (sf 4 5 0xffff 0), .cancel hd (sf 4 5 0 0xffff),
   .cancelAck hd (sf 4 255 1 0), .cancelAck hd (sf 4 6 0xffff 0), .cancelAck hd (sf 4 6 1 0xffff), .scinfo hd (sf 255 5 0 0),
   .scinfo hd (sf 4 5 0xffff 0), .scinfo hd (sf 4 5 0 0xffff), .scack hd (sf 4 5 0xffff 0)] : List Instr), i.wf = false := by decide +kernel

theorem test_illformed_system : ∀ i ∈ ([.sread hd (sf 4 255 32 0), .sread hd (sf 4 0 0xffff 0), .sread hd (sf 4 0 32 0xffff), .sreadV hd (sf 255 0 21 1), .sreadV hd (sf 10 255 21 1),
   .sreadV hd (sf 10 0 0xffff 1), .sreadV hd (sf 10 0 21 0xffff), .swrite hd (sf 255 4 33 0), .swrite hd (sf 0 4 0xffff 0),
   .swrite hd (sf 0 4 33 0xffff), .bidw hd (sf 3 255 1 0), .bidw hd (sf 3 4 0xffff 0), .bidw hd (sf 3 4 1 0xffff), .bidr hd (sf 255 0 1 0),
   .bidr hd (sf 4 255 1 0), .bidr hd (sf 4 0 0xffff 0), .bidr hd (sf 4 0 1 0xffff), .priceR hd (sf 255 0 9 0), .priceR hd (sf 4 255 9 0),
   .priceR hd (sf 4 0 0xffff 0), .priceR hd (sf 4 0 9 0xffff), .leaseR hd (sf 255 0 2 1), .leaseR hd (sf 4 255 2 1), .leaseR hd (sf 4 0 0xffff 1),
   .leaseR hd (sf 4 0 2 0xffff), .pcnt hd (sf 255 0 1 0), .pcnt hd (sf 4 255 1 0), .pcnt hd (sf 4 0 0xffff 0), .pcnt hd (sf 4 0 1 0xffff),
   .clockR hd (sf 255 0 0 0), .clockR hd (sf 4 255 0 0), .clockR hd (sf 4 0 0xffff 0), .clockR hd (sf 4 0 0 0xffff)] : List Instr), i.wf = false := by decide +kernel

theorem test_illformed_keys : ∀ i ∈ ([.keyzCtx hd (sf 4 5 0xffff 0), .keyzCtx hd (sf 4 5 1 0xffff), .scrub hd (sf 4 5 0xffff 0), .scrub hd (sf 4 5 0 0xffff), .scrubStat hd (sf 255 0 2 0),
   .scrubStat hd (sf 4 255 2 0), .scrubStat hd (sf 4 0 0xffff 0), .scrubStat hd (sf 4 0 2 0xffff), .sleepUntil hd (sf 255 4 1 0),
   .sleepUntil hd (sf 0 255 1 0), .sleepUntil hd (sf 0 4 0xffff 0), .sleepUntil hd (sf 0 4 1 0xffff), .keyz hd (sf 4 5 0xffff 0),
   .sleep hd (sf 255 0 0 5)] : List Instr), i.wf = false := by decide +kernel

/-! ## Words written from the encoding tables of spec/01 and the rows of each instruction, and the instructions they stand for -/

theorem test_words_control : ∀ p ∈ ([(0xEA02600190000020, .bra ({ y := true, ge := true, gn := true, gp := 5 }) (jf 3 0 200 16)), (0x0005E00800000000, .brx hd (jf 15 4 0 0)),
   (0x0006400D21FFFFE0, .call hd (jf 2 6 144 0xfffff0)), (0x0009E00800000000, .callx hd (jf 15 4 0 0)), (0x000BE00800000000, .ret hd (jf 15 4 0 0)),
   (0x000C600000000000, .joinJ hd (jf 3 0 0 0)), (0x000E040000000000, .jset hd (rf 2 0 0 0 0 0 0 0)),
   (0x0010000000000000, .exitL hd (rf 0 0 0 0 0 0 0 0)),
   (0x8012000000000000, .nop ({ y := true, ge := false, gn := false, gp := 0 }) (rf 0 0 0 0 0 0 0 0)),
   (0x0014000000000000, .yieldE hd (rf 0 0 0 0 0 0 0 0)), (0x0016038800000040, .winb hd (immf 1 196 32 false)),
   (0x001800000000000E, .brk hd (sf 0 0 0 7)), (0x001A000000000012, .trapU hd (sf 0 0 0 9)), (0x001C000000000000, .rtu hd (sf 0 0 0 0)),
   (0x001FE1860E000008, .brs hd (jf 15 195 7 4))] : List (W64 × Instr)), decode p.1 = .ok p.2 := by decide +kernel

theorem test_words_integer : ∀ p ∈ ([(0x002014174A001000, .add hd (rf 10 11 165 0 1 0 0 0)), (0x002214174A001000, .sub hd (rf 10 11 165 0 1 0 0 0)),
   (0x002414174A001000, .mul hd (rf 10 11 165 0 1 0 0 0)), (0x002614174A001000, .mulh hd (rf 10 11 165 0 1 0 0 0)),
   (0x002814174A181000, .mad hd (rf 10 11 165 12 1 0 0 0)), (0x002A14174A001000, .divI hd (rf 10 11 165 0 1 0 0 0)),
   (0x002C14174A001000, .remI hd (rf 10 11 165 0 1 0 0 0)), (0x002E141600001000, .absI hd (rf 10 11 0 0 1 0 0 0)),
   (0x003014174A001000, .minI hd (rf 10 11 165 0 1 0 0 0)), (0x003214174A001000, .maxI hd (rf 10 11 165 0 1 0 0 0)),
   (0x003414174A001000, .andB hd (rf 10 11 165 0 1 0 0 0)), (0x003614174A001000, .orB hd (rf 10 11 165 0 1 0 0 0)),
   (0x003814174A001000, .xorB hd (rf 10 11 165 0 1 0 0 0)), (0x003A14174A001000, .andn hd (rf 10 11 165 0 1 0 0 0)),
   (0x003C14174A001000, .shl hd (rf 10 11 165 0 1 0 0 0)), (0x003E14174A001000, .shr hd (rf 10 11 165 0 1 0 0 0)),
   (0x004014174A001000, .sar hd (rf 10 11 165 0 1 0 0 0)), (0x004214174A001000, .rol hd (rf 10 11 165 0 1 0 0 0)),
   (0x0044141600001000, .popc hd (rf 10 11 0 0 1 0 0 0)), (0x0046141600001000, .clz hd (rf 10 11 0 0 1 0 0 0)),
   (0x0048141600001000, .ctz hd (rf 10 11 0 0 1 0 0 0)), (0x004A141600001000, .brev hd (rf 10 11 0 0 1 0 0 0)),
   (0x004C14174B501000, .bfe hd (rf 10 11 165 168 1 0 0 0)), (0x004E14174B501000, .bfi hd (rf 10 11 165 168 1 0 0 0)),
   (0x0050020406080000, .perm hd (rf 1 2 3 4 0 0 0 0))] : List (W64 × Instr)), decode p.1 = .ok p.2 := by decide +kernel

theorem test_words_moves : ∀ p ∈ ([(0x0052020406081000, .sel hd (rf 1 2 3 4 1 0 0 0)), (0x0054060580001200, .cmp hd (rf 3 2 192 0 1 2 0 0)),
   (0x0056141600001000, .mov hd (rf 10 11 0 0 1 0 0 0)), (0x00581201BD5B7DDE, .movi hd (immf 9 0 0xdeadbeef false)),
   (0x005A1013FFFFFFFE, .addi hd (immf 8 9 0xffffffff false)), (0x005C101418002300, .lea hd (rf 8 10 12 0 2 3 0 0)),
   (0x005E078200000000, .movrGet hd (rf 3 193 0 0 0 0 0 0)), (0x005E000782000100, .movrPut hd (rf 0 3 193 0 0 1 0 0))] : List (W64 × Instr)), decode p.1 = .ok p.2 := by decide +kernel

theorem test_words_uniform : ∀ p ∈ ([(0x0060080A0C001000, .salu hd (rf 4 5 6 0 1 0 0 0)), (0x0062080A0C001100, .scmp hd (rf 4 5 6 0 1 1 0 0)),
   (0x006408002468ACF0, .smovi hd (immf 4 0 0x12345678 false)), (0x0066080A00000000, .smov hd (rf 4 5 0 0 0 0 0 0)),
   (0x0068080A06000100, .sfrom hd (rf 4 5 3 0 0 1 0 0)), (0x006A080A0C0E0000, .ssel hd (rf 4 5 6 7 0 0 0 0)),
   (0x006C080C10002200, .slea hd (rf 4 6 8 0 2 2 0 0)), (0x00700204060881AA, .plop hd (rf 1 2 3 4 8 1 2 42)),
   (0x0072039200000000, .pfrom hd (rf 1 201 0 0 0 0 0 0)), (0x0074060200000000, .pto hd (rf 3 1 0 0 0 0 0 0)),
   (0x0076060200002000, .pcntPred hd (rf 3 1 0 0 2 0 0 0))] : List (W64 × Instr)), decode p.1 = .ok p.2 := by decide +kernel

theorem test_words_floats : ∀ p ∈ ([(0x0080141618008000, .fadd hd (rf 10 11 12 0 8 0 0 0)), (0x0082141618008000, .fsub hd (rf 10 11 12 0 8 0 0 0)),
   (0x0084141618008000, .fmul hd (rf 10 11 12 0 8 0 0 0)), (0x00861416181A8000, .ffma hd (rf 10 11 12 13 8 0 0 0)),
   (0x0088141618008000, .fmin hd (rf 10 11 12 0 8 0 0 0)), (0x008A141618008000, .fmax hd (rf 10 11 12 0 8 0 0 0)),
   (0x008C041618008100, .fcmp hd (rf 2 11 12 0 8 1 0 0)), (0x008E041780008000, .fclass hd (rf 2 11 192 0 8 0 0 0)),
   (0x0090141618008000, .fdiv hd (rf 10 11 12 0 8 0 0 0)), (0x0092141600008000, .fsqrt hd (rf 10 11 0 0 8 0 0 0)),
   (0x0094141600008000, .frcp hd (rf 10 11 0 0 8 0 0 0)), (0x0096141600008000, .frsq hd (rf 10 11 0 0 8 0 0 0)),
   (0x0098141600008000, .fex2 hd (rf 10 11 0 0 8 0 0 0)), (0x009A141600008000, .flg2 hd (rf 10 11 0 0 8 0 0 0)),
   (0x009C141600008000, .fsinp hd (rf 10 11 0 0 8 0 0 0)), (0x009E141600008000, .fcosp hd (rf 10 11 0 0 8 0 0 0)),
   (0x00A0141600008000, .ftanh hd (rf 10 11 0 0 8 0 0 0)), (0x00A2141600008000, .frint hd (rf 10 11 0 0 8 0 0 0)),
   (0x00A4141618008000, .fscal hd (rf 10 11 12 0 8 0 0 0)), (0x00A61416181AC000, .fdot2 hd (rf 10 11 12 13 12 0 0 0)),
   (0x00A81416181A8000, .fclamp hd (rf 10 11 12 13 8 0 0 0)), (0x00AA141600008000, .fsig hd (rf 10 11 0 0 8 0 0 0)),
   (0x00C0141600028000, .cvt hd (rf 10 11 0 1 8 0 0 0)), (0x00C2141600008000, .cvl6 hd (rf 10 11 0 0 8 0 0 0)),
   (0x00C4142000008000, .pk6 hd (rf 10 16 0 0 8 0 0 0)), (0x00C6402000008000, .upk6 hd (rf 32 16 0 0 8 0 0 0)),
   (0x00C8141600008000, .bsclFind hd (rf 10 11 0 0 8 0 0 0)), (0x00C8141618008100, .bsclApply hd (rf 10 11 12 0 8 1 0 0)),
   (0x00CA14161800E000, .lmul hd (rf 10 11 12 0 14 0 0 0))] : List (W64 × Instr)), decode p.1 = .ok p.2 := by decide +kernel

theorem test_words_lanes : ∀ p ∈ ([(0x00E01417437E0000, .shfl hd (rf 10 11 161 191 0 0 0 0)), (0x00E21417437E0000, .shfx hd (rf 10 11 161 191 0 0 0 0)),
   (0x00E41417437E0000, .shfd hd (rf 10 11 161 191 0 0 0 0)), (0x00E61416017E0000, .qswp hd (rf 10 11 0 191 0 0 0 0)),
   (0x00E81417457E0000, .qbc hd (rf 10 11 162 191 0 0 0 0)), (0x00EA0406017E0100, .vote hd (rf 2 3 0 191 0 1 0 0)),
   (0x00EC1416018A1000, .wred hd (rf 10 11 0 197 1 0 0 0)), (0x00EE1416017E1000, .wscan hd (rf 10 11 0 191 1 0 0 0)),
   (0x00F01416017E0000, .matchLanes hd (rf 10 11 0 191 0 0 0 0)), (0x00F21400017E0100, .firstL hd (rf 10 0 0 191 0 1 0 0))] : List (W64 × Instr)), decode p.1 = .ok p.2 := by decide +kernel

theorem test_words_memory : ∀ p ∈ ([(0x0100140920800008, .ld hd (mf 10 4 144 2 false 0 0 0 8)), (0x0102140920943FF8, .st hd (mf 10 4 144 2 false 2 4 0 0x3ff8)),
   (0x0104198921000000, .ldv hd (mf 12 196 144 4 false 0 0 0 0)), (0x0106198921000000, .stv hd (mf 12 196 144 4 false 0 0 0 0)),
   (0x0109918920C00000, .sld hd (mf 200 196 144 3 false 0 0 0 0)), (0x010B918920C00000, .sst hd (mf 200 196 144 3 false 0 0 0 0)),
   (0x010C140818840000, .atom hd (mf 10 4 12 2 false 0 4 0 0)), (0x010E140818840000, .acas hd (mf 10 4 12 2 false 0 4 0 0)),
   (0x0110000000D80000, .fence hd (sf 0 0 108 0)), (0x0112141800000000, .sptest hd (rf 10 12 0 0 0 0 0 0)),
   (0x0114141800000100, .spcast hd (rf 10 12 0 0 0 1 0 0))] : List (W64 × Instr)), decode p.1 = .ok p.2 := by decide +kernel

theorem test_words_lines : ∀ p ∈ ([(0x0116000920000000, .pref hd (mf 0 4 144 0 false 0 0 0 0)), (0x0118000920000000, .cwb hd (mf 0 4 144 0 false 0 0 0 0)),
   (0x011A000920000000, .cinv hd (mf 0 4 144 0 false 0 0 0 0)), (0x0140002000000000, .cpy hd (sf 0 16 0 0)),
   (0x0142002000000000, .cpyt hd (sf 0 16 0 0)), (0x0144002000000000, .cpyg hd (sf 0 16 0 0)),
   (0x0146140982800000, .wtge hd (mf 10 4 193 2 false 0 0 0 0)), (0x0148140982800000, .wteq hd (mf 10 4 193 2 false 0 0 0 0)),
   (0x014A060982800000, .poll hd (mf 3 4 193 2 false 0 0 0 0))] : List (W64 × Instr)), decode p.1 = .ok p.2 := by decide +kernel

theorem test_words_matrix : ∀ p ∈ ([(0x0160202041FE4000, .mma hd (xf 1 0 16 32 255 1 0 false false 0)), (0x0162202041FE0000, .mmat hd (xf 1 0 16 32 255 0 0 false false 0)),
   (0x0164400000000000, .mzero hd (xf 2 0 0 0 0 0 0 false false 0)), (0x0166200000000003, .mdrain hd (xf 1 0 0 0 0 0 0 false false 3)),
   (0x0168202000000000, .mdrag hd (xf 1 0 16 0 0 0 0 false false 0)), (0x016A002000000000, .mpop hd (xf 0 0 16 0 0 0 0 false false 0)),
   (0x016C202000000004, .mpush hd (xf 1 0 16 0 0 0 0 false false 4)), (0x016E000000000000, .mtake hd (xf 0 0 0 0 0 0 0 false false 0)),
   (0x0170000000000000, .mgive hd (xf 0 0 0 0 0 0 0 false false 0)), (0x0172002000000000, .mstat hd (xf 0 0 16 0 0 0 0 false false 0))] : List (W64 × Instr)), decode p.1 = .ok p.2 := by decide +kernel

theorem test_words_barriers : ∀ p ∈ ([(0x0180000000060000, .bar hd (sf 0 0 3 0)), (0x0180000000460004, .barSet hd (sf 0 0 35 2)), (0x0182080000060000, .bara hd (sf 4 0 3 0)),
   (0x0182000A00260000, .baraWait hd (sf 0 5 19 0)), (0x01820C0800400000, .baraRem hd (sf 6 4 32 0)),
   (0x0182080000660000, .baraHdl hd (sf 4 0 51 0)), (0x0184020000040000, .gbar hd (sf 1 0 2 0))] : List (W64 × Instr)), decode p.1 = .ok p.2 := by decide +kernel

theorem test_words_fullEmpty : ∀ p ∈ ([(0x0186140920CC0000, .ldf hd (mf 10 4 144 3 false 1 4 0 0)), (0x0188140920C80000, .ldfe hd (mf 10 4 144 3 false 1 0 0 0)),
   (0x018A140920D00000, .stef hd (mf 10 4 144 3 false 2 0 0 0)), (0x018C140920D00000, .stf hd (mf 10 4 144 3 false 2 0 0 0)),
   (0x018E060920C80000, .fest hd (mf 3 4 144 3 false 1 0 0 0)), (0x0190140818C40000, .sigadd hd (mf 10 4 12 3 false 0 4 0 0))] : List (W64 × Instr)), decode p.1 = .ok p.2 := by decide +kernel

theorem test_words_parties : ∀ p ∈ ([(0x0192000000000000, .twpart hd (sf 0 0 0 0)), (0x0194080000000000, .twstat hd (sf 4 0 0 0)), (0x01A00620000E0000, .enq hd (sf 3 16 7 0)),
   (0x01A20620000E0000, .enqt hd (sf 3 16 7 0)), (0x01A4080C00000000, .spawn hd (sf 4 6 0 0)), (0x01A6080000000000, .scopeNew hd (sf 4 0 0 0)),
   (0x01A8080A00000000, .cancel hd (sf 4 5 0 0)), (0x01A8080C00020000, .cancelAck hd (sf 4 6 1 0)), (0x01AA080A00000000, .scack hd (sf 4 5 0 0)),
   (0x01AC080A00000000, .scinfo hd (sf 4 5 0 0))] : List (W64 × Instr)), decode p.1 = .ok p.2 := by decide +kernel

theorem test_words_system : ∀ p ∈ ([(0x01C0080000400000, .sread hd (sf 4 0 32 0)), (0x01C01400002A0002, .sreadV hd (sf 10 0 21 1)), (0x01C2000800420000, .swrite hd (sf 0 4 33 0)),
   (0x01C4060800020000, .bidw hd (sf 3 4 1 0)), (0x01C6080000020000, .bidr hd (sf 4 0 1 0)), (0x01C8080000120000, .priceR hd (sf 4 0 9 0)),
   (0x01CA080000040002, .leaseR hd (sf 4 0 2 1)), (0x01CC080000020000, .pcnt hd (sf 4 0 1 0)), (0x01CE080000000000, .clockR hd (sf 4 0 0 0))] : List (W64 × Instr)), decode p.1 = .ok p.2 := by decide +kernel

theorem test_words_keys : ∀ p ∈ ([(0x01D0080A00000000, .keyz hd (sf 4 5 0 0)), (0x01D0080A00020000, .keyzCtx hd (sf 4 5 1 0)), (0x01D2080A00000000, .scrub hd (sf 4 5 0 0)),
   (0x01D2080000040000, .scrubStat hd (sf 4 0 2 0)), (0x01D400000000000A, .sleep hd (sf 0 0 0 5)), (0x01D4000800020000, .sleepUntil hd (sf 0 4 1 0))] : List (W64 × Instr)), decode p.1 = .ok p.2 := by decide +kernel

/-! ## Other refusals of the decoder (R42), and events out of range -/

theorem test_reserved_opcode : decode 0x0000000000000000 = .error .reservedOpcode := by decide +kernel
theorem test_guard_without_ge : decode 0x2012000000000000 = .error .guardFields := by decide +kernel
theorem test_reserved_pad : decode 0x0140000000000001 = .error .reservedField := by decide +kernel

theorem test_illformed_events : ∀ i ∈ ([.doorbellWrite 256 0 8 0, .doorbellRead 0 0x1000000 8, .qcbWrite 0 0x40000 8 0, .enable 0 4096, .disable 256 0,
    .queueResume 0 4096, .queueRelease 0 4096, .packetConsume 4096, .barrierPass 4096, .dispatchPlace 60, .clusterReserve 4096] : List Instr), i.wf = false := by
  decide +kernel
theorem test_illformed_port : (Instr.linkTraining 18 [1] 0).wf = false ∧ (Instr.laneWithdraw 72).wf = false ∧ (Instr.kmatWrite 0 512 0 8 0).wf = false ∧
    (Instr.kstatWrite 0 0 8 8 0).wf = false ∧ (Instr.create 0 1024).wf = false ∧ (Instr.reset 256 0).wf = false ∧ (Instr.podidx 256 0).wf = false ∧
    (Instr.corePowerGate 240).wf = false ∧ (Instr.coreWake 240).wf = false := by decide +kernel

/-! ## A small state: one resident wave of the manager with one READY entry of 32 lanes, which issues -/

def entry0 : EntryRef := { gid := 0, wi := 0, slot := 0 }
def start : State := { State.reset.withFetchWord 64 0 with cur := some entry0, agenda := [] }

/-- The state with its wave changed, with its entry changed, and with its group changed. -/
def onWave (s : State) (f : Wave → Wave) : State := s.modWave 0 0 f
def onEntry (s : State) (f : Entry → Entry) : State := s.modWave 0 0 fun w => { w with entries := setAt 0 (w.entries[0]?.join.map f) w.entries }
def onGroup (s : State) (f : Group → Group) : State := s.modGroup 0 f

theorem find_issue {s : State} {P : Issue → Prop} [DecidablePred P] (h : (s.issuer?.elim false fun x => decide (P x)) = true) :
    ∃ x, s.issuer? = some x ∧ P x := by
  cases hx : s.issuer? with
  | none => rw [hx] at h; cases h
  | some x => rw [hx] at h; exact ⟨x, rfl, of_decide_eq_true h⟩

/-- A header with a guard whose predicate holds nowhere. -/
def never : Hdr := { y := false, ge := true, gn := false, gp := 0 }

/-- An issue whose wave has one entry, in frontier place 0. -/
def Alone (x : Issue) : Prop := x.ref.slot = 0 ∧ x.w.entries.drop 1 = List.replicate 7 none

theorem alone_none {x : Issue} (h : Alone x) {i : Nat} (hi : i ≠ 0) : x.w.entry? i = none := by
  obtain ⟨_, hd⟩ := h
  cases i with
  | zero => exact absurd rfl hi
  | succ i =>
    have h2 : x.w.entries[i + 1]? = (List.replicate 7 none : List (Option Entry))[i]? := by rw [← hd, List.getElem?_drop, Nat.add_comm]
    simp only [Wave.entry?, h2, List.getElem?_replicate]
    split <;> rfl

theorem alone_calm {x : Issue} (h : Alone x) (hm : x.e.mask ≠ 0) (hs : x.w.spill = List.replicate 8 none ∧ x.w.faults = []) : Calm x := by
  refine ⟨by rw [h.1]; decide, hm, fun i e hi he => ?_, fun p hp => ?_, by rw [hs.2]; nofun⟩
  · rw [h.1] at hi; rw [alone_none h hi] at he; cases he
  · rw [hs.1] at hp; exact List.eq_of_mem_replicate hp

theorem alone_all {s : State} {x : Issue} (h : Alone x) {m : Mask} (hm : m &&& x.w.live &&& ~~~x.e.mask = 0)
    (hp : s.protectedRegs { gid := x.ref.gid, wi := x.ref.wi } = []) : AllHere s x m := by
  refine ⟨by rw [h.1]; decide, hm, fun j e hj he => ?_, hp⟩
  rw [h.1] at hj; rw [alone_none h hj] at he; cases he

/-- Nothing that the wave reads is poisoned, pending or older than the last write. -/
def cleanB (x : Issue) : Bool := decide (x.w.pend = [] ∧ x.w.poison = [] ∧ x.w.lpoison = [] ∧ x.g.spoison = [] ∧ x.g.unseen = [])

theorem clean_of {x : Issue} (h : cleanB x = true) : Clean x := by
  obtain ⟨h1, h2, h3, h4, h5⟩ := of_decide_eq_true h
  exact ⟨h1, h2, h3, h4, by rw [h5]; nofun⟩

/-- No access of another device's memory is under way, and no other entry waits at a full/empty word. -/
def quietB (s : State) (x : Issue) : Bool :=
  decide (x.e.remote = [] ∧ s.mgmt.rcache = []) &&
  (List.range x.w.entries.length).all fun j => decide (j = x.ref.slot) || (x.w.entry? j).all fun e => decide (e.st ≠ .wait .fe)

theorem quiet_of {s : State} {x : Issue} (h : quietB s x = true) : Quiet s x := by
  simp only [quietB, Bool.and_eq_true, decide_eq_true_eq, List.all_eq_true, List.mem_range, Bool.or_eq_true] at h
  refine ⟨h.1.1, h.1.2, fun j e hj he hst => ?_⟩
  have hl : j < x.w.entries.length := by
    by_contra hn
    simp [Wave.entry?, List.getElem?_eq_none (Nat.le_of_not_lt hn)] at he
  rcases h.2 j hl with h1 | h1
  · exact absurd h1 hj
  · rw [he] at h1; simp [hst] at h1

theorem lane_lt {m : Mask} {l : Nat} (h : m.getLsbD l = true) : l < 32 := BitVec.lt_of_getLsbD h

/-- What most witnesses share. -/
theorem witness_issue {s : State} {P : Issue → Prop} [DecidablePred P]
    (h : (s.issuer?.elim false fun x => decide (x.e.insn = none ∧ cleanB x = true ∧ P x)) = true) :
    ∃ x, Issues s x ∧ Clean x ∧ P x := by
  obtain ⟨x, hx, h⟩ := find_issue h
  exact ⟨x, ⟨hx, h.1⟩, clean_of h.2.1, h.2.2⟩

/-! ## Witnesses: the hypotheses of each statement are met, clause by clause -/

theorem witness_IntegerResults : (∃ x, Issues start x ∧ Clean x ∧ execMask hd x.w x.e = 0xFFFFFFFF) ∧ (rf 1 2 3 0 1 0 0 32).md.getLsbD 5 = true :=
  ⟨witness_issue (by decide +kernel), by decide⟩
theorem witness_BitResults : ∃ x, Issues start x ∧ Clean x ∧ execMask never x.w x.e = 0 := witness_issue (by decide +kernel)

/-- Index registers with a last register, the last operand register, the first index beyond each, and an odd one of a pair. -/
def indexed : State := onGroup start fun g => { g with sregs := [(1, 1023), (2, 2055), (3, 1024), (4, 2056), (5, 7)] }
theorem witness_MoveResults : ∃ x, Issues indexed x ∧ Clean x ∧ execMask hd x.w x.e &&& x.w.real ≠ 0 ∧
    IndexNames x.w false (sget 0 x.g.sregs 1).toNat ∧ IndexNames x.w false (sget 0 x.g.sregs 2).toNat ∧
    ¬ IndexNames x.w false (sget 0 x.g.sregs 3).toNat ∧ ¬ IndexNames x.w false (sget 0 x.g.sregs 4).toNat ∧
    ¬ IndexNames x.w true (sget 0 x.g.sregs 5).toNat := by
  unfold IndexNames
  exact witness_issue (by decide +kernel)

theorem witness_PredicateResult : ∃ x, Issues start x ∧ Clean x ∧ Untrapped x := by unfold Untrapped; exact witness_issue (by decide +kernel)
theorem witness_FloatResults : (∃ x, Issues start x ∧ Clean x ∧ Untrapped x) ∧ tyPacked (WF.ty (rf 10 11 12 13 12 0 0 0)) = true ∧
    tyPacked (WF.ty (rf 10 11 0 1 8 0 0 0)) = false := ⟨witness_PredicateResult, by decide, by decide⟩
theorem witness_LongFloatPending : ∃ x, Issues start x ∧ Clean x ∧ Untrapped x := witness_PredicateResult
theorem witness_L6Results : (∃ x, Issues start x ∧ Clean x ∧ (rf 10 11 0 0 8 0 0 0).fn ≠ 1 ∧ (rf 10 11 0 0 8 1 0 0).fn = 1) ∧
    (∃ a b : Nat, a < 64 ∧ b < 64 ∧ a ≠ 32 ∧ b ≠ 32 ∧ a ≠ 0 ∧ b ≠ 0) ∧ l6Mag 31 ≤ absVal 1 60 ∧ absVal 0 0 < l6Mag 31 :=
  ⟨witness_issue (by decide +kernel), ⟨63, 1, by decide⟩, by norm_num [l6Mag, l6Value, absVal, Int.toNat], by norm_num [l6Mag, l6Value, absVal, Int.toNat]⟩
theorem witness_UniformInstructions : (rf 4 5 6 0 1 12 0 0).fn.toNat ≤ 12 ∧ tyPacked (WF.ty (rf 4 5 6 0 1 12 0 0)) = false ∧
    ∃ x, Issues start x ∧ Clean x ∧ Acts x hd ∧ ¬ Acts x never := by
  unfold Acts
  exact ⟨by decide, by decide, witness_issue (by decide +kernel)⟩
theorem witness_ExchangeResults : ∃ x, Issues start x ∧ Clean x ∧ execMask hd x.w x.e ≠ 0 ∧ AllHere start x (memberOf x 0xBF) ∧ Untrapped x := by
  obtain ⟨x, hx, hc, h1, h2, h3, h4, h5⟩ := witness_issue (s := start) (P := fun x => execMask hd x.w x.e ≠ 0 ∧
    (x.ref.slot = 0 ∧ x.w.entries.drop 1 = List.replicate 7 none) ∧ memberOf x 0xBF &&& x.w.live &&& ~~~x.e.mask = 0 ∧
    start.protectedRegs { gid := x.ref.gid, wi := x.ref.wi } = [] ∧ x.w.fpctl.toNat % 32 = 0)
    (by decide +kernel)
  exact ⟨x, hx, hc, h1, alone_all h2 h3 h4, h5⟩

/-! ## Memory: the places that a lane's accesses reach -/

/-- The places of an access, none where a check fails. -/
def sitesOf (s : State) (x : Issue) (i : Instr) (op : LaneOp) : Sites :=
  match laneSites s (x.party op.lane) i op with
  | .ok as => as.flatMap fun a => a.2
  | .error _ => []

def reachB (s : State) (x : Issue) (i : Instr) (op : LaneOp) : Bool :=
  (match laneSites s (x.party op.lane) i op with
    | .ok _ => true
    | .error _ => false) &&
  (sitesOf s x i op).all fun t => match t.1 with
    | .dev pa _ _ _ => decide (pa % 32 + t.2 ≤ 32) && s.mem.lost.isEmpty
    | .host ba _ _ => decide (ba % 32 + t.2 ≤ 32) && decide (s.host.failing = none)
    | .remote .. => false
    | .scratch g _ => (s.group? g).isSome

theorem reaches_of {s : State} {x : Issue} {i : Instr} {op : LaneOp} (h : reachB s x i op = true) : Reaches s x i op (sitesOf s x i op) := by
  unfold reachB at h
  simp only [Bool.and_eq_true, List.all_eq_true] at h
  obtain ⟨h1, h2⟩ := h
  refine ⟨?_, fun t ht => ?_, fun t ht => ?_⟩
  · unfold sitesOf
    split at h1
    · next as e => exact ⟨as, e, rfl⟩
    · cases h1
  · have := h2 t ht
    obtain ⟨t, n⟩ := t
    cases t <;> simp_all
  · have := h2 t ht
    obtain ⟨t, n⟩ := t
    cases t <;> simp_all [Lies]

/-- Every lane of the mask reaches its places. -/
def reachAll (s : State) (x : Issue) (i : Instr) (m : Mask) (op : Nat → LaneOp) : Bool :=
  (List.range 32).all fun l => !m.getLsbD l || reachB s x i (op l)

theorem all_reach {s : State} {x : Issue} {i : Instr} {m : Mask} {op : Nat → LaneOp} (h : reachAll s x i m op = true) :
    AllReach s x i m op fun l => sitesOf s x i (op l) := fun l hl => by
  have := List.all_eq_true.mp h l (List.mem_range.mpr (lane_lt hl))
  rw [hl] at this
  exact reaches_of (by simpa using this)

def soundAll (s : State) (m : Mask) (ts : Nat → Sites) : Bool :=
  (List.range 32).all fun l => !m.getLsbD l || (ts l).all fun t => !s.poisonedAt t.1 t.2

theorem sound_sites {s : State} {m : Mask} {ts : Nat → Sites} (h : soundAll s m ts = true) : SoundSites s m ts := fun l hl t ht => by
  have := List.all_eq_true.mp h l (List.mem_range.mpr (lane_lt hl))
  have h2 : (ts l).all (fun t => !s.poisonedAt t.1 t.2) = true := by rw [hl] at this; exact this
  simpa using List.all_eq_true.mp h2 t ht

/-- The address of a word in the sector of the code, in s4:s5 and in v4:v5 of every lane; lanes 0 and 31 in the entry. -/
def addressed : State := onWave (onGroup (onEntry start fun e => { e with mask := 0x80000001 }) fun g => { g with sregs := [(4, 0x10008)] }) fun w =>
  { w with regs := (List.range 32).map fun l => (regKey 4 l, 0x10008) }

def ldF : MF := mf 10 0xC4 0x90 2 false 0 0 0 0
def blockF : MF := mf 12 0xC4 0x90 4 false 0 0 0 0x100
def vecF : MF := mf 10 4 0xA0 2 false 0 0 0 0

theorem witness_LoadResult : (∃ x ts, Issues addressed x ∧ Clean x ∧ Quiet addressed x ∧
      AllReach addressed x (.ld hd ldF) (execMask hd x.w x.e) (loadOp addressed ldF x) ts ∧ execMask hd x.w x.e = 0x80000001) ∧
    (∃ x ts, Issues addressed x ∧ Clean x ∧ Quiet addressed x ∧ AllReach addressed x (.ldv hd blockF) (execMask hd x.w x.e)
      (fun l => { lane := l, accs := blockAccs addressed x blockF l, data := [], cmp := [], dst := dstKey x blockF.d l }) ts) ∧
    ∃ x ts, Issues addressed x ∧ Clean x ∧ Quiet addressed x ∧ Acts x hd ∧ Reaches addressed x (.sld hd (mf 0xC8 0xC4 0x90 3 false 0 0 0 0))
      { lane := 0, accs := [((readSrc addressed x .n64 0xC4 0).val + mfOffset (mf 0xC8 0xC4 0x90 3 false 0 0 0 0) false, 8)]
        data := dataBytes 3 [], cmp := [], dst := some (sBase + 8) } ts := by
  unfold Acts
  refine ⟨?_, ?_, ?_⟩
  · obtain ⟨x, h1, h2, h3, h4, h5⟩ := witness_issue (s := addressed) (P := fun x => quietB addressed x = true ∧
      reachAll addressed x (.ld hd ldF) (execMask hd x.w x.e) (loadOp addressed ldF x) = true ∧
      execMask hd x.w x.e = 0x80000001) (by decide +kernel)
    exact ⟨x, _, h1, h2, quiet_of h3, all_reach h4, h5⟩
  · obtain ⟨x, h1, h2, h3, h4⟩ := witness_issue (s := addressed) (P := fun x => quietB addressed x = true ∧
      reachAll addressed x (.ldv hd blockF) (execMask hd x.w x.e)
        (fun l => { lane := l, accs := blockAccs addressed x blockF l, data := [], cmp := [], dst := dstKey x blockF.d l }) = true) (by decide +kernel)
    exact ⟨x, _, h1, h2, quiet_of h3, all_reach (op := fun l => { lane := l, accs := blockAccs addressed x blockF l, data := [], cmp := [], dst := dstKey x blockF.d l }) h4⟩
  · obtain ⟨x, h1, h2, h3, h4, h5⟩ := witness_issue (s := addressed) (P := fun x => quietB addressed x = true ∧
      execMask hd x.w x.e &&& x.w.real ≠ 0 ∧ reachB addressed x (.sld hd (mf 0xC8 0xC4 0x90 3 false 0 0 0 0))
      { lane := 0, accs := [((readSrc addressed x .n64 0xC4 0).val + mfOffset (mf 0xC8 0xC4 0x90 3 false 0 0 0 0) false, 8)]
        data := dataBytes 3 [], cmp := [], dst := some (sBase + 8) } = true) (by decide +kernel)
    exact ⟨x, _, h1, h2, quiet_of h3, h4, reaches_of h5⟩

/-- What most memory witnesses share. -/
theorem witness_reach {s : State} {i : Instr} {op : Issue → Nat → LaneOp} {P : Issue → (Nat → Sites) → Prop}
    [∀ x ts, Decidable (P x ts)] (h : (s.issuer?.elim false fun x => decide (x.e.insn = none ∧ cleanB x = true ∧ quietB s x = true ∧ reachAll s x i (execMask hd x.w x.e) (op x) = true ∧
      soundAll s (execMask hd x.w x.e) (fun l => sitesOf s x i (op x l)) = true ∧ P x fun l => sitesOf s x i (op x l))) = true) :
    ∃ x ts, Issues s x ∧ Clean x ∧ Quiet s x ∧ AllReach s x i (execMask hd x.w x.e) (op x) ts ∧ SoundSites s (execMask hd x.w x.e) ts ∧ P x ts := by
  obtain ⟨x, hx, h1, h2, h3, h4, h5, h⟩ := find_issue h
  exact ⟨x, _, ⟨hx, h1⟩, clean_of h2, quiet_of h3, all_reach h4, sound_sites h5, h⟩

def BothEnds (x : Issue) : Prop := execMask hd x.w x.e = 0x80000001

def stF : MF := mf 3 4 0xA0 2 false 0 0 0 8
def stvF : MF := mf 4 0xC4 0x90 4 false 0 0 0 8
def sstF : MF := mf 0xC8 0xC4 0x90 4 false 0 0 0 8
theorem witness_StoreResult :
    (∃ x ts, Issues addressed x ∧ Clean x ∧ Quiet addressed x ∧ AllReach addressed x (.st hd stF) (execMask hd x.w x.e) (storeOp addressed stF x) ts ∧
      SoundSites addressed (execMask hd x.w x.e) ts ∧ BothEnds x) ∧
    (∃ x ts, Issues addressed x ∧ Clean x ∧ Quiet addressed x ∧ AllReach addressed x (.stv hd stvF) (execMask hd x.w x.e)
      (fun l => { lane := l, accs := blockAccs addressed x stvF l, data := (blockSrc addressed x stvF.d (mfSize stvF / 4) l).flatMap fun r => bytesOfNat 4 r.val.toNat, cmp := [], dst := none }) ts ∧
      SoundSites addressed (execMask hd x.w x.e) ts ∧ BothEnds x) ∧
    ∃ x ts, Issues addressed x ∧ Clean x ∧ Quiet addressed x ∧ Acts x hd ∧ Reaches addressed x (.sst hd sstF)
      { lane := 0, accs := [((readSrc addressed x .n64 sstF.a 0).val + mfOffset sstF false, mfSize sstF)]
        data := dataBytes sstF.sz.toNat (sstData addressed sstF x), cmp := [], dst := none } ts := by
  unfold BothEnds
  refine ⟨witness_reach (by decide +kernel), witness_reach (by decide +kernel), ?_⟩
  unfold Acts
  obtain ⟨x, h1, h2, h3, h4, h5⟩ := witness_issue (s := addressed) (P := fun x => quietB addressed x = true ∧
    execMask hd x.w x.e &&& x.w.real ≠ 0 ∧ reachB addressed x (.sst hd sstF)
      { lane := 0, accs := [((readSrc addressed x .n64 sstF.a 0).val + mfOffset sstF false, mfSize sstF)]
        data := dataBytes sstF.sz.toNat (sstData addressed sstF x), cmp := [], dst := none } = true) (by decide +kernel)
  exact ⟨x, _, h1, h2, quiet_of h3, h4, reaches_of h5⟩

def atomF : MF := mf 10 4 6 3 false 0 0 0 0
def acasF : MF := mf 10 4 6 4 false 0 0 0 8
def atomOp (s : State) (f : MF) (x : Issue) (l : Nat) : LaneOp :=
  { lane := l, accs := oneAcc s x f true l, data := bytesOfNat (mfSize f) (readSrc s x (atomTy f) f.b l).val.toNat, cmp := [], dst := dstKey x f.d l }

theorem witness_AtomicResult :
    (∃ x ts, Issues addressed x ∧ Clean x ∧ Quiet addressed x ∧ AllReach addressed x (.atom hd atomF) (execMask hd x.w x.e) (atomOp addressed atomF x) ts ∧
      SoundSites addressed (execMask hd x.w x.e) ts ∧ BothEnds x) ∧
    (∃ x ts, Issues addressed x ∧ Clean x ∧ Quiet addressed x ∧ AllReach addressed x (.acas hd acasF) (execMask hd x.w x.e)
      (fun l => let bs := (acasBlock addressed acasF x l).flatMap fun r => bytesOfNat 4 r.val.toNat
        { lane := l, accs := oneAcc addressed x acasF false l, data := bs.drop (mfSize acasF), cmp := bs.take (mfSize acasF), dst := dstKey x acasF.d l }) ts ∧
      SoundSites addressed (execMask hd x.w x.e) ts ∧ BothEnds x) ∧
    (∃ x ts, Issues addressed x ∧ Clean x ∧ Quiet addressed x ∧ AllReach addressed x (.sigadd hd atomF) (execMask hd x.w x.e)
      (fun l => { lane := l, accs := oneAcc addressed x atomF true l, data := bytesOfNat 8 (readSrc addressed x .n64 atomF.b l).val.toNat, cmp := []
                  dst := dstKey x atomF.d l }) ts ∧ SoundSites addressed (execMask hd x.w x.e) ts ∧ BothEnds x) ∧ atomF.sz = 3 := by
  unfold BothEnds
  exact ⟨witness_reach (by decide +kernel), witness_reach (by decide +kernel), witness_reach (by decide +kernel), rfl⟩

theorem witness_BytesKeptByStores : (∃ bs : List Byte, bs ≠ [] ∧ (0x20001F % 32 + bs.length ≤ 32)) ∧
    (∃ bs : List Byte, bs ≠ [] ∧ (0x200000 % 32 + bs.length = 32)) ∧
    (∃ x ts, Issues addressed x ∧ Clean x ∧ Quiet addressed x ∧ AllReach addressed x (.st hd stF) (execMask hd x.w x.e) (storeOp addressed stF x) ts ∧
      SoundSites addressed (execMask hd x.w x.e) ts ∧ BothEnds x) ∧
    (∃ x ts, Issues addressed x ∧ Clean x ∧ Quiet addressed x ∧ AllReach addressed x (.stv hd stvF) (execMask hd x.w x.e)
      (fun l => { lane := l, accs := blockAccs addressed x stvF l, data := (blockSrc addressed x stvF.d (mfSize stvF / 4) l).flatMap fun r => bytesOfNat 4 r.val.toNat, cmp := [], dst := none }) ts ∧
      SoundSites addressed (execMask hd x.w x.e) ts ∧ BothEnds x) ∧
    ∃ x ts, Issues addressed x ∧ Clean x ∧ Quiet addressed x ∧ AllReach addressed x (.atom hd atomF) (execMask hd x.w x.e) (atomOp addressed atomF x) ts ∧
      SoundSites addressed (execMask hd x.w x.e) ts ∧ BothEnds x :=
  ⟨⟨[1], by decide⟩, ⟨List.replicate 32 1, by decide⟩, witness_StoreResult.1, witness_StoreResult.2.1, witness_AtomicResult.1⟩

/-- The state where the placed entry stands with an instruction. -/
def standing (s : State) (st : EntrySt) (i : Instr) : State := onEntry s fun e => { e with st := st, insn := some i, exec := e.mask }

theorem witness_stands {s : State} {st : EntrySt} {i : Instr} {P : Issue → Prop} [DecidablePred P]
    (h : ((s.issueOf entry0).elim false fun x => decide (x.e.st = st ∧ x.e.insn = some i ∧ cleanB x = true ∧ P x)) = true) :
    ∃ x, Stands s entry0 x st i ∧ Clean x ∧ P x := by
  cases hx : s.issueOf entry0 with
  | none => rw [hx] at h; cases h
  | some x =>
    rw [hx] at h
    obtain ⟨h1, h2, h3, h4⟩ := of_decide_eq_true h
    exact ⟨x, ⟨hx, h1, h2⟩, clean_of h3, h4⟩

def fenceF : SF := sf 0 0 0x200 0
def heldFence : State := standing start (.held .fence) (.fence hd fenceF)
/-- Another entry, of no lane, in a state. -/
def other (st : EntrySt) : Entry := { Entry.fresh { mask := 0, pc := 0, pri := 0, faulted := false } with st := st }
def fencedBy (st : EntrySt) : State := onWave heldFence fun w => { w with entries := setAt 1 (some (other st)) w.entries }
theorem witness_SpacesAndMaintenance : (∃ x, Issues start x ∧ Clean x ∧ Acts x hd ∧ ¬ Acts x never) ∧
    (∃ x ts, Issues addressed x ∧ Clean x ∧ Quiet addressed x ∧ AllReach addressed x (.cwb hd ldF) (execMask hd x.w x.e) (lineOp addressed ldF x) ts ∧
      SoundSites addressed (execMask hd x.w x.e) ts ∧ BothEnds x) ∧
    (∃ x ts, Issues addressed x ∧ Clean x ∧ Quiet addressed x ∧ AllReach addressed x (.cinv hd ldF) (execMask hd x.w x.e) (lineOp addressed ldF x) ts ∧
      SoundSites addressed (execMask hd x.w x.e) ts ∧ BothEnds x) ∧
    (∃ x, Stands heldFence entry0 x (.held .fence) (.fence hd fenceF) ∧ Clean x ∧
      ∀ e, some e ∈ x.w.entries → e.st ≠ .held .remote ∧ (fenceF.sel.toNat / 8 % 4 ≠ 1 → e.st ≠ .wait .fe)) ∧
    (∃ x, Stands (fencedBy (.held .remote)) entry0 x (.held .fence) (.fence hd fenceF) ∧ Clean x ∧ ∃ e, some e ∈ x.w.entries ∧ e.st = .held .remote) ∧
    ∃ x, Stands (fencedBy (.wait .fe)) entry0 x (.held .fence) (.fence hd fenceF) ∧ Clean x ∧ ∃ e, some e ∈ x.w.entries ∧
      fenceF.sel.toNat / 8 % 4 ≠ 1 ∧ e.st = .wait .fe := by
  unfold BothEnds Acts
  refine ⟨witness_issue (by decide +kernel), witness_reach (by decide +kernel), witness_reach (by decide +kernel), ?_, ?_, ?_⟩
  · obtain ⟨x, h1, h2, h3⟩ := witness_stands (s := heldFence) (st := .held .fence) (i := .fence hd fenceF)
      (P := fun x => (x.w.entries.all fun o => o.all fun e => decide (e.st ≠ .held .remote ∧ e.st ≠ .wait .fe)) = true) (by decide +kernel)
    refine ⟨x, h1, h2, fun e he => ?_⟩
    have := List.all_eq_true.mp h3 _ he
    simp only [Option.all_some, decide_eq_true_eq] at this
    exact ⟨this.1, fun _ => this.2⟩
  · obtain ⟨x, h1, h2, h3⟩ := witness_stands (s := fencedBy (.held .remote)) (st := .held .fence) (i := .fence hd fenceF)
      (P := fun x => some (other (.held .remote)) ∈ x.w.entries) (by decide +kernel)
    exact ⟨x, h1, h2, _, h3, by decide⟩
  · obtain ⟨x, h1, h2, h3⟩ := witness_stands (s := fencedBy (.wait .fe)) (st := .held .fence) (i := .fence hd fenceF)
      (P := fun x => some (other (.wait .fe)) ∈ x.w.entries) (by decide +kernel)
    exact ⟨x, h1, h2, _, h3, by decide⟩

theorem fresh_of {x : Issue} (h : x.e.done = 0 ∧ x.e.vals = [] ∧ x.e.st = .ready) : Fresh x := ⟨h.1, h.2.1, fun k => by rw [h.2.2]; nofun⟩
theorem unfaulted_of {x : Issue} (h : x.w.faults = []) : Unfaulted x := fun l _ => by rw [h]; rfl

def waitF : MF := mf 10 4 0xA0 3 false 0 0 0 0
def holdsAll (s : State) (x : Issue) (ge : Bool) (f : MF) (ts : Nat → Sites) : Bool :=
  (List.range 32).all fun l => !(execMask hd x.w x.e &&& x.w.real).getLsbD l ||
    waitHolds ge (mfSize f) (natOfBytes ((s.readSites (ts l)).map fun b => b.1)) ((readSrc s x (szTy f.sz.toNat) f.b l).val.toNat % 2 ^ (8 * mfSize f))

theorem holds_all {s : State} {x : Issue} {ge : Bool} {f : MF} {ts : Nat → Sites} (h : holdsAll s x ge f ts = true) :
    ∀ l, (execMask hd x.w x.e &&& x.w.real).getLsbD l = true →
      waitHolds ge (mfSize f) (natOfBytes ((s.readSites (ts l)).map fun b => b.1)) ((readSrc s x (szTy f.sz.toNat) f.b l).val.toNat % 2 ^ (8 * mfSize f)) = true := by
  intro l hl
  have := List.all_eq_true.mp h l (List.mem_range.mpr (lane_lt hl))
  rw [hl] at this
  exact this

theorem witness_WaitResult : (∃ n x b : Nat, n ≤ 8 ∧ x < 2 ^ (8 * n) ∧ b < 2 ^ (8 * n)) ∧
    (∃ x ts, Issues addressed x ∧ Clean x ∧ Quiet addressed x ∧
      AllReach addressed x (.poll hd waitF) (execMask hd x.w x.e) (waitOp addressed waitF false x) ts ∧ SoundSites addressed (execMask hd x.w x.e) ts ∧ BothEnds x) ∧
    (waitF.sz = 2 ∨ waitF.sz = 3) ∧ ∀ ge : Bool, ∃ x ts, Issues addressed x ∧ Clean x ∧ Quiet addressed x ∧ Fresh x ∧ Unfaulted x ∧
      SoundSites addressed (execMask hd x.w x.e) ts ∧ execMask hd x.w x.e ≠ 0 ∧
      AllReach addressed x (if ge then .wtge hd waitF else .wteq hd waitF) (execMask hd x.w x.e) (waitOp addressed waitF true x) ts ∧
      ∀ l, (execMask hd x.w x.e &&& x.w.real).getLsbD l = true →
        waitHolds ge (mfSize waitF) (natOfBytes ((addressed.readSites (ts l)).map fun b => b.1))
          ((readSrc addressed x (szTy waitF.sz.toNat) waitF.b l).val.toNat % 2 ^ (8 * mfSize waitF)) = true := by
  refine ⟨⟨8, 2 ^ 64 - 1, 2 ^ 63, by decide⟩, ?_, by decide, fun ge => ?_⟩
  · unfold BothEnds
    exact witness_reach (by decide +kernel)
  · obtain ⟨x, ts, h1, h2, h3, h4, h5, h6, h7, h8, h9⟩ := witness_reach (s := addressed) (i := if ge then .wtge hd waitF else .wteq hd waitF)
      (op := waitOp addressed waitF true) (P := fun x ts => (x.e.done = 0 ∧ x.e.vals = [] ∧ x.e.st = .ready) ∧ x.w.faults = [] ∧
        execMask hd x.w x.e ≠ 0 ∧ holdsAll addressed x ge waitF ts = true) (by revert ge; decide +kernel)
    exact ⟨x, ts, h1, h2, h3, fresh_of h6, unfaulted_of h7, h5, h8, h4, holds_all h9⟩

/-! ### Full/empty words: the placed page with its full/empty bit, and one word to each lane -/

def tagged : State :=
  let s := onWave addressed fun w => { w with regs := (List.range 32).map fun l => (regKey 4 l, BitVec.ofNat 32 (0x10008 + 8 * (l % 3))) }
  { s with mem := s.mem.placeEntry (placeTables + 24576 + 8) (placeLeaf 0 + 0x40) }
/-- The same with the words FULL. -/
def taggedFull : State := { tagged with mem := { tagged.mem with full := [262145, 262146] } }

def tagOf (s : State) (x : Issue) (f : MF) (l : Nat) : Option (Nat × Nat × KeyMat) :=
  match s.access (x.party l) .rw (laneAddr s x f false l).val (mfSize f) (mfSize f) with
  | .ok [(.dev pa va key true, n)] => if n = mfSize f then some (pa, va, key) else none
  | _ => none
def paOf (s : State) (x : Issue) (f : MF) (l : Nat) : Nat := ((tagOf s x f l).map fun t => t.1).getD 0
def vaOf (s : State) (x : Issue) (f : MF) (l : Nat) : Nat := ((tagOf s x f l).map fun t => t.2.1).getD 0
def keyOf (s : State) (x : Issue) (f : MF) (l : Nat) : KeyMat := ((tagOf s x f l).map fun t => t.2.2).getD .zero

def taggedB (s : State) (x : Issue) (f : MF) (m : Mask) : Bool :=
  (List.range 32).all fun l => !m.getLsbD l || (decide (spaceOf (laneAddr s x f false l).val = some .global) && (tagOf s x f l).isSome &&
    decide (paOf s x f l / 32 ∉ s.mem.lost) && decide (paOf s x f l % 32 + mfSize f ≤ 32))

theorem all_lanes {m : Mask} {p : Nat → Bool} (h : ((List.range 32).all fun l => !m.getLsbD l || p l) = true) : ∀ l, m.getLsbD l = true → p l = true := by
  intro l hl
  have := List.all_eq_true.mp h l (List.mem_range.mpr (lane_lt hl))
  rw [hl] at this
  exact this

theorem tagged_of {s : State} {x : Issue} {f : MF} {m : Mask} (h : taggedB s x f m = true) :
    TaggedWords s x f m (paOf s x f) (vaOf s x f) (keyOf s x f) := by
  intro l hl
  have h := all_lanes h l hl
  simp only [Bool.and_eq_true, decide_eq_true_eq] at h
  obtain ⟨⟨⟨h1, h2⟩, h3⟩, h4⟩ := h
  refine ⟨h1, ?_, h3, h4⟩
  unfold paOf vaOf keyOf
  cases ht : tagOf s x f l with
  | none => rw [ht] at h2; cases h2
  | some t =>
    unfold tagOf at ht
    split at ht
    · next pa va key n e =>
      split at ht
      · next hn => cases ht; rw [e, hn]; rfl
      · cases ht
    · cases ht

theorem no_fe {s : State} (hp : s.mgmt.peerWaits = []) (h : (s.groups.all fun g => g.2.waves.all fun w => w.entries.all fun e => e.all fun e => decide (e.st ≠ .wait .fe)) = true) :
    NoFeWaiters s := by
  refine ⟨fun r x hx => ?_, hp⟩
  unfold State.issueOf State.issuer? at hx
  simp only at hx
  split at hx
  · cases hx
  · next g hg =>
    split at hx
    · cases hx
    · next w hw =>
      obtain ⟨e, he, rfl⟩ := Option.map_eq_some_iff.mp hx
      have hm : (r.gid, g) ∈ s.groups := mem_of_aget hg
      have h1 := List.all_eq_true.mp h _ hm
      have h2 := List.all_eq_true.mp h1 w (List.mem_of_getElem? hw)
      have h3 : some e ∈ w.entries := by
        unfold Wave.entry? at he
        cases h4 : w.entries[r.slot]? with
        | none => rw [h4] at he; cases he
        | some o => rw [h4] at he; cases o with
          | none => cases he
          | some e' => cases he; exact List.mem_of_getElem? h4
      have h5 := List.all_eq_true.mp h2 _ h3
      simpa using h5

theorem witness_tagged {s : State} {P : Issue → Prop} [DecidablePred P] (hp : s.mgmt.peerWaits = []) (hn : (s.groups.all fun g => g.2.waves.all fun w => w.entries.all fun e => e.all fun e => decide (e.st ≠ .wait .fe)) = true)
    (h : (s.issuer?.elim false fun x => decide (x.e.insn = none ∧ cleanB x = true ∧ quietB s x = true ∧ (x.e.done = 0 ∧ x.e.vals = [] ∧ x.e.st = .ready) ∧ x.w.faults = [] ∧
      execMask hd x.w x.e ≠ 0 ∧ taggedB s x waitF (execMask hd x.w x.e) = true ∧ P x)) = true) :
    ∃ x, Issues s x ∧ Clean x ∧ Quiet s x ∧ Fresh x ∧ Unfaulted x ∧ NoFeWaiters s ∧ execMask hd x.w x.e ≠ 0 ∧
      TaggedWords s x waitF (execMask hd x.w x.e) (paOf s x waitF) (vaOf s x waitF) (keyOf s x waitF) ∧ P x := by
  obtain ⟨x, hx, h1, h2, h3, h4, h5, h6, h7, h⟩ := find_issue h
  exact ⟨x, ⟨hx, h1⟩, clean_of h2, quiet_of h3, fresh_of h4, unfaulted_of h5, no_fe hp hn, h6, tagged_of h7, h⟩

theorem apart {m : Mask} {p : Nat → Nat} (h : ((List.range 32).all fun l => (List.range 32).all fun k => !m.getLsbD l || !m.getLsbD k || decide (p l ≠ p k) ||
    decide (l = k)) = true) : ∀ l l', m.getLsbD l = true → m.getLsbD l' = true → p l = p l' → l = l' := by
  intro l k hl hk e
  have h1 := List.all_eq_true.mp (List.all_eq_true.mp h l (List.mem_range.mpr (lane_lt hl))) k (List.mem_range.mpr (lane_lt hk))
  simpa [hl, hk, e] using h1

/-- Its words are all FULL, all EMPTY, one to each lane. -/
def fullB (s : State) (x : Issue) (b : Bool) : Bool :=
  (List.range 32).all fun l => !(execMask hd x.w x.e).getLsbD l || (decide (paOf s x waitF l / 8 ∈ s.mem.full) == b)
def apartB (s : State) (x : Issue) : Bool :=
  (List.range 32).all fun l => (List.range 32).all fun k => !(execMask hd x.w x.e).getLsbD l || !(execMask hd x.w x.e).getLsbD k ||
    decide (paOf s x waitF l / 8 ≠ paOf s x waitF k / 8) || decide (l = k)

theorem witness_FullEmptyResult : waitF.sz = 3 ∧
    (∃ x pa va key, Issues taggedFull x ∧ Clean x ∧ Quiet taggedFull x ∧ Fresh x ∧ Unfaulted x ∧ NoFeWaiters taggedFull ∧ execMask hd x.w x.e ≠ 0 ∧
      TaggedWords taggedFull x waitF (execMask hd x.w x.e) pa va key ∧ (∀ l, (execMask hd x.w x.e).getLsbD l = true → pa l / 8 ∈ taggedFull.mem.full) ∧
      ∀ l l', (execMask hd x.w x.e).getLsbD l = true → (execMask hd x.w x.e).getLsbD l' = true → pa l / 8 = pa l' / 8 → l = l') ∧
    ∃ x pa va key, Issues tagged x ∧ Clean x ∧ Quiet tagged x ∧ Fresh x ∧ Unfaulted x ∧ NoFeWaiters tagged ∧ execMask hd x.w x.e ≠ 0 ∧
      TaggedWords tagged x waitF (execMask hd x.w x.e) pa va key ∧ (∀ l, (execMask hd x.w x.e).getLsbD l = true → pa l / 8 ∉ tagged.mem.full) ∧
      ∀ l l', (execMask hd x.w x.e).getLsbD l = true → (execMask hd x.w x.e).getLsbD l' = true → pa l / 8 = pa l' / 8 → l = l' := by
  refine ⟨rfl, ?_, ?_⟩
  · obtain ⟨x, h1, h2, h3, h4, h5, h6, h7, h8, h9, h10⟩ := witness_tagged (s := taggedFull) (P := fun x => fullB taggedFull x true = true ∧ apartB taggedFull x = true)
      rfl (by decide +kernel) (by decide +kernel)
    exact ⟨x, _, _, _, h1, h2, h3, h4, h5, h6, h7, h8, fun l hl => by simpa using all_lanes h9 l hl, apart h10⟩
  · obtain ⟨x, h1, h2, h3, h4, h5, h6, h7, h8, h9, h10⟩ := witness_tagged (s := tagged) (P := fun x => fullB tagged x false = true ∧ apartB tagged x = true)
      rfl (by decide +kernel) (by decide +kernel)
    exact ⟨x, _, _, _, h1, h2, h3, h4, h5, h6, h7, h8, fun l hl => by simpa using all_lanes h9 l hl, apart h10⟩

/-! ### Branches -/

/-- Predicate 0 holds in lane 0 alone; a header guarded by it. -/
def parted (s : State) : State := onWave s fun w => { w with preds := w.preds.set 0 1 }
/-- v4:v5 hold the last address of an instruction in every lane, v6 holds 1. -/
def lastCode : State := onWave start fun w =>
  { w with regs := ((List.range 32).map fun l => (regKey 4 l, 0xFFFFFFF8)) ++ ((List.range 32).map fun l => (regKey 5 l, 0x00FFFFFF)) ++
      (List.range 32).map fun l => (regKey 6 l, 1) }
def spare : Entry := Entry.fresh { mask := 0, pc := 0, pri := 0, faulted := false }
/-- The frontier is full; and all but the last spill slot, or all of them. -/
def frontierFull : State := onWave (parted start) fun w => { w with entries := w.entries.map fun e => some (e.getD spare) }
def spilled (n : Nat) : State := onWave frontierFull fun w =>
  { w with spill := List.replicate n (some { mask := 0, pc := 0, pri := 0, faulted := false }) ++ List.replicate (8 - n) none }

def jumpF : JF := jf 0 6 0 1
def atP (s : State) (x : Issue) (a : Byte) (p : W64) : Bool := (List.range 32).all fun l => !x.e.mask.getLsbD l || decide ((readSrc s x .n64 a l).val = p)

theorem at_p {s : State} {x : Issue} {a : Byte} {p : W64} (h : atP s x a p = true) : ∀ l, x.e.mask.getLsbD l = true → (readSrc s x .n64 a l).val = p :=
  fun l hl => by simpa using all_lanes h l hl

theorem witness_BranchResults :
    (∃ x, Issues start x ∧ Clean x ∧ Whole x hd ∧ x.e.mask ≠ 0 ∧ execMask never x.w x.e = 0) ∧
    (∃ x p, Issues lastCode x ∧ Clean x ∧ Whole x hd ∧ (∀ l, x.e.mask.getLsbD l = true → (readSrc lastCode x .n64 4 l).val = p) ∧ p.toNat < 2 ^ 56 ∧
      p.toNat % 8 = 0) ∧
    (∃ x, Issues lastCode x ∧ Clean x ∧ (readSrc lastCode x .n32 6 0).val ≠ 0 ∧ (readSrc lastCode x .n32 7 0).val = 0) ∧
    (let splits := fun (h : Hdr) (f : JF) (x : Issue) => execMask h x.w x.e ≠ 0 ∧ x.e.mask &&& ~~~(execMask h x.w x.e) ≠ 0 ∧
      execMask h x.w x.e &&& ~~~x.e.mask = 0 ∧ ¬ (jumpTarget x f = x.e.pc + 8 ∧ f.pri = x.e.pri)
    (∃ x, Issues (parted start) x ∧ Clean x ∧ splits never jumpF x ∧ FreeEntryAt x.w 1) ∧
    (∃ x, Issues frontierFull x ∧ Clean x ∧ splits never jumpF x ∧ FreeSpillAt x.w 0) ∧
    (∃ x, Issues (spilled 7) x ∧ Clean x ∧ splits never jumpF x ∧ FreeSpillAt x.w 7) ∧
    ∃ x, Issues (spilled 8) x ∧ Clean x ∧ splits never jumpF x ∧ x.e.mask &&& x.w.real ≠ 0 ∧
      ∀ j < 8, x.w.entry? j ≠ none ∧ (x.w.spill[j]?).join ≠ none) := by
  unfold Whole FreeEntryAt FreeSpillAt
  refine ⟨witness_issue (by decide +kernel), ?_, witness_issue (by decide +kernel), witness_issue (by decide +kernel), witness_issue (by decide +kernel),
    witness_issue (by decide +kernel), witness_issue (by decide +kernel)⟩
  obtain ⟨x, h1, h2, h3, h4⟩ := witness_issue (s := lastCode) (P := fun x => (execMask hd x.w x.e = x.e.mask ∧ x.e.mask ≠ 0) ∧
    atP lastCode x 4 0x00FFFFFFFFFFFFF8 = true) (by decide +kernel)
  exact ⟨x, _, h1, h2, h3, at_p h4, by decide⟩

/-- Two paths, of lanes 0 to 15 and 16 to 31, the first of which issues. -/
def twoPaths : State := onWave start fun w => { w with
  entries := setAt 0 ((w.entries[0]?.join).map fun e => { e with mask := 0xFFFF }) (setAt 1 (some { spare with mask := 0xFFFF0000 }) w.entries)
  jm := w.jm.set 7 0xFFFFFFFF
  nregs := 160 }

theorem witness_JoinExitYield :
    (∃ x, Issues start x ∧ Clean x ∧ Calm x ∧ (7 : BitVec 4).toNat < 8 ∧ (x.w.jm[(7 : BitVec 4).toNat]?.getD 0) &&& x.w.live &&& ~~~x.e.mask = 0 ∧
      (3 : BitVec 4).toNat < 4 ∧ x.w.live &&& ~~~(execMask hd x.w x.e) &&& x.w.real = 0 ∧ Acts x hd ∧ ¬ Acts x never ∧ x.g.place = .resident 0) ∧
    (∃ x, Issues twoPaths x ∧ Clean x ∧ Calm x ∧ (x.w.jm[(7 : BitVec 4).toNat]?.getD 0) &&& x.w.live &&& ~~~x.e.mask ≠ 0 ∧
      x.e.mask &&& ~~~(execMask hd x.w x.e) = 0 ∧ x.w.live &&& ~~~(execMask hd x.w x.e) &&& x.w.real ≠ 0 ∧ Acts x hd ∧
      (let n : Int := (if (0 : Byte) = 1 then (x.w.wb : Int) else 0) + (readSrc twoPaths x .n32 0 0).val.toNat + (32 : W32).toInt
       0 ≤ n ∧ n % 32 = 0 ∧ n + 128 ≤ x.w.nregs) ∧
      ¬ (let n : Int := (if (0 : Byte) = 1 then (x.w.wb : Int) else 0) + (readSrc twoPaths x .n32 0 0).val.toNat + (64 : W32).toInt
       0 ≤ n ∧ n % 32 = 0 ∧ n + 128 ≤ x.w.nregs)) ∧
    ∃ x, Issues (parted start) x ∧ Clean x ∧ Calm x ∧ x.e.mask &&& ~~~(execMask never x.w x.e) ≠ 0 ∧
      x.w.live &&& ~~~(execMask never x.w x.e) &&& x.w.real ≠ 0 := by
  unfold Acts
  refine ⟨?_, ?_, ?_⟩
  · obtain ⟨x, h1, h2, ⟨ha, hm, hs⟩, h⟩ := witness_issue (s := start) (P := fun x => ((x.ref.slot = 0 ∧ x.w.entries.drop 1 = List.replicate 7 none) ∧
      x.e.mask ≠ 0 ∧ x.w.spill = List.replicate 8 none ∧ x.w.faults = []) ∧ (7 : BitVec 4).toNat < 8 ∧ (x.w.jm[(7 : BitVec 4).toNat]?.getD 0) &&& x.w.live &&& ~~~x.e.mask = 0 ∧
      (3 : BitVec 4).toNat < 4 ∧ x.w.live &&& ~~~(execMask hd x.w x.e) &&& x.w.real = 0 ∧ execMask hd x.w x.e &&& x.w.real ≠ 0 ∧
      ¬ (execMask never x.w x.e &&& x.w.real ≠ 0) ∧ x.g.place = .resident 0) (by decide +kernel)
    exact ⟨x, h1, h2, alone_calm ha hm hs, h⟩
  · obtain ⟨x, h1, h2, ⟨ha, hb, hm, hs⟩, h⟩ := witness_issue (s := twoPaths) (P := fun x => (x.ref.slot = 0 ∧
      (x.w.entries.drop 1 = some { spare with mask := 0xFFFF0000 } :: List.replicate 6 none) ∧ x.e.mask ≠ 0 ∧ x.w.spill = List.replicate 8 none ∧ x.w.faults = []) ∧
      (x.w.jm[(7 : BitVec 4).toNat]?.getD 0) &&& x.w.live &&& ~~~x.e.mask ≠ 0 ∧
      x.e.mask &&& ~~~(execMask hd x.w x.e) = 0 ∧ x.w.live &&& ~~~(execMask hd x.w x.e) &&& x.w.real ≠ 0 ∧ execMask hd x.w x.e &&& x.w.real ≠ 0 ∧
      (let n : Int := (if (0 : Byte) = 1 then (x.w.wb : Int) else 0) + (readSrc twoPaths x .n32 0 0).val.toNat + (32 : W32).toInt
       0 ≤ n ∧ n % 32 = 0 ∧ n + 128 ≤ x.w.nregs) ∧
      ¬ (let n : Int := (if (0 : Byte) = 1 then (x.w.wb : Int) else 0) + (readSrc twoPaths x .n32 0 0).val.toNat + (64 : W32).toInt
       0 ≤ n ∧ n % 32 = 0 ∧ n + 128 ≤ x.w.nregs)) (by decide +kernel)
    refine ⟨x, h1, h2, ⟨by rw [ha]; decide, hm, fun i e hi he => ?_, fun p hp => ?_, by rw [hs.2]; nofun⟩, h⟩
    · rw [ha] at hi
      cases i with
      | zero => exact absurd rfl hi
      | succ i =>
        have h2 : x.w.entries[i + 1]? = (some { spare with mask := 0xFFFF0000 } :: List.replicate 6 none : List (Option Entry))[i]? := by
          rw [← hb, List.getElem?_drop, Nat.add_comm]
        unfold Wave.entry? at he
        rw [h2] at he
        cases i with
        | zero => cases he; exact ⟨by decide, nofun⟩
        | succ i =>
          simp only [List.getElem?_cons_succ, List.getElem?_replicate] at he
          split at he <;> cases he
    · rw [hs.1] at hp; exact List.eq_of_mem_replicate hp
  · obtain ⟨x, h1, h2, ⟨ha, hm, hs⟩, h⟩ := witness_issue (s := parted start) (P := fun x => ((x.ref.slot = 0 ∧ x.w.entries.drop 1 = List.replicate 7 none) ∧
      x.e.mask ≠ 0 ∧ x.w.spill = List.replicate 8 none ∧ x.w.faults = []) ∧ x.e.mask &&& ~~~(execMask never x.w x.e) ≠ 0 ∧
      x.w.live &&& ~~~(execMask never x.w x.e) &&& x.w.real ≠ 0) (by decide +kernel)
    exact ⟨x, h1, h2, alone_calm ha hm hs, h⟩

/-! ### Traps and system registers -/

def trapping : State := onWave start fun w => { w with uten := true, tvec := 0x10000, tpc := 0xFF00000000010008 }
theorem witness_TrapAndReturn :
    (∃ x, Issues trapping x ∧ Clean x ∧ Calm x ∧ Acts x hd ∧ TrapsOn x ∧ x.w.brkpark = false ∧ ¬ Acts x never ∧ x.w.ptraps = [] ∧ x.w.tpc.toNat % 8 = 0) ∧
    (∃ x, Issues start x ∧ Clean x ∧ Calm x ∧ x.w.ptraps = [] ∧ x.w.uten = false ∧ execMask hd x.w x.e &&& x.w.real = x.e.mask) ∧
    ∃ s x, Issues s x ∧ Clean x ∧ x.e.mask &&& x.w.real ≠ 0 ∧ x.w.tpc.toNat % 8 ≠ 0 := by
  unfold Acts TrapsOn
  refine ⟨?_, ?_, onWave start fun w => { w with tpc := 0x10001 }, witness_issue (by decide +kernel)⟩
  · obtain ⟨x, h1, h2, ⟨ha, hm, hs⟩, h⟩ := witness_issue (s := trapping) (P := fun x => ((x.ref.slot = 0 ∧ x.w.entries.drop 1 = List.replicate 7 none) ∧
      x.e.mask ≠ 0 ∧ x.w.spill = List.replicate 8 none ∧ x.w.faults = []) ∧ execMask hd x.w x.e &&& x.w.real ≠ 0 ∧ (x.w.uten = true ∧ x.w.tvec ≠ 0 ∧ x.w.inh = false ∧ x.w.ptraps = []) ∧
      x.w.brkpark = false ∧ ¬ (execMask never x.w x.e &&& x.w.real ≠ 0) ∧ x.w.ptraps = [] ∧ x.w.tpc.toNat % 8 = 0) (by decide +kernel)
    exact ⟨x, h1, h2, alone_calm ha hm hs, h⟩
  · obtain ⟨x, h1, h2, ⟨ha, hm, hs⟩, h⟩ := witness_issue (s := start) (P := fun x => ((x.ref.slot = 0 ∧ x.w.entries.drop 1 = List.replicate 7 none) ∧
      x.e.mask ≠ 0 ∧ x.w.spill = List.replicate 8 none ∧ x.w.faults = []) ∧ x.w.ptraps = [] ∧ x.w.uten = false ∧ execMask hd x.w x.e &&& x.w.real = x.e.mask) (by decide +kernel)
    exact ⟨x, h1, h2, alone_calm ha hm hs, h⟩

/-- Context 0 belongs to tenant 255; the group of a user's context 1023; a wave that sleeps. -/
def tenanted : State := { start with market := { start.market with cfgA := { start.market.cfgA with
  ctxs := [(0, { CtxMkt.start with tenant := 255, valid := true })], tenants := [(255, { Tenant.start with valid := true })] } } }
def asUser (s : State) : State := onGroup s fun g => { g with ctx := 1023 }
theorem witness_SystemRegisters :
    (∃ x, Issues tenanted x ∧ Clean x ∧ ((0x60 : W16).toNat ∈ WF.readable ∧ (tenanted.tenantOf x.g.ctx).isSome) ∧ Acts x hd ∧ ¬ Acts x never ∧ x.g.ctx = 0 ∧
      tenanted.tenantOf 0 = some 255) ∧
    ((0x21 : W16).toNat ∈ WF.writable ∧ (0x21 : W16).toNat ≠ 0x40 ∧ (0x21 : W16).toNat ≠ 0x41) ∧
    ∃ x, Issues (asUser start) x ∧ Clean x ∧ x.e.mask &&& x.w.real ≠ 0 ∧ x.g.ctx ≠ 0 := by
  unfold Acts
  exact ⟨witness_issue (by decide +kernel), by decide, witness_issue (by decide +kernel)⟩

def sleeping : State := onEntry start fun e => { e with st := .wait (.sleep 1000), insn := some (.sleep hd (sf 0 0 0 1)) }
theorem witness_ClockAndSleep : (∃ x, Issues start x ∧ Clean x ∧ Acts x hd ∧ ¬ Acts x never ∧ always start x) ∧
    ∃ x, sleeping.issueOf entry0 = some x ∧ Clean x ∧ x.e.st = .wait (.sleep 1000) ∧ x.g.place = .resident 0 ∧ sleeping.mgmt.ratHold = none ∧
      ((1000 : Nat) : Int) - sleeping.timeBase < 2 ^ 77 := by
  unfold Acts
  obtain ⟨x, ⟨h1, h2, h3⟩, h4, h5⟩ := witness_stands (s := sleeping) (st := .wait (.sleep 1000)) (i := .sleep hd (sf 0 0 0 1))
    (P := fun x => x.g.place = .resident 0 ∧ sleeping.mgmt.ratHold = none) (by decide +kernel)
  obtain ⟨y, g1, g2, g3⟩ := witness_issue (s := start) (P := fun x => execMask hd x.w x.e &&& x.w.real ≠ 0 ∧ ¬ (execMask never x.w x.e &&& x.w.real ≠ 0)) (by decide +kernel)
  exact ⟨⟨y, g1, g2, g3.1, g3.2, trivial⟩, x, h1, h4, h2, h5.1, h5.2, by decide +kernel⟩

theorem witness_acts : ∃ x, Issues start x ∧ Clean x ∧ Acts x hd ∧ ¬ Acts x never ∧ always start x := witness_ClockAndSleep.1

/-- Context 0 leases the last way-column. -/
def leasing : State := { start with market := { start.market with current := [(1, { Lease.none with qty := 1, units := [127] })] } }
theorem witness_MarketInstructions : (∃ x, Issues start x ∧ Clean x ∧ Acts x hd ∧ ¬ Acts x never ∧ always start x) ∧
    (∃ x, Issues leasing x ∧ Clean x ∧ ∀ b : Bool, ∀ d, ∀ n ∈ (leaseAt (if b then leasing.market.next else leasing.market.current) x.g.ctx 1).units,
      unitDie 1 n = some d → d < 4) := by
  refine ⟨witness_acts, ?_⟩
  obtain ⟨x, h1, h2, h3⟩ := witness_issue (s := leasing) (P := fun x =>
    ((leaseAt leasing.market.next x.g.ctx 1).units.all fun n => (unitDie 1 n).all fun d => decide (d < 4)) = true ∧
    ((leaseAt leasing.market.current x.g.ctx 1).units.all fun n => (unitDie 1 n).all fun d => decide (d < 4)) = true) (by decide +kernel)
  refine ⟨x, h1, h2, fun b d n hn hd => ?_⟩
  cases b with
  | true => have := List.all_eq_true.mp h3.1 n hn; rw [hd] at this; simpa using this
  | false => have := List.all_eq_true.mp h3.2 n hn; rw [hd] at this; simpa using this

/-! ### Scopes and cancels -/

/-- A LIVE child in the last slot, which s1 names; a DEAD, cut one in slot 1, which s2 names; s3 and s8 name none; the pair s10:s11 holds an
address that may be written, and s16 names the DEAD one with the pair s18:s19 after it. -/
def inScopes : State :=
  let s := onGroup start fun g => { g with sregs := [(1, 0x1FFFF), (2, 0x10001), (10, 0x10008), (16, 0x10001), (18, 0x10008), (24, 0x1FFFF), (26, 0x10008)] }
  { s with scopes := [(0, { gen := 1, st := .live, ctx := 0, depth := 1, parent := 0, auto := false, pkt := false, cut := false }),
    (1, { gen := 1, st := .dead, ctx := 0, depth := 2, parent := 0x10000, auto := false, pkt := false, cut := true }),
    (65535, { gen := 1, st := .live, ctx := 0, depth := 2, parent := 0x10000, auto := false, pkt := false, cut := false })] }

theorem witness_ScopeCreation : ∃ x, Issues start x ∧ Clean x ∧ Acts x hd ∧ ¬ Acts x never ∧ always start x := witness_acts

theorem witness_scope {s : State} {n : Nat} {P : ScopeSlot → Issue → Prop} [∀ v, DecidablePred (P v)]
    (h : (s.issuer?.elim false fun x => decide (x.e.insn = none ∧ cleanB x = true ∧
      execMask hd x.w x.e &&& x.w.real ≠ 0 ∧ ((s.scopeAt (sget 0 x.g.sregs n)).elim false fun v => decide (P v x)) = true)) = true) :
    ∃ x v, Issues s x ∧ Clean x ∧ Acts x hd ∧ s.scopeAt (sget 0 x.g.sregs n) = some v ∧ P v x := by
  obtain ⟨x, hx, h1, h2, h3, h⟩ := find_issue h
  cases hv : s.scopeAt (sget 0 x.g.sregs n) with
  | none => rw [hv] at h; cases h
  | some v => rw [hv] at h; exact ⟨x, v, ⟨hx, h1⟩, clean_of h2, h3, hv, of_decide_eq_true h⟩

theorem witness_CancelKillsSubtree :
    (∃ x, Issues inScopes x ∧ Clean x ∧ inScopes.scopeAt (sget 0 x.g.sregs 3) = none) ∧
    (∃ x v, Issues (asUser inScopes) x ∧ Clean x ∧ Acts x hd ∧ (asUser inScopes).scopeAt (sget 0 x.g.sregs 1) = some v ∧
      ¬ MayCancel (asUser inScopes) x (sget 0 x.g.sregs 1) v) ∧
    (∃ x v, Issues inScopes x ∧ Clean x ∧ Acts x hd ∧ inScopes.scopeAt (sget 0 x.g.sregs 16) = some v ∧ v.st = .dead ∧ MayCancel inScopes x (sget 0 x.g.sregs 16) v ∧
      badAck inScopes (x.party 0) (ackAsked x 16) = false ∧ inScopes.acks.length < 4096) ∧
    ∃ x v, Issues inScopes x ∧ Clean x ∧ Acts x hd ∧ inScopes.scopeAt (sget 0 x.g.sregs 24) = some v ∧ v.st = .live ∧ MayCancel inScopes x (sget 0 x.g.sregs 24) v ∧
      badAck inScopes (x.party 0) (ackAsked x 24) = false ∧ inScopes.acks.length < 4096 := by
  unfold MayCancel
  exact ⟨witness_issue (by decide +kernel), witness_scope (by decide +kernel), witness_scope (by decide +kernel), witness_scope (by decide +kernel)⟩

/-- The scope of the wave's work is gone. -/
def unscoped : State := { start with scopes := [] }

theorem witness_QuietAndScopeQueries :
    (∃ x v, Issues inScopes x ∧ Clean x ∧ Acts x hd ∧ inScopes.scopeAt (sget 0 x.g.sregs 1) = some v ∧ v.st = .live ∧ v.depth < 32) ∧
    (∃ x v, Issues inScopes x ∧ Clean x ∧ Acts x hd ∧ inScopes.scopeAt (sget 0 x.g.sregs 2) = some v ∧ v.st = .dead ∧ (x.g.ctx = 0 ∨ v.ctx = x.g.ctx)) ∧
    (∃ v, inScopes.scopeAt 0x10001 = some v ∧ v.st = .dead ∧ v.cut = true ∧ inScopes.quiet 0x10001 = true ∧ inScopes.mgmt.ctxBusy = none ∧
      ∀ a ∈ acksDue inScopes (inScopes.subtree 0x10001), ackAsk inScopes a = []) ∧
    ∃ g w, unscoped.group? 0 = some g ∧ unscoped.waveOf ⟨0, 0⟩ = some w ∧ g.place = .resident 0 ∧ w.ended = false ∧ unscoped.scopeGone g.scope = true ∧
      ∀ e, some e ∈ w.entries → e.st ≠ .held .remote := by
  refine ⟨witness_scope (by decide +kernel), witness_scope (by decide +kernel), ⟨_, rfl, by decide +kernel⟩, _, _, rfl, rfl, rfl, rfl, rfl, ?_⟩
  intro e he
  have : (start.groups.all fun g => g.2.waves.all fun w => w.entries.all fun e => e.all fun e => decide (e.st ≠ .held .remote)) = true := by decide +kernel
  have h := List.all_eq_true.mp (List.all_eq_true.mp (List.all_eq_true.mp this _ (List.mem_singleton.mpr rfl)) _ (List.mem_singleton.mpr rfl)) _ he
  simpa using h

/-! ### Keys, copies, packets, tasks -/

def scrubbing (phase units : Nat) : State := { start with mgmt := { start.mgmt with scrubBusy := true, scrubPhase := phase, scrubUnits := units, scrubTotal := 240 } }
theorem witness_KeysAndScrub : (∃ x, Issues start x ∧ Clean x ∧ Acts x hd ∧ ¬ Acts x never ∧ x.g.ctx = 0 ∧ start.mgmt.scrubPhase < 16 ∧ start.mgmt.scrubCtx < 1024) ∧
    (∃ x, Issues (asUser start) x ∧ Clean x ∧ x.e.mask &&& x.w.real ≠ 0 ∧ x.g.ctx ≠ 0) ∧
    ((scrubbing 1 238).mgmt.scrubBusy = true ∧ (scrubbing 1 238).mgmt.scrubUnits + 1 < (scrubbing 1 238).mgmt.scrubTotal) ∧
    ((scrubbing 5 239).mgmt.scrubBusy = true ∧ (scrubbing 5 239).mgmt.scrubTotal ≤ (scrubbing 5 239).mgmt.scrubUnits + 1 ∧ (scrubbing 5 239).mgmt.scrubPhase = 5) ∧
    (scrubbing 3 239).mgmt.scrubBusy = true ∧ (scrubbing 3 239).mgmt.scrubTotal ≤ (scrubbing 3 239).mgmt.scrubUnits + 1 ∧ (scrubbing 3 239).mgmt.scrubPhase ≠ 5 := by
  unfold Acts
  exact ⟨witness_issue (by decide +kernel), witness_issue (by decide +kernel), by decide +kernel, by decide +kernel, by decide +kernel⟩

/-- The uniform registers of four descriptors: 2^48 bytes; a misaligned counter; a value of 2^63; one that is accepted. -/
def described (n : Nat) : State := onGroup start fun g => { g with sregs := [[(5, 0x10000)], [(6, 1)], [(9, 0x80000000)], []].getD n [] }
def copyF : SF := sf 0 0 0 0
def heldCopy : Copy := { kind := .cpy, desc := [], mode := 0, scp := 0, ctx := 0, scope := placedHandle, owner := some (0, 0), launch := some 0, core := 0, packet := none
                         slice := 0, slices := 0, row := 0, next := 0, halted := false, tainted := false, remote := [] }
def crowded : State := { start with copies := (List.range 256).map fun k => (k, heldCopy) }
/-- A copy of half a sector of code within the sector, and one whose end has come, without and with a counter. -/
def chunk (len ctr row : Nat) : Copy :=
  { heldCopy with desc := [0x10010, 0, 0x10000, 0, BitVec.ofNat 32 len, 0, BitVec.ofNat 32 ctr, 0, 1, 0, 0, 0], row := row, owner := none }
def copying (c : Copy) : State := { start with copies := [(7, c)] }
/-- The place at an address, with the rights asked for. -/
def siteAt (s : State) (p : Party) (perm : Perm) (a : W64) (n : Nat) : Option (Nat × Nat × KeyMat × Bool) :=
  match s.site p perm a n with
  | .ok (.dev pa va key fe) => some (pa, va, key, fe)
  | _ => none
theorem site_at {s : State} {p : Party} {perm : Perm} {a : W64} {n : Nat} {v : Nat × Nat × KeyMat × Bool} (h : siteAt s p perm a n = some v) :
    s.site p perm a n = .ok (.dev v.1 v.2.1 v.2.2.1 v.2.2.2) := by
  unfold siteAt at h
  split at h
  · next e => cases h; exact e
  · cases h

theorem change_some {s : State} {p : Party} {a : W64} {f : W64 → W64} (h : (s.changeWordOf p a f).isSome = true) : ∃ t, s.changeWordOf p a f = some t :=
  Option.isSome_iff_exists.mp h

/-- The copy of one chunk meets what its step asks. -/
theorem copied :
    let c := chunk 16 0 0
     let s := copying c
     aget s.copies 7 = some c ∧ c.kind = .cpy ∧ c.slices = 0 ∧ c.halted = false ∧ c.remote = [] ∧ c.sending = none ∧ c.fate = none ∧ c.row = 0 ∧ s.mgmt.rcache = [] ∧ s.scopeLive c.scope = true ∧
      c.next < c.len ∧ spaceOf (c.src + BitVec.ofNat 64 c.next) = some .global ∧ spaceOf (c.dst + BitVec.ofNat 64 c.next) = some .global ∧
      16 ≤ s.pageLeft c.ctx (c.src + BitVec.ofNat 64 c.next) 16 ∧ 16 ≤ s.pageLeft c.ctx (c.dst + BitVec.ofNat 64 c.next) 16 ∧
      s.site c.party .r (c.src + BitVec.ofNat 64 c.next) 16 = .ok (.dev 0x200010 0x10010 (.loaded 1) false) ∧
      s.site c.party .w (c.dst + BitVec.ofNat 64 c.next) 16 = .ok (.dev 0x200000 0x10000 (.loaded 1) false) ∧
      (c.src + BitVec.ofNat 64 c.next).toNat % 32 + 16 ≤ 32 ∧ (c.dst + BitVec.ofNat 64 c.next).toNat % 32 + 16 ≤ 32 ∧ 0x200010 % 32 + 16 ≤ 32 ∧
      0x200000 % 32 + 16 ≤ 32 ∧ 0x200010 / 32 ∉ s.mem.lost ∧ 0x200000 / 32 ∉ s.mem.lost ∧ ∀ i < 16, (0x200010 + i) / 4 ∉ s.mem.poison := by
  intro c s
  have hr := site_at (s := s) (p := c.party) (perm := .r) (a := c.src + BitVec.ofNat 64 c.next) (n := 16) (v := (0x200010, 0x10010, .loaded 1, false))
    (by decide +kernel)
  have hw := site_at (s := s) (p := c.party) (perm := .w) (a := c.dst + BitVec.ofNat 64 c.next) (n := 16) (v := (0x200000, 0x10000, .loaded 1, false))
    (by decide +kernel)
  repeat' apply And.intro
  all_goals first
    | exact hr
    | exact hw
    | decide +kernel

theorem witness_CopyInstructions :
    (∃ x, Issues (described 0) x ∧ Clean x ∧ CopyTooLong (copyOf x copyF .cpy)) ∧ (∃ x, Issues (described 1) x ∧ Clean x ∧ CopyMisaligned (copyOf x copyF .cpy)) ∧
    (∃ x, Issues (described 2) x ∧ Clean x ∧ 2 ^ 63 ≤ (copyOf x copyF .cpy).cval.toNat) ∧
    (∃ x, Issues (described 3) x ∧ Clean x ∧ copiesHeld (described 3) ((x.g.place.core?).getD 0) < 256) ∧
    (∃ x, Issues crowded x ∧ Clean x ∧ Acts x hd ∧ ¬ CopyTooLong (copyOf x copyF .cpy) ∧ ¬ CopyMisaligned (copyOf x copyF .cpy) ∧
      (copyOf x copyF .cpy).cval.toNat < 2 ^ 63 ∧ 256 ≤ copiesHeld crowded ((x.g.place.core?).getD 0)) ∧
    (let c := chunk 16 0 0
     let s := copying c
     aget s.copies 7 = some c ∧ c.kind = .cpy ∧ c.slices = 0 ∧ c.halted = false ∧ c.remote = [] ∧ c.sending = none ∧ c.fate = none ∧ c.row = 0 ∧ s.mgmt.rcache = [] ∧ s.scopeLive c.scope = true ∧
      c.next < c.len ∧ spaceOf (c.src + BitVec.ofNat 64 c.next) = some .global ∧ spaceOf (c.dst + BitVec.ofNat 64 c.next) = some .global ∧
      16 ≤ s.pageLeft c.ctx (c.src + BitVec.ofNat 64 c.next) 16 ∧ 16 ≤ s.pageLeft c.ctx (c.dst + BitVec.ofNat 64 c.next) 16 ∧
      s.site c.party .r (c.src + BitVec.ofNat 64 c.next) 16 = .ok (.dev 0x200010 0x10010 (.loaded 1) false) ∧
      s.site c.party .w (c.dst + BitVec.ofNat 64 c.next) 16 = .ok (.dev 0x200000 0x10000 (.loaded 1) false) ∧
      (c.src + BitVec.ofNat 64 c.next).toNat % 32 + 16 ≤ 32 ∧ (c.dst + BitVec.ofNat 64 c.next).toNat % 32 + 16 ≤ 32 ∧ 0x200010 % 32 + 16 ≤ 32 ∧
      0x200000 % 32 + 16 ≤ 32 ∧ 0x200010 / 32 ∉ s.mem.lost ∧ 0x200000 / 32 ∉ s.mem.lost ∧ ∀ i < 16, (0x200010 + i) / 4 ∉ s.mem.poison) ∧
    (∀ ctr ∈ [0, 0x10018], let c := chunk 16 ctr 1
     let s := copying c
     aget s.copies 7 = some c ∧ c.halted = false ∧ c.remote = [] ∧ c.sending = none ∧ c.fate = none ∧ s.scopeLive c.scope = true ∧ (c.rowBytes = 0 ∨ c.rowEnd ≤ c.row) ∧ c.packet = none ∧ c.tainted = false ∧
      (c.ctr = 0 ↔ ctr = 0)) ∧
    ∃ t, (copying (chunk 16 0x10018 1)).changeWordOf (chunk 16 0x10018 1).party (chunk 16 0x10018 1).ctr (fun old => ctrAdd old (chunk 16 0x10018 1).cval) = some t := by
  unfold Acts
  refine ⟨witness_issue (by decide +kernel), witness_issue (by decide +kernel), witness_issue (by decide +kernel), witness_issue (by decide +kernel),
    witness_issue (by decide +kernel), copied, by decide +kernel, change_some (by decide +kernel)⟩

/-! ### Packets -/

/-- Queue 4095 with its indices w and 0 in the code's sector, its last slot in place, and s16 the first word of a packet of a type. -/
def ringed (type w : Nat) : State :=
  let s := onGroup start fun g => { g with sregs := [(16, BitVec.ofNat 32 type)] }
  { s with queues := [(4095, { Queue.start with st := .active, log2size := 6, qbase := 0x10040, qwptra := 0x10008, qrptra := 0x10010 })]
           mem := s.mem.place placeCode (bytesOfNat 8 0 ++ bytesOfNat 8 w ++ bytesOfNat 8 0 ++ bytesOfNat 8 0) { key := .loaded 1, unit := 0x10000 / 32 }
           |>.place (placeCode + 0x1000) [] { key := .loaded 1, unit := 0x11000 / 32 } |>.place (placeCode + 0x1020) [] { key := .loaded 1, unit := 0x11020 / 32 } }
def enqF : SF := sf 2 16 4095 0

def ringB (s : State) (p : Party) (q w r : Nat) : Bool :=
  decide (s.mgmt.rcache = []) && decide (s.wordOf p (s.queue q).qwptra = some w) && decide (s.wordOf p (s.queue q).qrptra = some r) &&
    match s.recordSites p .rw (s.queue q).qwptra 8 8 with
    | .ok _ => true
    | .error _ => false
theorem ring_at {s : State} {p : Party} {q w r : Nat} (h : ringB s p q w r = true) : RingAt s p q w r := by
  unfold ringB at h
  simp only [Bool.and_eq_true, decide_eq_true_eq] at h
  refine ⟨h.1.1.1, h.1.1.2, h.1.2, ?_⟩
  have := h.2
  split at this
  · next ts e => exact ⟨ts, e⟩
  · cases this

/-- The packet can be put in the ring. -/
def putB (s : State) (p : Party) (q w : Nat) (pkt : List Byte) : Bool :=
  (s.putRecord p ((s.queue q).qbase + BitVec.ofNat 64 (64 * (w % ringSize (s.queue q)))) pkt).elim false fun u =>
    (u.putRecord p (s.queue q).qwptra (bytesOfNat 8 (w + 1))).elim false fun v => decide ((doorbellWrite v (s.queue q).func.toNat (4096 * q) 8 (BitVec.ofNat 64 (w + 1))).groups = s.groups)
theorem enqueued_of {s : State} {p : Party} {q w : Nat} {pkt : List Byte} (h : putB s p q w pkt = true) : ∃ t, Enqueued s p q w pkt t := by
  unfold putB at h
  cases hu : s.putRecord p ((s.queue q).qbase + BitVec.ofNat 64 (64 * (w % ringSize (s.queue q)))) pkt with
  | none => rw [hu] at h; cases h
  | some u =>
    rw [hu] at h
    change ((u.putRecord p (s.queue q).qwptra (bytesOfNat 8 (w + 1))).elim false fun v =>
      decide ((doorbellWrite v (s.queue q).func.toNat (4096 * q) 8 (BitVec.ofNat 64 (w + 1))).groups = s.groups)) = true at h
    cases hv : u.putRecord p (s.queue q).qwptra (bytesOfNat 8 (w + 1)) with
    | none => rw [hv] at h; cases h
    | some v => rw [hv] at h; exact ⟨_, u, v, hu, hv, rfl, of_decide_eq_true h⟩

def keptF (type : Nat) : List Byte := bytesOfNat 4 type ++ List.replicate 60 0
/-- The entry waits for room with a packet. -/
def enqWaits (w : Nat) : State := onEntry (ringed 1 w) fun e =>
  { e with st := .wait (.enq 4095), insn := some (.enq hd enqF), exec := e.mask, vals := keepPacket (keptF 1) }

def canEnq (s : State) (x : Issue) : Prop := (s.queue (queueNamed x enqF)).ctx.toNat = x.g.ctx ∧ (s.queue (queueNamed x enqF)).st = .active ∧
  fieldAt (packetOf x enqF) 0 1 ∈ [1, 2, 3, 4, 5]
/-- The ring of a queue has room, or none, for a packet. -/
def HasRoom (s : State) (x : Issue) (q : Nat) (pkt : List Byte) : Prop := ∃ w r t, RingAt s x.waveParty q w r ∧ (w : Int) - r < ringSize (s.queue q) ∧
  Enqueued s x.waveParty q w pkt t
def HasNone (s : State) (x : Issue) (q : Nat) : Prop := ∃ w r, RingAt s x.waveParty q w r ∧ ringSize (s.queue q) ≤ (w : Int) - r

def roomB (s : State) (x : Issue) (q w : Nat) (pkt : List Byte) : Bool :=
  ringB s x.waveParty q w 0 && decide (w < ringSize (s.queue q)) && putB s x.waveParty q w pkt
theorem has_room {s : State} {x : Issue} {q w : Nat} {pkt : List Byte} (h : roomB s x q w pkt = true) : HasRoom s x q pkt := by
  simp only [roomB, Bool.and_eq_true, decide_eq_true_eq] at h
  obtain ⟨t, ht⟩ := enqueued_of h.2
  exact ⟨w, 0, t, ring_at h.1.1, by omega, ht⟩
def noneB (s : State) (x : Issue) (q w : Nat) : Bool := ringB s x.waveParty q w 0 && decide (ringSize (s.queue q) ≤ w)
theorem has_none {s : State} {x : Issue} {q w : Nat} (h : noneB s x q w = true) : HasNone s x q := by
  simp only [noneB, Bool.and_eq_true, decide_eq_true_eq] at h
  exact ⟨w, 0, ring_at h.1, by omega⟩
def enqB (s : State) (x : Issue) : Bool := decide (execMask hd x.w x.e &&& x.w.real ≠ 0) && decide ((s.queue (queueNamed x enqF)).ctx.toNat = x.g.ctx ∧
  (s.queue (queueNamed x enqF)).st = .active ∧ fieldAt (packetOf x enqF) 0 1 ∈ [1, 2, 3, 4, 5])
theorem can_enq {s : State} {x : Issue} (h : enqB s x = true) : Acts x hd ∧ canEnq s x := by
  simp only [enqB, Bool.and_eq_true, decide_eq_true_eq] at h
  exact h

/-- The queue is ACTIVE no more. -/
def enqOver : State := { enqWaits 64 with queues := [] }

theorem witness_enq_room : ∃ x, Issues (ringed 5 63) x ∧ Clean x ∧ (Acts x hd ∧ canEnq (ringed 5 63) x) ∧
    HasRoom (ringed 5 63) x (queueNamed x enqF) (packetOf x enqF) := by
  obtain ⟨x, h1, h2, h3⟩ := witness_issue (s := ringed 5 63) (P := fun x => (enqB (ringed 5 63) x && roomB (ringed 5 63) x (queueNamed x enqF) 63 (packetOf x enqF)) = true)
    (by decide +kernel)
  rw [Bool.and_eq_true] at h3
  exact ⟨x, h1, h2, can_enq h3.1, has_room h3.2⟩
theorem witness_enq_full : ∃ x, Issues (ringed 1 64) x ∧ Clean x ∧ (Acts x hd ∧ canEnq (ringed 1 64) x) ∧ HasNone (ringed 1 64) x (queueNamed x enqF) ∧
    x.e.st ≠ .wait (.enq (queueNamed x enqF)) := by
  obtain ⟨x, h1, h2, h3, h4⟩ := witness_issue (s := ringed 1 64) (P := fun x => (enqB (ringed 1 64) x && noneB (ringed 1 64) x (queueNamed x enqF) 64) = true ∧
    x.e.st ≠ .wait (.enq (queueNamed x enqF))) (by decide +kernel)
  rw [Bool.and_eq_true] at h3
  exact ⟨x, h1, h2, can_enq h3.1, has_none h3.2, h4⟩
theorem witness_enq_waits : ∃ x, Stands (enqWaits 63) entry0 x (.wait (.enq 4095)) (.enq hd enqF) ∧ Clean x ∧ (x.g.place = .resident 0 ∧
    (enqWaits 63).held = false ∧ x.e.remote = [] ∧ ((enqWaits 63).queue 4095).st = .active) ∧ HasRoom (enqWaits 63) x 4095 (keptPacket x.e) := by
  obtain ⟨x, h1, h2, h3, h4⟩ := witness_stands (s := enqWaits 63) (st := .wait (.enq 4095)) (i := .enq hd enqF) (P := fun x => (x.g.place = .resident 0 ∧
    (enqWaits 63).held = false ∧ x.e.remote = [] ∧ ((enqWaits 63).queue 4095).st = .active) ∧ roomB (enqWaits 63) x 4095 63 (keptPacket x.e) = true) (by decide +kernel)
  exact ⟨x, h1, h2, h3, has_room h4⟩
theorem witness_enq_stalls : ∃ x, Stands (enqWaits 64) entry0 x (.wait (.enq 4095)) (.enq hd enqF) ∧ Clean x ∧ (x.g.place = .resident 0 ∧
    (enqWaits 64).held = false ∧ x.e.remote = [] ∧ ((enqWaits 64).queue 4095).st = .active) ∧ HasNone (enqWaits 64) x 4095 := by
  obtain ⟨x, h1, h2, h3, h4⟩ := witness_stands (s := enqWaits 64) (st := .wait (.enq 4095)) (i := .enq hd enqF) (P := fun x => (x.g.place = .resident 0 ∧
    (enqWaits 64).held = false ∧ x.e.remote = [] ∧ ((enqWaits 64).queue 4095).st = .active) ∧ noneB (enqWaits 64) x 4095 64 = true) (by decide +kernel)
  exact ⟨x, h1, h2, h3, has_none h4⟩

theorem witness_PacketsFromWaves :
    (∃ x, Issues (ringed 6 63) x ∧ Clean x ∧ Acts x hd ∧ 6 ≤ fieldAt (packetOf x enqF) 0 1) ∧
    (∃ x, Issues (asUser (ringed 1 63)) x ∧ Clean x ∧ Acts x hd ∧ ((asUser (ringed 1 63)).queue (queueNamed x enqF)).ctx.toNat ≠ x.g.ctx) ∧
    (∃ x, Issues (ringed 5 63) x ∧ Clean x ∧ (Acts x hd ∧ canEnq (ringed 5 63) x) ∧ HasRoom (ringed 5 63) x (queueNamed x enqF) (packetOf x enqF)) ∧
    (∃ x, Issues (ringed 1 64) x ∧ Clean x ∧ (Acts x hd ∧ canEnq (ringed 1 64) x) ∧ HasNone (ringed 1 64) x (queueNamed x enqF) ∧
      x.e.st ≠ .wait (.enq (queueNamed x enqF))) ∧
    (∃ x, Stands (enqWaits 63) entry0 x (.wait (.enq 4095)) (.enq hd enqF) ∧ Clean x ∧ (x.g.place = .resident 0 ∧ (enqWaits 63).held = false ∧ x.e.remote = [] ∧
      ((enqWaits 63).queue 4095).st = .active) ∧ HasRoom (enqWaits 63) x 4095 (keptPacket x.e)) ∧
    (∃ x, Stands (enqWaits 64) entry0 x (.wait (.enq 4095)) (.enq hd enqF) ∧ Clean x ∧ (x.g.place = .resident 0 ∧ (enqWaits 64).held = false ∧ x.e.remote = [] ∧
      ((enqWaits 64).queue 4095).st = .active) ∧ HasNone (enqWaits 64) x 4095) ∧
    ∃ x, Stands enqOver entry0 x (.wait (.enq 4095)) (.enq hd enqF) ∧ Clean x ∧ x.g.place = .resident 0 ∧ enqOver.held = false ∧ x.e.remote = [] ∧ (enqOver.queue 4095).st ≠ .active := by
  unfold Acts
  exact ⟨witness_issue (by decide +kernel), witness_issue (by decide +kernel), witness_enq_room, witness_enq_full, witness_enq_waits, witness_enq_stalls,
    witness_stands (by decide +kernel)⟩

/-! ### Tasks: a record at 0x10000, in two sectors, that s4:s5 name -/

/-- The record's bytes 0x18 to 0x1F and its first await word. -/
def recorded (at18 await : Nat) : State :=
  let s := onGroup tagged fun g => { g with sregs := [(4, 0x10000)] }
  { s with mem := (s.mem.place placeCode (bytesOfNat 8 0x10000 ++ bytesOfNat 8 0 ++ bytesOfNat 8 0 ++ bytesOfNat 8 at18)
      { key := .loaded 1, unit := 0x10000 / 32 }).place (placeCode + 32) (bytesOfNat 8 await ++ List.replicate 24 0) { key := .loaded 1, unit := 0x10020 / 32 } }

def recordB (s : State) (x : Issue) (p : List Byte → Bool) : Bool :=
  match s.record x.waveParty (uniValue x true 4) 64 with
  | .ok bs => p bs
  | .error _ => false
theorem record_of {s : State} {x : Issue} {p : List Byte → Bool} (h : recordB s x p = true) : ∃ bs, recordRead s x 4 bs ∧ p bs = true := by
  unfold recordB at h
  split at h
  · next bs e => exact ⟨bs, e, h⟩
  · cases h
theorem all_records {s : State} {x : Issue} {bs : List Byte} (h : recordRead s x 4 bs) {Q : List Byte → Prop} (hq : Q bs) : ∀ bs', recordRead s x 4 bs' → Q bs' := by
  intro bs' h'
  have := h.symm.trans h'
  cases this
  exact hq

/-- A task record that is accepted. -/
def GoodTask (s : State) (x : Issue) (bs : List Byte) : Prop :=
  taskRecordOk bs = true ∧ s.inSubtree (taskScope x bs) x.g.scope = true ∧ s.scopeLive (taskScope x bs) = true ∧ (∀ a ∈ awaitWords bs, s.awaitAt x.g.ctx a ≠ none) ∧
    s.tasks.length < 65536 ∧ (fieldAt bs 0x1D 1).testBit 0 = false
def pendingTask : Task := { entry := 0x10000, args := 0, done := 0, scope := placedHandle, autoScope := 0, awaits := [0x10020], st := .pending, ctx := 0, queue := 0, launch := 0, order := 0 }

/-- Nothing of another device has to be read for the record. -/
def Local (s : State) (x : Issue) : Prop := s.wanted x.waveParty .r (uniValue x true 4) 64 8 = []
theorem witness_task_bad : ∃ x bs, Issues (recorded 0 0) x ∧ Clean x ∧ Acts x hd ∧ Local (recorded 0 0) x ∧ recordRead (recorded 0 0) x 4 bs ∧
    ∀ bs, recordRead (recorded 0 0) x 4 bs → taskRecordOk bs = false := by
  unfold Acts Local
  obtain ⟨x, h1, h2, h3, hl, h4⟩ := witness_issue (s := recorded 0 0) (P := fun x => execMask hd x.w x.e &&& x.w.real ≠ 0 ∧
    (recorded 0 0).wanted x.waveParty .r (uniValue x true 4) 64 8 = [] ∧ recordB (recorded 0 0) x (fun bs => !taskRecordOk bs) = true) (by decide +kernel)
  obtain ⟨bs, h5, h6⟩ := record_of h4
  exact ⟨x, bs, h1, h2, h3, hl, h5, all_records (Q := fun bs => taskRecordOk bs = false) h5 (by simpa using h6)⟩
def unreadB (s : State) (x : Issue) : Bool :=
  match s.record x.waveParty (uniValue x true 4) 64 with
  | .ok _ => false
  | .error _ => true
theorem unread_of {s : State} {x : Issue} (h : unreadB s x = true) : ∀ bs, ¬ recordRead s x 4 bs := by
  intro bs hb
  have hb : s.record x.waveParty (uniValue x true 4) 64 = .ok bs := hb
  unfold unreadB at h
  rw [hb] at h
  cases h
theorem witness_task_unread : ∃ x, Issues start x ∧ Clean x ∧ Acts x hd ∧ Local start x ∧ ∀ bs, ¬ recordRead start x 4 bs := by
  unfold Acts Local
  obtain ⟨x, h1, h2, h3, hl, h4⟩ := witness_issue (s := start) (P := fun x => execMask hd x.w x.e &&& x.w.real ≠ 0 ∧
    start.wanted x.waveParty .r (uniValue x true 4) 64 8 = [] ∧ unreadB start x = true) (by decide +kernel)
  exact ⟨x, h1, h2, h3, hl, unread_of h4⟩
def oneAwait : State := recorded 0x0001000100000000 0x10020
def oneRecord : List Byte := bytesOfNat 8 0x10000 ++ bytesOfNat 8 0 ++ bytesOfNat 8 0 ++ bytesOfNat 8 0x0001000100000000 ++ bytesOfNat 8 0x10020 ++ List.replicate 24 0
theorem witness_task_good : ∃ x bs, Issues oneAwait x ∧ Clean x ∧ Acts x hd ∧ Local oneAwait x ∧ recordRead oneAwait x 4 bs ∧ GoodTask oneAwait x bs := by
  unfold Acts Local
  obtain ⟨x, h1, h2, h3, hl, h4, h5, h6, h7, h8⟩ := witness_issue (s := oneAwait) (P := fun x => execMask hd x.w x.e &&& x.w.real ≠ 0 ∧
    oneAwait.wanted x.waveParty .r (uniValue x true 4) 64 8 = [] ∧ recordB oneAwait x (fun bs => decide (bs = oneRecord)) = true ∧ taskRecordOk oneRecord = true ∧
    oneAwait.inSubtree (taskScope x oneRecord) x.g.scope = true ∧ oneAwait.scopeLive (taskScope x oneRecord) = true ∧ oneAwait.awaitAt x.g.ctx 0x10020 ≠ none)
    (by decide +kernel)
  obtain ⟨bs, h9, h10⟩ := record_of h4
  cases of_decide_eq_true h10
  refine ⟨x, oneRecord, h1, h2, h3, hl, h9, h5, h6, h7, fun a ha => ?_, by decide +kernel, by decide +kernel⟩
  rw [show awaitWords oneRecord = [0x10020] by decide +kernel, List.mem_singleton] at ha
  rw [ha]
  exact h8
def withTask : State := { tagged with tasks := [(65535, pendingTask)] }

theorem near_await : ∀ a ∈ pendingTask.awaits, ∀ t, withTask.awaitAt pendingTask.ctx a = some t → t.isRemote = false := by
  have h : (pendingTask.awaits.all fun a => (withTask.awaitAt pendingTask.ctx a).all fun t => !t.isRemote) = true := by decide +kernel
  intro a ha t ht
  have := List.all_eq_true.mp h a ha
  rw [ht] at this
  simpa using this
theorem witness_TaskCreation :
    (∃ x bs, Issues (recorded 0 0) x ∧ Clean x ∧ Acts x hd ∧ Local (recorded 0 0) x ∧ recordRead (recorded 0 0) x 4 bs ∧ ∀ bs, recordRead (recorded 0 0) x 4 bs → taskRecordOk bs = false) ∧
    (∃ x, Issues start x ∧ Clean x ∧ Acts x hd ∧ Local start x ∧ ∀ bs, ¬ recordRead start x 4 bs) ∧
    (∃ x bs, Issues oneAwait x ∧ Clean x ∧ Acts x hd ∧ Local oneAwait x ∧ recordRead oneAwait x 4 bs ∧ GoodTask oneAwait x bs) ∧
    aget withTask.tasks 65535 = some pendingTask ∧ pendingTask.st = .pending ∧ withTask.askedFor (.taskExamine 65535) = [] ∧
    ∀ a ∈ pendingTask.awaits, ∀ t, withTask.awaitAt pendingTask.ctx a = some t → t.isRemote = false :=
  ⟨witness_task_bad, witness_task_unread, witness_task_good, by decide +kernel, by decide, by decide +kernel, near_await⟩

/-! ### Matrix engines and twins -/

def tileF : XF := xf 15 0 0 0 0xFF 7 0 false true 0
def wave0 : WaveRef := ⟨0, 0⟩
def wave1 : WaveRef := ⟨1, 0⟩
def opOf (i : Instr) (r : WaveRef) : MatOp := { insn := i, wave := r, partner := none, ra := 0, rb := 0, rs := none, pra := 0, prs := none, next := 0, only := none }
/-- The engine of the placed wave. -/
def engined (e : Engine) : State := { start with engines := [(0, e)] }
def baton : Engine := { Engine.start with holder := some wave0 }
def queued (n : Nat) : Engine := { baton with ops := List.replicate n (opOf (.mzero hd tileF) wave0) }
def rowOf (r : WaveRef) : Row := { tag := r, elems := [], poison := 0 }

/-- Two groups of one wave, twins, the first of which issues; their pair is JOINED. -/
def twins (e : Engine) : State :=
  let g := fun rank => { (newGroup 0 placedLaunch 0 (1 + rank) 0 [{ placedWave with pair := .joined }]) with twin := true, follower := decide (rank = 1), rank := rank }
  { engined e with groups := [(0, g 0), (1, g 1)], launches := [(0, { placedLaunch with gangs := [{ Gang.start with st := .placed, groups := [0, 1] }] })] }

theorem witness_TileInstructions :
    (∃ x, Issues (onWave start fun w => { w with acct := 15 }) x ∧ x.e.mask &&& x.w.real ≠ 0 ∧ (tileForms hd tileF).all (fun p => decide (x.w.acct < p.2)) = true) ∧
    (∃ x, Issues start x ∧ Clean x ∧ ¬ Acts x never ∧ (tileForms never tileF).all (fun p => decide (p.2 ≤ x.w.acct)) = true) ∧
    (∃ x, Issues start x ∧ Clean x ∧ Acts x hd ∧ (tileForms hd tileF).all (fun p => decide (p.2 ≤ x.w.acct)) = true ∧ start.joinedWith x.waveRef = none ∧
      start.holds x.waveRef = false) ∧
    (∃ x, Issues (engined (queued 15)) x ∧ Clean x ∧ Acts x hd ∧ (engined (queued 15)).joinedWith x.waveRef = none ∧ (engined (queued 15)).holds x.waveRef = true ∧
      (engined (queued 15)).engineOf x.waveRef = some 0 ∧ ((engined (queued 15)).engine 0).ops.length < 16) ∧
    (∃ x, Issues (engined (queued 16)) x ∧ Clean x ∧ Acts x hd ∧ (engined (queued 16)).joinedWith x.waveRef = none ∧ (engined (queued 16)).holds x.waveRef = true ∧
      (engined (queued 16)).engineOf x.waveRef = some 0 ∧ 16 ≤ ((engined (queued 16)).engine 0).ops.length) ∧
    ∃ x, Issues (twins baton) x ∧ Clean x ∧ Acts x hd ∧ (twins baton).joinedWith x.waveRef = some wave1 ∧ ((twins baton).arrivals wave1).isEmpty = true ∧ 16 ≤ x.w.acct := by
  unfold Acts Clean Issues
  refine ⟨?_, witness_issue (by decide +kernel), witness_issue (by decide +kernel), witness_issue (by decide +kernel), witness_issue (by decide +kernel),
    witness_issue (by decide +kernel)⟩
  obtain ⟨x, h1, _, h2⟩ := witness_issue (s := onWave start fun w => { w with acct := 15 }) (P := fun x => x.e.mask &&& x.w.real ≠ 0 ∧
    (tileForms hd tileF).all (fun p => decide (x.w.acct < p.2)) = true) (by decide +kernel)
  exact ⟨x, h1, h2⟩

def batonAway : Engine := { Engine.start with holder := some wave1, fifo := [] }
def batonAsked : Engine := { Engine.start with holder := none, fifo := [wave1] }
def rowsBoth : Engine := { baton with drain := [rowOf wave1, rowOf wave0, rowOf wave1] }
def draining : Engine := { baton with ops := [opOf (.mdrain hd tileF) wave0], drain := [rowOf wave1] }

theorem witness_HalyardAndDrain :
    (∃ x, Issues (engined baton) x ∧ Clean x ∧ Acts x hd ∧ (engined baton).engineOf x.waveRef = some 0 ∧ (engined baton).holds x.waveRef = true ∧
      ((engined baton).engine 0).fifo = []) ∧
    (∃ x, Issues start x ∧ Clean x ∧ Acts x hd ∧ start.engineOf x.waveRef = some 0 ∧ start.holds x.waveRef = false ∧ (start.engine 0).holder = none ∧
      (start.engine 0).fifo = [] ∧ start.joinedWith x.waveRef = none) ∧
    (∃ x, Issues (engined batonAway) x ∧ Clean x ∧ Acts x hd ∧ (engined batonAway).engineOf x.waveRef = some 0 ∧ (engined batonAway).holds x.waveRef = false ∧
      ((engined batonAway).engine 0).holder ≠ none) ∧
    (∃ x, Issues (engined batonAsked) x ∧ Clean x ∧ Acts x hd ∧ (engined batonAsked).engineOf x.waveRef = some 0 ∧ (engined batonAsked).holds x.waveRef = false ∧
      ((engined batonAsked).engine 0).fifo ≠ []) ∧
    (∃ x, Issues (engined rowsBoth) x ∧ Clean x ∧ Acts x hd ∧ (engined rowsBoth).engineOf x.waveRef = some 0 ∧
      FirstRow ((engined rowsBoth).engine 0) x.waveRef [rowOf wave1] (rowOf wave0) [rowOf wave1]) ∧
    (∃ x, Issues (engined draining) x ∧ Clean x ∧ Acts x hd ∧ (engined draining).engineOf x.waveRef = some 0 ∧
      (((engined draining).engine 0).drain.all fun q => decide (q.tag ≠ x.waveRef)) = true ∧
      (((engined draining).engine 0).ops.any fun op => decide (op.wave = x.waveRef) && decide (opRows op.insn ≠ 0)) = true) ∧
    ∃ x, Issues (engined (queued 16)) x ∧ Clean x ∧ Acts x hd ∧ (engined (queued 16)).engineOf x.waveRef = some 0 ∧
      (((engined (queued 16)).engine 0).drain.all fun q => decide (q.tag ≠ x.waveRef)) = true ∧
      (((engined (queued 16)).engine 0).ops.all fun op => decide (opRows op.insn = 0)) = true ∧
      (((engined (queued 16)).engine 0).drain.filter fun q => decide (q.tag = x.waveRef)).length < 128 ∧ x.w.acct < 32 ∧
      (((engined (queued 16)).engine 0).ops.filter fun op => decide (op.wave = x.waveRef ∨ op.partner = some x.waveRef)).length < 32 := by
  unfold Acts FirstRow
  refine ⟨witness_issue (by decide +kernel), witness_issue (by decide +kernel), witness_issue (by decide +kernel), witness_issue (by decide +kernel),
    witness_issue (by decide +kernel), witness_issue (by decide +kernel), witness_issue (by decide +kernel)⟩

/-- Operations at the head of the engine. -/
def headed (i : Instr) : State := engined { baton with ops := [opOf i wave0], drain := List.replicate 63 (rowOf wave1) }
theorem witness_EngineSteps : ∀ i ∈ [Instr.mma hd tileF, .mzero hd tileF, .mpush hd tileF, .mdrain hd tileF],
    0 / 4 ∉ (headed i).mgmt.gated ∧ ((headed i).engine 0).ops = [opOf i wave0] ∧ ((headed i).waveOf wave0).isSome = true ∧ (opOf i wave0).partner = none ∧
      (opOf i wave0).only = none ∧ ((headed i).waveOf wave0).elim true (fun w => w.ended) = false ∧ ((headed i).engine 0).drain.length < 64 ∧
      ((headed i).waveOf wave0).elim false (fun w => (List.range 8).all fun k => (w.entry? k).all fun v => decide (v.st ≠ .wait .mpop)) = true ∧
      (engined Engine.start |>.engine 0).ops = [] := by decide +kernel

/-! ### Barriers, gangs, twins -/

/-- Two waves in the group; with an arrival of the other wave at barrier 15. -/
def twoWaves (b : Bar) : State := onGroup start fun g => { g with waves := [placedWave, { placedWave with slot := 1 }], bars := setAt 15 b g.bars, sregs := [(4, 5)] }
def barF : SF := sf 2 4 15 0
def arrivedOther : Bar := { Bar.start with arr := 2 }
def arrivedSelf : Bar := { Bar.start with arr := 1, cnt := 5 }

/-- Beside the issuing group, whose s4:s5 name barrier 15 of tag 2, a saved group with that tag. -/
def savedOther : State := { start with groups := [(0, { (newGroup 0 placedLaunch 0 1 0 [placedWave]) with sregs := [(4, 0x20F), (5, 0x00010000)] }),
  (1, { (newGroup 0 placedLaunch 0 2 0 [placedWave]) with place := .saved })] }

theorem witness_BarrierInstructions :
    (∃ x, Issues (twoWaves arrivedOther) x ∧ Clean x ∧ Acts x hd ∧ x.ref.slot < 8 ∧ x.g.waves.length ≤ 32 ∧ (twoWaves arrivedOther).held = false ∧ 15 < x.g.bars.length ∧
      (x.g.bar 15).arr.getLsbD x.ref.wi = false ∧ (arrivedAt (x.g.bar 15) x.ref.wi none).arr = 3) ∧
    (∃ x, Issues (twoWaves Bar.start) x ∧ Clean x ∧ Acts x hd ∧ x.g.waves.length ≤ 32 ∧ (twoWaves Bar.start).held = false ∧ 15 < x.g.bars.length ∧
      (x.g.bar 15).arr.getLsbD x.ref.wi = false) ∧
    (∃ x, Issues (twoWaves arrivedSelf) x ∧ Clean x ∧ Acts x hd ∧ (x.g.bar 15).arr.getLsbD x.ref.wi = true ∧
      ¬ (1 ≤ ((x.g.bar 15).cnt - sget 0 x.g.sregs 4).toNat)) ∧
    (∃ x, Issues start x ∧ Clean x ∧ Acts x hd ∧ x.g.tag < 2 ^ 24 ∧ x.g.ctx < 1024) ∧
    (∃ x, Issues savedOther x ∧ Clean x ∧ Acts x hd ∧ (savedOther.taggedGroup 0 2).elim false (fun p => savedOther.scopeLive p.2.scope && !savedOther.present p.2) = true ∧
      (uniValue x true 4).toNat = 15 + 2 * 2 ^ 8 + 2 ^ 48 * (savedOther.ctxGen 0).toNat ∧ savedOther.sameTenant 0 x.g.ctx = true) ∧
    ∃ x, Issues (onGroup start fun g => { g with sregs := [(4, 0x110), (5, 0x00010000), (6, 0x100), (7, 0x00020000), (8, 0x200), (9, 0x00010000)] }) x ∧ Clean x ∧ Acts x hd ∧
      (let v := fun n => (uniValue x true n).toNat
       v 4 / 16 % 16 ≠ 0 ∧ (start.ctxGen (v 6 / 2 ^ 32 % 1024)).toNat ≠ v 6 / 2 ^ 48 ∧ start.taggedGroup (v 8 / 2 ^ 32 % 1024) (v 8 / 2 ^ 8 % 2 ^ 24) = none) := by
  unfold Acts
  exact ⟨witness_issue (by decide +kernel), witness_issue (by decide +kernel), witness_issue (by decide +kernel), witness_issue (by decide +kernel),
    witness_issue (by decide +kernel), witness_issue (by decide +kernel)⟩

theorem entries_all {s : State} {p : Entry → Bool} (h : (s.groups.all fun g => g.2.waves.all fun w => w.entries.all fun e => e.all p) = true) :
    ∀ r w i e, s.waveOf r = some w → w.entry? i = some e → p e = true := by
  intro r w i e hw he
  unfold State.waveOf State.wave? at hw
  cases hg : s.group? r.gid with
  | none => rw [hg] at hw; cases hw
  | some g =>
    rw [hg] at hw
    have hm : (r.gid, g) ∈ s.groups := mem_of_aget hg
    have h2 := List.all_eq_true.mp (List.all_eq_true.mp h _ hm) w (List.mem_of_getElem? hw)
    have h3 : some e ∈ w.entries := by
      unfold Wave.entry? at he
      cases h4 : w.entries[i]? with
      | none => rw [h4] at he; cases he
      | some o => rw [h4] at he; cases o with
        | none => cases he
        | some e' => cases he; exact List.mem_of_getElem? h4
    simpa using List.all_eq_true.mp h2 _ h3

def asTask : State := onGroup start fun g => { g with task := some 0 }
theorem joined_single {s : State} {gid wi : Nat} (h : ∀ g, s.group? gid = some g → g.twin = false) : s.joinedWith ⟨gid, wi⟩ = none := by
  unfold State.joinedWith State.partner
  cases hg : s.group? gid with
  | none => cases s.waveOf ⟨gid, wi⟩ <;> simp
  | some g => cases s.waveOf ⟨gid, wi⟩ <;> simp [h g hg]

theorem joined_absent {s : State} {gid wi : Nat} (h : ∀ g, s.group? gid = some g → g.waves.length ≤ wi) : s.joinedWith ⟨gid, wi⟩ = none := by
  have hw : s.waveOf ⟨gid, wi⟩ = none := by
    unfold State.waveOf State.wave?
    cases hg : s.group? gid with
    | none => rfl
    | some g => simpa using h g hg
  unfold State.joinedWith
  rw [hw]

theorem witness_GangAndTwin :
    (∃ x, Issues asTask x ∧ Clean x ∧ Acts x hd ∧ asTask.gangOf x.g = none) ∧
    (∃ x, Issues (twins baton) x ∧ Clean x ∧ Acts x hd ∧ ((twins baton).gangOf x.g).elim false (fun k => decide (7 < k.garr.length) &&
      ((twins baton).gangParties k).any fun p => decide (p ≠ (x.ref.gid, x.ref.wi)) && decide (p ∉ k.garr[7]?.getD [])) = true) ∧
    (∃ x, Issues start x ∧ Clean x ∧ Acts x hd ∧ x.ref.slot < 8 ∧ start.held = false ∧ (start.gangOf x.g).elim false (fun k => decide (x.ref.gid ∈ k.groups) &&
      decide (7 < k.garr.length) && decide (7 < k.gphase.length) && (start.gangParties k).all fun p => decide (p = (x.ref.gid, x.ref.wi))) = true ∧
      ∀ i v b q, x.w.entry? i = some v → v.st ≠ .wait (.gbar b q)) ∧
    (∃ x, Issues start x ∧ Clean x ∧ Acts x hd ∧ ∀ wi, start.joinedWith ⟨x.ref.gid, wi⟩ = none) ∧
    (∃ x, Issues (twins baton) x ∧ Clean x ∧ Acts x hd ∧ (twins baton).joinedWith x.waveRef = some wave1 ∧ wave1 ≠ x.waveRef ∧ ((twins baton).waveOf wave1).isSome = true ∧
      (∀ wi, wi ≠ x.ref.wi → (twins baton).joinedWith ⟨x.ref.gid, wi⟩ = none) ∧
      ∀ r w i e, (r = wave1 ∨ r = x.waveRef) → (twins baton).waveOf r = some w → w.entry? i = some e → e.st ≠ .wait .rendezvous) ∧
    ∃ x, Issues (onWave (twins baton) fun w => { w with pair := .parted 7 }) x ∧ Clean x ∧ Acts x hd ∧ ∀ c, x.w.pair = .parted c → c < 8 := by
  unfold Acts
  refine ⟨witness_issue (by decide +kernel), witness_issue (by decide +kernel), ?_, ?_, ?_, ?_⟩
  · obtain ⟨x, h1, h2, h3, h4, h5, h6, h7⟩ := witness_issue (s := start) (P := fun x => execMask hd x.w x.e &&& x.w.real ≠ 0 ∧ x.ref.slot < 8 ∧ start.held = false ∧
      (start.gangOf x.g).elim false (fun k => decide (x.ref.gid ∈ k.groups) && decide (7 < k.garr.length) && decide (7 < k.gphase.length) &&
        (start.gangParties k).all fun p => decide (p = (x.ref.gid, x.ref.wi))) = true ∧
      (x.w.entries.all fun e => e.all fun v => match v.st with
        | .wait _ => false
        | _ => true) = true) (by decide +kernel)
    refine ⟨x, h1, h2, h3, h4, h5, h6, fun i v b q he hs => ?_⟩
    have hm : some v ∈ x.w.entries := by
      unfold Wave.entry? at he
      cases hj : x.w.entries[i]? with
      | none => rw [hj] at he; cases he
      | some e =>
        rw [hj] at he
        cases he
        exact List.mem_of_getElem? hj
    have := List.all_eq_true.mp h7 _ hm
    simp [hs] at this
  · obtain ⟨x, h1, h2, h3, h4⟩ := witness_issue (s := start) (P := fun x => execMask hd x.w x.e &&& x.w.real ≠ 0 ∧
      ((start.group? x.ref.gid).elim true fun g => !g.twin) = true) (by decide +kernel)
    exact ⟨x, h1, h2, h3, fun wi => joined_single (fun g hg => by simp_all)⟩
  · obtain ⟨x, h1, h2, h3, h4, h5, h6, _, h7⟩ := witness_issue (s := twins baton) (P := fun x => execMask hd x.w x.e &&& x.w.real ≠ 0 ∧
      (twins baton).joinedWith x.waveRef = some wave1 ∧ wave1 ≠ x.waveRef ∧ ((twins baton).waveOf wave1).isSome = true ∧
      (x.w.awaitBaton = false ∧ ((twins baton).waveOf wave1).all (fun v => !v.awaitBaton) = true) ∧ ((twins baton).group? x.ref.gid).elim false (fun g => decide (g.waves.length ≤ 1)) = true ∧ x.ref.wi = 0) (by decide +kernel)
    refine ⟨x, h1, h2, h3, h4, h5, h6, fun wi hw => joined_absent (fun g hg => ?_), fun r w i e _ hw he => ?_⟩
    · rw [hg] at h7
      obtain ⟨h7, h8⟩ := h7
      rw [h8] at hw
      simp at h7
      omega
    simpa using entries_all (p := fun e => decide (e.st ≠ .wait .rendezvous)) (by decide +kernel) r w i e hw he
  · obtain ⟨x, h1, h2, h3, h4⟩ := witness_issue (s := onWave (twins baton) fun w => { w with pair := .parted 7 }) (P := fun x => execMask hd x.w x.e &&& x.w.real ≠ 0 ∧
      x.w.pair = .parted 7) (by decide +kernel)
    exact ⟨x, h1, h2, h3, fun c hc => by rw [h4] at hc; cases hc; decide⟩

/-! ### Events of waves -/

theorem find_entry {s : State} {P : Issue → Prop} [DecidablePred P] (h : ((s.issueOf entry0).elim false fun x => decide (P x)) = true) :
    ∃ x, s.issueOf entry0 = some x ∧ P x := by
  cases hx : s.issueOf entry0 with
  | none => rw [hx] at h; cases h
  | some x => rw [hx] at h; exact ⟨x, rfl, of_decide_eq_true h⟩

theorem calm_of {x : Issue} (h : (x.ref.slot = 0 ∧ x.w.entries.drop 1 = List.replicate 7 none) ∧ x.e.mask ≠ 0 ∧ x.w.spill = List.replicate 8 none ∧ x.w.faults = []) :
    Calm x :=
  alone_calm h.1 h.2.1 h.2.2

def landing : Pend := { seq := 3, writes := [⟨regKey 4 31, 7, false⟩, ⟨regKey 1023 31, 8, true⟩], flags := 1, trap := none }
def landed : State := onWave (onEntry start fun e => { e with st := .yield 4 }) fun w => { w with pend := [landing], nextSeq := 4 }
def trapOne : PTrap := { cause := .fpInexact, code := 0, mask := 0xFFFFFFFF, tdst := 4, addr := 0x10000, lanes := 0xFFFFFFFF, seq := 0 }
def trapWaits (on : Bool) : State := onWave start fun w => { w with ptraps := [trapOne], uten := on, tvec := 0x10008 }

/-- The place that the entry's word is fetched from. -/
def fetchAt (s : State) (ctx : Nat) (pc : Nat) : Option Site :=
  match s.translate ctx .rx pc with
  | .ok t => some t
  | .error _ => none
theorem fetch_at {s : State} {ctx pc : Nat} {p : Site → Bool} (h : (fetchAt s ctx pc).any p = true) : ∃ t, s.translate ctx .rx pc = .ok t ∧ p t = true := by
  unfold fetchAt at h
  split at h
  · next t e => exact ⟨t, e, h⟩
  · cases h
def fetches (s : State) (t : Site) : Bool := !t.isRemote && !s.lostAt t && (s.readSite t 8).all fun b => !b.2

theorem witness_ResultsFetchAndTraps :
    (∃ w, landed.waveOf wave0 = some w ∧ landing ∈ w.pend ∧ (∀ q ∈ w.pend, q.seq = landing.seq → q = landing) ∧ landing.trap = none ∧
      (∀ q ∈ landing.writes, q.key < sBase) ∧ (landing.writes.map fun q => q.key).Nodup) ∧
    (∃ x t, start.issueOf entry0 = some x ∧ x.e.st = .ready ∧ start.waveRuns x.g x.w = true ∧ x.e.latch = none ∧ x.e.pc.toNat < 2 ^ 56 ∧
      start.translate x.g.ctx .rx x.e.pc.toNat = .ok t ∧ fetches start t = true) ∧
    (∃ x, (onEntry start fun e => { e with pc := 0x0100000000000000 }).issueOf entry0 = some x ∧ x.e.st = .ready ∧ x.e.latch = none ∧ 2 ^ 56 ≤ x.e.pc.toNat) ∧
    (∃ x, (trapWaits true).issueOf entry0 = some x ∧ x.e.st = .ready ∧ x.w.ended = false ∧ Calm x ∧ x.w.ptraps = [trapOne] ∧ trapOne.lanes &&& x.e.mask ≠ 0 ∧
      x.w.uten = true ∧ x.w.tvec ≠ 0 ∧ x.w.inh = false ∧ (trapOne.cause = .breakpoint → x.w.brkpark = false)) ∧
    ∃ x, (trapWaits false).issueOf entry0 = some x ∧ x.e.st = .ready ∧ x.w.ended = false ∧ Calm x ∧ x.w.ptraps = [trapOne] ∧ trapOne.lanes &&& x.e.mask ≠ 0 ∧
      trapOne.mask &&& x.e.mask &&& x.w.real = x.e.mask ∧ x.w.uten = false := by
  refine ⟨⟨_, rfl, by decide +kernel⟩, ?_, find_entry (by decide +kernel), ?_, ?_⟩
  · obtain ⟨x, h1, h2, h3, h4, h5, h6⟩ := find_entry (s := start) (P := fun x => x.e.st = .ready ∧ start.waveRuns x.g x.w = true ∧ x.e.latch = none ∧
      x.e.pc.toNat < 2 ^ 56 ∧ (fetchAt start x.g.ctx x.e.pc.toNat).any (fetches start) = true) (by decide +kernel)
    obtain ⟨t, h7, h8⟩ := fetch_at h6
    exact ⟨x, t, h1, h2, h3, h4, h5, h7, h8⟩
  · obtain ⟨x, h1, h2, h3, h4, h5⟩ := find_entry (s := trapWaits true) (P := fun x => x.e.st = .ready ∧ x.w.ended = false ∧
      ((x.ref.slot = 0 ∧ x.w.entries.drop 1 = List.replicate 7 none) ∧ x.e.mask ≠ 0 ∧ x.w.spill = List.replicate 8 none ∧ x.w.faults = []) ∧ x.w.ptraps = [trapOne] ∧
      trapOne.lanes &&& x.e.mask ≠ 0 ∧ x.w.uten = true ∧ x.w.tvec ≠ 0 ∧ x.w.inh = false ∧ (trapOne.cause = .breakpoint → x.w.brkpark = false)) (by decide +kernel)
    exact ⟨x, h1, h2, h3, calm_of h4, h5⟩
  · obtain ⟨x, h1, h2, h3, h4, h5⟩ := find_entry (s := trapWaits false) (P := fun x => x.e.st = .ready ∧ x.w.ended = false ∧
      ((x.ref.slot = 0 ∧ x.w.entries.drop 1 = List.replicate 7 none) ∧ x.e.mask ≠ 0 ∧ x.w.spill = List.replicate 8 none ∧ x.w.faults = []) ∧ x.w.ptraps = [trapOne] ∧
      trapOne.lanes &&& x.e.mask ≠ 0 ∧ trapOne.mask &&& x.e.mask &&& x.w.real = x.e.mask ∧ x.w.uten = false) (by decide +kernel)
    exact ⟨x, h1, h2, h3, calm_of h4, h5⟩

/-- Lane 31 waits for the word at 0x10008, which holds 0, to be at least v; or at the full/empty word there. -/
def waitOp31 (v : Nat) : LaneOp := { lane := 31, accs := [(0x10008, 8)], data := bytesOfNat 8 v, cmp := [], dst := some (regKey 10 31) }
def memWaits (ge : Bool) (v : Nat) : State := onEntry start fun e =>
  { e with st := .wait .mem, insn := some (if ge then .wtge hd waitF else .wteq hd waitF), exec := e.mask, plan := [waitOp31 v] }
def feWaits : State := onEntry taggedFull fun e => { e with st := .wait .fe, insn := some (.ldfe hd waitF), exec := e.mask, plan := [waitOp31 0] }

def laneAt (s : State) (p : Party) (i : Instr) (op : LaneOp) : Option (W64 × Nat × Nat × KeyMat × Nat) :=
  match laneSites s p i op with
  | .ok [(a, [(.dev pa va key true, n)])] => some (a, pa, va, key, n)
  | _ => none
theorem lane_at {s : State} {p : Party} {i : Instr} {op : LaneOp} {v : W64 × Nat × Nat × KeyMat × Nat} (h : laneAt s p i op = some v) :
    laneSites s p i op = .ok [(v.1, [(.dev v.2.1 v.2.2.1 v.2.2.2.1 true, v.2.2.2.2)])] := by
  unfold laneAt at h
  split at h
  · next e => cases h; exact e
  · cases h

theorem mem_waits (ge : Bool) (v : Nat) (hold : Bool) (h : (((memWaits ge v).issueOf entry0).elim false fun x => decide (x.e.st = .wait .mem ∧
      x.e.insn = some (if ge then .wtge hd waitF else .wteq hd waitF) ∧ cleanB x = true ∧ quietB (memWaits ge v) x = true ∧ x.w.faults = [] ∧ (memWaits ge v).held = false ∧ x.e.plan = [waitOp31 v] ∧ x.e.done.getLsbD 31 = false ∧
      x.w.real.getLsbD 31 = true ∧ reachB (memWaits ge v) x (if ge then .wtge hd waitF else .wteq hd waitF) (waitOp31 v) = true ∧
      ((sitesOf (memWaits ge v) x (if ge then .wtge hd waitF else .wteq hd waitF) (waitOp31 v)).all fun t => !(memWaits ge v).poisonedAt t.1 t.2) = true ∧
      waitHolds ge 8 (natOfBytes (((memWaits ge v).readSites (sitesOf (memWaits ge v) x (if ge then .wtge hd waitF else .wteq hd waitF) (waitOp31 v))).map fun b => b.1))
        (natOfBytes (waitOp31 v).data) = hold ∧ x.e.vals = [] ∧
      ((memWaits ge v).readSites (sitesOf (memWaits ge v) x (if ge then .wtge hd waitF else .wteq hd waitF) (waitOp31 v))).length = 8)) = true) :
    ∃ x ts, Stands (memWaits ge v) entry0 x (.wait .mem) (if ge then .wtge hd waitF else .wteq hd waitF) ∧ Clean x ∧ Quiet (memWaits ge v) x ∧ Unfaulted x ∧
      (memWaits ge v).held = false ∧ x.e.plan = [waitOp31 v] ∧ x.e.done.getLsbD (waitOp31 v).lane = false ∧ x.w.real.getLsbD (waitOp31 v).lane = true ∧
      Reaches (memWaits ge v) x (if ge then .wtge hd waitF else .wteq hd waitF) (waitOp31 v) ts ∧ (∀ t ∈ ts, (memWaits ge v).poisonedAt t.1 t.2 = false) ∧
      waitHolds ge (mfSize waitF) (natOfBytes (((memWaits ge v).readSites ts).map fun b => b.1)) (natOfBytes (waitOp31 v).data) = hold ∧ x.e.vals = [] ∧
      ((memWaits ge v).readSites ts).length = mfSize waitF := by
  obtain ⟨x, h0, h1, h2, h3, h7, h8, h9, h10, h11, h12, h13, h14, h15⟩ := find_entry h
  exact ⟨x, _, ⟨h0, h1, h2⟩, clean_of h3, quiet_of h7, unfaulted_of h8, h9, h10, h11, h12, reaches_of h13, fun t ht => by simpa using List.all_eq_true.mp h14 t ht, h15⟩

theorem lone_waiter {s : State} {g : Group} {w : Wave} {e : Entry} (hs : s.groups = [(0, g)]) (hg : g.waves = [w]) (hw : w.entries = some e :: List.replicate 7 none) :
    ∀ q y, s.issueOf q = some y → y.e.st = .wait .fe → q = entry0 := by
  intro q y hy _
  unfold State.issueOf State.issuer? State.group? at hy
  simp only [hs, aget_cons, aget_nil] at hy
  split at hy
  · cases hy
  · next k hk =>
    split at hk
    · next h0 =>
      cases hk
      simp only [hg] at hy
      split at hy
      · cases hy
      · next v hv =>
        obtain ⟨e', he, rfl⟩ := Option.map_eq_some_iff.mp hy
        rcases q with ⟨a, b, c⟩
        simp only at h0 hv he
        cases b with
        | succ b => simp at hv
        | zero =>
          simp only [List.getElem?_cons_zero, Option.some.injEq] at hv
          subst hv
          cases c with
          | zero => subst h0; rfl
          | succ c =>
            unfold Wave.entry? at he
            rw [hw, List.getElem?_cons_succ, List.getElem?_replicate] at he
            split at he <;> cases he
    · cases hk

theorem witness_WaitersAreServed :
    (∀ ge : Bool, ∀ v ∈ [0, 1], ∃ x ts, Stands (memWaits ge v) entry0 x (.wait .mem) (if ge then .wtge hd waitF else .wteq hd waitF) ∧ Clean x ∧ Quiet (memWaits ge v) x ∧
      Unfaulted x ∧ (memWaits ge v).held = false ∧ x.e.plan = [waitOp31 v] ∧ x.e.done.getLsbD (waitOp31 v).lane = false ∧ x.w.real.getLsbD (waitOp31 v).lane = true ∧
      Reaches (memWaits ge v) x (if ge then .wtge hd waitF else .wteq hd waitF) (waitOp31 v) ts ∧ (∀ t ∈ ts, (memWaits ge v).poisonedAt t.1 t.2 = false) ∧
      waitHolds ge (mfSize waitF) (natOfBytes (((memWaits ge v).readSites ts).map fun b => b.1)) (natOfBytes (waitOp31 v).data) = decide (v = 0) ∧ x.e.vals = [] ∧
      ((memWaits ge v).readSites ts).length = mfSize waitF) ∧
    NoFeWaiters start ∧
    ∃ x pa va key, Stands feWaits entry0 x (.wait .fe) (.ldfe hd waitF) ∧ (∀ q y, feWaits.issueOf q = some y → y.e.st = .wait .fe → q = entry0) ∧
      feWaits.mgmt.peerWaits = [] ∧ feWaits.scopeLive x.g.scope = true ∧ Clean x ∧ Quiet feWaits x ∧ Unfaulted x ∧ feWaits.held = false ∧ x.g.place = .resident 0 ∧ entry0.slot < 8 ∧ x.e.mark = none ∧ x.e.vals = [] ∧ x.e.plan = [waitOp31 0] ∧
      x.e.done.getLsbD 31 = false ∧ x.w.real.getLsbD 31 = true ∧
      laneSites feWaits (x.party 31) (.ldfe hd waitF) (waitOp31 0) = .ok [(0x10008, [(.dev pa va key true, 8)])] ∧ pa / 8 ∈ feWaits.mem.full := by
  refine ⟨?_, no_fe rfl (by decide +kernel), ?_⟩
  · intro ge v hv
    have hv : v = 0 ∨ v = 1 := by simpa using hv
    rcases hv with rfl | rfl <;> cases ge <;> exact mem_waits _ _ _ (by decide +kernel)
  · obtain ⟨x, h1, h2, hl, h3, h4, h6, h8, h9, h10, h11, h12, h13⟩ := witness_stands (s := feWaits) (st := .wait .fe) (i := .ldfe hd waitF) (P := fun x =>
      feWaits.scopeLive x.g.scope = true ∧ quietB feWaits x = true ∧ x.w.faults = [] ∧ x.g.place = .resident 0 ∧ x.e.mark = none ∧ x.e.vals = [] ∧
      x.e.plan = [waitOp31 0] ∧ x.e.done.getLsbD 31 = false ∧ x.w.real.getLsbD 31 = true ∧
      laneAt feWaits (x.party 31) (.ldfe hd waitF) (waitOp31 0) = some (0x10008, 0x200008, 0x10008, .loaded 1, 8)) (by decide +kernel)
    exact ⟨x, _, _, _, h1, lone_waiter rfl rfl rfl, rfl, hl, h2, quiet_of h3, unfaulted_of h4, rfl, h6, by decide, h8, h9, h10, h11, h12, lane_at h13, by decide +kernel⟩

/-! ### Dumps, doorbells and queues -/

def faultedGroup (hold : Bool) : State :=
  let s := onGroup start fun g => { g with place := .faulted 239, cause := some 4 }
  { s with mgmt := { s.mgmt with policyHold := if hold then [0] else [] } }
theorem witness_FaultDumps : ∀ hold : Bool, ∃ g, (faultedGroup hold).group? 0 = some g ∧ g.place = .faulted 239 ∧ (faultedGroup hold).opsOf 0 = false ∧
    (faultedGroup hold).awaitsRemote [0] = false ∧ (∀ w ∈ g.waves, w.pend = []) ∧
    ((aget (faultedGroup hold).mgmt.faultList g.ctx).getD []).length < 256 ∧ (faultedGroup hold).scopeLive g.scope = true ∧ (g.ctx ∈ (faultedGroup hold).mgmt.policyHold ↔ hold = true) := by
  intro hold
  cases hold <;> exact ⟨_, rfl, rfl, by decide +kernel, by decide +kernel, by decide +kernel, by decide +kernel, by decide +kernel, by decide +kernel⟩

/-- Queue 4095 of function 1 of one. -/
def ofVF : State := { ringed 1 63 with queues := [(4095, { Queue.start with st := .active, log2size := 6, func := 1 })], host := { start.host with numVFs := 1 } }
theorem witness_Doorbells : (4095 < 4096 ∧ MayRing start 0 4095 ∧ (start.queue 4095).st = .free) ∧ (MayRing ofVF 1 4095 ∧ (ofVF.queue 4095).st ≠ .free) ∧
    ¬ (MayRing ofVF 2 4095 ∧ 8 = 8 ∧ 0 = 0) ∧ (¬ (MayRing ofVF 1 4095 ∧ 4 = 8 ∧ 7 = 0) ∧ 7 < 8) ∧ (8 ≤ 8 % 4096 ∨ 4096 ≤ 8 / 4096) ∧
    (8 ≤ 16777216 % 4096 ∨ 4096 ≤ 16777216 / 4096) ∧ ¬ MayRing ofVF 2 4095 := by
  decide +kernel

def disabledQueue (log2 : BitVec 5) : Queue :=
  { Queue.start with st := .disabled, log2size := log2, qbase := 0x10040, qwptra := 0x10008, qrptra := 0x10010, qscope := placedHandle, vec := 2047 }
def withQueue (q : Queue) : State := { start with queues := [(4095, q)] }
def change (s : State) (ctx : Nat) (a : W64) (f : W64 → W64) : Bool := (s.changeWord ctx a f).isSome
theorem change_of {s : State} {ctx : Nat} {a : W64} {f : W64 → W64} (h : change s ctx a f = true) : ∃ u, s.changeWord ctx a f = some u := Option.isSome_iff_exists.mp h

theorem witness_QueueControl : ((start.queue 4095).st = .free ∨ (start.queue 4095).st = .disabled) ∧
    ((ofVF.queue 4095).st = .active ∧ 0x27 < 0x28) ∧
    (let s := withQueue (disabledQueue 6)
     (s.queue 4095).st = .disabled ∧ (s.queue 4095).ctx.toNat ∉ s.mgmt.tdblk ∧ MayEnable s (s.queue 4095) ∧ (s.queue 4095).busy = [] ∧ (s.queue 4095).bar = none ∧
       (∃ u, s.changeWord 0 0x10010 (fun _ => 0) = some u) ∧ s.mgmt.asked = []) ∧
    (let s := withQueue (disabledQueue 5)
     (s.queue 4095).st = .disabled ∧ (s.queue 4095).ctx.toNat ∉ s.mgmt.tdblk ∧ ¬ MayEnable s (s.queue 4095)) ∧
    (let s := withQueue { disabledQueue 6 with st := .error, qdbv := 64 }
     (s.queue 4095).st = .error ∧ (s.queue 4095).qdbv.toNat ≤ (s.queue 4095).rindex + 2 ^ (s.queue 4095).log2size.toNat ∧ (s.queue 4095).st ≠ .disabled) ∧
    (let s := withQueue { disabledQueue 6 with busy := [(0, false)] }
     (s.queue 4095).st = .disabled ∧ (s.queue 4095).busy ≠ []) := by
  refine ⟨by decide +kernel, by decide +kernel, ⟨by decide +kernel, by decide +kernel, ?_, by decide +kernel, by decide +kernel, change_of (by decide +kernel), rfl⟩,
    ⟨by decide +kernel, by decide +kernel, ?_⟩, by decide +kernel, by decide +kernel⟩
  · refine ⟨by decide +kernel, by decide +kernel, by decide +kernel, by decide +kernel, ⟨_, rfl, rfl, by decide +kernel⟩, by decide +kernel, by decide +kernel⟩
  · exact fun h => absurd h.1 (by decide +kernel)

/-! ### Packets: the last slot of queue 4095 holds one -/

def pktOf (type flags : Nat) (a done : Nat) : List Byte :=
  bytesOfNat 1 type ++ bytesOfNat 1 flags ++ bytesOfNat 2 1 ++ bytesOfNat 4 0 ++ bytesOfNat 8 a ++ List.replicate 32 0 ++ bytesOfNat 8 done ++ List.replicate 8 0
def packeted (st : QueueSt) (pkt : List Byte) : State :=
  let s := ringed 1 64
  { s with queues := [(4095, { Queue.start with st := st, cause := if st = .error then 1 else 0, log2size := 6, qbase := 0x10040, qwptra := 0x10008, qrptra := 0x10010
                                                qscope := placedHandle, qdbv := 64, rindex := 63 })]
           mem := s.mem.place (placeCode + 0x1000) (pkt.take 32) { key := .loaded 1, unit := 0x11000 / 32 }
             |>.place (placeCode + 0x1020) (pkt.drop 32) { key := .loaded 1, unit := 0x11020 / 32 } }

def consumedB (s : State) (q i : Nat) (pkt : List Byte) (p : State → Bool) : Bool :=
  let v := s.queue q
  let slot := v.qbase + BitVec.ofNat 64 (64 * (i % ringSize v))
  decide (v.rindex = i) && decide (i < v.qdbv.toNat) && v.bar.isNone && (v.busy.all fun b => !b.2) && decide (s.askedFor (.packetConsume q) = []) && decide (s.recordOf v.ctx.toNat slot 64 = some pkt) &&
    decide (fieldAt pkt 0 1 ≠ 0) && decide (s.recordAsks (Party.ofCtx v.ctx.toNat) v.qrptra (bytesOfNat 8 (i + 1)) = []) && (s.putRecord (Party.ofCtx v.ctx.toNat) slot [0]).elim false fun u =>
      (u.changeWord v.ctx.toNat v.qrptra fun _ => BitVec.ofNat 64 (i + 1)).elim false fun w => p (w.modQueue q fun k => { k with rindex := i + 1 })

theorem consumed_of {s : State} {q i : Nat} {pkt : List Byte} {p : State → Bool} (h : consumedB s q i pkt p = true) : ∃ u, Consumed s q i pkt u ∧ p u = true := by
  unfold consumedB at h
  simp only [Bool.and_eq_true, decide_eq_true_eq, List.all_eq_true, Bool.not_eq_true', Option.isNone_iff_eq_none] at h
  obtain ⟨⟨⟨⟨⟨⟨⟨⟨h1, h2⟩, h3⟩, h4⟩, ha⟩, h5⟩, h6⟩, hb⟩, h7⟩ := h
  generalize hu : s.putRecord (Party.ofCtx (s.queue q).ctx.toNat) ((s.queue q).qbase + BitVec.ofNat 64 (64 * (i % ringSize (s.queue q)))) [0] = o at h7
  cases o with
  | none => cases h7
  | some u =>
    simp only [Option.elim] at h7
    generalize hw : u.changeWord (s.queue q).ctx.toNat (s.queue q).qrptra (fun _ => BitVec.ofNat 64 (i + 1)) = o at h7
    cases o with
    | none => cases h7
    | some w => exact ⟨_, ⟨h1, h2, h3, h4, ha, h5, h6, hb, u, w, hu, hw, rfl⟩, h7⟩

def goodPkt (pkt : List Byte) (u : State) : Bool :=
  packetOk pkt && decide (w32At pkt 4 = 0) && u.scopeLive (packetScope u 4095 pkt) && !(fieldAt pkt 1 1).testBit 2
theorem good_pkt {pkt : List Byte} {u : State} (h : goodPkt pkt u = true) : GoodPacket u 4095 pkt := by
  simp only [goodPkt, Bool.and_eq_true, decide_eq_true_eq, Bool.not_eq_true'] at h
  exact ⟨h.1.1.1, .inl h.1.1.2, h.1.2, h.2⟩
def signalB (s : State) (ctx : Nat) (a : W64) : Bool := match s.recordSites (Party.ofCtx ctx) .w a 8 8 with
  | .ok ts => ts.all fun t => !t.1.isRemote
  | .error _ => false
theorem can_signal {s : State} {ctx : Nat} {a : W64} (h : signalB s ctx a = true) : CanSignal s ctx a := by
  unfold signalB at h
  split at h
  · next ts e => exact .inr ⟨ts, e, fun t ht => by simpa using List.all_eq_true.mp h t ht⟩
  · cases h

theorem witness_PacketProcessing :
    (∃ u, Consumed (packeted .active (pktOf 5 2 0 0x10018)) 4095 63 (pktOf 5 2 0 0x10018) u ∧ GoodPacket u 4095 (pktOf 5 2 0 0x10018) ∧ CanSignal u 0 0x10018) ∧
    (∃ u, Consumed (packeted .active (pktOf 4 0 0x10018 0)) 4095 63 (pktOf 4 0 0x10018 0) u ∧ GoodPacket u 4095 (pktOf 4 0 0x10018 0) ∧
      ∃ v, u.changeWord 0 0x10018 (fun old => if old.toInt < 0 then old else old - 0) = some v) ∧
    (∃ u, Consumed (packeted .active (pktOf 3 1 0x10018 0)) 4095 63 (pktOf 3 1 0x10018 0) u ∧ GoodPacket u 4095 (pktOf 3 1 0x10018 0)) ∧
    (∃ u, Consumed (packeted .active (pktOf 2 1 0x10000 0)) 4095 63 (pktOf 2 1 0x10000 0) u ∧ GoodPacket u 4095 (pktOf 2 1 0x10000 0)) ∧
    (packetOk (pktOf 5 8 0 0x10018) = false ∧ (w64At (pktOf 5 8 0 0x10018) 0x30).toNat % 8 = 0 ∧
      ∃ u, Consumed (packeted .active (pktOf 5 8 0 0x10018)) 4095 63 (pktOf 5 8 0 0x10018) u ∧ CanSignal u 0 0x10018) ∧
    (∃ u, Consumed (packeted .error (pktOf 2 0 0 0x10018)) 4095 63 (pktOf 2 0 0 0x10018) u ∧ CanSignal u 0 0x10018) ∧
    ((packeted .error []).queue 4095).st = .error ∧ ((packeted .error []).queue 4095).cause = 1 ∧ (start.queue 4095).qdbv.toNat ≤ (start.queue 4095).rindex ∧
    start.askedFor (.packetConsume 4095) = [] := by
  refine ⟨?_, ?_, ?_, ?_, ⟨by decide +kernel, by decide +kernel, ?_⟩, ?_, by decide +kernel⟩
  · obtain ⟨u, h1, h2⟩ := consumed_of (s := packeted .active (pktOf 5 2 0 0x10018)) (q := 4095) (i := 63) (pkt := pktOf 5 2 0 0x10018)
      (p := fun u => goodPkt (pktOf 5 2 0 0x10018) u && signalB u 0 0x10018) (by decide +kernel)
    rw [Bool.and_eq_true] at h2
    exact ⟨u, h1, good_pkt h2.1, can_signal h2.2⟩
  · obtain ⟨u, h1, h2⟩ := consumed_of (s := packeted .active (pktOf 4 0 0x10018 0)) (q := 4095) (i := 63) (pkt := pktOf 4 0 0x10018 0)
      (p := fun u => goodPkt (pktOf 4 0 0x10018 0) u && change u 0 0x10018 (fun old => if old.toInt < 0 then old else old - 0)) (by decide +kernel)
    rw [Bool.and_eq_true] at h2
    exact ⟨u, h1, good_pkt h2.1, change_of h2.2⟩
  · obtain ⟨u, h1, h2⟩ := consumed_of (s := packeted .active (pktOf 3 1 0x10018 0)) (q := 4095) (i := 63) (pkt := pktOf 3 1 0x10018 0)
      (p := goodPkt (pktOf 3 1 0x10018 0)) (by decide +kernel)
    exact ⟨u, h1, good_pkt h2⟩
  · obtain ⟨u, h1, h2⟩ := consumed_of (s := packeted .active (pktOf 2 1 0x10000 0)) (q := 4095) (i := 63) (pkt := pktOf 2 1 0x10000 0)
      (p := goodPkt (pktOf 2 1 0x10000 0)) (by decide +kernel)
    exact ⟨u, h1, good_pkt h2⟩
  · obtain ⟨u, h1, h2⟩ := consumed_of (s := packeted .active (pktOf 5 8 0 0x10018)) (q := 4095) (i := 63) (pkt := pktOf 5 8 0 0x10018)
      (p := fun u => signalB u 0 0x10018) (by decide +kernel)
    exact ⟨u, h1, can_signal h2⟩
  · obtain ⟨u, h1, h2⟩ := consumed_of (s := packeted .error (pktOf 2 0 0 0x10018)) (q := 4095) (i := 63) (pkt := pktOf 2 0 0 0x10018)
      (p := fun u => signalB u 0 0x10018) (by decide +kernel)
    exact ⟨u, h1, can_signal h2⟩

/-! ### Barrier packets and launches -/

/-- The code's sector holds 0, 5, -1 and 0 in its four words. -/
def fourBytes : List Byte := bytesOfNat 8 0 ++ bytesOfNat 8 5 ++ List.replicate 8 255 ++ bytesOfNat 8 0
def fourWords : State := { start with mem := start.mem.place placeCode fourBytes { key := .loaded 1, unit := 0x10000 / 32 } }
def barrierPkt (deps : List W64) (scope : W32) : BarrierPkt :=
  { ctx := 0, deps := deps, pkt := { queue := 4095, index := 0, done := 0x10018, intr := true, auto := 0 }, scope := scope, hold := true }
def passing (b : BarrierPkt) : State := { fourWords with queues := [(4095, { Queue.start with st := .active, bar := some b })] }
def wordNow (s : State) (a : W64) : Option W64 := (s.recordOf 0 a 8).map fun bs => w64At bs 0
def overLaunch (cancelled : Bool) : Launch := { placedLaunch with queue := 4095, cancelled := cancelled, gangs := [{ Gang.start with st := .over }] }
def launched (cancelled : Bool) : State :=
  { withQueue { disabledQueue 6 with st := .active } with launches := [(7, overLaunch cancelled)] }


theorem now_of {s : State} {a v : W64} {n : Nat} (h : decide (s.recordOf 0 a 8 = some (bytesOfNat 8 n)) = true) (hv : w64At (bytesOfNat 8 n) 0 = v) : wordNow s a = some v := by
  rw [decide_eq_true_eq] at h
  simp only [wordNow, h, Option.map_some, hv]
theorem word_of_pkt (deps : List W64) (scope : W32) (a v : W64) (n : Nat) (h : decide (fourWords.recordOf 0 a 8 = some (bytesOfNat 8 n)) = true)
    (hv : w64At (bytesOfNat 8 n) 0 = v) : wordNow (passing (barrierPkt deps scope)) a = some v := now_of (s := fourWords) h hv
theorem word0 (deps : List W64) (scope : W32) : wordNow (passing (barrierPkt deps scope)) 0x10000 = some 0 := word_of_pkt _ _ _ _ 0 (by decide +kernel) (by decide +kernel)
theorem word1 (deps : List W64) (scope : W32) : wordNow (passing (barrierPkt deps scope)) 0x10008 = some 5 := word_of_pkt _ _ _ _ 5 (by decide +kernel) (by decide +kernel)
theorem word2 (deps : List W64) (scope : W32) : wordNow (passing (barrierPkt deps scope)) 0x10010 = some (-1) :=
  word_of_pkt _ _ _ _ (2 ^ 64 - 1) (by decide +kernel) (by decide +kernel)
theorem word3 (deps : List W64) (scope : W32) : wordNow (passing (barrierPkt deps scope)) 0x10018 = some 0 := word_of_pkt _ _ _ _ 0 (by decide +kernel) (by decide +kernel)

/-- A BARRIER packet makes passes, over words of this device. -/
def Passes (deps : List W64) (scope : W32) : Prop := ((passing (barrierPkt deps scope)).queue 4095).bar = some (barrierPkt deps scope) ∧
  (passing (barrierPkt deps scope)).askedFor (.barrierPass 4095) = [] ∧
  (∀ a ∈ deps, (passing (barrierPkt deps scope)).wanted (Party.ofCtx 0) .r a 8 8 = []) ∧ CanSignal ((passing (barrierPkt deps scope)).modQueue 4095 fun k => { k with bar := none }) 0 0x10018
theorem witness_passes {deps : List W64} {scope : W32}
    (ha : (deps.all fun a => decide ((passing (barrierPkt deps scope)).wanted (Party.ofCtx 0) .r a 8 8 = [])) = true) (h : signalB ((passing (barrierPkt deps scope)).modQueue 4095 fun k => { k with bar := none }) 0 0x10018 = true) :
    Passes deps scope := ⟨rfl, rfl, fun a hm => of_decide_eq_true (List.all_eq_true.mp ha a hm), can_signal h⟩

theorem witness_PassesAndCompletion :
    (Passes [0x10000, 0x10018] placedHandle ∧ fourWords.scopeGone placedHandle = false ∧
      ∀ a ∈ ([0x10000, 0x10018] : List W64), wordNow (passing (barrierPkt [0x10000, 0x10018] placedHandle)) a = some 0) ∧
    (Passes [0x10008, 0x10000] placedHandle ∧ (∀ a ∈ ([0x10008, 0x10000] : List W64), ∃ v, wordNow (passing (barrierPkt [0x10008, 0x10000] placedHandle)) a = some v ∧
      v.msb = false) ∧ wordNow (passing (barrierPkt [0x10008, 0x10000] placedHandle)) 0x10008 ≠ some 0) ∧
    (Passes [0x10008, 0x10010] placedHandle ∧ ∀ v, wordNow (passing (barrierPkt [0x10008, 0x10010] placedHandle)) 0x10010 = some v → v.msb = true) ∧
    (Passes [0x10008] 0 ∧ fourWords.scopeGone 0 = true) ∧
    (∀ cancelled : Bool, ∃ u, aget (launched cancelled).launches 7 = some (overLaunch cancelled) ∧ (overLaunch cancelled).complete = false ∧
      (∀ k ∈ (overLaunch cancelled).gangs, k.st = .over) ∧ (∀ c ∈ (launched cancelled).copies, c.2.launch ≠ some 7) ∧
      (∀ a ∈ (launched cancelled).mgmt.outAccess, a.launch ≠ some 7) ∧ ((launched cancelled).queue 4095).qrptra + 8 = 0x10018 ∧
      (if cancelled then (launched cancelled).changeWord 0 0x10018 (fun v => v + 1) = some u else u = launched cancelled) ∧
      CanSignal u 0 (overLaunch cancelled).rcd.done) ∧
    ∃ pa va key fe, fourWords.recordSites (Party.ofCtx 0) .w 0x10018 8 8 = .ok [(.dev pa va key fe, 8)] ∧ pa % 32 + 8 ≤ 32 ∧
      fourWords.mem.bytes pa 8 { key := key, unit := va / 32 } = bytesOfNat 8 0 := by
  refine ⟨⟨witness_passes (by decide +kernel) (by decide +kernel), by decide +kernel, ?_⟩, ⟨witness_passes (by decide +kernel) (by decide +kernel), ?_, ?_⟩, ⟨witness_passes (by decide +kernel) (by decide +kernel), ?_⟩,
    ⟨witness_passes (by decide +kernel) (by decide +kernel), by decide +kernel⟩, ?_, ?_⟩
  · intro a ha
    rcases List.mem_cons.mp ha with rfl | ha
    · exact word0 _ _
    · rw [List.mem_singleton.mp ha]; exact word3 _ _
  · intro a ha
    rcases List.mem_cons.mp ha with rfl | ha
    · exact ⟨5, word1 _ _, by decide⟩
    · rw [List.mem_singleton.mp ha]; exact ⟨0, word0 _ _, by decide⟩
  · rw [word1]; decide
  · intro v hv
    rw [word2] at hv
    cases hv
    decide
  · intro cancelled
    cases cancelled with
    | false => exact ⟨_, rfl, rfl, by decide +kernel, by decide +kernel, by decide +kernel, by decide +kernel, rfl, .inl rfl⟩
    | true =>
      obtain ⟨u, hu⟩ := change_of (s := launched true) (ctx := 0) (a := 0x10018) (f := fun v => v + 1) (by decide +kernel)
      exact ⟨u, rfl, rfl, by decide +kernel, by decide +kernel, by decide +kernel, by decide +kernel, hu, .inl rfl⟩
  · have h : (match fourWords.recordSites (Party.ofCtx 0) .w 0x10018 8 8 with
        | .ok [(.dev pa va key fe, n)] => decide (n = 8) && decide (pa % 32 + 8 ≤ 32) && decide (fourWords.mem.bytes pa 8 { key := key, unit := va / 32 } = bytesOfNat 8 0)
        | _ => false) = true := by decide +kernel
    split at h
    · next pa va key fe n e =>
      simp only [Bool.and_eq_true, decide_eq_true_eq] at h
      obtain ⟨⟨rfl, h1⟩, h2⟩ := h
      exact ⟨pa, va, key, fe, e, h1, h2⟩
    · cases h
/-! ### The dispatcher and stops -/

/-- A launch with one gang to place on the placed wave's cluster, with more of them on others. -/
def unplacedLaunch : Launch := { placedLaunch with gangs := [Gang.start] }
def toPlace (deficit : Int) : State := { start with groups := [], launches := [(0, unplacedLaunch)], queues := [(0, { Queue.start with deficit := deficit })] }
/-- A gang of four groups, each as large as a core's scratchpad allows, waits while a group stands on its context's cluster. -/
def unplaceable : State :=
  let rcd : LaunchRec := { placedRecord with gang := 4, gridx := 4, scratch := placedRecord.spadbk * 32768 - 512 * placedRecord.waves }
  { start with launches := start.launches ++ [(1, { unplacedLaunch with rcd := rcd })], queues := [(0, { Queue.start with deficit := 1 })]
               market := { start.market with notFitted := [(.gang 1 0, 2)], current := [(0, { Lease.none with qty := 1, units := [0] })] } }
theorem witness_DispatcherPlaces :
    ((toPlace 1).held = false ∧ (toPlace 1).mgmt.placeBudget = true ∧ (toPlace 1).askedFor (.dispatchPlace 0) = [] ∧ aget (toPlace 1).market.handed 0 = none ∧ (toPlace 1).servedBy 0 = some 0 ∧ (∀ d ∈ (toPlace 1).residents 0, d = 0) ∧
      (toPlace 1).readyQueues 0 = [0] ∧ (toPlace 1).headOf 0 0 = some (.gang 0 0) ∧ aget (toPlace 1).launches 0 = some unplacedLaunch ∧
      unplacedLaunch.gangs[0]? = some Gang.start ∧ Gang.start.st = .unplaced ∧ (unplacedLaunch.rcd.twin = true → unplacedLaunch.rcd.gang % 2 = 0) ∧
      0 < ((toPlace 1).queue 0).deficit ∧ aget (toPlace 1).market.reserved 0 = none ∧ ∃ f, (toPlace 1).fitsNow 0 (.gang 0 0) = some f) ∧
    (State.reset.servedBy 0 = none ∧ State.reset.askedFor (.dispatchPlace 0) = []) ∧
    (0 = (unplaceable.queue 0).ctx.toNat ∧ unplaceable.headOf 0 0 = some (.gang 1 0) ∧ (∃ p ∈ unplaceable.market.notFitted, p.1 = .gang 1 0 ∧ 2 ≤ p.2) ∧
       (∀ p ∈ unplaceable.market.reserved, p.2 ≠ .gang 1 0) ∧ 0 < (unplaceable.queue 0).deficit ∧
       (∀ u ∈ unplaceable.clustersOf 0, (unplaceable.fitsNow u (.gang 1 0)).isNone = true) ∧ 0 ∈ unplaceable.clustersOf 0 ∧ aget unplaceable.market.reserved 0 = none ∧
       unplaceable.fitsEmpty 0 (.gang 1 0) = true ∧
       ∀ u ∈ unplaceable.clustersOf 0, aget unplaceable.market.reserved u = none → unplaceable.fitsEmpty u (.gang 1 0) = true → 0 ≤ u) ∧
    State.reset.headOf 0 0 = none := by
  have placed : ∃ f, (toPlace 1).fitsNow 0 (.gang 0 0) = some f := Option.isSome_iff_exists.mp (by decide +kernel)
  refine ⟨⟨rfl, rfl, rfl, rfl, ?_, ?_, ?_, ?_, rfl, rfl, rfl, ?_, ?_, rfl, placed⟩, ?_, ?_, ?_⟩
  all_goals decide +kernel

def stopped : State := onGroup start fun g => { g with stop := some .dispatch }
/-- No cluster is leased. -/
def unleased : State := { start with market := { start.market with current := [] } }
/-- The group has waited for two intervals, and the waiting gang would fit in its place. -/
def crowdedOut : State := onGroup (onEntry unplaceable fun e => { e with st := .wait .mem }) fun g => { g with idle := 2 }
theorem witness_GangsAreSaved :
    (∃ g, stopped.group? 0 = some g ∧ g.place = .resident 0 ∧ stopped.scopeGone g.scope = false ∧ stopped.gangMembers 0 g = [0] ∧ stopped.awaitsRemote [0] = false ∧
      g.stop = some .dispatch) ∧
    (∃ g, unleased.group? 0 = some g ∧ g.place = .resident 0 ∧ unleased.scopeGone g.scope = false ∧ unleased.gangMembers 0 g = [0] ∧ unleased.awaitsRemote [0] = false ∧
      g.stop = none ∧ unleased.servedBy (0 / 4) ≠ some g.ctx ∧ 0 ∉ unleased.mgmt.gated ∧ g.idle < 2) ∧
    (∃ g, crowdedOut.group? 0 = some g ∧ g.place = .resident 0 ∧ crowdedOut.scopeLive g.scope = true ∧ crowdedOut.gangMembers 0 g = [0] ∧
      crowdedOut.awaitsRemote [0] = false ∧ g.stop = none ∧ 0 ∉ crowdedOut.mgmt.gated ∧ 2 ≤ g.idle ∧ (∀ w ∈ g.waves, w.ended = true ∨ w.descheduled = true) ∧
      ((crowdedOut.readyHeads g.ctx).find? fun h => !crowdedOut.fitsSomewhere g.ctx h) = some (.gang 1 0) ∧
      ((crowdedOut.without 0).fitsNow (0 / 4) (.gang 1 0)).isSome = true) ∧
    ∃ g, start.group? 0 = some g ∧ ∀ h ∈ start.readyHeads g.ctx, start.fitsSomewhere g.ctx h = true :=
  ⟨⟨_, rfl, rfl, by decide +kernel, by decide +kernel, by decide +kernel, rfl⟩,
    ⟨_, rfl, rfl, by decide +kernel, by decide +kernel, by decide +kernel, rfl, by decide +kernel, by decide +kernel, by decide +kernel⟩,
    ⟨_, rfl, rfl, by decide +kernel, by decide +kernel, by decide +kernel, rfl, by decide +kernel⟩, ⟨_, rfl, by decide +kernel⟩⟩

/-! ### The market -/

def inPhase (p : MktPhase) : State := { tenanted with market := { tenanted.market with phase := p, cfgA := { tenanted.market.cfgA with enable := true } } }
theorem witness_IntervalTimeline :
    ((inPhase .open_).running = true ∧ (inPhase .open_).market.phase = .open_) ∧
    ((inPhase .frozen).running = true ∧ (inPhase .frozen).market.phase = .frozen ∧ ∀ c < 1024, frozenBid (inPhase .frozen) c 7 = 0) ∧
    ((inPhase .published).running = true ∧ (inPhase .published).market.phase = .published ∧
      ∃ v, aget (inPhase .published).market.cfgA.tenants 255 = some v ∧ v.valid = true) ∧ State.reset.running = false :=
  ⟨by decide +kernel, ⟨by decide +kernel, by decide +kernel, fun _ _ => rfl⟩, ⟨by decide +kernel, by decide +kernel, _, rfl, rfl⟩, by decide +kernel⟩
theorem witness_AwardsWithinBids : (inPhase .open_).running = true ∧ (inPhase .open_).market.phase = .open_ ∧ (inPhase .open_).market.cfgA.enable = true := by decide +kernel

def peerOf (age : Nat) : Peer := { interval := 200, age := age, number := 9, price := List.replicate 20 7, unsold := List.replicate 5 1 }
def spinning (age : Nat) : State :=
  let s := inPhase .published
  { s with market := { s.market with peers := [(1023, peerOf age)], cfgW := { s.market.cfgW with spin := [(255, { SpinPol.start with enable := true })] } } }
def flitOf (number : Nat) : PriceFlit := { dev := 1023, interval := 200, number := number, price := [], unsold := [] }
theorem witness_PeersAndSpinnaker :
    (flitOf 9).dev < 1024 ∧ (∀ p, aget (spinning 4).market.peers 1023 = some p → p.number ≤ (flitOf 9).number) ∧
    (aget (spinning 4).market.peers 1023 = some (peerOf 4) ∧ (flitOf 8).number < (peerOf 4).number) ∧ (∀ pol, ¬ SpinActs State.reset 0 pol) ∧
    (∃ pol, SpinActs (spinning 5) 0 pol ∧ ∀ p ∈ (spinning 5).market.peers, ¬ PeerFits (spinning 5) 0 p.1 p.2 pol) ∧
    ∃ pol, SpinActs (spinning 4) 0 pol ∧ (spinning 4).market.peers = [(1023, peerOf 4)] ∧ PeerFits (spinning 4) 0 1023 (peerOf 4) pol := by
  refine ⟨by decide, ?_, ⟨rfl, by decide⟩, ?_, ?_, ?_⟩
  · intro p hp
    cases hp
    decide
  · rintro pol ⟨t, ht, _⟩
    cases ht
  · exact ⟨_, ⟨255, by decide +kernel, rfl, by decide +kernel, by decide +kernel, by decide +kernel, by decide +kernel⟩, by unfold PeerFits; decide +kernel⟩
  · exact ⟨_, ⟨255, by decide +kernel, rfl, by decide +kernel, by decide +kernel, by decide +kernel, by decide +kernel⟩, rfl, by unfold PeerFits; decide +kernel⟩

def leaving : State := { asUser tenanted with mgmt := { start.mgmt with migrating := [(0, 5)] } }
def migrantOf (ctx : Nat) : Migrant :=
  { ctx := ctx, dev := 5, cgen := 3, images := [], groups := [(0, { (newGroup 0 placedLaunch 0 1 0 [placedWave]) with place := .saved })], bids := [], counters := []
    scopes := [(65535, { ScopeSlot.start with gen := 1, st := .live, ctx := ctx })], queues := [(4095, { Queue.start with st := .disabled })], tasks := [], launches := []
    copies := [], pendArr := [], tenant := 255 }
def offered (migin : Bool) (scopes : List (Nat × ScopeSlot)) : State :=
  { tenanted with scopes := scopes, mgmt := { start.mgmt with inbound := [migrantOf 0] }, market := { tenanted.market with cfgW := { tenanted.market.cfgW with migin := migin } } }
def awaited : State :=
  { leaving with mgmt := { leaving.mgmt with outAccess := [{ id := 0, owner := .nobody, launch := none, scope := 0, dev := 5, pa := 0, sentAt := 0 }] } }
theorem witness_MigrationEnds :
    (aget leaving.mgmt.migrating 0 = some 5 ∧ (∀ g ∈ leaving.groups, g.2.ctx = 0 → g.2.place.core? = none) ∧ leaving.tenantOf 0 = some 255 ∧
      ∀ a ∈ leaving.mgmt.outAccess, a.ctx ≠ 0) ∧
    (aget awaited.mgmt.migrating 0 = some 5 ∧ (∀ g ∈ awaited.groups, g.2.ctx = 0 → g.2.place.core? = none) ∧ ∃ a ∈ awaited.mgmt.outAccess, a.ctx = 0) ∧
    aget start.mgmt.migrating 0 ≠ some 5 ∧
    (∀ migin : Bool, (offered migin start.scopes).mgmt.inbound[0]? = some (migrantOf 0) ∧ 0 ∉ (offered migin start.scopes).mgmt.tdblk ∧
      ∃ p ∈ (offered migin start.scopes).scopesInUse, p.2.ctx = 0) ∧
    (offered false []).market.cfgW.migin = false ∧
    ((offered true []).mgmt.inbound[0]? = some (migrantOf 0) ∧ 0 ∉ (offered true []).mgmt.tdblk ∧ (offered true []).market.cfgW.migin = true ∧
      (sget Tenant.start (offered true []).market.cfgA.tenants (migrantOf 0).tenant).valid = true ∧ (∀ p ∈ (offered true []).scopesInUse, p.2.ctx ≠ 0) ∧
      (∀ p ∈ (migrantOf 0).scopes, ((offered true []).scopeSlot p.1).st = .free) ∧ (∀ q ∈ (migrantOf 0).queues, ((offered true []).queue q.1).st = .free) ∧
      ((migrantOf 0).scopes.map fun p => p.1).Nodup ∧ ((migrantOf 0).queues.map fun p => p.1).Nodup) := by
  refine ⟨by decide +kernel, by decide +kernel, by decide +kernel, fun migin => ⟨rfl, ?_, ?_⟩, rfl, rfl, by decide +kernel⟩
  · cases migin <;> decide +kernel
  · cases migin <;> decide +kernel

/-! ### The fabric -/

/-- The device at a place of its pod, with the links it has. -/
def podded (i : BitVec 10) (peers : List (Nat × Nat)) : State := { start with mgmt := { start.mgmt with podidx := some i, peersAt := peers } }
def ratOf (slots width base : Nat) : Ratline := { epoch := 1, base := base, slots := slots, width := width }
def ratHeld (rz : Nat) : State := { start with mgmt := { start.mgmt with ratHold := some rz } }

theorem witness_LinksAndPodTime :
    ((podded 0 []).running = true ∧ (podded 0 []).mgmt.podidx ≠ none ∧ 17 < 18 ∧ (1 ∈ [1] ∧ 1023 < 1024 ∧ 1023 ≠ (podded 0 []).podIndex ∧
      ∀ p ∈ (podded 0 []).mgmt.peersAt, p.2 = 1023 → p.1 = 17)) ∧ (1 ∉ [2]) ∧ (∃ p ∈ (podded 0 [(3, 1023)]).mgmt.peersAt, p.2 = 1023 ∧ p.1 ≠ 17) ∧ State.reset.running = false ∧
    71 < 72 ∧ (start.running = true ∧ TimeSource start ∧ start.mgmt.timeSent = false) ∧
    (¬ TimeSource (podded 1023 [(0, 0)]) ∧ (podded 1023 [(0, 0)]).running = true) ∧
    (let rz := fun (r : Ratline) (s : State) => r.base + s.podIndex % r.slots * r.width
     let good := fun (r : Ratline) (s : State) => 1 ≤ r.slots ∧ r.slots ≤ 1024 ∧ 1 ≤ r.width ∧ r.width ≤ 1000000 ∧ s.mgmt.ratEpoch.toNat < r.epoch ∧ rz r s ≤ s.time + 100000000
     (good (ratOf 1024 1000000 1) start ∧ start.time < rz (ratOf 1024 1000000 1) start) ∧
     (good (ratOf 1 1 0) start ∧ rz (ratOf 1 1 0) start ≤ start.time ∧ start.mgmt.ratHold = none) ∧ ¬ good (ratOf 1025 1 0) start ∧
     ¬ good (ratOf 1 1 100000001) start) ∧
    (ratHeld 1000).mgmt.ratHold = some 1000 ∧ ((1000 : Nat) : Int) - (ratHeld 1000).timeBase < 2 ^ 77 := by
  refine ⟨by decide +kernel, by decide, by decide +kernel, by decide +kernel, by decide, ⟨by decide +kernel, ?_, by decide +kernel⟩, ⟨?_, by decide +kernel⟩, by decide +kernel,
    rfl, by decide +kernel⟩
  · unfold TimeSource; decide +kernel
  · unfold TimeSource; decide +kernel

def reqOf (pa : Nat) (op : AccessOp) : AccessReq := { dev := 5, ctx := 0, id := 9, pa := pa, op := op }
/-- An access of an owner is under way. -/
def asked (owner : AccessOwner) : State :=
  let s := onEntry start fun e => { e with st := .fetch, remote := [{ id := 9, dev := 5, pa := 64, answer := none, bad := false }] }
  { s with mgmt := { s.mgmt with outAccess := [{ id := 9, owner := owner, launch := none, scope := 0, dev := 5, pa := 64, sentAt := 0 }] } }
def lostSector : State := { start with mem := { start.mem with lost := [25769803775] } }
def lastShard : Shard := { dev := 5, row := 12287, off := shardLen - 32, data := List.replicate 32 1 }

theorem witness_DeviceAccesses :
    physLimit ≤ (reqOf (768 * 2 ^ 30) (.read 32)).pa ∧
    ((reqOf (768 * 2 ^ 30 - 1) (.read 1)).pa < physLimit ∧ (reqOf (768 * 2 ^ 30 - 1) (.read 1)).pa / 32 ∈ lostSector.mem.lost) ∧
    ((reqOf (768 * 2 ^ 30 - 1) (.read 1)).pa / 32 ∉ start.mem.lost ∧ (reqOf (768 * 2 ^ 30 - 1) (.read 1)).op = .read 1) ∧
    (let r := reqOf (768 * 2 ^ 30 - 32) (.write (List.replicate 32 7) (some 0xF) 0xFF)
     r.pa < physLimit ∧ r.pa / 32 ∉ start.mem.lost ∧ r.op = .write (List.replicate 32 7) (some 0xF) 0xFF ∧ r.pa % 32 = 0 ∧ (List.replicate 32 (7 : Byte)).length = 32 ∧ NoFeWaiters start) ∧
    (∀ o ∈ start.mgmt.outAccess, o.id ≠ 9) ∧
    (∃ o, (asked .nobody).outAccess? o.id = some o ∧ o.owner = .nobody ∧ (asked .nobody).clk ≤ o.sentAt + 27000000) ∧
    (∃ o, (asked (.copy 3)).outAccess? o.id = some o ∧ o.owner = .copy 3) ∧
    (∃ o x, (asked (.entry entry0)).outAccess? o.id = some o ∧ o.owner = .entry entry0 ∧ (asked (.entry entry0)).issueOf entry0 = some x ∧ x.e.st = .fetch ∧
      x.g.place = .resident 0 ∧ x.e.remote = [{ id := o.id, dev := o.dev, pa := o.pa, answer := none, bad := false }]) ∧
    (lastShard.data.length = 32 ∧ lastShard.off % 32 = 0 ∧ lastShard.off < shardLen ∧ lastShard.row < 12288) := by
  refine ⟨by decide +kernel, by decide +kernel, by decide +kernel, ⟨by decide +kernel, by decide +kernel, rfl, by decide +kernel, by decide +kernel, no_fe rfl (by decide +kernel)⟩,
    by decide +kernel, ⟨{ id := 9, owner := .nobody, launch := none, scope := 0, dev := 5, pa := 64, sentAt := 0 }, rfl, rfl, by decide +kernel⟩,
    ⟨{ id := 9, owner := .copy 3, launch := none, scope := 0, dev := 5, pa := 64, sentAt := 0 }, rfl, rfl⟩,
    ⟨{ id := 9, owner := .entry entry0, launch := none, scope := 0, dev := 5, pa := 64, sentAt := 0 }, ?_⟩, by decide +kernel⟩
  obtain ⟨x, h1, h2, h3, h4⟩ := find_entry (s := asked (.entry entry0)) (P := fun x => x.e.st = .fetch ∧ x.g.place = .resident 0 ∧
    x.e.remote = [{ id := 9, dev := 5, pa := 64, answer := none, bad := false }]) (by decide +kernel)
  exact ⟨x, rfl, rfl, h1, h2, h3, h4⟩

/-- An atomic add at the home, on the words of a sector that a mask of bytes names. -/
def homeStep (bytes : BitVec 32) : HomeStep :=
  { kind := .atom 0 false, slot := 511, unit := 7, bytes := bytes, data := xtsEncrypt (start.slot 511).key.bits 7 (List.replicate 32 1), cmp := [], bad := 0 }
theorem witness_home_steps : (∀ bytes ∈ [(0xFF000000 : BitVec 32), 0xF], let r := reqOf (768 * 2 ^ 30 - 32) (.step (homeStep bytes))
      r.pa < physLimit ∧ r.pa / 32 ∉ start.mem.lost ∧ r.op = .step (homeStep bytes) ∧ (homeStep bytes).kind = .atom 0 false ∧ NoFeWaiters start ∧
      let o := Mask.lowest bytes
      let n := Mask.count bytes
      (n = 4 ∨ n = 8) ∧ o % n = 0 ∧ o + n ≤ 32 ∧ (∀ w ∈ wordsOf (r.pa / 32 * 32 + o) n, w ∉ start.mem.poison) ∧
      (homeStep bytes).data = xtsEncrypt (start.slot (homeStep bytes).slot).key.bits (homeStep bytes).unit (List.replicate 32 1)) ∧
    ((∀ p ∈ start.mgmt.peerWaits, p.req.dev ≠ 5 ∨ p.req.id ≠ 9) ∧ ∀ id, (reqOf (768 * 2 ^ 30) (.read 32)).op ≠ .withdraw id) ∧
    (∃ o, (asked (.copy 3)).outAccess? o.id = some o ∧ o.owner = .copy 3 ∧ o.stores = false ∧ o.waiting = false ∧ (asked (.copy 3)).clk ≤ o.sentAt + 27000000) ∧
    ∃ s : State, ∃ o, s.outAccess? o.id = some o ∧ o.waiting = true := by
  refine ⟨fun bytes hb => ?_, ⟨nofun, nofun⟩, ⟨{ id := 9, owner := .copy 3, launch := none, scope := 0, dev := 5, pa := 64, sentAt := 0 }, rfl, rfl, rfl, rfl, by decide +kernel⟩,
    { start with mgmt := { start.mgmt with outAccess := [{ id := 9, owner := .nobody, launch := none, scope := 0, dev := 5, pa := 64, sentAt := 0, waiting := true }] } },
    { id := 9, owner := .nobody, launch := none, scope := 0, dev := 5, pa := 64, sentAt := 0, waiting := true }, rfl, rfl⟩
  have hn : NoFeWaiters start := no_fe rfl (by decide +kernel)
  have h : bytes = 0xFF000000 ∨ bytes = 0xF := by simpa using hb
  rcases h with rfl | rfl <;>
    exact ⟨by decide +kernel, by decide +kernel, rfl, rfl, hn, by decide +kernel, by decide +kernel, by decide +kernel, by decide +kernel, rfl⟩

/-- A node's descriptor: tenant 7, one child 5, parent 2, one 64-bit integer from 0x10008 to 0x10018, job 9. -/
def jobBytes : List Byte := [7, 1, 1, 0] ++ bytesOfNat 2 0 ++ bytesOfNat 2 2 ++ bytesOfNat 8 1 ++ bytesOfNat 8 0x10008 ++ bytesOfNat 8 0x10018 ++ List.replicate 24 0 ++
  bytesOfNat 4 9 ++ List.replicate 4 0 ++ bytesOfNat 2 5 ++ List.replicate 62 0
def jobOf (state : Nat) (held : List (Nat × Contribution)) : Job := { id := 9, tenant := 7, desc := jobBytes, got := [], held := held, state := state }
def reducing (j : Job) : State := { fourWords with mgmt := { start.mgmt with jobs := [j], fabKeys := [(7, { gen := 3, key := 0, prev := some (2, 0) })] } }
/-- The element 1 from a device, sealed under the key 0 of a generation; and the same without its tag. -/
def contribution (child kgen : Nat) : Contribution :=
  let data := gcmCrypt 0 (sealIv child 9 kgen) (bytesOfNat 8 1)
  { job := 9, child := child, kgen := kgen, fail := 0, data := data, tag := gcmTag 0 (sealIv child 9 kgen) (sealAad 9 0) data }
def untagged (child kgen : Nat) : Contribution := { contribution child kgen with tag := [] }
theorem witness_desc : jobDesc jobBytes = { tenant := 7, op := 1, ctx := 0, parent := 2, count := 1, src := 0x10008, dst := 0x10018, ctr := 0, cval := 0, frec := 0, id := 9
                                            children := [5] } := by decide +kernel
theorem plain_job (j : Job) (hd : j.desc = jobBytes) (hr : j.remote = [] ∧ j.final = none) : PlainJob (reducing j) j := by
  refine ⟨?_, by rw [hd]; decide +kernel, by rw [hd, witness_desc], by rw [hd, witness_desc], hr⟩
  simp [reducing, State.job?]
theorem opened_by {s : State} {tenant : Nat} {c : Contribution} {k : BitVec 256} (h : s.fabKey tenant c.kgen = some k) :
    s.opened tenant c = gcmOpen k (sealIv c.child c.job c.kgen) (sealAad c.job c.fail) c.data c.tag := by
  rw [State.opened, h, Option.bind_some]
theorem opens (j : Job) (child : Nat) : (reducing j).opened 7 (contribution child 3) = some (bytesOfNat 8 1) := by
  rw [opened_by (k := 0) rfl]
  simp only [contribution, gcmOpen_sealed]
theorem opens_old (j : Job) (child : Nat) : (reducing j).opened 7 (contribution child 2) = some (bytesOfNat 8 1) := by
  rw [opened_by (k := 0) rfl]
  simp only [contribution, gcmOpen_sealed]
theorem shut (j : Job) (child : Nat) : (reducing j).opened 7 (untagged child 3) = none := by
  rw [opened_by (k := 0) rfl]
  simp only [untagged, gcmOpen_untagged]

theorem record_src : ∃ bs, (reducing (jobOf 0 [])).record (Party.ofCtx 0) 0x10008 8 = .ok bs := by
  have h : (match (reducing (jobOf 0 [])).record (Party.ofCtx 0) 0x10008 8 with
    | .ok _ => true
    | .error _ => false) = true := by decide +kernel
  split at h
  · next bs e => exact ⟨bs, e⟩
  · cases h
theorem record_dst : ∃ u, (reducing (jobOf 1 [])).putRecord (Party.ofCtx 0) 0x10018 (bytesOfNat 8 1) = some u := Option.isSome_iff_exists.mp (by decide +kernel)

theorem witness_Reductions :
    (∃ bs, PlainJob (reducing (jobOf 0 [])) (jobOf 0 []) ∧ (jobDesc jobBytes).children = [(contribution 5 3).child] ∧ (jobDesc jobBytes).parent ≠ 0xFFFF ∧
      (jobDesc jobBytes).count = 1 ∧ (contribution 5 3).job = (jobOf 0 []).id ∧
      aget (reducing (jobOf 0 [])).mgmt.fabKeys (jobDesc jobBytes).tenant = some { gen := 3, key := 0, prev := some (2, 0) } ∧ (contribution 5 3).kgen = 3 ∧
      (contribution 5 2).kgen = 2 ∧ (contribution 5 3).fail = 0 ∧
      (∀ g ∈ [2, 3], (reducing (jobOf 0 [])).opened (jobDesc jobBytes).tenant (contribution 5 g) = some (bytesOfNat 8 1)) ∧
      (bytesOfNat 8 1).length = (jobDesc jobBytes).size ∧
      (reducing (jobOf 0 [])).record (Party.ofCtx (jobDesc jobBytes).ctx) (jobDesc jobBytes).src (jobDesc jobBytes).size = .ok bs) ∧
    (∃ u, PlainJob (reducing (jobOf 1 [])) (jobOf 1 []) ∧ (contribution 2 3).child ∉ (jobDesc jobBytes).children ∧
      (reducing (jobOf 1 [])).opened (jobDesc jobBytes).tenant (contribution 2 3) = some (bytesOfNat 8 1) ∧
      (reducing (jobOf 1 [])).putRecord (Party.ofCtx (jobDesc jobBytes).ctx) (jobDesc jobBytes).dst (bytesOfNat 8 1) = some u) ∧
    ((untagged 5 3).child ∈ (jobDesc jobBytes).children ∧ (untagged 5 3).job = (jobOf 0 []).id ∧ (untagged 5 3).kgen = 3 ∧
      (reducing (jobOf 0 [])).opened (jobDesc jobBytes).tenant (untagged 5 3) = none) ∧
    ((contribution 5 1).kgen < 3 ∧ ∀ p, some ((2, 0) : Nat × BitVec 256) = some p → p.1 ≠ (contribution 5 1).kgen) ∧
    (3 < (contribution 5 4).kgen ∧ ∀ p, some ((2, 0) : Nat × BitVec 256) = some p → p.1 ≠ (contribution 5 4).kgen) ∧
    (PlainJob (reducing (jobOf 0 [(0, contribution 5 4)])) (jobOf 0 [(0, contribution 5 4)]) ∧ (contribution 5 4).child ∈ (jobDesc jobBytes).children) ∧
    start.mgmt.jobs = [] ∧ (jobOf 0 []).state ≠ 2 ∧ 5 ∈ (jobDesc jobBytes).children := by
  rw [witness_desc]
  obtain ⟨bs, h⟩ := record_src
  obtain ⟨u, hu⟩ := record_dst
  have h5 : 5 ∈ [5] := List.mem_singleton.mpr rfl
  refine ⟨⟨bs, plain_job _ rfl ⟨rfl, rfl⟩, rfl, by decide, rfl, rfl, rfl, rfl, rfl, rfl, fun g hg => ?_, rfl, h⟩, ⟨u, plain_job _ rfl ⟨rfl, rfl⟩, ?_, opens _ _, hu⟩,
    ⟨h5, rfl, rfl, shut _ _⟩, ⟨Nat.lt_of_sub_ne_zero (by decide), ?_⟩, ⟨Nat.lt_of_sub_ne_zero (by decide), ?_⟩, ⟨plain_job _ rfl ⟨rfl, rfl⟩, h5⟩, rfl, by decide, h5⟩
  · rcases List.mem_cons.mp hg with rfl | hg
    · exact opens_old _ _
    · rw [List.mem_singleton.mp hg]; exact opens _ _
  · exact fun h => by cases List.mem_singleton.mp h
  · intro p hp; cases hp; exact Nat.ne_of_gt (Nat.lt_of_sub_ne_zero (by decide))
  · intro p hp; cases hp; exact Nat.ne_of_lt (Nat.lt_of_sub_ne_zero (by decide))

/-! ### The host's pages -/

/-- BAR4 of function 255 reaches context 0; with sectors lost. -/
def barred (lost : List Nat) : State := { start with host := { start.host with bar4 := [(255, 1024)] }, mem := { start.mem with lost := lost } }
def oneViolation : Violation := { source := 255, func := 255, bar := 255, dir := 255, ctx := 65535, addr := 0xFFFFFFFFFFFFFFFF, clk := 2 ^ 64 - 1, detail := 0xFFFFFFFFFFFFFFFF }

theorem bar_reaches {s : State} {f off n : Nat} {perm : Perm} {v : Nat × Nat × KeyMat × Bool} (h1 : (sget 0 s.host.bar4 f).testBit 10 = true)
    (h2 : 0 < n ∧ off % 32 + n ≤ 32) (h3 : siteAt s (Party.ofCtx (sget 0 s.host.bar4 f % 1024)) perm (BitVec.ofNat 64 off) n = some v) :
    BarReaches s f perm off n (.dev v.1 v.2.1 v.2.2.1 v.2.2.2) := ⟨h1, h2.1, h2.2, site_at h3⟩

theorem witness_HostAccess :
    (∃ pa va key fe, BarReaches (barred []) 255 .r 0x10018 8 (.dev pa va key fe) ∧ pa / 32 ∉ (barred []).mem.lost) ∧
    (∃ pa va key fe, BarReaches (barred []) 255 .w 0x10018 (List.replicate 8 (9 : Byte)).length (.dev pa va key fe) ∧
      pa % 32 + (List.replicate 8 (9 : Byte)).length ≤ 32 ∧ pa / 32 ∉ (barred []).mem.lost) ∧
    (∃ pa va key fe, BarReaches (barred [65536]) 255 .w 0x10000 (List.replicate 32 (9 : Byte)).length (.dev pa va key fe) ∧
      pa % 32 + (List.replicate 32 (9 : Byte)).length ≤ 32 ∧ pa / 32 ∈ (barred [65536]).mem.lost ∧ (List.replicate 32 (9 : Byte)).length = 32) ∧
    (BarDenied start 0 .r 0 8 ∧ BarDenied (barred [65536]) 255 .r 0x10018 8) ∧
    (BarDenied start 0 .w 0 [(9 : Byte)].length ∧ BarDenied (barred [65536]) 255 .w 0x1001F [(9 : Byte)].length) ∧
    ({ start with host := { start.host with vlog := [oneViolation] } }.host.vlog = oneViolation :: [] ∧ oneViolation.source < 256 ∧ oneViolation.func < 256 ∧
      oneViolation.bar < 256 ∧ oneViolation.dir < 256 ∧ oneViolation.ctx < 65536 ∧ oneViolation.clk < 2 ^ 64) ∧
    (∀ p ∈ [(0x11F, 1), (0x110, 16), (0x100, 32)], p.1 < 0x120 ∧ 0x118 < p.1 + p.2) ∧ 0x110 + 8 ≤ 0x118 ∧
    (255 ≠ 0 ∧ 0xFF8 < 0x1000 ∧ 8 ∈ [1, 2, 4, 8] ∧ 0xFF8 % 8 = 0) ∧
    (∀ off ∈ [0x3000, 0xFFF8, 0x20000], 8 ∈ [1, 2, 4, 8] ∧ off % 8 = 0 ∧ 255 ≠ 0 ∧ (0x3000 ≤ off ∧ off < 0x10000 ∨ 0x20000 ≤ off)) ∧
    (3 ∉ [1, 2, 4, 8] ∧ 0x3001 % 2 ≠ 0 ∧ 0xFF8 < 0x1000) ∧
    (0xFFFFF8 < 0x1000000 ∧ ∀ off ∈ [0x140000, 0xFFFFF8], ∀ p ∈ privatePages, off < p.1 ∨ p.1 + p.2 ≤ off) ∧
    255 < 256 := by
  refine ⟨⟨_, _, _, _, bar_reaches (v := (0x200018, 0x10018, .loaded 1, false)) (by decide +kernel) (by decide) (by decide +kernel), by decide +kernel⟩,
    ⟨_, _, _, _, bar_reaches (v := (0x200018, 0x10018, .loaded 1, false)) (by decide +kernel) (by decide) (by decide +kernel), by decide, by decide +kernel⟩,
    ⟨_, _, _, _, bar_reaches (v := (0x200000, 0x10000, .loaded 1, false)) (by decide +kernel) (by decide) (by decide +kernel), by decide, by decide +kernel, by decide⟩,
    ⟨.inl (by decide +kernel), .inr ⟨by decide, by decide, .inr ⟨_, _, _, _,
      bar_reaches (v := (0x200018, 0x10018, .loaded 1, false)) (by decide +kernel) (by decide) (by decide +kernel), by decide +kernel, .inl rfl⟩⟩⟩,
    ⟨.inl (by decide +kernel), .inr ⟨by decide, by decide, .inr ⟨_, _, _, _,
      bar_reaches (v := (0x20001F, 0x1001F, .loaded 1, false)) (by decide +kernel) (by decide) (by decide +kernel), by decide +kernel, .inr (by decide)⟩⟩⟩,
    by decide +kernel, ?_⟩
  repeat' apply And.intro
  all_goals decide

/-! ### Keys, scrubs, contexts -/

/-- An invalidation of context 0, of all contexts, and of another context, while a read for context 0 is under way. -/
def invalidating (v : W64) : State := { asked .nobody with host := { start.host with tlbBusy := [v] } }
theorem witness_tlb : (∀ v, (invalidating v).host.tlbBusy = v :: []) ∧ (∃ a ∈ (invalidating 0).mgmt.outAccess, (0 : W64).toNat % 1024 = a.ctx) ∧
    ((0x400 : W64).getLsbD 10 = true) ∧ ∀ a ∈ (invalidating 1).mgmt.outAccess, ¬ ((1 : W64).getLsbD 10 = true ∨ (1 : W64).toNat % 1024 = a.ctx) :=
  ⟨fun _ => rfl, ⟨_, List.mem_singleton.mpr rfl, rfl⟩, by decide, fun a ha => by rw [List.mem_singleton.mp ha]; decide⟩

/-- Slot 511 is owned by context 1023; contexts are blocked; a scrub of a context runs. -/
def owned : State := { start with keys := [(511, { KeySlot.start with owner := 1023 })] }
def blocked (l : List Nat) : State := { owned with mgmt := { start.mgmt with tdblk := l } }
def scrubOf (c : Nat) : State := { start with mgmt := { start.mgmt with scrubBusy := true, scrubCtx := c } }
def ctxBusy (c : Nat) : State := { start with mgmt := { start.mgmt with ctxBusy := some c } }
/-- Context 1023 has a root scope at slot n, with state st, and no other thing of its own. -/
def rooted (st : ScopeSt) (busy : Option Nat) : State :=
  { start with
    scopes := [(65535, { ScopeSlot.start with gen := 1, st := st, ctx := 1023, depth := 1 })]
    mgmt := { start.mgmt with ctxBusy := busy } }
def rootHandle : W32 := scopeHandle 65535 1
def scopesFull : State := { start with scopes := (List.range 65536).map fun k => (k, { ScopeSlot.start with gen := 1, st := .live, ctx := 5, depth := 1 }) }

theorem sget_table {α : Type} (d v : α) (l : List Nat) {k : Nat} (h : k ∈ l) : sget d (l.map fun j => (j, v)) k = v := by
  induction l with
  | nil => cases h
  | cons j l ih =>
    simp only [List.map_cons, sget]
    split
    · rfl
    · next e => exact ih ((List.mem_cons.mp h).resolve_left e)

theorem none_free {s : State} (n : Nat) : ∀ left, (∀ k, n ≤ k → k < n + left → (s.scopeSlot k).st ≠ .free) → s.firstFree left n = none := by
  intro left
  induction left generalizing n with
  | zero => intro _; rfl
  | succ left ih =>
    intro h
    simp only [State.firstFree, if_neg (h n (Nat.le_refl _) (by omega))]
    exact ih (n + 1) fun k h1 h2 => h k (by omega) (by omega)

theorem no_scope_free : scopesFull.freeScope = none := by
  refine none_free 0 _ fun k _ hk => ?_
  have : scopesFull.scopeSlot k = { ScopeSlot.start with gen := 1, st := .live, ctx := 5, depth := 1 } := by
    simp only [State.scopeSlot, scopesFull]
    exact sget_table _ _ _ (List.mem_range.mpr (by simpa [scopeTableSize] using hk))
  rw [this]; decide

theorem witness_KeyAndTeardownPages :
    (PageEvent 255 511 0 8 1023 0 (.kstatWrite 255 511 0 8 0) ∧ 255 ≠ 0) ∧
    (1 ≤ 511 ∧ 511 < 512 ∧ ((blocked [1023]).slot 511).owner ∈ (blocked [1023]).mgmt.tdblk) ∧
    (1 ≤ 1 ∧ ((blocked [1023]).slot 1).owner ∉ (blocked [1023]).mgmt.tdblk) ∧
    (1 ≤ 511 ∧ 511 < 512 ∧ 7 < 8) ∧
    ((0x7FF : W64).getLsbD 11 = false ∧ (0xFFF : W64).getLsbD 11 = true) ∧
    ((scrubOf 1023).mgmt.scrubBusy = true ∧ (scrubOf 1023).mgmt.scrubCtx = (0xFFF : W64).toNat % 1024 ∧ (scrubOf 5).mgmt.scrubCtx ≠ (0xFFF : W64).toNat % 1024) ∧
    (start.mgmt.scrubBusy = false ∧ (0x800 : W64).toNat % 1024 = 0 ∧ (0xFFF : W64).toNat % 1024 ∉ start.mgmt.tdblk) ∧
    (let s := { rooted .live none with mgmt := { start.mgmt with tdblk := [1023] } }
     s.mgmt.scrubBusy = false ∧ (0xFFF : W64).toNat % 1024 ∈ s.mgmt.tdblk ∧ s.ctxQuiet 1023 = false) ∧
    ((blocked [1023]).mgmt.scrubBusy = false ∧ (0xFFF : W64).toNat % 1024 ∈ (blocked [1023]).mgmt.tdblk ∧ (blocked [1023]).ctxQuiet 1023 = true) ∧
    (ctxBusy 5).mgmt.ctxBusy ≠ none ∧
    (1023 < 1024 ∧ (blocked [1023]).mgmt.ctxBusy = none ∧ 1023 ∈ (blocked [1023]).mgmt.tdblk) ∧
    (1023 ∉ (rooted .live none).mgmt.tdblk ∧ ∃ p ∈ (rooted .live none).scopesInUse, p.2.ctx = 1023) ∧
    (scopesFull.mgmt.ctxBusy = none ∧ scopesFull.freeScope = none) ∧
    (start.mgmt.ctxBusy = none ∧ 1023 ∉ start.mgmt.tdblk ∧ (∀ p ∈ start.scopesInUse, p.2.ctx ≠ 1023) ∧ ∃ n, start.freeScope = some n) ∧
    start.rootOf 1023 = none ∧
    (1023 < 1024 ∧ (rooted .live none).mgmt.ctxBusy = none ∧ (rooted .live none).rootOf 1023 = some rootHandle ∧ (rooted .live none).scopeAt rootHandle ≠ none) ∧
    (ctxBusy 5).mgmt.ctxBusy ≠ some 1023 ∧
    (let s := rooted .dead (some 1023)
     s.mgmt.ctxBusy = some 1023 ∧ s.rootOf 1023 = some rootHandle ∧ s.scopeDead rootHandle = true ∧ s.quiet rootHandle = true ∧ s.subtree rootHandle = [rootHandle] ∧
      ∀ a ∈ s.acks, a.scope ≠ rootHandle) ∧
    4 ≠ 8 ∧
    start.scopeAt (lo32 0xFFFFFFFF) = none ∧
    ∃ k, (rooted .live none).scopeAt (lo32 (rootHandle.zeroExtend 64)) = some k ∧ k.st = .live ∧ (rootHandle.zeroExtend 64 : W64).getLsbD 32 = false := by
  have page : PageEvent 255 511 0 8 1023 0 (.kstatWrite 255 511 0 8 0) := by unfold PageEvent; decide
  have slot : ∃ n, start.freeScope = some n := Option.isSome_iff_exists.mp (by decide +kernel)
  have root : ∃ k, (rooted .live none).scopeAt (lo32 (rootHandle.zeroExtend 64)) = some k ∧ k.st = .live ∧
      (rootHandle.zeroExtend 64 : W64).getLsbD 32 = false :=
    ⟨{ ScopeSlot.start with gen := 1, st := .live, ctx := 1023, depth := 1 }, by decide +kernel, rfl, by decide +kernel⟩
  repeat' apply And.intro
  all_goals first
    | with_reducible exact page
    | with_reducible exact slot
    | with_reducible exact root
    | with_reducible exact no_scope_free
    | decide +kernel

/-! ### Errors, power, resets -/

/-- A resident group's core 239 is gated; core 0 holds group 0. -/
def gatedCores (l : List Nat) : State := { start with mgmt := { start.mgmt with gated := l } }
def fencedUnits (l : List UnitLoc) : State := { start with mgmt := { start.mgmt with fenced := l } }
def holding (due : Nat) (pending en : Bool) : State := { start with clk := 1000, mgmt := { start.mgmt with holdoff := some due, evPending := pending, mbEn := en } }

/-- The key of the code is loaded in slot 511 of context 1023. -/
def keyed : State := { start with keys := [(511, { KeySlot.start with assigned := true, owner := 1023, key := .loaded 1 })] }
theorem keyed_owner : ∃ sl p, sget none keyed.mem.seals (0x200000 / 32) = some sl ∧
    (keyed.keys.find? fun k => k.2.assigned && decide (k.2.key = sl.key)) = some p ∧ p.2.owner = 1023 := by
  have h : ((sget none keyed.mem.seals (0x200000 / 32)).any fun sl =>
      (keyed.keys.find? fun k => k.2.assigned && decide (k.2.key = sl.key)).any fun p => decide (p.2.owner = 1023)) = true := by decide +kernel
  generalize h1 : sget none keyed.mem.seals (0x200000 / 32) = o at h
  cases o with
  | none => cases h
  | some sl =>
    simp only [Option.any_some] at h
    generalize h2 : (keyed.keys.find? fun k => k.2.assigned && decide (k.2.key = sl.key)) = o at h
    cases o with
    | none => cases h
    | some q => exact ⟨sl, q, rfl, h2, by simpa using h⟩
theorem witness_DeviceEvents :
    (start.mgmt.thermal = false ∧ start.mgmt.fsen = true ∧ start.mgmt.bsen = true) ∧
    (65535 < 65536 ∧ { start with mgmt := { start.mgmt with thermal := true } }.mgmt.thermal = true ∧
      { start with mgmt := { start.mgmt with fsen := false, bsen := false } }.mgmt.fsen = false) ∧
    239 < 240 ∧
    239 ∉ start.mgmt.gated ∧
    (239 ∈ (gatedCores [239]).mgmt.gated ∧ ∀ g ∈ (gatedCores [239]).groups, g.2.place ≠ .resident 239) ∧
    ({ word := .memory 0, unit := .hbmRow 0, corrected := true } : EccEvent).corrected = true ∧
    (∃ g w, start.group? 0 = some g ∧ g.waves[0]? = some w ∧ 2047 < 2048 ∧ unitCore (.hbmRow 0) = none) ∧
    UnitLoc.engine 239 3 ∉ start.mgmt.fenced ∧
    (UnitLoc.engine 239 3 ∈ (fencedUnits [.engine 239 3]).mgmt.fenced ∧ ∀ core, unitCore (.engine 239 3) = some core → (fencedUnits [.engine 239 3]).groupsOn core = []) ∧
    (UnitLoc.laneSlice 239 15 ∈ (fencedUnits [.laneSlice 239 15]).mgmt.fenced ∧ (fencedUnits [.laneSlice 239 15]).groupsOn 239 = []) ∧
    UnitLoc.hbmRow 8191 ∈ (fencedUnits [.hbmRow 8191]).mgmt.fenced ∧
    start.mgmt.holdoff = none ∧
    ((holding 1001 false false).mgmt.holdoff = some 1001 ∧ (holding 1001 false false).clk < 1001) ∧
    ((holding 1000 false false).mgmt.holdoff = some 1000 ∧ 1000 ≤ (holding 1000 false false).clk ∧ (holding 1000 false false).mgmt.evPending = false) ∧
    ((holding 1000 true true).mgmt.holdoff = some 1000 ∧ 1000 ≤ (holding 1000 true true).clk ∧ (holding 1000 true true).mgmt.evPending = true ∧
      (holding 1000 true true).mgmt.mbEn = true) ∧
    (1023 < 1024 ∧ 511 ≠ 0) := by
  refine ⟨by decide +kernel, by decide +kernel, by decide, by decide +kernel, by decide +kernel, rfl, ?_, by decide +kernel, ⟨by decide +kernel, ?_⟩, by decide +kernel,
    by decide +kernel, rfl, by decide +kernel, by decide +kernel, by decide +kernel, by decide⟩
  · obtain ⟨x, h1, h2⟩ := find_entry (s := start) (P := fun x => (start.group? 0 = some x.g ∧ x.g.waves[0]? = some x.w)) (by decide +kernel)
    exact ⟨x.g, x.w, h2.1, h2.2, by decide, rfl⟩
  · intro core h; cases h; decide +kernel

/-! ### The mailbox -/

/-- A command's block, and the state whose host memory holds a block at 0x1000. -/
def blockOf (code : Nat) (fields : List (Nat × Nat × Nat)) : List Byte :=
  fields.foldl (fun b f => setField b f.1 f.2.1 f.2.2) (bytesOfNat 1 code ++ List.replicate 63 0)
def mailed (s : State) (b : List Byte) : State := { s with host := { s.host with cells := putCells s.host.cells 0x1000 b } }

theorem ready_of {s : State} {code : Nat} {b : List Byte}
    (h : decide (b = (mailed s b).hostBytes (0x1000 : W64).toNat 64) = true)
    (h2 : decide (fieldAt b 0 1 = code ∧ (b.drop 1).take 7 = List.replicate 7 0 ∧ s.mgmt.mbBusy = false ∧ s.host.failing = none ∧ (s.running = true ∨ code = 0)) = true) :
    MailReady (mailed s b) 0x1000 code b := by
  obtain ⟨a1, a2, a3, a4, a5⟩ := of_decide_eq_true h2
  exact ⟨of_decide_eq_true h, by decide, a1, a2, a3, a4, a5⟩

def withKeys (k : List (Nat × FabKey)) : State := { start with mgmt := { start.mgmt with fabKeys := k } }

theorem witness_MailboxCommands :
    (MailForm 255 0x1000 (.boot 255 0x1000) 0 none ∧ MailForm 255 0x1000 (.podidx 255 0x1000) 14 none ∧ ¬ Carries (mailed start (blockOf 255 [])) 0x1000 0 none ∧
      ¬ Carries (mailed start (blockOf 13 [])) 0x1000 14 none) ∧
    (MailForm 255 0x1000 (.ckptRestore 255 0x1000) 8 (some 1) ∧ ¬ Carries (mailed start (blockOf 8 [(8, 1, 0)])) 0x1000 8 (some 1) ∧
      Carries (mailed start (blockOf 8 [(8, 1, 1)])) 0x1000 8 (some 1)) ∧
    (let i := Instr.podidx 0 0x1000
     MailForm 0 0x1000 i 14 none ∧ Carries (mailed start (blockOf 14 [])) 0x1000 14 none ∧
      Carries (mailed { start with mgmt := { start.mgmt with mbBusy := true } } (blockOf 14 [])) 0x1000 14 none ∧
      (MailForm 0 0x1008 (.boot 0 0x1008) 0 none ∧ Carries (mailed start (blockOf 14 [])) 0x1008 0 none ∧ (0x1008 : W64).toNat % 64 ≠ 0) ∧
      (Carries (mailed start (blockOf 14 [(7, 1, 1)])) 0x1000 14 none ∧
        (((mailed start (blockOf 14 [(7, 1, 1)])).hostBytes (0x1000 : W64).toNat 64).drop 1).take 7 ≠ List.replicate 7 0) ∧
      (Carries (mailed State.reset (blockOf 14 [])) 0x1000 14 none ∧ State.reset.mgmt.mbBusy = false ∧ State.reset.host.failing ≠ some false ∧
        (((mailed State.reset (blockOf 14 [])).hostBytes (0x1000 : W64).toNat 64).drop 1).take 7 = List.replicate 7 0 ∧ (mailed State.reset (blockOf 14 [])).running = false)) ∧
    (∀ p ∈ [(1024, 0), (0, 2), (1023, 1)], MailReady (mailed start (blockOf 2 [(8, 2, p.1), (0xA, 1, p.2)])) 0x1000 2 (blockOf 2 [(8, 2, p.1), (0xA, 1, p.2)]) ∧
      fieldAt (blockOf 2 [(8, 2, p.1), (0xA, 1, p.2)]) 8 2 = p.1 ∧ fieldAt (blockOf 2 [(8, 2, p.1), (0xA, 1, p.2)]) 0xA 1 = p.2) ∧
    (∀ us ∈ [999, 10000001, 1000, 10000000], MailReady (mailed start (blockOf 7 [(8, 1, 255), (0xC, 4, us)])) 0x1000 7 (blockOf 7 [(8, 1, 255), (0xC, 4, us)]) ∧
      fieldAt (blockOf 7 [(8, 1, 255), (0xC, 4, us)]) 0xC 4 = us) ∧
    (∀ gen ∈ [0, 3, 65535], ∀ k ∈ [[], [(255, { gen := 2, key := 7, prev := none })]],
      let b := blockOf 10 [(8, 1, 255), (0xA, 2, gen), (0x10, 32, 9)]
      MailReady (mailed (withKeys k) b) 0x1000 10 b ∧ fieldAt b 8 1 = 255 ∧ fieldAt b 0xA 2 = gen ∧ (mailed (withKeys k) b).mgmt.jobs = [] ∧
      ((aget k 255).all fun v => decide (v.gen + 1 = 3)) = true) ∧
    (∀ p ∈ [(0, 1), (1025, 1), (1, 0), (1, 1000001), (1024, 1000000)], let b := blockOf 11 [(8, 4, 1), (0x10, 8, 1), (0xC, 2, p.1), (0x18, 4, p.2)]
      MailReady (mailed start b) 0x1000 11 b ∧ fieldAt b 0xC 2 = p.1 ∧ fieldAt b 0x18 4 = p.2) ∧
    (∀ i ∈ [1023, 1024], ∀ q ∈ [none, some 0], MailReady (mailed { start with mgmt := { start.mgmt with podidx := q } } (blockOf 14 [(8, 2, i)])) 0x1000 14 (blockOf 14 [(8, 2, i)]) ∧
      fieldAt (blockOf 14 [(8, 2, i)]) 8 2 = i) := by
  unfold MailReady MailForm Carries
  repeat' apply And.intro
  all_goals decide +kernel

/-! ### The mailbox's work -/

def dumpOf (kind state gid : Nat) : FaultEntry := { dumpid := 5, kind := kind, state := state, cause := 1, aux := 0, ctx := 0, queue := 0, origin := 0, tag := 0, lanes := 0, pc := 0,
                                                    value := 0, image := 3, time := 9, gid := gid }
def dumped (c : Nat) (e : FaultEntry) : State := { start with mgmt := { start.mgmt with faultList := [(c, [e])] } }
theorem dump_alone {s : State} {gid : Nat} (h : s.mgmt.faultList = [(0, [dumpOf 1 0 gid])]) : DumpHeld s 5 (dumpOf 1 0 gid) := by
  refine ⟨⟨(0, [dumpOf 1 0 gid]), by rw [h]; simp, by simp⟩, rfl, rfl, rfl, fun p hp d hd _ => ?_⟩
  rw [h, List.mem_singleton] at hp
  subst hp
  exact List.mem_singleton.mp hd
theorem dump_held (b : List Byte) (gid : Nat) : DumpHeld (mailed (dumped 0 (dumpOf 1 0 gid)) b) 5 (dumpOf 1 0 gid) := dump_alone rfl

/-- The group is DUMPED, its entry parked in FAULT with a record of its last lane. -/
def parkedDump : State :=
  onWave (onGroup (onEntry (dumped 0 (dumpOf 1 0 0)) fun e => { e with st := .fault, pc := 0x10000 }) fun g => { g with place := .dumped }) fun w =>
    { w with faults := [(31, { cause := .illegalInstr, skip := false, pc := 0x10000, value := 0 })] }
theorem witness_resume : let b := blockOf 4 [(8, 8, 5)]
    let s := mailed parkedDump b
    MailReady s 0x1000 4 b ∧ fieldAt b 0x10 8 = 0 ∧ fieldAt b 8 8 = 5 ∧ DumpHeld s 5 (dumpOf 1 0 0) ∧ resumable s 0 = true ∧
    ∃ g w x, s.group? 0 = some g ∧ g.waves[0]? = some w ∧ w.pend = [] ∧ w.entry? 0 = some x ∧ x.st = .fault ∧
      (∃ l r, x.mask.getLsbD l = true ∧ aget w.faults l = some r) ∧ (∀ (l : Nat) (r : FaultRec), x.mask.getLsbD l = true → aget w.faults l = some r → r.pc = x.pc) ∧
      (∀ (j : Nat) (y : Entry), j ≠ 0 → w.entry? j = some y → y.mask &&& x.mask = 0) ∧ ∀ q : Path, some q ∈ w.spill → q.mask &&& x.mask = 0 := by
  intro b s
  refine ⟨by unfold MailReady; decide +kernel, by decide +kernel, by decide +kernel, dump_alone rfl, by decide +kernel, _, _, _, rfl, rfl, rfl, rfl, rfl,
    ⟨31, _, by decide +kernel, rfl⟩, fun l r _ h => ?_, fun j y hj hy => ?_, fun q hq => ?_⟩
  · rw [aget_cons] at h
    split at h
    · cases h; rfl
    · cases h
  · cases j with
    | zero => exact absurd rfl hj
    | succ j =>
      have h : (none :: List.replicate 6 none : List (Option Entry))[j]?.join = some y := hy
      rw [← List.replicate_succ, List.getElem?_replicate] at h
      split at h <;> cases h
  · cases List.eq_of_mem_replicate (show some q ∈ List.replicate 8 none from hq)

/-- The group's gang has been stopped and is held. -/
def heldGang : State :=
  { onGroup start fun g => { g with place := .saved, park := true } with
    launches := [(0, { placedLaunch with gangs := [{ Gang.start with st := .held, groups := [0], cluster := 0 }] })] }
theorem witness_release : ∀ flags ∈ [0, 2], let b := blockOf 6 [(0xA, 1, flags)]
    let s := mailed heldGang b
    MailReady s 0x1000 6 b ∧ (stopArg b).ctx < 1024 ∧ fieldAt b 0xA 1 = flags ∧ ∃ g k, s.groups.filter (fun p => p.2.ctx = fieldAt b 8 2) = [(0, g)] ∧
      (stopArg b).names g = true ∧ isHeld s g = true ∧ g.task = none ∧ s.gangOf g = some k ∧ k.st = .held := by
  intro flags hf
  rcases List.mem_cons.mp hf with rfl | hf
  · exact ⟨by unfold MailReady; decide +kernel, by decide +kernel, by decide +kernel, _, _, rfl, by decide +kernel, by decide +kernel, rfl, rfl, rfl⟩
  · rw [List.mem_singleton.mp hf]
    exact ⟨by unfold MailReady; decide +kernel, by decide +kernel, by decide +kernel, _, _, rfl, by decide +kernel, by decide +kernel, rfl, rfl, rfl⟩

def ckptBlock (op devices self range : Nat) : List Byte := blockOf 8 [(8, 1, op), (0xA, 2, devices), (0xC, 2, self), (0x10, 8, 7), (0x18, 8, 0x3000), (0x20, 8, range), (0x28, 8, 2 ^ 48)]
def emptied : State := { start with groups := [] }
/-- Host memory holds a job's descriptor at 0x2000. -/
def described9 (jobs : List Job) (dead : List Nat) : State :=
  { start with host := { start.host with cells := putCells [] 0x2000 jobBytes }, mgmt := { start.mgmt with jobs := jobs, dead := dead } }
def reduceBlock (addr : Nat) : List Byte := blockOf 9 [(8, 8, addr)]
def errorsHeld : State := { start with mgmt := { start.mgmt with errlog := [{ seq := 6, kind := 1, unit := 0, ctx := 0, count := 1, location := 0, time := 9 }] } }
def bootedAs (b : BootSt) (busy : Bool) : State := { start with mgmt := { start.mgmt with boot := b, scrubBusy := busy } }
def bootBlock (addr len : Nat) : List Byte := blockOf 0 [(8, 8, addr), (0x10, 8, len)]

/-- How an image is laid out is opaque (log 15): of any image, one of the two clauses of BOOT holds. -/
theorem witness_boot_check (image : List Byte) : (∀ v, vendorCheck image = some v → v.toNat < Config.fusedMinimum.toNat) ∨
    ∃ v, vendorCheck image = some v ∧ Config.fusedMinimum.toNat ≤ v.toNat := by
  by_cases h : ∃ v, vendorCheck image = some v ∧ Config.fusedMinimum.toNat ≤ v.toNat
  · exact .inr h
  · refine .inl fun v hv => Nat.lt_of_not_le fun hle => h ⟨v, hv, hle⟩

theorem witness_MailboxWork :
    ((∀ p ∈ [(0x10800, 1), (0x10000, 0), (0x10000, 64 * 2 ^ 20 + 1), (0x10000, 1), (0xFFFFF000, 64 * 2 ^ 20)],
        MailReady (mailed start (bootBlock p.1 p.2)) 0x1000 0 (bootBlock p.1 p.2) ∧ fieldAt (bootBlock p.1 p.2) 8 8 = p.1 ∧ fieldAt (bootBlock p.1 p.2) 0x10 8 = p.2) ∧
      start.running = true ∧ MailReady (mailed (bootedAs .rom false) (bootBlock 0x10000 1)) 0x1000 0 (bootBlock 0x10000 1) ∧
      (mailed (bootedAs .rom false) (bootBlock 0x10000 1)).running = false ∧ (mailed (bootedAs .rom false) (bootBlock 0x10000 1)).mgmt.scrubBusy = false) ∧
    (∀ buf ∈ [0x1040, 0xFC0], let b := blockOf 1 [(8, 2, 1023), (0x10, 8, buf), (0x18, 4, 1)]
      MailReady (mailed start b) 0x1000 1 b ∧ fieldAt b 8 2 = 1023 ∧ fieldAt b 0x10 8 % 64 = 0 ∧ aget start.mgmt.faultList 1023 = none ∧ aget start.mgmt.faultLost 1023 = none ∧
      MailReady (mailed (dumped 1023 (dumpOf 0 0 0)) b) 0x1000 1 b ∧ 0 < fieldAt b 0x18 4 ∧ ((0x1000 : W64).toNat + 64 ≤ fieldAt b 0x10 8 ∨ fieldAt b 0x10 8 + 64 ≤ (0x1000 : W64).toNat) ∧
      (mailed (dumped 1023 (dumpOf 0 0 0)) b).mgmt.faultList = [(1023, [dumpOf 0 0 0])] ∧ (mailed (dumped 1023 (dumpOf 1 0 0)) b).mgmt.faultList = [(1023, [dumpOf 1 0 0])]) ∧
    (∀ e ∈ [dumpOf 0 0 0, dumpOf 1 1 0], let b := blockOf 3 [(8, 8, 5)]
      MailReady (mailed (dumped 0 e) b) 0x1000 3 b ∧ (e.dumpid = fieldAt b 8 8 → e.kind ≠ 1 ∨ e.state ≠ 0)) ∧
    (let b := blockOf 3 [(8, 8, 5)]
     let s := mailed (dumped 0 (dumpOf 1 0 0)) b
     MailReady s 0x1000 3 b ∧ DumpHeld s 5 (dumpOf 1 0 0) ∧ fieldAt b 8 8 = 5 ∧ (s.group? 0).isSome = true) ∧
    (let b := blockOf 4 [(8, 8, 5), (0x10, 8, 2 ^ 64 - 4)]
     MailReady (mailed start b) 0x1000 4 b ∧ fieldAt b 0x10 8 % 4 = 0 ∧ start.mgmt.faultList = [] ∧
     (let s := mailed (dumped 0 (dumpOf 1 0 99)) b
      MailReady s 0x1000 4 b ∧ DumpHeld s 5 (dumpOf 1 0 99) ∧ fieldAt b 8 8 = 5 ∧ resumable s 99 = false)) ∧
    (let b := blockOf 4 [(8, 8, 5)]
     let s := mailed (dumped 0 (dumpOf 1 0 0)) b
     MailReady s 0x1000 4 b ∧ fieldAt b 0x10 8 = 0 ∧ DumpHeld s 5 (dumpOf 1 0 0) ∧ fieldAt b 8 8 = 5 ∧ resumable s 0 = true ∧ (s.group? 0).isSome = true) ∧
    (∀ p ∈ [(1024, 0), (0, 4)], ∀ code ∈ [5, 6], let b := blockOf code [(8, 2, p.1), (0xA, 1, p.2)]
      MailReady (mailed start b) 0x1000 code b ∧ fieldAt b 8 2 = p.1 ∧ fieldAt b 0xA 1 = p.2) ∧
    (∀ code ∈ [5, 6], let b := blockOf code [(8, 2, 1023)]
      MailReady (mailed start b) 0x1000 code b ∧ fieldAt b 8 2 = 1023 ∧ fieldAt b 0xA 1 = 0 ∧ ∀ g ∈ start.groups, g.2.ctx ≠ 1023) ∧
    (let b := blockOf 5 []
     let s := mailed start b
     MailReady s 0x1000 5 b ∧ fieldAt b 8 2 = 0 ∧ fieldAt b 0xA 1 = 0 ∧ ∃ g, s.groups.filter (fun p => p.2.ctx = 0) = [(0, g)] ∧ s.group? 0 = some g ∧ g.place = .resident 0 ∧
       s.gangMembers 0 g = [0] ∧ s.awaitsRemote [0] = false ∧ g.stop = none ∧ 0 ∉ s.mgmt.gated) ∧
    (let b := blockOf 6 [(0xA, 1, 1)]
     MailReady (mailed start b) 0x1000 6 b ∧ fieldAt b 0xA 1 % 2 = 1) ∧
    (∀ op ∈ [0, 1], ∀ p ∈ [(1, 0), (1025, 0), (2, 2)], let b := ckptBlock op p.1 p.2 0x4000
      MailReady (mailed start b) 0x1000 8 b ∧ fieldAt b 0xA 2 = p.1 ∧ fieldAt b 0xC 2 = p.2 ∧ fieldAt b 8 1 = op) ∧
    (∀ p ∈ [(0, 0x1040), (0, 0x4000), (1, 0x4000)], let b := ckptBlock p.1 1024 1023 p.2
      MailReady (mailed emptied b) 0x1000 8 b ∧ fieldAt b 8 1 = p.1 ∧ ckptOk b = true ∧ emptied.groups = [] ∧ (0x1000 : W64).toNat + 64 ≤ fieldAt b 0x20 8 ∧
        ((mailed emptied b).host.cells.map fun c => c.1).Nodup) ∧
    (MailReady (mailed start (reduceBlock 0x2020)) 0x1000 9 (reduceBlock 0x2020) ∧ fieldAt (reduceBlock 0x2020) 8 8 % 64 ≠ 0) ∧
    (let b := reduceBlock 0x2000
     let s := mailed (described9 [jobOf 0 []] []) b
     let t := mailed (described9 [] []) b
     MailReady s 0x1000 9 b ∧ MailReady t 0x1000 9 b ∧ fieldAt b 8 8 % 64 = 0 ∧ s.hostBytes (fieldAt b 8 8) 128 = jobBytes ∧ t.hostBytes (fieldAt b 8 8) 128 = jobBytes ∧
     jobDescOk jobBytes = true ∧ s.job? (jobDesc jobBytes).id = some (jobOf 0 []) ∧ (jobOf 0 []).desc ≠ [] ∧ (jobOf 0 []).state ≠ 2 ∧ t.job? (jobDesc jobBytes).id = none ∧
     (∀ p ∈ (jobDesc jobBytes).parent :: (jobDesc jobBytes).children, p ∉ t.mgmt.dead) ∧ (jobDesc jobBytes).children ≠ []) ∧
    (∀ buf ∈ [0x1020, 0x1040, 0xF00], let b := blockOf 12 [(0x28, 8, buf)]
      MailReady (mailed (bootedAs (.running 7 (List.replicate 64 9)) false) b) 0x1000 12 b ∧ fieldAt b 0x28 8 = buf ∧ (buf % 64 ≠ 0 ∨ (0x1000 : W64).toNat + 64 ≤ buf ∨ buf + 224 ≤ (0x1000 : W64).toNat)) ∧
    (bootedAs (.running 7 (List.replicate 64 9)) false).mgmt.boot = .running 7 (List.replicate 64 9) ∧
    ∀ p ∈ [(0x1020, 5), (0x1040, 5), (0xFC0, 6)], let b := blockOf 13 [(8, 8, p.2), (0x10, 8, p.1), (0x18, 4, 1)]
      MailReady (mailed errorsHeld b) 0x1000 13 b ∧ fieldAt b 0x10 8 = p.1 ∧ fieldAt b 8 8 = p.2 ∧ 0 < fieldAt b 0x18 4 ∧ (∀ e ∈ errorsHeld.mgmt.errlog, e.seq ≤ 6 ∧ 5 < e.seq) ∧
      (p.1 % 64 ≠ 0 ∨ (0x1000 : W64).toNat + 64 ≤ p.1 ∨ p.1 + 64 ≤ (0x1000 : W64).toNat) := by
  refine ⟨by unfold MailReady; decide +kernel, by unfold MailReady; decide +kernel, by unfold MailReady; decide +kernel, ⟨by unfold MailReady; decide +kernel, dump_held _ _, by decide +kernel⟩,
    ⟨by unfold MailReady; decide +kernel, by decide +kernel, rfl, by unfold MailReady; decide +kernel, dump_held _ _, by decide +kernel⟩,
    ⟨by unfold MailReady; decide +kernel, by decide +kernel, dump_held _ _, by decide +kernel⟩, by unfold MailReady; decide +kernel, by unfold MailReady; decide +kernel,
    ⟨by unfold MailReady; decide +kernel, by decide +kernel, by decide +kernel, ?_⟩, by unfold MailReady; decide +kernel, by unfold MailReady; decide +kernel,
    by unfold MailReady; decide +kernel, by unfold MailReady; decide +kernel, by unfold MailReady; decide +kernel,
    by unfold MailReady; decide +kernel, rfl, by unfold MailReady; decide +kernel⟩
  obtain ⟨x, h1, h2⟩ := find_entry (s := start) (P := fun x => start.groups.filter (fun p => p.2.ctx = 0) = [(0, x.g)] ∧ start.group? 0 = some x.g ∧ x.g.place = .resident 0 ∧
    start.gangMembers 0 x.g = [0] ∧ start.awaitsRemote [0] = false ∧ x.g.stop = none ∧ 0 ∉ start.mgmt.gated) (by decide +kernel)
  exact ⟨x.g, h2⟩

/-! ### Steps -/

/-- The entry issues the word next. -/
def issuing (w : Nat) : State := { State.reset.withFetchWord 64 w with agenda := [.issue entry0] }
/-- What an issue of entry 0 asks of the state. -/
def mayStep (u : State) (x : Issue) : Prop :=
  u.mgmt.fenced = [] ∧ u.mayIssue x.g x.w = true ∧ x.w.wdefer = [] ∧ x.w.chosen = some 0 ∧ u.promiseKept wave0 x.w = true ∧ x.e.latch = none ∧ x.e.pc.toNat < 2 ^ 56 ∧
  (fetchAt u x.g.ctx x.e.pc.toNat).any (fetches u) = true
def nopWord : Nat := 0x0012000000000000
def wordAt (s : State) : Nat := ((s.issueOf entry0).bind fun x => (fetchAt s x.g.ctx x.e.pc.toNat).map fun t => (wordOfBytes ((s.readSite t 8).map fun b => b.1)).toNat).getD 0

theorem witness_StepRunsDecoded :
    (∀ w ∈ [nopWord, 0], (issuing w).agenda = .issue entry0 :: [] ∧ ∃ x, { issuing w with agenda := [] }.issueOf entry0 = some x ∧ mayStep { issuing w with agenda := [] } x ∧
      heldBack { issuing w with agenda := [] } x (.nop plainHdr { d := 0, a := 0, b := 0, c := 0, t := 0, fn := 0, rm := 0, md := 0 }) = false ∧ x.g.ctx = 0 ∧ wordAt (issuing w) = w) ∧
    (decode 0x0012000000000000 = .ok (.nop plainHdr { d := 0, a := 0, b := 0, c := 0, t := 0, fn := 0, rm := 0, md := 0 }) ∧ ∀ i, decode 0 ≠ .ok i) ∧
    ({ start with agenda := [.event .powerOn] }.agenda = .event .powerOn :: [] ∧ Instr.powerOn.hdr = none) ∧
    { start with agenda := [.hostRead 256 0xFFFF 1] }.agenda = .hostRead 256 0xFFFF 1 :: [] ∧ ∀ pa, UnitLoc.hbmRow pa ∉ start.mgmt.fenced := by
  unfold mayStep
  refine ⟨fun w hw => ⟨rfl, ?_⟩, ⟨by decide +kernel, fun i h => ?_⟩, ⟨rfl, rfl⟩, rfl, nofun⟩
  · simp only [List.mem_cons, List.not_mem_nil, or_false] at hw
    rcases hw with rfl | rfl
    · exact find_entry (by decide +kernel)
    · exact find_entry (by decide +kernel)
  · rw [test_reserved_opcode] at h; cases h

theorem witness_DecodeEncodeAgree :
    (Instr.nop plainHdr { d := 255, a := 0, b := 0, c := 0, t := 0, fn := 0, rm := 0, md := 0 }).wf = false ∧
    (let i := Instr.bra { y := true, ge := true, gn := true, gp := 7 } { j := 15, a := 0, pri := 200, off := -6 }
     i.wf = true ∧ ∃ w, encode i = some w) ∧
    (decode 0x0003E00191FFFFF4 = .ok (.bra plainHdr { j := 15, a := 0, pri := 200, off := -6 })) := by
  refine ⟨by decide +kernel, ⟨by decide +kernel, Option.isSome_iff_exists.mp (by decide +kernel)⟩, by decide +kernel⟩

theorem witness_MemoryStaysCanonical : ∃ t, MemoryCanonical (issuing nopWord) ∧ Steps (issuing nopWord) t := by
  have h : (match step (issuing nopWord) with
    | .next _ => true
    | _ => false) = true := by decide +kernel
  split at h
  · next t e => exact ⟨t, by unfold MemoryCanonical; decide +kernel, e⟩
  · cases h

/-! ### Single steps: the worked examples of spec/, each on the word it gives -/

/-- The wave after a step that issues a word, from a wave changed by f; and a register of a lane of it. -/
def stepped (w : Nat) (f : Wave → Wave) : Option Wave :=
  match step (onWave (issuing w) f) with
  | .next t => t.wave? 0 0
  | _ => none
def regAfter (w : Nat) (rs : List (Nat × Nat × W32)) (reg lane : Nat) : Option W32 :=
  (stepped w fun v => { v with regs := rs.foldl (fun m r => sput 0 (regKey r.1 r.2.1) r.2.2 m) v.regs }).map fun v => v.rawReg (v.wb + reg) lane

-- The word `movi v12, -5` of 01.
theorem test_movi : regAfter 0x00581801FFFFFFF6 [] 12 31 = some 0xFFFFFFFB := by decide +kernel
-- `cvt.i32.f32.rtz v3, v1` of 08, on -2.7, 3.0e9, minus infinity and a NaN.
theorem test_cvt : regAfter 0x00C0060200101040 [(1, 0, 0xC02CCCCD)] 3 0 = some 0xFFFFFFFE ∧ regAfter 0x00C0060200101040 [(1, 0, 0x4F32D05E)] 3 0 = some 0x7FFFFFFF := by
  decide +kernel
theorem test_cvt_special : regAfter 0x00C0060200101040 [(1, 0, 0xFF800000)] 3 0 = some 0x80000000 ∧ regAfter 0x00C0060200101040 [(1, 0, 0x7FC00000)] 3 0 = some 0 := by
  decide +kernel
-- `winb.rel 32` of 05 moves the window of a wave of 256 registers from 96 to 128, and not from 160.
theorem test_winb : (stepped 0x0016032000000040 fun w => { w with nregs := 256, wb := 96 }).map (fun w => w.wb) = some 128 ∧
    (stepped 0x0016032000000040 fun w => { w with nregs := 256, wb := 160 }).map (fun w => w.wb) = some 160 := by decide +kernel
-- `?p1 bra j0, then` of 05: the taken lanes at the target with its priority, the others after the branch in a second entry.
theorem test_bra : (stepped 0x4202000190000004 fun w => { w with preds := w.preds.set 1 0xFFF }).map (fun w =>
    ((w.entry? 0).map fun e => (e.mask, e.pri), (w.entry? 1).map fun e => (e.mask, e.pri), w.jm[0]?)) =
    some (some (0xFFF, 200), some (0xFFFFF000, 128), some 0xFFFFFFFF) := by decide +kernel
theorem test_bra_targets : (stepped 0x4202000190000004 fun w => { w with preds := w.preds.set 1 0xFFF }).map (fun w =>
    ((w.entry? 0).map fun e => e.pc.toNat % 256, (w.entry? 1).map fun e => e.pc.toNat % 256)) = some (some 0x18, some 0x08) := by decide +kernel

/-- The outcome's register of an instruction in a lane. -/
def execReg (i : Instr) (rs : List (Nat × Nat × W32)) (reg lane : Nat) : Option W32 :=
  match exec i (onWave start fun v => { v with regs := rs.foldl (fun m r => sput 0 (regKey r.1 r.2.1) r.2.2 m) v.regs }) with
  | .next t => (t.wave? 0 0).map fun v => v.rawReg (v.wb + reg) lane
  | _ => none

-- `bfe.i32 v2, v1, 4, 8` and its n32 form, and bits above 31 of 06.
theorem test_bfe : execReg (.bfe hd (rf 2 1 0xA4 0xA8 1 0 0 0)) [(1, 3, 0x00000F80)] 2 3 = some 0xFFFFFFF8 ∧
    execReg (.bfe hd (rf 2 1 0xA4 0xA8 2 0 0 0)) [(1, 3, 0x00000F80)] 2 3 = some 0xF8 := by decide +kernel
theorem test_bfe_high : execReg (.bfe hd (rf 2 1 3 0xA8 1 0 0 0)) [(1, 3, 0x80000000), (3, 3, 28)] 2 3 = some 0xFFFFFFF8 := by decide +kernel
-- `perm` of 06.
theorem test_perm : execReg (.perm hd (rf 2 4 5 6 0 0 0 0)) [(4, 9, 0x44332211), (5, 9, 0x88776655), (6, 9, 0x18170C07)] 2 9 = some 0x88FF0088 := by decide +kernel
-- `shfd.dn.rot.seg8.b32 v4, v2, 1, -1` of 06 rotates within eight lanes: lane 3 receives lane 4's v2, lane 7 lane 0's.
theorem test_shfd : execReg (.shfd hd (rf 4 2 0xA1 0xBF 0 10 0 0)) [(2, 4, 77), (2, 0, 55)] 4 3 = some 77 ∧
    execReg (.shfd hd (rf 4 2 0xA1 0xBF 0 10 0 0)) [(2, 4, 77), (2, 0, 55)] 4 7 = some 55 := by decide +kernel
theorem test_shfd_keeps : execReg (.shfd hd (rf 4 2 0xA1 0xBF 0 8 0 0)) [(2, 0, 55), (4, 7, 9)] 4 7 = some 9 := by decide +kernel
-- `match` of 06: A = 7, 3, 7, 7 in lanes 0 to 3, M naming those four, the only ones left.
theorem test_match : [0, 1, 2, 3].map (fun n => match exec (.matchLanes hd (rf 2 4 0 0xAF 0 n 0 0)) (onEntry (onWave start fun v =>
      { v with live := 0xF, regs := [(regKey 4 0, 7), (regKey 4 1, 3), (regKey 4 2, 7), (regKey 4 3, 7)] }) fun e => { e with mask := 0xF }) with
    | .next t => (t.wave? 0 0).map fun v => v.rawReg 2 3
    | _ => none) = [some 0xD, some 0, some 2, some 2] := by decide +kernel
-- Log-domain products of 07: 0x15 times 0x0E of other signs gives 0x33; 0x1E times 0x1E saturates.
theorem test_lmul : execReg (.lmul hd (rf 2 4 5 0 14 0 0 0)) [(4, 0, 0x15), (5, 0, 0x2E)] 2 0 = some 0x33 ∧
    execReg (.lmul hd (rf 2 4 5 0 14 0 0 0)) [(4, 0, 0x1E), (5, 0, 0x1E)] 2 0 = some 0x1F := by decide +kernel

-- `pk6.h1.dith.f32 v40, v8, s3` of 08, on the word given there: s3 selects the code 0x15 or 0x16.
theorem test_pk6 : [17, 16].map (fun n => match exec (.pk6 hd (rf 40 8 0 0xC3 8 3 0 0)) (onGroup (onWave start fun v => { v with regs := [(regKey 8 0, 0x40266666)] })
      fun g => { g with sregs := [(3, n)] }) with
    | .next t => (t.wave? 0 0).map fun v => (v.rawReg 40 0).toNat % 64
    | _ => none) = [some 0x15, some 0x16] := by decide +kernel

end Sys2Proof.Tests
end

section
/-! PROOFS. The creation of a scope (R97): what `scope` answers, by the check that fails first. -/

namespace Sys2Proof.Machine

/-- The parent that `scope` names: S[A] with IMM[0], else the wave's current scope (R97). -/
def namedParent (x : Issue) (f : SF) : W32 := if f.imm.getLsbD 0 then sget 0 x.g.sregs f.a.toNat else x.g.scope

/-- SlotAvailable fails (R91, R97): the context is at its limit, or no slot of the table is FREE. -/
def NoScopeSlot (s : State) (ctx : Nat) : Prop :=
  s.scopeLimit ctx ≤ (s.scopesInUse.filter fun p => decide (p.2.ctx = ctx)).length ∨ ∀ n < 65536, (s.scopeSlot n).st ≠ .free

/-- The parent is not of the wave's context, or not in the subtree of its current scope (R97). -/
def ForeignParent (s : State) (g : Group) (parent : W32) (v : ScopeSlot) : Prop :=
  v.ctx ≠ g.ctx ∨ s.inSubtree parent g.scope = false

theorem scopeRoom_of_noScopeSlot {s : State} {ctx : Nat} (hn : NoScopeSlot s ctx) : s.scopeRoom ctx = none := by
  have hr := room_spec s ctx
  cases hs : s.scopeRoom ctx with
  | none => rfl
  | some n => rw [hs] at hr; exact absurd hn hr.1

theorem scopeRoom_of_slot {s : State} {ctx : Nat} (hn : ¬ NoScopeSlot s ctx) :
    ∃ n < 65536, (s.scopeSlot n).st = .free ∧ s.scopeRoom ctx = some n := by
  have hr := room_spec s ctx
  cases hs : s.scopeRoom ctx with
  | none => rw [hs] at hr; exact absurd hr hn
  | some n => rw [hs] at hr; exact ⟨n, hr.2.1, hr.2.2, rfl⟩

theorem scopeSet_putScope (s : State) (n : Nat) (v : ScopeSlot) : ScopeSet s (s.putScope n v) n v := ⟨rfl, fun k => slot_put s n k v⟩

theorem scopeNewOf_unnamed {s : State} {parent : W32} (hp : s.scopeAt parent = none) (g : Group) : scopeNewOf s g parent = (s, 0, 3) := by
  simp only [scopeNewOf, hp]

section Named
variable {s : State} {g : Group} {parent : W32} {v : ScopeSlot} (hp : s.scopeAt parent = some v)
include hp

/-! ## A child of a parent that its handle names -/

theorem createChild_deep (hd : v.depth = 16) (ctx : Nat) (auto pkt : Bool) : s.createChild ctx parent auto pkt = .error 2 := by
  simp only [State.createChild, hp, hd, maxDepth, if_true]

theorem createChild_full (hd : v.depth ≠ 16) {ctx : Nat} (hr : s.scopeRoom ctx = none) (auto pkt : Bool) :
    s.createChild ctx parent auto pkt = .error 1 := by
  simp only [State.createChild, hp, maxDepth, if_neg hd, hr]

theorem createChild_room (hd : v.depth ≠ 16) {ctx n : Nat} (hr : s.scopeRoom ctx = some n) (auto pkt : Bool) :
    s.createChild ctx parent auto pkt = .ok (s.openScope n ctx (v.depth + 1) parent auto pkt) := by
  simp only [State.createChild, hp, maxDepth, if_neg hd, hr]

/-! ## The statuses of `scope` -/

theorem scopeNewOf_not_live (hl : v.st ≠ .live) : scopeNewOf s g parent = (s, 0, 3) := by
  simp only [scopeNewOf, hp, if_pos hl]

theorem scopeNewOf_foreign (hl : v.st = .live) (hf : ForeignParent s g parent v) : scopeNewOf s g parent = (s, 0, 4) := by
  have hf' : (decide (v.ctx ≠ g.ctx) || !s.inSubtree parent g.scope) = true := by simpa [ForeignParent] using hf
  simp only [scopeNewOf, hp, if_neg (not_not.mpr hl), if_pos hf']

theorem scopeNewOf_refused (hl : v.st = .live) (hf : ¬ ForeignParent s g parent v) {k : Nat}
    (hc : s.createChild g.ctx parent false false = .error k) : scopeNewOf s g parent = (s, 0, k) := by
  have hf' : ¬ (decide (v.ctx ≠ g.ctx) || !s.inSubtree parent g.scope) = true := by simpa [ForeignParent] using hf
  simp only [scopeNewOf, hp, if_neg (not_not.mpr hl), if_neg hf', hc]

theorem scopeNewOf_created (hl : v.st = .live) (hf : ¬ ForeignParent s g parent v) {t : State} {c : W32}
    (hc : s.createChild g.ctx parent false false = .ok (t, c)) : scopeNewOf s g parent = (t, c, 0) := by
  have hf' : ¬ (decide (v.ctx ≠ g.ctx) || !s.inSubtree parent g.scope) = true := by simpa [ForeignParent] using hf
  simp only [scopeNewOf, hp, if_neg (not_not.mpr hl), if_neg hf', hc]

end Named

/-! ## The instruction -/

theorem scopeNewOf_group? (s : State) (g : Group) (p : W32) (k : Nat) : (scopeNewOf s g p).1.group? k = s.group? k :=
  congrArg (aget · k) (scopeNew_groups s g p)

theorem scopeNewOf_free (s : State) (g : Group) (parent : W32) : (scopeNewOf s g parent).1.free = s.free := by
  cases hp : s.scopeAt parent with
  | none => rw [scopeNewOf_unnamed hp]
  | some v =>
    by_cases hl : v.st = .live
    · by_cases hf : ForeignParent s g parent v
      · rw [scopeNewOf_foreign hp hl hf]
      · by_cases hd : v.depth = 16
        · rw [scopeNewOf_refused hp hl hf (createChild_deep hp hd ..)]
        · cases hr : s.scopeRoom g.ctx with
          | none => rw [scopeNewOf_refused hp hl hf (createChild_full hp hd hr ..)]
          | some n => rw [scopeNewOf_created hp hl hf (createChild_room hp hd hr ..)]; rfl
    · rw [scopeNewOf_not_live hp hl]

theorem exec_scopeNew {s : State} {x : Issue} (hx : s.issuer? = some x) (hc : Clean x) (h : Hdr) (f : SF) :
    exec (.scopeNew h f) s = .next (oncePerWave s x h (if f.imm.getLsbD 0 then [readS s x false f.a] else [])
      (finishGroup (scopeNewOf s x.g (namedParent x f)).1 x h fun g => g.putSregs x.ref.wi (scopeNewOf s x.g (namedParent x f)).1.free f.d.toNat
        [(scopeNewOf s x.g (namedParent x f)).2.1, BitVec.ofNat 32 (scopeNewOf s x.g (namedParent x f)).2.2])) := by
  have hp : (if f.imm.getLsbD 0 then lo32 (readS s x false f.a).val else x.g.scope) = namedParent x f := by
    rw [readS_of_clean hc, uniValue, if_neg Bool.false_ne_true, lo32_zext, namedParent]
  rw [scopeNewOf_free, ← hp]
  exact withIssuer_next hx _

/-- Settles O23: the case split follows the checks of R97 in their order; words_runs gives the words, the wave and the frame. -/
theorem scopeCreation : Obligations.ScopeCreation := by
  intro h f
  refine words_runs (fun s x => if f.imm.getLsbD 0 then [readS s x false f.a] else []) (fun s x => (scopeNewOf s x.g (namedParent x f)).1)
    (fun s x => [(scopeNewOf s x.g (namedParent x f)).2.1, BitVec.ofNat 32 (scopeNewOf s x.g (namedParent x f)).2.2])
    (fun s x hx hc _ => exec_scopeNew hx.1 hc h f) (fun s x hc r hr => ?sources) (fun s x _ _ _ => scopeNewOf_group? ..)
    (fun s x _ _ _ _ => ?answer)
  case sources =>
    split at hr
    · rw [List.mem_singleton.mp hr, readS_bad_of_clean hc]
    · cases hr
  case answer =>
    intro parent
    have hpar : namedParent x f = parent := rfl
    rw [hpar]
    cases hp : s.scopeAt parent with
    | none => rw [scopeNewOf_unnamed hp]; exact ⟨rfl, rfl⟩
    | some v =>
      dsimp only
      split_ifs with hl hf hd
      · rw [scopeNewOf_not_live hp hl]; exact ⟨rfl, rfl⟩
      · rw [scopeNewOf_foreign hp (not_not.mp hl) hf]; exact ⟨rfl, rfl⟩
      · rw [scopeNewOf_refused hp (not_not.mp hl) hf (createChild_deep hp hd ..)]; exact ⟨rfl, rfl⟩
      · refine ⟨fun hn => ?_, fun hn => ?_⟩
        · rw [scopeNewOf_refused hp (not_not.mp hl) hf (createChild_full hp hd (scopeRoom_of_noScopeSlot hn) ..)]; exact ⟨rfl, rfl⟩
        · obtain ⟨n, hlt, hfree, hr⟩ := scopeRoom_of_slot hn
          rw [scopeNewOf_created hp (not_not.mp hl) hf (createChild_room hp hd hr ..)]
          exact ⟨n, hlt, hfree, rfl, scopeSet_putScope ..⟩

end Sys2Proof.Machine
end

section
/-! PROOFS. Doorbells (R115, R116): what a queue makes of a value rung at it, which accesses of BAR2 reach a doorbell word, and what
the others do. -/

namespace Sys2Proof.Machine

/-! ## A queue that is rung -/

theorem queueSet_modQueue (s : State) (q : Nat) (f : Queue → Queue) : QueueSet s q (f (s.queue q)) (s.modQueue q f) :=
  ⟨rfl, fun k => sget_smod Queue.start q k f s.queues⟩

theorem ring_of_free {v : Queue} (hv : v.st = .free) (n : W64) : v.ring n = v := if_pos hv

theorem greater_eq_ofNat_max (a b : W64) : (if a.toNat < b.toNat then b else a) = BitVec.ofNat 64 (max a.toNat b.toNat) := by
  split_ifs with h
  · rw [max_eq_right h.le, BitVec.ofNat_toNat, BitVec.setWidth_eq]
  · rw [max_eq_left (not_lt.mp h), BitVec.ofNat_toNat, BitVec.setWidth_eq]

theorem ring_of_not_free {v : Queue} (hv : v.st ≠ .free) (n : W64) :
    v.ring n = Queue.checkOverrun { v with qdbv := BitVec.ofNat 64 (max v.qdbv.toNat n.toNat) } := by
  rw [Queue.ring, if_neg hv, greater_eq_ofNat_max]

/-! ## The doorbell word of a page -/

theorem rings_iff (s : State) (func q : Nat) : s.rings func q = true ↔ MayRing s func q := by
  simp only [State.rings, State.funcOn, Bool.or_eq_true, Bool.and_eq_true, decide_eq_true_eq]

theorem bytesOfNat_zero (n : Nat) : bytesOfNat n 0 = List.replicate n 0 := by
  induction n with
  | zero => rfl
  | succ n ih => rw [bytesOfNat, Nat.zero_div, ih, List.replicate_succ]; rfl

section Word
variable {q off : Nat} (hq : q < 4096) (ho : off < 8)
include hq ho

theorem doorbell_word : (4096 * q + off) / 4096 = q ∧ (4096 * q + off) % 4096 = off ∧ ¬ (queueCount ≤ q ∨ 8 ≤ off) := by
  unfold queueCount
  omega

theorem doorbellWrite_word (s : State) (func size : Nat) (value : W64) :
    doorbellWrite s func (4096 * q + off) size value =
      if MayRing s func q ∧ size = 8 ∧ off = 0 then s.modQueue q fun v => v.ring value
      else s.violation 2 func 2 1 (s.queue q).ctxOf (BitVec.ofNat 64 (4096 * q + off)) (BitVec.ofNat 64 q) := by
  obtain ⟨hpage, hoff, hin⟩ := doorbell_word hq ho
  have hdrop : (!s.rings func q || decide (size ≠ 8) || decide (off ≠ 0)) = true ↔ ¬ (MayRing s func q ∧ size = 8 ∧ off = 0) := by
    rw [← rings_iff]
    simp only [Bool.or_eq_true, Bool.not_eq_true', decide_eq_true_eq, ← Bool.not_eq_true]
    tauto
  simp only [doorbellWrite, hpage, hoff, if_neg hin, hdrop, ite_not]

theorem doorbellRead_word (s : State) (func size : Nat) :
    doorbellRead s func (4096 * q + off) size =
      if MayRing s func q then s.answer (if size = 8 ∧ off = 0 then bytesOfNat 8 (s.queue q).qdbv.toNat else List.replicate size 0)
      else (s.violation 13 func 2 0 (s.queue q).ctxOf (BitVec.ofNat 64 (4096 * q + off)) (BitVec.ofNat 64 q)).answer (List.replicate size 0) := by
  obtain ⟨hpage, hoff, hin⟩ := doorbell_word hq ho
  simp only [doorbellRead, hpage, hoff, if_neg hin, Bool.not_eq_true', ← Bool.not_eq_true, rings_iff, ite_not, bytesOfNat_zero]

end Word

theorem doorbellWrite_rest {off : Nat} (ho : 8 ≤ off % 4096 ∨ 4096 ≤ off / 4096) (s : State) (func size : Nat) (value : W64) :
    doorbellWrite s func off size value = s := if_pos ho.symm

/-! ## The events -/

theorem exec_doorbellWrite (func off size : Nat) (value : W64) (s : State) :
    exec (.doorbellWrite func off size value) s = .next (doorbellWrite s func off size value) := rfl

theorem exec_doorbellRead (func off size : Nat) (s : State) : exec (.doorbellRead func off size) s = .next (doorbellRead s func off size) := rfl

theorem exec_doorbellWrite_ring {s : State} {func q : Nat} (hq : q < 4096) (hr : MayRing s func q) (value : W64) :
    exec (.doorbellWrite func (4096 * q) 8 value) s = .next (s.modQueue q fun v => v.ring value) := by
  rw [exec_doorbellWrite, ← Nat.add_zero (4096 * q), doorbellWrite_word hq (by decide), if_pos ⟨hr, rfl, rfl⟩]

/-- Settles O38: doorbellWrite_word and doorbellRead_word say what an access of a doorbell word does, by who makes it and its size;
ring_of_free and ring_of_not_free say what the queue becomes. -/
theorem doorbells : Obligations.Doorbells := by
  refine ⟨fun s func q value hq hr hfree => ?free, fun s func q value hq hr hst => ?rung, fun s func q off size value hq ho hno => ?dropped,
    fun s func off size value ho => ?rest, fun s func q hq hr => ?read, fun s func q off size hq ho hr hno => ?zero,
    fun s func q off size hq ho hr => ?stranger⟩
  case free =>
    have h := queueSet_modQueue s q fun v => v.ring value
    rw [ring_of_free hfree] at h
    exact ⟨_, exec_doorbellWrite_ring hq hr value, h⟩
  case rung =>
    have h := queueSet_modQueue s q fun v => v.ring value
    rw [ring_of_not_free hst] at h
    exact ⟨_, exec_doorbellWrite_ring hq hr value, h⟩
  case dropped =>
    exact ⟨_, by rw [exec_doorbellWrite, doorbellWrite_word hq ho, if_neg hno], logged_violation ..⟩
  case rest => rw [exec_doorbellWrite, doorbellWrite_rest ho]
  case read => rw [exec_doorbellRead, ← Nat.add_zero (4096 * q), doorbellRead_word hq (by decide), if_pos hr, if_pos ⟨rfl, rfl⟩]; rfl
  case zero => rw [exec_doorbellRead, doorbellRead_word hq ho, if_pos hr, if_neg (not_and_or.mpr hno)]; rfl
  case stranger =>
    exact ⟨_, logged_violation .., by rw [exec_doorbellRead, doorbellRead_word hq ho, if_neg hr]; rfl⟩

end Sys2Proof.Machine
end

section
/-! PROOFS. Branches (R181, R199 to R206): the paths of a branch none of whose targets faults, where each path is placed, and what
each branch instruction makes of them. -/

namespace Sys2Proof.Machine

/-! ## The paths of lanes that all go to one target -/

/-- Every lane of a mask takes the branch to one address with one priority. -/
def GoTo (m : Mask) (tgt : Nat → Target) (pc : W64) (pri : Byte) : Prop := ∀ l, m.getLsbD l = true → tgt l = .go pc pri

/-- The path of the lanes of a mask, none of which faults. -/
def NewPath.good (m : Mask) (pc : W64) (pri : Byte) : NewPath := { mask := m, pc := pc, pri := pri, faulted := false }

theorem foldl_addPath_same (pc : W64) (pri : Byte) (ls : List Nat) (m : Mask) :
    ls.foldl (fun ps l => addPath l pc pri ps) [.good m pc pri] = [.good (ls.foldl (fun m l => m ||| Mask.one l) m) pc pri] := by
  induction ls generalizing m with
  | nil => rfl
  | cons l ls ih =>
    have hadd : addPath l pc pri [.good m pc pri] = [.good (m ||| Mask.one l) pc pri] := if_pos ⟨rfl, rfl⟩
    rw [List.foldl_cons, List.foldl_cons, hadd, ih]

theorem foldl_addPath_nil (pc : W64) (pri : Byte) (l : Nat) (ls : List Nat) :
    (l :: ls).foldl (fun ps l => addPath l pc pri ps) [] = [.good (Mask.ofList (l :: ls)) pc pri] := by
  have hone : (0 : Mask) ||| Mask.one l = Mask.one l := BitVec.zero_or
  rw [Mask.ofList, List.foldl_cons, List.foldl_cons, hone]
  exact foldl_addPath_same pc pri ls (Mask.one l)

section Targets
variable {m : Mask} {tgt : Nat → Target} {pc : W64} {pri : Byte} (ht : GoTo m tgt pc pri)
include ht

theorem GoTo.of_mem_lanes {l : Nat} (hl : l ∈ Mask.lanes m) : tgt l = .go pc pri := ht l ((mem_lanes m l).mp hl)

theorem branchBad_of_goTo : branchBad m tgt = 0 := by
  rw [branchBad, List.filter_eq_nil_iff.mpr fun l hl => ?_, ofList_nil]
  rw [ht.of_mem_lanes hl]
  exact Bool.false_ne_true

theorem branchFaults_of_goTo : branchFaults m tgt = [] :=
  List.filterMap_eq_nil_iff.mpr fun l hl => by rw [ht.of_mem_lanes hl]

theorem badHelpers_of_goTo (w : Wave) : badHelpers w m tgt = 0 := by
  rw [badHelpers, List.filter_eq_nil_iff.mpr fun l hl => ?_, ofList_nil]
  rw [mem_lanes, BitVec.getLsbD_and, Bool.and_eq_true] at hl
  rw [ht l hl.1]
  exact Bool.false_ne_true

theorem branchGoes_of_goTo (hm : m ≠ 0) : branchGoes m tgt = [.good m pc pri] := by
  have hstep : branchGoes m tgt = (Mask.lanes m).foldl (fun ps l => addPath l pc pri ps) [] :=
    List.foldl_ext _ _ _ fun ps l hl => by rw [ht.of_mem_lanes hl]
  rw [hstep]
  cases hl : Mask.lanes m with
  | nil => exact absurd (lanes_eq_nil hl) hm
  | cons l ls => rw [foldl_addPath_nil, ← hl, ofList_lanes]

/-- All lanes of the entry take the branch. -/
theorem branchPaths_whole {e : Entry} (hm : m ≠ 0) (he : e.mask &&& ~~~m = 0) : branchPaths e m tgt = [.good m pc pri] := by
  rw [branchPaths, branchGoes_of_goTo ht hm, branchBad_of_goTo ht]
  exact if_pos he

/-- Some lanes take it, and elsewhere than the others go on. -/
theorem branchPaths_split {e : Entry} (hm : m ≠ 0) (he : e.mask &&& ~~~m ≠ 0) (hne : ¬ (pc = e.pc + 8 ∧ pri = e.pri)) :
    branchPaths e m tgt = [.good m pc pri, .good (e.mask &&& ~~~m) (e.pc + 8) e.pri] := by
  have hfall : addFall (e.mask &&& ~~~m) (e.pc + 8) e.pri [.good m pc pri] =
      [.good m pc pri, .good (e.mask &&& ~~~m) (e.pc + 8) e.pri] :=
    if_neg fun hsame => hne ⟨hsame.1, hsame.2.1⟩
  rw [branchPaths, branchGoes_of_goTo ht hm, branchBad_of_goTo ht]
  exact (if_neg he).trans hfall

end Targets

theorem goTo_zero (tgt : Nat → Target) (pc : W64) (pri : Byte) : GoTo 0 tgt pc pri := fun l hl => by
  rw [show (0 : Mask).getLsbD l = false from BitVec.getLsbD_zero] at hl; cases hl

theorem and_not_zero (m : Mask) : m &&& ~~~(0 : Mask) = m := BitVec.and_allOnes

/-- No lane takes it. -/
theorem branchPaths_none {e : Entry} (he : e.mask ≠ 0) (tgt : Nat → Target) : branchPaths e 0 tgt = [.good e.mask (e.pc + 8) e.pri] := by
  have hgoes : branchGoes 0 tgt = [] := by rw [branchGoes, lanes_zero]; rfl
  rw [branchPaths, hgoes, branchBad_of_goTo (goTo_zero tgt 0 0), and_not_zero]
  exact if_neg he

/-! ## Where paths are placed -/

theorem firstBelow_eq_some {n i : Nat} {p : Nat → Bool} (hi : i < n) (hp : p i = true) (hlow : ∀ j < i, p j = false) :
    firstBelow n p = some i :=
  List.find?_range_eq_some.mpr ⟨hp, List.mem_range.mpr hi, fun j hj => by rw [hlow j hj]; rfl⟩

theorem firstBelow_eq_none {n : Nat} {p : Nat → Bool} (hp : ∀ j < n, p j = false) : firstBelow n p = none :=
  List.find?_eq_none.mpr fun j hj => by rw [hp j (List.mem_range.mp hj)]; exact Bool.false_ne_true

theorem filter_range_length_pos {n i : Nat} {p : Nat → Bool} (hi : i < n) (hp : p i = true) : 0 < ((List.range n).filter p).length :=
  List.length_pos_of_mem (List.mem_filter.mpr ⟨List.mem_range.mpr hi, hp⟩)

theorem filter_range_length_zero {n : Nat} {p : Nat → Bool} (hp : ∀ j < n, p j = false) : ((List.range n).filter p).length = 0 := by
  rw [List.filter_eq_nil_iff.mpr fun j hj => by rw [hp j (List.mem_range.mp hj)]; exact Bool.false_ne_true, List.length_nil]

theorem isNone_of_ne_none {α : Type} {o : Option α} (h : o ≠ none) : o.isNone = false :=
  Option.isNone_eq_false_iff.mpr (Option.isSome_iff_ne_none.mpr h)

section Room
variable {w : Wave} {i : Nat}

theorem room_pos_of_freeEntryAt (hf : FreeEntryAt w i) : 0 < w.room := by
  obtain ⟨hi, hnone, -⟩ := hf
  exact Nat.add_pos_left (filter_range_length_pos hi (by rw [hnone]; rfl)) _

theorem room_pos_of_freeSpillAt (hf : FreeSpillAt w i) : 0 < w.room := by
  obtain ⟨-, hi, hnone, -⟩ := hf
  exact Nat.add_pos_right _ (filter_range_length_pos hi (by rw [hnone]; rfl))

theorem room_zero (hfull : ∀ j < 8, w.entry? j ≠ none ∧ (w.spill[j]?).join ≠ none) : w.room = 0 := by
  rw [Wave.room, filter_range_length_zero fun j hj => isNone_of_ne_none (hfull j hj).1,
    filter_range_length_zero fun j hj => isNone_of_ne_none (hfull j hj).2]

theorem placePath_freeEntryAt (hf : FreeEntryAt w i) (p : NewPath) : w.placePath p = w.setEntry i (some (Entry.fresh p)) := by
  obtain ⟨hi, hnone, hlow⟩ := hf
  have hfree : w.freeEntry = some i := firstBelow_eq_some hi (by rw [hnone]; rfl) fun j hj => isNone_of_ne_none (hlow j hj)
  rw [Wave.placePath, hfree]

theorem placePath_freeSpillAt (hf : FreeSpillAt w i) (p : NewPath) :
    w.placePath p = { w with spill := w.spill.set i (some { pc := p.pc, mask := p.mask, pri := p.pri, faulted := p.faulted }) } := by
  obtain ⟨hfull, hi, hnone, hlow⟩ := hf
  have hentry : w.freeEntry = none := firstBelow_eq_none fun j hj => isNone_of_ne_none (hfull j hj)
  have hspill : w.freeSpill = some i := firstBelow_eq_some hi (by rw [hnone]; rfl) fun j hj => isNone_of_ne_none (hlow j hj)
  rw [Wave.placePath, hentry, hspill]
  rfl

/-- A change of an entry that holds a path leaves the same entries free. -/
theorem entry?_setEntry_ne_none {slot : Nat} {e : Entry} (he : w.entry? slot = some e) (e' : Entry) (j : Nat) :
    (w.setEntry slot (some e')).entry? j ≠ none ↔ w.entry? j ≠ none := by
  by_cases hj : j = slot
  · rw [hj, entry?_setEntry_self he, he]; exact iff_of_true nofun nofun
  · rw [entry?_setEntry_ne w hj]

theorem freeEntryAt_setEntry {slot : Nat} {e : Entry} (he : w.entry? slot = some e) (e' : Entry) (hf : FreeEntryAt w i) :
    FreeEntryAt (w.setEntry slot (some e')) i := by
  obtain ⟨hi, hnone, hlow⟩ := hf
  exact ⟨hi, not_not.mp fun h => (entry?_setEntry_ne_none he e' i).mp h hnone, fun j hj => (entry?_setEntry_ne_none he e' j).mpr (hlow j hj)⟩

theorem freeSpillAt_setEntry {slot : Nat} {e : Entry} (he : w.entry? slot = some e) (e' : Entry) (hf : FreeSpillAt w i) :
    FreeSpillAt (w.setEntry slot (some e')) i := by
  obtain ⟨hfull, hi, hnone, hlow⟩ := hf
  exact ⟨fun j hj => (entry?_setEntry_ne_none he e' j).mpr (hfull j hj), hi, hnone, hlow⟩

end Room

/-! ## The divergence procedure -/

theorem arm_mask (e : Entry) (h : Hdr) (n : Nat) : (e.arm h n).mask = e.mask := by
  unfold Entry.arm
  split_ifs <;> rfl

/-- Without pending results an entry goes on READY at its new path. -/
theorem goOn_of_clean {x : Issue} (hi : x.e.insn = none) (h : Hdr) (n : Nat) {w : Wave} (hp : w.pend = []) (m : Mask) (pc : W64) (pri : Byte) :
    w.goOn { (x.e.arm h n) with mask := m, pc := pc, pri := pri } = { x.e.on with mask := m, pc := pc, pri := pri } := by
  simp only [Wave.goOn, Wave.pendBefore, hp, Entry.arm, hi, Option.isSome_none, Entry.on]
  cases h.y <;> rfl

theorem rejoins_eq (x : Issue) (j : Nat) : (if j = 15 then x.w else { x.w with jm := setAt j x.e.mask x.w.jm }) = rejoins x j := by
  unfold rejoins
  split_ifs <;> rfl

section Branch
variable {s : State} {x : Issue} {h : Hdr} {j : Nat} {tgt : Nat → Target} {side : Wave → Wave} {pc : W64} {pri : Byte}
  (hx : Issues s x) (ht : GoTo (execMask h x.w x.e) tgt pc pri)
include hx ht

/-- There is room for the paths: the issuing entry takes the first, and the others are placed in turn. -/
theorem branch_places {w : Wave} (hside : side (rejoins x j) = w) (hp : w.pend = []) {m : Mask} {pc' : W64} {pri' : Byte} {ps : List NewPath}
    (hps : branchPaths x.e (execMask h x.w x.e) tgt = .good m pc' pri' :: ps) (hroom : ps.length ≤ x.w.room) :
    branch s x h j tgt side = s.setWave x.ref.gid x.ref.wi
      (ps.foldl Wave.placePath (w.setEntry x.ref.slot (some { x.e.on with mask := m, pc := pc', pri := pri' }))) := by
  have hfit : ¬ x.w.room + 1 < (NewPath.good m pc' pri' :: ps).length := by rw [List.length_cons]; omega
  simp only [branch, exec_of_insn_none h hx.2, badHelpers_of_goTo ht, and_not_zero, hps, if_neg hfit, rejoins_eq, hside, branchFaults_of_goTo ht,
    Wave.recordLanes, List.foldl_nil]
  rw [← goOn_of_clean hx.2 h x.w.nextSeq hp]
  rfl

/-- Every lane of the entry takes the branch. -/
theorem branch_whole (hw : Whole x h) {w : Wave} (hside : side (rejoins x j) = w) (hp : w.pend = []) :
    branch s x h j tgt side = movesTo s x pc pri w := by
  obtain ⟨hall, hne⟩ := hw
  have hps := branchPaths_whole (e := x.e) ht (by rwa [hall]) (by rw [hall]; exact BitVec.and_not_self _)
  rw [branch_places hx ht hside hp hps (Nat.zero_le _), hall]
  rfl

/-- No lane takes it. -/
theorem branch_falls_through (he : x.e.mask ≠ 0) (hnone : execMask h x.w x.e = 0) {w : Wave} (hside : side (rejoins x j) = w) (hp : w.pend = []) :
    branch s x h j tgt side = movesTo s x (x.e.pc + 8) x.e.pri w := by
  have hps : branchPaths x.e (execMask h x.w x.e) tgt = [.good x.e.mask (x.e.pc + 8) x.e.pri] := by rw [hnone, branchPaths_none he]
  rw [branch_places hx ht hside hp hps (Nat.zero_le _)]
  rfl

section Splits
variable (hsome : execMask h x.w x.e ≠ 0) (hrest : x.e.mask &&& ~~~(execMask h x.w x.e) ≠ 0) (hne : ¬ (pc = x.e.pc + 8 ∧ pri = x.e.pri))
include hsome hrest hne

/-- Some lanes take it, and the others find room. -/
theorem branch_splits (hp : x.w.pend = []) (hside : side (rejoins x j) = rejoins x j) (hroom : 0 < x.w.room) :
    branch s x h j tgt side = s.setWave x.ref.gid x.ref.wi
      (((rejoins x j).setEntry x.ref.slot (some { x.e.on with mask := execMask h x.w x.e, pc := pc, pri := pri })).placePath
        (.good (x.e.mask &&& ~~~(execMask h x.w x.e)) (x.e.pc + 8) x.e.pri)) :=
  branch_places hx ht hside hp (branchPaths_split ht hsome hrest hne) hroom

/-- Some lanes take it, and the others find none. -/
theorem branch_overflows (hfull : x.w.room = 0) : branch s x h j tgt side = parkWhole s x h .frontierOverflow 2 := by
  have hps := branchPaths_split (e := x.e) ht hsome hrest hne
  simp only [branch, exec_of_insn_none h hx.2, badHelpers_of_goTo ht, and_not_zero, hps, hfull]
  rfl

end Splits

end Branch

/-! ## Targets read from registers -/

theorem extractLsb'_eq_ofNat {n : Nat} (v : BitVec n) (i k : Nat) : v.extractLsb' i k = BitVec.ofNat k (v.toNat / 2 ^ i) := by
  rw [← Nat.shiftRight_eq_div_pow]; rfl

theorem extractLsb'_eq_zero {n : Nat} {v : BitVec n} {i k : Nat} (hv : v.toNat / 2 ^ i % 2 ^ k = 0) : v.extractLsb' i k = 0 := by
  rw [extractLsb'_eq_ofNat]
  exact BitVec.eq_of_toNat_eq (by rw [BitVec.toNat_ofNat, hv]; rfl)

theorem pairTarget_good {p : W64} (hlow : p.toNat < 2 ^ 56) (hal : p.toNat % 8 = 0) (pri : Byte) : pairTarget p pri = .go p pri := by
  have hhigh : p.extractLsb' 56 8 = 0 := extractLsb'_eq_zero (by omega)
  have hzero : p.extractLsb' 0 3 = 0 := extractLsb'_eq_zero (by omega)
  rw [pairTarget, if_neg (not_not.mpr hhigh), if_neg (not_not.mpr hzero)]

theorem linkTarget_good {p : W64} (hal : p.toNat % 8 = 0) :
    linkTarget p = .go (BitVec.ofNat 64 (p.toNat % 2 ^ 56)) (BitVec.ofNat 8 (p.toNat / 2 ^ 56)) := by
  have hzero : p.extractLsb' 0 3 = 0 := extractLsb'_eq_zero (by omega)
  have haddr : p &&& 0x00FFFFFFFFFFFFFF = BitVec.ofNat 64 (p.toNat % 2 ^ 56) := by
    apply BitVec.eq_of_toNat_eq
    rw [BitVec.toNat_and, BitVec.toNat_ofNat]
    exact (Nat.and_two_pow_sub_one_eq_mod p.toNat 56).trans (by omega)
  rw [linkTarget, if_neg (not_not.mpr hzero), haddr, extractLsb'_eq_ofNat]

/-- The lanes of a mask read one pair, which is a good target. -/
theorem goTo_srcTarget {s : State} {x : Issue} (hc : Clean x) {m : Mask} {a : Byte} {p pc : W64} {pri : Byte} {read : W64 → Target}
    (hread : ∀ l, m.getLsbD l = true → (readSrc s x .n64 a l).val = p) (hgood : read p = .go pc pri) :
    GoTo m (fun l => srcTarget x.w l (readSrc s x .n64 a l) read) pc pri := fun l hl => by
  simp only [srcTarget, readSrc_bad_of_clean hc, hread l hl, hgood]

theorem goTo_const (m : Mask) (pc : W64) (pri : Byte) : GoTo m (fun _ => .go pc pri) pc pri := fun _ _ => rfl

/-! ## The instructions -/

/-- The link written in the lanes of EXEC (R200). -/
def Issue.links (x : Issue) (h : Hdr) (a : Byte) (w : Wave) : Wave :=
  (Mask.lanes (execMask h x.w x.e)).foldl (fun w l => w.putDst a true l (linkValue x)) w

theorem links_words {x : Issue} (hc : Clean x) {h : Hdr} (hw : Whole x h) (a : Byte) (j : Nat) :
    ∃ regs l0 l1, x.links h a (rejoins x j) = { rejoins x j with regs := regs, l0 := l0, l1 := l1 } ∧
      DstWords x.w x.e.mask (dstReg x.w a) true (fun _ => linkValue x) regs ∧ LastResult x.w x.e.mask (fun _ => linkValue x) l0 l1 := by
  obtain ⟨-, hpoison, hlpoison, -, -⟩ := hc
  rw [Issue.links, hw.1]
  exact foldl_putDst_words a true (fun _ => linkValue x) x.e.mask (rejoins x j) hpoison hlpoison

section Instructions
variable {s : State} {x : Issue} (hx : Issues s x) (hc : Clean x) (h : Hdr) (f : JF)
include hx

theorem exec_bra : exec (.bra h f) s = .next (branch s x h f.j.toNat (fun _ => .go (jumpTarget x f) f.pri) id) := withIssuer_next hx.1 _

theorem exec_brx : exec (.brx h f) s = .next (branch s x h f.j.toNat
    (fun l => srcTarget x.w l (readSrc s x .n64 f.a l) fun t => pairTarget t f.pri) id) := withIssuer_next hx.1 _

theorem exec_ret : exec (.ret h f) s = .next (branch s x h f.j.toNat (fun l => srcTarget x.w l (readSrc s x .n64 f.a l) linkTarget) id) :=
  withIssuer_next hx.1 _

theorem exec_call : exec (.call h f) s = .next (branch s x h f.j.toNat (fun _ => .go (jumpTarget x f) f.pri) (x.links h f.a)) := by
  unfold Issue.links
  rw [← exec_of_insn_none h hx.2]
  exact withIssuer_next hx.1 _

/-- `callx` whose targets are all good writes its link as `call` does (R205). -/
theorem exec_callx {pc : W64} {pri : Byte}
    (ht : GoTo (execMask h x.w x.e) (fun l => srcTarget x.w l (readSrc s x .n64 f.a l) fun t => pairTarget t f.pri) pc pri) :
    exec (.callx h f) s = .next (branch s x h f.j.toNat
      (fun l => srcTarget x.w l (readSrc s x .n64 f.a l) fun t => pairTarget t f.pri) (x.links h f.a)) := by
  refine (withIssuer_next hx.1 _).trans (congrArg (fun side => Host.Outcome.next (branch s x h f.j.toNat _ side)) (funext fun w => ?_))
  rw [Issue.links, exec_of_insn_none h hx.2]
  exact List.foldl_ext _ _ _ fun w l hl => by simp only [ht.of_mem_lanes hl]; rfl

include hc

/-- `brs` asks for neither lanes nor a rejoin mask (R202). -/
theorem exec_brs : exec (.brs h f) s =
    .next (if (readSrc s x .n32 f.a 0).val ≠ 0 then movesTo s x (jumpTarget x f) f.pri x.w else goesOn s x x.w) := by
  refine (withIssuer_next hx.1 _).trans (congrArg Host.Outcome.next ?_)
  simp only [readSrc_bad_of_clean hc, ite_self]
  split_ifs with ha
  · have hon := goOn_of_clean hx.2 h x.w.nextSeq hc.1 (x.e.arm h x.w.nextSeq).mask (jumpTarget x f) f.pri
    exact congrArg (fun e => s.setWave x.ref.gid x.ref.wi (x.w.setEntry x.ref.slot (some e))) (hon.trans (by rw [arm_mask]; rfl))
  · exact finish_of_clean hx.2 h x.w hc.1

end Instructions

/-- Settles O17: branch_whole, branch_falls_through, branch_splits and branch_overflows say what the divergence procedure (R181) does by
the lanes that take the branch and the room for the others; each clause names the instruction's targets. That the others take the lowest
free entry or spill slot is the model's choice (log 24). -/
theorem branchResults : Obligations.BranchResults := by
  refine ⟨⟨fun h f s x hx hc hw => ?bra, fun h f s x hx hc he hnone => ?fallsThrough, fun h f s x p hx hc hw hread hlow hal => ?brx,
      fun h f s x hx hc hw => ?call, fun h f s x p hx hc hw hread hlow hal => ?callx, fun h f s x p hx hc hw hread hal => ?ret,
      fun h f s x hx hc ha => ?brsMoves, fun h f s x hx hc ha => ?brsGoesOn⟩,
    fun h f s x i hx hc hsplit hfree => ?freeEntry, fun h f s x i hx hc hsplit hfree => ?freeSpill, fun h f s x hx hc hsplit hreal hfull => ?full⟩
  case bra => rw [exec_bra hx, branch_whole hx (goTo_const _ _ _) hw (id_eq _) hc.1]
  case fallsThrough => rw [exec_bra hx, branch_falls_through hx (goTo_const _ _ _) he hnone (id_eq _) hc.1]
  case brx =>
    have ht := goTo_srcTarget hc (hw.1 ▸ hread) (read := fun t => pairTarget t f.pri) (pairTarget_good hlow hal f.pri)
    rw [exec_brx hx, branch_whole hx ht hw (id_eq _) hc.1]
  case call =>
    obtain ⟨regs, l0, l1, hlinks, hwords⟩ := links_words hc hw f.a f.j.toNat
    exact ⟨regs, l0, l1, by rw [exec_call hx, branch_whole hx (goTo_const _ _ _) hw hlinks hc.1], hwords⟩
  case callx =>
    have ht := goTo_srcTarget hc (hw.1 ▸ hread) (read := fun t => pairTarget t f.pri) (pairTarget_good hlow hal f.pri)
    obtain ⟨regs, l0, l1, hlinks, hwords⟩ := links_words hc hw f.a f.j.toNat
    exact ⟨regs, l0, l1, by rw [exec_callx hx h f ht, branch_whole hx ht hw hlinks hc.1], hwords⟩
  case ret =>
    have ht := goTo_srcTarget hc (hw.1 ▸ hread) (linkTarget_good hal)
    rw [exec_ret hx, branch_whole hx ht hw (id_eq _) hc.1]
  case brsMoves => rw [exec_brs hx hc, if_pos ha]
  case brsGoesOn => rw [exec_brs hx hc, if_neg (not_not.mpr ha)]
  case freeEntry =>
    obtain ⟨hsome, hrest, -, hne⟩ := hsplit
    obtain ⟨-, -, -, hentry⟩ := issuer_spec hx.1
    rw [exec_bra hx, branch_splits hx (goTo_const _ _ _) hsome hrest hne hc.1 (id_eq _) (room_pos_of_freeEntryAt hfree),
      placePath_freeEntryAt (freeEntryAt_setEntry (w := rejoins x f.j.toNat) hentry _ hfree)]
    rfl
  case freeSpill =>
    obtain ⟨hsome, hrest, -, hne⟩ := hsplit
    obtain ⟨-, -, -, hentry⟩ := issuer_spec hx.1
    rw [exec_bra hx, branch_splits hx (goTo_const _ _ _) hsome hrest hne hc.1 (id_eq _) (room_pos_of_freeSpillAt hfree),
      placePath_freeSpillAt (freeSpillAt_setEntry (w := rejoins x f.j.toNat) hentry _ hfree)]
    rfl
  case full =>
    obtain ⟨hsome, hrest, -, hne⟩ := hsplit
    exact ⟨_, by rw [exec_bra hx, branch_overflows hx (goTo_const _ _ _) hsome hrest hne (room_zero hfull)],
      parkWhole_parks hx.2 h hreal .frontierOverflow 2⟩

end Sys2Proof.Machine
end

section
/-! PROOFS. Integer arithmetic (R215, R216, R219 to R221): the instructions of two sources follow from their shared shape; `mad` and `abs`
deliver elements that are fitted in the same way; and the checks of R42 refuse the sat bit of `div` and `rem`. -/

namespace Sys2Proof.Machine

/-! ## Fitted results, element by element -/

/-- The operand whose element k is the exact value z k fitted (R216). -/
def fitElems (t : Ty) (sat : Bool) (z : Nat → Int) : W64 := ofElems t ((List.range (elemCount t)).map fun k => fit t sat (z k))

theorem fitted_fitElems (t : Ty) (sat : Bool) (z : Nat → Int) {k : Nat} (hk : k < elemCount t) :
    Fitted t sat (z k) (elemAt t (fitElems t sat z) k) := by
  rw [fitElems, elemAt_ofElems t _ (fun _ => fit_lt ..) hk]
  exact fitted_fit ..

/-- The elements of A and B, two to a number, come apart again: an element is narrower than a word. -/
theorem unpair_elemAt (t : Ty) (a b : W64) (k : Nat) :
    (elemAt t a k * 2 ^ 64 + elemAt t b k) / 2 ^ 64 = elemAt t a k ∧ (elemAt t a k * 2 ^ 64 + elemAt t b k) % 2 ^ 64 = elemAt t b k := by
  have hb : elemAt t b k < 2 ^ 64 := (elemAt_lt t b k).trans_le (Nat.pow_le_pow_right Nat.two_pos (tyWidth_le t))
  omega

theorem mad_eq_fitElems (t : Ty) (sat : Bool) (a b c : W64) :
    ofElems t (zip2 (fun pq r => fit t sat (intOf t (pq / 2 ^ 64) * intOf t (pq % 2 ^ 64) + intOf t r))
      (zip2 (fun p q => p * 2 ^ 64 + q) (elems t a) (elems t b)) (elems t c)) =
    fitElems t sat fun k => intOf t (elemAt t a k) * intOf t (elemAt t b k) + intOf t (elemAt t c k) := by
  simp only [elems_eq, zip2_map, unpair_elemAt, fitElems]

theorem abs_eq_fitElems (t : Ty) (sat : Bool) (a : W64) :
    ofElems t ((elems t a).map fun e => fit t sat ((intOf t e).natAbs : Int)) = fitElems t sat fun k => |intOf t (elemAt t a k)| := by
  simp only [elems_eq, List.map_map, Function.comp_def, Int.natCast_natAbs, fitElems]

/-! ## Instructions -/

section Instructions
variable {s : State} {x : Issue} (hx : Issues s x) (hc : Clean x) (h : Hdr) (f : RF)
include hx

theorem exec_mad : exec (.mad h f) s = .next (perLane s x h f.d (WF.ty f).is64
    (fun l => [srcA s x f (WF.ty f) l, srcB s x f (WF.ty f) l, srcC s x f (WF.ty f) l])
    fun l => fitElems (WF.ty f) (f.md.getLsbD 5) fun k =>
      intOf (WF.ty f) (elemAt (WF.ty f) (srcA s x f (WF.ty f) l).val k) * intOf (WF.ty f) (elemAt (WF.ty f) (srcB s x f (WF.ty f) l).val k)
        + intOf (WF.ty f) (elemAt (WF.ty f) (srcC s x f (WF.ty f) l).val k)) := by
  simp only [← mad_eq_fitElems]
  exact withIssuer_next hx.1 _

theorem exec_absI : exec (.absI h f) s = .next (perLane s x h f.d (WF.ty f).is64 (fun l => [srcA s x f (WF.ty f) l])
    fun l => fitElems (WF.ty f) (f.md.getLsbD 5) fun k => |intOf (WF.ty f) (elemAt (WF.ty f) (srcA s x f (WF.ty f) l).val k)|) := by
  simp only [← abs_eq_fitElems]
  exact withIssuer_next hx.1 _

include hc

/-- A per-lane instruction of unpoisoned sources that delivers the fitted values z: its result, its frame and its elements. -/
theorem fitted_of_exec_perLane {i : Instr} {srcs : Nat → List Src} (hs : ∀ l, ∀ r ∈ srcs l, r.bad = none) {sat : Bool} {z : Nat → Nat → Int}
    (hi : exec i s = .next (perLane s x h f.d (WF.ty f).is64 srcs fun l => fitElems (WF.ty f) sat (z l))) :
    ∃ t v, exec i s = .next t ∧ LaneResult s x (execMask h x.w x.e) f.d (WF.ty f).is64 v t ∧
      ∀ l k, k < elemCount (WF.ty f) → Fitted (WF.ty f) sat (z l k) (elemAt (WF.ty f) (v l) k) :=
  ⟨_, _, hi, perLane_runs hx hc h f.d _ srcs hs _, fun l _ hk => fitted_fitElems _ sat (z l) hk⟩

end Instructions

/-- Two operations that agree on the values of every type compute the same. -/
theorem IntegerResult.of_agree {mk : Hdr → RF → Instr} {op op' : Ty → Int → Int → Int} (hr : IntegerResult mk op)
    (hop : ∀ t p q, op t (intOf t p) (intOf t q) = op' t (intOf t p) (intOf t q)) : IntegerResult mk op' := by
  intro h f s x hx hc
  simpa only [hop] using hr h f s x hx hc

/-- By zero, an unsigned dividend is never negative, so that the sign of the dividend alone chooses the bound (R220). -/
theorem quot_intOf (t : Ty) (p : Nat) (b : Int) :
    quot t (intOf t p) b = if b = 0 then (if 0 ≤ intOf t p then typeMax t else typeMin t) else (intOf t p).tdiv b := by
  unfold quot
  cases hs : t.isSigned with
  | true => rfl
  | false => rw [if_neg Bool.false_ne_true, if_pos (intOf_nonneg hs p)]

/-! ## The sat bit -/

/-- A modifier bit outside a row's mask fails the row's check (R34). -/
theorem md_eq_false_of_getLsbD {f : RF} {m : BitVec 6} {i : Nat} (hi : i < 6) (hf : f.md.getLsbD i = true) (hm : m.getLsbD i = false) :
    WF.md f m = false := by
  refine decide_eq_false fun h0 => Bool.false_ne_true ?_
  calc false = (f.md &&& ~~~m).getLsbD i := by rw [h0]; exact BitVec.getLsbD_zero.symm
    _ = true := by rw [BitVec.getLsbD_and, BitVec.getLsbD_not, hf, hm, decide_eq_true hi]; rfl

theorem int2_sat_refused {f : RF} (hf : f.md.getLsbD 5 = true) (tys : List Ty) : WF.int2 f tys (WF.onSigned (WF.ty f) WF.mAB) = false := by
  have hm : (WF.onSigned (WF.ty f) WF.mAB).getLsbD 5 = false := by
    unfold WF.onSigned
    split_ifs <;> rfl
  rw [WF.int2, md_eq_false_of_getLsbD (by decide) hf hm, Bool.and_false]

theorem wf_eq_false_of_fieldsWf {i : Instr} (h : i.fieldsWf = false) : i.wf = false := by rw [Instr.wf, h, Bool.and_false]

/-- Settles O1: laneInt2_result gives the eight instructions of two sources, where only the quotient by zero is put in other words than the
model's; `mad` and `abs` deliver fitElems; and no row of `div` or `rem` has the sat bit in its mask. -/
theorem integerResults : Obligations.IntegerResults := by
  refine ⟨⟨laneInt2_result fun _ _ _ => rfl, laneInt2_result fun _ _ _ => rfl, laneInt2_result fun _ _ _ => rfl,
      laneInt2_result (op := mulHigh) fun _ _ _ => rfl, laneInt2_result fun _ _ _ => rfl, laneInt2_result fun _ _ _ => rfl, ?div,
      laneInt2_result (op := fun _ => remZ) fun _ _ _ => rfl⟩,
    ⟨fun h f s x hx hc => ?mad, fun h f s x hx hc => ?abs⟩, fun h f hf => ?sat⟩
  case div => exact (laneInt2_result (op := quot) fun _ _ _ => rfl).of_agree fun t p q => quot_intOf t p (intOf t q)
  case mad =>
    refine fitted_of_exec_perLane hx hc h f (fun l r hr => ?_) (exec_mad hx h f)
    simp only [List.mem_cons, List.not_mem_nil, or_false] at hr
    rcases hr with rfl | rfl | rfl <;> exact readSrc_bad_of_clean hc ..
  case abs =>
    refine fitted_of_exec_perLane hx hc h f (fun l r hr => ?_) (exec_absI hx h f)
    rw [List.mem_singleton.mp hr]
    exact readSrc_bad_of_clean hc ..
  case sat => exact ⟨wf_eq_false_of_fieldsWf (int2_sat_refused hf _), wf_eq_false_of_fieldsWf (int2_sat_refused hf _)⟩

end Sys2Proof.Machine
end
